-- ==== Sys2Proof/Word.lean ====
section
/-! DEFINITION. The word types of the YL9 and the plainest arithmetic on them (00_scope.md R5-R7, R12). -/

namespace Sys2Proof

/-- One byte. -/
abbrev Byte := BitVec 8
/-- A 16-bit code word (09 R206). -/
abbrev W16 := BitVec 16
/-- A vector lane, a broadcast register, a counter of 32 bits. -/
abbrev W32 := BitVec 32
/-- A scalar, control or parameter register. -/
abbrev W64 := BitVec 64
/-- A bundle (09 R212). -/
abbrev W384 := BitVec 384
/-- A vector register: 64 lanes of 32 bits (10 R233). -/
abbrev Lanes := Vector W32 64

/-- The vector whose lane `j` is `f j`. -/
def Lanes.build (f : Nat → W32) : Lanes := Vector.ofFn fun i => f i.val

/-- Lane `j` (0 above lane 63, which no instruction names). -/
def Lanes.lane (v : Lanes) (j : Nat) : W32 := if h : j < 64 then v[j] else 0

/-- The vector with `x` in every lane. -/
def Lanes.splat (x : W32) : Lanes := Vector.replicate 64 x

/-- `Bits(x, hi, lo)` of R12. -/
def bits (x hi lo : Nat) : Nat := (x >>> lo) % 2 ^ (hi - lo + 1)

/-- `SignExtend(x, n)` of R12: the n-bit field of `x` in two's complement. -/
def signExt (x n : Nat) : Int :=
  if (x >>> (n - 1)) % 2 = 1 then ((x % 2 ^ n : Nat) : Int) - (2 : Int) ^ n else ((x % 2 ^ n : Nat) : Int)

/-- `Ceil(a / b)` of naturals. -/
def ceilDiv (a b : Nat) : Nat := (a + b - 1) / b

/-- The low `n` bytes of `x`, least significant first (R7). -/
def toBytes : Nat → Nat → List Byte
  | 0, _ => []
  | n + 1, x => BitVec.ofNat 8 x :: toBytes n (x >>> 8)

/-- The number whose bytes are `l`, least significant first (R7). -/
def ofBytes : List Byte → Nat
  | [] => 0
  | b :: l => b.toNat + 256 * ofBytes l

end Sys2Proof
end

