-- ==== Sys2Proof/Machine/Hash.lean ====
section
/-! DEFINITION. The digests the spec names: CRC-32C (07 R152, 09 R205, 15 R369), the frame check sequence of IEEE 802.3 (18 R412), SHA-512, HMAC-SHA-512 and
HKDF-SHA-512 (09 R200, R201, 18 R432-R434). -/

namespace Sys2Proof.Machine

/-! ### CRC-32 -/

/-- One bit, and one byte, of a reflected CRC with the given polynomial. -/
def crc32Bit (poly x : Nat) : Nat := if x % 2 = 1 then (x / 2) ^^^ poly else x / 2
def crc32Byte (poly c : Nat) (b : Byte) : Nat := (List.range 8).foldl (fun x _ => crc32Bit poly x) (c ^^^ b.toNat)
/-- All ones in and out. -/
def crc32 (poly : Nat) (l : List Byte) : W32 := BitVec.ofNat 32 (l.foldl (crc32Byte poly) 0xFFFFFFFF ^^^ 0xFFFFFFFF)
/-- CRC-32C (Castagnoli). -/
def crc32c (l : List Byte) : W32 := crc32 0x82F63B78 l
/-- The frame check sequence of Ethernet. -/
def fcs32 (l : List Byte) : W32 := crc32 0xEDB88320 l

/-! ### SHA-512 -/

def shaK0 : List W64 :=
   [0x428A2F98D728AE22, 0x7137449123EF65CD, 0xB5C0FBCFEC4D3B2F, 0xE9B5DBA58189DBBC, 0x3956C25BF348B538,
    0x59F111F1B605D019, 0x923F82A4AF194F9B, 0xAB1C5ED5DA6D8118, 0xD807AA98A3030242, 0x12835B0145706FBE,
    0x243185BE4EE4B28C, 0x550C7DC3D5FFB4E2, 0x72BE5D74F27B896F, 0x80DEB1FE3B1696B1, 0x9BDC06A725C71235,
    0xC19BF174CF692694, 0xE49B69C19EF14AD2, 0xEFBE4786384F25E3, 0x0FC19DC68B8CD5B5, 0x240CA1CC77AC9C65,
    0x2DE92C6F592B0275, 0x4A7484AA6EA6E483, 0x5CB0A9DCBD41FBD4, 0x76F988DA831153B5, 0x983E5152EE66DFAB,
    0xA831C66D2DB43210, 0xB00327C898FB213F, 0xBF597FC7BEEF0EE4, 0xC6E00BF33DA88FC2, 0xD5A79147930AA725,
    0x06CA6351E003826F, 0x142929670A0E6E70, 0x27B70A8546D22FFC, 0x2E1B21385C26C926, 0x4D2C6DFC5AC42AED,
    0x53380D139D95B3DF, 0x650A73548BAF63DE, 0x766A0ABB3C77B2A8, 0x81C2C92E47EDAEE6, 0x92722C851482353B]
def shaK1 : List W64 :=
   [0xA2BFE8A14CF10364, 0xA81A664BBC423001, 0xC24B8B70D0F89791, 0xC76C51A30654BE30, 0xD192E819D6EF5218,
    0xD69906245565A910, 0xF40E35855771202A, 0x106AA07032BBD1B8, 0x19A4C116B8D2D0C8, 0x1E376C085141AB53,
    0x2748774CDF8EEB99, 0x34B0BCB5E19B48A8, 0x391C0CB3C5C95A63, 0x4ED8AA4AE3418ACB, 0x5B9CCA4F7763E373,
    0x682E6FF3D6B2B8A3, 0x748F82EE5DEFB2FC, 0x78A5636F43172F60, 0x84C87814A1F0AB72, 0x8CC702081A6439EC,
    0x90BEFFFA23631E28, 0xA4506CEBDE82BDE9, 0xBEF9A3F7B2C67915, 0xC67178F2E372532B, 0xCA273ECEEA26619C,
    0xD186B8C721C0C207, 0xEADA7DD6CDE0EB1E, 0xF57D4F7FEE6ED178, 0x06F067AA72176FBA, 0x0A637DC5A2C898A6,
    0x113F9804BEF90DAE, 0x1B710B35131C471B, 0x28DB77F523047D84, 0x32CAAB7B40C72493, 0x3C9EBE0A15C9BEBC,
    0x431D67C49C100D4C, 0x4CC5D4BECB3E42B6, 0x597F299CFC657E2A, 0x5FCB6FAB3AD6FAEC, 0x6C44198C4A475817]
/-- The 80 round constants. -/
def shaK : List W64 := shaK0 ++ shaK1
/-- The initial hash value. -/
def shaH : List W64 :=
   [0x6A09E667F3BCC908, 0xBB67AE8584CAA73B, 0x3C6EF372FE94F82B, 0xA54FF53A5F1D36F1, 0x510E527FADE682D1,
    0x9B05688C2B3E6C1F, 0x1F83D9ABFB41BD6B, 0x5BE0CD19137E2179]

def rotr (x : W64) (n : Nat) : W64 := x.rotateRight n
def bsig0 (x : W64) : W64 := rotr x 28 ^^^ rotr x 34 ^^^ rotr x 39
def bsig1 (x : W64) : W64 := rotr x 14 ^^^ rotr x 18 ^^^ rotr x 41
def ssig0 (x : W64) : W64 := rotr x 1 ^^^ rotr x 8 ^^^ (x >>> 7)
def ssig1 (x : W64) : W64 := rotr x 19 ^^^ rotr x 61 ^^^ (x >>> 6)

/-- A big-endian number of bytes. -/
def beNat (l : List Byte) : Nat := l.foldl (fun a b => a * 256 + b.toNat) 0
def beBytes (n x : Nat) : List Byte := (toBytes n x).reverse
/-- The bytes cut into pieces of `n`; the fuel is the number of pieces. -/
def chunks (n : Nat) : Nat → List Byte → List (List Byte)
  | 0, _ => []
  | k + 1, l => l.take n :: chunks n k (l.drop n)
/-- The padded message in blocks of 128 bytes. -/
def shaBlocks (l : List Byte) : List (List Byte) :=
  let z := (239 - l.length % 128) % 128
  let p := l ++ [0x80] ++ List.replicate z 0 ++ beBytes 16 (8 * l.length)
  chunks 128 (p.length / 128) p
/-- The message schedule, newest word first. -/
def shaSched : Nat → List W64 → List W64
  | 0, w => w
  | n + 1, w =>
    let g := fun i => w.getD (i - 1) 0
    shaSched n ((ssig1 (g 2) + g 7 + ssig0 (g 15) + g 16) :: w)
/-- One round on (a, b, c, d, e, f, g, h). -/
def shaRound (v : List W64) (kw : W64 × W64) : List W64 :=
  match v with
  | [a, b, c, d, e, f, g, h] =>
    let t1 := h + bsig1 e + ((e &&& f) ^^^ (~~~e &&& g)) + kw.1 + kw.2
    let t2 := bsig0 a + ((a &&& b) ^^^ (a &&& c) ^^^ (b &&& c))
    [t1 + t2, a, b, c, d + t1, e, f, g]
  | _ => v
def shaBlock (h : List W64) (b : List Byte) : List W64 :=
  let w0 := ((chunks 8 16 b).map fun x => BitVec.ofNat 64 (beNat x)).reverse
  let w := (shaSched 64 w0).reverse
  List.zipWith (· + ·) h ((shaK.zip w).foldl shaRound h)
/-- SHA-512, 64 bytes. -/
def sha512 (l : List Byte) : List Byte := ((shaBlocks l).foldl shaBlock shaH).flatMap fun x => beBytes 8 x.toNat
/-- HMAC-SHA-512. -/
def hmac512 (key l : List Byte) : List Byte :=
  let k := if 128 < key.length then sha512 key else key
  let k := k ++ List.replicate (128 - k.length) 0
  sha512 (k.map (· ^^^ 0x5C) ++ sha512 (k.map (· ^^^ 0x36) ++ l))
/-- The first 32 bytes that HKDF-SHA-512 gives for a secret and a label; without a salt, which is then 64 zero bytes (log 114). -/
def hkdf512 (secret label : List Byte) : List Byte := (hmac512 (hmac512 (List.replicate 64 0) secret) (label ++ [1])).take 32
/-- The bytes of a label. -/
def asciiBytes (s : String) : List Byte := s.toList.map fun c => BitVec.ofNat 8 c.toNat

end Sys2Proof.Machine
end

