-- ==== Sys2Proof/Config.lean ====
section
/-! DEFINITION. What an implementation fixes, and the free values: constants without a body, so that nothing can be proved of
which value they have. A free value is applied to the counter `State.draw` that the step advances (log 7). -/

namespace Sys2Proof.Config

/-- Choices the manual leaves open between two outcomes (02 R34: the old or the new translation; 05 R121). Free, log 7. -/
opaque freeBool : Nat → Bool

/-- Nanoseconds of the board clock between two readings of TIME (18 R422), and milliwatts are events. Free, log 7. -/
opaque elapsed : Nat → Nat

/-- A number the manual does not state: the key drawn at each boot for code handles (09 R200). Free, log 8. -/
opaque bootKey : Nat → List Byte

/-- The device identity seed, the Ed25519 public key of a private key, and the two signatures of a message under a private key (18 R433). Free, log 8. -/
opaque seed : BitVec 256
opaque edPublic : List Byte → List Byte
opaque signEd : List Byte → List Byte → List Byte
opaque signMl : List Byte → List Byte → List Byte

/-- The firmware stages in board flash: the SHA-512 digest and the security version of each, in the order of boot (18 R432). Free, log 8. -/
opaque stages : List (BitVec 512 × BitVec 32)

/-- The identity that a stored configuration record carries (18 R434). Free, log 9. -/
opaque cfgIdentity : List Byte → List Byte

/-- The bytes of a record that a CONFIG_WRITE brings to a device without contexts (18 R434), by turn and place. Free, log 113. -/
opaque cfgByte : Nat → Nat → BitVec 8

/-- What a frame of a peer connection says after its EtherType: its sequence number, whether it acknowledges, its payload (18 R420 gives no layout). Free,
log 112. -/
opaque soSeq : List Byte → BitVec 32
opaque soAck : List Byte → Bool
opaque soData : List Byte → List Byte

/-- The stored form of a configuration record: its package identifier, mode, limits and so on (18 R434 gives fields and ranges
and no layout). Free, log 9. -/
opaque cfgField : List Byte → Nat → Nat

/-- Bytes of a stored configuration record (18 R417, R434: its form is not given); it comes from a region, whose LENGTH is below 2^44 (02 R36). Free, log 9. -/
opaque cfgLength : BitVec 44

/-- The Chothes version of the capability list (18 R416). Free, log 8. -/
opaque chothesVersion : BitVec 64

/-- The contexts' sync ranges, save-area places and code-table places that Chothes chooses (02 R46, 16 R384): context, die. -/
opaque syncFirst : Nat → Nat → Nat
opaque syncLast : Nat → Nat → Nat

/-- Other packages (15 R372-R374; log 53). What a byte in another package reads as, by turn; which packages a domain has, by boot, and which of them a
context runs on. Free, log 53. -/
opaque farByte : Nat → Nat → BitVec 8
opaque inDomain : Nat → Nat → Bool
opaque ctxOn : Nat → Nat → Bool

/-- The CXL ports that are populated (18 R418). Free, log 69. -/
opaque cxlPort : Nat → Bool

/-- GiB of second tier attached (03 R69). Free, log 4. -/
opaque tierGib : Nat

end Sys2Proof.Config
end

