-- ==== Sys2Proof/Syntax.lean ====
section
/-! DEFINITION. The instructions and events of the YL9: one constructor of `Instr` per row of the opcode table.
Slot instructions carry the fields of their slot format (09 R216-R221); events carry what their rule lets vary. -/

namespace Sys2Proof

/-- The seven slots of a bundle (09 R212). -/
inductive Slot where
  | c | a | v0 | v1 | m | x | f
deriving DecidableEq, Repr

/-- A vector unit: slot V0 or slot V1 (12, first paragraph). -/
inductive VU where
  | v0 | v1
deriving DecidableEq, Repr

/-- Integer conditions (11 R255), codes 0 to 11. -/
inductive Cond where
  | eq | ne | lt | ge | le | gt | ltu | geu | leu | gtu | tst | tstn
deriving DecidableEq, Repr

/-- FP32 conditions (12 R283), codes 0 to 7. -/
inductive FCond where
  | eq | ne | lt | le | gt | ge | un | ord
deriving DecidableEq, Repr

/-- The directed modes of 04 R88, codes 0 to 3. -/
inductive Dir where
  | rne | rz | rd | ru
deriving DecidableEq, Repr

/-- Rounding modes an engine command, `MDRAIN` or `LX` may carry: 0 to 4 (04 R88). -/
inductive XRnd where
  | dir (d : Dir)
  | dither
deriving DecidableEq, Repr

/-- The scope of a fence (11 R262). -/
inductive Scope where
  | core | cluster | die | package | domain | system
deriving DecidableEq, Repr

/-- A possibly negated predicate operand of format CP (09 R216). -/
structure PRef where
  neg : Bool
  p : BitVec 4
deriving DecidableEq, Repr

/-- A vector operand specifier with its ROT flag (09 R218). -/
inductive VSrc where
  | reg (n : BitVec 5) (rot : Bool)
  | pop (port : BitVec 3)
  | peek (port : BitVec 3)
  | bc (k : BitVec 3)
  | const (k : BitVec 3)
deriving DecidableEq, Repr

/-- A vector destination: a register, or an output port (09 R218). -/
inductive VDst where
  | reg (n : BitVec 5) (rot : Bool)
  | push (port : BitVec 2)
deriving DecidableEq, Repr

/-- Rounding of `FCVT`: a directed mode, DITHER with its row operand, or FEEDBACK with its residue (12 R285). -/
inductive CvtRnd where
  | dir (d : Dir)
  | dither (row : VSrc)
  | feedback (r : BitVec 2)
deriving DecidableEq, Repr

/-- One vector operand, vector result. -/
structure Un where
  u : VU
  d : VDst
  x : VSrc
  m : BitVec 3
deriving DecidableEq, Repr

/-- Two vector operands, vector result. -/
structure Bin where
  u : VU
  d : VDst
  x : VSrc
  y : VSrc
  m : BitVec 3
deriving DecidableEq, Repr

/-- Three vector operands, vector result. -/
structure Tri where
  u : VU
  d : VDst
  x : VSrc
  y : VSrc
  z : VSrc
  m : BitVec 3
deriving DecidableEq, Repr

/-- Two vector operands, mask result (FCMP, ICMP). -/
structure CmpOps where
  u : VU
  d : BitVec 3
  x : VSrc
  y : VSrc
  m : BitVec 3
deriving DecidableEq, Repr

/-- Two mask operands, mask result. -/
structure Msk2 where
  u : VU
  d : BitVec 3
  x : BitVec 3
  y : BitVec 3
  m : BitVec 3
deriving DecidableEq, Repr

/-- A block transfer (14 R337). -/
structure BxOps where
  xa : BitVec 4
  xb : BitVec 4
  rm : XRnd
  sat : Bool
  dig : Bool
  dmw : Bool
  st : BitVec 4
  fb : Option (BitVec 5)
deriving DecidableEq, Repr

/-- A Sconce operation with an operand block at `xb` (14 R350, R351). -/
structure At2 where
  g : Bool
  np : Bool
  st : BitVec 4
  xa : BitVec 4
  xb : BitVec 4
  fb : Option (BitVec 5)
deriving DecidableEq, Repr

/-- A Sconce operation without operand block. -/
structure At1 where
  g : Bool
  np : Bool
  st : BitVec 4
  xa : BitVec 4
  fb : Option (BitVec 5)
deriving DecidableEq, Repr

/-- `INGEST` and `EGRESS` (14 R355, R356). -/
structure WinOps where
  xa : BitVec 4
  xb : BitVec 4
  dig : Bool
  st : BitVec 4
  fb : Option (BitVec 5)
deriving DecidableEq, Repr

/-- A driver command frame: SEQ, CTX and argument words 1 to 7 (18 R413, R417, R450). -/
structure CmdFrame where
  seq : W32
  ctx : BitVec 16
  tag : W64
  args : List W64
deriving DecidableEq, Repr

/-- Where an uncorrectable error was detected (17 R404); `line` is the physical or window address of a line, `chan` a link end of a gang as
16·rank + LINK. A code line is in the memories of one core: a package core 0 to 255, or 256 + d for the firmware core of die d. In `core`, a cluster of 64 + d stands for the other logic of die d: its controllers and gateway, or the hub's agents. -/
inductive UeSite where
  | hbm (line : Nat)
  | tier2 (line : Nat)
  | scratch (cluster : Nat)
  | code (line : Nat) (core : Nat)
  | core (cluster : Nat) (core : Nat)
  | link (gid : Nat) (chan : Nat)
  | undo (log entry : Nat)
  | sconce (die : Nat)
  | ingest (line : Nat)
  | package (pkg : Nat)
deriving DecidableEq, Repr

/-- The core an event concerns: rank `r` of group `g`, or the firmware core of a die (01 R15, 18 R421). -/
inductive CoreId where
  | rank (g r : Nat)
  | fw (die : Nat)
deriving DecidableEq, Repr

inductive Instr where
  -- C slot (09 R224; 11)
  | nop
  | br (s : BitVec 4)
  | bri (t : BitVec 10)
  | call (t : BitVec 10)
  | ret
  | loop (n : BitVec 24) (e : BitVec 10) (ring : BitVec 8)
  | loopr (s : BitVec 4) (e : BitVec 10) (ring : BitVec 8)
  | brkLoop (t : BitVec 10)
  | pset (d : BitVec 4) (x : PRef)
  | pand (d : BitVec 4) (x y : PRef)
  | por (d : BitVec 4) (x y : PRef)
  | pxor (d : BitVec 4) (x y : PRef)
  | pnot (d : BitVec 4) (x : PRef)
  | sign
  | halt
  | yield_
  | sealreq
  | enq (d : BitVec 4)
  | waitb (fb : BitVec 5) (ph : Bool)
  | arrv (fb : BitVec 5)
  | waita (p : BitVec 4) (s : BitVec 4) (limit : W32)
  | fence (sc : Scope) (mask : BitVec 16) (fb : Option (BitVec 5))
  | trap (k : W32)
  | brk (k : W32)
  | sysrd (d : BitVec 4) (r : BitVec 10)
  | syswr (r : BitVec 10) (s : BitVec 4)
  | frame (d : BitVec 4) (k : W32)
  | frameCyc (d : BitVec 4)
  | cmovi (d : BitVec 4) (k : W32)
  | cmov (d s : BitVec 4)
  | cadd (d s : BitVec 4)
  | caddi (d : BitVec 4) (k : W32)
  | csub (d s : BitVec 4)
  | ccmp (c : Cond) (p : BitVec 4) (x y : BitVec 4)
  | ccmpi (c : Cond) (p : BitVec 4) (x : BitVec 4) (k : W32)
  | psave (d : BitVec 4)
  | pload (s : BitVec 4)
  | copyAC (d : BitVec 5) (s : BitVec 4)
  -- A slot (09 R225; 11)
  | add (d x y : BitVec 5)
  | sub (d x y : BitVec 5)
  | mul (d x y : BitVec 5)
  | mulh (d x y : BitVec 5) (u : Bool)
  | shl (d x y : BitVec 5)
  | shr (d x y : BitVec 5)
  | sar (d x y : BitVec 5)
  | and_ (d x y : BitVec 5)
  | or_ (d x y : BitVec 5)
  | xor_ (d x y : BitVec 5)
  | min_ (d x y : BitVec 5) (u : Bool)
  | max_ (d x y : BitVec 5) (u : Bool)
  | cmp (c : Cond) (d : Option (BitVec 5)) (p : BitVec 4) (x y : BitVec 5)
  | sel (d : BitVec 5) (p : BitVec 4) (x y : BitVec 5)
  | clz (d x : BitVec 5)
  | popc (d x : BitVec 5)
  | bfx (s : Bool) (d x : BitVec 5) (lo w1 : BitVec 6)
  | bfi (d x : BitVec 5) (lo w1 : BitVec 6)
  | addi (d x : BitVec 5) (k : BitVec 12)
  | andi (d x : BitVec 5) (k : BitVec 12)
  | ori (d x : BitVec 5) (k : BitVec 12)
  | xori (d x : BitVec 5) (k : BitVec 12)
  | shli (d x : BitVec 5) (k : BitVec 6)
  | shri (d x : BitVec 5) (k : BitVec 6)
  | sari (d x : BitVec 5) (k : BitVec 6)
  | cmpi (c : Cond) (d : Option (BitVec 5)) (p : BitVec 4) (x : BitVec 5) (k : BitVec 12)
  | movi (d : BitVec 5) (k : BitVec 31)
  | movhi (d : BitVec 5) (k : BitVec 31)
  | ldt (d : BitVec 5) (t : BitVec 12) (i : BitVec 5) (off : BitVec 14)
  | stt (s : BitVec 5) (t : BitVec 12) (i : BitVec 5) (off : BitVec 14)
  | fld (sz : BitVec 2) (st : BitVec 4) (d b : BitVec 5) (off : BitVec 16)
  | fst (sz : BitVec 2) (st : BitVec 4) (s b : BitVec 5) (off : BitVec 16)
  | genSet (port : BitVec 4) (i : BitVec 3) (s : BitVec 5)
  | genArm (port : BitVec 4)
  | talloc (t : BitVec 12) (e q : BitVec 5) (fmt : BitVec 5) (dims : BitVec 2) (lvl retain : Bool) (owner : BitVec 2)
  | tfree (t : BitVec 12)
  | copyV0 (msk : Bool) (k : BitVec 3) (s : BitVec 5)
  | copyV1 (msk : Bool) (k : BitVec 3) (s : BitVec 5)
  | copyM (k : BitVec 3) (s : BitVec 5)
  | copyX (k : BitVec 4) (s : BitVec 5)
  | copyC (k : BitVec 4) (s : BitVec 5)
  -- V0 and V1 slots (09 R226; 12)
  | fadd (o : Bin) (rm : Dir)
  | fsub (o : Bin) (rm : Dir)
  | fmul (o : Bin) (rm : Dir)
  | fma (o : Tri) (rm : Dir)
  | fnma (o : Tri) (rm : Dir)
  | fmin (o : Bin)
  | fmax (o : Bin)
  | fabs (o : Un)
  | fneg (o : Un)
  | fsel (o : Bin) (c : BitVec 3)
  | fclass (o : Un)
  | fcmp (c : FCond) (o : CmpOps)
  | frcp (o : Un) (rm : Dir)
  | frsq (o : Un) (rm : Dir)
  | fsqrt (o : Un) (rm : Dir)
  | fexp2 (o : Un) (rm : Dir)
  | flog2 (o : Un) (rm : Dir)
  | ftanh (o : Un) (rm : Dir)
  | fcvt (o : Un) (isI : Bool) (tgt : BitVec 4) (rnd : CvtRnd) (sat : Bool)
  | fround (o : Un) (rm : Dir)
  | fscale (o : Bin) (rm : Dir)
  | iadd (o : Bin)
  | isub (o : Bin)
  | imul (o : Bin)
  | imulh (o : Bin)
  | imulhu (o : Bin)
  | ishl (o : Bin)
  | ishr (o : Bin)
  | isar (o : Bin)
  | iand (o : Bin)
  | ior (o : Bin)
  | ixor (o : Bin)
  | iandn (o : Bin)
  | imin (o : Bin)
  | imax (o : Bin)
  | iminu (o : Bin)
  | imaxu (o : Bin)
  | iadds (o : Bin)
  | isubs (o : Bin)
  | iabs (o : Un)
  | iclz (o : Un)
  | ipopc (o : Un)
  | icmp (c : Cond) (o : CmpOps)
  | isel (o : Tri)
  | frsum (o : Un)
  | frmax (o : Un)
  | frmin (o : Un)
  | irsum (o : Un)
  | irmax (o : Un) (uns : Bool)
  | irmin (o : Un) (uns : Bool)
  | fscan (o : Un)
  | fscanx (o : Un)
  | iscan (o : Un)
  | iscanx (o : Un)
  | compressM (u : VU) (d : VDst) (m : BitVec 3)
  | compressB (u : VU) (d : VDst) (x y : VSrc)
  | compressV (o : Un)
  | expand (o : Un)
  | perm (o : Bin)
  | bcast (o : Un) (n : BitVec 6)
  | laneid (u : VU) (d : VDst) (m : BitVec 3)
  | rotl (o : Un) (n : BitVec 6)
  | movb (u : VU) (d : BitVec 3) (x : VSrc) (n : BitVec 6)
  | mov (o : Un)
  | mskand (o : Msk2)
  | mskor (o : Msk2)
  | mskxor (o : Msk2)
  | msknot (u : VU) (d x m : BitVec 3)
  | mskandn (o : Msk2)
  | mskfrom (u : VU) (d : BitVec 3) (x : VSrc) (m : BitVec 3)
  | mskto (u : VU) (d : VDst) (x m : BitVec 3)
  | mskpopc (u : VU) (d : VDst) (x m : BitVec 3)
  | copyAV (u : VU) (d : BitVec 5) (x : BitVec 5) (rot : Bool) (n : BitVec 6)
  | mskcopyA (u : VU) (d : BitVec 5) (x : BitVec 3)
  -- M slot (09 R227; 13)
  | mcall (r : BitVec 8) (acc : BitVec 2)
  | mchb
  | mche
  | mzero (acc : BitVec 2)
  | mdrain (t : BitVec 12) (acc : BitVec 2) (mp : BitVec 3) (rm : XRnd) (sat : Bool)
  | mgidx (mp : BitVec 3) (n : BitVec 8)
  | mstat (mp : BitVec 3)
  | mlive (acc : BitVec 2)
  | mdead (acc : BitVec 2)
  | copyAM (d : BitVec 5) (mp : BitVec 3)
  | mloaduc (r : BitVec 8) (i : BitVec 5) (mp : BitVec 3)
  | mreaduc (mp : BitVec 3) (r : BitVec 8) (i : BitVec 5)
  -- X slot (09 R227; 14)
  | bxLd (o : BxOps)
  | bxSt (o : BxOps)
  | bxCp (o : BxOps)
  | bxSch (n : BitVec 2)
  | csadv (n : BitVec 2)
  | lx (xa xb : BitVec 4) (rm : XRnd) (sat : Bool)
  | atLd (o : At1)
  | atSt (o : At2)
  | atAdd (o : At2)
  | atAnd (o : At2)
  | atOr (o : At2)
  | atXor (o : At2)
  | atMin (o : At2)
  | atMax (o : At2)
  | atMinu (o : At2)
  | atMaxu (o : At2)
  | atSwap (o : At2)
  | atCas (o : At2)
  | atXadd (o : At2)
  | atXrd (o : At1)
  | atXclr (o : At1)
  | sbArrv (o : At1)
  | sbWait (st : BitVec 4) (xa : BitVec 4) (gen : Bool)
  | cqPop (xa : BitVec 4)
  | ingest (o : WinOps)
  | egress (o : WinOps)
  | copyAX (d : BitVec 5) (k : BitVec 4)
  -- F slot (09 R227; 15)
  | send (l : BitVec 4) (t : BitVec 12) (xp : BitVec 4) (start : BitVec 12)
  | recv (l : BitVec 4) (t : BitVec 12) (xp : BitVec 4) (start : BitVec 12)
  | relay (l m : BitVec 4) (xp : BitVec 4) (start : BitVec 12)
  | mcast (mask : BitVec 4) (t : BitVec 12) (xp : BitVec 4) (start : BitVec 12)
  | lchk (l : BitVec 4) (start : BitVec 12)
  -- events of the sequencer and of the variable side
  | droppedFrameCycle
  | segmentExpansionDone
  | waitbSatisfied
  | sbWaitSatisfied
  | waitaRecall
  | waitaLimitExpiry
  | farAccessReturn
  | fenceWaitEnd (k : Nat)
  | writeEventApply (id : Nat)
  | writeEventDelivery (id die : Nat)
  | readEventPerform (id : Nat)
  | sconceOperationExecute (id : Nat)
  | replyWrite (id : Nat)
  | commandComplete (id : Nat)
  | completionRecordWrite (id : Nat)
  | tagSweepVisit (line : Nat)
  | refreshBatchIssue (stack : Nat)
  | refreshBatchDone (stack : Nat)
  | linkMatching
  | linkRetry (id vector : Nat) (good : Bool)
  | linkInterfaceArrival (id : Nat)
  | linkFailure (id : Nat)
  | coreArrival
  | lastArrival
  | phaseStart
  | slackChainStart
  | phaseHang
  -- seals and recovery
  | sealRequest
  | sealPeriodExpiry
  | hostReadLimitExpiry
  | sealStart
  | sealBarrierClose
  | sealCommit
  | sealokBoundExpiry
  | barrierLimitExpiry
  | pageMigrationSwap (ctx vpn frame : Nat)
  | dataUe (site : UeSite)
  | latentCodeRewrite (line : Nat)
  | rollback (place : List (Nat × List Nat))
  | peerLossDeclared (pkg : Nat)
  | planeFailure (plane : Nat)
  -- dispatcher
  | hostRingTake (q : BitVec 6)
  | intakeToFifo (q : BitVec 6)
  | launchCheck (q : BitVec 6)
  | waitvarLoad (launch : Nat)
  | groupPlacement (launch : Nat) (clusters : List Nat)
  | groupStart (gid : Nat)
  | launchEnd (launch : Nat)
  | graphReplayStart (q : BitVec 6)
  | hardPreemption
  | groupResume (gid : Nat) (clusters : List Nat)
  | invalidationComplete (id : Nat)
  | regionChangeApply (id : Nat)
  | tableReplacementApply (id : Nat)
  | routineInstall (id : Nat)
  -- host frames and driver commands
  | write (seq : W32) (ctx : BitVec 16) (tag : W64) (offset : BitVec 30) (data : List Byte) (ben : Option (List Bool))
  | read (seq : W32) (ctx : BitVec 16) (tag : W64) (offset : BitVec 30) (len : BitVec 14)
  | ctxCreate (f : CmdFrame)
  | ctxDestroy (f : CmdFrame)
  | codeLoad (f : CmdFrame)
  | codeUnload (f : CmdFrame)
  | regionSet (f : CmdFrame)
  | invalidate (f : CmdFrame)
  | queueSet (f : CmdFrame)
  | preempt (f : CmdFrame)
  | resume (f : CmdFrame)
  | routineSet (f : CmdFrame)
  | tableSet (f : CmdFrame)
  | attest (f : CmdFrame)
  | freq (f : CmdFrame)
  | configWrite (f : CmdFrame)
  | peerSet (f : CmdFrame)
  | backInvalidateSnoop (line : Nat) (data : Option (List Byte))
  | cxlLinkLoss (port : Nat)
  | scaleOutReceive (peer : Nat) (seq : W32) (data : List Byte)
  | scaleOutRetransmit (peer : Nat)
  -- firmware, bring-up, clock and power
  | coldReset (bootOk cfgOk : Bool)
  | svcFull
  | fullServiceTransition
  | clkctlReq
  | clkctlCancel
  | frequencyChange
  | frequencyChangeTimeout
  | powerSample (mw : Nat)
  | thermalLimit
  | thermalCutoff
  | fwTimer (us : W64)
  | fwTimerExpiry
  | fwHaltWake
  | fwsAtLd (st : BitVec 4)
  | fwsAtSt (st : BitVec 4)
  | fwsAtAdd (st : BitVec 4)
  | fwsAtAnd (st : BitVec 4)
  | fwsAtOr (st : BitVec 4)
  | fwsAtXor (st : BitVec 4)
  | fwsAtMin (st : BitVec 4)
  | fwsAtMax (st : BitVec 4)
  | fwsAtMinu (st : BitVec 4)
  | fwsAtMaxu (st : BitVec 4)
  | fwsAtSwap (st : BitVec 4)
  | fwsAtCas (st : BitVec 4)
  | fwsAtXadd (st : BitVec 4)
  | fwsAtXrd (st : BitVec 4)
  | fwsAtXclr (st : BitVec 4)
  | fwsSbArrv (st : BitVec 4)
  | fwsReply
  | patctlApply
  | patctlStart
  | patternTestDone (lerr : BitVec 18) (errcnt : W32)
  | registerWrite (r : BitVec 10) (v : W64)
  | implicitSignOff
  | scaleOutAcknowledgement (peer : Nat) (seq : W32)
deriving DecidableEq, Repr

end Sys2Proof
end

