-- ==== Sys2Proof/WellFormed.lean ====
section
/-! DEFINITION. Well-formedness: the operand limits of each instruction's entry that a load checks on the slot alone
(09 R215, R218, R222; the operand items of 11 to 15). Which slot an instruction stands in. -/

namespace Sys2Proof

/-- Whether a rotated specifier names a register: it always does in the syntax; mask 0 as a destination is refused (R218). -/
def okMaskDst (d : BitVec 3) : Bool := d != 0

/-- A run of `n` parameter registers from `k` ends at `xp15` at the latest (14 R323). -/
def okRun (k : BitVec 4) (n : Nat) : Bool := k.toNat + n ≤ 16

/-- `START` is at least 2 (09 R222). -/
def okStart (s : BitVec 12) : Bool := 2 ≤ s.toNat

/-- A port number names one of the twelve ports (11 R271). -/
def okPort (p : BitVec 4) : Bool := p.toNat < 12

def BxOps.wf (o : BxOps) (ends : Nat) : Bool := okRun o.xa ends && okRun o.xb (if o.dmw then 5 else 4)
def At1.wf (o : At1) : Bool := okRun o.xa (if o.g then 2 else 1)
def At2.wf (o : At2) (n : Nat) : Bool := okRun o.xa (if o.g then 2 else 1) && okRun o.xb n

/-- The vector unit an instruction of the V slots stands in (12). -/
def Instr.vu? : Instr → Option VU
  | .fadd o _ | .fsub o _ | .fmul o _ | .fmin o | .fmax o | .fsel o _ | .fscale o _ | .iadd o | .isub o | .imul o
  | .imulh o | .imulhu o | .ishl o | .ishr o | .isar o | .iand o | .ior o | .ixor o | .iandn o | .imin o | .imax o
  | .iminu o | .imaxu o | .iadds o | .isubs o | .perm o => some o.u
  | .fma o _ | .fnma o _ | .isel o => some o.u
  | .fabs o | .fneg o | .fclass o | .frcp o _ | .frsq o _ | .fsqrt o _ | .fexp2 o _ | .flog2 o _ | .ftanh o _
  | .fcvt o _ _ _ _ | .fround o _ | .iabs o | .iclz o | .ipopc o | .frsum o | .frmax o | .frmin o | .irsum o
  | .irmax o _ | .irmin o _ | .fscan o | .fscanx o | .iscan o | .iscanx o | .compressV o | .expand o | .bcast o _
  | .rotl o _ | .mov o => some o.u
  | .fcmp _ o | .icmp _ o => some o.u
  | .mskand o | .mskor o | .mskxor o | .mskandn o => some o.u
  | .compressM u _ _ | .compressB u _ _ _ | .laneid u _ _ | .movb u _ _ _ | .msknot u _ _ _ | .mskfrom u _ _ _
  | .mskto u _ _ _ | .mskpopc u _ _ _ | .copyAV u _ _ _ _ | .mskcopyA u _ _ => some u
  | _ => none

/-- The slot an instruction is encoded in (09 R224-R227); `none` for an event. NOP stands in any slot and is given C. -/
def Instr.slot? (i : Instr) : Option Slot :=
  match i with
  | .nop | .br _ | .bri _ | .call _ | .ret | .loop _ _ _ | .loopr _ _ _ | .brkLoop _ | .pset _ _ | .pand _ _ _
  | .por _ _ _ | .pxor _ _ _ | .pnot _ _ | .sign | .halt | .yield_ | .sealreq | .enq _ | .waitb _ _ | .arrv _
  | .waita _ _ _ | .fence _ _ _ | .trap _ | .brk _ | .sysrd _ _ | .syswr _ _ | .frame _ _ | .frameCyc _
  | .cmovi _ _ | .cmov _ _ | .cadd _ _ | .caddi _ _ | .csub _ _ | .ccmp _ _ _ _ | .ccmpi _ _ _ _ | .psave _
  | .pload _ | .copyAC _ _ => some .c
  | .add _ _ _ | .sub _ _ _ | .mul _ _ _ | .mulh _ _ _ _ | .shl _ _ _ | .shr _ _ _ | .sar _ _ _ | .and_ _ _ _
  | .or_ _ _ _ | .xor_ _ _ _ | .min_ _ _ _ _ | .max_ _ _ _ _ | .cmp _ _ _ _ _ | .sel _ _ _ _ | .clz _ _
  | .popc _ _ | .bfx _ _ _ _ _ | .bfi _ _ _ _ | .addi _ _ _ | .andi _ _ _ | .ori _ _ _ | .xori _ _ _
  | .shli _ _ _ | .shri _ _ _ | .sari _ _ _ | .cmpi _ _ _ _ _ | .movi _ _ | .movhi _ _ | .ldt _ _ _ _
  | .stt _ _ _ _ | .fld _ _ _ _ _ | .fst _ _ _ _ _ | .genSet _ _ _ | .genArm _ | .talloc _ _ _ _ _ _ _ _
  | .tfree _ | .copyV0 _ _ _ | .copyV1 _ _ _ | .copyM _ _ | .copyX _ _ | .copyC _ _ => some .a
  | .mcall _ _ | .mchb | .mche | .mzero _ | .mdrain _ _ _ _ _ | .mgidx _ _ | .mstat _ | .mlive _ | .mdead _
  | .copyAM _ _ | .mloaduc _ _ _ | .mreaduc _ _ _ => some .m
  | .bxLd _ | .bxSt _ | .bxCp _ | .bxSch _ | .csadv _ | .lx _ _ _ _ | .atLd _ | .atSt _ | .atAdd _ | .atAnd _
  | .atOr _ | .atXor _ | .atMin _ | .atMax _ | .atMinu _ | .atMaxu _ | .atSwap _ | .atCas _ | .atXadd _
  | .atXrd _ | .atXclr _ | .sbArrv _ | .sbWait _ _ _ | .cqPop _ | .ingest _ | .egress _ | .copyAX _ _ => some .x
  | .send _ _ _ _ | .recv _ _ _ _ | .relay _ _ _ _ | .mcast _ _ _ _ | .lchk _ _ => some .f
  | i => i.vu?.map fun u => match u with | .v0 => .v0 | .v1 => .v1

/-- An instruction that a slot can hold, as against an event. -/
def Instr.isSlot (i : Instr) : Bool := i.slot?.isSome

/-- The operand limits a load checks (R222 and the operand items of each entry). Events are not encoded: false. -/
def Instr.wf (i : Instr) : Bool :=
  match i with
  | .loop n _ _ => n != 0
  | .genSet p w _ => okPort p && w.toNat < 5
  | .genArm p => okPort p
  | .talloc _ _ q _ _ _ _ _ => q != 0
  | .copyV0 msk k _ | .copyV1 msk k _ => !(msk && k == 0)
  | .fcmp _ o | .icmp _ o => okMaskDst o.d
  | .mskand o | .mskor o | .mskxor o | .mskandn o => okMaskDst o.d
  | .msknot _ d _ _ | .mskfrom _ d _ _ => okMaskDst d
  | .fcvt _ isI tgt rnd _ => tgt != 14 && (match rnd with | .feedback _ => !isI | _ => true)
  | .mgidx mp n => 1 ≤ n.toNat && n.toNat ≤ 16 && mp.toNat + ceilDiv n.toNat 4 ≤ 7
  | .bxLd o | .bxSt o => o.wf 4
  | .bxCp o => o.wf 5
  | .lx xa xb _ _ => okRun xa 2 && okRun xb 3
  | .atLd o | .atXrd o | .atXclr o | .sbArrv o => o.wf
  | .atCas o => o.wf 2
  | .atSt o | .atAdd o | .atAnd o | .atOr o | .atXor o | .atMin o | .atMax o | .atMinu o | .atMaxu o | .atSwap o
  | .atXadd o => o.wf 1
  | .cqPop xa => okRun xa 2
  | .ingest o | .egress o => okRun o.xa 5
  | .send _ _ _ st | .recv _ _ _ st | .relay _ _ _ st | .lchk _ st => okStart st
  | .mcast mask _ _ st => mask != 0 && okStart st
  | i => i.isSlot

/-- Privileged forms (09 R224-R227, marked P). -/
def Instr.privileged : Instr → Bool
  | .mloaduc _ _ _ | .mreaduc _ _ _ => true
  | _ => false

/-- Variable-wait instructions (08 R193). -/
def Instr.variableWait : Instr → Bool
  | .waitb _ _ | .waita _ _ _ | .sbWait _ _ _ | .fld _ _ _ _ _ | .fst _ _ _ _ _ => true
  | _ => false

/-- Taken-transfer opcodes, which have delay slots (09 R223). -/
def Instr.isTransfer : Instr → Bool
  | .br _ | .bri _ | .call _ | .ret | .brkLoop _ => true
  | _ => false

/-- Input ports a specifier names for pop or peek. -/
def VSrc.port? : VSrc → Option (BitVec 3)
  | .pop p | .peek p => some p
  | _ => none

/-- The vector operands an instruction reads as operand specifiers (12 R279). -/
def Instr.vsrcs : Instr → List VSrc
  | .fadd o _ | .fsub o _ | .fmul o _ | .fmin o | .fmax o | .fsel o _ | .fscale o _ | .iadd o | .isub o | .imul o
  | .imulh o | .imulhu o | .ishl o | .ishr o | .isar o | .iand o | .ior o | .ixor o | .iandn o | .imin o | .imax o
  | .iminu o | .imaxu o | .iadds o | .isubs o | .perm o => [o.x, o.y]
  | .fma o _ | .fnma o _ | .isel o => [o.x, o.y, o.z]
  | .fabs o | .fneg o | .fclass o | .frcp o _ | .frsq o _ | .fsqrt o _ | .fexp2 o _ | .flog2 o _ | .ftanh o _
  | .fround o _ | .iabs o | .iclz o | .ipopc o | .frsum o | .frmax o | .frmin o | .irsum o
  | .irmax o _ | .irmin o _ | .fscan o | .fscanx o | .iscan o | .iscanx o | .compressV o | .expand o | .bcast o _
  | .rotl o _ | .mov o => [o.x]
  | .fcvt o _ _ rnd _ => o.x :: (match rnd with | .dither r => [r] | _ => [])
  | .fcmp _ o | .icmp _ o => [o.x, o.y]
  | .compressB _ _ x y => [x, y]
  | .movb _ _ x _ | .mskfrom _ _ x _ => [x]
  | _ => []

/-- The vector destination of an instruction whose result is a vector. -/
def Instr.vdst? : Instr → Option VDst
  | .fadd o _ | .fsub o _ | .fmul o _ | .fmin o | .fmax o | .fsel o _ | .fscale o _ | .iadd o | .isub o | .imul o
  | .imulh o | .imulhu o | .ishl o | .ishr o | .isar o | .iand o | .ior o | .ixor o | .iandn o | .imin o | .imax o
  | .iminu o | .imaxu o | .iadds o | .isubs o | .perm o => some o.d
  | .fma o _ | .fnma o _ | .isel o => some o.d
  | .fabs o | .fneg o | .fclass o | .frcp o _ | .frsq o _ | .fsqrt o _ | .fexp2 o _ | .flog2 o _ | .ftanh o _
  | .fcvt o _ _ _ _ | .fround o _ | .iabs o | .iclz o | .ipopc o | .frsum o | .frmax o | .frmin o | .irsum o
  | .irmax o _ | .irmin o _ | .fscan o | .fscanx o | .iscan o | .iscanx o | .compressV o | .expand o | .bcast o _
  | .rotl o _ | .mov o => some o.d
  | .compressM _ d _ | .compressB _ d _ _ | .laneid _ d _ | .mskto _ d _ _ | .mskpopc _ d _ _ => some d
  | _ => none

/-- Input ports an instruction names. -/
def Instr.inPorts (i : Instr) : List (BitVec 3) := i.vsrcs.filterMap VSrc.port?

/-- The output port an instruction pushes to. -/
def Instr.outPort? (i : Instr) : Option (BitVec 2) :=
  match i.vdst? with
  | some (.push p) => some p
  | _ => none

end Sys2Proof
end

