-- ==== Sys2Proof/Decode.lean ====
section
/-! DEFINITION. The decoder of bundles and the encoder, both written from the slot formats and opcode maps of 09
(R212-R227) and the encoding items of 11 to 15. Decoding is total: a slot that a load refuses is rejected by name. -/

namespace Sys2Proof

/-- Why a slot or a bundle is refused (09 R222, R228). -/
inductive DecErr where
  | opcode (sl : Slot) (op : Nat)     -- a reserved opcode
  | reserved (sl : Slot)              -- a bit that must be zero is set (R215)
  | operand (sl : Slot)               -- a specifier, mode or number outside its limits
  | inPortTwice                       -- one input port named by both V slots
  | outPortTwice                      -- one output port named by both V slots
  | privileged                        -- a privileged opcode in an object with PRIV = 0
  | fwSlot                            -- a slot other than C and A in an object with FWCORE = 1
deriving DecidableEq, Repr

/-- The `k`-bit field of `w` from bit `lo`. -/
def fieldAt (w lo k : Nat) : BitVec k := BitVec.ofNat k (w / 2 ^ lo)

/-- Fields of the C slot in format CI (R216); CN and CP are the same bits, with IMM holding PA, PB, NA, NB. -/
structure CW where
  op : BitVec 8
  cr : BitVec 4
  imm : BitVec 32
  aux : BitVec 10
  sub : BitVec 4
deriving DecidableEq, Repr

/-- Fields of the A slot (R217); `rest` is bits [47:17], divided by the format. -/
structure AW where
  op : BitVec 7
  dst : BitVec 5
  rest : BitVec 31
deriving DecidableEq, Repr

/-- Fields of a V slot (R218). -/
structure VW where
  op : BitVec 8
  dst : BitVec 6
  sa : BitVec 6
  sb : BitVec 6
  sc : BitVec 6
  mask : BitVec 3
  mode : BitVec 8
  rot : BitVec 4
  mod : BitVec 12
deriving DecidableEq, Repr

/-- Fields of the M slot (R219). -/
structure MW where
  op : BitVec 5
  idx : BitVec 8
  acc : BitVec 2
  tile : BitVec 12
  rm : BitVec 3
  sat : BitVec 1
  mp : BitVec 3
  areg : BitVec 5
  z : BitVec 4
deriving DecidableEq, Repr

/-- Fields of the X slot (R220). -/
structure XW where
  op : BitVec 6
  xa : BitVec 4
  xb : BitVec 4
  st : BitVec 4
  fb : BitVec 5
  fben : BitVec 1
  rm : BitVec 3
  sat : BitVec 1
  dig : BitVec 1
  sub : BitVec 4
  areg : BitVec 5
  z : BitVec 5
deriving DecidableEq, Repr

/-- Fields of the F slot (R221). -/
structure FW where
  op : BitVec 4
  link : BitVec 4
  tile : BitVec 12
  start : BitVec 12
  xp : BitVec 4
  z : BitVec 7
deriving DecidableEq, Repr

/-! Slot values: the number a slot's bits make, without GUARD [4:0] and without PP. -/

def CW.pack (f : CW) : Nat :=
  f.op.toNat * 2 ^ 5 + f.cr.toNat * 2 ^ 13 + f.imm.toNat * 2 ^ 17 + f.aux.toNat * 2 ^ 49 + f.sub.toNat * 2 ^ 59
def CW.unpack (w : Nat) : CW :=
  { op := fieldAt w 5 8, cr := fieldAt w 13 4, imm := fieldAt w 17 32, aux := fieldAt w 49 10, sub := fieldAt w 59 4 }

def AW.pack (f : AW) : Nat := f.op.toNat * 2 ^ 5 + f.dst.toNat * 2 ^ 12 + f.rest.toNat * 2 ^ 17
def AW.unpack (w : Nat) : AW := { op := fieldAt w 5 7, dst := fieldAt w 12 5, rest := fieldAt w 17 31 }

def VW.pack (f : VW) : Nat :=
  f.op.toNat * 2 ^ 5 + f.dst.toNat * 2 ^ 13 + f.sa.toNat * 2 ^ 19 + f.sb.toNat * 2 ^ 25 + f.sc.toNat * 2 ^ 31
    + f.mask.toNat * 2 ^ 37 + f.mode.toNat * 2 ^ 40 + f.rot.toNat * 2 ^ 48 + f.mod.toNat * 2 ^ 52
def VW.unpack (w : Nat) : VW :=
  { op := fieldAt w 5 8, dst := fieldAt w 13 6, sa := fieldAt w 19 6, sb := fieldAt w 25 6, sc := fieldAt w 31 6,
    mask := fieldAt w 37 3, mode := fieldAt w 40 8, rot := fieldAt w 48 4, mod := fieldAt w 52 12 }

def MW.pack (f : MW) : Nat :=
  f.op.toNat * 2 ^ 5 + f.idx.toNat * 2 ^ 10 + f.acc.toNat * 2 ^ 18 + f.tile.toNat * 2 ^ 20 + f.rm.toNat * 2 ^ 32
    + f.sat.toNat * 2 ^ 35 + f.mp.toNat * 2 ^ 36 + f.areg.toNat * 2 ^ 39 + f.z.toNat * 2 ^ 44
def MW.unpack (w : Nat) : MW :=
  { op := fieldAt w 5 5, idx := fieldAt w 10 8, acc := fieldAt w 18 2, tile := fieldAt w 20 12, rm := fieldAt w 32 3,
    sat := fieldAt w 35 1, mp := fieldAt w 36 3, areg := fieldAt w 39 5, z := fieldAt w 44 4 }

def XW.pack (f : XW) : Nat :=
  f.op.toNat * 2 ^ 5 + f.xa.toNat * 2 ^ 11 + f.xb.toNat * 2 ^ 15 + f.st.toNat * 2 ^ 19 + f.fb.toNat * 2 ^ 23
    + f.fben.toNat * 2 ^ 28 + f.rm.toNat * 2 ^ 29 + f.sat.toNat * 2 ^ 32 + f.dig.toNat * 2 ^ 33
    + f.sub.toNat * 2 ^ 34 + f.areg.toNat * 2 ^ 38 + f.z.toNat * 2 ^ 43
def XW.unpack (w : Nat) : XW :=
  { op := fieldAt w 5 6, xa := fieldAt w 11 4, xb := fieldAt w 15 4, st := fieldAt w 19 4, fb := fieldAt w 23 5,
    fben := fieldAt w 28 1, rm := fieldAt w 29 3, sat := fieldAt w 32 1, dig := fieldAt w 33 1,
    sub := fieldAt w 34 4, areg := fieldAt w 38 5, z := fieldAt w 43 5 }

def FW.pack (f : FW) : Nat :=
  f.op.toNat * 2 ^ 5 + f.link.toNat * 2 ^ 9 + f.tile.toNat * 2 ^ 13 + f.start.toNat * 2 ^ 25 + f.xp.toNat * 2 ^ 37
    + f.z.toNat * 2 ^ 41
def FW.unpack (w : Nat) : FW :=
  { op := fieldAt w 5 4, link := fieldAt w 9 4, tile := fieldAt w 13 12, start := fieldAt w 25 12,
    xp := fieldAt w 37 4, z := fieldAt w 41 7 }

/-! Codes of small operand types. -/

def Cond.code : Cond → BitVec 4
  | .eq => 0 | .ne => 1 | .lt => 2 | .ge => 3 | .le => 4 | .gt => 5
  | .ltu => 6 | .geu => 7 | .leu => 8 | .gtu => 9 | .tst => 10 | .tstn => 11
def Cond.ofCode (b : BitVec 4) : Option Cond :=
  match b.toNat with
  | 0 => some .eq | 1 => some .ne | 2 => some .lt | 3 => some .ge | 4 => some .le | 5 => some .gt
  | 6 => some .ltu | 7 => some .geu | 8 => some .leu | 9 => some .gtu | 10 => some .tst | 11 => some .tstn
  | _ => none

def FCond.code : FCond → BitVec 3
  | .eq => 0 | .ne => 1 | .lt => 2 | .le => 3 | .gt => 4 | .ge => 5 | .un => 6 | .ord => 7
def FCond.ofCode (b : BitVec 3) : FCond :=
  match b.toNat with
  | 0 => .eq | 1 => .ne | 2 => .lt | 3 => .le | 4 => .gt | 5 => .ge | 6 => .un | _ => .ord

def Dir.code : Dir → Nat
  | .rne => 0 | .rz => 1 | .rd => 2 | .ru => 3
def Dir.ofCode : Nat → Option Dir
  | 0 => some .rne | 1 => some .rz | 2 => some .rd | 3 => some .ru | _ => none

def XRnd.code : XRnd → BitVec 3
  | .dir d => BitVec.ofNat 3 d.code
  | .dither => 4
def XRnd.ofCode (b : BitVec 3) : Option XRnd :=
  if b.toNat = 4 then some .dither else (Dir.ofCode b.toNat).map .dir

def Scope.code : Scope → BitVec 3
  | .core => 0 | .cluster => 1 | .die => 2 | .package => 3 | .domain => 4 | .system => 5
def Scope.ofCode (b : BitVec 3) : Option Scope :=
  match b.toNat with
  | 0 => some .core | 1 => some .cluster | 2 => some .die | 3 => some .package | 4 => some .domain
  | 5 => some .system | _ => none

/-- An optional flag barrier: FB and FBEN; FBEN = 0 requires FB = 0 (14 R326; 11 R262 with R215). -/
def fbOf (fb : BitVec 5) (en : BitVec 1) : Option (Option (BitVec 5)) :=
  if en = 1 then some (some fb) else if fb = 0 then some none else none
def fbCode (o : Option (BitVec 5)) : BitVec 5 := o.getD 0
def fbEn (o : Option (BitVec 5)) : BitVec 1 := if o.isSome then 1 else 0

def b1 (b : Bool) : BitVec 1 := if b then 1 else 0
def ofB1 (b : BitVec 1) : Bool := b == 1

/-- The result when `ok`, and otherwise the refusal `e`. -/
def need (ok : Bool) (e : DecErr) (i : Instr) : Except DecErr Instr := if ok then .ok i else .error e

/-- The continuation on the value, and the refusal `e` where there is none. -/
def given {α : Type} (o : Option α) (e : DecErr) (k : α → Except DecErr Instr) : Except DecErr Instr :=
  match o with
  | some x => k x
  | none => .error e

/-- The instruction when it is well formed (R222), and otherwise refused. -/
def wfOr (sl : Slot) (r : Except DecErr Instr) : Except DecErr Instr :=
  match r with
  | .ok i => if i.wf then .ok i else .error (.operand sl)
  | .error e => .error e

/-! C slot (09 R224). -/

def cpImm (x y : PRef) : BitVec 32 :=
  BitVec.ofNat 32 (x.p.toNat + y.p.toNat * 16 + (b1 x.neg).toNat * 256 + (b1 y.neg).toNat * 512)
def cpA (imm : BitVec 32) : PRef := ⟨ofB1 (fieldAt imm.toNat 8 1), fieldAt imm.toNat 0 4⟩
def cpB (imm : BitVec 32) : PRef := ⟨ofB1 (fieldAt imm.toNat 9 1), fieldAt imm.toNat 4 4⟩
def PRef.zero : PRef := ⟨false, 0⟩

/-- Format CP with both operands: everything above NB is zero. -/
def cp2 (f : CW) (k : BitVec 4 → PRef → PRef → Instr) : Except DecErr Instr :=
  need (f.imm.toNat < 1024 && f.aux == 0 && f.sub == 0) (.reserved .c) (k f.cr (cpA f.imm) (cpB f.imm))
/-- Format CP with one operand: PB and NB are zero too. -/
def cp1 (f : CW) (k : BitVec 4 → PRef → Instr) : Except DecErr Instr :=
  need (f.imm.toNat < 1024 && cpB f.imm == .zero && f.aux == 0 && f.sub == 0) (.reserved .c) (k f.cr (cpA f.imm))
/-- Format CN. -/
def cn (f : CW) (i : Instr) : Except DecErr Instr :=
  need (f.cr == 0 && f.imm == 0 && f.aux == 0 && f.sub == 0) (.reserved .c) i
/-- A `c` register move: AUX[3:0] names the second register. -/
def crr (f : CW) (k : BitVec 4 → BitVec 4 → Instr) : Except DecErr Instr :=
  need (f.sub == 0 && f.aux.toNat < 16 && f.imm == 0) (.reserved .c) (k f.cr (fieldAt f.aux.toNat 0 4))

def decC (f : CW) : Except DecErr Instr :=
  match f.op.toNat with
  | 0x00 => cn f .nop
  | 0x01 => need (f.imm == 0 && f.aux == 0 && f.sub == 0) (.reserved .c) (.br f.cr)
  | 0x02 => need (f.imm == 0 && f.cr == 0 && f.sub == 0) (.reserved .c) (.bri f.aux)
  | 0x03 => need (f.imm == 0 && f.cr == 0 && f.sub == 0) (.reserved .c) (.call f.aux)
  | 0x04 => cn f .ret
  | 0x05 => if f.imm.toNat % 2 ^ 24 = 0 then .error (.operand .c) else
      need (f.cr == 0 && f.sub == 0) (.reserved .c)
      (.loop (fieldAt f.imm.toNat 0 24) f.aux (fieldAt f.imm.toNat 24 8))
  | 0x06 => need (f.imm.toNat % 2 ^ 24 == 0 && f.sub == 0) (.reserved .c)
      (.loopr f.cr f.aux (fieldAt f.imm.toNat 24 8))
  | 0x07 => need (f.imm == 0 && f.cr == 0 && f.sub == 0) (.reserved .c) (.brkLoop f.aux)
  | 0x08 => cp1 f .pset
  | 0x09 => cp2 f .pand
  | 0x0A => cp2 f .por
  | 0x0B => cp2 f .pxor
  | 0x0C => cp1 f .pnot
  | 0x0D => cn f .sign
  | 0x0E => cn f .yield_
  | 0x0F => cn f .sealreq
  | 0x10 => need (f.imm == 0 && f.aux == 0 && f.sub == 0) (.reserved .c) (.enq f.cr)
  | 0x11 => need (f.aux.toNat < 64 && f.cr == 0 && f.imm == 0 && f.sub == 0) (.reserved .c)
      (.waitb (fieldAt f.aux.toNat 0 5) (ofB1 (fieldAt f.aux.toNat 5 1)))
  | 0x12 => need (f.aux.toNat < 32 && f.cr == 0 && f.imm == 0 && f.sub == 0) (.reserved .c)
      (.arrv (fieldAt f.aux.toNat 0 5))
  | 0x13 => need (f.aux.toNat < 16 && f.sub == 0) (.reserved .c) (.waita (fieldAt f.aux.toNat 0 4) f.cr f.imm)
  | 0x14 => given (Scope.ofCode (fieldAt f.aux.toNat 0 3)) (.operand .c) fun sc =>
      given (fbOf (fieldAt f.aux.toNat 4 5) (fieldAt f.aux.toNat 3 1)) (.reserved .c) fun fb =>
      need (f.aux.toNat < 512 && f.imm.toNat < 2 ^ 16 && f.cr == 0 && f.sub == 0) (.reserved .c)
        (.fence sc (fieldAt f.imm.toNat 0 16) fb)
  | 0x15 => cn f .halt
  | 0x16 => need (f.cr == 0 && f.aux == 0 && f.sub == 0) (.reserved .c) (.trap f.imm)
  | 0x17 => need (f.cr == 0 && f.aux == 0 && f.sub == 0) (.reserved .c) (.brk f.imm)
  | 0x18 => need (f.imm == 0 && f.sub == 0) (.reserved .c) (.sysrd f.cr f.aux)
  | 0x19 => need (f.imm == 0 && f.sub == 0) (.reserved .c) (.syswr f.aux f.cr)
  | 0x1A => match f.sub.toNat with
      | 0 => need (f.aux == 0) (.reserved .c) (.frame f.cr f.imm)
      | 1 => need (f.aux == 0 && f.imm == 0) (.reserved .c) (.frameCyc f.cr)
      | _ => .error (.operand .c)
  | 0x1B => need (f.sub == 0 && f.aux == 0) (.reserved .c) (.cmovi f.cr f.imm)
  | 0x1C => crr f .cmov
  | 0x1D => crr f .cadd
  | 0x1E => need (f.sub == 0 && f.aux == 0) (.reserved .c) (.caddi f.cr f.imm)
  | 0x1F => crr f .csub
  | 0x20 => given (Cond.ofCode f.sub) (.operand .c) fun c =>
      need (fieldAt f.aux.toNat 4 2 == 0 && f.imm == 0) (.reserved .c)
        (.ccmp c (fieldAt f.aux.toNat 6 4) f.cr (fieldAt f.aux.toNat 0 4))
  | 0x21 => given (Cond.ofCode f.sub) (.operand .c) fun c =>
      need (f.aux.toNat % 64 == 0) (.reserved .c) (.ccmpi c (fieldAt f.aux.toNat 6 4) f.cr f.imm)
  | 0x22 => need (f.sub == 0 && f.aux == 0 && f.imm == 0) (.reserved .c) (.psave f.cr)
  | 0x23 => need (f.sub == 0 && f.aux == 0 && f.imm == 0) (.reserved .c) (.pload f.cr)
  | 0x24 => need (f.sub == 0 && f.aux.toNat < 32 && f.imm == 0) (.reserved .c)
      (.copyAC (fieldAt f.aux.toNat 0 5) f.cr)
  | n => .error (.opcode .c n)

def encC : Instr → Option CW
  | .nop => some ⟨0, 0, 0, 0, 0⟩
  | .br s => some ⟨0x01, s, 0, 0, 0⟩
  | .bri t => some ⟨0x02, 0, 0, t, 0⟩
  | .call t => some ⟨0x03, 0, 0, t, 0⟩
  | .ret => some ⟨0x04, 0, 0, 0, 0⟩
  | .loop n e ring => some ⟨0x05, 0, BitVec.ofNat 32 (n.toNat + ring.toNat * 2 ^ 24), e, 0⟩
  | .loopr s e ring => some ⟨0x06, s, BitVec.ofNat 32 (ring.toNat * 2 ^ 24), e, 0⟩
  | .brkLoop t => some ⟨0x07, 0, 0, t, 0⟩
  | .pset d x => some ⟨0x08, d, cpImm x .zero, 0, 0⟩
  | .pand d x y => some ⟨0x09, d, cpImm x y, 0, 0⟩
  | .por d x y => some ⟨0x0A, d, cpImm x y, 0, 0⟩
  | .pxor d x y => some ⟨0x0B, d, cpImm x y, 0, 0⟩
  | .pnot d x => some ⟨0x0C, d, cpImm x .zero, 0, 0⟩
  | .sign => some ⟨0x0D, 0, 0, 0, 0⟩
  | .yield_ => some ⟨0x0E, 0, 0, 0, 0⟩
  | .sealreq => some ⟨0x0F, 0, 0, 0, 0⟩
  | .enq d => some ⟨0x10, d, 0, 0, 0⟩
  | .waitb fb ph => some ⟨0x11, 0, 0, BitVec.ofNat 10 (fb.toNat + (b1 ph).toNat * 32), 0⟩
  | .arrv fb => some ⟨0x12, 0, 0, BitVec.ofNat 10 fb.toNat, 0⟩
  | .waita p s limit => some ⟨0x13, s, limit, BitVec.ofNat 10 p.toNat, 0⟩
  | .fence sc mask fb => some ⟨0x14, 0, BitVec.ofNat 32 mask.toNat,
      BitVec.ofNat 10 (sc.code.toNat + (fbEn fb).toNat * 8 + (fbCode fb).toNat * 16), 0⟩
  | .halt => some ⟨0x15, 0, 0, 0, 0⟩
  | .trap k => some ⟨0x16, 0, k, 0, 0⟩
  | .brk k => some ⟨0x17, 0, k, 0, 0⟩
  | .sysrd d r => some ⟨0x18, d, 0, r, 0⟩
  | .syswr r s => some ⟨0x19, s, 0, r, 0⟩
  | .frame d k => some ⟨0x1A, d, k, 0, 0⟩
  | .frameCyc d => some ⟨0x1A, d, 0, 0, 1⟩
  | .cmovi d k => some ⟨0x1B, d, k, 0, 0⟩
  | .cmov d s => some ⟨0x1C, d, 0, BitVec.ofNat 10 s.toNat, 0⟩
  | .cadd d s => some ⟨0x1D, d, 0, BitVec.ofNat 10 s.toNat, 0⟩
  | .caddi d k => some ⟨0x1E, d, k, 0, 0⟩
  | .csub d s => some ⟨0x1F, d, 0, BitVec.ofNat 10 s.toNat, 0⟩
  | .ccmp c p x y => some ⟨0x20, x, 0, BitVec.ofNat 10 (y.toNat + p.toNat * 64), c.code⟩
  | .ccmpi c p x k => some ⟨0x21, x, k, BitVec.ofNat 10 (p.toNat * 64), c.code⟩
  | .psave d => some ⟨0x22, d, 0, 0, 0⟩
  | .pload s => some ⟨0x23, s, 0, 0, 0⟩
  | .copyAC d s => some ⟨0x24, s, 0, BitVec.ofNat 10 d.toNat, 0⟩
  | _ => none

/-! A slot (09 R225). Format AR: SA [21:17], SB [26:22], PD [30:27], FN [35:31], IMM12 [47:36]. -/

structure AR where
  sa : BitVec 5
  sb : BitVec 5
  pd : BitVec 4
  fn : BitVec 5
  imm : BitVec 12
deriving DecidableEq, Repr

def AR.pack (r : AR) : BitVec 31 :=
  BitVec.ofNat 31 (r.sa.toNat + r.sb.toNat * 2 ^ 5 + r.pd.toNat * 2 ^ 10 + r.fn.toNat * 2 ^ 14 + r.imm.toNat * 2 ^ 19)
def AR.unpack (w : BitVec 31) : AR :=
  ⟨fieldAt w.toNat 0 5, fieldAt w.toNat 5 5, fieldAt w.toNat 10 4, fieldAt w.toNat 14 5, fieldAt w.toNat 19 12⟩

/-- Format AT: TILE [28:17], IDX [33:29], IMM14 [47:34]. -/
structure AT where
  tile : BitVec 12
  idx : BitVec 5
  imm : BitVec 14
deriving DecidableEq, Repr

def AT.pack (r : AT) : BitVec 31 := BitVec.ofNat 31 (r.tile.toNat + r.idx.toNat * 2 ^ 12 + r.imm.toNat * 2 ^ 17)
def AT.unpack (w : BitVec 31) : AT := ⟨fieldAt w.toNat 0 12, fieldAt w.toNat 12 5, fieldAt w.toNat 17 14⟩

/-- Format AM: BASE [21:17], IMM16 [37:22], STREAM [41:38], SIZE [43:42], reserved [47:44]. -/
structure AM where
  base : BitVec 5
  imm : BitVec 16
  st : BitVec 4
  size : BitVec 2
  z : BitVec 4
deriving DecidableEq, Repr

def AM.pack (r : AM) : BitVec 31 :=
  BitVec.ofNat 31 (r.base.toNat + r.imm.toNat * 2 ^ 5 + r.st.toNat * 2 ^ 21 + r.size.toNat * 2 ^ 25 + r.z.toNat * 2 ^ 27)
def AM.unpack (w : BitVec 31) : AM :=
  ⟨fieldAt w.toNat 0 5, fieldAt w.toNat 5 16, fieldAt w.toNat 21 4, fieldAt w.toNat 25 2, fieldAt w.toNat 27 4⟩

def a3 (f : AW) (k : BitVec 5 → BitVec 5 → BitVec 5 → Instr) : Except DecErr Instr :=
  let r := AR.unpack f.rest
  need (r.pd == 0 && r.fn == 0 && r.imm == 0) (.reserved .a) (k f.dst r.sa r.sb)
/-- As `a3`, with FN[0] = `.u`. -/
def a3u (f : AW) (k : BitVec 5 → BitVec 5 → BitVec 5 → Bool → Instr) : Except DecErr Instr :=
  let r := AR.unpack f.rest
  need (r.pd == 0 && r.fn.toNat < 2 && r.imm == 0) (.reserved .a) (k f.dst r.sa r.sb (ofB1 (fieldAt r.fn.toNat 0 1)))
def a2 (f : AW) (k : BitVec 5 → BitVec 5 → Instr) : Except DecErr Instr :=
  let r := AR.unpack f.rest
  need (r.sb == 0 && r.pd == 0 && r.fn == 0 && r.imm == 0) (.reserved .a) (k f.dst r.sa)
def aImm (f : AW) (k : BitVec 5 → BitVec 5 → BitVec 12 → Instr) : Except DecErr Instr :=
  let r := AR.unpack f.rest
  need (r.sb == 0 && r.pd == 0 && r.fn == 0) (.reserved .a) (k f.dst r.sa r.imm)
def aSh (f : AW) (k : BitVec 5 → BitVec 5 → BitVec 6 → Instr) : Except DecErr Instr :=
  let r := AR.unpack f.rest
  need (r.sb == 0 && r.pd == 0 && r.fn == 0 && r.imm.toNat < 64) (.reserved .a) (k f.dst r.sa (fieldAt r.imm.toNat 0 6))
/-- `CMP`, `CMPI`: FN[4] = 1 also writes DST, which is otherwise zero (R266). -/
def aCmpDst (dst fn : BitVec 5) : Option (Option (BitVec 5)) :=
  if fn.toNat < 16 then (if dst = 0 then some none else none) else some (some dst)
def aCopy (f : AW) (i : BitVec 5 → Instr) : Except DecErr Instr :=
  let r := AR.unpack f.rest
  need (r.sb == 0 && r.pd == 0 && r.fn == 0 && r.imm == 0) (.reserved .a) (i r.sa)
def aFar (f : AW) (k : BitVec 2 → BitVec 4 → BitVec 5 → BitVec 5 → BitVec 16 → Instr) : Except DecErr Instr :=
  let r := AM.unpack f.rest
  need (r.z == 0) (.reserved .a) (k r.size r.st f.dst r.base r.imm)

def decA (f : AW) : Except DecErr Instr :=
  match f.op.toNat with
  | 0x00 => need (f.dst == 0 && f.rest == 0) (.reserved .a) .nop
  | 0x01 => a3 f .add
  | 0x02 => a3 f .sub
  | 0x03 => a3 f .mul
  | 0x04 => a3u f .mulh
  | 0x05 => a3 f .shl
  | 0x06 => a3 f .shr
  | 0x07 => a3 f .sar
  | 0x08 => a3 f .and_
  | 0x09 => a3 f .or_
  | 0x0A => a3 f .xor_
  | 0x0B => a3u f .min_
  | 0x0C => a3u f .max_
  | 0x0D =>
      let r := AR.unpack f.rest
      given (Cond.ofCode (fieldAt r.fn.toNat 0 4)) (.operand .a) fun c =>
        given (aCmpDst f.dst r.fn) (.reserved .a) fun d =>
          need (r.imm == 0) (.reserved .a) (.cmp c d r.pd r.sa r.sb)
  | 0x0E =>
      let r := AR.unpack f.rest
      need (r.fn == 0 && r.imm == 0) (.reserved .a) (.sel f.dst r.pd r.sa r.sb)
  | 0x0F => a2 f .clz
  | 0x10 => a2 f .popc
  | 0x11 =>
      let r := AR.unpack f.rest
      need (r.sb == 0 && r.pd == 0 && r.fn.toNat < 2) (.reserved .a)
        (.bfx (ofB1 (fieldAt r.fn.toNat 0 1)) f.dst r.sa (fieldAt r.imm.toNat 0 6) (fieldAt r.imm.toNat 6 6))
  | 0x12 =>
      let r := AR.unpack f.rest
      need (r.sb == 0 && r.pd == 0 && r.fn == 0) (.reserved .a)
        (.bfi f.dst r.sa (fieldAt r.imm.toNat 0 6) (fieldAt r.imm.toNat 6 6))
  | 0x18 => aImm f .addi
  | 0x19 => aImm f .andi
  | 0x1A => aImm f .ori
  | 0x1B => aImm f .xori
  | 0x1C => aSh f .shli
  | 0x1D => aSh f .shri
  | 0x1E => aSh f .sari
  | 0x1F =>
      let r := AR.unpack f.rest
      given (Cond.ofCode (fieldAt r.fn.toNat 0 4)) (.operand .a) fun c =>
        given (aCmpDst f.dst r.fn) (.reserved .a) fun d =>
          need (r.sb == 0) (.reserved .a) (.cmpi c d r.pd r.sa r.imm)
  | 0x20 => .ok (.movi f.dst f.rest)
  | 0x21 => .ok (.movhi f.dst f.rest)
  | 0x24 => let r := AT.unpack f.rest; .ok (.ldt f.dst r.tile r.idx r.imm)
  | 0x25 => let r := AT.unpack f.rest; .ok (.stt f.dst r.tile r.idx r.imm)
  | 0x28 => aFar f .fld
  | 0x29 => aFar f .fst
  | 0x2C =>
      let r := AR.unpack f.rest
      wfOr .a (need (f.dst == 0 && r.sb == 0 && r.pd == 0 && r.fn == 0 && r.imm.toNat < 128) (.reserved .a)
        (.genSet (fieldAt r.imm.toNat 0 4) (fieldAt r.imm.toNat 4 3) r.sa))
  | 0x2D =>
      let r := AR.unpack f.rest
      wfOr .a (need (f.dst == 0 && r.sa == 0 && r.sb == 0 && r.pd == 0 && r.fn == 0 && r.imm.toNat < 16) (.reserved .a)
        (.genArm (fieldAt r.imm.toNat 0 4)))
  | 0x30 =>
      let r := AT.unpack f.rest
      wfOr .a (need (r.imm.toNat < 2 ^ 11) (.reserved .a)
        (.talloc r.tile f.dst r.idx (fieldAt r.imm.toNat 0 5) (fieldAt r.imm.toNat 5 2)
          (ofB1 (fieldAt r.imm.toNat 7 1)) (ofB1 (fieldAt r.imm.toNat 8 1)) (fieldAt r.imm.toNat 9 2)))
  | 0x31 =>
      let r := AT.unpack f.rest
      need (f.dst == 0 && r.idx == 0 && r.imm == 0) (.reserved .a) (.tfree r.tile)
  | 0x38 => wfOr .a (aCopy f fun s => .copyV0 (ofB1 (fieldAt f.dst.toNat 4 1)) (fieldAt f.dst.toNat 0 3) s) |>.bind
      fun i => need (fieldAt f.dst.toNat 3 1 == 0) (.reserved .a) i
  | 0x39 => wfOr .a (aCopy f fun s => .copyV1 (ofB1 (fieldAt f.dst.toNat 4 1)) (fieldAt f.dst.toNat 0 3) s) |>.bind
      fun i => need (fieldAt f.dst.toNat 3 1 == 0) (.reserved .a) i
  | 0x3A => (aCopy f fun s => .copyM (fieldAt f.dst.toNat 0 3) s) |>.bind
      fun i => need (f.dst.toNat < 8) (.reserved .a) i
  | 0x3B => (aCopy f fun s => .copyX (fieldAt f.dst.toNat 0 4) s) |>.bind
      fun i => need (f.dst.toNat < 16) (.reserved .a) i
  | 0x3C => (aCopy f fun s => .copyC (fieldAt f.dst.toNat 0 4) s) |>.bind
      fun i => need (f.dst.toNat < 16) (.reserved .a) i
  | n => .error (.opcode .a n)

def aw (op : BitVec 7) (dst : BitVec 5) (r : AR) : Option AW := some ⟨op, dst, r.pack⟩
def cmpFn (c : Cond) (d : Option (BitVec 5)) : BitVec 5 :=
  BitVec.ofNat 5 (c.code.toNat + (if d.isSome then 16 else 0))
def copyVDst (msk : Bool) (k : BitVec 3) : BitVec 5 := BitVec.ofNat 5 (k.toNat + (b1 msk).toNat * 16)

def encA : Instr → Option AW
  | .nop => some ⟨0, 0, 0⟩
  | .add d x y => aw 0x01 d ⟨x, y, 0, 0, 0⟩
  | .sub d x y => aw 0x02 d ⟨x, y, 0, 0, 0⟩
  | .mul d x y => aw 0x03 d ⟨x, y, 0, 0, 0⟩
  | .mulh d x y u => aw 0x04 d ⟨x, y, 0, (b1 u).zeroExtend 5, 0⟩
  | .shl d x y => aw 0x05 d ⟨x, y, 0, 0, 0⟩
  | .shr d x y => aw 0x06 d ⟨x, y, 0, 0, 0⟩
  | .sar d x y => aw 0x07 d ⟨x, y, 0, 0, 0⟩
  | .and_ d x y => aw 0x08 d ⟨x, y, 0, 0, 0⟩
  | .or_ d x y => aw 0x09 d ⟨x, y, 0, 0, 0⟩
  | .xor_ d x y => aw 0x0A d ⟨x, y, 0, 0, 0⟩
  | .min_ d x y u => aw 0x0B d ⟨x, y, 0, (b1 u).zeroExtend 5, 0⟩
  | .max_ d x y u => aw 0x0C d ⟨x, y, 0, (b1 u).zeroExtend 5, 0⟩
  | .cmp c d p x y => aw 0x0D (d.getD 0) ⟨x, y, p, cmpFn c d, 0⟩
  | .sel d p x y => aw 0x0E d ⟨x, y, p, 0, 0⟩
  | .clz d x => aw 0x0F d ⟨x, 0, 0, 0, 0⟩
  | .popc d x => aw 0x10 d ⟨x, 0, 0, 0, 0⟩
  | .bfx s d x lo w1 => aw 0x11 d ⟨x, 0, 0, (b1 s).zeroExtend 5, BitVec.ofNat 12 (lo.toNat + w1.toNat * 64)⟩
  | .bfi d x lo w1 => aw 0x12 d ⟨x, 0, 0, 0, BitVec.ofNat 12 (lo.toNat + w1.toNat * 64)⟩
  | .addi d x k => aw 0x18 d ⟨x, 0, 0, 0, k⟩
  | .andi d x k => aw 0x19 d ⟨x, 0, 0, 0, k⟩
  | .ori d x k => aw 0x1A d ⟨x, 0, 0, 0, k⟩
  | .xori d x k => aw 0x1B d ⟨x, 0, 0, 0, k⟩
  | .shli d x k => aw 0x1C d ⟨x, 0, 0, 0, k.zeroExtend 12⟩
  | .shri d x k => aw 0x1D d ⟨x, 0, 0, 0, k.zeroExtend 12⟩
  | .sari d x k => aw 0x1E d ⟨x, 0, 0, 0, k.zeroExtend 12⟩
  | .cmpi c d p x k => aw 0x1F (d.getD 0) ⟨x, 0, p, cmpFn c d, k⟩
  | .movi d k => some ⟨0x20, d, k⟩
  | .movhi d k => some ⟨0x21, d, k⟩
  | .ldt d t i off => some ⟨0x24, d, AT.pack ⟨t, i, off⟩⟩
  | .stt s t i off => some ⟨0x25, s, AT.pack ⟨t, i, off⟩⟩
  | .fld sz st d b off => some ⟨0x28, d, AM.pack ⟨b, off, st, sz, 0⟩⟩
  | .fst sz st s b off => some ⟨0x29, s, AM.pack ⟨b, off, st, sz, 0⟩⟩
  | .genSet p i s => aw 0x2C 0 ⟨s, 0, 0, 0, BitVec.ofNat 12 (p.toNat + i.toNat * 16)⟩
  | .genArm p => aw 0x2D 0 ⟨0, 0, 0, 0, BitVec.ofNat 12 p.toNat⟩
  | .talloc t e q fmt dims lvl retain owner => some ⟨0x30, e, AT.pack ⟨t, q, BitVec.ofNat 14
      (fmt.toNat + dims.toNat * 32 + (b1 lvl).toNat * 128 + (b1 retain).toNat * 256 + owner.toNat * 512)⟩⟩
  | .tfree t => some ⟨0x31, 0, AT.pack ⟨t, 0, 0⟩⟩
  | .copyV0 msk k s => aw 0x38 (copyVDst msk k) ⟨s, 0, 0, 0, 0⟩
  | .copyV1 msk k s => aw 0x39 (copyVDst msk k) ⟨s, 0, 0, 0, 0⟩
  | .copyM k s => aw 0x3A (k.zeroExtend 5) ⟨s, 0, 0, 0, 0⟩
  | .copyX k s => aw 0x3B (k.zeroExtend 5) ⟨s, 0, 0, 0, 0⟩
  | .copyC k s => aw 0x3C (k.zeroExtend 5) ⟨s, 0, 0, 0, 0⟩
  | _ => none

/-! V slots (09 R218, R226; 12 R274-R279). -/

/-- The slot of a vector unit. -/
def VU.slot : VU → Slot
  | .v0 => .v0
  | .v1 => .v1

/-- Operand specifier with its ROT flag; a ROT flag on a field that names no register is refused (R218). -/
def srcOf (s : BitVec 6) (rot : BitVec 1) : Option VSrc :=
  if s.toNat < 32 then some (.reg (fieldAt s.toNat 0 5) (ofB1 rot))
  else if rot = 1 then none
  else if s.toNat < 40 then some (.pop (fieldAt s.toNat 0 3))
  else if s.toNat < 48 then some (.peek (fieldAt s.toNat 0 3))
  else if s.toNat < 56 then some (.bc (fieldAt s.toNat 0 3))
  else some (.const (fieldAt s.toNat 0 3))
def VSrc.code : VSrc → BitVec 6
  | .reg n _ => BitVec.ofNat 6 n.toNat
  | .pop p => BitVec.ofNat 6 (32 + p.toNat)
  | .peek p => BitVec.ofNat 6 (40 + p.toNat)
  | .bc k => BitVec.ofNat 6 (48 + k.toNat)
  | .const k => BitVec.ofNat 6 (56 + k.toNat)
def VSrc.rotBit : VSrc → BitVec 1
  | .reg _ r => b1 r
  | _ => 0

def dstOf (s : BitVec 6) (rot : BitVec 1) : Option VDst :=
  if s.toNat < 32 then some (.reg (fieldAt s.toNat 0 5) (ofB1 rot))
  else if rot = 1 then none
  else if s.toNat < 36 then some (.push (fieldAt s.toNat 0 2))
  else none
def VDst.code : VDst → BitVec 6
  | .reg n _ => BitVec.ofNat 6 n.toNat
  | .push p => BitVec.ofNat 6 (32 + p.toNat)
def VDst.rotBit : VDst → BitVec 1
  | .reg _ r => b1 r
  | _ => 0

/-- A field that names a mask register or a broadcast register: bits [5:3] zero (R274). -/
def num3 (s : BitVec 6) : Option (BitVec 3) := if s.toNat < 8 then some (fieldAt s.toNat 0 3) else none

def VW.rotD (f : VW) : BitVec 1 := fieldAt f.rot.toNat 3 1
def VW.rotA (f : VW) : BitVec 1 := fieldAt f.rot.toNat 2 1
def VW.rotB (f : VW) : BitVec 1 := fieldAt f.rot.toNat 1 1
def VW.rotC (f : VW) : BitVec 1 := fieldAt f.rot.toNat 0 1
def rotBits (d a b c : BitVec 1) : BitVec 4 :=
  BitVec.ofNat 4 (c.toNat + b.toNat * 2 + a.toNat * 4 + d.toNat * 8)

/-- MODE holds a directed mode and nothing else (R276). -/
def dirMode (mode : BitVec 8) : Option Dir := Dir.ofCode mode.toNat

def vUn (u : VU) (f : VW) (k : Un → Except DecErr Instr) : Except DecErr Instr :=
  given (dstOf f.dst f.rotD) (.operand u.slot) fun d =>
    given (srcOf f.sa f.rotA) (.operand u.slot) fun x =>
      if f.sb == 0 && f.sc == 0 && f.rotB == 0 && f.rotC == 0 then k ⟨u, d, x, f.mask⟩ else .error (.reserved u.slot)
def vBin (u : VU) (f : VW) (k : Bin → Except DecErr Instr) : Except DecErr Instr :=
  given (dstOf f.dst f.rotD) (.operand u.slot) fun d =>
    given (srcOf f.sa f.rotA) (.operand u.slot) fun x =>
      given (srcOf f.sb f.rotB) (.operand u.slot) fun y =>
        if f.sc == 0 && f.rotC == 0 then k ⟨u, d, x, y, f.mask⟩ else .error (.reserved u.slot)
def vTri (u : VU) (f : VW) (k : Tri → Except DecErr Instr) : Except DecErr Instr :=
  given (dstOf f.dst f.rotD) (.operand u.slot) fun d =>
    given (srcOf f.sa f.rotA) (.operand u.slot) fun x =>
      given (srcOf f.sb f.rotB) (.operand u.slot) fun y =>
        given (srcOf f.sc f.rotC) (.operand u.slot) fun z => k ⟨u, d, x, y, z, f.mask⟩

/-- MOD and MODE zero. -/
def plain (u : VU) (f : VW) (i : Instr) : Except DecErr Instr :=
  need (f.mod == 0 && f.mode == 0) (.reserved u.slot) i
/-- MOD zero and MODE a directed mode. -/
def rnd (u : VU) (f : VW) (k : Dir → Instr) : Except DecErr Instr :=
  given (dirMode f.mode) (.operand u.slot) fun rm => need (f.mod == 0) (.reserved u.slot) (k rm)
/-- MODE zero and MOD[5:0] a lane number. -/
def lane6 (u : VU) (f : VW) (k : BitVec 6 → Instr) : Except DecErr Instr :=
  need (f.mod.toNat < 64 && f.mode == 0) (.reserved u.slot) (k (fieldAt f.mod.toNat 0 6))

def vCmp (u : VU) (f : VW) (k : CmpOps → Except DecErr Instr) : Except DecErr Instr :=
  given (num3 f.dst) (.operand u.slot) fun d =>
    given (srcOf f.sa f.rotA) (.operand u.slot) fun x =>
      given (srcOf f.sb f.rotB) (.operand u.slot) fun y =>
        if f.sc == 0 && f.rotC == 0 && f.rotD == 0 then k ⟨u, d, x, y, f.mask⟩ else .error (.reserved u.slot)
def vMsk2 (u : VU) (f : VW) (k : Msk2 → Instr) : Except DecErr Instr :=
  given (num3 f.dst) (.operand u.slot) fun d =>
    given (num3 f.sa) (.operand u.slot) fun x =>
      given (num3 f.sb) (.operand u.slot) fun y =>
        wfOr u.slot (need (f.sc == 0 && f.rot == 0 && f.mod == 0 && f.mode == 0) (.reserved u.slot) (k ⟨u, d, x, y, f.mask⟩))

/-- `FCVT`'s MODE: rounding mode, SAT, residue under FEEDBACK only, [7:6] zero; the row operand under DITHER (R285). -/
def cvtRnd (f : VW) : Option CvtRnd :=
  let rm := f.mode.toNat % 8
  let res := f.mode.toNat / 16
  if rm < 4 then if res = 0 ∧ f.sb = 0 ∧ f.rotB = 0 then (Dir.ofCode rm).map .dir else none
  else if rm = 4 then if res = 0 then (srcOf f.sb f.rotB).map .dither else none
  else if rm = 5 then if res < 4 ∧ f.sb = 0 ∧ f.rotB = 0 then some (.feedback (fieldAt f.mode.toNat 4 2)) else none
  else none
def CvtRnd.mode (r : CvtRnd) (sat : Bool) : BitVec 8 :=
  match r with
  | .dir d => BitVec.ofNat 8 (d.code + (b1 sat).toNat * 8)
  | .dither _ => BitVec.ofNat 8 (4 + (b1 sat).toNat * 8)
  | .feedback k => BitVec.ofNat 8 (5 + (b1 sat).toNat * 8 + k.toNat * 16)
def CvtRnd.row (r : CvtRnd) : BitVec 6 := match r with | .dither x => x.code | _ => 0
def CvtRnd.rowRot (r : CvtRnd) : BitVec 1 := match r with | .dither x => x.rotBit | _ => 0

def decV (u : VU) (f : VW) : Except DecErr Instr :=
  let e : DecErr := .reserved u.slot
  match f.op.toNat with
  | 0x00 => need (f == ⟨0, 0, 0, 0, 0, 0, 0, 0, 0⟩) e .nop
  | 0x01 => vBin u f fun o => rnd u f (.fadd o)
  | 0x02 => vBin u f fun o => rnd u f (.fsub o)
  | 0x03 => vBin u f fun o => rnd u f (.fmul o)
  | 0x04 => vTri u f fun o => rnd u f (.fma o)
  | 0x05 => vTri u f fun o => rnd u f (.fnma o)
  | 0x06 => vBin u f fun o => plain u f (.fmin o)
  | 0x07 => vBin u f fun o => plain u f (.fmax o)
  | 0x08 => vUn u f fun o => plain u f (.fabs o)
  | 0x09 => vUn u f fun o => plain u f (.fneg o)
  | 0x0A => vCmp u f fun o => wfOr u.slot (need (f.mod.toNat < 8 && f.mode == 0) e (.fcmp (FCond.ofCode (fieldAt f.mod.toNat 0 3)) o))
  | 0x0B => given (num3 f.sc) (.operand u.slot) fun c =>
      given (dstOf f.dst f.rotD) (.operand u.slot) fun d =>
        given (srcOf f.sa f.rotA) (.operand u.slot) fun x =>
          given (srcOf f.sb f.rotB) (.operand u.slot) fun y =>
            need (f.rotC == 0 && f.mod == 0 && f.mode == 0) e (.fsel ⟨u, d, x, y, f.mask⟩ c)
  | 0x0C => vUn u f fun o => plain u f (.fclass o)
  | 0x10 => vUn u f fun o => rnd u f (.frcp o)
  | 0x11 => vUn u f fun o => rnd u f (.frsq o)
  | 0x12 => vUn u f fun o => rnd u f (.fsqrt o)
  | 0x13 => vUn u f fun o => rnd u f (.fexp2 o)
  | 0x14 => vUn u f fun o => rnd u f (.flog2 o)
  | 0x15 => vUn u f fun o => rnd u f (.ftanh o)
  | 0x18 => given (dstOf f.dst f.rotD) (.operand u.slot) fun d =>
      given (srcOf f.sa f.rotA) (.operand u.slot) fun x =>
        given (cvtRnd f) (.operand u.slot) fun r =>
          wfOr u.slot (need (f.sc == 0 && f.rotC == 0 && fieldAt f.mod.toNat 4 1 == 0 && f.mod.toNat < 64) e
            (.fcvt ⟨u, d, x, f.mask⟩ (ofB1 (fieldAt f.mod.toNat 5 1)) (fieldAt f.mod.toNat 0 4) r
              (ofB1 (fieldAt f.mode.toNat 3 1))))
  | 0x19 => vUn u f fun o => rnd u f (.fround o)
  | 0x1A => vBin u f fun o => rnd u f (.fscale o)
  | 0x20 => vBin u f fun o => plain u f (.iadd o)
  | 0x21 => vBin u f fun o => plain u f (.isub o)
  | 0x22 => vBin u f fun o => plain u f (.imul o)
  | 0x23 => vBin u f fun o => plain u f (.imulh o)
  | 0x24 => vBin u f fun o => plain u f (.imulhu o)
  | 0x25 => vBin u f fun o => plain u f (.ishl o)
  | 0x26 => vBin u f fun o => plain u f (.ishr o)
  | 0x27 => vBin u f fun o => plain u f (.isar o)
  | 0x28 => vBin u f fun o => plain u f (.iand o)
  | 0x29 => vBin u f fun o => plain u f (.ior o)
  | 0x2A => vBin u f fun o => plain u f (.ixor o)
  | 0x2B => vBin u f fun o => plain u f (.iandn o)
  | 0x2C => vBin u f fun o => plain u f (.imin o)
  | 0x2D => vBin u f fun o => plain u f (.imax o)
  | 0x2E => vBin u f fun o => plain u f (.iminu o)
  | 0x2F => vBin u f fun o => plain u f (.imaxu o)
  | 0x30 => vCmp u f fun o => given (Cond.ofCode (fieldAt f.mod.toNat 0 4)) (.operand u.slot) fun c =>
      wfOr u.slot (need (f.mod.toNat < 16 && f.mode == 0) e (.icmp c o))
  | 0x31 => vTri u f fun o => plain u f (.isel o)
  | 0x32 => vUn u f fun o => plain u f (.iabs o)
  | 0x33 => vUn u f fun o => plain u f (.iclz o)
  | 0x34 => vUn u f fun o => plain u f (.ipopc o)
  | 0x35 => vBin u f fun o => plain u f (.iadds o)
  | 0x36 => vBin u f fun o => plain u f (.isubs o)
  | 0x40 => vUn u f fun o => plain u f (.frsum o)
  | 0x41 => vUn u f fun o => plain u f (.frmax o)
  | 0x42 => vUn u f fun o => plain u f (.frmin o)
  | 0x43 => vUn u f fun o => plain u f (.irsum o)
  | 0x44 => vUn u f fun o => need (f.mod.toNat < 2 && f.mode == 0) e (.irmax o (ofB1 (fieldAt f.mod.toNat 0 1)))
  | 0x45 => vUn u f fun o => need (f.mod.toNat < 2 && f.mode == 0) e (.irmin o (ofB1 (fieldAt f.mod.toNat 0 1)))
  | 0x48 => vUn u f fun o => plain u f (.fscan o)
  | 0x49 => vUn u f fun o => plain u f (.fscanx o)
  | 0x4A => vUn u f fun o => plain u f (.iscan o)
  | 0x4B => vUn u f fun o => plain u f (.iscanx o)
  | 0x50 => match f.mod.toNat with
      | 0 => given (dstOf f.dst f.rotD) (.operand u.slot) fun d =>
          need (f.sa == 0 && f.sb == 0 && f.sc == 0 && f.rotA == 0 && f.rotB == 0 && f.rotC == 0 && f.mode == 0) e
            (.compressM u d f.mask)
      | 1 => vBin u f fun o => need (f.mask == 0 && f.mode == 0) e (.compressB o.u o.d o.x o.y)
      | 2 => vUn u f fun o => need (f.mode == 0) e (.compressV o)
      | _ => .error (.operand u.slot)
  | 0x51 => vUn u f fun o => plain u f (.expand o)
  | 0x52 => vBin u f fun o => plain u f (.perm o)
  | 0x53 => vUn u f fun o => lane6 u f (.bcast o)
  | 0x54 => given (dstOf f.dst f.rotD) (.operand u.slot) fun d =>
      need (f.sa == 0 && f.sb == 0 && f.sc == 0 && f.rotA == 0 && f.rotB == 0 && f.rotC == 0 && f.mod == 0 && f.mode == 0) e
        (.laneid u d f.mask)
  | 0x55 => vUn u f fun o => lane6 u f (.rotl o)
  | 0x56 => given (num3 f.dst) (.operand u.slot) fun d =>
      given (srcOf f.sa f.rotA) (.operand u.slot) fun x =>
        need (f.sb == 0 && f.sc == 0 && f.mask == 0 && f.rotD == 0 && f.rotB == 0 && f.rotC == 0 && f.mode == 0
          && f.mod.toNat < 64) e (.movb u d x (fieldAt f.mod.toNat 0 6))
  | 0x57 => vUn u f fun o => plain u f (.mov o)
  | 0x60 => vMsk2 u f .mskand
  | 0x61 => vMsk2 u f .mskor
  | 0x62 => vMsk2 u f .mskxor
  | 0x63 => given (num3 f.dst) (.operand u.slot) fun d => given (num3 f.sa) (.operand u.slot) fun x =>
      wfOr u.slot (need (f.sb == 0 && f.sc == 0 && f.rot == 0 && f.mod == 0 && f.mode == 0) e (.msknot u d x f.mask))
  | 0x64 => vMsk2 u f .mskandn
  | 0x65 => given (num3 f.dst) (.operand u.slot) fun d => given (srcOf f.sa f.rotA) (.operand u.slot) fun x =>
      wfOr u.slot (need (f.sb == 0 && f.sc == 0 && f.rotD == 0 && f.rotB == 0 && f.rotC == 0 && f.mod == 0 && f.mode == 0) e
        (.mskfrom u d x f.mask))
  | 0x66 => given (dstOf f.dst f.rotD) (.operand u.slot) fun d => given (num3 f.sa) (.operand u.slot) fun x =>
      need (f.sb == 0 && f.sc == 0 && f.rotA == 0 && f.rotB == 0 && f.rotC == 0 && f.mod == 0 && f.mode == 0) e
        (.mskto u d x f.mask)
  | 0x67 => given (dstOf f.dst f.rotD) (.operand u.slot) fun d => given (num3 f.sa) (.operand u.slot) fun x =>
      need (f.sb == 0 && f.sc == 0 && f.rotA == 0 && f.rotB == 0 && f.rotC == 0 && f.mod == 0 && f.mode == 0) e
        (.mskpopc u d x f.mask)
  | 0x70 => need (f.dst.toNat < 32 && f.sa.toNat < 32 && f.sb == 0 && f.sc == 0 && f.mask == 0 && f.rotD == 0
        && f.rotB == 0 && f.rotC == 0 && f.mode == 0 && f.mod.toNat < 64) e
      (.copyAV u (fieldAt f.dst.toNat 0 5) (fieldAt f.sa.toNat 0 5) (ofB1 f.rotA) (fieldAt f.mod.toNat 0 6))
  | 0x71 => given (num3 f.sa) (.operand u.slot) fun x =>
      need (f.dst.toNat < 32 && f.sb == 0 && f.sc == 0 && f.mask == 0 && f.rot == 0 && f.mode == 0 && f.mod == 0) e
        (.mskcopyA u (fieldAt f.dst.toNat 0 5) x)
  | n => .error (.opcode u.slot n)

def eUn (op : BitVec 8) (o : Un) (mode : BitVec 8) (mod : BitVec 12) : Option VW :=
  some ⟨op, o.d.code, o.x.code, 0, 0, o.m, mode, rotBits o.d.rotBit o.x.rotBit 0 0, mod⟩
def eBin (op : BitVec 8) (o : Bin) (mode : BitVec 8) (mod : BitVec 12) : Option VW :=
  some ⟨op, o.d.code, o.x.code, o.y.code, 0, o.m, mode, rotBits o.d.rotBit o.x.rotBit o.y.rotBit 0, mod⟩
def eTri (op : BitVec 8) (o : Tri) (mode : BitVec 8) : Option VW :=
  some ⟨op, o.d.code, o.x.code, o.y.code, o.z.code, o.m, mode,
    rotBits o.d.rotBit o.x.rotBit o.y.rotBit o.z.rotBit, 0⟩
def eCmp (op : BitVec 8) (o : CmpOps) (mod : BitVec 12) : Option VW :=
  some ⟨op, o.d.zeroExtend 6, o.x.code, o.y.code, 0, o.m, 0, rotBits 0 o.x.rotBit o.y.rotBit 0, mod⟩
def eMsk (op : BitVec 8) (o : Msk2) : Option VW :=
  some ⟨op, o.d.zeroExtend 6, o.x.zeroExtend 6, o.y.zeroExtend 6, 0, o.m, 0, 0, 0⟩
def dm (d : Dir) : BitVec 8 := BitVec.ofNat 8 d.code

def encV : Instr → Option VW
  | .nop => some ⟨0, 0, 0, 0, 0, 0, 0, 0, 0⟩
  | .fadd o rm => eBin 0x01 o (dm rm) 0
  | .fsub o rm => eBin 0x02 o (dm rm) 0
  | .fmul o rm => eBin 0x03 o (dm rm) 0
  | .fma o rm => eTri 0x04 o (dm rm)
  | .fnma o rm => eTri 0x05 o (dm rm)
  | .fmin o => eBin 0x06 o 0 0
  | .fmax o => eBin 0x07 o 0 0
  | .fabs o => eUn 0x08 o 0 0
  | .fneg o => eUn 0x09 o 0 0
  | .fcmp c o => eCmp 0x0A o (c.code.zeroExtend 12)
  | .fsel o c => some ⟨0x0B, o.d.code, o.x.code, o.y.code, c.zeroExtend 6, o.m, 0,
      rotBits o.d.rotBit o.x.rotBit o.y.rotBit 0, 0⟩
  | .fclass o => eUn 0x0C o 0 0
  | .frcp o rm => eUn 0x10 o (dm rm) 0
  | .frsq o rm => eUn 0x11 o (dm rm) 0
  | .fsqrt o rm => eUn 0x12 o (dm rm) 0
  | .fexp2 o rm => eUn 0x13 o (dm rm) 0
  | .flog2 o rm => eUn 0x14 o (dm rm) 0
  | .ftanh o rm => eUn 0x15 o (dm rm) 0
  | .fcvt o isI tgt r sat => some ⟨0x18, o.d.code, o.x.code, r.row, 0, o.m, r.mode sat,
      rotBits o.d.rotBit o.x.rotBit r.rowRot 0, BitVec.ofNat 12 (tgt.toNat + (b1 isI).toNat * 32)⟩
  | .fround o rm => eUn 0x19 o (dm rm) 0
  | .fscale o rm => eBin 0x1A o (dm rm) 0
  | .iadd o => eBin 0x20 o 0 0
  | .isub o => eBin 0x21 o 0 0
  | .imul o => eBin 0x22 o 0 0
  | .imulh o => eBin 0x23 o 0 0
  | .imulhu o => eBin 0x24 o 0 0
  | .ishl o => eBin 0x25 o 0 0
  | .ishr o => eBin 0x26 o 0 0
  | .isar o => eBin 0x27 o 0 0
  | .iand o => eBin 0x28 o 0 0
  | .ior o => eBin 0x29 o 0 0
  | .ixor o => eBin 0x2A o 0 0
  | .iandn o => eBin 0x2B o 0 0
  | .imin o => eBin 0x2C o 0 0
  | .imax o => eBin 0x2D o 0 0
  | .iminu o => eBin 0x2E o 0 0
  | .imaxu o => eBin 0x2F o 0 0
  | .icmp c o => eCmp 0x30 o (c.code.zeroExtend 12)
  | .isel o => eTri 0x31 o 0
  | .iabs o => eUn 0x32 o 0 0
  | .iclz o => eUn 0x33 o 0 0
  | .ipopc o => eUn 0x34 o 0 0
  | .iadds o => eBin 0x35 o 0 0
  | .isubs o => eBin 0x36 o 0 0
  | .frsum o => eUn 0x40 o 0 0
  | .frmax o => eUn 0x41 o 0 0
  | .frmin o => eUn 0x42 o 0 0
  | .irsum o => eUn 0x43 o 0 0
  | .irmax o uns => eUn 0x44 o 0 ((b1 uns).zeroExtend 12)
  | .irmin o uns => eUn 0x45 o 0 ((b1 uns).zeroExtend 12)
  | .fscan o => eUn 0x48 o 0 0
  | .fscanx o => eUn 0x49 o 0 0
  | .iscan o => eUn 0x4A o 0 0
  | .iscanx o => eUn 0x4B o 0 0
  | .compressM _ d m => some ⟨0x50, d.code, 0, 0, 0, m, 0, rotBits d.rotBit 0 0 0, 0⟩
  | .compressB u d x y => eBin 0x50 ⟨u, d, x, y, 0⟩ 0 1
  | .compressV o => eUn 0x50 o 0 2
  | .expand o => eUn 0x51 o 0 0
  | .perm o => eBin 0x52 o 0 0
  | .bcast o n => eUn 0x53 o 0 (n.zeroExtend 12)
  | .laneid _ d m => some ⟨0x54, d.code, 0, 0, 0, m, 0, rotBits d.rotBit 0 0 0, 0⟩
  | .rotl o n => eUn 0x55 o 0 (n.zeroExtend 12)
  | .movb _ d x n => some ⟨0x56, d.zeroExtend 6, x.code, 0, 0, 0, 0, rotBits 0 x.rotBit 0 0, n.zeroExtend 12⟩
  | .mov o => eUn 0x57 o 0 0
  | .mskand o => eMsk 0x60 o
  | .mskor o => eMsk 0x61 o
  | .mskxor o => eMsk 0x62 o
  | .msknot _ d x m => some ⟨0x63, d.zeroExtend 6, x.zeroExtend 6, 0, 0, m, 0, 0, 0⟩
  | .mskandn o => eMsk 0x64 o
  | .mskfrom _ d x m => some ⟨0x65, d.zeroExtend 6, x.code, 0, 0, m, 0, rotBits 0 x.rotBit 0 0, 0⟩
  | .mskto _ d x m => some ⟨0x66, d.code, x.zeroExtend 6, 0, 0, m, 0, rotBits d.rotBit 0 0 0, 0⟩
  | .mskpopc _ d x m => some ⟨0x67, d.code, x.zeroExtend 6, 0, 0, m, 0, rotBits d.rotBit 0 0 0, 0⟩
  | .copyAV _ d x rot n => some ⟨0x70, d.zeroExtend 6, x.zeroExtend 6, 0, 0, 0, 0, rotBits 0 (b1 rot) 0 0, n.zeroExtend 12⟩
  | .mskcopyA _ d x => some ⟨0x71, d.zeroExtend 6, x.zeroExtend 6, 0, 0, 0, 0, 0, 0⟩
  | _ => none

/-! M slot (09 R219, R227; 13). -/

/-- The fields named are used; every other field of the M format is zero. -/
def MW.only (f : MW) (idx acc tile rnd mp areg : Bool) : Bool :=
  (idx || f.idx == 0) && (acc || f.acc == 0) && (tile || f.tile == 0) && (rnd || (f.rm == 0 && f.sat == 0))
    && (mp || f.mp == 0) && (areg || f.areg == 0) && f.z == 0

def decM (f : MW) : Except DecErr Instr :=
  let e : DecErr := .reserved .m
  match f.op.toNat with
  | 0x00 => need (f.only false false false false false false) e .nop
  | 0x01 => need (f.only true true false false false false) e (.mcall f.idx f.acc)
  | 0x02 => need (f.only false false false false false false) e .mchb
  | 0x03 => need (f.only false false false false false false) e .mche
  | 0x04 => need (f.only false true false false false false) e (.mzero f.acc)
  | 0x05 => given (XRnd.ofCode f.rm) (.operand .m) fun rm =>
      need (f.only false true true true true false) e (.mdrain f.tile f.acc f.mp rm (ofB1 f.sat))
  | 0x06 => wfOr .m (need (f.only true false false false true false) e (.mgidx f.mp f.idx))
  | 0x07 => need (f.only false false false false true false) e (.mstat f.mp)
  | 0x08 => need (f.only false true false false false false) e (.mlive f.acc)
  | 0x09 => need (f.only false true false false false false) e (.mdead f.acc)
  | 0x0A => need (f.only false false false false true true) e (.copyAM f.areg f.mp)
  | 0x1E => need (f.only true false true false true false && f.tile.toNat < 32) e
      (.mreaduc f.mp f.idx (fieldAt f.tile.toNat 0 5))
  | 0x1F => need (f.only true false true false true false && f.tile.toNat < 32) e
      (.mloaduc f.idx (fieldAt f.tile.toNat 0 5) f.mp)
  | n => .error (.opcode .m n)

def encM : Instr → Option MW
  | .nop => some ⟨0, 0, 0, 0, 0, 0, 0, 0, 0⟩
  | .mcall r acc => some ⟨0x01, r, acc, 0, 0, 0, 0, 0, 0⟩
  | .mchb => some ⟨0x02, 0, 0, 0, 0, 0, 0, 0, 0⟩
  | .mche => some ⟨0x03, 0, 0, 0, 0, 0, 0, 0, 0⟩
  | .mzero acc => some ⟨0x04, 0, acc, 0, 0, 0, 0, 0, 0⟩
  | .mdrain t acc mp rm sat => some ⟨0x05, 0, acc, t, rm.code, b1 sat, mp, 0, 0⟩
  | .mgidx mp n => some ⟨0x06, n, 0, 0, 0, 0, mp, 0, 0⟩
  | .mstat mp => some ⟨0x07, 0, 0, 0, 0, 0, mp, 0, 0⟩
  | .mlive acc => some ⟨0x08, 0, acc, 0, 0, 0, 0, 0, 0⟩
  | .mdead acc => some ⟨0x09, 0, acc, 0, 0, 0, 0, 0, 0⟩
  | .copyAM d mp => some ⟨0x0A, 0, 0, 0, 0, 0, mp, d, 0⟩
  | .mreaduc mp r i => some ⟨0x1E, r, 0, i.zeroExtend 12, 0, 0, mp, 0, 0⟩
  | .mloaduc r i mp => some ⟨0x1F, r, 0, i.zeroExtend 12, 0, 0, mp, 0, 0⟩
  | _ => none

/-! X slot (09 R220, R227; 14). -/

def decBx (f : XW) (k : BxOps → Instr) : Except DecErr Instr :=
  given (XRnd.ofCode f.rm) (.operand .x) fun rm =>
    given (fbOf f.fb f.fben) (.reserved .x) fun fb =>
      wfOr .x (need (f.sub.toNat < 2 && f.areg == 0 && f.z == 0) (.reserved .x)
        (k ⟨f.xa, f.xb, rm, ofB1 f.sat, ofB1 f.dig, ofB1 (fieldAt f.sub.toNat 0 1), f.st, fb⟩))
def decAt2 (f : XW) (k : At2 → Instr) : Except DecErr Instr :=
  given (fbOf f.fb f.fben) (.reserved .x) fun fb =>
    wfOr .x (need (f.sub.toNat < 4 && f.rm == 0 && f.sat == 0 && f.dig == 0 && f.areg == 0 && f.z == 0) (.reserved .x)
      (k ⟨ofB1 (fieldAt f.sub.toNat 0 1), ofB1 (fieldAt f.sub.toNat 1 1), f.st, f.xa, f.xb, fb⟩))
def decAt1 (f : XW) (k : At1 → Instr) : Except DecErr Instr :=
  given (fbOf f.fb f.fben) (.reserved .x) fun fb =>
    wfOr .x (need (f.sub.toNat < 4 && f.xb == 0 && f.rm == 0 && f.sat == 0 && f.dig == 0 && f.areg == 0 && f.z == 0)
      (.reserved .x) (k ⟨ofB1 (fieldAt f.sub.toNat 0 1), ofB1 (fieldAt f.sub.toNat 1 1), f.st, f.xa, fb⟩))
def decWin (f : XW) (k : WinOps → Instr) : Except DecErr Instr :=
  given (fbOf f.fb f.fben) (.reserved .x) fun fb =>
    wfOr .x (need (f.sub == 0 && f.rm == 0 && f.sat == 0 && f.areg == 0 && f.z == 0) (.reserved .x)
      (k ⟨f.xa, f.xb, ofB1 f.dig, f.st, fb⟩))
/-- Everything but OP, XA, XB, STREAM, RM, SAT, SUB and AREG is zero. -/
def XW.quiet (f : XW) : Bool := f.fb == 0 && f.fben == 0 && f.dig == 0 && f.z == 0

def decX (f : XW) : Except DecErr Instr :=
  let e : DecErr := .reserved .x
  match f.op.toNat with
  | 0x00 => need (f == ⟨0, 0, 0, 0, 0, 0, 0, 0, 0, 0, 0, 0⟩) e .nop
  | 0x01 => decBx f .bxLd
  | 0x02 => decBx f .bxSt
  | 0x03 => decBx f .bxCp
  | 0x04 => need (f.quiet && f.sub.toNat < 4 && f.xa == 0 && f.xb == 0 && f.st == 0 && f.rm == 0 && f.sat == 0 && f.areg == 0) e
      (.bxSch (fieldAt f.sub.toNat 0 2))
  | 0x05 => need (f.quiet && f.sub.toNat < 4 && f.xa == 0 && f.xb == 0 && f.st == 0 && f.rm == 0 && f.sat == 0 && f.areg == 0) e
      (.csadv (fieldAt f.sub.toNat 0 2))
  | 0x06 => given (XRnd.ofCode f.rm) (.operand .x) fun rm =>
      wfOr .x (need (f.quiet && f.sub == 0 && f.st == 0 && f.areg == 0) e (.lx f.xa f.xb rm (ofB1 f.sat)))
  | 0x08 => decAt1 f .atLd
  | 0x09 => decAt2 f .atSt
  | 0x0A => decAt2 f .atAdd
  | 0x0B => decAt2 f .atAnd
  | 0x0C => decAt2 f .atOr
  | 0x0D => decAt2 f .atXor
  | 0x0E => decAt2 f .atMin
  | 0x0F => decAt2 f .atMax
  | 0x10 => decAt2 f .atMinu
  | 0x11 => decAt2 f .atMaxu
  | 0x12 => decAt2 f .atSwap
  | 0x13 => decAt2 f .atCas
  | 0x14 => decAt2 f .atXadd
  | 0x15 => decAt1 f .atXrd
  | 0x16 => decAt1 f .atXclr
  | 0x18 => decAt1 f .sbArrv
  | 0x19 => need (f.quiet && (f.sub == 0 || f.sub == 4) && f.xb == 0 && f.rm == 0 && f.sat == 0 && f.areg == 0) e
      (.sbWait f.st f.xa (f.sub == 4))
  | 0x1A => wfOr .x (need (f.quiet && f.sub == 0 && f.xb == 0 && f.st == 0 && f.rm == 0 && f.sat == 0 && f.areg == 0) e
      (.cqPop f.xa))
  | 0x1C => decWin f .ingest
  | 0x1D => decWin f .egress
  | 0x20 => need (f.quiet && f.sub == 0 && f.xb == 0 && f.st == 0 && f.rm == 0 && f.sat == 0) e (.copyAX f.areg f.xa)
  | n => .error (.opcode .x n)

def sub2 (g np : Bool) : BitVec 4 := BitVec.ofNat 4 ((b1 g).toNat + (b1 np).toNat * 2)
def eBx (op : BitVec 6) (o : BxOps) : Option XW :=
  some ⟨op, o.xa, o.xb, o.st, fbCode o.fb, fbEn o.fb, o.rm.code, b1 o.sat, b1 o.dig, (b1 o.dmw).zeroExtend 4, 0, 0⟩
def eAt2 (op : BitVec 6) (o : At2) : Option XW :=
  some ⟨op, o.xa, o.xb, o.st, fbCode o.fb, fbEn o.fb, 0, 0, 0, sub2 o.g o.np, 0, 0⟩
def eAt1 (op : BitVec 6) (o : At1) : Option XW :=
  some ⟨op, o.xa, 0, o.st, fbCode o.fb, fbEn o.fb, 0, 0, 0, sub2 o.g o.np, 0, 0⟩
def eWin (op : BitVec 6) (o : WinOps) : Option XW :=
  some ⟨op, o.xa, o.xb, o.st, fbCode o.fb, fbEn o.fb, 0, 0, b1 o.dig, 0, 0, 0⟩

def encX : Instr → Option XW
  | .nop => some ⟨0, 0, 0, 0, 0, 0, 0, 0, 0, 0, 0, 0⟩
  | .bxLd o => eBx 0x01 o
  | .bxSt o => eBx 0x02 o
  | .bxCp o => eBx 0x03 o
  | .bxSch n => some ⟨0x04, 0, 0, 0, 0, 0, 0, 0, 0, n.zeroExtend 4, 0, 0⟩
  | .csadv n => some ⟨0x05, 0, 0, 0, 0, 0, 0, 0, 0, n.zeroExtend 4, 0, 0⟩
  | .lx xa xb rm sat => some ⟨0x06, xa, xb, 0, 0, 0, rm.code, b1 sat, 0, 0, 0, 0⟩
  | .atLd o => eAt1 0x08 o
  | .atSt o => eAt2 0x09 o
  | .atAdd o => eAt2 0x0A o
  | .atAnd o => eAt2 0x0B o
  | .atOr o => eAt2 0x0C o
  | .atXor o => eAt2 0x0D o
  | .atMin o => eAt2 0x0E o
  | .atMax o => eAt2 0x0F o
  | .atMinu o => eAt2 0x10 o
  | .atMaxu o => eAt2 0x11 o
  | .atSwap o => eAt2 0x12 o
  | .atCas o => eAt2 0x13 o
  | .atXadd o => eAt2 0x14 o
  | .atXrd o => eAt1 0x15 o
  | .atXclr o => eAt1 0x16 o
  | .sbArrv o => eAt1 0x18 o
  | .sbWait st xa gen => some ⟨0x19, xa, 0, st, 0, 0, 0, 0, 0, if gen then 4 else 0, 0, 0⟩
  | .cqPop xa => some ⟨0x1A, xa, 0, 0, 0, 0, 0, 0, 0, 0, 0, 0⟩
  | .ingest o => eWin 0x1C o
  | .egress o => eWin 0x1D o
  | .copyAX d k => some ⟨0x20, k, 0, 0, 0, 0, 0, 0, 0, 0, d, 0⟩
  | _ => none

/-! F slot (09 R221, R227; 15 R361). -/

def decF (f : FW) : Except DecErr Instr :=
  let e : DecErr := .reserved .f
  match f.op.toNat with
  | 0x0 => need (f == ⟨0, 0, 0, 0, 0, 0⟩) e .nop
  | 0x1 => wfOr .f (need (f.z == 0) e (.send f.link f.tile f.xp f.start))
  | 0x2 => wfOr .f (need (f.z == 0) e (.recv f.link f.tile f.xp f.start))
  | 0x3 => wfOr .f (need (f.z == 0 && f.tile.toNat < 16) e (.relay f.link (fieldAt f.tile.toNat 0 4) f.xp f.start))
  | 0x4 => wfOr .f (need (f.z == 0) e (.mcast f.link f.tile f.xp f.start))
  | 0x5 => wfOr .f (need (f.z == 0 && f.tile == 0 && f.xp == 0) e (.lchk f.link f.start))
  | n => .error (.opcode .f n)

def encF : Instr → Option FW
  | .nop => some ⟨0, 0, 0, 0, 0, 0⟩
  | .send l t xp st => some ⟨0x1, l, t, st, xp, 0⟩
  | .recv l t xp st => some ⟨0x2, l, t, st, xp, 0⟩
  | .relay l m xp st => some ⟨0x3, l, m.zeroExtend 12, st, xp, 0⟩
  | .mcast mask t xp st => some ⟨0x4, mask, t, st, xp, 0⟩
  | .lchk l st => some ⟨0x5, l, 0, st, 0, 0⟩
  | _ => none

/-! Slots and bundles. -/

/-- The instruction in slot `sl` whose bits are `w` (the guard and PP are read apart). -/
def decodeSlot (sl : Slot) (w : Nat) : Except DecErr Instr :=
  match sl with
  | .c => decC (CW.unpack w)
  | .a => decA (AW.unpack w)
  | .v0 => decV .v0 (VW.unpack w)
  | .v1 => decV .v1 (VW.unpack w)
  | .m => decM (MW.unpack w)
  | .x => decX (XW.unpack w)
  | .f => decF (FW.unpack w)

/-- The bits of instruction `i` in its slot, guard and PP zero; `none` where it has no place in that slot. -/
def encodeIn (sl : Slot) (i : Instr) : Option Nat :=
  match sl with
  | .c => (encC i).map CW.pack
  | .a => (encA i).map AW.pack
  | .v0 | .v1 => if i = .nop ∨ i.vu?.map VU.slot = some sl then (encV i).map VW.pack else none
  | .m => (encM i).map MW.pack
  | .x => (encX i).map XW.pack
  | .f => (encF i).map FW.pack

/-- The encoder: the slot an instruction stands in and its bits there. -/
def encode (i : Instr) : Option (Slot × Nat) :=
  match i.slot? with
  | none => none
  | some sl => (encodeIn sl i).map fun w => (sl, w)

/-- First bit and width of a slot in the bundle (R212). -/
def Slot.base : Slot → Nat
  | .c => 0 | .a => 64 | .v0 => 112 | .v1 => 176 | .m => 240 | .x => 288 | .f => 336
def Slot.width : Slot → Nat
  | .c => 64 | .a => 48 | .v0 => 64 | .v1 => 64 | .m => 48 | .x => 48 | .f => 48

/-- A slot's guard (R213) and instruction. -/
structure SlotOp where
  guard : BitVec 5
  op : Instr
deriving DecidableEq, Repr

def SlotOp.nop : SlotOp := ⟨0, .nop⟩

/-- A decoded bundle: PP (R214) and the seven slots. -/
structure Bundle where
  pp : Bool
  c : SlotOp
  a : SlotOp
  v0 : SlotOp
  v1 : SlotOp
  m : SlotOp
  x : SlotOp
  f : SlotOp
deriving DecidableEq, Repr

/-- The slots in the order in which their operations issue and their traps are ranked (06 R126, 17 R396). -/
def Bundle.slots (b : Bundle) : List (Slot × SlotOp) :=
  [(.c, b.c), (.a, b.a), (.v0, b.v0), (.v1, b.v1), (.m, b.m), (.x, b.x), (.f, b.f)]

def slotBits (w : W384) (sl : Slot) : Nat := w.toNat / 2 ^ sl.base % 2 ^ sl.width

def decodeSlotOp (w : W384) (sl : Slot) : Except DecErr SlotOp :=
  match decodeSlot sl (slotBits w sl) with
  | .ok i => .ok ⟨fieldAt (slotBits w sl) 0 5, i⟩
  | .error e => .error e

/-- The checks of R222 that look at two slots, and those of PRIV and FWCORE. -/
def Bundle.check (b : Bundle) (priv fw : Bool) : Option DecErr :=
  if b.v0.op.inPorts.any (fun p => b.v1.op.inPorts.contains p) then some .inPortTwice
  else if b.v0.op.outPort?.isSome && b.v0.op.outPort? == b.v1.op.outPort? then some .outPortTwice
  else if !priv && b.m.op.privileged then some .privileged
  else if fw && !(b.v0 == .nop && b.v1 == .nop && b.m == .nop && b.x == .nop && b.f == .nop) then some .fwSlot
  else none

/-- The decoder: a bundle's 384 bits, in an object with the given PRIV and FWCORE bits. -/
def decodeBundle (priv fw : Bool) (w : W384) : Except DecErr Bundle :=
  (decodeSlotOp w .c).bind fun c => (decodeSlotOp w .a).bind fun a => (decodeSlotOp w .v0).bind fun v0 =>
  (decodeSlotOp w .v1).bind fun v1 => (decodeSlotOp w .m).bind fun m => (decodeSlotOp w .x).bind fun x =>
  (decodeSlotOp w .f).bind fun f =>
    let b : Bundle := ⟨fieldAt (slotBits w .c) 63 1 == 1, c, a, v0, v1, m, x, f⟩
    match b.check priv fw with
    | some e => .error e
    | none => .ok b

/-- The bundle that holds one slot operation and NOPs elsewhere, as bits. -/
def encodeBundle1 (g : BitVec 5) (i : Instr) : Option W384 :=
  (encode i).map fun p => BitVec.ofNat 384 ((p.2 + g.toNat) * 2 ^ p.1.base)

/-- The 48 bytes of a bundle as the device stores them: little-endian (R202, R7). -/
def bundleBytes (w : W384) : List Byte := toBytes 48 w.toNat

/-- The bundle held by 48 bytes. -/
def bundleOfBytes (l : List Byte) : W384 := BitVec.ofNat 384 (ofBytes l)

/-- The instruction of a bundle that holds one operation: that of its first slot that is not NOP; NOP if all are. -/
def Bundle.single (b : Bundle) : Instr :=
  match b.slots.find? (fun p => p.2.op != .nop) with
  | some p => p.2.op
  | none => .nop

/-- The host's question: the instruction the decoder reads from a bundle whose low `nbits` bits are `w`. -/
def decodeTableWord (nbits w : Nat) : Option Instr :=
  match decodeBundle true false (bundleOfBytes (bundleBytes (BitVec.ofNat 384 (w % 2 ^ nbits)))) with
  | .ok b => some b.single
  | .error _ => none

end Sys2Proof
end

