-- ==== Sys2Proof/Machine/Memory.lean ====
section
/-! DEFINITION. Bytes by address in one canonical form: the model of global memory (02 R28), of the Sconces' SRAM and of
tile contents (03 R54). Addresses strictly rise and no listed byte equals what an unlisted address reads as. -/

namespace Sys2Proof.Machine

/-- A canonical list of address and byte. -/
abbrev Memory := List Host.Cell

/-- What an address that nothing has written reads as. A tile word reads zero (03 R56); for global memory the spec gives no
power-on contents and the model fixes 0x00. DESIGN CHOICE, unsafe: log 1. -/
def Memory.blank : Byte := 0

/-- Addresses rise from `lo` on and no entry is blank. -/
def Memory.wfFrom : Nat → Memory → Bool
  | _, [] => true
  | lo, (a, b) :: m => decide (lo ≤ a) && b != Memory.blank && Memory.wfFrom (a + 1) m

/-- The canonical form. -/
def Memory.wf (m : Memory) : Bool := Memory.wfFrom 0 m

/-- The byte at `a`. -/
def Memory.get : Memory → Nat → Byte
  | [], _ => Memory.blank
  | (k, b) :: m, a => if a = k then b else if a < k then Memory.blank else Memory.get m a

/-- `m` with byte `x` at `a`; a blank byte is unlisted. -/
def Memory.set : Memory → Nat → Byte → Memory
  | [], a, x => if x = Memory.blank then [] else [(a, x)]
  | (k, b) :: m, a, x =>
    if a < k then (if x = Memory.blank then (k, b) :: m else (a, x) :: (k, b) :: m)
    else if a = k then (if x = Memory.blank then m else (k, x) :: m)
    else (k, b) :: Memory.set m a x

/-- The `n` bytes from `a` up. -/
def Memory.read (m : Memory) : Nat → Nat → List Byte
  | _, 0 => []
  | a, n + 1 => m.get a :: Memory.read m (a + 1) n

/-- The little-endian number in the `n` bytes from `a` (00 R7). -/
def Memory.nat (m : Memory) (a n : Nat) : Nat := ofBytes (m.read a n)

/-- `m` with the bytes `l` from `a` up. -/
def Memory.write (m : Memory) : Nat → List Byte → Memory
  | _, [] => m
  | a, b :: l => Memory.write (m.set a b) (a + 1) l

/-- `m` with each listed byte stored. -/
def Memory.store (m : Memory) (l : List Host.Cell) : Memory := l.foldl (fun m c => m.set c.1 c.2) m

/-- The bits of a byte in the mask replaced. -/
def mergeByte (old : Byte) (mask val : Nat) : Byte :=
  BitVec.ofNat 8 ((old.toNat &&& (255 - mask % 256)) ||| (val &&& (mask % 256)))

/-- The `n`-bit little-endian field at bit offset `o`. -/
def Memory.field (m : Memory) (o n : Nat) : Nat := m.nat (o / 8) ((o % 8 + n + 7) / 8) / 2 ^ (o % 8) % 2 ^ n

/-- `m` with the `n`-bit field at bit offset `o` replaced by `v` (sub-byte elements merge, 04 R80). -/
def Memory.setField (m : Memory) (o n v : Nat) : Memory :=
  let k := (o % 8 + n + 7) / 8
  let old := m.nat (o / 8) k
  let lowPart := old % 2 ^ (o % 8)
  let highPart := old / 2 ^ (o % 8 + n) * 2 ^ (o % 8 + n)
  m.write (o / 8) (toBytes k (lowPart + (v % 2 ^ n) * 2 ^ (o % 8) + highPart))

end Sys2Proof.Machine
end

