-- ==== Sys2Proof/Machine/CoreState.lean ====
section
/-! DEFINITION. What a core, a cluster and a gang hold (10 R233-R246, 13 R299, 02 R41-R45, 03 R52-R62, 05 R117, 08 R173-R198,
09 R205-R211, 11 R247-R249, 15 R362-R371, 16 R386-R389): types only. -/

namespace Sys2Proof.Machine

/-- An accumulator: 128 rows of 128 lanes (13 R299). -/
abbrev Acc := Vector (Vector W32 128) 128

/-- Who issues a global access: a core, or the hub's own agents (Lantern, scale-out, dispatcher; 06 R141, R145). -/
inductive Who where
  | core (c : CoreId)
  | hub
deriving DecidableEq, Repr

/-- The register file of a vector slot (10 R233). -/
structure VFile where
  r : Vector Lanes 32
  m : Vector W64 8
  b : Vector W32 8
  e : Vector Lanes 4
deriving DecidableEq, Repr

/-- A tile-table entry (02 R42). BMAP is the device's own and has no visible effect (03 R55). -/
structure TileEnt where
  lvl : Bool
  retain : Bool
  fmt : BitVec 5
  dims : BitVec 2
  owner : BitVec 2
  e0 : W16
  e1 : W16
  e2 : W16
  e3 : W16
deriving DecidableEq, Repr

/-- A valid entry with the tile's bytes (03 R54), its poisoned 8-byte units (03 R63), its count of captures (02 R45) and the
number that tells it from an earlier tile of the same handle. -/
structure Tile where
  ent : TileEnt
  data : Memory
  poison : List Nat
  caps : Nat
  born : Nat
deriving DecidableEq, Repr

/-- A captured entry (02 R45): handle, entry, and the tile it captured. -/
structure Cap where
  h : Nat
  ent : TileEnt
  born : Nat
deriving DecidableEq, Repr

/-- A field of `w` bits at bit offset `o` of a tile's bytes, to be given the value `v`. -/
structure BitUpd where
  o : Nat
  w : Nat
  v : Nat
deriving DecidableEq, Repr

/-- A timed action of a core that is issued and takes place at a later cycle (05 R106). `smp` marks those that sample. -/
inductive Act where
  | c (i : BitVec 4) (v : W64)
  | p (i : BitVec 4) (b : Bool)
  | a (i : BitVec 5) (v : W64)
  | v (u : VU) (i : BitVec 5) (x : Lanes) (m : W64)
  | m (u : VU) (i : BitVec 3) (x : W64) (m : W64)
  | b (u : VU) (i : BitVec 3) (x : W32)
  | e (u : VU) (i : BitVec 2) (x : Lanes) (m : W64)
  | mp (i : BitVec 3) (v : W64)
  | xp (i : BitVec 4) (v : W64)
  | flags (f : BitVec 7)
  | flagsClr (v : W64)
  | fbArrive (n : BitVec 5)
  | fbSet (n : BitVec 5) (v : W64)
  | stage (port : BitVec 4) (i : BitVec 3) (v : W64)
  | stageSys (port : BitVec 4) (i : BitVec 3) (v : W64)
  | rot (v : W64)
  | fwReg (r : BitVec 10) (v : W64)
  | tile (c : Cap) (upd : List BitUpd)
  | tileNew (h : Nat) (e : TileEnt)
  | tileFree (h : Nat)
  | uncap (c : Cap)
  | arm (port : Nat) (ps : Vector W64 5) (c : Cap)
  | samplePort (port : BitVec 4) (arm : Nat) (k : Nat) (c : Cap) (words : List Nat)
  | sampleLdt (c : Cap) (off : Nat) (d : BitVec 5) (iss : Nat)
  | live (k : BitVec 2) (b : Bool)
  | mzero (k : BitVec 2)
  | mstat (mp : BitVec 3)
  | ucodeW (r : BitVec 8) (i : BitVec 5) (v : W64)
  | ucodeR (mp : BitVec 3) (r : BitVec 8) (i : BitVec 5)
  | mxFetch (id t : Nat)
  | mxStep (id k : Nat)
  | mxEnd (id : Nat)
  | drainSample (id : Nat)
  | drainEnd (id : Nat)
  | gatherRead (id i : Nat)
  | gatherSet (id : Nat)
  | lxSample (id t : Nat)
  | lxWrite (id j : Nat)
deriving DecidableEq, Repr

/-- An action with the cycle at which it takes place, the cycle its bundle issued, and whether the slot that owns the register
made it (10 R234: an owner's write wins over a copy's of the same bundle). -/
structure Pend where
  time : Nat
  iss : Nat
  own : Bool
  act : Act
deriving DecidableEq, Repr

/-- A port with its address generator (10 R236-R239). -/
structure Port where
  stage : Vector W64 5
  active : Vector W64 5
  armed : Bool
  pos : Nat
  cap : Option Cap
  armIss : Nat
  arm : Nat
  buf : List (Nat × Lanes × BitVec 7)
deriving DecidableEq, Repr

/-- A loop-stack level (10 R244); `ring` says that its loop named a ring entry (11 R248, NamesRing). -/
structure Level where
  trip : W32
  iter : W32
  start : BitVec 10
  stop : BitVec 10
  ring : Bool
deriving DecidableEq, Repr

/-- A loop-buffer entry (09 R208): bundle, idle count, stamp, the core cycle from which it is ready (R210), poison (R204). -/
structure Entry where
  bundle : W384
  gap : Nat
  stamp : Option (BitVec 12)
  ready : Nat
  poisoned : Bool
deriving DecidableEq, Repr

/-- A segment expanded into a loop-buffer half (09 R208, R210). `done` is the cycle after which its expansion is complete. -/
structure Half where
  seg : Nat
  entries : List Entry
  gEnd : Nat
  selPos : Nat
  next0 : Nat
  next1 : Nat
  endSel : Option PRef
  done : Nat
deriving DecidableEq, Repr

/-- Where a core stands in its phase (08 R184, R194). -/
inductive Run where
  | idle        -- no phase of the core is running
  | timed       -- in its timed chain
  | waitSlack   -- timed chain ended, slack chain not begun
  | slack       -- in its slack chain
  | signed      -- signed off, expanding successors
  | arrived     -- arrived at the Candelabra
  | halted      -- a firmware core stopped by HALT (18 R421)
deriving DecidableEq, Repr

/-- A tile word that a routine fetches (13 R306): cycles after issue, the captured tile, the word, its place in the latch set. -/
structure Fetch where
  t : Nat
  cap : Cap
  word : Nat
  place : Nat
deriving DecidableEq, Repr

/-- A routine accepted by the MXU and not ended (13 R305-R309): its micro-ops, the accumulator of its `MCALL`, the `mp` registers
as captured, the captured tiles, S, E, its chain, A and B formats, and the latch set with what it has fetched. -/
structure Routine where
  id : Nat
  ops : List W64
  acc : BitVec 2
  args : Vector W64 8
  caps : List Cap
  fetches : List Fetch
  iss : Nat
  s : Nat
  e : Nat
  set1 : Bool
  aFmt : BitVec 5
  bFmt : BitVec 5
  inChain : Option Nat
  latch : List (Nat × List Byte)
deriving DecidableEq, Repr

/-- An accepted `MDRAIN` (13 R314): what it samples at issue+1 and writes from issue+8. -/
structure Drain where
  id : Nat
  iss : Nat
  acc : BitVec 2
  cap : Cap
  base : Nat
  rm : XRnd
  sat : Bool
deriving DecidableEq, Repr

/-- An accepted `MGIDX` (13 R315). -/
structure Gather where
  id : Nat
  cap : Cap
  words : List Nat
  rows : List (Nat × List Byte)
deriving DecidableEq, Repr

/-- The matrix unit (13 R299). The microprogram store, device state, stands with the package. -/
structure Mxu where
  acc : Vector Acc 4
  live : Vector Bool 4
  typ : Vector Bool 4
  gCount : Nat
  gFmt : Option (BitVec 5)
  gRows : List (Nat × List Byte)
  q : List Routine
  drains : List Drain
  gathers : List Gather
  chain : Bool
  chainNo : Nat
  chainEnd : Nat
  chainFlags : List (Nat × BitVec 7)
  chainAccs : List (BitVec 2)
  oldChains : List (Nat × List (BitVec 2))
  nextSet : Bool
  nextId : Nat
deriving DecidableEq, Repr

/-- An open or held range (05 R115, 15 R367): tile words of one handle, and the link that its transfer moves on (17 R401). -/
structure Range where
  tile : BitVec 12
  word : Nat
  count : Nat
  link : Nat
deriving DecidableEq, Repr

/-- A reply in the completion queue (14 R353). -/
structure Reply where
  value : W64
  op : BitVec 6
  fcode : BitVec 16
  rnum : W32
deriving DecidableEq, Repr

/-- Input counts of a core (07 R162). -/
structure InCounts where
  ingest : Vector W32 16
  atom : Vector W32 16
  waita : W32
deriving DecidableEq, Repr

/-- What the C slot of a core's next bundle waits for (08 R193, 11 R260, R261). -/
inductive Wait where
  | none
  | waitb (fb : BitVec 5) (ph : Bool)
  | waita (line : Nat) (since : Nat) (until_ : Nat) (out : Option Bool)
deriving DecidableEq, Repr

/-- The `SB.WAIT` of a core's next bundle (14 R354): its access, the awaited GEN, whether a read has returned it. -/
structure SbWait where
  acc : Nat
  gen : Bool
  out : Bool
deriving DecidableEq, Repr

/-- Everything a core holds. (`seg`, `ent`): the program counter, the entry to issue next (11 R247); `due`: its frame cycle in a
timed chain, its core cycle in a slack chain; `xfer`: a taken transfer's target and the cycle it is due (R248); `jump`: the entry
that `BREAK` or a `LOOPR` of count 0 makes the next in sequence (R248, R252); `sel`: the cycle at which SELPOS issued (09 R210); `far`: the far
access of the last bundle that has not returned (R270); `issued`: segment and entry of the last bundle issued in the phase; `offTimed`: the core
signed off in its timed chain; `codeBad`: lines of its dictionary and segment memories with an uncorrectable error, by their place in the object (09 R204),
`codeHit` those that an expansion has read so. -/
structure Core where
  id : CoreId
  c : Vector W64 16
  p : W16
  a : Vector W64 32
  v0 : VFile
  v1 : VFile
  mp : Vector W64 8
  xp : Vector W64 16
  mxu : Mxu
  aflags : W64
  fb : Vector W64 32
  ports : Vector Port 12
  loops : List Level
  rote : Option (BitVec 7)
  rotc : W32
  seg : Nat
  ent : Nat
  due : Nat
  last : Nat
  xfer : Option (Nat × Nat)
  rotAt : Option W32
  sel : Option Nat
  cur : Half
  idle : List Half
  cmds : Nat
  openR : List Range
  heldR : List Range
  inCnt : InCounts
  cq : List Reply
  rnum : W32
  streams : Vector (List Nat) 16
  pend : List Pend
  watches : List (Nat × Nat)
  run : Run
  bit : Option Bool
  wait : Wait
  far : Option Nat
  sbw : Option SbWait
  issued : Nat × Nat
  offTimed : Bool
  hold : Bool
  skipC : Bool
  jump : Option Nat
  codeBad : List Nat
  codeHit : List Nat
deriving DecidableEq, Repr

/-- A timed access's claim on a bank port (03 R60, R61): core cycle, logical bank, write or read, the word. `frame` marks accesses of F-slot
transfers, whose cycles a hold moves (05 R116). -/
structure Charge where
  cyc : Nat
  bank : Nat
  wr : Bool
  tile : Nat
  word : Nat
  rank : Nat
  iss : Nat
  frame : Bool
deriving DecidableEq, Repr

/-- An accepted, unfinished `LX` (14 R345-R347). -/
structure LxOp where
  id : Nat
  rank : Nat
  iss : Nat
  src : Cap
  dst : Cap
  sBase : Nat
  dBase : Nat
  n : Nat
  ext : List Nat
  dmw : W64
  rm : XRnd
  sat : Bool
  k : Nat
  ns : Nat
  nsE : Nat
  nd : Nat
  buf : Memory
deriving DecidableEq, Repr

/-- A cluster as its gang sees it: tile table, reservation, bank-port claims, LXE, translation cache (02 R34, 03 R59). `freed` keeps the tiles of entries
that `TFREE` has cleared, with the cycle, for accesses issued until then (02 R45). -/
structure Cluster where
  k : Nat
  phys : Nat
  tiles : List (Nat × Tile)
  freed : List (Nat × Tile)
  born : Nat
  crows : Nat
  nrows : Vector Nat 4
  charges : List Charge
  lxs : List LxOp
  tlb : List (Nat × Nat)
deriving DecidableEq, Repr

/-- A phase descriptor (08 R180). -/
structure Desc where
  budget : W32
  ylen : W32
  segtab : W16
  succ1 : BitVec 10
  succ0 : BitVec 10
  pidx : BitVec 4
  comb : Bool
  mode : BitVec 2
  yieldP : Bool
  sealOk : Bool
  preemptOk : Bool
deriving DecidableEq, Repr

/-- A segment as loaded (09 R205): its offset in the object, header fields, code words. -/
structure Segment where
  off : Nat
  nent : Nat
  selPos : Nat
  next0 : Nat
  next1 : Nat
  words : List W16
deriving DecidableEq, Repr

/-- A `.tile` declaration (09 R202). -/
structure TileDecl where
  h : BitVec 12
  ent : TileEnt
deriving DecidableEq, Repr

/-- An entry of the entry list (09 R202). -/
structure EntryPt where
  first : BitVec 8
  argb : Nat
deriving DecidableEq, Repr

/-- A sealed code object as loaded (09 R201, R202), its code-table index, and the offset of each dictionary. -/
structure CodeObj where
  idx : Nat
  priv : Bool
  fwCore : Bool
  gmin : Nat
  gmax : Nat
  lw : Nat
  lh : Nat
  entries : List EntryPt
  t0 : List Desc
  t1 : List Desc
  rst : List (Nat × Nat)
  dicts : List (List W384)
  dictOffs : List Nat
  rmap : List Nat
  segs : List Segment
  rings : List (Vector W16 8)
  tiles : List TileDecl
  scheds : List Byte
deriving DecidableEq, Repr

/-- An F-slot transfer, relay or check issued in the phase (15 R362-R366). `start` is S, or T of a receive; `buf` holds the vectors sampled
or received by number; `bad` those that failed their CRC, with their failed retries; `iss`, `seg`, `ent` name its bundle. -/
inductive FKind where
  | send (links : List (BitVec 4))
  | recv (link : BitVec 4)
  | relay (inp out : BitVec 4)
  | lchk (link : BitVec 4)
deriving DecidableEq, Repr

structure FXfer where
  id : Nat
  rank : Nat
  kind : FKind
  start : Nat
  n : Nat
  word : Nat
  cap : Option Cap
  buf : List (Nat × List Byte)
  bad : List (Nat × Nat)
  matched : Bool
  done : Bool
  iss : Nat
  seg : Nat
  ent : Nat
deriving DecidableEq, Repr

/-- An entry of a copy schedule with its argument slots resolved (14 R338, R339). `rm` is none where RM is reserved (04 R88). -/
structure SchedEnt where
  stage : Nat
  ring : W64
  hA : W64
  hB : W64
  stream : BitVec 4
  fb : Option (BitVec 5)
  rm : Option XRnd
  sat : Bool
  dig : Bool
  dmw : Bool
  op : BitVec 6
  offA : W64
  endB : W64
  gsx : W32
  gsy : W32
  gsz : W32
  box : Vector W64 5
deriving DecidableEq, Repr

/-- A schedule of a group (14 R339): image, stage counter, cursor. -/
structure Sched where
  rank : Nat
  ents : List SchedEnt
  ctr : Nat
  nxt : Nat
deriving DecidableEq, Repr

/-- Where a gang stands (08 R188-R190, 16 R386-R390, 17 R397, R398). -/
inductive GangRun where
  | fresh               -- placed, not begun
  | start (at_ : Nat)   -- SFC 0 of the next phase falls at this core cycle
  | phase               -- a phase is running
  | boundary            -- stopped between phases
  | waiting             -- resident, not executing
  | stopped             -- group stop (17 R397)
  | faulted             -- its context has faulted (17 R398)
  | evicted
  | ended
  | fw                  -- a firmware core: no phases (18 R421)
deriving DecidableEq, Repr

/-- Requests latched or pending at a gang (08 R189, 16 R387). -/
structure Requests where
  sealReq : Bool
  soft : Bool
  hard : Bool
  evict : Bool
  freq : Bool
  svc : Bool
deriving DecidableEq, Repr

/-- A group and the gang that runs it. `binds` gives each logical die channel, by its logical dies d < t as (4 d + t)·4 + c, the physical channel that
carries it (15 R359). `drain` counts the frame cycles in which transfers issued before a stop still move (17 R396). -/
structure Gang where
  gid : Nat
  launch : Nat
  ctx : BitVec 16
  queue : BitVec 6
  code : CodeObj
  g : Nat
  gidx : BitVec 48
  dispNum : W32
  args : List Byte
  argva : W64
  run : GangRun
  now : Nat
  sfc : W32
  wd : Nat
  elastic : Bool
  launchElastic : Bool
  active : Bool
  desc : BitVec 8
  t0 : List Desc
  t1 : List Desc
  next : Option (Bool × BitVec 8)
  roff : Nat
  seald : W32
  sealLeft : Option Nat
  restartable : Bool
  giveWay : Bool
  haltReq : Bool
  drops : Nat
  drain : Nat
  req : Requests
  latched : Requests
  yieldAt : Bool
  cmdsOut : List Nat
  ctlsOut : List Nat
  xfers : List FXfer
  nextXfer : Nat
  occ : List (Nat × Nat × Nat × Nat)
  binds : List (Nat × Nat)
  scheds : List (Nat × Sched)
  saveArea : Nat
  saved : Bool
  kind : Nat
  sealed : Bool
  lastRun : Nat
  nextId : Nat
  fw : Option (BitVec 3)
deriving DecidableEq, Repr

/-- A gang that is not in focus, with its cores and clusters. -/
structure GangBox where
  gang : Gang
  core : Core
  cores : List Core
  clu : Cluster
  clus : List Cluster
deriving DecidableEq, Repr

end Sys2Proof.Machine
end

