-- ==== Sys2Proof/Machine/SysState.lean ====
section
/-! DEFINITION. What the package holds outside its cores: global memory and its events (06, 07), Sconces, contexts and code
(02, 09 R200), dispatcher (16), seals and rollback (07), host port, ports and firmware registers (18): types only. -/

namespace Sys2Proof.Machine

/-- A global access (06 R123) from its issue until it is complete: stream, the accesses before it (R126), the write events that its reads have
returned, each with its access (`seen`), the scope, mask and flag barrier of a fence (R131, 11 R262). `rmw`: its reads and its write are one
event (R124), so that what it read precedes what it writes. `done` is false while a fence waits and while an `EGRESS` has not moved its bytes.
`lost`: a fence that waited for a package that was declared lost (R136). `vc` is its vector clock (R129), empty until its first write event is applied (log 88). -/
structure Access where
  id : Nat
  who : Who
  die : Nat
  stream : BitVec 4
  preds : List Nat
  seen : List (Nat × Nat)
  rmw : Bool
  fence : Option Scope
  mask : BitVec 16
  fb : Option (BitVec 5)
  done : Bool
  lost : Bool
  ri : W32
  vc : List Nat
  ctx : BitVec 16
deriving DecidableEq, Repr

/-- Where the bytes of a write event come from: given, or line `line` of a command's destination. -/
inductive WSrc where
  | bytes (l : List Host.Cell)
  | line (cmd : Nat) (line : Nat)
deriving DecidableEq, Repr

/-- A write event (06 R123-R127), with the address of its line and whether the line is logged (07 R149). Once applied it stands
in coherence order with the dies it is delivered to. A home from 8 on is another package (`farHome`), which takes the event away. -/
structure WEv where
  id : Nat
  acc : Nat
  src : WSrc
  line : Nat
  logged : Bool
  home : Nat
  delivered : List Nat
deriving DecidableEq, Repr

/-- An event on its way to another package (15 R374): the access that it belongs to, its source core and stream, the package, the plane it was dealt to
and its sequence number. -/
structure Packet where
  ev : Nat
  acc : Nat
  who : Who
  stream : BitVec 4
  pkg : Nat
  plane : Nat
  seq : Nat
deriving DecidableEq, Repr

/-- Where the value of a read event goes. -/
inductive RDst where
  | reg (who : CoreId) (d : BitVec 5)
  | cmd (id : Nat)
  | host (id : Nat)
deriving DecidableEq, Repr

/-- A read event that has not performed, or has performed and not yet returned (`val`). -/
structure REv where
  id : Nat
  acc : Nat
  addr : Nat
  n : Nat
  dst : RDst
  val : Option (List Byte)
deriving DecidableEq, Repr

/-- A global end (14 R328, R331): region, offset, captured frame records, format. `virt` is BASEVA; `far` is where the memory of the region's home package
stands, 0 for this one (15 R373). -/
structure GEnd where
  far : Nat
  handle : W64
  virt : Nat
  len : Nat
  off : Nat
  recs : List W64
  fmt : BitVec 5
  blen : Nat
  split : Bool
deriving DecidableEq, Repr

/-- An end of a box (14 R330). -/
inductive End where
  | glob (g : GEnd)
  | tile (c : Cap) (off : Nat)
deriving DecidableEq, Repr

/-- A completion ring captured at acceptance (14 R333, R335). -/
structure Ring where
  end_ : GEnd
  log2n : Nat
deriving DecidableEq, Repr

/-- How far a command is (14 R324, R326, R335). -/
inductive CmdSt where
  | run | record | done
deriving DecidableEq, Repr

/-- A fault record (17 R401), field by field. -/
structure FaultRec where
  addr : W64
  aux : W32
  ri : W32
  sfc : W32
  seq : W32
  dispNum : W32
  gidx : BitVec 48
  segment : W32
  entry : BitVec 11
  fwc : Bool
  desc : BitVec 8
  table : Bool
  resumable : Bool
  slots : BitVec 8
  rank : BitVec 8
  pkg : BitVec 7
  core : BitVec 8
  ctx : BitVec 16
  cause : BitVec 8
  disp : BitVec 4
  source : BitVec 4
  cls : BitVec 16
  tstamp : W64
deriving DecidableEq, Repr

/-- A block transfer, `INGEST` or `EGRESS` accepted and incomplete (14 R324-R337, R355, R356). `str` holds S1 to S4. `data` holds
the source bytes read, by physical address or, of a tile, by place in it, `words` the tile words read so far and `bad` the lines or 8-byte units
that were read with an uncorrectable error; `toWrite` the destination tile words not yet written; `recs` the accesses of its completion record;
`frec` the record that a fault of the command would make, but for class, cause and object; `names` the regions that its handles name, whether or not they
passed their check (02 R40). -/
structure Cmd where
  id : Nat
  acc : Nat
  who : CoreId
  clu : Nat
  ctx : BitVec 16
  op : BitVec 6
  stream : BitVec 4
  fb : Option (BitVec 5)
  ring : Option Ring
  ri : W32
  src : End
  dst : End
  ext : List Nat
  str : List Int
  dmw : Option W64
  rm : XRnd
  sat : Bool
  dig : Bool
  data : Memory
  words : List Nat
  bad : List Nat
  toWrite : List Nat
  bytes : Nat
  flags : BitVec 7
  status : Nat
  fcode : Nat
  faddr : Nat
  frec : FaultRec
  inSeq : W32
  st : CmdSt
  recs : List Nat
  names : List Nat
deriving DecidableEq, Repr

/-- A Sconce operation issued and not executed (06 R137, 14 R350-R354). `loc` is the byte address of its variable or word, `idx` the region that
its handle names (02 R40), `ready` the cycle in which it became executable (18 R424). -/
structure SOp where
  id : Nat
  acc : Nat
  who : CoreId
  gid : Nat
  op : BitVec 6
  loc : Nat
  idx : Option Nat
  home : Nat
  v : W64
  n : W64
  np : Bool
  fb : Option (BitVec 5)
  rnum : W32
  inSeq : W32
  shared : Bool
  ri : W32
  ready : Option Nat
deriving DecidableEq, Repr

/-- A reply on its way (06 R138, 14 R353). -/
structure Rep where
  id : Nat
  acc : Nat
  who : CoreId
  gid : Nat
  idx : Option Nat
  home : Nat
  stream : BitVec 4
  fb : Option (BitVec 5)
  write : Bool
  reply : Reply
  fault : Option FaultRec
deriving DecidableEq, Repr

/-- An undo entry (07 R152): bits [991:0] and CHK. `bad` says that OLD is held with its poison syndrome (R149), `lost`, that the entry itself met
an uncorrectable error. -/
structure Undo where
  body : BitVec 992
  chk : W32
  bad : Bool
  lost : Bool
deriving DecidableEq, Repr

/-- Global memory, the Sconces' SRAM and every event on its way. `tags` lists the RI tags of lines (07 R149); a line not listed has
a tag that no interval in reach equals (R150). `swept`: the interval of a listed line's last visit by the sweep. `owned`: shared-window
lines that the hub Sconce owns (06 R140), whose values stand at `shadow`. `packets`: events on their way to other packages, `deal` and `farSeq`: how many
each die has dealt and how many there were; `farDraw` numbers the turns, each of which may find other bytes in another package. -/
structure MemSys where
  bytes : Memory
  poison : List Nat
  accs : List Access
  wq : List WEv
  wlog : List WEv
  rq : List REv
  cmds : List Cmd
  ops : List SOp
  reps : List Rep
  clk : Vector (Vector (BitVec 24) 5) 5
  tags : List (Nat × Byte)
  swept : List (Nat × W32)
  undo : Vector (List Undo) 13
  syncBit : List Nat
  owned : List Nat
  nextId : Nat
  hubLast : List Nat
  lostPorts : List Nat
  packets : List Packet
  deal : Vector Nat 5
  farSeq : Nat
  farDraw : Nat
deriving DecidableEq, Repr

/-- A context (02, 03 R71, 18 R417). `pkgs`: the packages that it runs on (15 R372). Sync ranges: first and last index on each die (02 R46). Of its egress and input-log areas: the bytes in use, and the
pages that are out of use (17 R408). `todo`: posted descriptors that wait for room in the egress area, in order: peer, access, place in the ring (06 R145). -/
structure Ctx where
  id : BitVec 16
  root : Nat
  rbase : Nat
  rtlim : Nat
  mbox : Nat
  mboxLen : Nat
  egress : Nat
  inlog : Nat
  inlogLen : Nat
  pool : Nat
  poolLen : Nat
  sync : Vector (Nat × Nat) 5
  faulted : Bool
  torn : Bool
  inlogUsed : Nat
  inlogLost : Nat
  egressUsed : Nat
  egressLost : Nat
  pkgs : List Nat
  todo : List (BitVec 16 × Nat × Nat)
deriving DecidableEq, Repr

/-- A code-table entry (09 R200). -/
structure CodeEnt where
  index : Nat
  gen : W16
  owner : BitVec 16
  live : Bool
  obj : CodeObj
deriving DecidableEq, Repr

/-- A launch record or packet in a FIFO or in the intake (16 R377-R379): its 64 bytes, the issuing core of a packet, the write
accesses it waits for (11 R259), the graph node it comes from. -/
structure LRec where
  bytes : List Byte
  queue : BitVec 6
  ctx : BitVec 16
  from_ : Option CoreId
  preds : List Nat
  node : Option (Nat × Nat)
deriving DecidableEq, Repr

/-- A command queue (16 R376, R385). -/
structure Queue where
  v : Bool
  rank : BitVec 3
  notify : Bool
  log2n : BitVec 8
  ctx : BitVec 16
  ringOff : W32
  fifo : List LRec
  effRank : Nat
  passed : Nat
deriving DecidableEq, Repr

/-- A launch accepted and not ended (16 R379-R384). `gids`: its groups placed so far. -/
structure Launch where
  id : Nat
  queue : BitVec 6
  ctx : BitVec 16
  tag : W32
  code : CodeObj
  mode : Bool
  g : Nat
  x : Nat
  y : Nat
  z : Nat
  ord : BitVec 2
  swz : BitVec 4
  entry : Nat
  roff : Nat
  seald : W32
  rst : Bool
  bar : Bool
  waitEn : Bool
  waitVar : Nat
  waitVal : W32
  waitOk : Bool
  gids : List Nat
  doneEn : Bool
  doneVar : Nat
  argva : W64
  args : List Byte
  crows : Nat
  nrows : Vector Nat 4
  scheds : List (Nat × Sched)
  nextDisp : Nat
  ended : Nat
  cut : Bool
  preds : List Nat
  node : Option (Nat × Nat)
deriving DecidableEq, Repr

/-- A graph replay in progress (16 R391, R392): captured records and successors, nodes released and ended, the accesses of
ended nodes; `node`: the node of another replay that it stands for. -/
structure Graph where
  id : Nat
  queue : BitVec 6
  ctx : BitVec 16
  tag : W32
  doneEn : Bool
  doneVar : Nat
  node : Option (Nat × Nat)
  nodes : List (List Byte × List Nat)
  released : List Nat
  ended : List Nat
  preds : List (Nat × List Nat)
deriving DecidableEq, Repr

/-- A cluster set (16 R384, R385). `exec`: the group that executes or has been picked; `hold`: no group begins until a frequency change or the
begin of full service has taken place (08 R189). -/
structure CluSet where
  clusters : List Nat
  exec : Option Nat
  sliceStart : Nat
  groups : List Nat
  hold : Bool
deriving DecidableEq, Repr

/-- The dispatcher. -/
structure Disp where
  queues : Vector Queue 64
  intake : List LRec
  launches : List Launch
  graphs : List Graph
  sets : List CluSet
  saves : List (Nat × BitVec 16 × Nat × Nat)
  evicted : List Nat
  nextId : Nat
  nextGid : Nat
deriving DecidableEq, Repr

/-- A frame or effect that leaves the device (18 R413, R415, R417, R420; 07 R160). -/
inductive Out where
  | frame (opc : Byte) (status : W16) (seq : W32) (ctx : BitVec 16) (tag : W64) (data : List Byte)
  | egress (addr : Nat) (bytes : List Byte)
  | writeBack (line : Nat) (bytes : List Byte)
  | scaleOut (peer : Nat) (seq : W32) (data : List Byte)
deriving DecidableEq, Repr

/-- A held effect with its interval and the access that orders it (07 R160, 06 R143). -/
structure Held where
  ri : W32
  acc : Nat
  eff : Out
deriving DecidableEq, Repr

/-- A logged input (07 R162). `at_` of an `INGEST` read says since when its line has been watched (11 R261). -/
inductive InRec where
  | hostWrite (seq : W32) (ctx : BitVec 16) (tag : W64) (off : Nat) (data : List Byte) (ben : List Bool)
  | hostRead (seq : W32) (ctx : BitVec 16) (tag : W64) (off len : Nat)
  | command (op : Byte) (f : CmdFrame)
  | receive (peer : Nat) (seq : W32) (data : List Byte)
  | ingest (gidx : BitVec 48) (rank : Nat) (stream : BitVec 4) (n : W32) (line : Nat) (bytes : List Byte) (at_ : Nat)
  | atomic (gidx : BitVec 48) (rank : Nat) (stream : BitVec 4) (n : W32) (old : BitVec 256)
  | waita (gidx : BitVec 48) (rank : Nat) (n : W32) (b : Bool)
deriving DecidableEq, Repr

/-- A logged input with its interval and context. -/
structure InLog where
  ri : W32
  ctx : BitVec 16
  in_ : InRec
deriving DecidableEq, Repr

/-- Where a seal stands (07 R155). -/
inductive SealSt where
  | none
  | requested
  | barrier
  | closed
deriving DecidableEq, Repr

/-- A peer connection (18 R420): its rings and sync variables, sequence numbers, frames not acknowledged, payloads landed and the last landing's
access. -/
structure Peer where
  id : BitVec 16
  port : BitVec 3
  addr : BitVec 48
  send : W64
  recv : W64
  doorbell : Nat
  producer : Nat
  ctx : BitVec 16
  nextTx : W32
  unacked : List (W32 × List Byte)
  nextRx : W32
  posted : Nat
  lastRx : List Nat
  lost : Bool
deriving DecidableEq, Repr

/-- A snapshot slot with what the save areas and the dispatcher's logged memory held at a seal (03 R68, 07 R165, 16 R394). `accs`, `wq` and `ops` are
the hub's accesses that were issued before the seal and belong to the interval after it (06 R129). -/
structure Snap where
  boxes : List GangBox
  disp : Disp
  ctxs : List Ctx
  peers : List Peer
  accs : List Access
  wq : List WEv
  ops : List SOp
deriving DecidableEq, Repr

/-- The recovery domain (07). `atSeal`: no gang has begun a phase since the last seal completed (03 R73). `pkgs`: its packages, `lostPkgs` those declared
lost (06 R136). -/
structure Domain where
  sealed : Bool
  ri : W32
  st : SealSt
  atSeal : Bool
  again : Bool
  slotB : Bool
  snapA : Option Snap
  snapB : Option Snap
  held : List Held
  inlog : List InLog
  replay : List InLog
  pkgs : List Nat
  lostPkgs : List Nat
  planes : List Nat
deriving DecidableEq, Repr

/-- A READ whose read events have not all performed (06 R123, R141): its access, the frame it answers, the physical pieces it reads. -/
structure HostRead where
  acc : Nat
  seq : W32
  ctx : BitVec 16
  tag : W64
  pieces : List (Nat × Nat)
  data : Memory
deriving DecidableEq, Repr

/-- Lantern (18 R412-R415): next expected SEQ, requests logged and not yet performed, READs in progress, frames sent. -/
structure HostIf where
  seq : W32
  pendq : List InLog
  reads : List HostRead
  sent : List Out
deriving DecidableEq, Repr

/-- A lane of a PHY (18 R425). -/
structure Lane where
  phys : BitVec 5
  wdly : BitVec 7
  rdly : BitVec 7
deriving DecidableEq, Repr

/-- A pattern test in progress (18 R425, 21 R446): the pattern, the physical lanes of the map and the write and read delays of the lanes that were in force
when it started. -/
structure PatTest where
  ctl : Nat
  pch : Nat
  patctl : W64
  map : List Nat
  delays : List (BitVec 7 × BitVec 7)
deriving DecidableEq, Repr

/-- What a die's firmware core asks of the lease word with the operation in flight (18 R424). -/
inductive LeaseOp where
  | load | renew | takeOver
deriving DecidableEq, Repr

/-- The registers of a die's firmware core (18 R422-R425), with TIME at the last write of FWTIMER and the pattern tests that have ended, each with the physical lanes that
saw an error. Of the lease (R424): whether it holds the lease, the word as
it knows it, TIME when that last changed, and its operation in flight. -/
structure FwDie where
  evt : W64
  timer : W64
  time : W64
  clkctl : W64
  stgt : W64
  sv : W64
  sn : W64
  reply : W64
  stat : W64
  rnum : W32
  physel : W64
  lanes : List ((Nat × Nat × Nat) × Lane)
  maps : List ((Nat × Nat × Nat) × BitVec 5)
  fails : List (Nat × Nat × Nat)
  patctl : W64
  patres : W64
  test : Option PatTest
  tests : List (PatTest × BitVec 18)
  timerAt : W64
  leads : Bool
  word : W64
  seenAt : W64
  lease : Option LeaseOp
deriving DecidableEq, Repr

/-- What is out of service (17 R408, 15 R370, 03 R72): package clusters, torus links by package cluster and direction, physical die channels by pair of
dies and channel, page frames. -/
structure Retired where
  clusters : List Nat
  links : List (Nat × Nat)
  chans : List (Nat × Nat)
  frames : List Nat
deriving DecidableEq, Repr

/-- The configuration record (18 R434). -/
structure CfgRec where
  pkg : BitVec 7
  sealedMode : Bool
  sealPeriod : Nat
  hostReadLimit : Nat
  barrierLimit : Nat
  undoGib : Nat
  slice : Nat
  sharedGib : Nat
  hostAddr : BitVec 48
  steps : BitVec 4
  powerLimit : Nat
  tierGib : Nat
deriving DecidableEq, Repr

/-- Clock, power and service (18 R427-R435). `step` none is the bring-up clock. -/
structure ClkSt where
  step : Option (BitVec 2)
  pending : Option (BitVec 2)
  full : Bool
  svcReq : Bool
  power : List Nat
  underMs : Nat
  off : Bool
deriving DecidableEq, Repr

/-- A fault to be recorded (17 R395, R402): class, cause, faulting slot bits, address, auxiliary word. -/
structure TrapInfo where
  cls : Nat
  cause : Nat
  slots : Nat
  addr : Nat
  aux : Nat
deriving DecidableEq, Repr

/-- A trap taken: by which core, what. -/
structure TrapRec where
  who : CoreId
  info : TrapInfo
deriving DecidableEq, Repr

/-- Pending work of the leading firmware core (18 R417): applied at the slack boundary its rule names. -/
inductive Job where
  | invalidate (ctx : BitVec 16) (va len : Nat) (wait : List Nat)
  | region (ctx : BitVec 16) (idx : Nat) (image : List Byte)
  | table (gid : Nat) (t1 : Bool) (descs : List Desc)
  | routine (idx : Nat) (ops : List W64) (left : List Nat)
  | resume (gid : Nat) (trapped : List Nat)
  | destroy (answer : Bool)
deriving DecidableEq, Repr

structure JobRec where
  id : Nat
  seq : W32
  ctx : BitVec 16
  tag : W64
  job : Job
deriving DecidableEq, Repr

/-- The package. `faultCount`: the records that each die's log has received; `poked`: bytes of the reservations that a firmware core has stored over
what the device keeps there (17 R403, 18 R421). `svnMin`: the monotonic counter of the board security controller (18 R432; log 106). `corrected` counts corrected errors of pages, `bankReads` the reads of scratchpad banks, `codeReads` those of code lines by address and cluster (17 R408). `postponed`: stacks whose controller holds a postponed refresh batch, `refresh`: those whose batch is under way (03 R66). -/
structure Pkg where
  ctxs : List Ctx
  codes : List CodeEnt
  jobs : List JobRec
  faults : Vector (List FaultRec) 5
  faultSeq : W32
  faultCount : Vector Nat 5
  poked : List Nat
  latent : List Nat
  corrected : List (Nat × Nat)
  bankReads : List (Nat × Nat)
  codeReads : List ((Nat × Nat) × Nat)
  retired : Retired
  postponed : List Nat
  refresh : List Nat
  snoop : List Nat
  recalls : List (Nat × Nat)
  peers : List Peer
  cfg : CfgRec
  flash : Option (List Byte)
  cfgOk : Bool
  booted : Bool
  boots : Nat
  svnMin : W32
  clk : ClkSt
  inService : List Nat
  uc : List (Nat × W64)
  cycle : Nat
deriving DecidableEq, Repr

end Sys2Proof.Machine
end

