-- ==== Sys2Proof/Machine/State.lean ====
section
/-! DEFINITION. The machine's state, its reset value, and the names of the faults and refusals a step can end in.
`core`, `clu` and `gang` are the core that is issuing, its cluster and its gang (the focus); the gang's other cores and
clusters and the other gangs stand in `cores`, `clus` and `gangs`. -/

namespace Sys2Proof.Machine

/-- Why a step has no next state. -/
inductive Fault where
  /-- Raised by `step` after a thermal cut-off (18 R435): the package has no power. Safe. -/
  | powerOff
  /-- Raised by `step` when the boot was refused (18 R432): the device runs nothing. Safe. -/
  | notBooted
deriving DecidableEq, Repr

/-- Why an instruction has no meaning. -/
inductive Refusal where
  /-- Raised by `exec` for an instruction without a meaning yet. Safe. -/
  | notModelled (mnemonic : String)
deriving DecidableEq, Repr

/-- Events that follow from what the machine has done, and wait their turn; and what Chothes decides on: a region that it makes for itself (02 R33, R51), a
routine that it names to a firmware core (21 R445), a firmware core's turn at the lease (18 R424); and what comes in from outside: an Ethernet frame at the
host's port or at a scale-out port (18 R412, R420), a write of another package of the domain (15 R374). -/
inductive Auto where
  | dataUe (site : UeSite)
  | linkFailure (id : Nat)
  | launchEnd (launch : Nat)
  | rollback (place : List (Nat × List Nat))
  | faultAll (site : UeSite)
  | region (ctx : BitVec 16) (idx : Nat) (image : List Byte)
  | routine (die : Nat) (image : List Byte) (entry : Nat)
  | lease (die : Nat)
  | frame (bytes : List Byte)
  | portFrame (port : Nat) (bytes : List Byte)
  | farWrite (pkg : Nat) (line : Nat) (cells : List Host.Cell)
deriving DecidableEq, Repr

/-- Which agent moves next (log 6): an event of the variable side, an event that another has brought about, a core cycle of a gang or of
a firmware core. -/
inductive Turn where
  | event (i : Instr)
  | auto (a : Auto)
  | gang (gid : Nat)
deriving DecidableEq, Repr

/-- The whole machine. -/
structure State where
  core : Core
  clu : Cluster
  gang : Gang
  cores : List Core
  clus : List Cluster
  gangs : List GangBox
  mem : MemSys
  dom : Domain
  disp : Disp
  host : HostIf
  fw : Vector FwDie 5
  pkg : Pkg
  traps : List TrapRec
  agenda : List Turn
  draw : Nat
deriving DecidableEq, Repr

/-- Registers of a vector file at group start (10 R233): lanes +0, masks 0 but mask 0, which reads all ones. -/
def VFile.reset : VFile :=
  { r := Vector.replicate 32 (Lanes.splat 0), m := Vector.replicate 8 0, b := Vector.replicate 8 0,
    e := Vector.replicate 4 (Lanes.splat 0) }

/-- A matrix unit at group start (13 R299). -/
def Mxu.reset : Mxu :=
  { acc := Vector.replicate 4 (Vector.replicate 128 (Vector.replicate 128 0)), live := Vector.replicate 4 false,
    typ := Vector.replicate 4 false, gCount := 0, gFmt := none, gRows := [], q := [], drains := [], gathers := [],
    chain := false, chainNo := 0, chainEnd := 0, chainFlags := [], chainAccs := [], oldChains := [], nextSet := false, nextId := 0 }

/-- A port at group start (10 R239). -/
def Port.reset : Port :=
  { stage := Vector.replicate 5 0, active := Vector.replicate 5 0, armed := false, pos := 0, cap := none, armIss := 0,
    arm := 0, buf := [] }

/-- A loop-buffer half that holds nothing. -/
def Half.empty : Half :=
  { seg := 0, entries := [], gEnd := 0, selPos := 0, next0 := 0, next1 := 0, endSel := none, done := 0 }

/-- A core at group start (10 R233, R239, R242, R244; 05 R117: PH 0, CNT 0, EXP 1; 07 R162). -/
def Core.reset (id : CoreId) : Core :=
  { id := id, c := Vector.replicate 16 0, p := 1, a := Vector.replicate 32 0, v0 := VFile.reset, v1 := VFile.reset,
    mp := Vector.replicate 8 0, xp := Vector.replicate 16 0, mxu := Mxu.reset, aflags := 0,
    fb := Vector.replicate 32 1, ports := Vector.replicate 12 Port.reset, loops := [], rote := none, rotc := 0,
    seg := 0, ent := 0, due := 0, last := 0, xfer := none, rotAt := none, sel := none, cur := Half.empty, idle := [],
    cmds := 0, openR := [], heldR := [],
    inCnt := { ingest := Vector.replicate 16 0, atom := Vector.replicate 16 0, waita := 0 },
    cq := [], rnum := 0, streams := Vector.replicate 16 [], pend := [], watches := [], run := .idle, bit := none,
    wait := .none, far := none, sbw := none, issued := (0, 0), offTimed := false, hold := false, skipC := false, jump := none,
    codeBad := [], codeHit := [] }

/-- Logical cluster `k` of a gang on package cluster `phys`, with no tile. -/
def Cluster.reset (k phys crows : Nat) (nrows : Vector Nat 4) : Cluster :=
  { k := k, phys := phys, tiles := [], freed := [], born := 0, crows := crows, nrows := nrows, charges := [], lxs := [], tlb := [] }

/-- The object a firmware core runs (18 R421), before any routine is loaded. -/
def CodeObj.fw : CodeObj :=
  { idx := 0, priv := true, fwCore := true, gmin := 1, gmax := 1, lw := 1, lh := 1, entries := [], t0 := [], t1 := [], rst := [],
    dicts := [], dictOffs := [], rmap := [], segs := [], rings := [], tiles := [], scheds := [] }

/-- No request latched. -/
def Requests.none : Requests := { sealReq := false, soft := false, hard := false, evict := false, freq := false, svc := false }

/-- The firmware core of die `d`, taken as a gang of one core without phases (18 R421). Its number is `d`; groups are numbered
from 5 on. -/
def Gang.fwReset (d : BitVec 3) : Gang :=
  { gid := d.toNat, launch := 0, ctx := 0, queue := 0, code := CodeObj.fw, g := 0, gidx := 0, dispNum := 0, args := [],
    argva := 0, run := .fw, now := 0, sfc := 0, wd := 0, elastic := false, launchElastic := false, active := false,
    desc := 0, t0 := [], t1 := [], next := none, roff := 0, seald := 0, sealLeft := none, restartable := false,
    giveWay := false, haltReq := false, drops := 0, drain := 0, req := Requests.none, latched := Requests.none, yieldAt := false, cmdsOut := [], ctlsOut := [],
    xfers := [], nextXfer := 0, occ := [], binds := [], scheds := [], saveArea := 0, saved := false, kind := 0, sealed := false, lastRun := 0,
    nextId := 0, fw := some d }

/-- The firmware core of die `d` as a gang. -/
def GangBox.fwReset (d : BitVec 3) : GangBox :=
  { gang := Gang.fwReset d, core := Core.reset (.fw d.toNat), cores := [],
    clu := Cluster.reset 0 0 0 (Vector.replicate 4 0), clus := [] }

/-- Memory after cold reset: nothing listed; RI tags 0 (log 3), sync variables 0 (log 2). -/
def MemSys.reset : MemSys :=
  { bytes := [], poison := [], accs := [], wq := [], wlog := [], rq := [], cmds := [], ops := [], reps := [],
    clk := Vector.replicate 5 (Vector.replicate 5 0), tags := [], swept := [], undo := Vector.replicate 13 [],
    syncBit := [], owned := [], nextId := 1, hubLast := [], lostPorts := [], packets := [], deal := Vector.replicate 5 0,
    farSeq := 0, farDraw := 0 }

/-- A queue at cold reset (16 R376): RINGOFF 0xFFFF_FFFF, the other fields 0. -/
def Queue.reset : Queue :=
  { v := false, rank := 0, notify := false, log2n := 0, ctx := 0, ringOff := 0xFFFFFFFF, fifo := [], effRank := 0,
    passed := 0 }

def Disp.reset : Disp :=
  { queues := Vector.replicate 64 Queue.reset, intake := [], launches := [], graphs := [], sets := [],
    saves := [], evicted := [], nextId := 1, nextGid := 5 }

/-- The recovery domain as formed (07 R148): interval 1, no seal, this package alone, all eight planes. -/
def Domain.reset : Domain :=
  { sealed := true, ri := 1, st := .none, atSeal := false, again := false, slotB := false, snapA := none, snapB := none, held := [],
    inlog := [], replay := [], pkgs := [0], lostPkgs := [], planes := [0, 1, 2, 3, 4, 5, 6, 7] }

/-- The firmware registers of a die at reset (18 R422-R425). -/
def FwDie.reset : FwDie :=
  { evt := 0, timer := 0, time := 0, clkctl := 0x40000, stgt := 0, sv := 0, sn := 0, reply := 0, stat := 0, rnum := 0,
    physel := 0, lanes := [], maps := [], fails := [], patctl := 0, patres := 0, test := none, tests := [], timerAt := 0, leads := false, word := 0, seenAt := 0, lease := none }

/-- The configuration record's defaults (07 R154, 18 R434); package identifier 0 and host address 0 where it gives none
(DESIGN CHOICE, log 4). -/
def CfgRec.default : CfgRec :=
  { pkg := 0, sealedMode := true, sealPeriod := 20, hostReadLimit := 1000, barrierLimit := 100, undoGib := 2,
    slice := 300000, sharedGib := 0, hostAddr := 0, steps := 15, powerLimit := 2600, tierGib := 0 }

/-- The package at cold reset: bring-up clock, reduced service, no stack in service yet (18 R427). -/
def Pkg.reset : Pkg :=
  { ctxs := [], codes := [], jobs := [], faults := Vector.replicate 5 [], faultSeq := 0, faultCount := Vector.replicate 5 0, poked := [], latent := [],
    corrected := [], bankReads := [], codeReads := [], retired := { clusters := [], links := [], chans := [], frames := [] }, postponed := [], refresh := [], snoop := [],
    recalls := [], peers := [], cfg := CfgRec.default, flash := none, cfgOk := false, booted := true, boots := 0, svnMin := 0,
    clk := { step := none, pending := none, full := false, svcReq := false, power := [], underMs := 0, off := false },
    inService := [], uc := [], cycle := 0 }

/-- The machine right after cold reset: the hub's firmware core in focus with no routine to run (18 R427), the other
firmware cores not started, no context, no group, memory with nothing listed. -/
def State.reset : State :=
  let b := GangBox.fwReset 4
  { core := b.core, clu := b.clu, gang := b.gang, cores := [], clus := [],
    gangs := [GangBox.fwReset 0, GangBox.fwReset 1, GangBox.fwReset 2, GangBox.fwReset 3],
    mem := MemSys.reset, dom := Domain.reset, disp := Disp.reset, host := { seq := 0, pendq := [], reads := [], sent := [] },
    fw := Vector.replicate 5 FwDie.reset, pkg := Pkg.reset, traps := [], agenda := [], draw := 0 }

end Sys2Proof.Machine
end

