-- ==== Sys2Proof/Machine/Ops.lean ====
section
/-! DEFINITION. The named operations over registers and over the issuing core: reading registers, queueing timed writes in the
order of 10 R234, moving the focus between cores, taking a trap (17 R396-R403, 18 R421) and returning from one (R400). -/

namespace Sys2Proof.Machine

/-- The outcome of a meaning. -/
abbrev Res := Host.Outcome State Fault Refusal

/-- Element `i` of a list, or `d`. -/
def nth {α : Type} (l : List α) (i : Nat) (d : α) : α := (l[i]?).getD d

/-- Replaces the first entry that satisfies `q`. -/
def replaceFirst {α : Type} (q : α → Bool) (x : α) : List α → List α
  | [] => []
  | y :: l => if q y then x :: l else y :: replaceFirst q x l

/-- Updates every entry that satisfies `q`. -/
def updateAll {α : Type} (q : α → Bool) (f : α → α) (l : List α) : List α := l.map fun x => if q x then f x else x

/-- Register `i` of a file that holds every number of its field. -/
def rget {α : Type} {n k : Nat} (v : Vector α n) (i : BitVec k) (h : 2 ^ k ≤ n := by decide) : α :=
  v[i.toNat]'(Nat.lt_of_lt_of_le i.isLt h)

/-- The file with register `i` replaced. -/
def rset {α : Type} {n k : Nat} (v : Vector α n) (i : BitVec k) (x : α) (h : 2 ^ k ≤ n := by decide) : Vector α n :=
  v.set i.toNat x (Nat.lt_of_lt_of_le i.isLt h)

/-! ### Registers as a bundle samples them at issue (10 R233) -/

def State.getC (s : State) (i : BitVec 4) : W64 := rget s.core.c i
def State.getA (s : State) (i : BitVec 5) : W64 := rget s.core.a i
def State.getMp (s : State) (i : BitVec 3) : W64 := rget s.core.mp i
def State.getXp (s : State) (i : BitVec 4) : W64 := rget s.core.xp i
/-- Parameter register number `n` of a run (14 R323); a run never passes `xp15`. -/
def State.xpAt (s : State) (n : Nat) : W64 := s.getXp (BitVec.ofNat 4 n)
def State.getFb (s : State) (i : BitVec 5) : W64 := rget s.core.fb i
/-- `p0` always reads 1 (10 R233). -/
def State.getP (s : State) (i : BitVec 4) : Bool := i == 0 || s.core.p.getLsbD i.toNat
def State.getPRef (s : State) (r : PRef) : Bool := xor (s.getP r.p) r.neg
def Core.vf (c : Core) (u : VU) : VFile := match u with | .v0 => c.v0 | .v1 => c.v1
def State.getV (s : State) (u : VU) (i : BitVec 5) : Lanes := rget (s.core.vf u).r i
/-- `vm0` and `wm0` read as all ones (09 R218). -/
def State.getM (s : State) (u : VU) (i : BitVec 3) : W64 :=
  if i == 0 then BitVec.allOnes 64 else rget (s.core.vf u).m i
def State.getB (s : State) (u : VU) (i : BitVec 3) : W32 := rget (s.core.vf u).b i
def State.getE (s : State) (u : VU) (i : BitVec 2) : Lanes := rget (s.core.vf u).e i
def State.getPort (s : State) (i : Nat) : Port := if h : i < 12 then s.core.ports[i] else Port.reset

/-- A guard: bits [3:0] name a predicate, bit 4 negates (09 R213). -/
def State.guardTrue (s : State) (g : BitVec 5) : Bool := xor (s.getP (g.setWidth 4)) (g.getLsbD 4)

/-! ### Register writes as they perform -/

def Core.setVf (c : Core) (u : VU) (f : VFile) : Core :=
  match u with | .v0 => { c with v0 := f } | .v1 => { c with v1 := f }
/-- A write to `p0` has no effect (10 R233). -/
def Core.setP (c : Core) (i : BitVec 4) (b : Bool) : Core :=
  let bit : W16 := BitVec.ofNat 16 (2 ^ i.toNat)
  if i == 0 then c else { c with p := if b then c.p ||| bit else c.p &&& ~~~bit }
/-- The lanes of `x` that the mask `m` enables, over those of `old` (12 R275). -/
def blend (old x : Lanes) (m : W64) : Lanes := Lanes.build fun j => if m.getLsbD j then x.lane j else old.lane j
def Core.setV (c : Core) (u : VU) (i : BitVec 5) (x : Lanes) (m : W64) : Core :=
  let f := c.vf u
  c.setVf u { f with r := rset f.r i (blend (rget f.r i) x m) }
def Core.setM (c : Core) (u : VU) (i : BitVec 3) (x m : W64) : Core :=
  let f := c.vf u
  if i == 0 then c
  else c.setVf u { f with m := rset f.m i ((x &&& m) ||| ((rget f.m i) &&& ~~~m)) }
def Core.setB (c : Core) (u : VU) (i : BitVec 3) (x : W32) : Core :=
  let f := c.vf u
  c.setVf u { f with b := rset f.b i x }
def Core.setE (c : Core) (u : VU) (i : BitVec 2) (x : Lanes) (m : W64) : Core :=
  let f := c.vf u
  c.setVf u { f with e := rset f.e i (blend (rget f.e i) x m) }
def Core.setC (c : Core) (i : BitVec 4) (x : W64) : Core := { c with c := rset c.c i x }
def Core.setA (c : Core) (i : BitVec 5) (x : W64) : Core := { c with a := rset c.a i x }
def Core.setMp (c : Core) (i : BitVec 3) (x : W64) : Core := { c with mp := rset c.mp i x }
def Core.setXp (c : Core) (i : BitVec 4) (x : W64) : Core := { c with xp := rset c.xp i x }
def Core.setFb (c : Core) (i : BitVec 5) (x : W64) : Core := { c with fb := rset c.fb i x }
def Core.setPort (c : Core) (i : Nat) (p : Port) : Core :=
  if h : i < 12 then { c with ports := c.ports.set i p h } else c
def State.setCore (s : State) (c : Core) : State := { s with core := c }
def State.setClu (s : State) (c : Cluster) : State := { s with clu := c }
def State.setGang (s : State) (g : Gang) : State := { s with gang := g }

/-! ### Timed writes (05 R106, R109; 10 R234) -/

/-- `q` takes effect before `p` if both write one register in one cycle: an earlier issue, or a copy of the same bundle. Of two copies of one bundle the one of
the last slot takes effect, which 05 R109 does not say (log 99). -/
def Pend.before (q p : Pend) : Bool := q.iss < p.iss || (q.iss == p.iss && (!q.own || p.own))

/-- Inserts an action so that the one that must win stands last. -/
def insertPend (p : Pend) : List Pend → List Pend
  | [] => [p]
  | q :: l => if q.before p then q :: insertPend p l else p :: q :: l

/-- Queues action `a` for the cycle `dt` after now, made by the slot that owns what it writes, or by a copy. -/
def State.later (s : State) (dt : Nat) (own : Bool) (a : Act) : State :=
  { s with core := { s.core with
      pend := insertPend { time := s.gang.now + dt, iss := s.gang.now, own := own, act := a } s.core.pend } }

/-- Queues several actions of the owning slot. -/
def State.laterAll (s : State) (l : List (Nat × Act)) : State := l.foldl (fun s x => s.later x.1 true x.2) s

/-! ### The focus -/

/-- The rank of a core; a firmware core has rank 0. -/
def rankOf : CoreId → Nat
  | .rank _ r => r
  | .fw _ => 0
def State.rank (s : State) : Nat := rankOf s.core.id
/-- Cluster-local rank (03 R53). -/
def State.localRank (s : State) : Nat := s.rank % 4

def insertCore (c : Core) : List Core → List Core
  | [] => [c]
  | d :: l => if rankOf c.id < rankOf d.id then c :: d :: l else d :: insertCore c l
def insertClu (c : Cluster) : List Cluster → List Cluster
  | [] => [c]
  | d :: l => if c.k < d.k then c :: d :: l else d :: insertClu c l
def insertBox (b : GangBox) : List GangBox → List GangBox
  | [] => [b]
  | d :: l => if b.gang.gid < d.gang.gid then b :: d :: l else d :: insertBox b l

/-- Makes cluster `k` of the gang the one in focus. -/
def State.focusClu (s : State) (k : Nat) : State :=
  if s.clu.k = k then s
  else match s.clus.find? (·.k == k) with
    | none => s
    | some c => { s with clu := c, clus := insertClu s.clu (s.clus.filter (·.k != k)) }

/-- Makes the core of rank `r` the one in focus, with its cluster. -/
def State.focus (s : State) (r : Nat) : State :=
  if s.rank = r then s
  else match s.cores.find? (fun c => rankOf c.id == r) with
    | none => s
    | some c =>
      State.focusClu { s with core := c, cores := insertCore s.core (s.cores.filter (fun c => rankOf c.id != r)) } (r / 4)

def State.box (s : State) : GangBox := { gang := s.gang, core := s.core, cores := s.cores, clu := s.clu, clus := s.clus }
def State.setBox (s : State) (b : GangBox) : State :=
  { s with gang := b.gang, core := b.core, cores := b.cores, clu := b.clu, clus := b.clus }

/-- Makes gang `g` the one in focus. -/
def State.focusGang (s : State) (g : Nat) : State :=
  if s.gang.gid = g then s
  else match s.gangs.find? (·.gang.gid == g) with
    | none => s
    | some b => { s with gangs := insertBox s.box (s.gangs.filter (·.gang.gid != g)) }.setBox b

/-- Whether gang `g` exists. -/
def State.hasGang (s : State) (g : Nat) : Bool := s.gang.gid == g || s.gangs.any (·.gang.gid == g)

/-- Makes a core, of a group or of firmware, the one in focus. -/
def State.focusId (s : State) (who : CoreId) : State :=
  if s.core.id = who then s
  else match who with
    | .rank g r => (s.focusGang g).focus r
    | .fw d => s.focusGang d

/-- The gang of a core. -/
def gangOf : CoreId → Nat
  | .rank g _ => g
  | .fw d => d

/-- Runs `f` with each rank of the gang in focus in turn, ascending (03 R53), and returns to the first focus. -/
def State.forRanks (s : State) (f : State → State) : State :=
  let l := (s.core :: s.cores).map (fun c => rankOf c.id)
  let sorted := (List.range (4 * s.gang.g + 1)).filter (l.contains ·)
  (sorted.foldl (fun s r => f (s.focus r)) s).focus s.rank

/-- Every core of the gang in focus. -/
def State.allCores (s : State) : List Core := s.core :: s.cores
def State.allClus (s : State) : List Cluster := s.clu :: s.clus
def State.allBoxes (s : State) : List GangBox := s.box :: s.gangs

/-- Updates every gang, the one in focus included. -/
def State.mapGangs (s : State) (f : Gang → Gang) : State :=
  { s with gang := f s.gang, gangs := s.gangs.map fun b => { b with gang := f b.gang } }

/-! ### Where the issuing core is -/

/-- The die of the core in focus: of its physical cluster (01 R15), or the firmware core's. -/
def State.die (s : State) : Nat :=
  match s.gang.fw with
  | some d => d.toNat
  | none => s.clu.phys / 16
/-- Package core number (01 R15); a firmware core's die identifier (17 R401). Which core of a cluster holds a cluster-local rank is Bureau's choice (01 R23, 03
R53); here core q holds rank q (log 97). -/
def State.pkgCore (s : State) : Nat :=
  match s.gang.fw with
  | some d => d.toNat
  | none => 4 * s.clu.phys + s.localRank
def State.isFw (s : State) : Bool := s.gang.fw.isSome
/-- The bundle stands in a LOCKSTEP timed chain (08 R191, R193), one that signs off included. -/
def State.lockstep (s : State) : Bool := (s.core.run == .timed || (s.core.run == .signed && s.core.offTimed)) && !s.gang.elastic
def State.inSlack (s : State) : Bool := s.core.run == .slack
def State.ctxOf (s : State) (c : BitVec 16) : Option Ctx := s.pkg.ctxs.find? (·.id == c)
def State.setCtx (s : State) (c : Ctx) : State :=
  { s with pkg := { s.pkg with ctxs := updateAll (fun d => d.id == c.id) (fun _ => c) s.pkg.ctxs } }

/-- A free choice: opaque, and a new one each time (log 7). -/
def State.choose (s : State) : Bool × State := (Config.freeBool s.draw, { s with draw := s.draw + 1 })

/-! ### Consequences -/

/-- An event that follows from what has happened takes its turn after those that already stand first, before any other. -/
def insertAuto (a : Auto) : List Turn → List Turn
  | .auto b :: l => .auto b :: insertAuto a l
  | l => .auto a :: l
def State.soon (s : State) (a : Auto) : State := { s with agenda := insertAuto a s.agenda }

/-- An error that takes its turn, where there is one. -/
def State.meet (s : State) (u : Option UeSite) : State :=
  { s with agenda := match u with | some x => insertAuto (.dataUe x) s.agenda | none => s.agenda }

/-! ### Effects that leave the package (07 R160, R161, R169) -/

/-- Sends an effect at once. -/
def State.sendOut (s : State) (o : Out) : State := { s with host := { s.host with sent := s.host.sent ++ [o] } }
/-- Holds an effect until the seal of its interval, or sends it at once in an UNSEALED domain. -/
def State.emit (s : State) (acc : Nat) (o : Out) : State :=
  if s.dom.sealed then
    { s with dom := { s.dom with held := s.dom.held ++ [{ ri := s.dom.ri, acc := acc, eff := o }] } }
  else s.sendOut o

/-! ### Fault records (17 R401-R403) -/

/-- The 64 bytes of a record. -/
def FaultRec.bytes (r : FaultRec) : List Byte :=
  toBytes 64 (r.tstamp.toNat + r.cls.toNat * 2 ^ 96 + r.source.toNat * 2 ^ 112 + r.disp.toNat * 2 ^ 116
    + r.cause.toNat * 2 ^ 120 + r.ctx.toNat * 2 ^ 128 + r.core.toNat * 2 ^ 144 + r.pkg.toNat * 2 ^ 152
    + r.rank.toNat * 2 ^ 160 + r.slots.toNat * 2 ^ 168 + r.resumable.toNat * 2 ^ 182 + r.table.toNat * 2 ^ 183
    + r.desc.toNat * 2 ^ 184 + r.fwc.toNat * 2 ^ 196 + r.entry.toNat * 2 ^ 197 + r.segment.toNat * 2 ^ 208
    + r.gidx.toNat * 2 ^ 240 + r.dispNum.toNat * 2 ^ 288 + r.seq.toNat * 2 ^ 320 + r.sfc.toNat * 2 ^ 352
    + r.ri.toNat * 2 ^ 384 + r.aux.toNat * 2 ^ 416 + r.addr.toNat * 2 ^ 448)

def tier2Base : Nat := 2 ^ 44
def State.tierBytes (s : State) : Nat := s.pkg.cfg.tierGib * 2 ^ 30
/-- First byte of an undo log (03 R67, R70); entry k since the last seal stands at 128 k from it (log 54). -/
def State.undoBase (s : State) (k : Nat) : Nat :=
  if k < 12 then k * 2 ^ 36 + (2 ^ 36 - s.pkg.cfg.undoGib * 2 ^ 30) else tier2Base + (s.tierBytes - s.tierBytes / 32)
/-- First byte of a stack's seal area (R67), and of the hub's (R70). -/
def State.sealArea (s : State) (k : Nat) : Nat :=
  if k < 12 then s.undoBase k - 2 ^ 28 else s.undoBase 12 - s.tierBytes / 64 - 2 ^ 28
/-- First byte and size of the records of die `d`. Without a second tier the hub's share the space of stack 0 in halves with die 0's; in reduced
service those of dies 1 to 3 stand there too, in equal parts. -/
def State.recordsOf (s : State) (d : Nat) : Nat × Nat :=
  let tier := s.pkg.cfg.tierGib ≠ 0
  let space := fun (k : Nat) => s.sealArea k + 2 ^ 27 + 2 ^ 21
  let size := 126 * 2 ^ 20
  if d = 4 ∧ tier then (s.sealArea 12 + 2 ^ 27, 2 ^ 27)
  else if s.pkg.clk.full then
    if d = 4 then (space 0 + size / 2, size / 2) else (space (3 * d), if d = 0 ∧ ¬tier then size / 2 else size)
  else
    let n := size / (if tier then 4 else 5) / 64 * 64
    (space 0 + d * n, n)
/-- Appends a record to the log of die `d`, a ring of 4,096 (R403). -/
def State.logFault (s : State) (d : Nat) (r : FaultRec) : State :=
  if h : d < 5 then
    let l := s.pkg.faults[d] ++ [r]
    let n := s.pkg.faultCount[d]
    let at_ := (s.recordsOf d).1 + 64 * (n % 4096)
    { s with pkg := { s.pkg with faults := s.pkg.faults.set d (l.drop (l.length - 4096)), faultSeq := s.pkg.faultSeq + 1, faultCount := s.pkg.faultCount.set d (n + 1),
                                 poked := s.pkg.poked.filter fun a => decide (a < at_) || decide (at_ + 64 ≤ a) } }
  else s

/-- The notification of a record (R403, 18 R415): at once with SOURCE ≠ 0 or for a `CODE_UE`, otherwise a held effect. -/
def State.notifyFault (s : State) (r : FaultRec) : State :=
  let o := Out.frame 0x82 0 0 r.ctx 0 r.bytes
  if r.source != 0 || r.cls == 13 || r.fwc then s.sendOut o else s.emit 0 o

/-- The record of a program fault of the core in focus (R401). -/
def State.faultRec (s : State) (t : TrapInfo) (disp : Nat) : FaultRec :=
  let fw := s.isFw
  { addr := BitVec.ofNat 64 t.addr, aux := BitVec.ofNat 32 t.aux, ri := s.dom.ri, sfc := s.gang.sfc, seq := s.pkg.faultSeq,
    dispNum := if fw then 0 else s.gang.dispNum, gidx := if fw then 0 else s.gang.gidx,
    segment := BitVec.ofNat 32 s.core.seg, entry := BitVec.ofNat 11 s.core.ent, fwc := fw,
    desc := if fw then 0 else s.gang.desc, table := !fw && s.gang.active,
    resumable := disp == 0 && s.gang.xfers.all (·.done), slots := BitVec.ofNat 8 t.slots,
    rank := if fw then 0 else BitVec.ofNat 8 s.rank, pkg := s.pkg.cfg.pkg, core := BitVec.ofNat 8 s.pkgCore,
    ctx := if fw then 0 else s.gang.ctx, cause := BitVec.ofNat 8 t.cause, disp := BitVec.ofNat 4 disp,
    source := if t.cls = 13 ∧ !fw then 4 else 0, cls := BitVec.ofNat 16 t.cls, tstamp := BitVec.ofNat 64 s.gang.now }

/-- The record of an error without a group (17 R401, R404). -/
def State.errorRec (s : State) (cls source addr disp : Nat) : FaultRec :=
  { addr := BitVec.ofNat 64 addr, aux := 0, ri := s.dom.ri, sfc := 0, seq := s.pkg.faultSeq, dispNum := 0, gidx := 0, segment := 0, entry := 0,
    fwc := false, desc := 0, table := false, resumable := false, slots := 0, rank := 0, pkg := s.pkg.cfg.pkg, core := 0, ctx := 0, cause := 0,
    disp := BitVec.ofNat 4 disp, source := BitVec.ofNat 4 source, cls := BitVec.ofNat 16 cls, tstamp := BitVec.ofNat 64 s.pkg.cycle }

/-- Disposition of a class (R395): 0 group stop, 1 context fault, 3 report. -/
def dispOf (cls : Nat) : Nat := if cls = 17 ∨ cls = 18 then 0 else if cls = 19 then 3 else 1

/-! ### Taking a trap -/

/-- A gang that has begun and not ended. -/
def Gang.alive (g : Gang) : Bool := match g.run with | .ended => false | .fw => false | _ => true

/-- Step 1 of R398 and its queues: every gang of the context stops; the context stays faulted. -/
def State.faultCtx (s : State) (c : BitVec 16) : State :=
  let out := fun (g : Gang) => g.run == .evicted || g.run == .faulted
  let s := s.mapGangs fun g => if g.ctx == c && g.alive then
      { g with run := .faulted, kind := if out g then g.kind else 2, saved := out g && g.saved } else g
  { s with pkg := { s.pkg with ctxs := updateAll (fun x => x.id == c) (fun x => { x with faulted := true }) s.pkg.ctxs } }

/-- Sets a bit of a die's FWEVT (18 R422). -/
def State.fwEvent (s : State) (d b : Nat) : State :=
  if h : d < 5 then { s with fw := s.fw.set d { s.fw[d] with evt := s.fw[d].evt ||| BitVec.ofNat 64 (2 ^ b) } } else s

/-- One core's trap, its bundle having had no effect (10 R240). The record is logged and notified. A firmware core ends its
routine (18 R421); TRAP and BREAK stop the group (17 R397); every other class faults the context (R398). The stopped core
keeps the program counter of the bundle at the stop cycle as its next to issue. -/
def State.takeTrap (s : State) (t : TrapRec) : State :=
  let s := s.focusId t.who
  if s.isFw then
    let r := s.faultRec t.info 3
    let s := (s.logFault s.die r).fwEvent s.die 1
    (s.setCore { s.core with run := .idle }).sendOut (Out.frame 0x82 0 0 0 0 r.bytes)
  else
    let d := dispOf t.info.cls
    let r := s.faultRec t.info d
    let s := (s.logFault s.die r).notifyFault r
    let s := s.fwEvent s.die 1
    if d = 0 then s.setGang { s.gang with run := .stopped, kind := 2 }
    else s.faultCtx s.gang.ctx

/-- The traps of one cycle, each with its record (17 R396). -/
def State.takeTraps (s : State) (l : List TrapRec) : State :=
  let s1 := l.foldl State.takeTrap s
  { s1.focusId s.core.id with traps := s.traps ++ l }

/-- A slot's bit in SLOTS (R401). -/
def slotBit : Slot → Nat
  | .c => 1 | .a => 2 | .v0 => 4 | .v1 => 8 | .m => 16 | .x => 32 | .f => 64

/-- The bundle of the core in focus traps in slot `sl`. -/
def State.trap (s : State) (sl : Slot) (cls cause : Nat) (addr : Nat := 0) (aux : Nat := 0) : State :=
  s.takeTraps [{ who := s.core.id, info := { cls := cls, cause := cause, slots := slotBit sl, addr := addr, aux := aux } }]

/-- A meaning that ends in a trap. -/
def raise (sl : Slot) (cls cause : Nat) (addr : Nat) (aux : Nat) (s : State) : Res := .next (s.trap sl cls cause addr aux)

/-! ### Returning from a group stop (17 R400) -/

/-- The group in focus can run again: every core issues the bundle at the stop cycle, the trapping core's C slot treated as a NOP
once; it takes part in arbitration again, and one restart offset passes before it goes on (16 R390). -/
def State.returnFromStop (s : State) (trapped : List Nat) : State :=
  let mark (c : Core) : Core := { c with skipC := trapped.contains (rankOf c.id) }
  { s with
    gang := { s.gang with run := .waiting }
    core := mark s.core
    cores := s.cores.map mark }

/-- A part that may trap after it has changed the state: a trap is taken on the state before it (10 R240). -/
def atomic (s0 : State) : Res → Res
  | .next s =>
    if s.traps.length ≤ s0.traps.length then .next s
    else .next (s0.takeTraps (s.traps.drop s0.traps.length))
  | r => r

/-- OVERRUN at a variable-wait instruction of a LOCKSTEP timed chain (08 R193). -/
def overrunWait (sl : Slot) (s : State) : Res := raise sl 2 1 0 0 s

/-- The bundle is held for one core cycle and has no effect (08 R191, R194). -/
def State.holdBundle (s : State) : State := s.setCore { s.core with hold := true }

end Sys2Proof.Machine
end

