-- ==== Sys2Proof/Machine/Num.lean ====
section
/-! DEFINITION. Exact numbers and rounding (04 R77, R78, R88-R95, R98, R99): values are exact dyadics, operations are exact, and
`roundTo` rounds once. `Flags.lean` names the flag bits an operation sets. -/

namespace Sys2Proof.Machine

/-- Flag bits of AFLAGS (04 R96). -/
abbrev Fl := BitVec 7
def fNX : Fl := 1
def fUF : Fl := 2
def fOF : Fl := 4
def fDZ : Fl := 8
def fNV : Fl := 16
def fSAT : Fl := 32
def fFMT : Fl := 64

/-- A value: ±m·2^e, with `st` for a value strictly between m and m+1 units; an infinity; a NaN. -/
inductive Val where
  | fin (neg : Bool) (m : Nat) (e : Int) (st : Bool)
  | inf (neg : Bool)
  | nan
deriving DecidableEq, Repr

/-- Rounding modes with an effect on one value (04 R88). -/
inductive RMode where
  | rne | rz | rd | ru | dith
deriving DecidableEq, Repr

def modeOf : Dir → RMode
  | .rne => .rne | .rz => .rz | .rd => .rd | .ru => .ru
def modeOfX : XRnd → RMode
  | .dir d => modeOf d
  | .dither => .dith

/-- A floating-point element format (04 R77, R78): precision with the hidden bit, bias, greatest finite magnitude `maxN`·2^`maxQ`. -/
structure FloatFmt where
  p : Nat
  bias : Nat
  bits : Nat
  maxN : Nat
  maxQ : Int
deriving DecidableEq, Repr

def fp32 : FloatFmt := { p := 24, bias := 127, bits := 32, maxN := 2 ^ 24 - 1, maxQ := 104 }
def bf16 : FloatFmt := { p := 8, bias := 127, bits := 16, maxN := 2 ^ 8 - 1, maxQ := 120 }
def fp16 : FloatFmt := { p := 11, bias := 15, bits := 16, maxN := 2 ^ 11 - 1, maxQ := 5 }
def e4m3 : FloatFmt := { p := 4, bias := 7, bits := 8, maxN := 14, maxQ := 5 }
def e5m2 : FloatFmt := { p := 3, bias := 15, bits := 8, maxN := 7, maxQ := 13 }
def e2m1 : FloatFmt := { p := 2, bias := 1, bits := 4, maxN := 3, maxQ := 1 }

/-- Exponent of the least significant bit of a subnormal. -/
def FloatFmt.qmin (f : FloatFmt) : Int := 2 - (f.bias : Int) - (f.p : Int)

def Val.zero (neg : Bool) : Val := .fin neg 0 0 false
def Val.isNan : Val → Bool | .nan => true | _ => false
def Val.isInf : Val → Bool | .inf _ => true | _ => false
def Val.isFin : Val → Bool | .fin _ _ _ _ => true | _ => false
def Val.isNeg : Val → Bool | .fin n _ _ _ => n | .inf n => n | .nan => false
def Val.isZero : Val → Bool | .fin _ m _ st => m == 0 && !st | _ => false
def Val.neg : Val → Val | .fin n m e st => .fin (!n) m e st | .inf n => .inf (!n) | .nan => .nan
def Val.abs : Val → Val | .fin _ m e st => .fin false m e st | .inf _ => .inf false | .nan => .nan
def Val.ofInt (i : Int) : Val := .fin (decide (i < 0)) i.natAbs 0 false

/-- Twice as large `k` times over (k may be negative): exact. -/
def Val.scale (v : Val) (k : Int) : Val := match v with | .fin n m e st => .fin n m (e + k) st | v => v

/-- The mantissa of an exact value on the exponent `q` ≤ its own, signed. -/
def align (neg : Bool) (m : Nat) (e q : Int) : Int :=
  let x : Int := (m * 2 ^ (e - q).toNat : Nat)
  if neg then -x else x

/-- Sign-exact comparison of finite exact values: the difference's mantissa. -/
def diffFin (n1 : Bool) (m1 : Nat) (e1 : Int) (n2 : Bool) (m2 : Nat) (e2 : Int) : Int :=
  let q := min e1 e2
  align n1 m1 e1 q - align n2 m2 e2 q

/-- x < y for values that are not NaN. -/
def Val.lt (x y : Val) : Bool :=
  match x, y with
  | .nan, _ => false
  | _, .nan => false
  | .inf a, .inf b => a && !b
  | .inf a, _ => a
  | _, .inf b => !b
  | .fin n1 m1 e1 _, .fin n2 m2 e2 _ => decide (diffFin n1 m1 e1 n2 m2 e2 < 0)

/-- x = y for values that are not NaN; the zeros are equal. -/
def Val.eqv (x y : Val) : Bool :=
  match x, y with
  | .nan, _ => false
  | _, .nan => false
  | .inf a, .inf b => a == b
  | .fin n1 m1 e1 _, .fin n2 m2 e2 _ => decide (diffFin n1 m1 e1 n2 m2 e2 = 0)
  | _, _ => false

/-- Floor(Log2(|v|)) of a non-zero finite value (04 R84). -/
def Val.log2 : Val → Int
  | .fin _ m e _ => e + (Nat.log2 m : Int)
  | _ => 0

/-- The exact sum, with the sign of an exact zero that 12 R280 gives: −0 only under RD or when both are −0. NV for ∞ − ∞. -/
def Val.add (x y : Val) (md : RMode) : Val × Fl :=
  match x, y with
  | .nan, _ => (.nan, 0)
  | _, .nan => (.nan, 0)
  | .inf a, .inf b => if a == b then (.inf a, 0) else (.nan, fNV)
  | .inf a, _ => (.inf a, 0)
  | _, .inf b => (.inf b, 0)
  | .fin n1 m1 e1 _, .fin n2 m2 e2 _ =>
    let q := min e1 e2
    let d := align n1 m1 e1 q + align n2 m2 e2 q
    if d = 0 then
      (Val.zero (if m1 = 0 ∧ m2 = 0 ∧ n1 = n2 then n1 else md == .rd), 0)
    else (.fin (decide (d < 0)) d.natAbs q false, 0)

/-- The exact product. NV for 0·∞. -/
def Val.mul (x y : Val) : Val × Fl :=
  match x, y with
  | .nan, _ => (.nan, 0)
  | _, .nan => (.nan, 0)
  | .inf a, .inf b => (.inf (xor a b), 0)
  | .inf a, .fin n m _ _ => if m = 0 then (.nan, fNV) else (.inf (xor a n), 0)
  | .fin n m _ _, .inf b => if m = 0 then (.nan, fNV) else (.inf (xor n b), 0)
  | .fin n1 m1 e1 _, .fin n2 m2 e2 _ => (.fin (xor n1 n2) (m1 * m2) (e1 + e2) false, 0)

/-- Ordered-dither threshold index (04 R90). -/
def ditherIndex (row col : Nat) : Nat :=
  let x := col % 16; let y := row % 16; let z := x ^^^ y
  128 * bits z 0 0 + 64 * bits y 0 0 + 32 * bits z 1 1 + 16 * bits y 1 1
    + 8 * bits z 2 2 + 4 * bits y 2 2 + 2 * bits z 3 3 + bits y 3 3

/-- Whether a magnitude of `n` units and a fraction `rem`/2^k (plus a sticky part) goes up to `n`+1 (04 R89, R90). -/
def goesUp (md : RMode) (row col : Nat) (neg : Bool) (n rem k : Nat) (st : Bool) : Bool :=
  if rem = 0 ∧ st = false then false
  else match md with
    | .rz => false
    | .rd => neg
    | .ru => !neg
    | .rne => decide (2 ^ k < 2 * rem) || (decide (2 * rem = 2 ^ k) && (st || n % 2 == 1))
    | .dith =>
      let t := 2 * ditherIndex row col + 1
      if neg then !decide (t ≤ 512 * (2 ^ k - rem) / 2 ^ k) else decide (t ≤ 512 * rem / 2 ^ k)

/-- ±m·2^e rounded to a multiple of 2^q: the count of units, and whether it is inexact. -/
def roundAt (md : RMode) (row col : Nat) (neg : Bool) (m : Nat) (e : Int) (st : Bool) (q : Int) : Nat × Bool :=
  if q ≤ e then
    let n := m * 2 ^ (e - q).toNat
    (if goesUp md row col neg n 0 1 st then n + 1 else n, st)
  else
    let k : Nat := (q - e).toNat
    let n := m / 2 ^ k
    let rem := m % 2 ^ k
    (if goesUp md row col neg n rem k st then n + 1 else n, rem != 0 || st)

/-- The unit RoundTo uses for a value of leading exponent `l`: `p` bits of precision, not below the subnormals' (04 R89). -/
def unitOf (f : FloatFmt) (l : Int) : Int := max (l - (f.p : Int) + 1) f.qmin

/-- The magnitude n·2^q is beyond the greatest finite one. -/
def FloatFmt.over (f : FloatFmt) (n : Nat) (q : Int) : Bool := decide (0 < diffFin false n q false f.maxN f.maxQ)

/-- Sign and the n·2^q magnitude (in the format's range) as the format's bits. -/
def FloatFmt.pack (f : FloatFmt) (neg : Bool) (n : Nat) (q : Int) : Nat :=
  let s := if neg then 2 ^ (f.bits - 1) else 0
  if n = 0 then s
  else
    let up : Nat := if n = 2 ^ f.p then 1 else 0
    let n := n / 2 ^ up
    let q := q + (up : Int)
    if n < 2 ^ (f.p - 1) then s + n
    else s + (q + (f.p : Int) - 1 + (f.bias : Int)).toNat * 2 ^ (f.p - 1) + (n - 2 ^ (f.p - 1))

/-- Canonical NaN and infinity codes (04 R78). -/
def FloatFmt.nanCode (f : FloatFmt) : Nat := if f.bits = 32 then 0x7FC00000 else if f = bf16 then 0x7FC0 else
  if f = fp16 then 0x7E00 else if f = e4m3 then 0x7F else 0x7E
def FloatFmt.infCode (f : FloatFmt) (neg : Bool) : Nat :=
  (if neg then 2 ^ (f.bits - 1) else 0) + (2 ^ (f.bits - f.p) - 1) * 2 ^ (f.p - 1)
def FloatFmt.maxCode (f : FloatFmt) (neg : Bool) : Nat := f.pack neg f.maxN f.maxQ

/-- What a finite value that overflows becomes (04 R93). -/
def FloatFmt.overflow (f : FloatFmt) (md : RMode) (sat neg : Bool) : Nat :=
  if f = e4m3 then (if sat then f.maxCode neg else f.nanCode)
  else if f = e5m2 ∧ sat then f.maxCode neg
  else match md with
    | .rz => f.maxCode neg
    | .rd => if neg then f.infCode neg else f.maxCode neg
    | .ru => if neg then f.maxCode neg else f.infCode neg
    | _ => f.infCode neg

/-- RoundTo(v, F, mode, coord) of 04 R89 into a bounded format, with overflow, infinities and NaNs under R93 and R94. -/
def roundTo (f : FloatFmt) (md : RMode) (row col : Nat) (sat : Bool) (v : Val) : Nat × Fl :=
  match v with
  | .nan => (f.nanCode, 0)
  | .inf neg =>
    if f = e4m3 then (if sat then f.maxCode neg else f.nanCode, fNV)
    else if f = e5m2 ∧ sat then (f.maxCode neg, 0)
    else (f.infCode neg, 0)
  | .fin neg m e st =>
    if m = 0 ∧ st = false then (f.pack neg 0 0, 0)
    else
      let l := e + (Nat.log2 m : Int)
      let md := if md == .dith && decide (0 < diffFin false m e false f.maxN f.maxQ) then RMode.rne else md
      let q := unitOf f l
      let (n, nx) := roundAt md row col neg m e st q
      if f.over n q then (f.overflow md sat neg, fOF ||| fNX)
      else
        let q' := l - (f.p : Int) + 1
        let (n', _) := roundAt md row col neg m e st q'
        let tiny := decide (diffFin false n' q' false 1 (1 - (f.bias : Int)) < 0)
        (f.pack neg n q, if nx then (if tiny then fUF ||| fNX else fNX) else 0)

/-- RoundTo(v, integers, mode, coord): the integer and whether it is inexact. NaN and infinities are handled by the caller. -/
def roundInt (md : RMode) (row col : Nat) (v : Val) : Int × Bool :=
  match v with
  | .fin neg m e st =>
    let (n, nx) := roundAt md row col neg m e st 0
    (if neg then -(n : Int) else n, nx)
  | _ => (0, false)

/-- The exact value of a code of the format (04 R77, R78). -/
def FloatFmt.decode (f : FloatFmt) (w : Nat) : Val :=
  let neg := w / 2 ^ (f.bits - 1) % 2 == 1
  let ex := w / 2 ^ (f.p - 1) % 2 ^ (f.bits - f.p)
  let man := w % 2 ^ (f.p - 1)
  let ones := 2 ^ (f.bits - f.p) - 1
  let norm := Val.fin neg (2 ^ (f.p - 1) + man) ((ex : Int) - (f.bias : Int) - (f.p : Int) + 1) false
  if ex = 0 then .fin neg man f.qmin false
  else if ex = ones ∧ f = e4m3 then (if man = 7 then .nan else norm)
  else if ex = ones ∧ f ≠ e2m1 then (if man = 0 then .inf neg else .nan)
  else norm

/-- The FP32 value of a lane. -/
def valOf (w : W32) : Val := fp32.decode w.toNat
/-- A value rounded once to an FP32 lane. -/
def toF32 (md : RMode) (v : Val) : W32 × Fl := let (w, f) := roundTo fp32 md 0 0 false v; (BitVec.ofNat 32 w, f)
def nan32 : W32 := 0x7FC00000

/-! ### Transcendentals (04 R99): enough bits and a sticky part, rounded once -/

/-- Floor of the square root, one bit at a time: `k` bits from bit `k`-1 down. -/
def isqrtGo (n : Nat) : Nat → Nat → Nat
  | 0, r => r
  | k + 1, r => let t := r + 2 ^ k; isqrtGo n k (if t * t ≤ n then t else r)
def isqrt (n : Nat) : Nat := isqrtGo n (Nat.log2 n / 2 + 1) 0

/-- 1/v for a non-zero finite value. -/
def recip (neg : Bool) (m : Nat) (e : Int) : Val :=
  let k := Nat.log2 m + 64
  .fin neg (2 ^ k / m) (-e - (k : Int)) (2 ^ k % m != 0)

/-- sqrt(m·2^e) for m > 0. -/
def sqrtVal (m : Nat) (e : Int) : Val :=
  let j : Nat := if e % 2 = 0 then 128 else 129
  let n := m * 2 ^ j
  let r := isqrt n
  .fin false r ((e - (j : Int)) / 2) (r * r != n)

/-- 1/sqrt(m·2^e) for m > 0. -/
def rsqrtVal (m : Nat) (e : Int) : Val :=
  let j : Nat := if e % 2 = 0 then 2 * Nat.log2 m + 128 else 2 * Nat.log2 m + 129
  let n := 2 ^ j / m
  let r := isqrt n
  .fin false r ((-e - (j : Int)) / 2) (r * r * m != 2 ^ j)

/-- Working precision of the series below, in bits after the point (UNVERIFIED that no FP32 operand needs more; log 10). -/
def prec : Nat := 256

/-- Sum of z^(2k+1)/(2k+1) from term `k` on, `t` being z^(2k+1) and `z2` z² in units of 2^-prec. -/
def atanhGo (z2 : Nat) : Nat → Nat → Nat → Nat
  | 0, _, _ => 0
  | fuel + 1, k, t => t / (2 * k + 1) + atanhGo z2 fuel (k + 1) (t * z2 / 2 ^ prec)
/-- ln(a/b) for 1 ≤ a/b ≤ 2, in units of 2^-prec. -/
def lnRatio (a b : Nat) : Nat :=
  let z := (a - b) * 2 ^ prec / (a + b)
  2 * atanhGo (z * z / 2 ^ prec) 90 0 z
def ln2 : Nat := lnRatio 2 1
/-- Sum of r^k/k! from term `k` on, `t` being r^k/k!, in units of 2^-prec. -/
def expGo (r : Nat) : Nat → Nat → Nat → Nat
  | 0, _, _ => 0
  | fuel + 1, k, t => t + expGo r fuel (k + 1) (t * r / 2 ^ prec / (k + 1))
/-- e^r for 0 ≤ r < 1, in units of 2^-prec. -/
def expFrac (r : Nat) : Nat := expGo r 70 0 (2 ^ prec)

/-- 2^v for a finite value. -/
def exp2Val (neg : Bool) (m : Nat) (e : Int) : Val :=
  if m = 0 then .fin false 1 0 false
  else if 9 ≤ e + (Nat.log2 m : Int) then (if neg then .fin false 1 (-1000) true else .fin false 1 1000 true)
  else
    let x : Int := align neg m e (min e 0)
    let k := (-(min e 0)).toNat
    let n := x / (2 ^ k : Nat)
    let f := (x % (2 ^ k : Nat)).toNat
    if f = 0 then .fin false 1 n false
    else
      let r := f * ln2 / 2 ^ k
      .fin false (expFrac r) (n - (prec : Int)) true

/-- log2(m·2^e) for m > 0. -/
def log2Val (m : Nat) (e : Int) : Val :=
  let l := Nat.log2 m
  let n : Int := e + (l : Int)
  if m = 2 ^ l then Val.ofInt n
  else
    let f := lnRatio m (2 ^ l) * 2 ^ prec / ln2
    let x : Int := n * (2 ^ prec : Nat) + (f : Int)
    .fin (decide (x < 0)) x.natAbs (-(prec : Int)) true

/-- tanh of a finite non-zero value: below 2^-30 the value is just under its operand, beyond 32 just under 1. -/
def tanhVal (neg : Bool) (m : Nat) (e : Int) : Val :=
  let l := e + (Nat.log2 m : Int)
  if l < -30 then .fin neg (m * 2 ^ 64 - 1) (e - 64) true
  else if 5 ≤ l then .fin neg (2 ^ 64 - 1) (-64) true
  else
    let y := if e + 1 + (prec : Int) < 0 then 0 else m * 2 ^ (e + 1 + (prec : Int)).toNat
    let n := y / ln2
    let ex := expFrac (y % ln2) * 2 ^ n
    .fin neg ((ex - 2 ^ prec) * 2 ^ prec / (ex + 2 ^ prec)) (-(prec : Int)) true

end Sys2Proof.Machine
end

