-- ==== Sys2Proof/Machine/Formats.lean ====
section
/-! DEFINITION. Element and block formats (04 R76-R87): decoding an element to its exact value and to a lane, encoding lanes,
exact values and blocks. -/

namespace Sys2Proof.Machine

/-- Stored bits per element value (03 R54). Codes 16 to 31 are reserved; no tile has one (02 R43). -/
def elemBits (fmt : BitVec 5) : Nat :=
  match fmt.toNat with
  | 0 | 8 | 9 => 32
  | 1 | 2 | 7 => 16
  | 12 | 13 | 15 => 4
  | 14 => 1
  | _ => 8
/-- Scale bytes per block (03 R54). -/
def scaleBytes (fmt : BitVec 5) : Nat :=
  match fmt.toNat with
  | 10 | 11 | 12 => 1
  | 13 => 2
  | _ => 0
def isBlock (fmt : BitVec 5) : Bool := decide (10 ≤ fmt.toNat) && decide (fmt.toNat ≤ 13)
def isReserved (fmt : BitVec 5) : Bool := decide (16 ≤ fmt.toNat)
/-- Integer formats, BIT included: compute type INT32 (R76). -/
def isInt (fmt : BitVec 5) : Bool :=
  match fmt.toNat with
  | 5 | 6 | 7 | 8 | 9 | 14 | 15 => true
  | _ => false

/-- The floating-point format of an element of codes 0 to 4 and 10 to 12. -/
def floatOf (fmt : BitVec 5) : FloatFmt :=
  match fmt.toNat with
  | 0 => fp32
  | 1 => bf16
  | 2 => fp16
  | 3 | 10 => e4m3
  | 4 | 11 => e5m2
  | _ => e2m1

/-- An exact element value. -/
inductive Elem where
  | f (v : Val)
  | i (x : Int)
deriving DecidableEq, Repr

/-- The integer of an element code (R77). -/
def decodeInt (fmt : BitVec 5) (w : Nat) : Int :=
  match fmt.toNat with
  | 5 => signExt w 8
  | 7 => signExt w 16
  | 8 => signExt w 32
  | 15 => signExt w 4
  | _ => (w : Int)

/-- A codes 10-12 element with its scale byte, exactly (R81). -/
def decodeMX (fmt : BitVec 5) (w s : Nat) : Val :=
  if s = 255 then .nan else ((floatOf fmt).decode w).scale ((s : Int) - 127)

/-- The accepted markers of a Q4X block with their numbers, and whether one is not accepted (R85). -/
def q4xMarks (n : Nat → Nat) : List (Nat × Nat) × Bool :=
  (List.range 32).foldl (fun (acc, bad) i =>
    if n i = 8 then
      if n (i ^^^ 1) = 8 ∨ acc.length = 2 then (acc, true) else (acc ++ [(i, acc.length)], bad)
    else (acc, bad)) ([], false)

/-- Element `i` of a Q4X block, exactly, and the block's FMT flag (R85). -/
def decodeQ4X (n : Nat → Nat) (s o i : Nat) : Val × Fl :=
  if s = 255 then (.nan, 0)
  else
    let (acc, bad) := q4xMarks n
    let fl : Fl := if bad then fFMT else 0
    let k : Int := (s : Int) - 127
    match acc.find? (·.1 == i) with
    | some (_, j) => ((e4m3.decode (16 * bits o (4 * j + 3) (4 * j) + n (i ^^^ 1))).scale k, fl)
    | none =>
      if acc.any (·.1 == i ^^^ 1) || n i == 8 then (Val.zero false, fl)
      else ((Val.ofInt (signExt (n i) 4)).scale k, fl)

/-- The exact value of a simple element. -/
def decodeSimple (fmt : BitVec 5) (w : Nat) : Elem := if isInt fmt then .i (decodeInt fmt w) else .f ((floatOf fmt).decode w)

/-- The lane of an exact element value: its compute type (R76); RNE, exact but for overflow (R81). -/
def laneOf (e : Elem) : W32 × Fl :=
  match e with
  | .f v => toF32 .rne v
  | .i x => (BitVec.ofInt 32 x, 0)

/-- A lane decoded from a simple element; FP32 elements keep every bit (R75). -/
def decodeLane (fmt : BitVec 5) (w : Nat) : W32 × Fl :=
  if fmt = 0 then (BitVec.ofNat 32 w, 0) else laneOf (decodeSimple fmt w)

/-- The bounds of an integer format (R79, 14 R332). -/
def intRange (fmt : BitVec 5) : Int × Int :=
  match fmt.toNat with
  | 5 => (-128, 127)
  | 6 => (0, 255)
  | 7 => (-32768, 32767)
  | 8 => (-2147483648, 2147483647)
  | 9 => (0, 4294967295)
  | _ => (-8, 7)

/-- An integer as the `n`-bit code of a format. -/
def intCode (fmt : BitVec 5) (x : Int) : Nat := (x % (2 ^ elemBits fmt : Nat)).toNat

/-- An INT32 lane into an integer format (R79). -/
def encodeInt (fmt : BitVec 5) (x : W32) : Nat × Fl :=
  match fmt.toNat with
  | 8 | 9 => (x.toNat, 0)
  | 14 => (if x = 0 then 0 else 1, 0)
  | _ =>
    let (lo, hi) := intRange fmt
    let y := max lo (min hi x.toInt)
    (intCode fmt y, if y = x.toInt then 0 else fSAT)

/-- A lane stored into a simple format, taken as the compute type of the format (R75). -/
def encodeLane (fmt : BitVec 5) (md : RMode) (row col : Nat) (sat : Bool) (x : W32) : Nat × Fl :=
  if fmt = 0 then (x.toNat, 0)
  else if isInt fmt then encodeInt fmt x
  else roundTo (floatOf fmt) md row col sat (valOf x)

/-- A floating-point value as an integer of the range: NaN gives 0, outside gives the nearest bound, both with NV (14 R332, 12
R285); the rounding itself sets NX where it is inexact (R89). -/
def floatToInt (md : RMode) (row col : Nat) (lo hi : Int) (v : Val) : Int × Fl :=
  match v with
  | .nan => (0, fNV)
  | .inf neg => (if neg then lo else hi, fNV)
  | v =>
    let (n, nx) := roundInt md row col v
    let fl : Fl := if nx then fNX else 0
    if n < lo then (lo, fNV ||| fl) else if hi < n then (hi, fNV ||| fl) else (n, fl)

/-- An exact value converted by value into a simple format (14 R332). An infinity into BIT gives 1 and sets no flag, which R332 does not say (DESIGN CHOICE,
log 124). -/
def encodeElem (fmt : BitVec 5) (md : RMode) (row col : Nat) (sat : Bool) (e : Elem) : Nat × Fl :=
  if fmt.toNat = 14 then
    match e with
    | .i x => (if x = 0 then 0 else 1, 0)
    | .f v =>
      match v with
      | .nan => (0, fNV)
      | .inf _ => (1, 0)
      | v => let (n, nx) := roundInt md row col v; (if n = 0 then 0 else 1, if nx then fNX else 0)
  else if isInt fmt then
    let (lo, hi) := intRange fmt
    match e with
    | .i x => let y := max lo (min hi x); (intCode fmt y, if y = x then 0 else fSAT)
    | .f v => let (n, fl) := floatToInt md row col lo hi v; (intCode fmt n, fl)
  else
    match e with
    | .i x => roundTo (floatOf fmt) md row col sat (Val.ofInt x)
    | .f v => roundTo (floatOf fmt) md row col sat v

/-! ### Block encodes (R84, R86, R87) -/

/-- |a| < |b| for finite values. -/
def magLt (a b : Val) : Bool := a.abs.lt b.abs

/-- An element inside a block: rounded, clamped to the greatest magnitude; NX only. -/
def encodeIn (f : FloatFmt) (md : RMode) (row col : Nat) (v : Val) : Nat × Fl :=
  match v with
  | .fin neg m e st =>
    if m = 0 then (f.pack neg 0 0, 0)
    else
      let md := if md == .dith && decide (0 < diffFin false m e false f.maxN f.maxQ) then RMode.rne else md
      let q := unitOf f (e + (Nat.log2 m : Int))
      let (n, nx) := roundAt md row col neg m e st q
      if f.over n q then (f.maxCode neg, fNX) else (f.pack neg n q, if nx then fNX else 0)
  | _ => (0, 0)

/-- A block's element codes, scale byte, outlier byte and flags. -/
structure BlockCode where
  q : List Nat
  s : Nat
  o : Nat
  fl : Fl
deriving DecidableEq, Repr

def clampInt (lo hi x : Int) : Int := max lo (min hi x)

/-- Emax of R84. -/
def emaxOf (fmt : BitVec 5) : Int := match fmt.toNat with | 10 => 8 | 11 => 15 | _ => 2

/-- The value of greatest magnitude. -/
def maxMag (v : List Val) : Val := v.foldl (fun a b => if magLt a b then b.abs else a) (Val.zero false)

/-- EncodeMX of R84 on finite values; `coord i` is the coordinate of element i. -/
def encodeMX (fmt : BitVec 5) (md : RMode) (coord : Nat → Nat × Nat) (v : List Val) : BlockCode :=
  let m := maxMag v
  let x : Int := if m.isZero then -127 else clampInt (-127) 127 (m.log2 - emaxOf fmt)
  let r := v.mapIdx fun i a => encodeIn (floatOf fmt) md (coord i).1 (coord i).2 (a.scale (-x))
  { q := r.map (·.1), s := (x + 127).toNat, o := 0, fl := r.foldl (fun a b => a ||| b.2) 0 }

/-- The first position of greatest magnitude among those allowed (R86: ties to the lower position). -/
def argMax (v : Nat → Val) (ok : Nat → Bool) : Nat :=
  ((List.range 32).foldl (fun (b : Option Nat) i =>
    if ok i then match b with | none => some i | some j => if magLt (v j) (v i) then some i else b else b) none).getD 0

/-- The scale exponent that R86 tries for the outliers `out`. -/
def q4xScale (v : Nat → Val) (c1 : Nat) (out : List Nat) : Int :=
  let rest := (List.range 32).filter fun i => !out.contains i && !out.contains (i ^^^ 1)
  let m := maxMag (rest.map v)
  clampInt (-127) 127
    (if !m.isZero then m.log2 - 2 else if !out.isEmpty && !(v c1).isZero then (v c1).log2 - 8 else -127)

/-- EncodeQ4X of R86 on 32 finite values. -/
def encodeQ4X (md : RMode) (coord : Nat → Nat × Nat) (l : List Val) : BlockCode :=
  let v := fun i => nth l i (Val.zero false)
  let c1 := argMax v fun _ => true
  let c2 := argMax v fun i => i != c1 && i != c1 ^^^ 1
  let fits (out : List Nat) : Bool := out.all fun i => magLt (.fin false 15 (q4xScale v c1 out - 1) false) (v i)
  let out := if fits [c1, c2] then [min c1 c2, max c1 c2] else if fits [c1] then [c1] else []
  let s := q4xScale v c1 out
  let outl := fun i => encodeIn e4m3 md (coord i).1 (coord i).2 ((v i).scale (-s))
  let code (i : Nat) : Nat × Fl :=
    if out.contains i then (8, (outl i).2)
    else if out.contains (i ^^^ 1) then ((outl (i ^^^ 1)).1 % 16, 0)
    else
      let (n, nx) := roundInt md (coord i).1 (coord i).2 ((v i).scale (-s))
      let y := clampInt (-7) 7 n
      ((y % 16).toNat, if nx || y != n then fNX else 0)
  let r := (List.range 32).map code
  let o := (out.mapIdx fun j i => 16 ^ j * ((outl i).1 / 16 % 16)).foldl (· + ·) 0
  { q := r.map (·.1), s := (s + 127).toNat, o := o, fl := r.foldl (fun a b => a ||| b.2) 0 }

/-- A block encode with its non-finite cases (R87). -/
def encodeBlock (fmt : BitVec 5) (md : RMode) (coord : Nat → Nat × Nat) (sat : Bool) (v : List Val) : BlockCode :=
  let nanBlock (fl : Fl) : BlockCode := { q := v.map fun _ => 0, s := 255, o := 0, fl := fl }
  if v.any Val.isNan then nanBlock 0
  else if v.any Val.isInf && !sat then nanBlock fNV
  else
    let v := v.map fun x => match x with | .inf n => Val.fin n fp32.maxN fp32.maxQ false | x => x
    if fmt.toNat = 13 then encodeQ4X md coord v else encodeMX fmt md coord v

end Sys2Proof.Machine
end

