-- ==== Sys2Proof/Machine/Tiles.lean ====
section
/-! DEFINITION. Tiles (02 R42-R45, 03 R53-R61, 05 R115, 15 R367): geometry, checks, reading and writing elements, bank-port
claims. -/

namespace Sys2Proof.Machine

/-! ### Geometry -/

def TileEnt.n0 (e : TileEnt) : Nat := e.e0.toNat + 1
/-- Elements of the tile (02 R43). -/
def TileEnt.count (e : TileEnt) : Nat := (e.e0.toNat + 1) * (e.e1.toNat + 1) * (e.e2.toNat + 1) * (e.e3.toNat + 1)
/-- Element words, and all tile words (03 R54). -/
def TileEnt.elemWords (e : TileEnt) : Nat := ceilDiv (e.count * elemBits e.fmt) 2048
def TileEnt.words (e : TileEnt) : Nat := e.elemWords + ceilDiv (e.count / 32 * scaleBytes e.fmt) 256
/-- Rows the tile takes (03 R58). -/
def TileEnt.rows (e : TileEnt) : Nat := if e.lvl then ceilDiv e.words 64 else ceilDiv e.words 16
/-- Logical bank of tile word `w` of handle `h` (03 R54). -/
def TileEnt.bank (e : TileEnt) (h w : Nat) : Nat := if e.lvl then (h + w) % 64 else 16 * e.owner.toNat + (h + w) % 16
/-- Tile coordinate of an element offset (02 R43). -/
def TileEnt.coord (e : TileEnt) (k : Nat) : Nat × Nat := (k / e.n0, k % e.n0)
/-- The element word that holds element `k`. -/
def TileEnt.wordOf (e : TileEnt) (k : Nat) : Nat := k * elemBits e.fmt / 2048
/-- First scale byte of block `j`. -/
def TileEnt.scaleAt (e : TileEnt) (j : Nat) : Nat := e.elemWords * 256 + j * scaleBytes e.fmt
/-- Every tile word that the decode of element `k` reads: its element word and the scale words of its block. -/
def TileEnt.wordsOf (e : TileEnt) (k : Nat) : List Nat :=
  if isBlock e.fmt then
    let b := e.scaleAt (k / 32)
    [e.wordOf k, b / 256]
  else [e.wordOf k]

/-- The format constraints checked when an entry is created (02 R43). -/
def TileEnt.formatOk (e : TileEnt) : Bool :=
  !isReserved e.fmt
    && (!isBlock e.fmt || e.n0 % 32 == 0)
    && (e.fmt != 14 || e.n0 % 8 == 0)
    && (e.fmt != 15 || e.n0 % 2 == 0)

/-- The 128-bit entry as the save area and the snapshots hold it (02 R42), BMAP zero. -/
def TileEnt.bits (e : TileEnt) : Nat :=
  e.e0.toNat + e.e1.toNat * 2 ^ 16 + e.e2.toNat * 2 ^ 32 + e.e3.toNat * 2 ^ 48 + e.owner.toNat * 2 ^ 116
    + e.dims.toNat * 2 ^ 118 + e.fmt.toNat * 2 ^ 120 + e.retain.toNat * 2 ^ 125 + e.lvl.toNat * 2 ^ 126 + 2 ^ 127

/-! ### The tile table -/

def Cluster.tile? (c : Cluster) (h : Nat) : Option Tile := (c.tiles.find? (·.1 == h)).map (·.2)
def insertTile (h : Nat) (t : Tile) : List (Nat × Tile) → List (Nat × Tile)
  | [] => [(h, t)]
  | (k, u) :: l => if h < k then (h, t) :: (k, u) :: l else if h = k then (h, t) :: l else (k, u) :: insertTile h t l
def Cluster.setTile (c : Cluster) (h : Nat) (t : Tile) : Cluster := { c with tiles := insertTile h t c.tiles }
def Cluster.dropTile (c : Cluster) (h : Nat) : Cluster := { c with tiles := c.tiles.filter (·.1 != h) }
/-- `TFREE` at cycle `now`. -/
def Cluster.freeTile (c : Cluster) (h now : Nat) : Cluster :=
  { c.dropTile h with freed := (c.tiles.filter (·.1 == h)).map (fun x => (now, x.2)) ++ c.freed }
/-- The tile that a capture names: in the table, or freed since (02 R45). -/
def Cluster.capTile? (c : Cluster) (k : Cap) : Option Tile :=
  ((c.tile? k.h).filter (·.born == k.born)).or ((c.freed.find? (·.2.born == k.born)).map (·.2))
/-- Applies `f` to it. -/
def Cluster.onCap (c : Cluster) (k : Cap) (f : Tile → Tile) : Cluster :=
  match (c.tile? k.h).filter (·.born == k.born) with
  | some t => c.setTile k.h (f t)
  | none => { c with freed := updateAll (fun x => x.2.born == k.born) (fun x => (x.1, f x.2)) c.freed }
def Cluster.capture (c : Cluster) (k : Cap) : Cluster := c.onCap k fun t => { t with caps := t.caps + 1 }
def Cluster.release (c : Cluster) (k : Cap) : Cluster := c.onCap k fun t => { t with caps := t.caps - 1 }
/-- The bytes of a captured tile. -/
def Cluster.dataOf (c : Cluster) (k : Cap) : Memory :=
  match c.capTile? k with
  | some t => t.data
  | none => []
/-- Rows in use: cluster rows, and near rows of rank `q` (03 R58). -/
def Cluster.usedC (c : Cluster) : Nat := c.tiles.foldl (fun n x => if x.2.ent.lvl then n + x.2.ent.rows else n) 0
def Cluster.usedN (c : Cluster) (q : Nat) : Nat :=
  c.tiles.foldl (fun n x => if !x.2.ent.lvl && x.2.ent.owner.toNat == q then n + x.2.ent.rows else n) 0
/-- A creation stays within the group's reservation (03 R59). -/
def Cluster.fits (c : Cluster) (e : TileEnt) : Bool :=
  if e.lvl then decide (c.usedC + e.rows ≤ c.crows)
  else decide (c.usedN e.owner.toNat + e.rows ≤ nth c.nrows.toList e.owner.toNat 0)

/-- In reduced service only FP32 and BF16 may be decoded, encoded or fed to the MXU (18 R427). -/
def State.fmtOk (s : State) (fmt : BitVec 5) : Bool := s.pkg.clk.full || fmt == 0 || fmt == 1

/-- The checks of 02 R44 on offsets up to `hi` (empty accesses pass `none`): the fault class, or the capture. -/
def State.tileCheck (s : State) (h : Nat) (hi : Option Nat) : Except Nat Cap :=
  match s.clu.tile? h with
  | none => .error 7
  | some t =>
    if !t.ent.lvl && t.ent.owner.toNat != s.localRank then .error 7
    else match hi with
      | some k => if t.ent.count ≤ k then .error 6 else .ok { h := h, ent := t.ent, born := t.born }
      | none => .ok { h := h, ent := t.ent, born := t.born }

/-- The checks of R44 on tile words up to `hi`. -/
def State.tileCheckWords (s : State) (h hi : Nat) : Except Nat Cap :=
  match s.tileCheck h none with
  | .error e => .error e
  | .ok c => if c.ent.words ≤ hi then .error 6 else .ok c

/-! ### Elements -/

/-- Element code `k`. -/
def elemCode (e : TileEnt) (m : Memory) (k : Nat) : Nat := m.field (k * elemBits e.fmt) (elemBits e.fmt)

/-- Element `k` of a tile: its exact value and the flags of the decode (04 R77, R81, R85). -/
def readElem (e : TileEnt) (m : Memory) (k : Nat) : Elem × Fl :=
  if isBlock e.fmt then
    let j := k / 32
    let s := (m.get (e.scaleAt j)).toNat
    if e.fmt.toNat = 13 then
      let o := (m.get (e.scaleAt j + 1)).toNat
      let (v, fl) := decodeQ4X (fun i => elemCode e m (32 * j + i)) s o (k % 32)
      (.f v, fl)
    else (.f (decodeMX e.fmt (elemCode e m k) s), 0)
  else (decodeSimple e.fmt (elemCode e m k), 0)

/-- Element `k` decoded to its lane (04 R76). -/
def readLane (e : TileEnt) (m : Memory) (k : Nat) : W32 × Fl :=
  if e.fmt = 0 then (BitVec.ofNat 32 (elemCode e m k), 0)
  else
    let (x, fl) := readElem e m k
    let (w, fl') := laneOf x
    (w, fl ||| fl')

/-- The update that gives element `k` the code `v`. -/
def elemUpd (e : TileEnt) (k v : Nat) : BitUpd := { o := k * elemBits e.fmt, w := elemBits e.fmt, v := v }
/-- The updates that write block `j` of a tile. -/
def blockUpd (e : TileEnt) (j : Nat) (b : BlockCode) : List BitUpd :=
  b.q.mapIdx (fun i x => elemUpd e (32 * j + i) x)
    ++ [{ o := 8 * e.scaleAt j, w := 8, v := b.s }]
    ++ (if e.fmt.toNat = 13 then [{ o := 8 * (e.scaleAt j + 1), w := 8, v := b.o }] else [])
/-- A tile's bytes with the updates made in order. -/
def applyUpd (m : Memory) (l : List BitUpd) : Memory := l.foldl (fun m u => m.setField u.o u.w u.v) m
/-- Bits of the 8-byte unit `u` that an update writes. -/
def BitUpd.inUnit (x : BitUpd) (u : Nat) : Nat := min (x.o + x.w) (64 * u + 64) - max x.o (64 * u)
/-- A write of a tile (03 R63, 17 R406): a unit that is written in part keeps its error, one that is written whole loses it. -/
def Tile.put (t : Tile) (l : List BitUpd) : Tile :=
  { t with data := applyUpd t.data l, poison := t.poison.filter fun u => decide ((l.map (·.inUnit u)).sum < 64) }
/-- Such a write merges with an error. -/
def Tile.merges (t : Tile) (l : List BitUpd) : Bool := t.poison.any fun u => let n := (l.map (·.inUnit u)).sum; decide (0 < n) && decide (n < 64)
/-- The words that updates write. -/
def updWords (l : List BitUpd) : List Nat := (l.map fun u => u.o / 2048).eraseDups

/-- The 256 bytes of word `w` of a tile. -/
def tileWord (m : Memory) (w : Nat) : List Byte :=
  Memory.read (m.filter fun c => decide (256 * w ≤ c.1) && decide (c.1 < 256 * w + 256)) (256 * w) 256

/-! ### Bank ports (03 R60, R61) -/

/-- Claims one port of the bank of word `w` at the cycle `dt` from now. -/
def State.charge (s : State) (dt : Nat) (wr : Bool) (c : Cap) (w : Nat) : State :=
  let ch : Charge :=
    { cyc := s.gang.now + dt, bank := c.ent.bank c.h w, wr := wr, tile := c.h, word := w, rank := s.rank, iss := s.gang.now, frame := false }
  { s with clu := { s.clu with charges := s.clu.charges ++ [ch] } }
def State.chargeAll (s : State) (dt : Nat) (wr : Bool) (c : Cap) (l : List Nat) : State :=
  l.foldl (fun s w => s.charge dt wr c w) s

/-- Distinct words read, or writes counted one by one, at a bank and cycle. -/
def readsAt (l : List Charge) (cyc bank : Nat) : Nat :=
  ((l.filter fun c => !c.wr && c.cyc == cyc && c.bank == bank).map fun c => (c.tile, c.word)).eraseDups.length
def writesAt (l : List Charge) (cyc bank : Nat) : Nat := (l.filter fun c => c.wr && c.cyc == cyc && c.bank == bank).length

/-- More reads of distinct words, or writes, than the ports of a bank take in a cycle. In a slack window one read port and the write port of every bank
are kept for variable-side traffic on even cycles (R62), which `rsv` says. -/
def overFull (l : List Charge) (c : Charge) (rsv : Bool) : Bool :=
  let even := rsv && c.cyc % 2 == 0
  if c.wr then decide ((if even then 0 else 1) < writesAt l c.cyc c.bank) else decide ((if even then 1 else 2) < readsAt l c.cyc c.bank)
/-- Ranks whose bundles, issued at cycle `t`, are charged with a conflict at the bank and cycle of claim `c`: those that complete it without the others
of that cycle, else all that add to it. -/
def chargedAt (l : List Charge) (t : Nat) (rsv : Bool) (c : Charge) : List Nat :=
  let old := l.filter (·.iss != t)
  let here := fun (x : Charge) => x.iss == t && x.cyc == c.cyc && x.bank == c.bank && x.wr == c.wr
  let adds := fun (x : Charge) => x.wr || old.all fun y => y.wr || y.cyc != x.cyc || y.bank != x.bank || y.tile != x.tile || y.word != x.word
  let rs := ((l.filter fun x => here x && adds x).map (·.rank)).eraseDups
  let alone := rs.filter fun r => overFull (old ++ l.filter fun x => x.iss == t && x.rank == r) c rsv
  if !overFull l c rsv then [] else if alone.isEmpty then rs else alone
/-- Ranks whose bundles, issued at cycle `t`, are charged with a conflict (R61). -/
def conflictRanks (l : List Charge) (t : Nat) (rsv : Bool) : List Nat :=
  ((l.filter (·.iss == t)).flatMap (chargedAt l t rsv)).eraseDups

/-- Adds `n` to the count of a key. -/
def bump {α : Type} [BEq α] (n : Nat) (l : List (α × Nat)) (k : α) : List (α × Nat) := (k, ((l.find? (·.1 == k)).map (·.2)).getD 0 + n) :: l.filter (·.1 != k)
/-- Words of a tile have been read: each is counted at its bank, of the package cluster `phys` (R63, 17 R408). -/
def State.countReads (s : State) (phys : Nat) (c : Cap) (ws : List Nat) : State :=
  { s with pkg := { s.pkg with bankReads := (ws.map fun w => 1024 * phys + c.ent.bank c.h w).foldl (bump 1) s.pkg.bankReads } }
/-! ### Open and held ranges (05 R115, 15 R367) -/

def Range.hits (r : Range) (h w : Nat) : Bool := r.tile.toNat == h && decide (r.word ≤ w) && decide (w < r.word + r.count)
/-- Cores of the cluster in focus. -/
def State.cluCores (s : State) : List Core := s.allCores.filter fun c => rankOf c.id / 4 == s.clu.k
/-- A word lies in an open range of a core of the cluster: early consume. The check is made at the issue of the access, whenever its reads and writes fall;
05 R115 does not say what an access issued before the `RECV` does whose bank cycle comes after it (log 100). -/
def State.openHit (s : State) (h : Nat) (ws : List Nat) : Bool :=
  s.cluCores.any fun c => c.openR.any fun r => ws.any fun w => r.hits h w
/-- A word lies in a held range of a core of the cluster. -/
def State.heldHit (s : State) (h : Nat) (ws : List Nat) : Bool :=
  s.cluCores.any fun c => c.heldR.any fun r => ws.any fun w => r.hits h w

/-- The LINK_MISMATCH cause of a timed access to words, if any: 0 early consume, 8 held source for a write. -/
def State.rangeTrap (s : State) (h : Nat) (ws : List Nat) (wr : Bool) : Option Nat :=
  if s.openHit h ws then some 0 else if wr && s.heldHit h ws then some 8 else none
/-- The link of the range that it meets, the AUX of its record (17 R401). -/
def State.rangeLink (s : State) (h : Nat) (ws : List Nat) (wr : Bool) : Nat :=
  let first := fun (f : Core → List Range) => (s.cluCores.flatMap f).find? fun r => ws.any fun w => r.hits h w
  (((first (·.openR)).or (if wr then first (·.heldR) else none)).map (·.link)).getD 0

end Sys2Proof.Machine
end

