-- ==== Sys2Proof/Machine/Flags.lean ====
section
/-! DEFINITION. Conditions (11 R255, 12 R283), class bits (12 R282) and the flags that operations add to AFLAGS (04 R96, R97). -/

namespace Sys2Proof.Machine

/-- The integer conditions over `w`-bit operands (11 R255). -/
def condTrue {w : Nat} (c : Cond) (x y : BitVec w) : Bool :=
  match c with
  | .eq => x == y
  | .ne => x != y
  | .lt => decide (x.toInt < y.toInt)
  | .ge => decide (y.toInt ≤ x.toInt)
  | .le => decide (x.toInt ≤ y.toInt)
  | .gt => decide (y.toInt < x.toInt)
  | .ltu => decide (x.toNat < y.toNat)
  | .geu => decide (y.toNat ≤ x.toNat)
  | .leu => decide (x.toNat ≤ y.toNat)
  | .gtu => decide (y.toNat < x.toNat)
  | .tst => (x &&& y) != 0
  | .tstn => (x &&& y) == 0

/-- The FP32 conditions with their flags (12 R283). -/
def fcondTrue (c : FCond) (x y : Val) : Bool × Fl :=
  let un := x.isNan || y.isNan
  match c with
  | .eq => (x.eqv y, 0)
  | .ne => (!x.eqv y, 0)
  | .lt => (x.lt y, if un then fNV else 0)
  | .le => (x.lt y || x.eqv y, if un then fNV else 0)
  | .gt => (y.lt x, if un then fNV else 0)
  | .ge => (y.lt x || x.eqv y, if un then fNV else 0)
  | .un => (un, 0)
  | .ord => (!un, 0)

/-- FCLASS (12 R282): the class bit of an FP32 pattern. -/
def fclassBit (w : W32) : W32 :=
  let neg := w.getLsbD 31
  let ex := w.toNat / 2 ^ 23 % 256
  let man := w.toNat % 2 ^ 23
  BitVec.ofNat 32 (2 ^ (
    if ex = 255 then (if man = 0 then (if neg then 0 else 7) else if man < 2 ^ 22 then 8 else 9)
    else if ex = 0 then (if man = 0 then (if neg then 3 else 4) else (if neg then 2 else 5))
    else (if neg then 1 else 6)))

/-- OR of the flags of the lanes that the mask enables. -/
def orLanes (f : Nat → Fl) (m : W64) : Fl :=
  (List.range 64).foldl (fun a j => if m.getLsbD j then a ||| f j else a) 0

/-- Sets flags at the cycle `dt` from now (04 R97). -/
def State.flagLater (s : State) (dt : Nat) (f : Fl) : State := if f = 0 then s else s.later dt true (.flags f)

/-- A guard-free number of set bits, and of leading zeros, of a `w`-bit pattern (11 R267, 12 R287). -/
def popCount {w : Nat} (x : BitVec w) : Nat := (List.range w).foldl (fun n j => if x.getLsbD j then n + 1 else n) 0
def leadZeros {w : Nat} (x : BitVec w) : Nat := if x = 0 then w else w - 1 - Nat.log2 x.toNat

end Sys2Proof.Machine
end

