-- ==== Sys2Proof/Machine/Operands.lean ====
section
/-! DEFINITION. Every operand form: rotated registers (10 R243), vector sources and destinations (09 R218, 12 R274-R277), ports
and address generators (10 R236-R239, 05 R111-R113), and the encodes of pushes (04 R83, R92). -/

namespace Sys2Proof.Machine

/-! ### Rotation (10 R241-R243) -/

def vuSlot : VU → Slot
  | .v0 => .v0
  | .v1 => .v1
/-- A ring descriptor's fields: in use, file, base, length (R241). -/
def ringOf (d : W16) : Bool × Bool × Nat × Nat :=
  (d.getLsbD 15, d.getLsbD 14, (d.toNat / 32) % 32, d.toNat % 32 + 1)
/-- The ring of the current entry that holds register `r` of file `u`. -/
def State.ringFor (s : State) (u : VU) (r : Nat) : Option (Nat × Nat) :=
  match s.core.rote with
  | none => none
  | some k =>
    match s.gang.code.rings[k.toNat]? with
    | none => none
    | some v =>
      ((v.toList.map ringOf).find? fun (ok, file, b, n) =>
        ok && file == (u == .v1) && decide (b ≤ r) && decide (r < b + n)).map fun (_, _, b, n) => (b, n)
/-- The register that a field names when its bundle issues (R243). -/
def State.rotated (s : State) (u : VU) (r : BitVec 5) (rot : Bool) : BitVec 5 :=
  if rot then
    match s.ringFor u r.toNat with
    | some (b, n) => BitVec.ofNat 5 (b + (r.toNat - b + s.core.rotc.toNat) % n)
    | none => r
  else r

/-! ### Address generators (10 R236-R238) -/

def psBase (ps : Vector W64 5) : Nat := ps[0].toNat % 2 ^ 32
def psTile (ps : Vector W64 5) : Nat := bits ps[0].toNat 43 32
def psRm (ps : Vector W64 5) : Nat := bits ps[0].toNat 52 50
def psSat (ps : Vector W64 5) : Bool := ps[0].getLsbD 53
def psRes (ps : Vector W64 5) : BitVec 2 := BitVec.ofNat 2 (bits ps[0].toNat 55 54)
def psLevels (ps : Vector W64 5) : List (Nat × Int) :=
  [ps[1], ps[2], ps[3], ps[4]].map fun w => (w.toNat % 2 ^ 16 + 1, signExt (w.toNat / 2 ^ 32) 32)
def psReservedZero (ps : Vector W64 5) : Bool :=
  bits ps[0].toNat 63 56 == 0 && bits ps[0].toNat 49 44 == 0
    && [ps[1], ps[2], ps[3], ps[4]].all fun w => bits w.toNat 31 16 == 0
/-- T of R237: positions of the sequence, and the number of vectors. -/
def psT (ps : Vector W64 5) : Nat := (psLevels ps).foldl (fun t l => t * l.1) 1
def psNV (ps : Vector W64 5) : Nat := ceilDiv (psT ps) 64
/-- GenOffset of R237. -/
def genOffset (ps : Vector W64 5) (n : Nat) : Int :=
  ((psLevels ps).foldl (fun (a : Int × Nat) l => (a.1 + ((a.2 % l.1 : Nat) : Int) * l.2, a.2 / l.1)) ((psBase ps : Int), n)).1
/-- Least and greatest offset over all positions. -/
def psMin (ps : Vector W64 5) : Int :=
  (psLevels ps).foldl (fun a l => a + (if l.2 < 0 then ((l.1 - 1 : Nat) : Int) * l.2 else 0)) (psBase ps : Int)
def psMax (ps : Vector W64 5) : Int :=
  (psLevels ps).foldl (fun a l => a + (if 0 < l.2 then ((l.1 - 1 : Nat) : Int) * l.2 else 0)) (psBase ps : Int)
/-- Element offset of lane `j` of vector `v`, if it lies in the sequence. -/
def laneOff (ps : Vector W64 5) (v j : Nat) : Option Nat :=
  if 64 * v + j < psT ps then some (genOffset ps (64 * v + j)).toNat else none
/-- Tile words of vector `v`: of its elements and of their scales (03 R60). -/
def vecWords (ps : Vector W64 5) (e : TileEnt) (v : Nat) : List Nat :=
  ((List.range 64).flatMap fun j => match laneOff ps v j with | some k => e.wordsOf k | none => []).eraseDups

/-! ### Input ports -/

/-- Cycles from a bank read to the pop that may use it, and vectors an arm reads ahead (03 R60, 05 R108). -/
def aheadOf (e : TileEnt) : Nat := if e.lvl then 7 else 4
def firstPop (e : TileEnt) : Nat := if e.lvl then 9 else 6

/-- Vector `v` decoded from a tile's bytes (10 R237): lanes past the sequence read 0. -/
def decodeVec (ps : Vector W64 5) (e : TileEnt) (m : Memory) (v : Nat) : Lanes × Fl :=
  let r := (List.range 64).map fun j => match laneOff ps v j with | some k => readLane e m k | none => (0, 0)
  (Lanes.build fun j => (nth r j (0, 0)).1, r.foldl (fun a x => a ||| x.2) 0)

/-- The next vector of input port `n`, if a pop or peek may take it now (05 R111, R112). -/
def State.portVec (s : State) (n : Nat) : Option (Lanes × Fl) :=
  let p := s.getPort n
  match p.cap with
  | some c =>
    if p.armed && decide (p.armIss + firstPop c.ent ≤ s.gang.now) && decide (p.pos < psNV p.active) then
      (p.buf.find? (·.1 == p.pos)).map (·.2)
    else none
  | none => none

/-- Pops port `n`: POS advances, the decode's flags are set at issue, the read of a later vector is scheduled now and claimed
(03 R60, 04 R97). -/
def State.pop (s : State) (n : Nat) : State :=
  let p := s.getPort n
  match p.cap with
  | none => s
  | some c =>
    let fl := match p.buf.find? (·.1 == p.pos) with | some (_, _, f) => f | none => 0
    let k := p.pos + aheadOf c.ent
    let s := s.setCore (s.core.setPort n { p with pos := p.pos + 1, buf := p.buf.filter (·.1 != p.pos) })
    let s := s.flagLater 0 fl
    if k < psNV p.active then
      let ws := vecWords p.active c.ent k
      (s.later 0 true (.samplePort (BitVec.ofNat 4 n) p.arm k c ws)).chargeAll 0 false c ws
    else s

/-- A constant specifier in its FP32 or integer reading (09 R218). -/
def constVal (k : BitVec 3) (int : Bool) : W32 :=
  match k.toNat, int with
  | 0, _ => 0
  | 1, true => 1
  | 1, false => 0x3F800000
  | 2, true => 0xFFFFFFFF
  | 2, false => 0xBF800000
  | 3, _ => 0x3F000000
  | 4, _ => 0x40000000
  | 5, _ => 0x7F800000
  | 6, _ => 0xFF800000
  | _, _ => nan32

/-- The lanes of a source specifier; `none` where the port takes PORT_UNARMED. -/
def State.src (s : State) (u : VU) (x : VSrc) (int : Bool) : Option Lanes :=
  match x with
  | .reg n rot => some (s.getV u (s.rotated u n rot))
  | .pop n | .peek n => (s.portVec n.toNat).map (·.1)
  | .bc k => some (Lanes.splat (s.getB u k))
  | .const k => some (Lanes.splat (constVal k int))

/-- Ports popped by a list of sources, each once (09 R222). -/
def popsOf (l : List VSrc) : List Nat :=
  (l.filterMap fun x => match x with | .pop n => some n.toNat | _ => none).eraseDups

/-- A pop's scheduled bank read falls in an open range (12 R278). -/
def State.popOpen (s : State) (n : Nat) : Bool :=
  let p := s.getPort n
  match p.cap with
  | none => false
  | some c =>
    let k := p.pos + aheadOf c.ent
    decide (k < psNV p.active) && s.openHit c.h (vecWords p.active c.ent k)

/-- The link of the first such range (17 R401). -/
def State.popLink (s : State) (l : List Nat) : Nat :=
  match l.find? s.popOpen with
  | none => 0
  | some n =>
    let p := s.getPort n
    match p.cap with
    | none => 0
    | some c => s.rangeLink c.h (vecWords p.active c.ent (p.pos + aheadOf c.ent)) false

/-- Reads the vector sources of a V-slot form, with the reading of each constant, popping what they pop; then `k`. PORT_UNARMED
and LINK_MISMATCH are the traps of 12 R278. -/
def State.withSrcs (s : State) (u : VU) (l : List (VSrc × Bool)) (k : List Lanes → State → Res) : Res :=
  match l.mapM (fun x => s.src u x.1 x.2) with
  | none => raise (vuSlot u) 5 0 0 0 s
  | some vs =>
    let ps := popsOf (l.map (·.1))
    if ps.any s.popOpen then raise (vuSlot u) 9 0 0 (s.popLink ps) s
    else atomic s (k vs (ps.foldl State.pop s))

/-! ### Results -/

/-- Values t and new residues under FEEDBACK (04 R92) of the exact value `v`, with the flags of the two roundings. -/
def feedT (v : Val) (e : W32) : W32 × Fl :=
  let (x, f1) := v.add (valOf e) .rne
  let (t, f2) := toF32 .rne x
  (t, f1 ||| f2)
def feedE (v : Val) (e t : W32) (dec : Val) : W32 × Fl :=
  if !v.isFin || !(valOf t).isFin || !dec.isFin then (0, 0)
  else
    let (a, _) := v.add (valOf e) .rne
    let (b, _) := a.add dec.neg .rne
    toF32 .rne b
/-- The value of a lane taken as the compute type of a format (04 R75); for UINT32 its 32 bits unsigned (log 104). -/
def laneVal (fmt : BitVec 5) (x : W32) : Val :=
  if fmt = 9 then Val.ofInt (x.toNat : Int) else if isInt fmt then Val.ofInt x.toInt else valOf x

/-- Mode of a parameter set's RM field: 5 is FEEDBACK (04 R88). -/
def psMode (ps : Vector W64 5) : RMode :=
  match psRm ps with | 1 => .rz | 2 => .rd | 3 => .ru | 4 => .dith | _ => .rne
def psFeed (ps : Vector W64 5) : Bool := psRm ps == 5

/-- A decoded value as R81 and R85 give it, rounded to FP32. -/
def asF32 (v : Val) : Val := valOf (toF32 .rne v).1

/-- What a push writes: updates of the tile, flags, new residues of its enabled lanes. -/
structure PushOut where
  upd : List BitUpd
  fl : Fl
  res : Lanes
deriving DecidableEq, Repr

/-- Of the lanes (lane, element) that name one element, the highest: it is the one encoded and written (10 R237). -/
def topLanes (l : List (Nat × Nat)) : List (Nat × Nat) :=
  l.foldr (fun x acc => if acc.any (·.2 == x.2) then acc else x :: acc) []
/-- The lanes of vector `v` that lie in the sequence of a port. -/
def pushLanes (ps : Vector W64 5) (v : Nat) : W64 := BitVec.ofNat 64 (2 ^ min 64 (psT ps - 64 * v) - 1)
/-- The encode of vector `v` of an armed output port (R75, R83, R92). `old` is the residue register. Under FEEDBACK an integer tile takes t rounded to an
integer and clamped as 12 R285 does (log 104). -/
def encodePush (ps : Vector W64 5) (e : TileEnt) (v : Nat) (x : Lanes) (m : W64) (old : Lanes) : PushOut :=
  let fb := psFeed ps
  let md := psMode ps
  let sat := psSat ps
  let val := fun j => laneVal e.fmt (x.lane j)
  let t := fun j => if fb then feedT (val j) (old.lane j) else (x.lane j, 0)
  let on := fun j => m.getLsbD j && decide (64 * v + j < psT ps)
  let off := fun j => (laneOff ps v j).getD 0
  let flE : (Nat → Fl) → Fl := fun f => if fb then orLanes f (m &&& pushLanes ps v) else 0
  let flT : Fl := flE fun j => (t j).2
  if isBlock e.fmt then
    let blk (b : Nat) : Option (Nat × BlockCode) :=
      if (List.range 32).any (fun i => on (32 * b + i)) then
        let vs := (List.range 32).map fun i => if on (32 * b + i) then valOf (t (32 * b + i)).1 else Val.zero false
        some (off (32 * b) / 32, encodeBlock e.fmt md (fun i => e.coord (off (32 * b + i))) sat vs)
      else none
    let bs := [0, 1].map blk
    let decd (j : Nat) : Val × Fl :=
      match nth bs (j / 32) none with
      | some (_, c) =>
        if e.fmt.toNat = 13 then decodeQ4X (fun i => nth c.q i 0) c.s c.o (j % 32)
        else (decodeMX e.fmt (nth c.q (j % 32) 0) c.s, 0)
      | none => (Val.zero false, 0)
    let ne (j : Nat) : W32 × Fl :=
      let (x, f) := feedE (val j) (old.lane j) (t j).1 (asF32 (decd j).1)
      (x, f ||| (decd j).2 ||| (toF32 .rne (decd j).1).2)
    { upd := bs.flatMap fun b => match b with | some (j, c) => blockUpd e j c | none => []
      fl := bs.foldl (fun a b => match b with | some (_, c) => a ||| c.fl | none => a) (flT ||| flE fun j => (ne j).2)
      res := Lanes.build fun j => if on j then (ne j).1 else old.lane j }
  else
    let code (j : Nat) : Nat × Fl :=
      let (r, c) := e.coord (off j)
      if fb && isInt e.fmt then encodeElem e.fmt md r c sat (.f (valOf (t j).1)) else encodeLane e.fmt md r c sat (t j).1
    let ne := fun j =>
      let dec := match decodeSimple e.fmt (code j).1 with | .f v => v | .i i => Val.ofInt i
      feedE (val j) (old.lane j) (t j).1 dec
    let js := topLanes (((List.range 64).filter on).map fun j => (j, off j))
    { upd := js.map fun x => elemUpd e x.2 (code x.1).1
      fl := js.foldl (fun a x => a ||| (code x.1).2) (flT ||| flE fun j => (ne j).2)
      res := Lanes.build fun j => if on j then (ne j).1 else old.lane j }

/-- Cycle of a push's tile write, for an operation of latency `L` (10 R239). -/
def pushAt (e : TileEnt) (lat : Nat) : Nat :=
  if lat ≤ 5 then (if e.lvl then 10 else 7) else (if e.lvl then lat + 5 else lat + 2)

/-- Cycles from issue to the write of a result (12 R277, 10 R239). -/
def State.putAt (s : State) (d : VDst) (lat : Nat) : Nat :=
  match d with
  | .reg _ _ => lat - 1
  | .push o => match (s.getPort (8 + o.toNat)).cap with | some c => pushAt c.ent lat | none => lat - 1
/-- A vector result: written to its register at issue+L−1, or pushed (12 R277, 10 R239). The form sets its own flags at issue+L−1 in both cases, the encode
of a push its flags with the tile write (04 R97). The scale words of a block push claim write ports with its element
words, which 03 R60 does not say (log 98). -/
def State.vput (s : State) (u : VU) (d : VDst) (lat : Nat) (x : Lanes) (m : W64) (fl : Fl) : Res :=
  match d with
  | .reg n rot => .next ((s.later (lat - 1) true (.v u (s.rotated u n rot) x m)).flagLater (lat - 1) fl)
  | .push o =>
    let n := 8 + o.toNat
    let p := s.getPort n
    match p.cap with
    | none => raise (vuSlot u) 5 0 0 0 s
    | some c =>
      if !p.armed || !decide (p.pos < psNV p.active) then raise (vuSlot u) 5 0 0 0 s
      else
        let out := encodePush p.active c.ent p.pos x m (s.getE u (psRes p.active))
        let ws := updWords out.upd
        match s.rangeTrap c.h ws true with
        | some cause => raise (vuSlot u) 9 cause 0 (s.rangeLink c.h ws true) s
        | none =>
          let dt := pushAt c.ent lat
          let s := s.setCore (s.core.setPort n { p with pos := p.pos + 1 })
          let s := s.setClu (s.clu.capture c)
          let s := (s.later dt true (.tile c out.upd)).later dt true (.uncap c)
          let s := (s.flagLater (lat - 1) fl).flagLater dt out.fl
          let s := if psFeed p.active then s.later dt true (.e u (psRes p.active) out.res (m &&& pushLanes p.active p.pos)) else s
          .next (s.chargeAll dt true c ws)

/-- A mask result (12 R275): bits that the write mask enables. -/
def State.mput (s : State) (u : VU) (d : BitVec 3) (lat : Nat) (x m : W64) (fl : Fl) : Res :=
  .next ((s.later (lat - 1) true (.m u d x m)).flagLater (lat - 1) fl)

end Sys2Proof.Machine
end

