-- ==== Sys2Proof/Machine/MemOps.lean ====
section
/-! DEFINITION. Global memory: the physical map (02 R28), homes (01 R18), translation (02 R29-R34), regions (02 R35-R40),
accesses with their causal predecessors (06 R123-R131), logged writes (07 R149-R152) and delivery. -/

namespace Sys2Proof.Machine

/-! ### Physical map -/

def sharedBase : Nat := 2 ^ 46
/-- Where this model keeps the Sconces' SRAM variables, above every physical address: die and index (02 R46). -/
def syncBase : Nat := 2 ^ 50
def syncAt (die idx : Nat) : Nat := syncBase + (die * 32768 + idx) * 8

def isHbm (a : Nat) : Bool := decide (a < 12 * 2 ^ 36)
def isTier2 (a : Nat) : Bool := decide (tier2Base ≤ a) && decide (a < tier2Base + 2 ^ 43)
def isShared (a : Nat) : Bool := decide (sharedBase ≤ a) && decide (a < sharedBase + 2 ^ 40)
def isSram (a : Nat) : Bool := decide (syncBase ≤ a) && decide (a < 2 ^ 51)
/-- Where this model keeps the value of a shared-window line that the hub Sconce owns (06 R140). -/
def shadow (a : Nat) : Nat := a + 2 ^ 52

/-- Where this model keeps what lies in package `p` of the domain, above every other address: physical addresses of its regions and, from `farVa` on,
virtual ones of far accesses (15 R372, R373). What such an address holds is that package's: a read of it returns a free value (log 53). -/
def farBase (p : Nat) : Nat := 2 ^ 60 * (p + 1)
def farVa (p va : Nat) : Nat := farBase p + 2 ^ 56 + va
def isFar (a : Nat) : Bool := decide (2 ^ 60 ≤ a)
/-- The home of what lies in package `p`: dies are 0 to 4. -/
def farHome (p : Nat) : Nat := 8 + p

/-- The SOURCE of an error at a physical address (17 R404). -/
def sourceOf (a : Nat) : BitVec 4 := if isHbm a then 1 else if isShared a then 9 else if isSram a then 8 else 2
/-- The error that a read of a physical line meets (17 R404): of the shared window too a poisoned CXL response; what an `INGEST` meets there fails its
command. -/
def ueSite (a : Nat) : UeSite := if isHbm a then .hbm a else .tier2 a
/-- The pseudo-channel of an HBM line in its stack (03 R64). -/
def pseudoChannel (a : Nat) : Nat := a % 2 ^ 36 / 64 % 160
/-- Home die of a location (01 R18, 02 R48). -/
def homeOf (a : Nat) : Nat :=
  if isFar a then farHome (a / 2 ^ 60 - 1) else if isSram a then (a - syncBase) / (32768 * 8) else if isHbm a then a / 2 ^ 36 / 3 else 4

/-- First reserved byte of a stack (03 R67, 18 R428). -/
def State.hbmUsable (s : State) (stk : Nat) : Nat :=
  2 ^ 36 - s.pkg.cfg.undoGib * 2 ^ 30 - 2 ^ 28 - (if stk = 0 ∧ !s.pkg.clk.full then 2 ^ 32 else 0)
/-- Usable bytes of the second tier (03 R70). -/
def State.tierUsable (s : State) : Nat :=
  let p := s.tierBytes
  p - p / 32 - p / 64 - 2 ^ 28

/-- Whether the frame at `a` can be mapped for a page of class `pcls` (02 R28, R33). -/
def State.mappable (s : State) (a pcls : Nat) : Bool :=
  if isShared a then pcls == 3 && decide (a - sharedBase < s.pkg.cfg.sharedGib * 2 ^ 30)
  else pcls != 3 &&
    (if isHbm a then s.pkg.inService.contains (a / 2 ^ 36) && decide (a % 2 ^ 36 < s.hbmUsable (a / 2 ^ 36))
     else isTier2 a && decide (a - tier2Base < s.tierUsable))

/-- Whether a byte has storage, reserved or not, for a firmware core (18 R421). -/
def State.hasStorage (s : State) (a : Nat) : Bool :=
  if isHbm a then s.pkg.inService.contains (a / 2 ^ 36)
  else if isTier2 a then decide (a - tier2Base < s.tierBytes)
  else isShared a && decide (a - sharedBase < s.pkg.cfg.sharedGib * 2 ^ 30)

/-- First byte of the overflow area of a die's sync variables (03 R68, R70). -/
def State.syncOverflow (s : State) (die : Nat) : Nat :=
  if die < 4 then 3 * die * 2 ^ 36 + 2 ^ 36 - s.pkg.cfg.undoGib * 2 ^ 30 - 2 ^ 28
  else tier2Base + s.tierUsable
/-- Address of sync variable `idx` of a die (02 R46). -/
def State.syncLoc (s : State) (die idx : Nat) : Nat :=
  if idx < 32768 then syncAt die idx else s.syncOverflow die + (idx - 32768) * 8
/-- Whether index `idx` exists on a die (02 R46, 03 R70, 18 R428). -/
def State.syncExists (s : State) (die idx : Nat) : Bool :=
  decide (idx < 32768) ||
    (decide (idx < 2 ^ 24) && (if die = 4 then decide (s.pkg.cfg.tierGib ≠ 0) else s.pkg.clk.full || die == 0))

/-! ### Reading (06 R124, R125) -/

def WEv.cells (e : WEv) : List Host.Cell := match e.src with | .bytes l => l | .line _ _ => []

/-- The byte at `a` as die `d` has it delivered; with none, as coherence order has it. In another package it is a free value of the turn (log 53). -/
def MemSys.byteAt (m : MemSys) (d : Option Nat) (a : Nat) : Byte :=
  if isFar a then Config.farByte m.farDraw a else
  let see := fun (e : WEv) =>
    (match d with | some d => e.delivered.contains d | none => true) && e.cells.any (fun c => c.1 == a)
  match m.wlog.reverse.find? see with
  | some e => ((e.cells.find? (fun c => c.1 == a)).map (·.2)).getD Memory.blank
  | none => m.bytes.get a
def MemSys.bytesAt (m : MemSys) (d : Option Nat) (a n : Nat) : List Byte := (List.range n).map fun i => m.byteAt d (a + i)
def MemSys.natAt (m : MemSys) (d : Option Nat) (a n : Nat) : Nat := ofBytes (m.bytesAt d a n)
/-- The write events whose values a read of these bytes at die `d` returns, each with its access. -/
def MemSys.writersOf (m : MemSys) (d : Option Nat) (a n : Nat) : List (Nat × Nat) :=
  ((List.range n).filterMap fun i =>
    (m.wlog.reverse.find? fun e =>
      (match d with | some d => e.delivered.contains d | none => true) && e.cells.any (fun c => c.1 == a + i)).map fun e => (e.id, e.acc)).eraseDups

/-- Line number `n` holds an uncorrectable error: it is poisoned, or lies behind a CXL port that has lost its link (17 R404, 18 R418: 256 bytes of
the second tier and of the shared window to a populated port in turn, in ascending order; log 69). -/
def MemSys.bad (m : MemSys) (n : Nat) : Bool :=
  let ports := (List.range 4).filter Config.cxlPort
  m.poison.contains n || (!m.lostPorts.isEmpty && !isHbm (64 * n) && decide (64 * n < syncBase) && (ports[n / 4 % ports.length]?).any m.lostPorts.contains)

/-! ### The snoop filter (18 R419) -/

/-- A core watches the line: it is held in a `WAITA` on it, or has read it by an `INGEST` since its last `WAITA` (11 R261). -/
def Core.watchesLine (c : Core) (n : Nat) : Bool :=
  (match c.wait with | .waita l _ _ none => l == n | _ => false) || c.watches.any (·.1 == n)
/-- The recall of a line takes the next number: watches that begin later have a greater one (11 R261). -/
def State.recall (s : State) (n : Nat) : State :=
  { s with pkg := { s.pkg with recalls := (n, s.mem.nextId) :: s.pkg.recalls }, mem := { s.mem with nextId := s.mem.nextId + 1 } }
/-- A line of the shared window enters the hub's filter. A full filter gives up its oldest line that is not owned; where a core watches that
line, this is a recall. -/
def State.snoopAdd (s : State) (n : Nat) : State :=
  if s.pkg.snoop.contains n then s
  else if s.pkg.snoop.length < 65536 then { s with pkg := { s.pkg with snoop := s.pkg.snoop ++ [n] } }
  else
    match s.pkg.snoop.find? fun x => !s.mem.owned.contains (64 * x) with
    | none => s
    | some old =>
      let watched := s.allBoxes.any fun b => (b.core :: b.cores).any fun c => c.watchesLine old
      let s : State := { s with pkg := { s.pkg with snoop := s.pkg.snoop.filter (· != old) ++ [n] } }
      if watched then s.recall old else s

/-! ### Errors met by a read (03 R65, 17 R404, R408) -/

/-- A read may meet an error that the check bits correct: a free choice (log 7). Its page counts it. -/
def State.correctable (s : State) (a : Nat) : State :=
  let l := s.pkg.corrected
  { s with draw := s.draw + 1, pkg := { s.pkg with corrected := if Config.freeBool s.draw then bump 1 l (a / 2 ^ 21) else l } }
/-- Lines of memory are read by something else than an access of a core or of the host: a walk, a table, a ring, a payload. -/
def State.noteLines (s : State) (l : List Nat) : State :=
  l.foldl (fun s n => if isFar (64 * n) || isSram (64 * n) then s
    else (s.correctable (64 * n)).meet (if s.mem.bad n then some (ueSite (64 * n)) else none)) s
def linesOf (a n : Nat) : List Nat := (List.range ((a + n + 63) / 64 - a / 64)).map fun i => a / 64 + i

/-! ### Translation -/

/-- The leaf entry of a page, low 64 bits, by the walk of 02 R29, with the reads of die `d`; with none, in coherence order. -/
def State.walkFrom (s : State) (d : Option Nat) (root va : Nat) : Option Nat :=
  let rd := fun a => s.mem.natAt d a 8
  let bad := fun e => decide (e % 2 = 0 ∨ bits e 14 1 ≠ 0 ∨ bits e 63 48 ≠ 0)
  if bits va 63 52 ≠ 0 then none
  else
    let e1 := rd (root + 16 * bits va 51 41)
    if bad e1 then none
    else
      let e2 := rd (bits e1 47 15 * 2 ^ 15 + 16 * bits va 40 31)
      if bad e2 then none else some (rd (bits e2 47 15 * 2 ^ 15 + 16 * bits va 30 21))

/-- The walk of the core in focus: what the tables hold in coherence order, so that an entry changed before an invalidation completes is used by
every walk after it (R34; log 89). -/
def State.walk (s : State) (root va : Nat) : Option Nat := s.walkFrom none root va
/-- The lines whose entries the walk reads. -/
def State.walkLines (s : State) (root va : Nat) : List Nat :=
  let next := fun (e : Nat) => if e % 2 = 0 ∨ bits e 14 1 ≠ 0 ∨ bits e 63 48 ≠ 0 then none else some (bits e 47 15 * 2 ^ 15)
  let a1 := root + 16 * bits va 51 41
  match next (s.mem.natAt none a1 8) with
  | none => [a1 / 64]
  | some b =>
    let a2 := b + 16 * bits va 40 31
    match next (s.mem.natAt none a2 8) with
    | none => [a1 / 64, a2 / 64]
    | some c => [a1 / 64, a2 / 64, (c + 16 * bits va 30 21) / 64]
/-- The errors that a walk meets (17 R404, R405). -/
def State.noteWalk (s : State) (root va : Nat) : State := s.noteLines (s.walkLines root va)

def leafFrame (e : Nat) : Nat := bits e 47 21 * 2 ^ 21
def leafPcls (e : Nat) : Nat := bits e 7 6
def leafReservedOk (e : Nat) : Bool := bits e 63 48 == 0 && bits e 20 16 == 0 && bits e 4 2 == 0

/-- LeafUsable of 02 R31. -/
def State.leafUsable (s : State) (e : Nat) (isWrite : Bool) : Bool :=
  e % 2 == 1 && leafReservedOk e && s.mappable (leafFrame e) (leafPcls e) && (!isWrite || bits e 1 1 == 1)
    && leafPcls e != 3 && bits e 5 5 == 1

/-- The leaf a far access uses: the walk's, or the one the translation cache holds until an invalidation (02 R34), freely chosen
where they differ. The cache is filled. -/
def State.leafOf (s : State) (root va : Nat) : Option Nat × State :=
  let vpn := va / 2 ^ 21
  let new := s.walk root va
  match s.clu.tlb.find? (·.1 == vpn) with
  | some (_, old) =>
    if new = some old then (new, s)
    else
      let (b, s) := s.choose
      (if b then some old else new, s)
  | none =>
    let s := s.noteWalk root va
    match new with
    | some e => (some e, s.setClu { s.clu with tlb := (vpn, e) :: s.clu.tlb })
    | none => (none, s)

/-- Physical address of a far access, or none for `FAR_PAGE` (02 R27-R34). Firmware cores address physically (18 R421). The
flag says that writes there are logged. -/
def State.translate (s : State) (va : Nat) (isWrite : Bool) : Option (Nat × Bool) × State :=
  if s.isFw then
    (if s.hasStorage va then some (va, s.mappable (va / 2 ^ 21 * 2 ^ 21) (if isShared va then 3 else 0) && !isShared va) else none, s)
  else if bits va 63 52 ≠ 0 then (none, s)
  else
    match s.ctxOf s.gang.ctx with
    | none => (none, s)
    | some c =>
      match s.leafOf c.root va with
      | (some e, s) => (if s.leafUsable e isWrite then some (leafFrame e + va % 2 ^ 21, true) else none, s)
      | (none, s) => (none, s)

/-! ### Partitions (15 R372) -/

/-- Where an address of a context that runs on several packages lies: here, in another package of the context, or in none of them. A context on one
package has no partitions. -/
inductive Part where
  | own
  | other (p : Nat)
  | outside
deriving DecidableEq, Repr
def State.partOf (s : State) (c : Ctx) (va : Nat) : Part :=
  let p := bits va 51 45
  if c.pkgs.length ≤ 1 ∨ p = s.pkg.cfg.pkg.toNat then .own else if c.pkgs.contains p then .other p else .outside
/-- Of the context of the gang in focus; firmware cores have no context. -/
def State.part (s : State) (va : Nat) : Part :=
  if s.isFw then .own else match s.ctxOf s.gang.ctx with | some c => s.partOf c va | none => .own
/-- The cause of a `FAR_PAGE` (17 R402): 2 where the address names a package that the context does not run on, else translation. -/
def State.pageCause (s : State) (va : Nat) : Nat := if s.part va = .outside then 2 else 0
/-- Where the memory of a region's home package stands. -/
def State.farOf (s : State) (c : Ctx) (base : Nat) : Nat := match s.partOf c base with | .own => 0 | _ => farBase (bits base 51 45)

/-! ### Regions (02 R35-R40) -/

/-- A region entry as a number of 512 bits. -/
def State.regionEntry (s : State) (c : Ctx) (idx : Nat) : Nat := s.mem.natAt none (c.rbase + 64 * idx) 64
structure Region where
  flist : Nat
  len : Nat
  base : Nat
  v : Bool
  atom : Bool
  wr : Bool
  rd : Bool
  gen : Nat
  malformed : Bool
deriving DecidableEq, Repr
def Region.ofNat (e : Nat) : Region :=
  { flist := bits e 239 195 * 8, len := bits e 171 128, base := bits e 115 64, v := bits e 63 63 == 1, atom := bits e 26 26 == 1,
    wr := bits e 25 25 == 1, rd := bits e 24 24 == 1, gen := bits e 23 0,
    malformed := bits e 511 240 != 0 || bits e 194 172 != 0 || bits e 127 116 != 0 || bits e 62 27 != 0 || bits e 171 128 == 0 }
def Region.pages (r : Region) : Nat := (r.base + r.len - 1) / 2 ^ 21 - r.base / 2 ^ 21 + 1

inductive RKind where
  | read | write | atomic
deriving DecidableEq, Repr

/-- The region a handle names, if it is valid and permits the access (first part of RegionCheck, R38). -/
def State.regionOf (s : State) (c : Ctx) (handle : Nat) (k : RKind) : Option Region :=
  let idx := bits handle 39 0
  if idx = 0 ∨ c.rtlim ≤ idx then none
  else
    let r := Region.ofNat (s.regionEntry c idx)
    let ok := r.v && r.gen == bits handle 63 40 && !r.malformed
      && (match k with | .read => r.rd | .write => r.wr | .atomic => r.atom)
    if ok then some r else none
/-- The last lines of RegionCheck: least and greatest byte offset, exact integers. -/
def Region.within (r : Region) (lo hi : Int) (empty : Bool) : Bool :=
  if empty then decide (0 ≤ lo) && decide (lo ≤ r.len) else decide (0 ≤ lo) && decide (hi < r.len)
/-- Frame records of the region (R37), as captured when a command is accepted (R40). -/
def State.frameRecs (s : State) (r : Region) : List W64 :=
  (List.range r.pages).map fun i => BitVec.ofNat 64 (s.mem.natAt none (r.flist + 8 * i) 8)
/-- RegionFrame of R38 on captured records. -/
def frameOf (base : Nat) (recs : List W64) (off : Nat) : Nat :=
  let va := base + off
  leafFrame (nth recs (va / 2 ^ 21 - base / 2 ^ 21) 0).toNat + va % 2 ^ 21
/-- The page record of a byte of a region. -/
def recOf (base : Nat) (recs : List W64) (off : Nat) : Nat := (nth recs ((base + off) / 2 ^ 21 - base / 2 ^ 21) 0).toNat

/-- Lines of the region table and of the region's frame records that a check of a handle reads (02 R37, R38). -/
def State.regionLines (s : State) (c : Ctx) (handle : Nat) : List Nat :=
  let idx := bits handle 39 0
  if idx = 0 ∨ c.rtlim ≤ idx then []
  else
    let r := Region.ofNat (s.regionEntry c idx)
    ((c.rbase + 64 * idx) / 64 :: (if r.v && r.gen == bits handle 63 40 && !r.malformed then linesOf r.flist (8 * r.pages) else [])).eraseDups

/-! ### Accesses (06 R123, R126, R129) -/

/-- The causal frontier of a stream of the core in focus. -/
def State.frontier (s : State) (st : BitVec 4) : List Nat := rget s.core.streams st
def Core.setStream (c : Core) (st : BitVec 4) (l : List Nat) : Core := { c with streams := rset c.streams st l }

/-- The seal protocol is idle and a request arrives (07 R153); a request that arrives while a seal is under way is for the next. -/
def State.requestSeal (s : State) : State :=
  match s.dom.st with
  | .none => { s with dom := { s.dom with st := .requested } }
  | .requested => s
  | _ => { s with dom := { s.dom with again := true } }
/-- The seal barrier is open: no logged access issues outside the gangs (07 R148, R155). -/
def State.barrier (s : State) : Bool := s.dom.st == .barrier || s.dom.st == .closed
/-- A request of a trigger that an `UNSEALED` domain does not have (07 R169). -/
def State.pressSeal (s : State) : State := if s.dom.sealed then s.requestSeal else s

/-- The leaf entry of a page of a context, read in coherence order. -/
def State.ctxLeaf (s : State) (c : Ctx) (va : Nat) : Option Nat :=
  match s.walkFrom none c.root va with
  | some e => if e % 2 = 1 then some e else none
  | none => none
/-- Physical address of a byte of a context. -/
def State.ctxPa (s : State) (c : Ctx) (va : Nat) : Option Nat := (s.ctxLeaf c va).map fun e => leafFrame e + va % 2 ^ 21

/-! #### Egress and input-log areas (03 R71, 07 R153, R159) -/

/-- Bytes that the areas hold: 4 GiB, and the length that CTX_CREATE gave, without the pages that are out of use (17 R408). -/
def Ctx.egressRoom (c : Ctx) : Nat := 2 ^ 32 - 2 ^ 21 * c.egressLost
def Ctx.inlogRoom (c : Ctx) : Nat := c.inlogLen - 2 ^ 21 * c.inlogLost
/-- `n` more bytes do not fit into the egress area of a context (07 R159; log 105). -/
def State.egressNoRoom (s : State) (ctx : BitVec 16) (n : Nat) : Bool :=
  s.dom.sealed && (match s.ctxOf ctx with | some c => decide (c.egressRoom < c.egressUsed + n) | none => false)
/-- They are taken; half the area requests a seal. -/
def State.takeEgress (s : State) (ctx : BitVec 16) (n : Nat) : State :=
  match s.ctxOf ctx with
  | none => s
  | some c =>
    if !s.dom.sealed then s
    else
      let c := { c with egressUsed := c.egressUsed + n }
      let s := s.setCtx c
      if c.egressRoom ≤ 2 * c.egressUsed then s.requestSeal else s
/-- They are free again. -/
def State.freeEgress (s : State) (ctx : BitVec 16) (n : Nat) : State :=
  match s.ctxOf ctx with
  | none => s
  | some c => s.setCtx { c with egressUsed := c.egressUsed - n }
/-- What the areas hold once nothing is held: sends that their peers have not acknowledged. -/
def State.recountEgress (s : State) : State :=
  let un := fun (c : Ctx) => ((s.pkg.peers.filter (·.ctx == c.id)).map fun p => (p.unacked.map fun x => x.2.length).sum).sum
  { s with pkg := { s.pkg with ctxs := s.pkg.ctxs.map fun c => { c with egressUsed := un c } } }

/-- A new access after the given predecessors. -/
def State.newAccess (s : State) (who : Who) (die : Nat) (st : BitVec 4) (preds : List Nat) (done : Bool) : Nat × State :=
  let id := s.mem.nextId
  let a : Access :=
    { id := id, who := who, die := die, stream := st, preds := preds, seen := [], rmw := false, fence := none, mask := 0, fb := none,
      done := done, lost := false, ri := s.dom.ri, vc := [], ctx := s.gang.ctx }
  (id, { s with mem := { s.mem with accs := s.mem.accs ++ [a], nextId := id + 1 } })

/-- An access of the core in focus on stream `st`: its predecessors are the stream's frontier, and it becomes the frontier. -/
def State.issueAccess (s : State) (st : BitVec 4) (done : Bool) : Nat × State :=
  let (id, s) := s.newAccess (.core s.core.id) s.die st (s.frontier st) done
  (id, s.setCore (s.core.setStream st [id]))

def MemSys.acc? (m : MemSys) (id : Nat) : Option Access := m.accs.find? (·.id == id)
def MemSys.updAcc (m : MemSys) (id : Nat) (f : Access → Access) : MemSys :=
  { m with accs := updateAll (fun a => a.id == id) f m.accs }

/-- The access's own events are over as far as die `d` sees: writes applied and delivered there, reads performed, operations
executed, and a fence's wait ended. What it does in other packages is not for this one's dies (06 R134, R137). -/
def MemSys.ownDelivered (m : MemSys) (a : Access) (d : Nat) : Bool :=
  a.done && m.wq.all (fun e => e.acc != a.id || decide (8 ≤ e.home)) && m.rq.all (fun e => e.acc != a.id || e.val.isSome || isFar e.addr)
    && m.ops.all (fun o => o.acc != a.id || decide (8 ≤ o.home)) && m.wlog.all (fun e => e.acc != a.id || e.delivered.contains d)

/-- A write event that has been applied is delivered to die `d`. -/
def MemSys.eventAt (m : MemSys) (e d : Nat) : Bool := m.wlog.all fun x => x.id != e || x.delivered.contains d
/-- Everything that precedes the listed accesses is delivered to die `d` (06 R126-R128): an access marked true with its own events and with what
it has read, one marked false (the maker of a write event that was read) without, unless its reads and its write are one event. An access that
is no longer kept is complete. The fuel is the number of kept accesses; a chain of predecessors is no longer. -/
def MemSys.delivered (m : MemSys) (d : Nat) : Nat → List (Nat × Bool) → Bool
  | 0, l => l.all fun x => (m.acc? x.1).isNone
  | n + 1, l => l.all fun x =>
    match m.acc? x.1 with
    | none => true
    | some a =>
      let reads := if x.2 || a.rmw then a.seen else []
      (!x.2 || m.ownDelivered a d) && reads.all (fun r => m.eventAt r.1 d)
        && MemSys.delivered m d n (a.preds.map (fun i => (i, true)) ++ reads.map fun r => (r.2, false))
/-- No fence of the core holds the access back (06 R131). -/
def MemSys.unfenced (m : MemSys) (a : Access) : Bool :=
  m.accs.all fun f => f.fence.isNone || f.done || f.who != a.who || decide (a.id ≤ f.id) || !f.mask.getLsbD a.stream.toNat
/-- In another package the accesses of one core and stream form one chain; no other causal relation reaches it but through a fence's wait (06 R134). -/
def MemSys.farReady (m : MemSys) (id d : Nat) : Bool :=
  match m.acc? id with
  | none => true
  | some a => m.unfenced a && m.packets.all fun p => farHome p.pkg != d || p.who != a.who || p.stream != a.stream || decide (a.id ≤ p.acc)
/-- The causal predecessors of an access are delivered to die `d`; those of a write event include what a read of the same event returned. -/
def MemSys.predsDelivered (m : MemSys) (id d : Nat) : Bool :=
  if 8 ≤ d then m.farReady id d else m.delivered d m.accs.length [(id, false)]

/-! ### Vector clocks (06 R129) -/

def vcMax (a b : List Nat) : List Nat := (List.range 5).map fun i => max (nth a i 0) (nth b i 0)
/-- The greatest components among the clocks of the listed accesses, of what they read and, where an access has no clock, of its predecessors. -/
def MemSys.clockOf (m : MemSys) : Nat → List Nat → List Nat
  | 0, _ => [0, 0, 0, 0, 0]
  | n + 1, l => l.foldl (fun v i => match m.acc? i with
    | none => v
    | some a => vcMax v (vcMax a.vc (MemSys.clockOf m n ((if a.vc.isEmpty then a.preds else []) ++ a.seen.map (·.2))))) [0, 0, 0, 0, 0]
/-- The write access may take its place among its die's: the component has not reached its limit. -/
def MemSys.clockRoom (m : MemSys) (a : Access) : Bool :=
  !a.vc.isEmpty || (if h : a.die < 5 then m.clk[a.die][a.die] != 0xFFFFFF else false)
/-- The clock that a write access has, or takes with the first of its write events that is applied (log 88). -/
def MemSys.vcOf (m : MemSys) (a : Access) : List Nat :=
  if !a.vc.isEmpty then a.vc
  else if h : a.die < 5 then
    (m.clockOf m.accs.length (a.preds ++ (if a.rmw then a.seen.map (·.2) else []))).set a.die (m.clk[a.die][a.die] + 1).toNat
  else []
/-- A write access is counted as its first write event is applied, in its die's component (log 88); at 0xC0_0000 the die requests a seal. -/
def State.stamp (s : State) (acc : Nat) : State :=
  match s.mem.acc? acc with
  | none => s
  | some a =>
    if !a.vc.isEmpty then s
    else if h : a.die < 5 then
      let k := s.mem.clk[a.die][a.die] + 1
      let v := s.mem.vcOf a
      let m := { s.mem with clk := s.mem.clk.set a.die (s.mem.clk[a.die].set a.die k) }
      let s : State := { s with mem := m.updAcc acc fun x => { x with vc := v } }
      if k = 0xC00000 then s.requestSeal else s
    else s
/-- Every write event of the access stands at die `d`. -/
def MemSys.writesAt (m : MemSys) (id d : Nat) : Bool :=
  m.wq.all (·.acc != id) && m.wlog.all fun e => e.acc != id || e.delivered.contains d
/-- Die `d` has every earlier access of the event's die, and as many of each other die as the event's clock records. -/
def MemSys.clockOk (m : MemSys) (a : Access) (d : Nat) : Bool :=
  let v := m.vcOf a
  m.accs.all fun b => b.id == a.id || b.vc.isEmpty || decide (nth v b.die 0 < nth b.vc b.die 0) || m.writesAt b.id d
/-- Die `d` has heard of an access: its row of clocks follows. -/
def MemSys.hear (m : MemSys) (acc d : Nat) : MemSys :=
  match m.acc? acc with
  | none => m
  | some a => if h : d < 5 ∧ a.die < 5 then
      let k := BitVec.ofNat 24 (nth a.vc a.die 0)
      if m.clk[d][a.die] < k then { m with clk := m.clk.set d (m.clk[d].set a.die k) } else m
    else m

/-- Accesses of a core with a write that is not everywhere yet, or may still come (11 R259). -/
def MemSys.writers (m : MemSys) (who : CoreId) : List Nat :=
  (m.accs.filter fun a => a.who == .core who && (m.wq.any (·.acc == a.id) || m.wlog.any (·.acc == a.id)
    || m.ops.any (fun o => o.acc == a.id && o.op != 0x08 && o.op != 0x15) || (!a.done && m.cmds.any (·.acc == a.id)))).map (·.id)
/-- An access is complete: all its writes are applied and delivered to every die (06 R132), its reads performed, and other packages have acknowledged
what they were sent. -/
def MemSys.complete (m : MemSys) (id : Nat) : Bool :=
  match m.acc? id with
  | none => true
  | some a => ([0, 1, 2, 3, 4].all fun d => m.ownDelivered a d) && m.packets.all (·.acc != id)

/-- The head writes that every die has are merged into the bytes; an access with nothing left that others wait for goes. -/
def MemSys.settleLog : List WEv → Memory → List WEv × Memory
  | [], b => ([], b)
  | e :: l, b =>
    if [0, 1, 2, 3, 4].all e.delivered.contains then MemSys.settleLog l (b.store e.cells.reverse) else (e :: l, b)
def MemSys.settle (m : MemSys) : MemSys :=
  let (l, b) := MemSys.settleLog m.wlog m.bytes
  let m := { m with wlog := l, bytes := b }
  let busy := fun (i : Nat) =>
    l.any (·.acc == i) || m.wq.any (·.acc == i) || m.rq.any (·.acc == i) || m.cmds.any (·.acc == i) || m.ops.any (·.acc == i)
      || m.reps.any (·.acc == i)
  let keep := fun (a : Access) => !a.done || busy a.id || a.seen.any (fun r => l.any (·.id == r.1)) || (a.preds ++ a.seen.map (·.2)).any fun i => m.accs.any (·.id == i)
  { m with accs := m.accs.filter keep }
/-- A store that every die has at once: of an agent of the package that no other observer can overtake (log 90). -/
def MemSys.putNow (m : MemSys) (a : Nat) (l : List Byte) : MemSys :=
  let e : WEv :=
    { id := m.nextId, acc := 0, src := .bytes (l.mapIdx fun i b => (a + i, b)), line := a / 64 * 64, logged := false, home := homeOf a,
      delivered := [0, 1, 2, 3, 4] }
  ({ m with wlog := m.wlog ++ [e], nextId := m.nextId + 1 } : MemSys).settle

/-- A write of the shared window, which the CXL memory has at once (06 R142), as a write event of access `acc`: the dies have it where what precedes the
access has come to them (R127). -/
def MemSys.putWindow (m : MemSys) (acc a : Nat) (l : List Byte) : MemSys :=
  let at_ := ((List.range 5).filter fun d => d == 4 || m.predsDelivered acc d)
  let e : WEv :=
    { id := m.nextId, acc := acc, src := .bytes (l.mapIdx fun i b => (a + i, b)), line := a / 64 * 64, logged := false, home := homeOf a,
      delivered := at_ }
  ({ m with wlog := m.wlog ++ [e], nextId := m.nextId + 1 } : MemSys).settle

/-! ### Events -/

/-- The plane that a die's next packet is dealt to: the live planes in turn (15 R374, R375). -/
def State.dealPlane (s : State) (d : Nat) : Nat :=
  nth s.dom.planes ((if h : d < 5 then s.mem.deal[d] else 0) % max 1 s.dom.planes.length) 0
/-- The die whose gateway owns a plane (01 R17). -/
def planeDie (p : Nat) : Nat := p / 2
/-- The packet of an event with a home in another package. -/
def State.packetOf (s : State) (ev acc home : Nat) : Option Packet :=
  if home < 8 then none
  else (s.mem.acc? acc).map fun a =>
    { ev := ev, acc := acc, who := a.who, stream := a.stream, pkg := home - 8, plane := s.dealPlane a.die, seq := s.mem.farSeq }
/-- It leaves. -/
def State.packet (s : State) (ev acc home : Nat) : State :=
  let l := (s.packetOf ev acc home).toList
  let die := match s.mem.acc? acc with | some a => a.die | none => 5
  { s with mem := { s.mem with packets := s.mem.packets ++ l, farSeq := s.mem.farSeq + l.length,
                               deal := Vector.ofFn fun i => s.mem.deal[i] + (if i.val = die then l.length else 0) } }
/-- The other package has acknowledged an event. -/
def MemSys.acked (m : MemSys) (ev : Nat) : MemSys := { m with packets := m.packets.filter (·.ev != ev) }

/-- Queues a write event. -/
def State.addWrite (s : State) (acc : Nat) (src : WSrc) (line : Nat) (logged : Bool) (home : Nat) : State :=
  let e : WEv := { id := s.mem.nextId, acc := acc, src := src, line := line, logged := logged, home := home, delivered := [] }
  ({ s with mem := { s.mem with wq := s.mem.wq ++ [e], nextId := s.mem.nextId + 1 } } : State).packet e.id acc home
/-- Queues a read event. -/
def State.addRead (s : State) (acc addr n : Nat) (dst : RDst) : State :=
  let e : REv := { id := s.mem.nextId, acc := acc, addr := addr, n := n, dst := dst, val := none }
  ({ s with mem := { s.mem with rq := s.mem.rq ++ [e], nextId := s.mem.nextId + 1 } } : State).packet e.id acc (homeOf addr)
def cellsAt (a : Nat) (l : List Byte) : List Host.Cell := l.mapIdx fun i b => (a + i, b)

/-! ### Logged writes (07 R149-R152) -/

/-- The undo log of a line or SRAM variable: stack number, or 12 for the second tier's (R151, R152, 18 R428). -/
def State.undoIdx (s : State) (a : Nat) : Nat :=
  if isSram a then
    let d := homeOf a
    if d < 4 then (if s.pkg.clk.full then 3 * d else 0) else if s.pkg.cfg.tierGib ≠ 0 then 12 else 0
  else if isHbm a then a / 2 ^ 36 else 12
def State.undoLog (s : State) (k : Nat) : List Undo := if h : k < 13 then s.mem.undo[k] else []
/-- Entries an undo log holds (03 R67, R70). -/
def State.undoCap (s : State) (k : Nat) : Nat :=
  if k < 12 then s.pkg.cfg.undoGib * 2 ^ 30 / 128 else s.tierBytes / 32 / 128

/-! #### Undo entries (R152) -/

/-- The entry of a line or of a variable, with its check. -/
def Undo.of (sync : Bool) (addr : Nat) (otag : Byte) (old : Nat) (ri : W32) (seq : Nat) (bad : Bool) : Undo :=
  let b : BitVec 992 := BitVec.ofNat 992 (old % 2 ^ 512 + addr % 2 ^ 48 * 2 ^ 864 + sync.toNat * 2 ^ 918 + otag.toNat * 2 ^ 920 + seq % 2 ^ 32 * 2 ^ 928
    + ri.toNat * 2 ^ 960)
  { body := b, chk := crc32c (toBytes 124 b.toNat), bad := bad, lost := false }
def Undo.ri (u : Undo) : W32 := BitVec.ofNat 32 (bits u.body.toNat 991 960)
def Undo.seq (u : Undo) : Nat := bits u.body.toNat 959 928
def Undo.otag (u : Undo) : Byte := BitVec.ofNat 8 (bits u.body.toNat 927 920)
/-- KIND: 0 a line, 1 a variable, 2 and 3 reserved. -/
def Undo.kind (u : Undo) : Nat := bits u.body.toNat 919 918
/-- Where the old value goes back: the line, or the variable of the die and index that ADDR holds. -/
def Undo.addr (u : Undo) : Nat :=
  let a := bits u.body.toNat 911 864
  if u.kind = 1 then syncAt (bits a 26 24) (bits a 23 0) else a
def Undo.old (u : Undo) : List Byte := toBytes (if u.kind = 1 then 8 else 64) (bits u.body.toNat 511 0)
/-- The entry can be replayed: no error struck it, CHK is right and KIND is not reserved. -/
def Undo.ok (u : Undo) : Bool := !u.lost && u.chk == crc32c (toBytes 124 u.body.toNat) && decide (u.kind < 2)
/-- The 128 bytes of the entry, and the entry that 128 bytes make. -/
def Undo.image (u : Undo) : List Byte := toBytes 124 u.body.toNat ++ toBytes 4 u.chk.toNat
def Undo.withByte (u : Undo) (i : Nat) (b : Byte) : Undo :=
  let l := u.image.set i b
  { u with body := BitVec.ofNat 992 (ofBytes (l.take 124)), chk := BitVec.ofNat 32 (ofBytes (l.drop 124)) }

/-! #### Tags (R149, R150) -/

/-- The RI tag of line number `n`, if listed. -/
def MemSys.tag (m : MemSys) (n : Nat) : Option Byte := (m.tags.find? (·.1 == n)).map (·.2)
/-- The tag of a line: one that is not listed lies as far behind the interval as the sweep lets it (log 3). -/
def MemSys.tagOf (m : MemSys) (n : Nat) (ri : W32) : Byte := (m.tag n).getD (BitVec.ofNat 8 (ri.toNat + 128))
def MemSys.setTag (m : MemSys) (n : Nat) (t : Option Byte) (ri : W32) : MemSys :=
  let rest := m.tags.filter (·.1 != n)
  let sw := m.swept.filter (·.1 != n)
  match t with
  | some b => { m with tags := (n, b) :: rest, swept := if m.swept.any (·.1 == n) then m.swept else (n, ri) :: sw }
  | none => { m with tags := rest, swept := sw }
/-- The line or variable of a write needs a new undo entry. -/
def State.needsUndo (s : State) (a : Nat) (ri : W32) : Bool :=
  if isSram a then !s.mem.syncBit.contains a else s.mem.tag (a / 64) != some (BitVec.ofNat 8 ri.toNat)
/-- A write must stall because its undo log is full (R158): the lines and variables are of one log. -/
def State.undoFullFor (s : State) (l : List Nat) (ri : W32) : Bool :=
  let k := s.undoIdx (nth l 0 0)
  let n := (l.filter fun a => s.needsUndo a ri).length
  s.dom.sealed && decide (0 < n) && decide (s.undoCap k < (s.undoLog k).length + n)
def State.undoFull (s : State) (a : Nat) (ri : W32) : Bool := s.undoFullFor [a] ri
/-- The undo logs have room for writes of all these lines. -/
def State.roomFor (s : State) (l : List Nat) (ri : W32) : Bool :=
  (List.range 13).all fun k => !s.undoFullFor ((l.filter fun a => s.undoIdx a == k).eraseDups) ri

/-- Records the old value of the line or variable at `a` if its interval has not yet (R149, R151). At half the log a seal is
requested (R153). -/
def State.logOld (s : State) (a : Nat) (ri : W32) : State :=
  if !s.dom.sealed || !s.needsUndo a ri then s
  else
    let k := s.undoIdx a
    let sram := isSram a
    let at_ := if sram then a else a / 64 * 64
    let u := Undo.of sram (if sram then homeOf a * 2 ^ 24 + (a - syncBase) / 8 % 32768 else at_) (if sram then 0 else s.mem.tagOf (a / 64) ri)
      (s.mem.natAt none at_ (if sram then 8 else 64)) ri (s.undoLog k).length (!sram && s.mem.bad (at_ / 64))
    let m := if h : k < 13 then { s.mem with undo := s.mem.undo.set k (s.mem.undo[k] ++ [u]) } else s.mem
    let m := if sram then { m with syncBit := a :: m.syncBit } else m.setTag (a / 64) (some (BitVec.ofNat 8 ri.toNat)) ri
    let s : State := { s with mem := m }
    if s.undoCap k ≤ 2 * (s.undoLog k).length ∧ 2 * ((s.undoLog k).length - 1) < s.undoCap k then s.requestSeal else s
/-- What a write event's undo entries are of: its line, or each variable that it covers. -/
def WEv.undoOf (e : WEv) (cells : List Host.Cell) : List Nat :=
  if isSram e.line then (cells.map fun c => c.1 / 8 * 8).eraseDups else [e.line]

/-! #### The reservations as bytes (03 R67-R70) -/

/-- The log, entry and byte of a physical address in an undo log. -/
def State.undoPlace (s : State) (a : Nat) : Option (Nat × Nat × Nat) :=
  let k := if isHbm a then a / 2 ^ 36 else 12
  let b := s.undoBase k
  if (isHbm a || (isTier2 a && decide (a < tier2Base + s.tierBytes))) && decide (b ≤ a) then some (k, (a - b) / 128, (a - b) % 128) else none
/-- The line of the second tier whose tag stands at a physical address. -/
def State.tagPlace (s : State) (a : Nat) : Option Nat :=
  let b := s.undoBase 12 - s.tierBytes / 64
  if isTier2 a && decide (b ≤ a) && decide (a < s.undoBase 12) then some (tier2Base / 64 + (a - b)) else none
/-- A reservation of a stack or of the second tier (03 R67, R70, 18 R428). -/
def State.reserved (s : State) (a : Nat) : Bool :=
  if isHbm a then decide (s.hbmUsable (a / 2 ^ 36) ≤ a % 2 ^ 36) else isTier2 a && decide (s.tierUsable ≤ a - tier2Base)
/-- A store of a firmware core into an undo log or the tag table; over what the device keeps elsewhere in a reservation the byte stands as it is stored. -/
def State.pokeByte (s : State) (c : Host.Cell) : State :=
  match s.undoPlace c.1, s.tagPlace c.1 with
  | some (k, i, j), _ => if h : k < 13 then
      { s with mem := { s.mem with undo := s.mem.undo.set k (s.mem.undo[k].mapIdx fun n u => if n = i then u.withByte j c.2 else u) } } else s
  | _, some n => { s with mem := s.mem.setTag n (some c.2) s.dom.ri }
  | _, _ => if s.reserved c.1 then { s with pkg := { s.pkg with poked := c.1 :: s.pkg.poked.filter (· != c.1) } } else s

/-- Applies a write event at its home (06 R124): its access is counted, the old value is logged, the event takes its place in coherence order,
delivered to its home die. A write of a whole line clears its poison; a partial write leaves it (17 R406). One of another package is applied and delivered there,
and its acknowledgement comes back (06 R131, 15 R374). -/
def State.applyWrite (s : State) (e : WEv) (cells : List Host.Cell) (ri : W32) : State :=
  if 8 ≤ e.home then { s with mem := (s.mem.acked e.id).settle }
  else
  let s := s.stamp e.acc
  let s := if e.logged then (if cells = [] then s else (e.undoOf cells).foldl (fun s a => s.logOld a ri) s) else cells.foldl State.pokeByte s
  let whole := decide (64 ≤ cells.length)
  let m := s.mem.hear e.acc e.home
  let m := { m with wlog := m.wlog ++ [{ e with src := .bytes cells, delivered := [e.home] }],
                    poison := if whole then m.poison.filter (· != e.line / 64) else m.poison }
  { s with mem := m.settle }

/-! ### Flag barriers (05 R117, R118) -/

/-- Arrive(fb). -/
def fbArrive (w : W64) : W64 :=
  let exp := if bits w.toNat 15 0 = 0 then 65536 else bits w.toNat 15 0
  let cnt := bits w.toNat 31 16 + 1
  let ph := bits w.toNat 32 32
  if cnt = exp then BitVec.ofNat 64 (bits w.toNat 15 0 + (1 - ph) * 2 ^ 32)
  else BitVec.ofNat 64 (bits w.toNat 15 0 + cnt % 2 ^ 16 * 2 ^ 16 + ph * 2 ^ 32)
def fbPh (w : W64) : Bool := w.getLsbD 32
/-- An engine arrival of a core. -/
def State.arriveAt (s : State) (who : CoreId) (fb : Option (BitVec 5)) : State :=
  match fb with
  | none => s
  | some n =>
    let t := s.focusId who
    if t.core.id = who then (t.setCore (t.core.setFb n (fbArrive (rget t.core.fb n)))).focusId s.core.id else s

/-- The current phase's commands touch the stacks of these lines (08 R186). -/
def State.touch (s : State) (l : List Nat) : State :=
  s.setGang { s.gang with ctlsOut := (s.gang.ctlsOut ++ (l.filter isHbm).map (· / 2 ^ 36)).eraseDups }

/-- A command of gang `g` signs off (08 R186). -/
def State.signOffCmd (s : State) (g id : Nat) : State :=
  s.mapGangs fun x => if x.gid == g then { x with cmdsOut := x.cmdsOut.filter (· != id) } else x

end Sys2Proof.Machine
end

