-- ==== Sys2Proof/Machine/Sequence.lean ====
section
/-! DEFINITION. The sequencer: expansion of segments (09 R205-R210), loads' segment checks (R223), loop and transfer bookkeeping
(11 R247-R249), selection of successors, sign-off (08 R184, R185; 13 R320; 14 R348). -/

namespace Sys2Proof.Machine

/-! ### Expansion -/

def noSeg : Nat := 0xFFFFFFFF

/-- The end word's predicate of an `ENDSEL` (R206). -/
def endSelOf (w : W16) : Option PRef :=
  if w.toNat / 16 = 0xE01 then some ⟨false, fieldAt w.toNat 0 4⟩
  else if w.toNat / 16 = 0xE03 then some ⟨true, fieldAt w.toNat 0 4⟩ else none

/-- Code words taken so far: entries (newest first), pending idle count and stamp, the index of the next word, and that of the first word of the entry to
come, its `GAP` and `STAMP` words included. -/
structure Exp where
  ents : List Entry
  gap : Nat
  stamp : Option (BitVec 12)
  c : Nat
  from_ : Nat
  sel : Option PRef
deriving DecidableEq, Repr

/-- Expansion of code words (R206, R208, R210); `s0` is the cycle called s. A literal takes 24 further words. -/
def expandWords (dict : List W384) (dbad : List Nat) (poison : List Nat) (s0 : Nat) : Nat → List W16 → Exp → Exp
  | 0, _, x => x
  | _, [], x => x
  | n + 1, w :: l, x =>
    let k := w.toNat
    let mk := fun (b : W384) (len : Nat) (bad : Bool) =>
      ({ bundle := b, gap := x.gap, stamp := x.stamp, ready := s0 + 10 + (x.c + len - 1) / 4,
         poisoned := bad || poison.any fun p => decide (x.from_ ≤ p) && decide (p < x.c + len) } : Entry)
    if k < 0x1000 then
      expandWords dict dbad poison s0 n l { ents := mk (nth dict k 0) 1 (dbad.contains k) :: x.ents, gap := 0, stamp := none, c := x.c + 1, from_ := x.c + 1, sel := none }
    else if k / 0x1000 = 0xC then expandWords dict dbad poison s0 n l { x with gap := x.gap + k % 0x1000 + 1, c := x.c + 1 }
    else if k / 0x1000 = 0xD then expandWords dict dbad poison s0 n l { x with stamp := some (fieldAt k 0 12), c := x.c + 1 }
    else if k = 0xFFFF then
      let lit := (l.take 24).zipIdx.foldl (fun a p => a + p.1.toNat * 2 ^ (16 * p.2)) 0
      expandWords dict dbad poison s0 n (l.drop 24)
        { ents := mk (BitVec.ofNat 384 lit) 25 false :: x.ents, gap := 0, stamp := none, c := x.c + 25, from_ := x.c + 25, sel := none }
    else { x with sel := endSelOf w }

/-! ### Code lines (09 R204, 17 R407, R408) -/

/-- Lines of 64 bytes, by their place in the object, that the bytes from `at_` on touch. -/
def codeLines (at_ n : Nat) : List Nat := (List.range ((at_ + n + 63) / 64 - at_ / 64)).map fun i => at_ / 64 + i
/-- Code words of a segment, and bundles of a dictionary at offset `off`, that lie in lines of the list. -/
def Segment.badWords (g : Segment) (bad : List Nat) : List Nat :=
  if bad = [] then [] else (List.range g.words.length).filter fun i => bad.contains ((g.off + 64 + 2 * i) / 64)
def badBundles (off n : Nat) (bad : List Nat) : List Nat :=
  if bad = [] then [] else (List.range n).filter fun i => (codeLines (off + 48 * i) 48).any bad.contains
/-- The spans of code words that form the entries, from the words that belong to an entry at `b` on, with the dictionary bundle each names. -/
def entrySpans : Nat → List W16 → Nat → Nat → List (Nat × Nat × Option Nat)
  | 0, _, _, _ => []
  | _, [], _, _ => []
  | n + 1, w :: l, b, c =>
    if w.toNat < 0x1000 then (b, c + 1 - b, some w.toNat) :: entrySpans n l (c + 1) (c + 1)
    else if w.toNat = 0xFFFF then (b, c + 25 - b, none) :: entrySpans n (l.drop 24) (c + 25) (c + 25)
    else if w.toNat / 0x1000 = 0xC ∨ w.toNat / 0x1000 = 0xD then entrySpans n l b (c + 1)
    else []
/-- The lines that entry `e` of a segment is built from, for rank `r`. -/
def CodeObj.entryLines (o : CodeObj) (r seg e : Nat) : List Nat :=
  match o.segs[seg]? with
  | none => []
  | some g =>
    match (entrySpans g.words.length g.words 0 0)[e]? with
    | none => []
    | some (c, n, k) =>
      (codeLines (g.off + 64 + 2 * c) (2 * n) ++ (match k with
        | some j => codeLines (nth o.dictOffs (nth o.rmap r 0) 0 + 48 * j) 48 | none => [])).eraseDups
/-- The lines that an expansion of a segment reads. -/
def CodeObj.readLines (o : CodeObj) (r seg : Nat) : List Nat :=
  match o.segs[seg]? with
  | none => []
  | some g =>
    let names := (entrySpans g.words.length g.words 0 0).filterMap (·.2.2)
    (codeLines (g.off + 64) (2 * g.words.length) ++ names.flatMap fun j => codeLines (nth o.dictOffs (nth o.rmap r 0) 0 + 48 * j) 48).eraseDups
/-- A code line as an address: the number of its object's code-table entry and its place in the object (log 41). -/
def codeAddr (o : CodeObj) (line : Nat) : Nat := o.idx * 2 ^ 32 + 64 * line

/-- Segment `seg` of the gang's object expanded for rank `r` from cycle `s0` (R210), by a core whose code memories have errors in the lines `bad`. -/
def CodeObj.expand (o : CodeObj) (bad : List Nat) (r seg s0 : Nat) : Option Half :=
  match o.segs[seg]? with
  | none => none
  | some g =>
    let d := nth o.rmap r 0
    let dict := nth o.dicts d []
    let x := expandWords dict (badBundles (nth o.dictOffs d 0) dict.length bad) (g.badWords bad) s0 g.words.length g.words
      { ents := [], gap := 0, stamp := none, c := 0, from_ := 0, sel := none }
    some { seg := seg, entries := x.ents.reverse, gEnd := x.gap, selPos := g.selPos, next0 := g.next0, next1 := g.next1,
           endSel := x.sel, done := s0 + 9 + x.c / 4 }
/-- The core in focus has read a segment for expansion: each line is counted, and those in error are noted. -/
def State.readCode (s : State) (seg : Nat) : State :=
  let o := s.gang.code
  let l := o.readLines s.rank seg
  let s : State := { s with pkg := { s.pkg with codeReads := (l.map fun n => (codeAddr o n, s.clu.phys)).foldl (bump 1) s.pkg.codeReads } }
  s.setCore { s.core with codeHit := (s.core.codeHit ++ l.filter s.core.codeBad.contains).eraseDups }

def Half.nent (h : Half) : Nat := h.entries.length
/-- g(e) of R248; g(NENT) is the trailing idle count. -/
def Half.gap (h : Half) (e : Nat) : Nat := match h.entries[e]? with | some x => x.gap | none => h.gEnd

/-! ### Segment checks (R223, 11 R249, R252) -/

def cOf (w : W384) : Instr := match decodeSlotOp w .c with | .ok p => p.op | .error _ => .nop
def isTransfer : Instr → Bool
  | .br _ | .bri _ | .call _ | .ret | .brkLoop _ => true
  | _ => false
def loopEnd : Instr → Option Nat
  | .loop _ e _ | .loopr _ e _ => some e.toNat
  | _ => none
def loopRing : Instr → Nat
  | .loop _ _ k | .loopr _ _ k => k.toNat
  | _ => 0
/-- Frame cycles from the issue of entry `e` to that of entry `j > e`, in code order. -/
def Half.dist (h : Half) (e j : Nat) : Nat := ((List.range (j - e)).map fun i => 1 + h.gap (e + 1 + i)).sum
/-- The checks of entry `e` on its place in the segment: operands, delay slots, loop bodies nested. -/
def Half.entryOk (h : Half) (nrot e : Nat) : Bool :=
  let i := cOf (nth h.entries e ⟨0, 0, none, 0, false⟩).bundle
  let n := h.nent
  let tgt := match i with | .bri t | .call t | .brkLoop t => decide (t.toNat ≤ n) | _ => true
  let room := !isTransfer i || decide (2 ≤ h.dist e (n - 1) + h.gEnd)
  let inDelay := (List.range e).any fun j =>
    isTransfer (cOf (nth h.entries j ⟨0, 0, none, 0, false⟩).bundle) && decide (h.dist j e ≤ 2)
  let delay := !((isTransfer i || (loopEnd i).isSome) && inDelay)
  let nested := match loopEnd i with
    | none => true
    | some b => decide (e + 1 ≤ b) && decide (b < n) && decide (loopRing i ≤ nrot) &&
      ((List.range n).all fun j => j == e || match loopEnd (cOf (nth h.entries j ⟨0, 0, none, 0, false⟩).bundle) with
        | none => true
        | some d => decide (b < j + 1) || decide (d < e + 1) || (decide (e + 1 ≤ j) && decide (d ≤ b)) || (decide (j + 1 ≤ e) && decide (b ≤ d)))
  tgt && room && delay && nested

/-! ### The next entry (11 R248) -/

/-- Loop bookkeeping of an entry that issues: next in sequence, the loop stack, and whether ROTC advances. The first level is the
innermost. -/
def loopNext (loops : List Level) (e : Nat) : Nat × List Level × Bool :=
  match loops with
  | [] => (e + 1, [], false)
  | lv :: rest =>
    if e = lv.stop.toNat then
      if (lv.iter + 1).toNat < lv.trip.toNat then (lv.start.toNat, { lv with iter := lv.iter + 1 } :: rest, lv.ring)
      else (e + 1, rest, lv.ring)
    else (e + 1, loops, false)

/-- The level that an entry of a hardware loop pushes. -/
def newLevel (n ent : Nat) (e : BitVec 10) (ring : BitVec 8) : Level :=
  { trip := BitVec.ofNat 32 (min n 0xFFFFFFFF), iter := 0, start := BitVec.ofNat 10 (ent + 1), stop := e, ring := ring != 0 }
/-- The C-slot operation of an entry of the core in focus, as its guard stands now. -/
def State.cOpAt (s : State) (e : Nat) : Instr :=
  match decodeSlotOp (nth s.core.cur.entries e ⟨0, 0, none, 0, false⟩).bundle .c with
  | .ok p => if s.guardTrue p.guard then p.op else .nop
  | .error _ => .nop
/-- The entry that the target of a transfer issued at entry `e` replaces; NENT if none is replaced (R251). Cycles count from the transfer; the delay is 3.
`i` is what entry `e` does to the loops: a loop opens a level, and a taken transfer in a delay slot, which only a loop-back can bring there, takes the place of
the one before it. Guards and counts in the delay slots are taken as they stand at the transfer (log 108). -/
def State.replaced (s : State) : Nat → List Level → Nat → Instr → Nat → Nat
  | 0, _, _, _, _ => s.core.cur.nent
  | n + 1, loops, e, i, f =>
    let h := s.core.cur
    if isTransfer i then h.nent
    else
      let loops := match i with
        | .loop k b r => newLevel k.toNat e b r :: loops
        | .loopr c b r => if s.getC c = 0 then loops else newLevel (s.getC c).toNat e b r :: loops
        | _ => loops
      let (sq, loops', _) := loopNext loops e
      let sq := match i with | .loopr c b _ => if s.getC c = 0 then b.toNat + 1 else sq | _ => sq
      let c := f + 1 + h.gap sq
      if 3 ≤ c then min sq h.nent else if h.nent ≤ sq then h.nent else s.replaced n loops' sq (s.cOpAt sq) c

/-- The cycle in which the core's chain counts: frame cycles in a timed chain, core cycles in a slack chain (08 R194). -/
def State.fcyc (s : State) : Nat := if s.core.run == .timed then s.gang.sfc.toNat else s.gang.now

/-- Segment that follows by the end word and predicates as they stand (R206, R210). -/
def State.succSeg (s : State) (h : Half) : Nat :=
  match h.endSel with
  | none => h.next0
  | some p => if s.getPRef p then h.next1 else h.next0
/-- Selection and prefetch of the successor at this cycle (R210). -/
def State.selectSucc (s : State) : State :=
  let n := s.succSeg s.core.cur
  let half := if n = noSeg then none else s.gang.code.expand s.core.codeBad s.rank n s.gang.now
  let s := if n = noSeg then s else s.readCode n
  s.setCore { s.core with sel := some s.gang.now, idle := half.toList }

/-- The segment ends at cycle `c`: every loop level clears (R249) and execution passes to the successor (R208, R211), or the chain
ends at `c`. -/
def State.endSegment (s : State) (c : Nat) : State :=
  let s := if s.core.sel.isNone then s.selectSucc else s
  match s.core.idle with
  | h :: _ =>
    s.setCore { s.core with cur := h, idle := [], seg := h.seg, ent := 0, due := c + h.gap 0, sel := none, loops := [],
                            xfer := none, rotAt := none, jump := none }
  | [] => s.setCore { s.core with ent := s.core.cur.nent, due := c, loops := [], xfer := none, rotAt := none, jump := none }

/-- Entry `e` holds a `BREAK`. -/
def Half.breaks (h : Half) (e : Nat) : Bool :=
  match cOf (nth h.entries e ⟨0, 0, none, 0, false⟩).bundle with | .brkLoop _ => true | _ => false
/-- OnIssue of R248, after entry `ent` of the core in focus issued at cycle `f`. A taken `BREAK` has left its level; a `LOOPR` of count 0 is followed by the
entry after its END, and where it is itself the END of a level it counts as every issue of that entry does (10 R242). -/
def State.onIssue (s : State) (f : Nat) : State :=
  let e := s.core.ent
  let h := s.core.cur
  let s := if e = h.selPos ∧ s.core.sel.isNone then s.selectSucc else s
  let (sq, loops, adv) :=
    match s.core.jump with
    | some j => if h.breaks e then (j, s.core.loops, false) else let (_, l, adv) := loopNext s.core.loops e; (j, l, adv)
    | none => loopNext s.core.loops e
  let rotc := if adv then s.core.rotc + 1 else s.core.rotc
  let s := s.setCore { s.core with loops := loops, rotc := rotc, jump := none, last := f }
  let c := f + 1 + h.gap sq
  let go := fun (s : State) (sq c : Nat) =>
    if h.nent ≤ sq then s.endSegment c else s.setCore { s.core with ent := sq, due := c }
  match s.core.xfer with
  | some (t, d) =>
    if d ≤ c then
      let rotc := match s.core.rotAt with | some r => r | none => s.core.rotc
      go (s.setCore { s.core with xfer := none, rotAt := none, rotc := rotc }) t (d + h.gap t)
    else go s sq c
  | none => go s sq c

/-- A bundle that signs off counts its loop's iteration where it is the loop's END (10 R242); `loops` are the levels at its issue. -/
def State.onSign (s : State) (loops : List Level) (e : Nat) : State :=
  if (loopNext loops e).2.2 then s.setCore { s.core with rotc := s.core.rotc + 1 } else s

/-! ### Sign-off (08 R184, R185) -/

def Gang.table (g : Gang) (t : Bool) : List Desc := if t then g.t1 else g.t0
/-- The current descriptor. -/
def Gang.cur (g : Gang) : Option Desc := (g.table g.active)[g.desc.toNat]?
/-- The table and index a successor field names; none for END (R180). -/
def Gang.succOf (g : Gang) (f : BitVec 10) : Option (Bool × BitVec 8) :=
  if f.getLsbD 9 then none else some (xor g.active (f.getLsbD 8), f.setWidth 8)
/-- First segments of rank `r` in a descriptor: timed and slack chain (R181). -/
def Gang.chains (g : Gang) (d : Desc) (r : Nat) : Nat × Nat := nth g.code.rst (d.segtab.toNat + r) (noSeg, noSeg)
def Gang.firstSeg (g : Gang) (r : Nat) (p : Bool × BitVec 8) : Nat :=
  match (g.table p.1)[p.2.toNat]? with
  | none => noSeg
  | some d => let (t, k) := g.chains d r; if t = noSeg then k else t

/-- The halves expanded after sign-off at cycle `s0`, SUCC0 first, and the cycle at which the core arrives (R185, R210). -/
def Gang.signHalves (g : Gang) (bad : List Nat) (r s0 : Nat) : List Half × Nat :=
  match g.cur with
  | none => ([], s0 + 1)
  | some d =>
    let segOf := fun (p : Option (Bool × BitVec 8)) => match p with | none => noSeg | some q => g.firstSeg r q
    let p0 := g.succOf d.succ0
    let p1 := g.succOf d.succ1
    let h0 := if segOf p0 = noSeg then none else g.code.expand bad r (segOf p0) s0
    let s1 := match h0 with | some h => h.done | none => s0
    let h1 := if segOf p1 = noSeg ∨ p1 = p0 then none else g.code.expand bad r (segOf p1) s1
    let hs := h0.toList ++ h1.toList
    (hs, match hs.reverse with | h :: _ => h.done | [] => s0 + 1)

/-- MXU busy (13 R320): a routine unended, a write of an `MDRAIN` or `MGIDX` to come, or an open chain. -/
def Mxu.busy (m : Mxu) : Bool := m.q ≠ [] || m.drains ≠ [] || m.gathers ≠ [] || m.chain
/-- The core has an `LX` outstanding (14 R348). -/
def State.lxBusy (s : State) : Bool := s.clu.lxs.any (·.rank == s.rank)
/-- The ILLEGAL_BUNDLE cause of a sign-off now, if any. -/
def State.signCause (s : State) : Option Nat := if s.core.mxu.busy then some 8 else if s.lxBusy then some 12 else none

/-- The core in focus ends its phase execution with predicate bit `b`; none is the identity of the combination. -/
def State.signOff (s : State) (b : Option Bool) : State :=
  let (hs, t) := s.gang.signHalves s.core.codeBad s.rank s.gang.now
  let s := hs.foldl (fun s h => s.readCode h.seg) s
  s.setCore { s.core with run := .signed, offTimed := s.core.run == .timed, bit := b, idle := hs, due := t, loops := [], xfer := none, rotAt := none, jump := none }

end Sys2Proof.Machine
end

