-- ==== Sys2Proof/Machine/SysRegs.lean ====
section
/-! DEFINITION. Reading system registers: those of every core (10 R245) and the privileged ones of a die (18 R422-R425). -/

namespace Sys2Proof.Machine

/-- The firmware registers of die `d`. -/
def State.fwd (s : State) (d : Nat) : FwDie := if h : d < 5 then s.fw[d] else FwDie.reset
def State.setFwd (s : State) (d : Nat) (f : FwDie) : State := if h : d < 5 then { s with fw := s.fw.set d f } else s

/-- Controller, pseudo-channel and logical lane that PHYSEL selects; none where it selects nothing (R425). -/
def physelOf (w : W64) : Option (Nat × Nat × Nat) :=
  let (c, p, l) := (bits w.toNat 1 0, bits w.toNat 15 8, bits w.toNat 20 16)
  if c < 3 ∧ p < 160 ∧ l < 18 then some (c, p, l) else none
def physChan (w : W64) : Option (Nat × Nat) :=
  let (c, p) := (bits w.toNat 1 0, bits w.toNat 15 8)
  if c < 3 ∧ p < 160 then some (c, p) else none
/-- A lane's registers: PHYS its own number and both delays 64 at reset. -/
def FwDie.lane (f : FwDie) (k : Nat × Nat × Nat) : Lane :=
  match f.lanes.find? (·.1 == k) with
  | some (_, l) => l
  | none => { phys := BitVec.ofNat 5 k.2.2, wdly := 64, rdly := 64 }
/-- PHYLANE as it reads. -/
def FwDie.phylane (f : FwDie) : W64 :=
  match physelOf f.physel with
  | none => 0
  | some k =>
    let l := f.lane k
    let fail := f.fails.contains (k.1, k.2.1, l.phys.toNat)
    BitVec.ofNat 64 (l.rdly.toNat + l.wdly.toNat * 2 ^ 8 + l.phys.toNat * 2 ^ 16 + fail.toNat * 2 ^ 24)

/-- CLKCTL: the stored target, REQ and CANCEL, and the live step bits (R422, R430). Right after cold reset the clusters run at the bring-up clock: bit 18 reads 1,
where the Reset column gives 0 (log 96). -/
def State.clkctl (s : State) (f : FwDie) : W64 :=
  let live := match s.pkg.clk.step with | none => 2 ^ 18 | some k => k.toNat * 2 ^ 16
  BitVec.ofNat 64 (f.clkctl.toNat % 1024 + live)

/-- From the start of a seal's barrier to its commit Chothes issues no logged write (07 R155): a firmware core's operation on a logged variable waits. -/
def State.fwHeld (s : State) (op : BitVec 6) : Bool :=
  s.barrier && op != 0x08 && op != 0x15 && decide (64 ≤ bits (s.fwd s.die).stgt.toNat 23 0)
/-- FWTIMER as it reads: the microseconds still to come (R422). -/
def FwDie.remaining (f : FwDie) : W64 := BitVec.ofNat 64 (f.timer.toNat - (f.time - f.timerAt).toNat / 1000)
/-- A privileged register of die `d`; a number that names none reads 0. -/
def State.fwRead (s : State) (d r : Nat) : W64 :=
  let f := s.fwd d
  let hub := d == 4
  match r with
  | 0x200 => BitVec.ofNat 64 (d + s.pkg.cfg.pkg.toNat * 2 ^ 8)
  | 0x201 => f.evt
  | 0x202 => f.remaining
  | 0x203 => f.time
  | 0x210 => s.clkctl f
  | 0x211 => if hub ∧ s.pkg.clk.svcReq then 1 else 0
  | 0x220 => f.stgt
  | 0x221 => f.sv
  | 0x222 => f.sn
  | 0x224 => f.reply
  | 0x225 => f.stat
  | 0x240 => if hub then 0 else f.physel
  | 0x241 => if hub then 0 else f.phylane
  | 0x242 => if hub then 0 else f.patctl
  | 0x243 => if hub then 0 else f.patres
  | _ => 0

/-- ROT (R245): 0x7F means no entry. -/
def Core.rot (c : Core) : W64 :=
  BitVec.ofNat 64 (c.rotc.toNat + (match c.rote with | some k => k.toNat | none => 0x7F) * 2 ^ 32)
/-- The words of loop-stack level `j`, counted from the outermost (10 R244). -/
def Core.loopWord (c : Core) (j w : Nat) : W64 :=
  match c.loops.reverse[j]? with
  | none => 0
  | some l =>
    if w = 0 then BitVec.ofNat 64 (l.iter.toNat + l.trip.toNat * 2 ^ 32)
    else BitVec.ofNat 64 (l.start.toNat + l.stop.toNat * 2 ^ 10 + 2 ^ 20)
/-- PSTATE of port `n` (R245). -/
def State.pstate (s : State) (n : Nat) : W64 :=
  let p := s.getPort n
  BitVec.ofNat 64 (p.armed.toNat * 2 ^ 63 + (if 8 ≤ n then 2 ^ 62 else 0) + p.pos % 2 ^ 32)

/-- A system register as `SYSRD` reads it at issue. -/
def State.sysRead (s : State) (r : Nat) : W64 :=
  let g := s.gang
  if 0x200 ≤ r then s.fwRead s.die r
  else if 0x010 ≤ r ∧ r < 0x020 then BitVec.ofNat 64 (ofBytes ((g.args.drop (8 * (r - 0x010))).take 8))
  else if 0x020 ≤ r ∧ r < 0x040 then s.getFb (BitVec.ofNat 5 (r - 0x020))
  else if 0x040 ≤ r ∧ r < 0x04C then s.pstate (r - 0x040)
  else if 0x050 ≤ r ∧ r < 0x08C then nth (s.getPort ((r - 0x050) / 5)).stage.toList ((r - 0x050) % 5) 0
  else if 0x090 ≤ r ∧ r < 0x09C then s.core.loopWord ((r - 0x090) / 2) ((r - 0x090) % 2)
  else match r with
    | 0x000 => s.core.aflags
    | 0x001 => g.sfc.setWidth 64
    | 0x002 => BitVec.ofNat 64 s.rank
    | 0x003 => BitVec.ofNat 64 g.g
    | 0x004 => g.gidx.setWidth 64
    | 0x005 => g.dispNum.setWidth 64
    | 0x006 => BitVec.ofNat 64 (g.elastic.toNat + g.active.toNat * 2 ^ 8 + g.desc.toNat * 2 ^ 16)
    | 0x007 => s.dom.ri.setWidth 64
    | 0x008 => g.argva
    | 0x009 => s.core.rot
    | 0x00A => BitVec.ofNat 64 s.core.loops.length
    | _ => 0

end Sys2Proof.Machine
end

