-- ==== Sys2Proof/Machine/Control.lean ====
section
/-! DEFINITION. The C slot (11 R247-R264): NOP, branches, loops, predicates, control registers, phase control, waits, fences,
software faults, system registers. -/

namespace Sys2Proof.Machine

/-- NOP (09 R215). -/
def execNop (s : State) : Res := .next s

/-! ### Transfers and loops (R247-R253) -/

/-- A taken transfer to entry `t` (R248). -/
def State.take (s : State) (t : Nat) : State := s.setCore { s.core with xfer := some (t, s.fcyc + 3) }
/-- A register target above NENT takes ILLEGAL_BUNDLE "target" (R247). -/
def branchTo (t : Nat) (s : State) : Res := if s.core.cur.nent < t then raise .c 1 1 0 0 s else .next (s.take t)

def execBr (r : BitVec 4) (s : State) : Res := branchTo (s.getC r).toNat s
def execBri (t : BitVec 10) (s : State) : Res := .next (s.take t.toNat)
def execCall (t : BitVec 10) (s : State) : Res :=
  let link := s.replaced 3 s.core.loops s.core.ent .nop 0
  .next ((s.take t.toNat).later 0 true (.c 15 (BitVec.ofNat 64 link)))
def execRet (s : State) : Res := branchTo (s.getC 15).toNat s

/-- Loop entry with trip count `n` (R252). -/
def loopEntry (n : Nat) (e : BitVec 10) (ring : BitVec 8) (s : State) : Res :=
  if s.core.loops.length = 6 then raise .c 1 2 0 0 s
  else
    let s := if ring = 0 then s else s.later 0 true (.rot (BitVec.ofNat 64 ((ring.toNat - 1) * 2 ^ 32)))
    if n = 0 then .next (s.setCore { s.core with jump := some (e.toNat + 1) })
    else
      .next (s.setCore { s.core with loops := newLevel n s.core.ent e ring :: s.core.loops })
def execLoop (n : BitVec 24) (e : BitVec 10) (ring : BitVec 8) (s : State) : Res := loopEntry n.toNat e ring s
def execLoopr (r : BitVec 4) (e : BitVec 10) (ring : BitVec 8) (s : State) : Res := loopEntry (s.getC r).toNat e ring s

def execBrkLoop (t : BitVec 10) (s : State) : Res :=
  match s.core.loops with
  | [] => raise .c 1 3 0 0 s
  | lv :: rest =>
    .next ((s.setCore { s.core with loops := rest, jump := some (s.core.ent + 1),
                                    rotAt := if lv.ring then some (lv.iter + 1) else s.core.rotAt }).take t.toNat)

/-! ### Predicates and control registers (R254-R256) -/

def execPset (d : BitVec 4) (x : PRef) (s : State) : Res := .next (s.later 0 true (.p d (s.getPRef x)))
def execPand (d : BitVec 4) (x y : PRef) (s : State) : Res := .next (s.later 0 true (.p d (s.getPRef x && s.getPRef y)))
def execPor (d : BitVec 4) (x y : PRef) (s : State) : Res := .next (s.later 0 true (.p d (s.getPRef x || s.getPRef y)))
def execPxor (d : BitVec 4) (x y : PRef) (s : State) : Res := .next (s.later 0 true (.p d (xor (s.getPRef x) (s.getPRef y))))
def execPnot (d : BitVec 4) (x : PRef) (s : State) : Res := .next (s.later 0 true (.p d (!s.getPRef x)))

def execCmovi (d : BitVec 4) (k : W32) (s : State) : Res := .next (s.later 0 true (.c d (k.signExtend 64)))
def execCmov (d r : BitVec 4) (s : State) : Res := .next (s.later 0 true (.c d (s.getC r)))
def execCadd (d r : BitVec 4) (s : State) : Res := .next (s.later 0 true (.c d (s.getC d + s.getC r)))
def execCaddi (d : BitVec 4) (k : W32) (s : State) : Res := .next (s.later 0 true (.c d (s.getC d + k.signExtend 64)))
def execCsub (d r : BitVec 4) (s : State) : Res := .next (s.later 0 true (.c d (s.getC d - s.getC r)))
def execCcmp (c : Cond) (p x y : BitVec 4) (s : State) : Res := .next (s.later 0 true (.p p (condTrue c (s.getC x) (s.getC y))))
def execCcmpi (c : Cond) (p x : BitVec 4) (k : W32) (s : State) : Res :=
  .next (s.later 0 true (.p p (condTrue c (s.getC x) (k.signExtend 64))))
def execPsave (d : BitVec 4) (s : State) : Res := .next (s.later 0 true (.c d ((s.core.p ||| 1).setWidth 64)))
/-- p1 to p15 from bits 15 to 1. -/
def execPload (r : BitVec 4) (s : State) : Res :=
  let v := s.getC r
  .next (s.laterAll ((List.range 15).map fun i => (0, .p (BitVec.ofNat 4 (i + 1)) (v.getLsbD (i + 1)))))
def execCopyAC (d : BitVec 5) (r : BitVec 4) (s : State) : Res := .next (s.later 1 false (.a d (s.getC r)))

/-! ### Phase control and requests (R257-R259) -/

/-- The current descriptor's PIDX predicate, sampled at issue (08 R184). -/
def State.pidxBit (s : State) : Bool := match s.gang.cur with | some d => s.getP d.pidx | none => true

def execSign (s : State) : Res :=
  if s.isFw then .next s
  else match s.signCause with
    | some c => raise .c 1 c 0 0 s
    | none => .next (s.signOff (some s.pidxBit))

/-- HALT: as SIGN with the identity, forcing END (R257); on a firmware core it stops issue until FWEVT has a bit (18 R421). -/
def execHalt (s : State) : Res :=
  if s.isFw then .next (if (s.fwd s.die).evt = 0 then s.setCore { s.core with run := .halted } else s)
  else match s.signCause with
    | some c => raise .c 1 c 0 0 s
    | none =>
      let t := s.signOff none
      .next (t.setGang { t.gang with haltReq := true })

def execYield (s : State) : Res := if s.isFw then .next s else .next (s.setGang { s.gang with giveWay := true })
def execSealreq (s : State) : Res := .next (if s.isFw then s.pressSeal else s.requestSeal)

/-- ENQ (R259): the packet of `a0`-`a7` enters the intake if the core has fewer than four there and the context is not being torn
down. The accesses it waits for are those the core has issued on any stream. What a firmware core pushes is a re-push for the queue's own context (18 R421). -/
def execEnq (d : BitVec 4) (s : State) : Res :=
  let bytes := (List.range 8).flatMap fun i => toBytes 8 (s.getA (BitVec.ofNat 5 i)).toNat
  let mine := s.disp.intake.filter fun r => r.from_ == some s.core.id
  let ctx := if s.isFw then (rget s.disp.queues (fieldAt (ofBytes bytes) 240 6)).ctx else s.gang.ctx
  let torn := match s.ctxOf ctx with | some c => c.torn | none => !s.isFw
  let ok := decide (mine.length < 4) && !torn
  let rec_ : LRec :=
    { bytes := bytes, queue := s.gang.queue, ctx := ctx, from_ := some s.core.id, preds := s.mem.writers s.core.id, node := none }
  let s := if ok then { s with disp := { s.disp with intake := s.disp.intake ++ [rec_] } } else s
  .next (s.later 63 true (.p d ok))

/-! ### Waits, arrivals and fences (R260-R262) -/

/-- The bundle stays at its frame cycle and is tried again, waiting for `w`. -/
def State.waitOn (s : State) (w : Wait) : State := (s.setCore { s.core with wait := w }).holdBundle

def execWaitb (fb : BitVec 5) (ph : Bool) (s : State) : Res :=
  if s.lockstep then overrunWait .c s
  else if fbPh (s.getFb fb) = ph then .next s
  else .next (s.waitOn (.waitb fb ph))

def execArrv (fb : BitVec 5) (s : State) : Res := .next (s.later 1 true (.fbArrive fb))

/-- Physical line of a `WAITA` operand: P = 1 and class SHARED (R261). -/
def State.sharedLine (s : State) (va : Nat) : Option Nat :=
  let mapped := fun a => if s.mappable (a / 2 ^ 21 * 2 ^ 21) 3 then some (a / 64) else none
  if s.isFw then mapped va
  else if bits va 63 52 ≠ 0 then none
  else match s.ctxOf s.gang.ctx with
    | none => none
    | some c =>
      match s.walk c.root va with
      | none => none
      | some e => if e % 2 = 1 ∧ leafPcls e = 3 then mapped (leafFrame e + va % 2 ^ 21) else none
/-- The walk of a `WAITA` may read a line in error. -/
def State.noteShared (s : State) (va : Nat) : State :=
  match s.isFw || decide (bits va 63 52 ≠ 0), s.ctxOf s.gang.ctx with
  | false, some c => s.noteWalk c.root va
  | _, _ => s
/-- A recall of `line` recorded after the watch began (06 R144). -/
def State.recalled (s : State) (line since : Nat) : Bool := s.pkg.recalls.any fun r => r.1 == line && decide (since ≤ r.2)
/-- Where the watch on a line starts: at the most recent `INGEST` read of it, else now. -/
def State.watchFrom (s : State) (line : Nat) : Nat :=
  match s.core.watches.find? (·.1 == line) with
  | some (_, t) => t
  | none => s.mem.nextId

/-- Adds an input record of interval `ri` to the context's log (07 R162), in a sealed domain. -/
def State.logInputAt (s : State) (ri : W32) (ctx : BitVec 16) (r : InRec) (len : Nat) : State :=
  if !s.dom.sealed then s
  else
    let s : State := { s with dom := { s.dom with inlog := s.dom.inlog ++ [{ ri := ri, ctx := ctx, in_ := r }] } }
    match s.ctxOf ctx with
    | none => s
    | some c =>
      let c := { c with inlogUsed := c.inlogUsed + 64 + len }
      let s := s.setCtx c
      if c.inlogRoom ≤ 2 * c.inlogUsed then s.pressSeal else s
/-- The same in the open interval. -/
def State.logInput (s : State) (ctx : BitVec 16) (r : InRec) (len : Nat) : State := s.logInputAt s.dom.ri ctx r len
/-- The logged outcome of this `WAITA` in a replayed interval (R163). -/
def State.waitaReplay (s : State) : Option Bool :=
  (s.dom.replay.findSome? fun r => match r.in_ with
    | .waita g k n b => if g == s.gang.gidx && k == s.rank && n == s.core.inCnt.waita && r.ctx == s.gang.ctx then some b else none
    | _ => none)
/-- The bundle issues with outcome `b`, which is logged unless the log gave it. -/
def State.waitaDone (s : State) (p : BitVec 4) (b : Bool) : State :=
  let s := if s.waitaReplay.isSome then s else s.logInput s.gang.ctx (.waita s.gang.gidx s.rank s.core.inCnt.waita b) 0
  let s := s.setCore { s.core with inCnt := { s.core.inCnt with waita := s.core.inCnt.waita + 1 }, wait := .none }
  s.later 0 true (.p p b)

def execWaita (p r : BitVec 4) (limit : W32) (s : State) : Res :=
  if s.lockstep then overrunWait .c s
  else match s.core.wait with
    | .waita _ _ _ (some b) => .next (s.waitaDone p b)
    | .waita _ _ _ none => .next s.holdBundle
    | _ =>
      match s.sharedLine (s.getC r).toNat with
      | none => raise .c 11 (s.pageCause (s.getC r).toNat) ((s.getC r).toNat / 64 * 64) 0 s
      | some line =>
        let s := s.noteShared (s.getC r).toNat
        match s.waitaReplay with
        | some b => .next (s.waitaDone p b)
        | none =>
          let since := s.watchFrom line
          if s.recalled line since then .next (s.waitaDone p true)
          else if limit = 0 then .next (s.waitaDone p false)
          else .next ((s.snoopAdd line).waitOn (.waita line since (s.gang.now + limit.toNat) none))

/-- Streams in a mask. -/
def maskStreams (m : BitVec 16) : List (BitVec 4) := ((List.range 16).filter fun i => m.getLsbD i).map (BitVec.ofNat 4)

/-- FENCE (R262): an access of its own that follows the masked frontiers and becomes the frontier of every masked stream. At
scope CORE, or with an empty mask, its wait is over at once, and it arrives at issue+1 (log 91). -/
def execFence (sc : Scope) (mask : BitVec 16) (fb : Option (BitVec 5)) (s : State) : Res :=
  let sts := maskStreams mask
  let preds := (sts.flatMap s.frontier).eraseDups
  let cmd := sc != .core && mask != 0
  let (id, s) := s.newAccess (.core s.core.id) s.die 0 preds (!cmd)
  let s := { s with mem := s.mem.updAcc id fun a => { a with fence := some sc, mask := mask, fb := if cmd then fb else none } }
  let s := s.setCore (sts.foldl (fun c st => c.setStream st [id]) s.core)
  if cmd then .next (s.setGang { s.gang with cmdsOut := s.gang.cmdsOut ++ [id] })
  else match fb with
    | some n => .next (s.later 1 true (.fbArrive n))
    | none => .next s

/-! ### Software faults (R263) -/

def execTrap (k : W32) (s : State) : Res := raise .c 17 0 0 k.toNat s
def execBrk (k : W32) (s : State) : Res := raise .c 18 0 0 k.toNat s

/-! ### System registers and frame values (R264, 10 R245, R246) -/

/-- A privileged number in an object without PRIV takes PRIV. -/
def State.privBad (s : State) (r : BitVec 10) : Bool := decide (0x200 ≤ r.toNat) && !s.gang.code.priv

/-- A chain has flags still to set: it is open with routines, or one of its routines is unended (13 R312). -/
def Mxu.flagsPending (m : Mxu) : Bool := (m.chain && !m.chainAccs.isEmpty) || m.q.any (·.inChain.isSome)
/-- AFLAGS while a chain's flags are pending: each flag not set yet is a free choice (13 R312, log 7). -/
def State.flagsRead (s : State) : W64 × State :=
  (List.range 7).foldl (fun x i =>
    let (b, s) := x.2.choose
    (if b then x.1 ||| BitVec.ofNat 64 (2 ^ i) else x.1, s)) (s.core.aflags, s)

/-- The clock that TIME and FWTIMER read has advanced since the last reading by a free number of nanoseconds (18 R422, log 7). -/
def State.advanceTime (s : State) : State :=
  { s with fw := s.fw.map fun f => { f with time := f.time + BitVec.ofNat 64 (Config.elapsed s.draw) }, draw := s.draw + 1 }

def execSysrd (d : BitVec 4) (r : BitVec 10) (s : State) : Res :=
  if s.privBad r then raise .c 16 0 0 0 s
  else if r = 0 ∧ s.core.mxu.flagsPending then
    let (v, s) := s.flagsRead
    .next (s.later 1 true (.c d v))
  else
    let s := if r = 0x203 ∨ r = 0x202 then s.advanceTime else s
    .next (s.later 1 true (.c d (s.sysRead r.toNat)))

/-- The timed write that a `SYSWR` makes, with its delay. A write to ROT is seen by bundles issued from issue+1 on (R246). -/
def sysAct (r : Nat) (v : W64) : Option (Nat × Act) :=
  if 0x200 ≤ r then some (1, .fwReg (BitVec.ofNat 10 r) v)
  else if 0x020 ≤ r ∧ r < 0x040 then some (1, .fbSet (BitVec.ofNat 5 (r - 0x020)) v)
  else if 0x050 ≤ r ∧ r < 0x08C then
    some (1, .stageSys (BitVec.ofNat 4 ((r - 0x050) / 5)) (BitVec.ofNat 3 ((r - 0x050) % 5)) v)
  else if r = 0 then some (1, .flagsClr v)
  else if r = 9 then some (0, .rot v)
  else none

def execSyswr (r : BitVec 10) (c : BitVec 4) (s : State) : Res :=
  if s.privBad r then raise .c 16 0 0 0 s
  else if s.isFw && r == 0x223 && s.fwHeld ((s.getC c).setWidth 6) then .next s.holdBundle
  else match sysAct r.toNat (s.getC c) with
    | some (dt, a) => .next (s.later dt true a)
    | none => .next s

def execFrame (d : BitVec 4) (k : W32) (s : State) : Res := .next (s.later 0 true (.c d (s.gang.sfc.setWidth 64 + k.signExtend 64)))
def execFrameCyc (d : BitVec 4) (s : State) : Res := .next (s.later 0 true (.c d (BitVec.ofNat 64 s.gang.now)))

end Sys2Proof.Machine
end

