-- ==== Sys2Proof/Machine/Scalar.lean ====
section
/-! DEFINITION. The A slot (11 R265-R273): scalar arithmetic, tile scalars, far loads and stores, port generators, tile
allocation, copies. -/

namespace Sys2Proof.Machine

/-! ### Arithmetic (R265-R268): results perform at issue, products at issue+2 -/

/-- An `a` register result. -/
def State.aput (s : State) (dt : Nat) (d : BitVec 5) (v : W64) : State := s.later dt true (.a d v)
def imm12 (k : BitVec 12) : W64 := k.signExtend 64

def execAdd (d x y : BitVec 5) (s : State) : Res := .next (s.aput 0 d (s.getA x + s.getA y))
def execSub (d x y : BitVec 5) (s : State) : Res := .next (s.aput 0 d (s.getA x - s.getA y))
def execMul (d x y : BitVec 5) (s : State) : Res := .next (s.aput 2 d (s.getA x * s.getA y))
/-- The high 64 bits of the 128-bit product. -/
def mulHigh (x y : W64) (u : Bool) : W64 :=
  if u then BitVec.ofNat 64 (x.toNat * y.toNat / 2 ^ 64) else BitVec.ofInt 64 (x.toInt * y.toInt / 2 ^ 64)
def execMulh (d x y : BitVec 5) (u : Bool) (s : State) : Res := .next (s.aput 2 d (mulHigh (s.getA x) (s.getA y) u))
def execShl (d x y : BitVec 5) (s : State) : Res := .next (s.aput 0 d (s.getA x <<< ((s.getA y).toNat % 64)))
def execShr (d x y : BitVec 5) (s : State) : Res := .next (s.aput 0 d (s.getA x >>> ((s.getA y).toNat % 64)))
def execSar (d x y : BitVec 5) (s : State) : Res := .next (s.aput 0 d ((s.getA x).sshiftRight ((s.getA y).toNat % 64)))
def execAnd (d x y : BitVec 5) (s : State) : Res := .next (s.aput 0 d (s.getA x &&& s.getA y))
def execOr (d x y : BitVec 5) (s : State) : Res := .next (s.aput 0 d (s.getA x ||| s.getA y))
def execXor (d x y : BitVec 5) (s : State) : Res := .next (s.aput 0 d (s.getA x ^^^ s.getA y))
/-- x < y, unsigned or signed. -/
def below (u : Bool) (x y : W64) : Bool := if u then decide (x.toNat < y.toNat) else decide (x.toInt < y.toInt)
def execMin (d x y : BitVec 5) (u : Bool) (s : State) : Res :=
  .next (s.aput 0 d (if below u (s.getA y) (s.getA x) then s.getA y else s.getA x))
def execMax (d x y : BitVec 5) (u : Bool) (s : State) : Res :=
  .next (s.aput 0 d (if below u (s.getA x) (s.getA y) then s.getA y else s.getA x))

/-- A compare (R266): the predicate at issue+1, the register at issue if the form names one. -/
def compareTo (c : Cond) (d : Option (BitVec 5)) (p : BitVec 4) (x y : W64) (s : State) : Res :=
  let b := condTrue c x y
  let s := s.later 1 false (.p p b)
  .next (match d with | some r => s.aput 0 r (if b then 1 else 0) | none => s)
def execCmp (c : Cond) (d : Option (BitVec 5)) (p : BitVec 4) (x y : BitVec 5) (s : State) : Res :=
  compareTo c d p (s.getA x) (s.getA y) s
def execCmpi (c : Cond) (d : Option (BitVec 5)) (p : BitVec 4) (x : BitVec 5) (k : BitVec 12) (s : State) : Res :=
  compareTo c d p (s.getA x) (imm12 k) s
def execSel (d : BitVec 5) (p : BitVec 4) (x y : BitVec 5) (s : State) : Res :=
  .next (s.aput 0 d (if s.getP p then s.getA x else s.getA y))
def execClz (d x : BitVec 5) (s : State) : Res := .next (s.aput 0 d (BitVec.ofNat 64 (leadZeros (s.getA x))))
def execPopc (d x : BitVec 5) (s : State) : Res := .next (s.aput 0 d (BitVec.ofNat 64 (popCount (s.getA x))))
/-- BFX and BFI with width `w1` + 1 (R267). -/
def bitField (sg : Bool) (x : W64) (lo w : Nat) : W64 :=
  let v := x.toNat / 2 ^ lo % 2 ^ w
  if sg then BitVec.ofInt 64 (signExt v w) else BitVec.ofNat 64 v
def bitInsert (old x : W64) (lo w : Nat) : W64 :=
  let m : W64 := BitVec.ofNat 64 ((2 ^ w - 1) * 2 ^ lo)
  (old &&& ~~~m) ||| (BitVec.ofNat 64 (x.toNat % 2 ^ w * 2 ^ lo) &&& m)
def execBfx (sg : Bool) (d x : BitVec 5) (lo w1 : BitVec 6) (s : State) : Res :=
  .next (s.aput 0 d (bitField sg (s.getA x) lo.toNat (w1.toNat + 1)))
def execBfi (d x : BitVec 5) (lo w1 : BitVec 6) (s : State) : Res :=
  .next (s.aput 0 d (bitInsert (s.getA d) (s.getA x) lo.toNat (w1.toNat + 1)))

def execAddi (d x : BitVec 5) (k : BitVec 12) (s : State) : Res := .next (s.aput 0 d (s.getA x + imm12 k))
def execAndi (d x : BitVec 5) (k : BitVec 12) (s : State) : Res := .next (s.aput 0 d (s.getA x &&& imm12 k))
def execOri (d x : BitVec 5) (k : BitVec 12) (s : State) : Res := .next (s.aput 0 d (s.getA x ||| imm12 k))
def execXori (d x : BitVec 5) (k : BitVec 12) (s : State) : Res := .next (s.aput 0 d (s.getA x ^^^ imm12 k))
def execShli (d x : BitVec 5) (k : BitVec 6) (s : State) : Res := .next (s.aput 0 d (s.getA x <<< k.toNat))
def execShri (d x : BitVec 5) (k : BitVec 6) (s : State) : Res := .next (s.aput 0 d (s.getA x >>> k.toNat))
def execSari (d x : BitVec 5) (k : BitVec 6) (s : State) : Res := .next (s.aput 0 d ((s.getA x).sshiftRight k.toNat))
def execMovi (d : BitVec 5) (k : BitVec 31) (s : State) : Res := .next (s.aput 0 d (k.signExtend 64))
def execMovhi (d : BitVec 5) (k : BitVec 31) (s : State) : Res :=
  .next (s.aput 0 d (BitVec.ofNat 64 ((s.getA d).toNat * 2 ^ 31 + k.toNat)))

/-! ### Tile scalars (R269) -/

/-- Element offset of an LDT or STT: `a0` is never an index. -/
def State.elemOff (s : State) (i : BitVec 5) (off : BitVec 14) : Nat := (if i = 0 then 0 else (s.getA i).toNat) + off.toNat
/-- Checks of an LDT or STT in the order of its trap list: table (R44), format, ranges (05 R115, 15 R367). -/
def State.elemCheck (s : State) (t : BitVec 12) (k : Nat) (wr : Bool) : Except (Nat × Nat) Cap :=
  match s.tileCheck t.toNat (some k) with
  | .error e => .error (e, 0)
  | .ok c =>
    if !s.fmtOk c.ent.fmt || (wr && isBlock c.ent.fmt) then .error (8, 0)
    else match s.rangeTrap t.toNat (if wr then [c.ent.wordOf k] else c.ent.wordsOf k) wr with
      | some cause => .error (9, cause)
      | none => .ok c
/-- AUX of an LDT's or STT's trap: the link of the range that it meets (17 R401). -/
def State.elemLink (s : State) (t : BitVec 12) (k : Nat) (wr : Bool) (cls : Nat) : Nat :=
  match s.tileCheck t.toNat (some k) with
  | .ok c => if cls = 9 then s.rangeLink t.toNat (if wr then [c.ent.wordOf k] else c.ent.wordsOf k) wr else 0
  | .error _ => 0
/-- Object of a tile fault (17 R401). -/
def tileAddr (cls : Nat) (t : BitVec 12) : Nat := if cls = 6 ∨ cls = 7 then t.toNat else 0

def execLdt (d : BitVec 5) (t : BitVec 12) (i : BitVec 5) (off : BitVec 14) (s : State) : Res :=
  let k := s.elemOff i off
  match s.elemCheck t k false with
  | .error (cls, cause) => raise .a cls cause (tileAddr cls t) (s.elemLink t k false cls) s
  | .ok c =>
    let dt := if c.ent.lvl then 2 else 1
    .next ((s.later dt true (.sampleLdt c k d s.gang.now)).charge dt false c (c.ent.wordOf k))

def execStt (r : BitVec 5) (t : BitVec 12) (i : BitVec 5) (off : BitVec 14) (s : State) : Res :=
  let k := s.elemOff i off
  match s.elemCheck t k true with
  | .error (cls, cause) => raise .a cls cause (tileAddr cls t) (s.elemLink t k true cls) s
  | .ok c =>
    let dt := if c.ent.lvl then 10 else 7
    let (row, col) := c.ent.coord k
    let (v, fl) := encodeLane c.ent.fmt .rne row col false ((s.getA r).setWidth 32)
    .next (((s.later dt true (.tile c [elemUpd c.ent k v])).flagLater dt fl).charge dt true c (c.ent.wordOf k))

/-! ### Far loads and stores (R270) -/

/-- The address of a far access. -/
def State.farAddr (s : State) (b : BitVec 5) (off : BitVec 16) : Nat := (s.getA b + off.signExtend 64).toNat

/-- What a far access meets at its page: a fault's cause, or the physical address and whether writes there are logged. A package that the context does not
run on is cause 2; another package of the context translates the address itself, and its fault comes back: whether it does is that package's (15 R372; log 53). -/
def State.farPage (s : State) (va : Nat) (isWrite : Bool) : Except Nat (Nat × Bool) × State :=
  match s.part va with
  | .outside => (.error 2, s)
  | .other p =>
    let (b, s) := s.choose
    (if b then .ok (farVa p va, false) else .error 0, s)
  | .own =>
    match s.translate va isWrite with
    | (none, s) => (.error 0, s)
    | (some x, s) => (.ok x, s)

def execFld (sz : BitVec 2) (st : BitVec 4) (d b : BitVec 5) (off : BitVec 16) (s : State) : Res :=
  let va := s.farAddr b off
  let n := 2 ^ sz.toNat
  if s.lockstep then overrunWait .a s
  else if va % n ≠ 0 then raise .a 11 1 va 0 s
  else match s.farPage va false with
    | (.error c, _) => raise .a 11 c va 0 s
    | (.ok (pa, _), s) =>
      let (id, s) := s.issueAccess st true
      let s := s.addRead id pa n (.reg s.core.id d)
      .next (s.setCore { s.core with far := some id })

/-- A firmware core's logged store waits while a seal's barrier is open (07 R155). -/
def execFst (sz : BitVec 2) (st : BitVec 4) (r b : BitVec 5) (off : BitVec 16) (s : State) : Res :=
  let va := s.farAddr b off
  let n := 2 ^ sz.toNat
  if s.lockstep then overrunWait .a s
  else if va % n ≠ 0 then raise .a 11 1 va 0 s
  else match s.farPage va true with
    | (.error c, _) => raise .a 11 c va 0 s
    | (.ok (pa, logged), t) => if s.isFw && logged && s.barrier then .next s.holdBundle else
      let s := t
      let v := toBytes n (s.getA r).toNat
      let (id, s) := s.issueAccess st true
      let s := s.addWrite id (.bytes (cellsAt pa v)) (pa / 64 * 64) logged (homeOf pa)
      .next (s.setCore { s.core with far := some id })

/-! ### Port generators (R271, 10 R236-R239) -/

def execGenSet (port : BitVec 4) (i : BitVec 3) (r : BitVec 5) (s : State) : Res :=
  .next (s.later 1 true (.stage port i (s.getA r)))

/-- The checks of 10 R238, in order: the fault class, or the capture. An output port on a block-format tile delivers whole aligned blocks (04 R83): the outer
levels move by whole blocks too. -/
def State.armCheck (s : State) (n : Nat) (ps : Vector W64 5) : Except Nat Cap :=
  let out := decide (8 ≤ n)
  let h := psTile ps
  if !psReservedZero ps then .error 8
  else if 2 ^ 32 < psT ps then .error 6
  else if out && decide (5 < psRm ps) then .error 8
  else
    let blockBad : Bool := match s.clu.tile? h with
      | some t => out && isBlock t.ent.fmt &&
          !((psLevels ps).head?.any (fun l => l.1 % 32 == 0 && l.2 == 1) && psBase ps % 32 == 0
            && (psLevels ps).tail.all fun l => l.1 == 1 || l.2 % 32 == 0)
      | none => false
    if blockBad then .error 8
    else match s.tileCheck h (some (psMax ps).toNat) with
      | .error e => .error e
      | .ok c => if psMin ps < 0 then .error 6 else if !s.fmtOk c.ent.fmt then .error 8 else .ok c

def execGenArm (port : BitVec 4) (s : State) : Res :=
  let n := port.toNat
  let p := s.getPort n
  let ps := p.stage
  match s.armCheck n ps with
  | .error cls => raise .a cls 0 (tileAddr cls (BitVec.ofNat 12 (psTile ps))) 0 s
  | .ok c =>
    let vs := if 8 ≤ n then [] else List.range (min (aheadOf c.ent) (psNV ps))
    if vs.any fun i => s.openHit c.h (vecWords ps c.ent i) then raise .a 9 0 0 (s.rangeLink c.h (vs.flatMap (vecWords ps c.ent)) false) s
    else
      let s := (s.setClu (s.clu.capture c)).later 0 true (.arm n ps c)
      .next (vs.foldl (fun s i =>
        let ws := vecWords ps c.ent i
        (s.later (2 + i) true (.samplePort port (p.arm + 1) i c ws)).chargeAll (2 + i) false c ws) s)

/-! ### Tile allocation (R272) -/

/-- A new entry in the table. -/
def Cluster.create (c : Cluster) (h : Nat) (e : TileEnt) : Cluster :=
  { c.setTile h { ent := e, data := [], poison := [], caps := 0, born := c.born } with born := c.born + 1 }
/-- The table as it stands, with the entry writes of this cycle's earlier bundles of the cluster's cores. -/
def State.tableView (s : State) : Cluster :=
  let acts := ((s.cluCores.flatMap fun c => c.pend).filter fun p => p.iss == s.gang.now).filterMap fun p => match p.act with
    | .tileNew h e => some (h, some e)
    | .tileFree h => some (h, none)
    | _ => none
  acts.foldl (fun c a => match a.2 with | some e => c.create a.1 e | none => c.dropTile a.1) s.clu

/-- The entry a `TALLOC` describes; OWNER counts for `NEAR` only (02 R42). -/
def allocEnt (x : W64) (fmt : BitVec 5) (dims : BitVec 2) (lvl retain : Bool) (owner : BitVec 2) : TileEnt :=
  { lvl := lvl, retain := retain, fmt := fmt, dims := dims, owner := if lvl then 0 else owner,
    e0 := x.setWidth 16, e1 := fieldAt x.toNat 16 16, e2 := fieldAt x.toNat 32 16, e3 := fieldAt x.toNat 48 16 }
/-- Extent fields above DIMS are zero (R42). -/
def TileEnt.extentsOk (e : TileEnt) : Bool :=
  (decide (1 ≤ e.dims.toNat) || e.e1 == 0) && (decide (2 ≤ e.dims.toNat) || e.e2 == 0) && (decide (3 ≤ e.dims.toNat) || e.e3 == 0)

def execTalloc (t : BitVec 12) (x q : BitVec 5) (fmt : BitVec 5) (dims : BitVec 2) (lvl retain : Bool) (owner : BitVec 2)
    (s : State) : Res :=
  let e := allocEnt (s.getA x) fmt dims lvl retain owner
  let view := s.tableView
  if (view.tile? t.toNat).isSome then raise .a 7 0 t.toNat 0 s
  else if !e.extentsOk || !e.formatOk then raise .a 8 0 0 0 s
  else if view.fits e then .next ((s.later 1 true (.tileNew t.toNat e)).aput 1 q 0)
  else .next (s.aput 1 q 1)

def execTfree (t : BitVec 12) (s : State) : Res :=
  match s.tableView.tile? t.toNat with
  | none => raise .a 7 0 t.toNat 0 s
  | some x => if x.caps ≠ 0 then raise .a 7 0 t.toNat 0 s else .next (s.later 1 true (.tileFree t.toNat))

/-! ### Copies out of the A file (R273, 10 R235) -/

/-- A copy into a broadcast or mask register of a vector slot. -/
def copyToV (u : VU) (msk : Bool) (k : BitVec 3) (r : BitVec 5) (s : State) : State :=
  s.later 1 false (if msk then .m u k (s.getA r) (BitVec.allOnes 64) else .b u k ((s.getA r).setWidth 32))
def execCopyV0 (msk : Bool) (k : BitVec 3) (r : BitVec 5) (s : State) : Res := .next (copyToV .v0 msk k r s)
def execCopyV1 (msk : Bool) (k : BitVec 3) (r : BitVec 5) (s : State) : Res := .next (copyToV .v1 msk k r s)
def execCopyM (k : BitVec 3) (r : BitVec 5) (s : State) : Res := .next (s.later 1 false (.mp k (s.getA r)))
def execCopyX (k : BitVec 4) (r : BitVec 5) (s : State) : Res := .next (s.later 1 false (.xp k (s.getA r)))
def execCopyC (k : BitVec 4) (r : BitVec 5) (s : State) : Res := .next (s.later 1 false (.c k (s.getA r)))

end Sys2Proof.Machine
end

