-- ==== Sys2Proof/Machine/Matrix.lean ====
section
/-! DEFINITION. The M slot (13): descriptors, microprograms and their checks, `MCALL`, chains, drains, gathers, status. What the
matrix unit does in its later cycles stands in MatrixRun. -/

namespace Sys2Proof.Machine

/-! ### Descriptors and classes (R300, R301) -/

def descTile (w : W64) : Nat := bits w.toNat 63 52
def descStride (w : W64) : Nat := bits w.toNat 51 32
def descBase (w : W64) : Nat := bits w.toNat 31 0
/-- Elements in a tile word. -/
def epw (fmt : BitVec 5) : Nat := 2048 / elemBits fmt
/-- BASE is a multiple of EPW, and W0 of 32 for a block format. -/
def baseOk (fmt : BitVec 5) (base : Nat) : Bool :=
  base % epw fmt == 0 && (!isBlock fmt || base / epw fmt % 32 == 0)

/-- The class of a format: products per step, steps per block, integer. -/
structure MClass where
  p : Nat
  ns : Nat
  int : Bool
deriving DecidableEq, Repr
def mclass (fmt : BitVec 5) : Option MClass :=
  match fmt.toNat with
  | 1 | 2 => some ⟨1, 128, false⟩
  | 3 | 4 | 10 | 11 => some ⟨4, 64, false⟩
  | 12 | 13 => some ⟨8, 64, false⟩
  | 5 => some ⟨4, 64, true⟩
  | 15 => some ⟨8, 64, true⟩
  | _ => none

/-! ### Micro-ops (R303-R305) -/

def uOp (u : W64) : Nat := bits u.toNat 63 60
def uGA (u : W64) : Bool := u.getLsbD 59
def uTR (u : W64) : Bool := u.getLsbD 58
def uSP (u : W64) : Bool := u.getLsbD 57
def uZF (u : W64) : Bool := u.getLsbD 56
def uKcnt (u : W64) : Nat := bits u.toNat 55 48
def uK0 (u : W64) : Nat := bits u.toNat 47 40
def uAsrc (u : W64) : Nat := bits u.toNat 36 34
def uBsrc (u : W64) : Nat := bits u.toNat 33 31
def uMsrc (u : W64) : Nat := bits u.toNat 30 28
/-- The accumulator a micro-op names, given the `MCALL`'s. -/
def uAcc (u : W64) (acc : BitVec 2) : BitVec 2 := (if u.getLsbD 37 then acc else 0) + fieldAt u.toNat 38 2
/-- Bits that an operation uses; the others are zero. -/
def uUsed (op : Nat) : Nat :=
  let f := fun hi lo => 2 ^ (hi + 1) - 2 ^ lo
  f 63 60 + match op with
    | 1 => f 59 58 + f 36 34
    | 2 => f 57 57 + f 33 31
    | 3 | 4 => f 30 28
    | 5 => f 57 57 + f 56 56 + f 55 48 + f 47 40 + f 39 37
    | 6 => f 39 37 + f 30 28
    | 7 | 8 => f 39 37
    | _ => 0

/-- A micro-op from its fields (R303): operation, options, accumulator relative, A, B and M sources. -/
def uopOf (op : Nat) (ga tr sp zf rel : Bool) (a b m : Nat) : W64 :=
  BitVec.ofNat 64 (op * 2 ^ 60 + ga.toNat * 2 ^ 59 + tr.toNat * 2 ^ 58 + sp.toNat * 2 ^ 57 + zf.toNat * 2 ^ 56 + rel.toNat * 2 ^ 37
    + a * 2 ^ 34 + b * 2 ^ 31 + m * 2 ^ 28)
/-- The library routines (R322). The accumulator is relative in every one of their micro-ops that names one (log 40). -/
def libRoutine : Nat → List W64
  | 0 => [uopOf 1 false false false false false 0 0 0, uopOf 2 false false false false false 0 1 0, uopOf 5 false false false false true 0 0 0]
  | 1 => [uopOf 1 false true false false false 0 0 0, uopOf 2 false false false false false 0 1 0, uopOf 5 false false false false true 0 0 0]
  | 2 => [uopOf 1 true false false false false 0 0 0, uopOf 2 false false false false false 0 1 0, uopOf 5 false false false false true 0 0 0]
  | 3 => [uopOf 1 false false false false false 0 0 0, uopOf 2 false false true false false 0 1 0, uopOf 5 false false true false true 0 0 0]
  | 4 => [uopOf 1 false false false false false 0 0 0, uopOf 2 false false false false false 0 1 0, uopOf 3 false false false false false 0 0 3,
          uopOf 5 false false false true true 0 0 0, uopOf 6 false false false false true 0 0 2, uopOf 7 false false false false true 0 0 0]
  | 5 => [uopOf 1 false false false false false 0 0 0, uopOf 2 false false false false false 0 1 0, uopOf 4 false false false false false 0 0 3,
          uopOf 5 false false false true true 0 0 0, uopOf 8 false false false false true 0 0 0]
  | _ => []
/-- Micro-op `i` of routine `r` in a core's store: what a write put there, else the library's, which Chothes loads before stack 0 enters service (R322, 18
R427); until then the store is all zero (R299). -/
def State.ucodeAt (s : State) (core r i : Nat) : W64 :=
  match s.pkg.uc.find? (·.1 == core * 8192 + r * 32 + i) with
  | some (_, w) => w
  | none => if s.pkg.inService.isEmpty then 0 else nth (libRoutine r) i 0
/-- Micro-ops up to the first END, that included; none where no END stands. -/
def cutEnd : List W64 → Option (List W64)
  | [] => none
  | u :: l => if uOp u = 0 then some [u] else (cutEnd l).map (u :: ·)

/-- The routine checks of R305 other than the step range. -/
def routineOk (ops : List W64) : Bool :=
  let n := ops.length
  let at_ := fun i => nth ops i 0
  let kinds := ops.map uOp
  let fetches := kinds.filter fun k => decide (1 ≤ k) && decide (k ≤ 4)
  let has := fun k => kinds.contains k
  let spB := ops.any fun u => uOp u == 2 && uSP u
  kinds.all (fun k => decide (k ≤ 8))
    && ops.all (fun u => u.toNat &&& (2 ^ 64 - 1 - uUsed (uOp u)) == 0)
    && (List.range n).all (fun i => !(decide (1 ≤ uOp (at_ i)) && decide (uOp (at_ i) ≤ 4)) ||
        (List.range i).all fun j => decide (uOp (at_ j) < 5))
    && fetches.eraseDups.length == fetches.length
    && ops.all (fun u => !(uOp u == 1 && uGA u && uTR u))
    && ops.all (fun u => !(uOp u == 2 && uSP u && uBsrc u == 7))
    && (!has 5 || (has 1 && has 2))
    && ops.all (fun u => !(uOp u == 5) || uSP u == spB)
    && (!has 7 || has 3) && (!has 8 || has 4)

/-- Steps of a MAC (R303): KCNT, or the rest of the block. -/
def macSteps (u : W64) (ns : Nat) : Nat := if uKcnt u = 0 then ns - uK0 u else uKcnt u
def stepsOf (c : MClass) (sp : Bool) : Nat := if sp then c.ns / 2 else c.ns
/-- MXU cycles of a micro-op (R304). -/
def uCycles (c : MClass) (u : W64) : Nat :=
  match uOp u with
  | 5 => macSteps u (stepsOf c (uSP u))
  | 6 | 7 | 8 => 1
  | _ => 0

/-! ### The latch set's layout -/

def placeA : Nat := 0
def placeB : Nat := 32768
def placeSA : Nat := 65536
def placeSB : Nat := 69632
def placeMeta : Nat := 73728
def placeMask : Nat := 81920
def placeVec : Nat := 83968

/-- What a routine reads: micro-op kind, descriptor register, words, first latch place. -/
structure Opnd where
  kind : Nat
  mp : Nat
  words : Nat
  place : Nat
deriving DecidableEq, Repr
/-- The descriptors a routine's fetches use, in micro-op order; kind 5 is sparse metadata. -/
def operands (ops : List W64) (c : MClass) : List Opnd :=
  ops.flatMap fun u =>
    match uOp u with
    | 1 => if uGA u then [] else [⟨1, uAsrc u, 128, placeA⟩]
    | 2 => if uSP u then [⟨2, uBsrc u, 64, placeB⟩, ⟨5, uBsrc u + 1, c.p * c.ns / 16, placeMeta⟩] else [⟨2, uBsrc u, 128, placeB⟩]
    | 3 => [⟨3, uMsrc u, 8, placeMask⟩]
    | 4 => [⟨4, uMsrc u, 2, placeVec⟩]
    | _ => []
/-- The cycle of word `i` of an operand, after issue (R306). -/
def fetchCycle (kind i : Nat) : Nat := match kind with | 1 | 2 => 1 + i / 16 | 5 => 5 + i / 16 | _ => 10
/-- Scale words of an A or B operand: those that hold its elements' scale bytes. -/
def scaleWords (e : TileEnt) (base words : Nat) : List Nat :=
  let b0 := e.scaleAt (base / 32)
  let nb := words * epw e.fmt / 32 * scaleBytes e.fmt
  if isBlock e.fmt then (List.range (ceilDiv nb 256)).map (b0 / 256 + ·) else []
/-- The fetches of an operand (R306). -/
def Opnd.fetches (o : Opnd) (c : Cap) (base : Nat) : List Fetch :=
  let w0 := base / epw c.ent.fmt
  let elems := (List.range o.words).map fun i => (⟨fetchCycle o.kind i, c, w0 + i, o.place + 256 * i⟩ : Fetch)
  let sc := if o.kind = 1 ∨ o.kind = 2 then
      (scaleWords c.ent base o.words).mapIdx fun i w => (⟨9, c, w, (if o.kind = 1 then placeSA else placeSB) + 256 * i⟩ : Fetch)
    else []
  elems ++ sc

/-- Formats an operand may have, by kind; A and B are checked by class. -/
def kindFmtOk (kind : Nat) (fmt : BitVec 5) : Bool :=
  match kind with | 3 => fmt == 14 | 4 => fmt == 0 | 5 => fmt == 6 | _ => (mclass fmt).isSome

/-! ### MCALL (R305-R311) -/

/-- The source format of the gather latch that a routine called now reads: one that performs in this cycle is seen (R315). -/
def State.gatherFmt (s : State) : Option (BitVec 5) :=
  let due := s.core.pend.findSome? fun p => match p.act with
    | .gatherSet id => if p.time = s.gang.now then (s.core.mxu.gathers.find? (·.id == id)).map (·.cap.ent.fmt) else none
    | _ => none
  due.or s.core.mxu.gFmt
/-- The checks of `MCALL` in the order of R311, up to BANK_CONFLICT: class, cause and object of the fault, of a
`LINK_MISMATCH` its link, or the routine. TR outside the 16-bit class, for which R306 names no fault, takes FORMAT here (DESIGN CHOICE, log 121). -/
def State.callCheck (s : State) (r : BitVec 8) (acc : BitVec 2) : Except (Nat × Nat × Nat) Routine :=
  let m := s.core.mxu
  match cutEnd ((List.range 32).map fun i => s.ucodeAt s.pkgCore r.toNat i) with
  | none => .error (1, 4, 0)
  | some ops =>
    if !routineOk ops then .error (1, 4, 0)
    else if 2 ≤ m.q.length then .error (1, 5, 0)
    else
      let ent := fun (mp : Nat) => s.tileCheck (descTile (nth s.core.mp.toList mp 0)) none
      let os0 := operands ops ⟨1, 128, false⟩
      match os0.find? fun o => match ent o.mp with | .error _ => true | .ok _ => false with
      | some o => .error (7, 0, descTile (nth s.core.mp.toList o.mp 0))
      | none =>
        let capOf := fun (o : Opnd) => match ent o.mp with | .ok c => c | .error _ => ⟨0, ⟨false, false, 0, 0, 0, 0, 0, 0, 0⟩, 0⟩
        let fmtOf := fun (k : Nat) => (os0.find? (·.kind == k)).map fun o => (capOf o).ent.fmt
        let ga := ops.any fun u => uOp u == 1 && uGA u
        let tr := ops.any fun u => uOp u == 1 && uTR u
        let sp := ops.any fun u => uOp u == 2 && uSP u
        let bF := fmtOf 2
        let aF := if ga then s.gatherFmt.or bF else fmtOf 1
        let cls := match aF, bF with
          | some a, _ => mclass a
          | none, some b => mclass b
          | none, none => some ⟨1, 128, false⟩
        match cls with
        | none => .error (8, 0, 0)
        | some c =>
          let os := operands ops c
          let macs := ops.filter fun u => uOp u == 5
          let typAfter := fun (k : BitVec 2) => if macs.any (fun u => uAcc u acc == k) then c.int else rget m.typ k
          let bad :=
            (match aF, bF with | some a, some b => mclass a != mclass b || mclass b == none | _, _ => false)
              || os.any (fun o => !kindFmtOk o.kind (capOf o).ent.fmt || !s.fmtOk (capOf o).ent.fmt)
              || (match aF with | some a => !s.fmtOk a | none => false)
              || (sp && c.p == 1) || (tr && c.p != 1)
              || os.any (fun o => !baseOk (capOf o).ent.fmt (descBase (nth s.core.mp.toList o.mp 0)))
              || macs.any (fun u => decide (stepsOf c (uSP u) < uK0 u + macSteps u (stepsOf c (uSP u))))
              || ops.any (fun u => decide (6 ≤ uOp u) && (c.int || typAfter (uAcc u acc)))
          if bad then .error (8, 0, 0)
          else
            let base := fun (o : Opnd) => descBase (nth s.core.mp.toList o.mp 0)
            match os.find? fun o => decide ((capOf o).ent.count < base o + o.words * epw (capOf o).ent.fmt) with
            | some o => .error (6, 0, (capOf o).h)
            | none =>
              let fs := os.flatMap fun o => o.fetches (capOf o) (base o)
              if fs.any fun f => s.openHit f.cap.h [f.word] then
                .error (9, 0, ((fs.find? fun f => s.openHit f.cap.h [f.word]).map fun f => s.rangeLink f.cap.h [f.word] false).getD 0)
              else
                let d := (ops.map (uCycles c)).sum
                let st := match m.q.reverse with | q :: _ => max (s.gang.now + 11) (q.e + 1) | [] => s.gang.now + 11
                .ok { id := m.nextId, ops := ops, acc := acc, args := s.core.mp, caps := os.map capOf, fetches := fs,
                      iss := s.gang.now, s := st, e := st + d - 1, set1 := m.nextSet, aFmt := aF.getD 0, bFmt := bF.getD 0,
                      inChain := if m.chain then some m.chainNo else none, latch := [] }

def State.setMxu (s : State) (m : Mxu) : State := s.setCore { s.core with mxu := m }

/-- `MCALL` (R311). An `MSTAT` that samples in the cycle of its issue counts it already: the spec names no perform cycle for acceptance (DESIGN CHOICE, log 123). -/
def execMcall (r : BitVec 8) (acc : BitVec 2) (s : State) : Res :=
  match s.callCheck r acc with
  | .error (cls, cause, x) => raise .m cls cause (if cls = 9 then 0 else x) (if cls = 9 then x else 0) s
  | .ok q =>
    let m := s.core.mxu
    let accs := (q.ops.filter fun u => decide (5 ≤ uOp u)).map fun u => uAcc u acc
    let m := { m with q := m.q ++ [q], nextId := m.nextId + 1, nextSet := !m.nextSet,
                      chainEnd := if m.chain then max m.chainEnd q.e else m.chainEnd,
                      chainAccs := if m.chain then (m.chainAccs ++ accs).eraseDups else m.chainAccs }
    let s := s.setMxu m
    let s := s.setClu (q.caps.foldl Cluster.capture s.clu)
    let s := q.fetches.foldl (fun s f => s.charge f.t false f.cap f.word) s
    let s := (List.range 10).foldl (fun s t => s.later (t + 1) true (.mxFetch q.id (t + 1))) s
    let s := if q.s ≤ q.e then s.later (q.s - s.gang.now) true (.mxStep q.id 0) else s
    .next (s.later (q.e - s.gang.now) true (.mxEnd q.id))

/-! ### Chains (R312) -/

def execMchb (s : State) : Res :=
  let m := s.core.mxu
  if m.chain then raise .m 1 6 0 0 s
  else
    let old := ((m.chainEnd, m.chainAccs) :: m.oldChains).filter fun x => decide (s.gang.now ≤ x.1)
    .next (s.setMxu { m with chain := true, chainNo := m.chainNo + 1, chainEnd := s.gang.now, chainAccs := [], oldChains := old })
def execMche (s : State) : Res :=
  let m := s.core.mxu
  if !m.chain then raise .m 1 6 0 0 s
  else
    let live := m.q.any fun x => x.inChain == some m.chainNo
    .next (s.setMxu { m with chain := false, chainFlags := if live then m.chainFlags else m.chainFlags.filter (·.1 != m.chainNo) })
/-- A sample at cycle `c` of accumulators that satisfy `q` meets an unfinished chain that writes one. -/
def Mxu.openChain (m : Mxu) (c : Nat) (q : BitVec 2 → Bool) : Bool :=
  ((m.chainEnd, m.chainAccs) :: m.oldChains).any fun x => decide (c ≤ x.1) && x.2.any q

/-! ### Drains and gathers (R314, R315) -/

def execMzero (acc : BitVec 2) (s : State) : Res := .next (s.later 1 true (.mzero acc))

/-- Element words of a drain's destination. -/
def drainWords (fmt : BitVec 5) : Nat := 16384 * elemBits fmt / 2048

/-- `MDRAIN` (R314). Bits [63:32] of mpJ that are not zero, for which R314 names no consequence, take FORMAT (DESIGN CHOICE, log 120). -/
def execMdrain (t : BitVec 12) (acc : BitVec 2) (mp : BitVec 3) (rm : XRnd) (sat : Bool) (s : State) : Res :=
  let w := s.getMp mp
  let base := descBase w
  match s.tileCheck t.toNat (some (base + 16383)) with
  | .error cls => raise .m cls 0 t.toNat 0 s
  | .ok c =>
    let fmt := c.ent.fmt
    if !s.fmtOk fmt || fmt == 14 || bits w.toNat 63 32 != 0 || !baseOk fmt base then raise .m 8 0 0 0 s
    else
      let w0 := base / epw fmt
      let nw := drainWords fmt
      let els := (List.range nw).map (w0 + ·)
      let sc := scaleWords c.ent base nw
      match s.rangeTrap t.toNat (els ++ sc) true with
      | some cause => raise .m 9 cause 0 (s.rangeLink t.toNat (els ++ sc) true) s
      | none =>
        let m := s.core.mxu
        if m.openChain (s.gang.now + 1) (· == acc) then raise .m 1 7 0 0 s
        else
          let dr : Drain := { id := m.nextId, iss := s.gang.now, acc := acc, cap := c, base := base, rm := rm, sat := sat }
          let s := s.setMxu { m with drains := m.drains ++ [dr], nextId := m.nextId + 1 }
          let s := s.setClu (s.clu.capture c)
          let s := (List.range nw).foldl (fun s i => s.charge (8 + i / 16) true c (w0 + i)) s
          let s := s.chargeAll (8 + nw / 16) true c sc
          let s := s.later 1 true (.drainSample dr.id)
          .next (s.later (8 + nw / 16 - (if sc.isEmpty then 1 else 0)) true (.drainEnd dr.id))

/-- Row index i of a gather (R315). -/
def State.gatherIdx (s : State) (mp : BitVec 3) (i : Nat) : Nat :=
  bits (nth s.core.mp.toList (mp.toNat + 1 + i / 4) 0).toNat (16 * (i % 4) + 15) (16 * (i % 4))

/-- `MGIDX` (R315). Where several of its checks fail, of which neither R315 nor R310 gives an order, the bounds come before the format (DESIGN CHOICE, log 119). -/
def execMgidx (mp : BitVec 3) (n : BitVec 8) (s : State) : Res :=
  let w := s.getMp mp
  let offs := (List.range n.toNat).map fun i => descBase w + s.gatherIdx mp i * descStride w
  match s.tileCheck (descTile w) none with
  | .error cls => raise .m cls 0 (descTile w) 0 s
  | .ok c =>
    let fmt := c.ent.fmt
    if offs.any fun o => decide (c.ent.count < o + epw fmt) then raise .m 6 0 (descTile w) 0 s
    else if !s.fmtOk fmt || (mclass fmt).isNone || isBlock fmt || !baseOk fmt (descBase w) || offs.any (fun o => o % epw fmt != 0) then
      raise .m 8 0 0 0 s
    else
      let ws := offs.map (· / epw fmt)
      if s.openHit (descTile w) ws then raise .m 9 0 0 (s.rangeLink (descTile w) ws false) s
      else
        let m := s.core.mxu
        let g : Gather := { id := m.nextId, cap := c, words := ws, rows := [] }
        let s := s.setMxu { m with gathers := m.gathers ++ [g], nextId := m.nextId + 1 }
        let s := s.setClu (s.clu.capture c)
        let bankOf := fun i => c.ent.bank c.h (nth ws i 0)
        let s := (List.range n.toNat).foldl (fun s i =>
          let q := ((List.range i).filter fun j => bankOf j == bankOf i).length
          (s.later (2 + q / 2) true (.gatherRead g.id i)).charge (2 + q / 2) false c (nth ws i 0)) s
        .next (s.later 10 true (.gatherSet g.id))

/-! ### Status, copies, store (R316-R319) -/

def execMstat (mp : BitVec 3) (s : State) : Res :=
  if s.core.mxu.openChain (s.gang.now + 1) (fun _ => true) then raise .m 1 7 0 0 s
  else .next (s.later 1 true (.mstat mp))
def execMlive (acc : BitVec 2) (s : State) : Res := .next (s.later 1 true (.live acc true))
def execMdead (acc : BitVec 2) (s : State) : Res := .next (s.later 1 true (.live acc false))
def execCopyAM (d : BitVec 5) (mp : BitVec 3) (s : State) : Res := .next (s.later 2 false (.a d (s.getMp mp)))
def execMloaduc (r : BitVec 8) (i : BitVec 5) (mp : BitVec 3) (s : State) : Res := .next (s.later 1 true (.ucodeW r i (s.getMp mp)))
def execMreaduc (mp : BitVec 3) (r : BitVec 8) (i : BitVec 5) (s : State) : Res := .next (s.later 1 true (.ucodeR mp r i))

end Sys2Proof.Machine
end

