-- ==== Sys2Proof/Machine/MatrixRun.lean ====
section
/-! DEFINITION. What the matrix unit does in the cycles after an M-slot form issues: fetches (13 R306), steps (R307, R308), the
accumulator micro-ops (R304), drains (R314), gathers (R315), status (R316). -/

namespace Sys2Proof.Machine

/-- Queues an action as of the bundle that issued at `iss` (05 R109). -/
def State.laterIss (s : State) (iss dt : Nat) (a : Act) : State :=
  { s with core := { s.core with
      pend := insertPend { time := s.gang.now + dt, iss := iss, own := true, act := a } s.core.pend } }

/-- A read of these words of a tile: it is counted, and may meet an uncorrectable error (03 R63, 17 R405). -/
def State.notePoison (s : State) (c : Cap) (ws : List Nat) : State :=
  let s := s.countReads s.clu.phys c ws
  match s.clu.capTile? c with
  | some t => if t.poison.any (fun u => ws.contains (u / 32)) then s.soon (.dataUe (.scratch s.clu.phys)) else s
  | none => s

def Mxu.updRoutine (m : Mxu) (id : Nat) (f : Routine → Routine) : Mxu := { m with q := updateAll (fun r => r.id == id) f m.q }

/-! ### Fetches -/

/-- The fetches of a routine at issue+`t`; at issue+1 a gathered A latch is copied. -/
def State.mxFetch (s : State) (id t : Nat) : State :=
  match s.core.mxu.q.find? (·.id == id) with
  | none => s
  | some r =>
    let fs := r.fetches.filter (·.t == t)
    let got := fs.map fun f => (f.place, tileWord (s.clu.dataOf f.cap) f.word)
    let ga := t == 1 && r.ops.any fun u => uOp u == 1 && uGA u
    let rows := if ga then s.core.mxu.gRows.map fun x => (placeA + 256 * x.1, x.2) else []
    let s := fs.foldl (fun s f => s.notePoison f.cap [f.word]) s
    s.setMxu (s.core.mxu.updRoutine id fun r => { r with latch := r.latch ++ got ++ rows })

/-! ### A latch set read as operands -/

/-- The bytes of `n` latched words from a place. -/
def latchBytes (l : List (Nat × List Byte)) (place n : Nat) : Array Byte :=
  (((List.range n).map fun i =>
    match l.find? (fun x => x.1 == place + 256 * i) with | some x => x.2 | none => List.replicate 256 0).flatten).toArray
def byteOf (a : Array Byte) (i : Nat) : Nat := (a.getD i 0).toNat
/-- The `i`-th code of `n` bits, bytes and nibbles little-endian (04 R80). -/
def codeOf (a : Array Byte) (n i : Nat) : Nat :=
  match n with
  | 4 => byteOf a (i / 2) / 16 ^ (i % 2) % 16
  | 1 => byteOf a (i / 8) / 2 ^ (i % 8) % 2
  | _ => (List.range (n / 8)).foldl (fun v j => v + byteOf a (i * (n / 8) + j) * 256 ^ j) 0

/-- An operand block: element bytes, scale bytes, format. -/
structure OpBlock where
  el : Array Byte
  sc : Array Byte
  fmt : BitVec 5
/-- Element `i` of a block as an exact value (R308), with the FMT flag of its decode. -/
def OpBlock.val (b : OpBlock) (i : Nat) : Val × Fl :=
  let n := elemBits b.fmt
  if isBlock b.fmt then
    let j := i / 32
    if b.fmt.toNat = 13 then decodeQ4X (fun x => codeOf b.el n (32 * j + x)) (byteOf b.sc (2 * j)) (byteOf b.sc (2 * j + 1)) (i % 32)
    else (decodeMX b.fmt (codeOf b.el n i) (byteOf b.sc j), 0)
  else match decodeSimple b.fmt (codeOf b.el n i) with
    | .f v => (v, 0)
    | .i x => (Val.ofInt x, 0)
/-- Element `i` of a block of an integer format. -/
def OpBlock.int (b : OpBlock) (i : Nat) : Int := decodeInt b.fmt (codeOf b.el (elemBits b.fmt) i)

/-- What a routine's steps read. -/
structure MacIn where
  a : OpBlock
  b : OpBlock
  md : Array Byte
  cls : MClass
  tr : Bool
  sp : Bool
def Routine.macIn (r : Routine) : MacIn :=
  let sp := r.ops.any fun u => uOp u == 2 && uSP u
  let cls := (mclass r.aFmt).getD ⟨1, 128, false⟩
  { a := { el := latchBytes r.latch placeA 128, sc := latchBytes r.latch placeSA 16, fmt := r.aFmt }
    b := { el := latchBytes r.latch placeB (if sp then 64 else 128), sc := latchBytes r.latch placeSB 16, fmt := r.bFmt }
    md := latchBytes r.latch placeMeta 32, cls := cls, tr := r.ops.any fun u => uOp u == 1 && uTR u, sp := sp }
/-- Place of A[m][k] among the latched elements. -/
def MacIn.aIdx (x : MacIn) (m k : Nat) : Nat :=
  if x.tr then k * epw x.a.fmt + m else m * epw x.a.fmt + k
/-- The pairs of places (A, B) whose products step `j` forms for column `n`, and the A positions not kept (R302, R308). -/
def MacIn.pairs (x : MacIn) (j m n : Nat) : List (Nat × Nat) × List Nat :=
  let p := x.cls.p
  if x.sp then
    let gs := (List.range (p / 2)).map (j * p / 2 + ·)
    let sel := fun g => let c := codeOf x.md 4 (128 * g + n); (c % 4, c / 4)
    (gs.flatMap fun g =>
        [(x.aIdx m (4 * g + (sel g).1), 128 * (2 * g) + n), (x.aIdx m (4 * g + (sel g).2), 128 * (2 * g + 1) + n)],
     gs.flatMap fun g => ((List.range 4).filter fun i => i != (sel g).1 && i != (sel g).2).map fun i => x.aIdx m (4 * g + i))
  else ((List.range p).map fun i => (x.aIdx m (j * p + i), 128 * (j * p + i) + n), [])

/-- The accumulator lane after step `j` (04 R102, R103, R105). Products are summed exactly; one rounding. A Q4X block whose markers
are not accepted sets FMT at each step that uses it; 04 R75 calls the fetch no conversion (DESIGN CHOICE, log 122). -/
def MacIn.lane (x : MacIn) (j m n : Nat) (old : W32) : W32 × Fl :=
  let (ps, skipped) := x.pairs j m n
  if x.cls.int then
    (BitVec.ofInt 32 (old.toInt + (ps.map fun p => x.a.int p.1 * x.b.int p.2).foldl (· + ·) 0), 0)
  else
    let vs := ps.map fun p => (x.a.val p.1, x.b.val p.2)
    let sk := skipped.map x.a.val
    let fmt := (vs.foldl (fun f v => f ||| v.1.2 ||| v.2.2) 0) ||| (sk.foldl (fun f v => f ||| v.2) 0)
    let nanOp := vs.any fun v => v.1.1.isNan || v.2.1.isNan
    let (sum, fl) := vs.foldl (fun (t : Val × Fl) v =>
      let (pr, f1) := v.1.1.mul v.2.1
      let (u, f2) := t.1.add pr .rne
      (u, t.2 ||| f1 ||| f2)) (Val.zero true, (0 : Fl))
    let special := sk.any fun v => v.1.isNan || v.1.isInf
    let flS : Fl := if sk.any (fun v => v.1.isInf) then fNV else 0
    let flP : Fl := if nanOp then 0 else fl
    if special then (nan32, fmt ||| flS ||| flP)
    else
      let (t, f3) := (valOf old).add sum .rne
      let (w, f4) := toF32 .rne t
      (w, fmt ||| flP ||| f3 ||| f4)

/-- An accumulator built lane by lane with the flags of every lane. -/
def accMap (f : Nat → Nat → W32 × Fl) : Acc × Fl :=
  let rows := Vector.ofFn (n := 128) fun m => Vector.ofFn (n := 128) fun n => f m.val n.val
  (rows.map fun r => r.map (·.1), rows.foldl (fun a r => r.foldl (fun b x => b ||| x.2) a) 0)
def Acc.lane (a : Acc) (m n : Nat) : W32 := if h : m < 128 ∧ n < 128 then (a[m]'h.1)[n]'h.2 else 0

/-! ### Steps and accumulator micro-ops (R304, R307) -/

/-- The micro-op that runs in the routine's cycle `k`, and its step. -/
def microAt (c : MClass) : List W64 → Nat → Option (W64 × Nat)
  | [], _ => none
  | u :: l, k => if k < uCycles c u then some (u, k) else microAt c l (k - uCycles c u)

/-- Flags that the routines of chain `n` have raised. -/
def Mxu.flagsOf (m : Mxu) (n : Nat) : Fl := ((m.chainFlags.find? (·.1 == n)).map (·.2)).getD 0
/-- Flags of a routine: at once, or with its chain's end (R312). -/
def State.mxFlags (s : State) (r : Routine) (f : Fl) : State :=
  match r.inChain with
  | some n => s.setMxu { s.core.mxu with chainFlags := (n, s.core.mxu.flagsOf n ||| f) :: s.core.mxu.chainFlags.filter (·.1 != n) }
  | none => s.setCore { s.core with aflags := s.core.aflags ||| f.setWidth 64 }

/-- The new accumulator of micro-op `u` in its step `k`. -/
def Routine.run (r : Routine) (u : W64) (k : Nat) (old : Acc) : Acc × Fl :=
  match uOp u with
  | 5 =>
    let x := r.macIn
    accMap fun m n => x.lane (uK0 u + k) m n (if uZF u && k == 0 then 0 else Acc.lane old m n)
  | 6 =>
    let sc := valOf (fieldAt (nth r.args.toList (uMsrc u) 0).toNat 0 32)
    accMap fun m n =>
      let (t, f1) := (valOf (Acc.lane old m n)).mul sc
      let (w, f2) := toF32 .rne t
      (w, f1 ||| f2)
  | 7 =>
    let mk := latchBytes r.latch placeMask 8
    accMap fun m n => (if codeOf mk 1 (128 * m + n) = 0 then 0xFF800000 else Acc.lane old m n, 0)
  | 8 =>
    let vec := latchBytes r.latch placeVec 2
    accMap fun m n =>
      let (t, f1) := (valOf (Acc.lane old m n)).mul (valOf (BitVec.ofNat 32 (codeOf vec 32 m)))
      let (w, f2) := toF32 .rne t
      (w, f1 ||| f2)
  | _ => (old, 0)

/-- The MXU cycle `k` of a routine; the next follows in the next cycle. -/
def State.mxStep (s : State) (id k : Nat) : State :=
  match s.core.mxu.q.find? (·.id == id) with
  | none => s
  | some r =>
    let cls := (mclass r.aFmt).getD ⟨1, 128, false⟩
    match microAt cls r.ops k with
    | none => s
    | some (u, j) =>
      let i := uAcc u r.acc
      let m := s.core.mxu
      let (acc, fl) := r.run u j (rget m.acc i)
      let typ := if uOp u = 5 then rset m.typ i cls.int else m.typ
      let s := (s.setMxu { m with acc := rset m.acc i acc, typ := typ }).mxFlags r fl
      if r.s + k < r.e then s.laterIss r.iss 1 (.mxStep id (k + 1)) else s

/-- The routine ends: its captures end, and the flags of its chain are set if none of its routines is left. While the chain is open, a later routine of it
moves their cycle, and they are set again then (R312). -/
def State.mxEnd (s : State) (id : Nat) : State :=
  match s.core.mxu.q.find? (·.id == id) with
  | none => s
  | some r =>
    let m := s.core.mxu
    let q := m.q.filter (·.id != id)
    let s := s.setClu (r.caps.foldl Cluster.release s.clu)
    match r.inChain with
    | some n =>
      if q.all fun x => x.inChain != some n then
        let keep := m.chain && m.chainNo == n
        s.setCore { s.core with aflags := s.core.aflags ||| (m.flagsOf n).setWidth 64,
                                mxu := { m with q := q, chainFlags := if keep then m.chainFlags else m.chainFlags.filter (·.1 != n) } }
      else s.setMxu { m with q := q }
    | none => s.setMxu { m with q := q }

/-! ### Drains (R314) -/

/-- A lane encoded into a simple format by its TYPE. -/
def drainElem (fmt : BitVec 5) (md : RMode) (row col : Nat) (sat int : Bool) (w : W32) : Nat × Fl :=
  if int then
    if isInt fmt then encodeInt fmt w else roundTo (floatOf fmt) md row col sat (Val.ofInt w.toInt)
  else if isInt fmt then
    let (lo, hi) := intRange fmt
    let (n, fl) := floatToInt md row col lo hi (valOf w)
    (intCode fmt n, fl)
  else encodeLane fmt md row col sat w

/-- The updates of a drain's 128 × 128 elements, block by block of 32, with their flags. -/
def Drain.encode (d : Drain) (acc : Acc) (int : Bool) : List (List BitUpd) × Fl :=
  let e := d.cap.ent
  let md := modeOfX d.rm
  let val := fun (k : Nat) => Acc.lane acc (k / 128) (k % 128)
  let ex := fun k => if int then Val.ofInt (val k).toInt else valOf (val k)
  let one (b : Nat) : List BitUpd × Fl :=
    let k0 := 32 * b
    if isBlock e.fmt then
      let c := encodeBlock e.fmt md (fun i => e.coord (d.base + k0 + i)) d.sat ((List.range 32).map fun i => ex (k0 + i))
      (blockUpd e ((d.base + k0) / 32) c, c.fl)
    else
      let l := (List.range 32).map fun i =>
        let (r, c) := e.coord (d.base + k0 + i)
        let (v, fl) := drainElem e.fmt md r c d.sat int (val (k0 + i))
        (elemUpd e (d.base + k0 + i) v, fl)
      (l.map (·.1), l.foldl (fun a x => a ||| x.2) 0)
  let bs := (List.range 512).map one
  (bs.map (·.1), bs.foldl (fun a x => a ||| x.2) 0)

/-- The drain samples; its writes and flags are queued as of its bundle. -/
def State.drainSample (s : State) (id : Nat) : State :=
  match s.core.mxu.drains.find? (·.id == id) with
  | none => s
  | some d =>
    let e := d.cap.ent
    let (bs, fl) := d.encode (rget s.core.mxu.acc d.acc) (rget s.core.mxu.typ d.acc)
    let nw := drainWords e.fmt
    let w0 := d.base / epw e.fmt
    let ups := bs.flatten
    let s := (List.range (nw / 16)).foldl (fun s t =>
      let us := ups.filter fun u => decide (w0 + 16 * t ≤ u.o / 2048) && decide (u.o / 2048 < w0 + 16 * t + 16)
      s.laterIss d.iss (7 + t) (.tile d.cap us)) s
    let scs := ups.filter fun u => decide (w0 + nw ≤ u.o / 2048)
    let s := if scs.isEmpty then s else s.laterIss d.iss (7 + nw / 16) (.tile d.cap scs)
    if fl = 0 then s else s.laterIss d.iss 7 (.flags fl)
def State.drainEnd (s : State) (id : Nat) : State :=
  match s.core.mxu.drains.find? (·.id == id) with
  | none => s
  | some d =>
    let s := s.setClu (s.clu.release d.cap)
    s.setMxu { s.core.mxu with drains := s.core.mxu.drains.filter (·.id != id) }

/-! ### Gathers (R315) -/

def State.gatherRead (s : State) (id i : Nat) : State :=
  match s.core.mxu.gathers.find? (·.id == id) with
  | none => s
  | some g =>
    let w := nth g.words i 0
    let row := tileWord (s.clu.dataOf g.cap) w
    let s := s.notePoison g.cap [w]
    s.setMxu { s.core.mxu with
      gathers := updateAll (fun x => x.id == id) (fun x => { x with rows := x.rows ++ [(i, row)] }) s.core.mxu.gathers }
def State.gatherSet (s : State) (id : Nat) : State :=
  match s.core.mxu.gathers.find? (·.id == id) with
  | none => s
  | some g =>
    let s := s.setClu (s.clu.release g.cap)
    s.setMxu { s.core.mxu with
      gCount := g.words.length, gFmt := some g.cap.ent.fmt, gRows := g.rows,
      gathers := s.core.mxu.gathers.filter (·.id != id) }

/-! ### Status and the store (R316, R319) -/

def Mxu.status (m : Mxu) : W64 :=
  let v4 := fun (v : Vector Bool 4) => ((List.range 4).map fun i => (nth v.toList i false).toNat * 2 ^ i).sum
  BitVec.ofNat 64 (v4 m.live + v4 m.typ * 2 ^ 4 + m.nextSet.toNat * 2 ^ 12 + m.chain.toNat * 2 ^ 13 + m.q.length * 2 ^ 14
    + m.gCount * 2 ^ 16)
/-- Micro-op `i` of routine `r` of core `core` replaced. -/
def Pkg.setUcode (p : Pkg) (core r i : Nat) (v : W64) : Pkg :=
  let k := core * 8192 + r * 32 + i
  { p with uc := (k, v) :: p.uc.filter (·.1 != k) }

end Sys2Proof.Machine
end

