-- ==== Sys2Proof/Machine/Reserve.lean ====
section
/-! DEFINITION. The reservations of the stacks and of the second tier as bytes (03 R67-R70, 18 R428), which a firmware core reads by physical address
(18 R421): undo logs, tag table, snapshot slots, Chothes records (log 54). -/

namespace Sys2Proof.Machine

/-- A cluster's tile table (16 R389, 02 R42). -/
def Cluster.tableBytes (c : Cluster) : List (Nat × List Byte) :=
  (List.range 4096).map fun h =>
    (16 * h, match c.tiles.find? (·.1 == h) with | some x => toBytes 16 x.2.ent.bits | none => List.replicate 16 0)
/-- The words of its tiles that meet `keep`, from 64 KiB on by logical bank and row; the row of a tile's word counts from `off`, and the rows of the tiles of
lower handles, in the same banks (the physical row is the device's choice, 03 R55). -/
def Cluster.tileWords (c : Cluster) (keep : TileEnt → Bool) (off : Nat → Nat) : List (Nat × List Byte) :=
  let base := fun (h : Nat) (e : TileEnt) =>
    ((c.tiles.filter fun x => decide (x.1 < h) && (x.2.ent.lvl == e.lvl) && (e.lvl || x.2.ent.owner == e.owner)).map fun x => x.2.ent.rows).sum
      + (if e.lvl then 0 else c.crows)
  (c.tiles.filter fun x => keep x.2.ent).flatMap fun x =>
    let e := x.2.ent
    (List.range e.words).map fun w =>
      let b := e.bank x.1 w
      (0x10000 + 256 * (b * 1024 + off (b / 16) + base x.1 e + (if e.lvl then w / 64 else w / 16)), tileWord x.2.data w)
/-- The tile area of a group's save area. -/
def Cluster.saveArea (c : Cluster) : List (Nat × List Byte) := c.tableBytes ++ c.tileWords (fun _ => true) fun _ => 0
/-- Rows that the group reserves in the banks of core `q` (03 R59). -/
def Cluster.reserved (c : Cluster) (q : Nat) : Nat := c.crows + nth c.nrows.toList q 0
/-- A cluster of a snapshot slot: the table of the first of its groups, and the RETAIN tiles of all, each group's rows after those that the ones before it
reserve. -/
def slotArea (l : List Cluster) : List (Nat × List Byte) :=
  (l.head?.map Cluster.tableBytes).getD []
    ++ l.zipIdx.flatMap fun x => x.1.tileWords (·.retain) fun q => ((l.take x.2).map fun c => c.reserved q).sum

/-! ### Snapshot slots (R68, 18 R428) -/

/-- A byte of a snapshot slot: slot B, package cluster, offset in the layout of a tile area. -/
def State.snapPlace (s : State) (a : Nat) : Option (Bool × Nat × Nat) :=
  let k := a / 2 ^ 36
  if !isHbm a then none
  else if s.pkg.clk.full then
    if a < s.sealArea k ∨ s.undoBase k ≤ a then none
    else
      let o := a - s.sealArea k
      match k % 3 with
      | 1 => some (false, 16 * (k / 3) + o / 2 ^ 24, 2 ^ 16 + o % 2 ^ 24)
      | 2 => some (true, 16 * (k / 3) + o / 2 ^ 24, 2 ^ 16 + o % 2 ^ 24)
      | _ =>
        if o < 2 ^ 27 ∨ 2 ^ 27 + 2 ^ 21 ≤ o then none
        else
          let t := o - 2 ^ 27
          some (t / 2 ^ 20 == 1, 16 * (k / 3) + t % 2 ^ 20 / 2 ^ 16, t % 2 ^ 16)
  else
    let b := s.sealArea 0 - 2 ^ 32
    if k ≠ 0 ∨ a < b ∨ s.sealArea 0 ≤ a then none
    else
      let o := a - b
      let z := o % 2 ^ 29
      let c := 16 * (o / 2 ^ 30)
      let slot := o % 2 ^ 30 / 2 ^ 29 == 1
      if z < 2 ^ 28 then some (slot, c + z / 2 ^ 24, 2 ^ 16 + z % 2 ^ 24)
      else if z < 2 ^ 28 + 2 ^ 20 then some (slot, c + (z - 2 ^ 28) / 2 ^ 16, z % 2 ^ 16)
      else none
/-- What a slot holds there: of the groups on the cluster, the one that executed first. R68 gives each cluster one table, which holds that group's (log 54). -/
def State.snapByte (s : State) (a : Nat) : Option Byte :=
  match s.snapPlace a with
  | none => none
  | some (slot, k, o) =>
    match (if slot then s.dom.snapB else s.dom.snapA) with
    | none => none
    | some sn =>
      let on := sn.boxes.filter fun b => b.gang.run != .evicted && (b.clu :: b.clus).any (·.phys == k)
      let l := (on.filter (·.gang.sealed) ++ on.filter fun b => !b.gang.sealed).filterMap fun b => (b.clu :: b.clus).find? (·.phys == k)
      ((slotArea l).find? fun x => decide (x.1 ≤ o) && decide (o < x.1 + x.2.length)).map fun x => nth x.2 (o - x.1) 0

/-! ### Chothes records (R68, R70, R403, 18 R428) -/

/-- The fault log of a die, a ring of 4,096 records (17 R403), and 256 KiB further, in the hub's, the latent-error list. -/
def State.recordByte (s : State) (a : Nat) : Option Byte :=
  (List.range 5).findSome? fun d =>
    let (b, n) := s.recordsOf d
    if a < b ∨ b + n ≤ a then none
    else
      let o := a - b
      let log := nth s.pkg.faults.toList d []
      let first := (nth s.pkg.faultCount.toList d 0 - log.length) % 4096
      some (if o < 2 ^ 18 then ((log[(o / 64 + 4096 - first) % 4096]?).map fun r => nth r.bytes (o % 64) 0).getD 0
        else if d = 4 then ((s.pkg.latent[(o - 2 ^ 18) / 8]?).map fun l => nth (toBytes 8 l) (o % 8) 0).getD 0
        else 0)

/-! ### A far load of a firmware core -/

/-- Byte `a` as a read of a firmware core on die `d` sees it: of a reservation what it holds, or what a firmware core has stored there since, else memory's. -/
def State.loadByte (s : State) (d : Nat) (a : Nat) : Byte :=
  match s.undoPlace a, s.tagPlace a with
  | some (k, i, j), _ => ((s.undoLog k)[i]?.map fun u => nth u.image j 0).getD (s.mem.byteAt (some d) a)
  | _, some n => s.mem.tagOf n s.dom.ri
  | _, _ =>
    if s.pkg.poked.contains a then s.mem.byteAt (some d) a else ((s.snapByte a).or (s.recordByte a)).getD (s.mem.byteAt (some d) a)
def State.loadBytes (s : State) (d a n : Nat) : List Byte := (List.range n).map fun i => s.loadByte d (a + i)

end Sys2Proof.Machine
end

