-- ==== Sys2Proof/Machine/Engine.lean ====
section
/-! DEFINITION. What the transfer engines compute (14 R328-R346, 04 R82, R83, R91): boxes and ends, dimension-mapping words,
conversion, the updates of a destination, CRC-64. -/

namespace Sys2Proof.Machine

/-! ### Places -/

/-- Where an element stands: bit address, byte address of its block's scale, block, place in the block. -/
structure Place where
  bit : Int
  scale : Int
  blk : Int
  pos : Nat
deriving DecidableEq, Repr

/-- BLEN of a frame record; 0 for the reserved code (02 R31, R32). -/
def blenOf (code : Nat) : Nat := match code with | 0 => 16 | 1 => 32 | 2 => 64 | _ => 0

/-- Element bytes of a block, bytes of a block, blocks of a page (04 R82). -/
def blkEB (fmt : BitVec 5) (blen : Nat) : Nat := blen * elemBits fmt / 8
def blkBB (fmt : BitVec 5) (blen : Nat) : Nat := blkEB fmt blen + scaleBytes fmt
def pageBlocks (fmt : BitVec 5) (blen : Nat) : Nat := 2 ^ 21 / blkBB fmt blen

/-- Virtual address of OFF. -/
def GEnd.va (e : GEnd) : Nat := e.virt + e.off
/-- Block j0 of the page holding OFF, where OFF is the first element byte of a block (R331). -/
def GEnd.j0 (e : GEnd) : Option Nat :=
  let w := if e.split then blkEB e.fmt e.blen else blkBB e.fmt e.blen
  let p := e.va % 2 ^ 21
  if p % w = 0 ∧ p / w < pageBlocks e.fmt e.blen then some (p / w) else none
/-- Element number `g` from OFF (R330, R331); addresses are virtual. -/
def GEnd.place (e : GEnd) (g : Int) : Place :=
  if isBlock e.fmt then
    let b : Int := pageBlocks e.fmt e.blen
    let n : Int := e.blen
    let q : Int := ((e.j0.getD 0 : Nat) : Int) * n + g
    let page : Int := ((e.va / 2 ^ 21 : Nat) + q / (b * n)) * 2097152
    let j := q % (b * n) / n
    let a := (q % n).toNat
    let eb : Int := blkEB e.fmt e.blen
    let sb : Int := scaleBytes e.fmt
    let el := if e.split then j * eb else j * (eb + sb)
    { bit := 8 * (page + el) + (a * elemBits e.fmt : Nat)
      scale := page + (if e.split then (2097152 : Int) - b * sb + j * sb else j * (eb + sb) + eb)
      blk := q / n, pos := a }
  else { bit := 8 * (e.va : Int) + g * (elemBits e.fmt : Int), scale := 0, blk := 0, pos := 0 }
/-- Element `k` of a tile (03 R54); addresses are those of the tile's bytes. -/
def TileEnt.place (e : TileEnt) (k : Nat) : Place :=
  { bit := (k * elemBits e.fmt : Nat), scale := (e.scaleAt (k / 32) : Nat), blk := ((k / 32 : Nat) : Int), pos := k % 32 }

/-- Physical address of a virtual address of the region. -/
def GEnd.phys (e : GEnd) (va : Nat) : Nat := e.far + leafFrame (nth e.recs (va / 2 ^ 21 - e.virt / 2 ^ 21) 0).toNat + va % 2 ^ 21

def End.fmt : End → BitVec 5
  | .glob g => g.fmt
  | .tile c _ => c.ent.fmt
def End.blen : End → Nat
  | .glob g => g.blen
  | .tile _ _ => 32

/-! ### Dimension-mapping words (R342-R344) -/

/-- A word that meets R342: granule exponent, virtual extents, PERM, merged destination extents in elements, class cost. -/
structure Dmw where
  g : Nat
  x : List Nat
  perm : List Nat
  dims : List Nat
  cost : Nat
deriving DecidableEq, Repr

/-- Dimension j+1 joined into j where MERGE says so; the list is of destination extents. -/
def mergeDims (m : Nat) (l : List Nat) : List Nat :=
  (l.mapIdx fun j e => (j, e)).foldl (fun a x =>
    if 0 < x.1 ∧ bits m (x.1 - 1) (x.1 - 1) = 1 then a.dropLast ++ [a.getLast?.getD 1 * x.2] else a ++ [x.2]) []

/-- The word over source extents `ext`, of rank at most `maxN`; none where it takes `FORMAT`. -/
def dmwOf (w : W64) (ext : List Nat) (maxN : Nat) : Option Dmw :=
  let v := w.toNat
  let n := bits v 2 0 + 1
  let g := bits v 53 52
  let sp := fun d => bits v (3 + 3 * d + 2) (3 + 3 * d)
  let units := (List.range n).map fun d => if d = 0 then nth ext 0 1 / 2 ^ g else nth ext d 1
  let x := (List.range n).flatMap fun d =>
    let e := nth units d 1
    if sp d = 0 then [e] else [2 ^ sp d, e / 2 ^ sp d]
  let k := x.length
  let perm := (List.range 8).map fun j => bits v (21 + 3 * j + 2) (21 + 3 * j)
  let p := perm.take k
  let ok := bits v 63 54 == 0 && decide (n ≤ maxN) && (ext.drop n).all (· == 1) && nth ext 0 1 % 2 ^ g == 0
    && (List.range n).all (fun d => nth units d 1 % 2 ^ sp d == 0)
    && (List.range 6).all (fun d => decide (d < n) || sp d == 0)
    && decide (k ≤ 8)
    && (List.range k).all (fun i => p.contains i) && (perm.drop k).all (· == 0)
    && decide (bits v 51 45 < 2 ^ (k - 1))
  if ok then
    let moved := ((List.range k).filter fun j => nth p j 0 != j).length
    let splits := ((List.range n).filter fun d => sp d != 0).length
    let dest := p.mapIdx fun j i => (if j = 0 then 2 ^ g else 1) * nth x i 1
    some { g := g, x := x, perm := p, dims := mergeDims (bits v 51 45) dest,
           cost := if moved = 0 then 0 else 6 + 4 * moved + 2 * splits - 2 * g }
  else none

/-- Coordinates of an index, the first varying fastest. -/
def coordsOf : List Nat → Nat → List Nat
  | [], _ => []
  | e :: l, u => u % e :: coordsOf l (u / e)
/-- DestIndex of R343. -/
def Dmw.destIndex (d : Dmw) (u : Nat) : Nat :=
  let c := coordsOf d.x u
  (d.perm.foldl (fun (a : Nat × Nat) p => (a.1 + nth c p 0 * a.2, a.2 * nth d.x p 1)) (0, 1)).1
/-- L′ of source element L. -/
def Dmw.dest (d : Dmw) (l : Nat) : Nat := 2 ^ d.g * d.destIndex (l / 2 ^ d.g) + l % 2 ^ d.g
/-- The source unit that goes to destination unit `i`: the inverse of DestIndex. -/
def Dmw.srcIndex (d : Dmw) (i : Nat) : Nat :=
  let c := coordsOf (d.perm.map fun p => nth d.x p 1) i
  let at_ := fun v => match d.perm.idxOf? v with | some j => nth c j 0 | none => 0
  ((List.range d.x.length).foldl (fun (a : Nat × Nat) v => (a.1 + at_ v * a.2, a.2 * nth d.x v 1)) (0, 1)).1
/-- The source element that goes to destination element `k`. -/
def Dmw.src (d : Dmw) (k : Nat) : Nat := 2 ^ d.g * d.srcIndex (k / 2 ^ d.g) + k % 2 ^ d.g

/-! ### Boxes (R329, R330) -/

def boxN (ext : List Nat) : Nat := ext.foldl (· * ·) 1
/-- Element number of box index `l`: strides of dimensions 1 and up. -/
def boxG (ext : List Nat) (str : List Int) (l : Nat) : Int :=
  ((coordsOf ext l).zip (1 :: str)).foldl (fun a p => a + (p.1 : Int) * p.2) 0
def boxMin (ext : List Nat) (str : List Int) : Int :=
  (ext.zip (1 :: str)).foldl (fun a p => if p.2 < 0 then a + ((p.1 : Int) - 1) * p.2 else a) 0
def boxMax (ext : List Nat) (str : List Int) : Int :=
  (ext.zip (1 :: str)).foldl (fun a p => if 0 < p.2 then a + ((p.1 : Int) - 1) * p.2 else a) 0
/-- Strides of a dense box. -/
def denseStr (ext : List Nat) : List Int := (List.range 4).map fun d => ((boxN (ext.take (d + 1)) : Nat) : Int)

/-- Least and greatest byte offset that elements `lo` to `hi` of an end, and their scales, occupy, from the region's start. -/
def GEnd.span (e : GEnd) (lo hi : Int) : Int × Int :=
  let a := (e.place lo).bit / 8
  let p := e.place hi
  let b := (p.bit + (elemBits e.fmt : Int) - 1) / 8
  let c := if isBlock e.fmt then max b (p.scale + (scaleBytes e.fmt : Int) - 1) else b
  (a - (e.virt : Int), c - (e.virt : Int))

/-! ### Reading and converting -/

/-- The `n`-bit code at a bit address; `rd` reads bytes. -/
def codeAt (rd : Int → Nat) (bit : Int) (n : Nat) : Nat :=
  let sh : Nat := (bit % 8).toNat
  if n < 8 then rd (bit / 8) / 2 ^ sh % 2 ^ n
  else (List.range (n / 8)).foldl (fun (v j : Nat) => v + rd (bit / 8 + (j : Int)) * 256 ^ j) 0
/-- An element as an exact value (R332, 04 R77-R81, R85). -/
def elemAt (rd : Int → Nat) (fmt : BitVec 5) (p : Place) : Elem × Fl :=
  let n := elemBits fmt
  if isBlock fmt then
    if fmt.toNat = 13 then
      let (v, fl) := decodeQ4X (fun i => codeAt rd (p.bit + 4 * ((i : Int) - (p.pos : Int))) 4) (rd p.scale) (rd (p.scale + 1)) p.pos
      (.f v, fl)
    else (.f (decodeMX fmt (codeAt rd p.bit n) (rd p.scale)), 0)
  else (decodeSimple fmt (codeAt rd p.bit n), 0)
/-- The exact value of an element for a block encode. -/
def Elem.val : Elem → Val
  | .f v => v
  | .i x => Val.ofInt x

/-- A move of `n` elements in destination order: the source place of the element that goes to destination element `k`, the
destination places, and the coordinates of R91. -/
structure Move where
  sf : BitVec 5
  df : BitVec 5
  sb : Nat
  db : Nat
  n : Nat
  src : Nat → Place
  dst : Nat → Place
  coord : Nat → Nat × Nat
  rm : XRnd
  sat : Bool

/-- Elements of a unit of the destination, and units. -/
def Move.step (m : Move) : Nat := if isBlock m.df then m.db else 1
def Move.units (m : Move) : Nat := m.n / m.step
/-- Every destination block takes one whole source block in order (R332). -/
def Move.whole (m : Move) : Bool :=
  (List.range (m.n / m.db)).all fun b =>
    (List.range m.db).all fun i => (m.src (m.db * b + i)).blk == (m.src (m.db * b)).blk && (m.src (m.db * b + i)).pos == i
/-- The move copies and does not convert. -/
def Move.copies (m : Move) : Bool := m.sf == m.df && (!isBlock m.df || (m.sb == m.db && m.whole))

/-- An update: bit address, width, value. -/
abbrev Put := Int × Nat × Nat

/-- The updates of unit `b` and the flags of its conversion. -/
def Move.unit (m : Move) (copies : Bool) (rd : Int → Nat) (b : Nat) : List Put × Fl :=
  let w := elemBits m.df
  if isBlock m.df then
    let k0 := m.db * b
    let d0 := m.dst k0
    let scales (l : List Nat) : List Put := l.mapIdx fun i v => (8 * (d0.scale + (i : Int)), 8, v)
    if copies then
      ((List.range m.db).map (fun i => ((m.dst (k0 + i)).bit, w, codeAt rd (m.src (k0 + i)).bit w))
        ++ scales ((List.range (scaleBytes m.df)).map fun (i : Nat) => rd ((m.src k0).scale + (i : Int))), 0)
    else
      let es := (List.range m.db).map fun i => elemAt rd m.sf (m.src (k0 + i))
      let c := encodeBlock m.df (modeOfX m.rm) (fun i => m.coord (k0 + i)) m.sat (es.map fun e => e.1.val)
      ((List.range m.db).map (fun i => ((m.dst (k0 + i)).bit, w, nth c.q i 0)) ++ scales (if m.df.toNat = 13 then [c.s, c.o] else [c.s]),
       es.foldl (fun f e => f ||| e.2) c.fl)
  else if copies then ([((m.dst b).bit, w, codeAt rd (m.src b).bit w)], 0)
  else
    let (x, f1) := elemAt rd m.sf (m.src b)
    let (r, c) := m.coord b
    let (v, f2) := encodeElem m.df (modeOfX m.rm) r c m.sat x
    ([((m.dst b).bit, w, v)], f1 ||| f2)

/-- Byte addresses that a bit field at `bit` of width `w` touches. -/
def bytesOf (bit : Int) (w : Nat) : List Int :=
  (List.range (((bit % 8).toNat + w + 7) / 8)).map fun (i : Nat) => bit / 8 + (i : Int)
/-- Destination bytes of unit `b`, scales included. -/
def Move.dstBytes (m : Move) (b : Nat) : List Int :=
  let k0 := m.step * b
  ((List.range m.step).flatMap fun i => bytesOf (m.dst (k0 + i)).bit (elemBits m.df)).eraseDups
    ++ (if isBlock m.df then (List.range (scaleBytes m.df)).map fun (i : Nat) => (m.dst k0).scale + (i : Int) else [])
/-- Source bytes of unit `b`. -/
def Move.srcBytes (m : Move) (b : Nat) : List Int :=
  let k0 := m.step * b
  ((List.range m.step).flatMap fun i =>
    let p := m.src (k0 + i)
    (if m.sf.toNat = 13 then bytesOf (p.bit - 4 * (p.pos : Int)) 128 else bytesOf p.bit (elemBits m.sf))
      ++ (if isBlock m.sf then (List.range (scaleBytes m.sf)).map fun (j : Nat) => p.scale + (j : Int) else [])).eraseDups

/-- A byte with an update made to it, where the update touches byte `a`. -/
def putByte (a : Int) (old : Nat) (u : Put) : Nat :=
  let (bit, w, v) := u
  let lo := bit - 8 * a
  if lo ≤ -(w : Int) ∨ 8 ≤ lo then old
  else if 0 ≤ lo then
    let sh : Nat := lo.toNat
    let m := (2 ^ w - 1) * 2 ^ sh % 256
    (old &&& (255 - m)) ||| (v * 2 ^ sh % 256 &&& m)
  else
    let sh : Nat := (-lo).toNat
    let m := (2 ^ w - 1) / 2 ^ sh % 256
    (old &&& (255 - m)) ||| (v / 2 ^ sh % 256 &&& m)

/-! ### CRC-64/XZ (R336) -/

def crc64Bit (x : Nat) : Nat := if x % 2 = 1 then (x / 2) ^^^ 0xC96C5795D7870F42 else x / 2
def crc64Byte (c : Nat) (b : Byte) : Nat := (List.range 8).foldl (fun x _ => crc64Bit x) (c ^^^ b.toNat)
/-- Reflected, initial value and final XOR all ones; 0xC96C… is 0x42F0… reflected. -/
def crc64 (l : List Byte) : W64 := BitVec.ofNat 64 (l.foldl crc64Byte 0xFFFFFFFFFFFFFFFF ^^^ 0xFFFFFFFFFFFFFFFF)

end Sys2Proof.Machine
end

