-- ==== Sys2Proof/Machine/Transfer.lean ====
section
/-! DEFINITION. The block transfers, copy schedules and the shared window of the X slot (14 R323-R341, R355-R357): acceptance and its
checks, and the instructions. What a command does afterwards stands in Commands. -/

namespace Sys2Proof.Machine

def opLd : BitVec 6 := 1
def opSt : BitVec 6 := 2
def opCp : BitVec 6 := 3
def opIngest : BitVec 6 := 0x1C
def opEgress : BitVec 6 := 0x1D

/-- Why a command fails: fault class and object (R324, 17 R401). -/
abbrev Bad := Nat × Nat

/-- The operand values of a block transfer, as its registers or its schedule entry give them. -/
structure BxArgs where
  op : BitVec 6
  hA : W64
  offA : W64
  hB : W64
  endB : W64
  ring : W64
  box : Vector W64 5
  stream : BitVec 4
  fb : Option (BitVec 5)
  rm : XRnd
  sat : Bool
  dig : Bool
  dmw : Bool
  outside : Bool
  rmOk : Bool

def BxArgs.window (a : BxArgs) : Bool := a.op == opIngest || a.op == opEgress
/-- The command has two region ends. -/
def BxArgs.two (a : BxArgs) : Bool := a.op == opCp || a.window
def BxArgs.ext (a : BxArgs) : List Nat :=
  if a.window then [bits a.box[0].toNat 31 0, 1, 1, 1, 1]
  else [bits a.box[0].toNat 15 0, bits a.box[0].toNat 31 16, bits a.box[0].toNat 47 32, bits a.box[0].toNat 63 48, bits a.box[1].toNat 15 0]
def BxArgs.str (a : BxArgs) : List Int :=
  if a.window then [0, 0, 0, 0]
  else [signExt a.box[2].toNat 32, signExt (a.box[2].toNat / 2 ^ 32) 32, signExt a.box[3].toNat 32, signExt (a.box[3].toNat / 2 ^ 32) 32]

/-- Check 1: reserved bits, a reserved rounding mode (04 R88) and the DMW (R328, R329, R342). -/
def BxArgs.reservedOk (a : BxArgs) : Bool :=
  bits a.offA.toNat 63 44 == 0 && a.rmOk
    && (if a.two then bits a.endB.toNat 63 44 == 0 else bits a.endB.toNat 51 32 == 0)
    && (if a.window then bits a.box[0].toNat 63 32 == 0 else bits a.box[1].toNat 63 16 == 0)
    && (!a.dmw || (dmwOf a.box[4] a.ext 5).isSome)

/-- The context whose regions the issuing core uses. -/
def State.myCtx (s : State) : Option Ctx := s.ctxOf s.gang.ctx

/-- Where the memory of the home package of the region stands (15 R373). -/
def State.regionFar (s : State) (r : Region) : Nat := match s.myCtx with | some c => s.farOf c r.base | none => 0
/-- A global end on region `r`, format of the page holding OFF; the window's transfers move bytes. -/
def State.gend (s : State) (r : Region) (h : W64) (off : Nat) (raw : Bool) : GEnd :=
  let recs := s.frameRecs r
  let f := recOf r.base recs (min off (r.len - 1))
  { far := s.regionFar r, handle := h, virt := r.base, len := r.len, off := off, recs := recs, fmt := if raw then 6 else BitVec.ofNat 5 (bits f 15 11),
    blen := if raw then 32 else blenOf (bits f 10 9), split := !raw && bits f 8 8 == 1 }

/-- The ring of a command, if it names one (check 2; R333). A ring on a page of the shared window fails its check like a block transfer's end (02 R51; log 93). -/
def State.ringOf (s : State) (h : W64) : Except Bad (Option Ring) :=
  if h = 0 then .ok none
  else
    let bad : Bad := (12, h.toNat)
    match s.myCtx with
    | none => .error bad
    | some c =>
      match s.regionOf c h.toNat .read, s.regionOf c h.toNat .write with
      | some r, some _ =>
        if !r.within 0 63 false then .error bad
        else
          let e := s.gend r h 0 true
          let hdr := ofBytes ((List.range 64).map fun i => s.mem.byteAt none (e.phys (e.virt + i)))
          let lg := bits hdr 4 0
          if 20 < lg ∨ bits hdr 63 5 ≠ 0 ∨ bits hdr 511 192 ≠ 0 then .error bad
          else if !r.within 0 (63 + 32 * 2 ^ lg : Nat) false then .error bad
          else if (List.range ((r.base % 2 ^ 21 + 63 + 32 * 2 ^ lg) / 2 ^ 21 + 1)).any fun i => bits (nth e.recs i 0).toNat 7 6 == 3 then .error bad
          else .ok (some { end_ := e, log2n := lg })
      | _, _ => .error bad

/-- Extents and strides that place elements at the source and at the destination (R330, R343). -/
def BxArgs.srcBox (a : BxArgs) : List Nat × List Int := (a.ext, a.str)
def dstBoxOf (op : BitVec 6) (ext : List Nat) (str : List Int) (d : Option Dmw) : List Nat × List Int :=
  match d with
  | some w => ((w.dims ++ [1, 1, 1, 1]).take (max 5 w.dims.length), str)
  | none => (ext, if op == opSt then str else denseStr ext)

/-- Element numbers of an end: least and greatest. -/
def boxSpan (e : GEnd) (b : List Nat × List Int) : Int × Int := e.span (boxMin b.1 b.2) (boxMax b.1 b.2)

/-- Pages of the region, counted from its first, in which an element of the box or its scale lies. -/
def GEnd.pages (e : GEnd) (b : List Nat × List Int) : List Nat :=
  let at_ := fun (a : Int) => a / 2097152 - ((e.virt / 2 ^ 21 : Nat) : Int)
  let ps := (List.range (boxN b.1)).flatMap fun l =>
    let p := e.place (boxG b.1 b.2 l)
    at_ (p.bit / 8) :: at_ ((p.bit + (elemBits e.fmt : Int) - 1) / 8) ::
      (if isBlock e.fmt then [at_ p.scale, at_ (p.scale + (scaleBytes e.fmt : Int) - 1)] else [])
  (ps.filterMap fun p => if 0 ≤ p ∧ p < (e.recs.length : Int) then some p.toNat else none).eraseDups
/-- Check 4 on a global end: a usable format, one format over the touched pages, OFF at a block (R32, R331). -/
def GEnd.formatOk (e : GEnd) (b : List Nat × List Int) : Bool :=
  let blk := isBlock e.fmt
  let key := fun (w : W64) => if blk then bits w.toNat 15 8 else bits w.toNat 15 11
  let here := (min e.off (e.len - 1) + e.virt) / 2 ^ 21 - e.virt / 2 ^ 21
  !isReserved e.fmt && (!blk || (e.blen != 0 && (e.fmt.toNat != 13 || e.blen == 32) && e.j0.isSome))
    && (e.pages b).all fun p => key (nth e.recs p 0) == key (nth e.recs here 0)
/-- No element of the box lies on a page of the shared window, which block transfers do not reach (02 R51; log 93). -/
def GEnd.unshared (e : GEnd) (b : List Nat × List Int) : Bool := (e.pages b).all fun p => bits (nth e.recs p 0).toNat 7 6 != 3
/-- Check 5: the extent. -/
def GEnd.extentOk (e : GEnd) (r : Region) (b : List Nat × List Int) : Bool :=
  if boxN b.1 = 0 then r.within e.off e.off true else let (lo, hi) := boxSpan e b; r.within lo hi false
/-- Page class and logging that the window's transfers need of every touched page, with alignment and length (R355, R356). -/
def GEnd.windowOk (e : GEnd) (n : Nat) (shared : Bool) : Bool :=
  let page := fun o => (min o (e.len - 1) + e.virt) / 2 ^ 21 - e.virt / 2 ^ 21
  let ps := e.recs.drop (page e.off) |>.take (page (e.off + n - 1) + 1 - page e.off)
  decide (n ≤ 2 ^ 30) && ps.all (fun w => if shared then bits w.toNat 7 6 == 3 else bits w.toNat 5 5 == 1)
    && (!shared || (e.off % 64 == 0 && n % 64 == 0))

/-- Check 7: a block destination takes whole blocks from block boundaries (R83, R332); at most 5 merged dimensions (R343). -/
def blocksOk (dst : End) (box : List Nat × List Int) (d : Option Dmw) : Bool :=
  let b := dst.blen
  (match d, dst with | some w, .glob _ => decide (w.dims.length ≤ 5) | _, _ => true)
    && (!isBlock dst.fmt ||
      ((nth box.1 0 0) % b == 0
        && (match dst with
            | .tile _ off => off % 32 == 0
            | .glob _ => (box.1.drop 1).zip box.2 |>.all fun p => decide (p.1 ≤ 1) || p.2 % (b : Int) == 0)))

/-- The move between two ends (R330-R332, R343; coordinates R91). -/
def moveOf (op : BitVec 6) (ext : List Nat) (str : List Int) (d : Option Dmw) (rm : XRnd) (sat : Bool) (src dst : End) : Move :=
  let from_ := fun k => match d with | some w => w.src k | none => k
  let db := dstBoxOf op ext str d
  { sf := src.fmt, df := dst.fmt, sb := src.blen, db := dst.blen, n := boxN ext
    src := fun k => match src with
      | .glob g => g.place (boxG ext str (from_ k))
      | .tile t off => t.ent.place (off + from_ k)
    dst := fun k => match dst with
      | .glob g => g.place (boxG db.1 db.2 k)
      | .tile t off => t.ent.place (off + k)
    coord := fun k => match dst with
      | .glob _ => (k / nth db.1 0 1, k % nth db.1 0 1)
      | .tile t off => t.ent.coord (off + k)
    rm := rm, sat := sat }

/-- The ends of a command that passes its checks. -/
structure Ends where
  src : End
  dst : End

/-- A conversion meets only formats in service (18 R427). -/
def State.convOk (s : State) (a : BxArgs) (d : Option Dmw) (src dst : End) : Bool :=
  let m := moveOf a.op a.ext a.str d a.rm a.sat src dst
  (s.fmtOk m.sf && s.fmtOk m.df) || m.n == 0 || m.copies

/-- Checks 3 to 7 of R324 in order. `INGEST` and `EGRESS` ignore the formats of their pages (02 R32). -/
def State.checkEnds (s : State) (a : BxArgs) : Except Bad Ends :=
  let n := boxN a.ext
  let d := if a.dmw then dmwOf a.box[4] a.ext 5 else none
  let dbox := dstBoxOf a.op a.ext a.str d
  let bad := fun (h : W64) => (12, h.toNat)
  match s.myCtx with
  | none => .error (bad a.hA)
  | some c =>
    match s.regionOf c a.hA.toNat (if a.op == opSt then .write else .read) with
    | none => .error (bad a.hA)
    | some rA =>
      let gA := s.gend rA a.hA a.offA.toNat a.window
      if a.outside || decide (rA.len < gA.off) then .error (bad a.hA)
      else if a.two then
        match s.regionOf c a.hB.toNat .write with
        | none => .error (bad a.hB)
        | some rB =>
          let gB := s.gend rB a.hB a.endB.toNat a.window
          if rB.len < gB.off then .error (bad a.hB)
          else if !a.window && (!gA.formatOk a.srcBox || !gB.formatOk dbox) then .error (8, 0)
          else if !gA.extentOk rA a.srcBox then .error (bad a.hA)
          else if !gB.extentOk rB dbox then .error (bad a.hB)
          else if !a.window && !gA.unshared a.srcBox then .error (bad a.hA)
          else if !a.window && !gB.unshared dbox then .error (bad a.hB)
          else if a.window && !(gA.windowOk n (a.op == opIngest)) then .error (bad a.hA)
          else if a.window && !(gB.windowOk n (a.op == opEgress)) then .error (bad a.hB)
          else if !blocksOk (.glob gB) dbox d || !s.convOk a d (.glob gA) (.glob gB) then .error (8, 0)
          else .ok { src := .glob gA, dst := .glob gB }
      else
        let box := if a.op == opSt then dbox else a.srcBox
        let h := bits a.endB.toNat 63 52
        let off := bits a.endB.toNat 31 0
        if !gA.formatOk box then .error (8, 0)
        else if !gA.extentOk rA box || !gA.unshared box then .error (bad a.hA)
        else match s.tileCheck h (if n = 0 then none else some (off + n - 1)) with
          | .error cls => .error (cls, h)
          | .ok k =>
            let (src, dst) := if a.op == opSt then (End.tile k off, End.glob gA) else (End.glob gA, End.tile k off)
            let box' := if a.op == opSt then dbox else (match d with | some w => (w.dims, a.str) | none => a.srcBox)
            if !blocksOk dst box' d || !s.convOk a d src dst then .error (8, 0)
            else .ok { src := src, dst := dst }

/-! ### Commands -/

def Cmd.move (c : Cmd) : Move := moveOf c.op c.ext c.str (c.dmw.bind fun w => dmwOf w c.ext 5) c.rm c.sat c.src c.dst
/-- Destination bytes of the command. -/
def Cmd.outBytes (c : Cmd) : List Int := ((List.range c.move.units).flatMap c.move.dstBytes).eraseDups
/-- Physical lines that bytes of a global end lie in. -/
def GEnd.lines (e : GEnd) (l : List Int) : List Nat := (l.map fun a => e.phys a.toNat / 64 * 64).eraseDups
/-- LOGGED of the page that a physical line of the end lies in. -/
def GEnd.loggedLine (e : GEnd) (l : Nat) : Bool :=
  e.recs.any fun w => leafFrame w.toNat == l / 2 ^ 21 * 2 ^ 21 && bits w.toNat 5 5 == 1
/-- The home of an empty write (06 R146). -/
def GEnd.emptyHome (e : GEnd) : Nat := homeOf (e.phys (e.virt + min e.off (e.len - 1)))

/-! ### Acceptance -/

/-- The fault record that a command issued now would make, with class, cause and object to be filled (17 R396, R401). -/
def State.cmdRec (s : State) : FaultRec := s.faultRec { cls := 0, cause := 0, slots := 0x80, addr := 0, aux := 0 } 1

/-- The region indices that the handles of a command name. -/
def BxArgs.names (a : BxArgs) : List Nat :=
  ((a.hA :: (if a.two then [a.hB] else [])) ++ (if a.ring = 0 then [] else [a.ring])).map fun h => bits h.toNat 39 0
/-- Lines that the checks of a command read: of region table and frame records, and the header of its ring. -/
def State.argLines (s : State) (a : BxArgs) : List Nat :=
  match s.myCtx with
  | none => []
  | some c => (a.hA :: (if a.two then [a.hB] else [])).flatMap (fun h => s.regionLines c h.toNat) ++ (match s.ringOf a.ring with
    | .ok (some r) => r.end_.phys r.end_.virt / 64 :: s.regionLines c a.ring.toNat
    | _ => [])

/-- Accepts a command: its access, its events, its place among the phase's parties. A failing command moves nothing (R324). The access
of an `EGRESS` is not over until its bytes stand in the egress area (06 R143). -/
def State.accept (s : State) (a : BxArgs) : State :=
  let ends : Except Bad Ends := if !a.reservedOk then .error (8, 0) else
    match s.ringOf a.ring with
    | .error b => .error b
    | .ok _ => s.checkEnds a
  let ring := match s.ringOf a.ring with | .ok r => r | .error _ => none
  let frec := s.cmdRec
  let s := s.noteLines (s.argLines a)
  let n := s.core.inCnt.ingest
  let inSeq := rget n a.stream
  let s := if a.op == opIngest then
      s.setCore { s.core with inCnt := { s.core.inCnt with ingest := rset n a.stream (inSeq + 1) } } else s
  let nowhere : End := .tile ⟨0, ⟨false, false, 0, 0, 0, 0, 0, 0, 0⟩, 0⟩ 0
  let sends := match ends with | .ok _ => a.op == opEgress && boxN a.ext != 0 | .error _ => false
  let (id, s) := s.issueAccess a.stream (!sends)
  let c0 : Cmd :=
    { id := id, acc := id, who := s.core.id, clu := s.clu.k, ctx := s.gang.ctx, op := a.op, stream := a.stream, fb := a.fb, ring := ring,
      ri := s.dom.ri, src := nowhere, dst := nowhere, ext := a.ext, str := a.str, dmw := if a.dmw then some a.box[4] else none, rm := a.rm,
      sat := a.sat, dig := a.dig, data := [], words := [], bad := [], toWrite := [], bytes := 0, flags := 0, status := 0, fcode := 0, faddr := 0, frec := frec,
      inSeq := inSeq, st := .run, recs := [], names := a.names }
  let party := fun (s : State) => s.setGang { s.gang with cmdsOut := s.gang.cmdsOut ++ [id] }
  match ends with
  | .error (cls, ad) =>
    let c := { c0 with status := 1, fcode := cls, faddr := ad }
    party { s with mem := { s.mem with cmds := s.mem.cmds ++ [c] } }
  | .ok e =>
    let c := { c0 with src := e.src, dst := e.dst }
    let m := c.move
    let out := c.outBytes
    let c := { c with bytes := out.length, toWrite := match e.dst with | .tile _ _ => (out.map fun b => b.toNat / 256).eraseDups | _ => [] }
    let s := { s with mem := { s.mem with cmds := s.mem.cmds ++ [c] } }
    let caps := (match e.src with | .tile k _ => [k] | _ => []) ++ (match e.dst with | .tile k _ => [k] | _ => [])
    let s := s.setClu (caps.foldl Cluster.capture s.clu)
    let s := match e.src with
      | .glob g =>
        let ls := g.lines (((List.range m.units).flatMap m.srcBytes).eraseDups)
        ls.foldl (fun s l => s.addRead id l 64 (.cmd id)) (s.touch ls)
      | .tile _ _ => s
    let s := match e.dst with
      | .glob g =>
        if out.isEmpty then s.addWrite id (.bytes []) 0 false g.emptyHome
        else if a.op == opEgress then s
        else (g.lines out).foldl (fun s l => s.addWrite id (.line id l) l (g.loggedLine l) (homeOf l)) (s.touch (g.lines out))
      | .tile _ _ => s
    party s

/-- The limit of R325: `ILLEGAL_BUNDLE` "command limit", or one more command counted. -/
def counted (n : Nat) (s : State) (k : State → Res) : Res :=
  if 256 < s.core.cmds + n then raise .x 1 9 0 0 s else k (s.setCore { s.core with cmds := s.core.cmds + n })

/-! ### BX.LD, BX.ST, BX.CP (R337), INGEST, EGRESS (R355, R356) -/

/-- Registers of a run from `xp[i]`. -/
def State.run (s : State) (i : BitVec 4) (n : Nat) : List W64 := (List.range n).map fun k => s.xpAt (i.toNat + k)
def boxVec (l : List W64) : Vector W64 5 := #v[nth l 0 0, nth l 1 0, nth l 2 0, nth l 3 0, nth l 4 0]

def State.bxArgs (s : State) (op : BitVec 6) (o : BxOps) : BxArgs :=
  let e := s.run o.xa 5
  let two := op == opCp
  { op := op, hA := nth e 0 0, offA := nth e 1 0, hB := if two then nth e 2 0 else 0, endB := nth e (if two then 3 else 2) 0,
    ring := nth e (if two then 4 else 3) 0, box := boxVec (s.run o.xb (if o.dmw then 5 else 4)), stream := o.st, fb := o.fb, rm := o.rm,
    sat := o.sat, dig := o.dig, dmw := o.dmw, outside := false, rmOk := true }
def blockTransfer (op : BitVec 6) (o : BxOps) (s : State) : Res := counted 1 s fun s => .next (s.accept (s.bxArgs op o))

def execBxLd (o : BxOps) (s : State) : Res := blockTransfer opLd o s
def execBxSt (o : BxOps) (s : State) : Res := blockTransfer opSt o s
def execBxCp (o : BxOps) (s : State) : Res := blockTransfer opCp o s

def State.winArgs (s : State) (op : BitVec 6) (o : WinOps) : BxArgs :=
  let e := s.run o.xa 5
  { op := op, hA := nth e 0 0, offA := nth e 1 0, hB := nth e 2 0, endB := nth e 3 0, ring := nth e 4 0,
    box := boxVec [s.getXp o.xb], stream := o.st, fb := o.fb, rm := .dir .rne, sat := false, dig := o.dig, dmw := false, outside := false, rmOk := true }
def execIngest (o : WinOps) (s : State) : Res := counted 1 s fun s => .next (s.accept (s.winArgs opIngest o))
def execEgress (o : WinOps) (s : State) : Res := counted 1 s fun s => .next (s.accept (s.winArgs opEgress o))

/-! ### Copy schedules (R338-R341) -/

/-- The byte offset that the group index adds to an entry's offsets (R341). -/
def SchedEnt.shift (e : SchedEnt) (gidx : BitVec 48) : Int :=
  let x : Nat := gidx.toNat % 2 ^ 16
  let y : Nat := gidx.toNat / 2 ^ 16 % 2 ^ 16
  let z : Nat := gidx.toNat / 2 ^ 32
  (x : Int) * signExt e.gsx.toNat 32 + (y : Int) * signExt e.gsy.toNat 32 + (z : Int) * signExt e.gsz.toNat 32
/-- The operand values of a released entry. -/
def SchedEnt.args (e : SchedEnt) (gidx : BitVec 48) : BxArgs :=
  let at_ := fun (o : W64) => (o.toNat : Int) + e.shift gidx
  let bad := fun (v : Int) => decide (v < 0) || decide ((2 : Int) ^ 44 ≤ v)
  let cp := e.op == opCp
  { op := e.op, hA := e.hA, offA := BitVec.ofInt 64 (at_ e.offA % 2 ^ 44), hB := e.hB,
    endB := if cp then BitVec.ofInt 64 (at_ e.endB % 2 ^ 44) else e.endB, ring := e.ring, box := e.box,
    stream := e.stream, fb := e.fb, rm := e.rm.getD (.dir .rne), sat := e.sat, dig := e.dig, dmw := e.dmw,
    outside := bad (at_ e.offA) || (cp && bad (at_ e.endB)), rmOk := e.rm.isSome }

/-- Releases entries from NXT on as commands of this bundle; they and the release itself count (R325). -/
def releaseFrom (n : Nat) (sc : Sched) (l : List SchedEnt) (s : State) : Res :=
  counted (l.length + 1) s fun s =>
    let s := l.foldl (fun s e => s.accept (e.args s.gang.gidx)) s
    .next (s.setGang { s.gang with scheds := updateAll (·.1 == n) (fun x => (x.1, { sc with nxt := sc.nxt + l.length })) s.gang.scheds })
/-- The schedule a form names, if the issuing rank may release it. -/
def withSched (n : BitVec 2) (s : State) (k : Sched → Res) : Res :=
  match s.gang.scheds.find? (·.1 == n.toNat) with
  | some (_, sc) => if sc.rank = s.rank then k sc else raise .x 1 10 0 0 s
  | none => raise .x 1 10 0 0 s
def execBxSch (n : BitVec 2) (s : State) : Res :=
  withSched n s fun sc => releaseFrom n.toNat sc ((sc.ents.drop sc.nxt).take 1) s
def execCsadv (n : BitVec 2) (s : State) : Res :=
  withSched n s fun sc =>
    let sc := { sc with ctr := sc.ctr + 1 }
    releaseFrom n.toNat sc ((sc.ents.drop sc.nxt).takeWhile fun e => decide (e.stage < sc.ctr)) s

/-! ### COPY.A (R357) -/

def execCopyAX (d : BitVec 5) (k : BitVec 4) (s : State) : Res := .next (s.later 2 false (.a d (s.getXp k)))

end Sys2Proof.Machine
end

