-- ==== Sys2Proof/Machine/Sconce.lean ====
section
/-! DEFINITION. The Sconce operations of the X slot (14 R350-R354, 06 R137-R140): targets, issue, effects on words and exact
accumulators, barriers, `CQ.POP`. -/

namespace Sys2Proof.Machine

/-! ### Effects (R351, R352, R354) -/

def opAtLd : BitVec 6 := 0x08
def opXadd : BitVec 6 := 0x14
def opXrd : BitVec 6 := 0x15
def opXclr : BitVec 6 := 0x16
def opArrv : BitVec 6 := 0x18
/-- The operation acts on a four-word exact accumulator. -/
def exactOp (op : BitVec 6) : Bool := op == opXadd || op == opXrd || op == opXclr

/-- Old word, operands: the new word, and the reply value. -/
def wordOp (op : BitVec 6) (w v n : W64) : W64 × W64 :=
  match op.toNat with
  | 0x08 => (w, w)
  | 0x09 => (v, 0)
  | 0x0A => (w + v, w)
  | 0x0B => (w &&& v, w)
  | 0x0C => (w ||| v, w)
  | 0x0D => (w ^^^ v, w)
  | 0x0E => (if v.toInt < w.toInt then v else w, w)
  | 0x0F => (if w.toInt < v.toInt then v else w, w)
  | 0x10 => (if v.toNat < w.toNat then v else w, w)
  | 0x11 => (if w.toNat < v.toNat then v else w, w)
  | 0x12 => (v, w)
  | 0x13 => (if w = v then n else w, w)
  | 0x18 =>
    let exp := if bits w.toNat 31 16 = 0 then 65536 else bits w.toNat 31 16
    let cnt := bits w.toNat 15 0 + 1
    let high := w.toNat / 2 ^ 16 * 2 ^ 16
    (if cnt = exp then BitVec.ofNat 64 high ^^^ BitVec.ofNat 64 (2 ^ 63) else BitVec.ofNat 64 (high + cnt % 2 ^ 16), w)
  | _ => (w, w)
/-- The operation writes its word (a failed compare-and-swap is a read only; 06 R123). -/
def writesWord (op : BitVec 6) (w v : W64) : Bool :=
  match op.toNat with
  | 0x08 | 0x15 => false
  | 0x13 => w == v
  | _ => true

/-- ExactAdd of R352 on the 256-bit variable. -/
def exactAdd (acc : Nat) (x : W32) : Nat :=
  let a := acc % 2 ^ 192
  let cls := acc / 2 ^ 192
  let v := valOf x
  let lim := Val.fin false 1 42 false
  let put := fun (f : Nat) => a + (cls ||| f) * 2 ^ 192
  match v with
  | .nan => put 1
  | .inf neg => put (if neg then 4 else 2)
  | .fin neg m e _ =>
    if !(v.abs.lt lim) then put ((if neg then 4 else 2) ||| 8)
    else
      let mag := m * 2 ^ (e + 149).toNat / 2 ^ (-(e + 149)).toNat
      let s : Int := if neg then (a : Int) - mag else (a : Int) + mag
      (s % (2 ^ 192 : Nat)).toNat + cls * 2 ^ 192
/-- ExactRead of R352. -/
def exactRead (acc : Nat) : W64 :=
  let cls := acc / 2 ^ 192
  let b := fun i => bits cls i i = 1
  let a := signExt (acc % 2 ^ 192) 192
  let (f, fl) : W32 × Fl :=
    if b 0 ∨ (b 1 ∧ b 2) then (nan32, 0)
    else if b 1 then (0x7F800000, 0)
    else if b 2 then (0xFF800000, 0)
    else toF32 .rne (.fin (decide (a < 0)) a.natAbs (-149) false)
  BitVec.ofNat 64 (f.toNat + cls % 16 * 2 ^ 32 + (if fl &&& fNX = 0 then 0 else 2 ^ 36))

/-- The operation returns what it reads (R137, R138): stores, exact adds and clears do not. -/
def returnsValue (op : BitVec 6) : Bool := op != 0x09 && op != opXadd && op != opXclr

/-! ### Targets (02 R46-R48, R350) -/

/-- A checked target: byte address, the region it was named through, home die, whether the word lies in the shared window. -/
structure Target where
  loc : Nat
  idx : Option Nat
  home : Nat
  shared : Bool
deriving DecidableEq, Repr

/-- A sync address of a context. -/
def State.syncTarget (s : State) (c : Ctx) (x : W64) (exact : Bool) : Option Target :=
  let die := bits x.toNat 26 24
  let idx := bits x.toNat 23 0
  if h : die < 5 then
    let (lo, hi) := c.sync[die]
    let top := if exact then idx + 3 else idx
    if bits x.toNat 63 27 = 0 ∧ lo ≤ idx ∧ top ≤ hi ∧ (!exact || idx % 4 = 0) ∧ s.syncExists die top then
      some { loc := s.syncLoc die idx, idx := none, home := die, shared := false }
    else none
  else none
/-- A `.g` target: the region's word at an offset. -/
def State.regionTarget (s : State) (c : Ctx) (h off : W64) (kind : RKind) (exact : Bool) : Option Target :=
  let n := if exact then 32 else 8
  match s.regionOf c h.toNat kind with
  | none => none
  | some r =>
    let o := off.toNat
    if r.within o (o + n - 1) false && (r.base + o) % n == 0 then
      let recs := s.frameRecs r
      let far := s.farOf c r.base
      let pa := far + frameOf r.base recs o
      some { loc := pa, idx := some (bits h.toNat 39 0), home := homeOf pa, shared := far == 0 && bits (recOf r.base recs o) 7 6 == 3 }
    else none

/-- The target of an operation, and the object of its fault. -/
def State.target (s : State) (g : Bool) (xa : BitVec 4) (op : BitVec 6) : Option Target × Nat :=
  let a := s.getXp xa
  let off := s.xpAt (xa.toNat + 1)
  (match s.myCtx with
    | none => none
    | some c =>
      if g then
        if bits off.toNat 63 44 ≠ 0 then none else s.regionTarget c a off .atomic (exactOp op)
      else s.syncTarget c a (exactOp op), a.toNat)

/-! ### Issue (R350, R353) -/

/-- The Sconce that answers a sync address whose check fails: that of the die the address names, else the issuing die's (R138; log 92). -/
def failHome (die : Nat) (x : W64) : Nat := let d := bits x.toNat 26 24; if d < 5 then d else die
/-- Issues an operation: it takes its place in its stream, and a failed check replies with its fault code. -/
def issueSconce (op : BitVec 6) (g np : Bool) (st : BitVec 4) (xa : BitVec 4) (v n : W64) (fb : Option (BitVec 5)) (s : State) : Res :=
  counted 1 s fun s =>
    let rnum := s.core.rnum
    let frec := s.cmdRec
    let (t, obj) := s.target g xa op
    let isFormat := g && bits (s.xpAt (xa.toNat + 1)).toNat 63 44 != 0
    let home := if g then s.die else failHome s.die (s.getXp xa)
    let s := s.setCore { s.core with rnum := rnum + 1 }
    let s := if g then s.noteLines ((s.myCtx.map fun c => s.regionLines c (s.getXp xa).toNat).getD []) else s
    match t with
    | none =>
      let (id, s) := s.issueAccess st true
      let cls := if isFormat then 8 else 12
      let r : Rep :=
        { id := id, acc := id, who := s.core.id, gid := s.gang.gid, idx := if g then some (bits (s.getXp xa).toNat 39 0) else none, home := home, stream := st, fb := fb, write := !np,
          reply := { value := 0, op := op, fcode := BitVec.ofNat 16 cls, rnum := rnum },
          fault := some { frec with cls := BitVec.ofNat 16 cls, addr := BitVec.ofNat 64 (if isFormat then 0 else obj) } }
      let s : State := { s with mem := { s.mem with reps := s.mem.reps ++ [r] } }
      .next (s.setGang { s.gang with cmdsOut := s.gang.cmdsOut ++ [id] })
    | some t =>
      let k := s.core.inCnt.atom
      let inSeq := rget k st
      let s := if t.shared then s.setCore { s.core with inCnt := { s.core.inCnt with atom := rset k st (inSeq + 1) } } else s
      let (id, s) := s.issueAccess st true
      let s := s.touch [t.loc]
      let o : SOp :=
        { id := id, acc := id, who := s.core.id, gid := s.gang.gid, op := op, loc := t.loc, idx := t.idx, home := t.home, v := v, n := n, np := np,
          fb := fb, rnum := rnum, inSeq := inSeq, shared := t.shared, ri := s.dom.ri, ready := none }
      let s := ({ s with mem := ({ s.mem with ops := s.mem.ops ++ [o] } : MemSys).updAcc id fun a => { a with rmw := returnsValue op } } : State).packet id id t.home
      .next (s.setGang { s.gang with cmdsOut := s.gang.cmdsOut ++ [id] })

def at1 (op : BitVec 6) (o : At1) (s : State) : Res := issueSconce op o.g o.np o.st o.xa 0 0 o.fb s
/-- v is xp[XB] and, for AT.CAS, n is xp[XB+1]. -/
def at2 (op : BitVec 6) (o : At2) (s : State) : Res :=
  issueSconce op o.g o.np o.st o.xa (s.getXp o.xb) (s.xpAt (o.xb.toNat + 1)) o.fb s

def execAtLd (o : At1) (s : State) : Res := at1 opAtLd o s
def execAtSt (o : At2) (s : State) : Res := at2 0x09 o s
def execAtAdd (o : At2) (s : State) : Res := at2 0x0A o s
def execAtAnd (o : At2) (s : State) : Res := at2 0x0B o s
def execAtOr (o : At2) (s : State) : Res := at2 0x0C o s
def execAtXor (o : At2) (s : State) : Res := at2 0x0D o s
def execAtMin (o : At2) (s : State) : Res := at2 0x0E o s
def execAtMax (o : At2) (s : State) : Res := at2 0x0F o s
def execAtMinu (o : At2) (s : State) : Res := at2 0x10 o s
def execAtMaxu (o : At2) (s : State) : Res := at2 0x11 o s
def execAtSwap (o : At2) (s : State) : Res := at2 0x12 o s
def execAtCas (o : At2) (s : State) : Res := at2 0x13 o s
def execAtXadd (o : At2) (s : State) : Res := at2 opXadd o s
def execAtXrd (o : At1) (s : State) : Res := at1 opXrd o s
def execAtXclr (o : At1) (s : State) : Res := at1 opXclr o s
def execSbArrv (o : At1) (s : State) : Res := at1 opArrv o s

/-! ### Faults of commands (17 R396, R398) -/

/-- A command's context fault: recorded, notified, and the context stops. -/
def State.cmdFault (s : State) (ctx : BitVec 16) (f : FaultRec) : State :=
  let f := { f with seq := s.pkg.faultSeq, tstamp := BitVec.ofNat 64 s.pkg.cycle, ri := s.dom.ri }
  let d := if f.fwc then f.core.toNat else f.core.toNat / 64
  ((s.logFault d f).notifyFault f |>.fwEvent d 1).faultCtx ctx

/-! ### SB.WAIT and CQ.POP (R353, R354) -/

def execSbWait (st : BitVec 4) (xa : BitVec 4) (gen : Bool) (s : State) : Res :=
  if s.lockstep then overrunWait .x s
  else match s.core.sbw with
    | some w => if w.out then counted 1 s fun s => .next (s.setCore { s.core with sbw := none }) else .next s.holdBundle
    | none => counted 1 s fun t =>
      match t.myCtx.bind fun c => t.syncTarget c (t.getXp xa) false with
      | none =>
        .next (t.cmdFault t.gang.ctx { t.cmdRec with cls := 12, addr := t.getXp xa })
      | some _ =>
        let (id, s) := s.issueAccess st false
        .next (s.setCore { s.core with sbw := some { acc := id, gen := gen, out := false } }).holdBundle

/-- Bits of the status word of a reply (R353). -/
def Reply.status (r : Reply) : W64 :=
  BitVec.ofNat 64 (2 ^ 63 + r.op.toNat * 2 ^ 50 + r.fcode.toNat * 2 ^ 32 + r.rnum.toNat)
def execCqPop (xa : BitVec 4) (s : State) : Res :=
  let lo := xa
  let hi := xa + 1
  match s.core.cq with
  | [] => .next ((s.later 1 true (.xp lo 0)).later 1 true (.xp hi 0))
  | r :: l =>
    let s := s.setCore { s.core with cq := l }
    .next ((s.later 1 true (.xp lo r.value)).later 1 true (.xp hi r.status))

end Sys2Proof.Machine
end

