-- ==== Sys2Proof/Machine/Commands.lean ====
section
/-! DEFINITION. The events of the variable side: far accesses, read and write events, deliveries, fences, engine commands, completion
records, Sconce operations and replies, waits, tag sweep and refresh (06, 07 R149-R151, 11 R260-R262, R270, 14 R324-R336, R350-R356). An
event whose conditions do not hold leaves the state as it is. -/

namespace Sys2Proof.Machine

/-- An event that takes place only if its conditions hold. -/
def event (ok : Bool) (s : State) (k : State → State) : Res := .next (if ok then k s else s)
/-- Acts with a core in focus and returns to the focus before. -/
def State.at_ (s : State) (who : CoreId) (k : State → State) : State :=
  let t := s.focusId who
  if t.core.id = who then (k t).focusId s.core.id else s

/-- A firmware core, whose replies go to its port (18 R423). -/
def isFwId : CoreId → Bool
  | .rank _ _ => false
  | .fw _ => true

/-! ### Data of commands -/

/-- A byte of the command's source, as its reads have returned it. -/
def Cmd.rd (c : Cmd) (a : Int) : Nat :=
  match c.src with
  | .glob g => (c.data.get (g.phys a.toNat)).toNat
  | .tile _ _ => (c.data.get a.toNat).toNat
/-- Lines of the command's source not read yet. -/
def MemSys.unread (m : MemSys) (c : Cmd) : List Nat := (m.rq.filter (fun e => e.acc == c.acc)).map (·.addr)
/-- Every source byte of unit `b` has been read. -/
def Cmd.unitReady (c : Cmd) (m : Move) (unread : List Nat) (b : Nat) : Bool :=
  match c.src with
  | .glob g => unread.isEmpty || (g.lines (m.srcBytes b)).all fun l => !unread.contains l
  | .tile _ _ => true
def MemSys.updCmd (m : MemSys) (id : Nat) (f : Cmd → Cmd) : MemSys := { m with cmds := updateAll (fun c => c.id == id) f m.cmds }
/-- Words of a tile source that hold these bytes and have not been read. -/
def Cmd.wants (c : Cmd) (bytes : List Int) : List Nat :=
  match c.src with
  | .glob _ => []
  | .tile _ _ => ((bytes.map fun a => a.toNat / 256).filter fun w => !c.words.contains w).eraseDups
/-- A tile source with these words read, each whole and once (03 R62, 05 R121); 8-byte units that hold an error are noted. -/
def Cmd.take (c : Cmd) (clu : Cluster) (ws : List Nat) : Cmd :=
  match c.src with
  | .glob _ => c
  | .tile k _ =>
    let bad := match clu.capTile? k with | some t => t.poison.filter (fun u => ws.contains (u / 32)) | none => []
    { c with data := ws.foldl (fun d w => d.write (256 * w) (tileWord (clu.dataOf k) w)) c.data, words := c.words ++ ws, bad := c.bad ++ bad }

/-- Source bytes of unit `b` were read with an error. -/
def Cmd.unitBad (c : Cmd) (mv : Move) (b : Nat) : Bool :=
  match c.src with
  | .glob g => (g.lines (mv.srcBytes b)).any c.bad.contains
  | .tile _ _ => (mv.srcBytes b).any fun a => c.bad.contains (a.toNat / 8)
/-- Line `l` of the destination takes bytes that come from them: in an `UNSEALED` domain it is written with the poison syndrome (17 R405; log 115). -/
def Cmd.lineBad (c : Cmd) (l : Nat) : Bool :=
  match c.dst with
  | .tile _ _ => false
  | .glob g =>
    let mv := c.move
    (List.range mv.units).any fun b => ((mv.dstBytes b).any fun a => g.phys a.toNat / 64 * 64 == l) && c.unitBad mv b
/-- The 8-byte units in the words `ws` of a tile destination that do. -/
def Cmd.tileBad (c : Cmd) (ws : List Nat) : List Nat :=
  let mv := c.move
  (((List.range mv.units).filter (c.unitBad mv)).flatMap fun b => ((mv.dstBytes b).filter fun a => ws.contains (a.toNat / 256)).map fun a => a.toNat / 8).eraseDups
/-- The cells that the command's write event of line `l` stores, the bytes as its home holds them merged with the units' updates,
and the flags of the conversions. An `INGEST` leaves out bytes whose source line was read with an error (17 R405). -/
def Cmd.lineCells (c : Cmd) (m : MemSys) (l : Nat) : List Host.Cell × Fl :=
  match c.dst with
  | .tile _ _ => ([], 0)
  | .glob g =>
    let mv := c.move
    let cp := mv.copies
    let here := fun (a : Int) => g.phys a.toNat / 64 * 64 == l
    let ok := fun b => match c.src with
      | .glob gs => c.op != opIngest || (gs.lines (mv.srcBytes b)).all fun x => !c.bad.contains x
      | .tile _ _ => true
    let us := (List.range mv.units).filter fun b => (mv.dstBytes b).any here && ok b
    let rs := us.map fun b => (mv.dstBytes b, mv.unit cp c.rd b)
    let bs := (rs.flatMap fun r => r.1.filter here).eraseDups
    (bs.map fun a =>
        let p := g.phys a.toNat
        let old := (m.byteAt none p).toNat
        (p, BitVec.ofNat 8 ((rs.flatMap fun r => r.2.1).foldl (putByte a) old)),
     rs.foldl (fun f r => f ||| r.2.2) 0)
/-- Source bytes of the units that the command's write event of line `l` takes. -/
def Cmd.lineSrc (c : Cmd) (l : Nat) : List Int :=
  match c.dst with
  | .tile _ _ => []
  | .glob g =>
    let mv := c.move
    ((List.range mv.units).filter fun b => (mv.dstBytes b).any fun a => g.phys a.toNat / 64 * 64 == l).flatMap mv.srcBytes

/-- Destination tile words whose source bytes have all arrived. -/
def Cmd.readyWords (c : Cmd) (m : MemSys) : List Nat :=
  let mv := c.move
  let un := m.unread c
  c.toWrite.filter fun w => (List.range mv.units).all fun b => !((mv.dstBytes b).any fun a => a.toNat / 256 == w) || c.unitReady mv un b
/-- The updates of the destination tile words `ws`, and the flags of the conversions. -/
def Cmd.tileUpds (c : Cmd) (ws : List Nat) : List BitUpd × Fl :=
  let mv := c.move
  let cp := mv.copies
  let us := (List.range mv.units).filter fun b => (mv.dstBytes b).any fun a => ws.contains (a.toNat / 256)
  let rs := us.map fun b => mv.unit cp c.rd b
  (((rs.flatMap (·.1)).filter fun (p : Put) => ws.contains (p.1.toNat / 2048)).map fun (p : Put) => { o := p.1.toNat, w := p.2.1, v := p.2.2 },
   rs.foldl (fun f r => f ||| r.2) 0)
/-- The words that are written now: each a free choice of its own, with `all` every one (05 R121, log 7). -/
def State.chooseWords (s : State) (all : Bool) (ws : List Nat) : List Nat × State :=
  if all then (ws, s) else ws.foldl (fun x w => let (b, s) := x.2.choose; (if b then x.1 ++ [w] else x.1, s)) ([], s)

/-- Performs a command's tile writes that are ready, or some of them, each word whole (03 R62, 05 R121). A merge with an error gives the command STATUS 2
(17 R406). -/
def State.cmdTile (s : State) (id : Nat) (all : Bool) : State :=
  match s.mem.cmds.find? (·.id == id) with
  | none => s
  | some c =>
    match c.dst with
    | .glob _ => s
    | .tile k _ =>
      let (ws, s) := s.chooseWords all (c.readyWords s.mem)
      s.at_ c.who fun s =>
        match s.clu.tile? k.h with
        | none => s
        | some t =>
          let (us, fl) := c.tileUpds ws
          let here := t.born == k.born
          let hurt := if s.dom.sealed then [] else c.tileBad ws
          let u := t.put us
          let s := if here then s.setClu (s.clu.setTile k.h { u with poison := (u.poison ++ hurt).eraseDups }) else s
          { s with mem := s.mem.updCmd id fun c =>
              { c with toWrite := c.toWrite.filter (fun w => !ws.contains w), flags := c.flags ||| fl,
                       status := if here && t.merges us && c.status == 0 then 2 else c.status } }

/-! ### Read events (06 R125, R128) -/

/-- The bytes a rolled-back interval's log holds for a line that an `INGEST` reads (07 R163), and since when the line is watched. -/
def State.ingestReplay (s : State) (c : Cmd) (line : Nat) : Option (List Byte × Nat) :=
  s.dom.replay.findSome? fun r => match r.in_ with
    | .ingest g k st n l b w =>
      if g == c.frec.gidx && k == c.frec.rank.toNat && st == c.stream && n == c.inSeq && l == line && r.ctx == c.ctx then some (b, w) else none
    | _ => none
/-- The context's input log takes no more (07 R159). -/
def State.inlogFull (s : State) (ctx : BitVec 16) : Bool :=
  s.dom.sealed && (match s.ctxOf ctx with | some c => decide (c.inlogRoom ≤ c.inlogUsed) | none => false)

/-- The area of `n` bytes from `va` of a context holds the page. -/
def State.areaHas (s : State) (c : Ctx) (va n page : Nat) : Bool :=
  (List.range (n / 2 ^ 21)).any fun i => match s.ctxPa c (va + 2 ^ 21 * i) with | some a => a / 2 ^ 21 == page | none => false
/-- A page with 16 corrected errors within a seal period is retired. One of the shared window, or of an egress or input-log area, never moves and is
reported: the first stays in use, the second is no longer filled (17 R408). -/
def State.retirePage (s : State) (page : Nat) : State :=
  let a := page * 2 ^ 21
  let s : State := { s with pkg := { s.pkg with retired := { s.pkg.retired with frames := (page :: s.pkg.retired.frames).eraseDups } } }
  let s := s.fwEvent (homeOf a) 4
  let eg := fun (c : Ctx) => s.areaHas c c.egress (2 ^ 32) page
  let inl := fun (c : Ctx) => s.areaHas c c.inlog c.inlogLen page
  let report := fun (s : State) (src : Nat) => (let r := { s.errorRec 14 src a 3 with seq := s.pkg.faultSeq }; (s.logFault (homeOf a) r).notifyFault r)
  if isShared a then report s 9
  else if s.pkg.ctxs.any fun c => eg c || inl c then
    report { s with pkg := { s.pkg with ctxs := s.pkg.ctxs.map fun c =>
      { c with egressLost := c.egressLost + (eg c).toNat, inlogLost := c.inlogLost + (inl c).toNat } } } 1
  else s
/-- Pages that have come to 16 corrected errors are retired. -/
def State.retireWorn (s : State) : State :=
  (s.pkg.corrected.filter fun x => decide (16 ≤ x.2) && !s.pkg.retired.frames.contains x.1).foldl (fun s x => s.retirePage x.1) s
/-- Chothes reads `n` bytes of an area of a context. -/
def State.readArea (s : State) (c : Ctx) (va n : Nat) : State :=
  (List.range (min 16 (n / 64))).foldl (fun s _ => match s.ctxPa c va with | some a => s.correctable a | none => s) s

/-- A READ whose read events have all performed is answered (18 R415). -/
def State.hostReadDone (s : State) (h : Nat) : State :=
  match s.host.reads.find? (·.acc == h) with
  | none => s
  | some r =>
    if s.mem.rq.any (·.acc == h) then s
    else
      let s : State := { s with host := { s.host with reads := s.host.reads.filter (·.acc != h) }, mem := s.mem.settle }
      s.emit 0 (.frame 0x81 0 r.seq r.ctx r.tag (r.pieces.flatMap fun p => r.data.read p.1 p.2))

def execReadEventPerform (id : Nat) (s : State) : Res :=
  match s.mem.rq.find? (·.id == id) with
  | none => .next s
  | some e =>
    match s.mem.acc? e.acc with
    | none => .next s
    | some a =>
      let far := isFar e.addr
      let ready := e.val.isNone && s.mem.predsDelivered e.acc (if far then homeOf e.addr else a.die) && !(far && s.dom.lostPkgs.contains (homeOf e.addr - 8))
      match e.dst with
      | .reg _ _ => event ready s fun s =>
        let seen := s.mem.writersOf (some a.die) e.addr e.n
        let v := s.loadBytes a.die e.addr e.n
        let m := s.mem.updAcc e.acc fun a => { a with seen := (a.seen ++ seen).eraseDups }
        let s : State := { s with mem := ({ m with rq := updateAll (fun x => x.id == id) (fun x => { x with val := some v }) m.rq } : MemSys).acked id }
        s.noteLines [e.addr / 64]
      | .cmd c =>
        match s.mem.cmds.find? (·.id == c) with
        | none => .next { s with mem := { s.mem with rq := s.mem.rq.filter (·.id != id) } }
        | some cm =>
          let replay := if cm.op == opIngest then s.ingestReplay cm e.addr else none
          event (ready && (cm.op != opIngest || replay.isSome || !s.inlogFull cm.ctx)) s fun s =>
            let from_ := if isShared e.addr then none else some a.die
            let seen := s.mem.writersOf from_ e.addr e.n
            let v := match replay with | some (b, _) => b | none => s.mem.bytesAt from_ e.addr e.n
            let bad := replay.isNone && s.mem.bad (e.addr / 64)
            let fails := bad && (!s.dom.sealed || cm.op == opIngest)
            let m := s.mem.updAcc e.acc fun a => { a with seen := (a.seen ++ seen).eraseDups }
            let m := m.updCmd c fun c =>
              { c with data := c.data.store (cellsAt e.addr v), bad := if fails then e.addr :: c.bad else c.bad
                       status := if fails then 1 else c.status, fcode := if fails then 14 else c.fcode, faddr := if bad then e.addr else c.faddr }
            let s := if replay.isSome || far then s else s.correctable e.addr
            let s : State := { s with mem := ({ m with rq := m.rq.filter (·.id != id) } : MemSys).acked id }
            let s := s.meet (if bad && !fails then some (ueSite e.addr) else none)
            let since := match replay with | some (_, t) => t | none => s.mem.nextId
            let s := if cm.op == opIngest ∧ !bad then
                let s := if replay.isSome then s else
                  (s.snoopAdd (e.addr / 64)).logInput cm.ctx (.ingest cm.frec.gidx cm.frec.rank.toNat cm.stream cm.inSeq e.addr v since) 64
                s.at_ cm.who fun s => s.setCore { s.core with watches := (e.addr / 64, since) :: s.core.watches.filter (·.1 != e.addr / 64) }
              else s
            s.cmdTile c false
      | .host h =>
        event (ready && !s.barrier) s fun s =>
          let seen := s.mem.writersOf (some a.die) e.addr e.n
          let m := s.mem.updAcc e.acc fun a => { a with seen := (a.seen ++ seen).eraseDups }
          let v := cellsAt e.addr (s.mem.bytesAt (some a.die) e.addr e.n)
          let s : State := { s with
            mem := { m with rq := m.rq.filter (·.id != id) }
            host := { s.host with reads := updateAll (fun r => r.acc == h) (fun r => { r with data := r.data.store v }) s.host.reads } }
          (s.noteLines [e.addr / 64]).hostReadDone h

/-! ### Write events (06 R124, R127, R129; 07 R149, R158) -/

/-- A write event may be applied at its home now, which is its first delivery (06 R127, R129): not between the close of a seal barrier and its commit (07 R148,
R155). One for another package goes there, unless that is lost (06 R136). -/
def State.canApply (s : State) (e : WEv) (empty : Bool) : Bool :=
  match s.mem.acc? e.acc with
  | none => true
  | some a => s.dom.st != .closed && s.mem.predsDelivered e.acc e.home &&
    (if 8 ≤ e.home then !s.dom.lostPkgs.contains (e.home - 8)
     else s.mem.clockRoom a && s.mem.clockOk a e.home && (empty || !e.logged || !s.undoFullFor (e.undoOf e.cells) a.ri))

/-- A store with an update of its line's untouched bytes that hold an error (17 R406). -/
def MemSys.merges (m : MemSys) (line : Nat) (cells : List Host.Cell) : Bool := decide (cells.length < 64) && m.bad (line / 64)

/-- A write event takes place at its home. One of a command with a tile source reads the source words that it still needs, each at a time of its own (05 R121,
log 7), and is applied once it has them all. -/
def execWriteEventApply (id : Nat) (s : State) : Res :=
  match s.mem.wq.find? (·.id == id) with
  | none => .next s
  | some e =>
    let ri := match s.mem.acc? e.acc with | some a => a.ri | none => s.dom.ri
    let take := fun (s : State) => ({ s with mem := { s.mem with wq := s.mem.wq.filter (·.id != id) } } : State)
    match e.src with
    | .bytes l => event (s.canApply e l.isEmpty) s fun s =>
        let bad := !l.isEmpty && s.mem.merges e.line l
        let s := (take s).applyWrite e l ri
        if bad then s.soon (.dataUe (ueSite e.line)) else s
    | .line cid line =>
      match s.mem.cmds.find? (·.id == cid) with
      | none => .next (take s)
      | some c =>
        let mv := c.move
        let un := s.mem.unread c
        let ready := match c.dst with
          | .glob g => (List.range mv.units).all fun b =>
              !((mv.dstBytes b).any fun a => g.phys a.toNat / 64 * 64 == line) || c.unitReady mv un b
          | .tile _ _ => true
        event (ready && s.canApply e false) s fun s =>
          let t := s.focusId c.who
          let need := c.wants (c.lineSrc line)
          let (ws, s) := s.chooseWords false need
          let k := c.take t.clu ws
          let s := match c.src with | .tile cap _ => s.countReads t.clu.phys cap ws | .glob _ => s
          let hurt := c.bad.isEmpty && !k.bad.isEmpty
          let k := if hurt && !s.dom.sealed then { k with status := 1, fcode := 14 } else k
          let s := s.meet (if hurt && s.dom.sealed then some (.scratch t.clu.phys) else none)
          if ws.length ≠ need.length then { s with mem := s.mem.updCmd cid fun _ => k }
          else
          let (cells, fl) := k.lineCells s.mem line
          let bad := s.mem.merges line cells
          let s := (take s).applyWrite e cells ri
          let m := s.mem.updCmd cid fun _ =>
            { k with flags := k.flags ||| fl, status := if bad && k.status == 0 then 2 else k.status, faddr := if bad then line else k.faddr }
          let m := if k.lineBad line && !s.dom.sealed && c.op != opIngest then { m with poison := (line / 64 :: m.poison).eraseDups } else m
          { s with mem := m }

def execWriteEventDelivery (id die : Nat) (s : State) : Res :=
  match s.mem.wlog.find? (·.id == id) with
  | none => .next s
  | some e =>
    let clock := match s.mem.acc? e.acc with | some a => s.mem.clockOk a die | none => true
    event (decide (die < 5) && !e.delivered.contains die && s.mem.predsDelivered e.acc die && clock) s fun s =>
      let m := s.mem.hear e.acc die
      let m := { m with wlog := updateAll (fun x => x.id == id) (fun x => { x with delivered := die :: x.delivered }) m.wlog }
      { s with mem := m.settle }

/-! ### Returns of far accesses (11 R270) -/

/-- The far access that the core in focus waits for returns: a load's value performs, a store is applied at its home. -/
def execFarAccessReturn (s : State) : Res :=
  match s.core.far with
  | some acc =>
    match s.mem.rq.find? (·.acc == acc) with
    | some e =>
      match e.val, e.dst with
      | some v, .reg _ d =>
        let s := s.setCore { s.core.setA d (BitVec.ofNat 64 (ofBytes v)) with far := none }
        .next { s with mem := ({ s.mem with rq := s.mem.rq.filter (·.id != e.id) } : MemSys).settle }
      | _, _ => .next s
    | none => event (s.mem.wq.all (·.acc != acc)) s fun s => s.setCore { s.core with far := none }
  | none => .next s

/-! ### Fences (06 R131, R132, 11 R262) -/

/-- The core's own accesses on the masked streams before a fence. -/
def MemSys.waitSet (m : MemSys) (f : Access) : List Access :=
  m.accs.filter fun a => a.who == f.who && decide (a.id < f.id) && f.mask.getLsbD a.stream.toNat && a.fence.isNone
/-- The writes of an access are delivered to die `d`. -/
def MemSys.wroteAt (m : MemSys) (a : Access) (d : Nat) : Bool :=
  m.writesAt a.id d && m.ops.all (fun o => o.acc != a.id || o.op == opAtLd || o.op == opXrd) && (a.done || m.cmds.all (·.acc != a.id))
/-- The wait of a fence is over (R131): CLUSTER and DIE wait for its own writes at the issuing die; from PACKAGE up they wait for them at every die,
and for what its reads have returned, with the predecessors of that; DOMAIN and SYSTEM wait for the acknowledgements of other packages too. -/
def MemSys.fenceOver (m : MemSys) (f : Access) (sc : Scope) : Bool :=
  let own := m.waitSet f
  match sc with
  | .core => true
  | .cluster | .die => own.all fun a => m.wroteAt a f.die
  | _ => ([0, 1, 2, 3, 4].all fun d => own.all fun a => m.ownDelivered a d && a.seen.all (fun r => m.eventAt r.1 d)
      && m.delivered d m.accs.length (a.seen.map fun r => (r.2, false))) && (sc == .package || own.all fun a => m.packets.all (·.acc != a.id))
/-- `PEER_LOST` is a report: recorded and notified, and execution goes on (17 R399). -/
def State.reportLost (s : State) (f : FaultRec) : State :=
  let r := { f with cls := 19, disp := 3, seq := s.pkg.faultSeq, tstamp := BitVec.ofNat 64 s.pkg.cycle, ri := s.dom.ri }
  let d := if f.fwc then f.core.toNat else f.core.toNat / 64
  ((s.logFault d r).notifyFault r).fwEvent d 1
/-- The record of a fence of a core; those of the hub's have no core. -/
def State.lostRec (s : State) (f : Access) : FaultRec :=
  match f.who with
  | .core c => (s.focusId c).faultRec { cls := 19, cause := 0, slots := 0, addr := 0, aux := 0 } 3
  | .hub => { s.errorRec 19 0 0 3 with ctx := f.ctx }
def execFenceWaitEnd (id : Nat) (s : State) : Res :=
  match s.mem.acc? id with
  | none => .next s
  | some f =>
    match f.fence, f.done with
    | some sc, false =>
      event (s.mem.fenceOver f sc) s fun s =>
        let s : State := { s with mem := (s.mem.updAcc id fun a => { a with done := true }).settle }
        let s := if f.lost then s.reportLost (s.lostRec f) else s
        match f.who with
        | .core c => (s.arriveAt c f.fb).signOffCmd (gangOf c) id
        | .hub => s
    | _, _ => .next s

/-! ### Completion records (14 R333-R336) -/

def GEnd.byteAt (e : GEnd) (m : MemSys) (o : Nat) : Byte := m.byteAt none (e.phys (e.virt + o))
def GEnd.natAt (e : GEnd) (m : MemSys) (o n : Nat) : Nat := ofBytes ((List.range n).map fun i => e.byteAt m (o + i))
/-- Queues a logged write of bytes of a region, as one access after `preds` on a command's stream; the access's number. -/
def State.regionWrite (s : State) (c : Cmd) (e : GEnd) (o : Nat) (l : List Byte) (preds : List Nat) : Nat × State :=
  let die := match s.mem.acc? c.acc with | some a => a.die | none => 4
  let (id, s) := s.newAccess (.core c.who) die c.stream preds true
  let s : State := { s with mem := s.mem.updAcc id fun a => { a with ctx := c.ctx } }
  let cells := l.mapIdx fun i b => (e.phys (e.virt + o + i), b)
  let lines := (cells.map fun x => x.1 / 64 * 64).eraseDups
  (id, lines.foldl (fun s ln => s.addWrite id (.bytes (cells.filter fun x => x.1 / 64 * 64 == ln)) ln (e.loggedLine ln) (homeOf ln)) s)

/-- DIGEST of R336; an `EGRESS` digests the bytes it releases. -/
def Cmd.digest (c : Cmd) (m : MemSys) (tiles : Cluster) : W64 :=
  let out := c.outBytes
  if !c.dig || out.isEmpty || c.status == 1 && c.fcode != 14 then 0
  else match c.dst with
    | .glob g =>
      let lo := (out.foldl min (nth out 0 0)).toNat
      let hi := (out.foldl max 0).toNat
      if c.op == opEgress then crc64 ((List.range (hi + 1 - lo)).map fun i => BitVec.ofNat 8 (c.rd ((c.move.src i).bit / 8)))
      else crc64 ((List.range (hi + 1 - lo)).map fun i => m.byteAt none (g.phys (lo + i)))
    | .tile k off =>
      let b := elemBits k.ent.fmt
      let n := boxN c.ext
      let t := tiles.dataOf k
      let els := (List.range ((off + n) * b / 8 - off * b / 8 + (if (off + n) * b % 8 = 0 then 0 else 1))).map fun i => t.get (off * b / 8 + i)
      let sb := scaleBytes k.ent.fmt
      let scs := if isBlock k.ent.fmt then
          (List.range ((off + n - 1) / 32 + 1 - off / 32)).flatMap fun j => (List.range sb).map fun i => t.get (k.ent.scaleAt (off / 32 + j) + i)
        else []
      crc64 (els ++ scs)

/-- The 32 bytes of a record (R334). -/
def Cmd.record (c : Cmd) (prod lg : Nat) (dg : W64) : List Byte :=
  toBytes 32 (c.status + (1 - prod / 2 ^ lg % 2) * 2 ^ 7 + c.flags.toNat * 2 ^ 8 + c.fcode * 2 ^ 16 + c.op.toNat * 2 ^ 32
    + (if c.status = 1 then 0 else c.bytes) * 2 ^ 64 + c.ri.toNat * 2 ^ 128 + prod % 2 ^ 32 * 2 ^ 160 + dg.toNat * 2 ^ 192)

/-- An `EGRESS` has bytes to release. -/
def Cmd.sends (c : Cmd) : Bool := c.op == opEgress && boxN c.ext != 0
/-- The command's reads have performed. -/
def State.cmdRead (s : State) (c : Cmd) : Bool := (s.mem.unread c).isEmpty
/-- An `EGRESS` that waits for room in the egress area (07 R159), after the sends that wait for it (06 R145). -/
def State.egressFull (s : State) (c : Cmd) : Bool :=
  c.sends && c.status == 0 && (s.egressNoRoom c.ctx c.bytes || (s.ctxOf c.ctx).any (·.todo ≠ [])) && (match s.mem.acc? c.acc with | some a => !a.done | none => false)
/-- The command can have moved its bytes: its reads have performed, and its writes to global memory are delivered everywhere (06 R132); what precedes an
`EGRESS` has come to the hub, in an `UNSEALED` domain to every die, which then has what it writes, and it has room in the egress area and in its die's clock. -/
def State.cmdMoved (s : State) (c : Cmd) : Bool :=
  c.status == 1 && c.fcode != 14
    || (s.cmdRead c
        && (if c.sends then !s.egressFull c && s.dom.st != .closed && (if s.dom.sealed then [4] else [0, 1, 2, 3, 4]).all (s.mem.predsDelivered c.acc) && (match s.mem.acc? c.acc with | some a => s.mem.clockRoom a | none => true) else s.mem.complete c.acc))

/-! ### Owned lines and effects that leave (06 R140, R143, R145; 07 R160, R161; 18 R420) -/

/-- The hub Sconce takes a shared-window line in ownership (06 R140); the line enters the snoop filter. -/
def State.own (s : State) (line : Nat) : State :=
  if s.mem.owned.contains line then s
  else
    let m := ({ s.mem with owned := line :: s.mem.owned } : MemSys).putNow (shadow line) (s.mem.bytesAt none line 64)
    ({ s with mem := m } : State).snoopAdd (line / 64)
/-- What an operation left in an owned line goes back to the shared window; with nothing of the line still held, it is the host's again. -/
def State.writeBack (s : State) (acc line : Nat) (l : List Byte) : State :=
  let more := s.dom.held.any fun h => match h.eff with | .writeBack k _ => k == line | _ => false
  { s with mem := ({ s.mem with owned := if more then s.mem.owned else s.mem.owned.filter (· != line) } : MemSys).putWindow acc line l }
/-- A frame of a peer connection takes its sequence number as it leaves, and stays until it is acknowledged. -/
def Peer.transmit (p : Peer) (d : List Byte) : Peer := { p with nextTx := p.nextTx + 1, unacked := p.unacked ++ [(p.nextTx, d)] }
def State.updPeer (s : State) (q : BitVec 16) (f : Peer → Peer) : State :=
  { s with pkg := { s.pkg with peers := updateAll (fun p => p.id == q) f s.pkg.peers } }
/-- An effect of an access takes place outside. -/
def State.release (s : State) (acc : Nat) (o : Out) : State :=
  match o with
  | .frame _ _ _ _ _ _ => s.sendOut o
  | .egress a l => ({ s with mem := if isFar a then s.mem else s.mem.putWindow acc a l } : State).sendOut o
  | .writeBack line l => (s.writeBack acc line l).sendOut o
  | .scaleOut q _ d =>
    match s.pkg.peers.find? fun p => p.id.toNat == q && !p.lost with
    | none => s
    | some p => (s.updPeer p.id fun p => p.transmit d).sendOut (.scaleOut q p.nextTx d)
/-- Holds an effect of an access until the seal of its interval, or releases it at once in an `UNSEALED` domain. -/
def State.emitOut (s : State) (acc : Nat) (o : Out) : State := if s.dom.sealed then s.emit acc o else s.release acc o

/-- An `EGRESS` writes its bytes into the egress area, line by line (R356, 07 R160); half the area requests a seal (R153). -/
def State.cmdEgress (s : State) (c : Cmd) : State :=
  match s.mem.acc? c.acc with
  | some a =>
    if c.op == opEgress ∧ !a.done then
      match c.dst with
      | .tile _ _ => s
      | .glob g =>
        let s := (s.stamp c.acc)
        let s := if c.status = 1 then s else (g.lines c.outBytes).foldl (fun s l =>
          let (cells, _) := c.lineCells s.mem l
          s.emitOut c.acc (.egress l (cells.map (·.2)))) s
        let s : State := { s with mem := s.mem.updAcc c.acc fun a => { a with done := true } }
        s.takeEgress c.ctx (if c.status = 1 then 0 else c.bytes)
    else s
  | none => s

def State.ctxFaulted (s : State) (c : BitVec 16) : Bool := match s.ctxOf c with | some x => x.faulted | none => true
/-- The command leaves the machine: its captures end and it signs off. -/
def State.dropCmd (s : State) (c : Cmd) : State :=
  let caps := (match c.src with | .tile k _ => [k] | _ => []) ++ (match c.dst with | .tile k _ => [k] | _ => [])
  let s := s.at_ c.who fun s => s.setClu (caps.foldl Cluster.release s.clu)
  let m := (s.mem.updAcc c.acc fun a => { a with done := true })
  ({ s with mem := ({ m with cmds := m.cmds.filter (·.id != c.id) } : MemSys).settle } : State).signOffCmd (gangOf c.who) c.id

/-- In an `UNSEALED` domain a command whose source held an uncorrectable error leaves its destination lines poisoned, of a tile its 8-byte units (17 R405): every
one that it writes (log 107). -/
def State.poisonDest (s : State) (c : Cmd) : State :=
  if s.dom.sealed || c.op == opIngest || c.fcode != 14 || c.bad.isEmpty then s
  else match c.dst with
    | .glob g => { s with mem := { s.mem with poison := (s.mem.poison ++ (g.lines c.outBytes).map (· / 64)).eraseDups } }
    | .tile k _ => s.at_ c.who fun s =>
      s.setClu (s.clu.onCap k fun t => { t with poison := (t.poison ++ c.outBytes.map fun (a : Int) => a.toNat / 8).eraseDups })

/-- The commands accepted before `c` on its ring have written their records (R335). -/
def MemSys.ringTurn (m : MemSys) (c : Cmd) (r : Ring) : Bool :=
  m.cmds.all fun d => d.id == c.id || decide (c.id < d.id) || d.ctx != c.ctx || d.who != c.who && gangOf d.who != gangOf c.who ||
    (match d.ring with
      | some q => q.end_.handle != r.end_.handle || (d.st != .run && d.recs.all fun a => m.wq.all (·.acc != a))
      | none => true)

def execCompletionRecordWrite (id : Nat) (s : State) : Res :=
  match s.mem.cmds.find? (·.id == id) with
  | none => .next s
  | some c =>
    match c.ring, c.st with
    | some r, .run =>
      let at_ := r.end_.phys r.end_.virt
      let prod := r.end_.natAt s.mem 8 8
      let cons := r.end_.natAt s.mem 16 8
      let full := decide ((prod + 2 ^ 64 - cons) % 2 ^ 64 = 2 ^ r.log2n)
      if s.egressFull c then .next s.requestSeal
      else if !s.cmdMoved c || !s.mem.ringTurn c r || !s.mem.predsDelivered c.acc (homeOf at_) then .next s
      else if full then .next (if s.ctxFaulted c.ctx then s.dropCmd c else s)
      else
        let s := ((s.cmdEgress c).cmdTile id true).poisonDest c
        let c := (s.mem.cmds.find? (·.id == id)).getD c
        let seen := s.mem.writersOf (some (homeOf at_)) (at_ + 8) 16
        let t := s.focusId c.who
        let rec_ := c.record prod r.log2n (c.digest s.mem t.clu)
        let (a, s) := s.regionWrite c r.end_ (64 + 32 * (prod % 2 ^ r.log2n)) rec_ [c.acc]
        let (b, s) := s.regionWrite c r.end_ 8 (toBytes 8 (prod + 1)) [a]
        let s := s.noteLines (linesOf at_ 24)
        .next { s with mem := (s.mem.updAcc a fun x => { x with seen := seen }).updCmd id fun c => { c with st := .record, recs := [a, b] } }
    | _, _ => .next s


def execCommandComplete (id : Nat) (s : State) : Res :=
  match s.mem.reps.find? (fun r => r.id == id && !r.write && !isFwId r.who) with
  | some r =>
    let s : State := { s with mem := ({ s.mem with reps := s.mem.reps.filter (·.id != id) } : MemSys).settle }
    let s := s.arriveAt r.who r.fb
    let s := match r.fault with
      | some f => if f.cls = 19 then s.reportLost f else s.cmdFault f.ctx f
      | none => s
    .next (s.signOffCmd r.gid id)
  | none =>
    match s.mem.cmds.find? (·.id == id) with
    | none => .next s
    | some c =>
      let ready := match c.st with
        | .run => c.ring.isNone && s.cmdMoved c
        | .record => c.recs.all s.mem.complete
        | .done => false
      if c.st == .run && s.egressFull c then .next s.requestSeal
      else event ready s fun s =>
        let s := ((s.cmdEgress c).cmdTile id true).poisonDest c
        let c := (s.mem.cmds.find? (·.id == id)).getD c
        let s := s.arriveAt c.who c.fb
        let s := if c.status = 1 then
            s.cmdFault c.ctx { c.frec with cls := BitVec.ofNat 16 c.fcode, addr := BitVec.ofNat 64 c.faddr,
                                           source := if c.fcode = 14 then sourceOf c.faddr else 0 }
          else if c.status = 3 then s.reportLost c.frec
          else s
        let site := match c.dst with | .glob _ => ueSite c.faddr | .tile _ _ => .scratch (s.focusId c.who).clu.phys
        (s.dropCmd c).meet (if c.status = 2 then some site else none)

/-! ### Commands that a faulted context leaves stuck (17 R398, R411) -/

/-- The record of the command finds no room in its ring: those of earlier commands take what is left. -/
def State.ringStuck (s : State) (c : Cmd) : Bool :=
  match c.ring, c.st with
  | some r, .run =>
    let used := (r.end_.natAt s.mem 8 8 + 2 ^ 64 - r.end_.natAt s.mem 16 8) % 2 ^ 64
    let same := fun (d : Cmd) => match d.ring with | some q => q.end_.handle == r.end_.handle | none => false
    let ahead := (s.mem.cmds.filter fun d => decide (d.id < c.id) && d.ctx == c.ctx && d.st == .run && same d).length
    decide (2 ^ r.log2n ≤ used + ahead)
  | _, _ => false
/-- The reply of an access finds no room in the completion queue of its core. -/
def State.queueStuck (s : State) (who : CoreId) (id : Nat) : Bool :=
  let t := s.focusId who
  let ahead := (s.mem.ops.filter fun o => o.who == who && decide (o.id < id) && !o.np).length
    + (s.mem.reps.filter fun r => r.who == who && decide (r.id < id) && r.write).length
  t.core.id == who && decide (64 ≤ t.core.cq.length + ahead)
/-- Commands and operations of faulted contexts that only the context could let complete are abandoned: what they have not written they do not write. -/
def State.abandonStuck (s : State) : State :=
  let dead := fun (c : BitVec 16) => match s.ctxOf c with | some x => x.faulted | none => false
  let s := (s.mem.cmds.filter fun c => dead c.ctx && s.ringStuck c).foldl (fun s c =>
    ({ s with mem := { s.mem with wq := s.mem.wq.filter (·.acc != c.acc), rq := s.mem.rq.filter (·.acc != c.acc),
                                  packets := s.mem.packets.filter (·.acc != c.acc) } } : State).dropCmd c) s
  let ctxOf := fun (acc : Nat) => match s.mem.acc? acc with | some a => a.ctx | none => 0
  let ops := s.mem.ops.filter fun o => !o.np && dead (ctxOf o.acc) && s.queueStuck o.who o.id
  ops.foldl (fun s o => s.signOffCmd o.gid o.id)
    { s with mem := ({ s.mem with ops := s.mem.ops.filter fun o => !ops.any (·.id == o.id),
                                  packets := s.mem.packets.filter fun p => !ops.any (·.acc == p.acc) } : MemSys).settle }

/-! ### Sconce operations and replies (06 R137-R140, 07 R151, 14 R351-R354) -/

/-- Writes of these bytes are logged: a sync variable but Chothes's own (18 R424), or a page's line. -/
def loggedLoc (o : SOp) : Bool := !o.shared && !(isSram o.loc && decide ((o.loc - syncBase) / 8 % 32768 < 64))
/-- The group index of a gang. -/
def State.gidxOf (s : State) (gid : Nat) : BitVec 48 := ((s.allBoxes.find? (·.gang.gid == gid)).map (·.gang.gidx)).getD 0
/-- The old value that the rolled-back interval's log holds for a shared-window atomic (07 R163). -/
def State.atomReplay (s : State) (o : SOp) (st : BitVec 4) (gidx : BitVec 48) (ctx : BitVec 16) : Option (BitVec 256) :=
  s.dom.replay.findSome? fun r => match r.in_ with
    | .atomic g k t n v => if g == gidx && k == rankOf o.who && t == st && n == o.inSeq && r.ctx == ctx then some v else none
    | _ => none
/-- A store of `cells` applied at once at its home as part of access `acc`. -/
def State.applyNow (s : State) (acc home : Nat) (cells : List Host.Cell) (line : Nat) (logged : Bool) (ri : W32) : State :=
  let e : WEv := { id := s.mem.nextId, acc := acc, src := .bytes [], line := line, logged := logged, home := home, delivered := [] }
  ({ s with mem := { s.mem with nextId := s.mem.nextId + 1 } } : State).applyWrite e cells ri

/-- Bytes of a region of context `c` as coherence order has them; none where the region check fails or a page is of the shared window (02 R51; log 93). Which writes the payload and the descriptor of a posted
send show is not said (06 R145): here those applied so far (log 102). -/
def State.regionBytes (s : State) (c : Ctx) (h : W64) (off n : Nat) : Option (List Byte) :=
  match s.regionOf c h.toNat .read with
  | none => none
  | some r =>
    let recs := s.frameRecs r
    let pages := (recs.drop ((r.base + off) / 2 ^ 21 - r.base / 2 ^ 21)).take ((r.base + off + n - 1) / 2 ^ 21 - (r.base + off) / 2 ^ 21 + 1)
    if n = 0 then (if r.within off off true then some [] else none)
    else if r.within off (off + n - 1 : Nat) false && pages.all fun w => bits w.toNat 7 6 != 3 then
      some ((List.range n).map fun i => s.mem.byteAt none (s.farOf c r.base + frameOf r.base recs (off + i)))
    else none
/-- Errors that such a read meets, in the region's table, its frame records and its lines (17 R404). -/
def State.noteRegion (s : State) (c : Ctx) (h : W64) (off n : Nat) : State :=
  match s.regionOf c h.toNat .read with
  | none => s
  | some r =>
    let recs := s.frameRecs r
    let at_ := fun (v : Nat) => (s.farOf c r.base + leafFrame (nth recs (64 * v / 2 ^ 21 - r.base / 2 ^ 21) 0).toNat + 64 * v % 2 ^ 21) / 64
    s.noteLines (s.regionLines c h.toNat ++ (if n = 0 then [] else (linesOf (r.base + off) n).map at_))
/-- The payload that a descriptor of a send ring names: handle, offset, length and tag (18 R420). None where a check fails (log 35). -/
def State.sendPayload (s : State) (p : Peer) (i : Nat) : Option (List Byte) :=
  match s.ctxOf p.ctx with
  | none => none
  | some c =>
    match s.regionOf c p.send.toNat .read with
    | none => none
    | some r =>
      match s.regionBytes c p.send (64 * (i % (r.len / 64))) 64 with
      | none => none
      | some d =>
        let f := fun k => ofBytes ((d.drop (8 * k)).take 8)
        if 8192 < f 2 then none else s.regionBytes c (BitVec.ofNat 64 (f 0)) (f 1) (f 2)
/-- Errors that reading a descriptor and its payload meets (17 R404). -/
def State.notePayload (s : State) (p : Peer) (i : Nat) : State :=
  match s.ctxOf p.ctx with
  | none => s
  | some c =>
    match s.regionOf c p.send.toNat .read with
    | none => s
    | some r =>
      let at_ := 64 * (i % (r.len / 64))
      let f := fun k => ofBytes ((((s.regionBytes c p.send at_ 64).getD []).drop (8 * k)).take 8)
      (s.noteRegion c p.send at_ 64).noteRegion c (BitVec.ofNat 64 (f 0)) (f 1) (min 8192 (f 2))
/-- A posted descriptor: its payload is copied into the egress area and leaves as a frame of the connection (06 R145). A full area makes the
sends of the context wait, all in the order in which they were posted (07 R159); half of it requests a seal (R153). -/
def State.sendOne (s : State) (acc : Nat) (q : BitVec 16) (i : Nat) : State :=
  match s.pkg.peers.find? (·.id == q) with
  | none => s
  | some p =>
    match s.sendPayload p i, s.ctxOf p.ctx with
    | some pay, some c =>
      if s.egressNoRoom p.ctx pay.length ∨ c.todo ≠ [] then (s.setCtx { c with todo := c.todo ++ [(q, acc, i)] }).pressSeal
      else ((s.notePayload p i).emitOut acc (.scaleOut q.toNat 0 pay)).takeEgress p.ctx pay.length
    | _, _ => s.notePayload p i
/-- Descriptors of a context that waited are tried again. -/
def State.sendTodo (s : State) (ctx : BitVec 16) : State :=
  match s.ctxOf ctx with
  | none => s
  | some c => c.todo.foldl (fun s x => s.sendOne x.2.1 x.1 x.2.2) (s.setCtx { c with todo := [] })
/-- An `AT.ADD` on the doorbell of a peer connection posts that many descriptors of its send ring. -/
def State.doorbell (s : State) (acc loc : Nat) (old add : W64) : State :=
  match s.pkg.peers.find? (fun p => p.doorbell == loc && !p.lost) with
  | none => s
  | some p => (List.range add.toNat).foldl (fun s i => s.sendOne acc p.id ((old.toNat + i) % 2 ^ 64)) s

/-- Bytes that an operation acts on. -/
def SOp.width (o : SOp) : Nat := if exactOp o.op then 32 else 8
/-- What the undo entries of an operation are of: its line, or each of its variables. -/
def SOp.places (o : SOp) : List Nat :=
  if isSram o.loc then (List.range (if exactOp o.op then 4 else 1)).map fun i => o.loc + 8 * i else [o.loc]
/-- The operation is executable: what precedes it has come to its home, and nothing that bounds a write makes it wait. -/
def State.opCan (s : State) (o : SOp) : Bool :=
  match s.mem.acc? o.acc with
  | none => false
  | some a =>
    let writes := o.op != opAtLd && o.op != opXrd
    let lg := loggedLoc o
    s.dom.st != .closed && s.mem.predsDelivered o.acc o.home &&
      (if 8 ≤ o.home then !s.dom.lostPkgs.contains (o.home - 8)
       else (!writes || (s.mem.clockRoom a && s.mem.clockOk a o.home)) && (!writes || !lg || !s.undoFullFor o.places o.ri)
         && (!o.shared || !s.inlogFull a.ctx || (s.atomReplay o a.stream (s.gidxOf o.gid) a.ctx).isSome))
/-- Operations on one variable execute in the order in which they became executable (R137), and at the hub those of one cycle by ascending die (01 R14, 18 R424). -/
def State.opTurn (s : State) (o : SOp) : Bool :=
  let at_ := fun (x : SOp) => x.ready.getD s.pkg.cycle
  let die : SOp → Nat := fun x => match s.mem.acc? x.acc with | some a => a.die | none => 0
  let meets := fun (x : SOp) => decide (x.loc < o.loc + o.width) && decide (o.loc < x.loc + x.width)
  s.mem.ops.all fun x => x.home != o.home || !s.opCan x || !((meets x && decide (at_ x < at_ o)) || (o.home == 4 && at_ x == at_ o && decide (die x < die o)))
/-- Operations that have become executable are marked with the cycle. -/
def State.ripen (s : State) : State :=
  { s with mem := { s.mem with ops := s.mem.ops.map fun o => if o.ready.isNone && s.opCan o then { o with ready := some s.pkg.cycle } else o } }
/-- The reply of an operation on its way. -/
def SOp.rep (o : SOp) (stream : BitVec 4) (value : W64) (fcode : W16) (fault : Option FaultRec) : Rep :=
  { id := o.id, acc := o.acc, who := o.who, gid := o.gid, idx := o.idx, home := o.home, stream := stream, fb := o.fb, write := !o.np,
    reply := { value := value, op := o.op, fcode := fcode, rnum := o.rnum }, fault := fault }
/-- Values of an operation on `old`: what it leaves, and its reply. -/
def SOp.apply (o : SOp) (old : Nat) : Nat × W64 :=
  if o.op == opXadd then (exactAdd old (o.v.setWidth 32), 0)
  else if o.op == opXrd then (old, exactRead old)
  else if o.op == opXclr then (0, 0)
  else let (x, r) := wordOp o.op (BitVec.ofNat 64 old) o.v o.n; (x.toNat, r)
/-- An operation executes at its home Sconce. One of another package is executed there: what it finds is that package's (log 53). -/
def execSconceOperationExecute (id : Nat) (s : State) : Res :=
  match s.mem.ops.find? (·.id == id) with
  | none => .next s
  | some o =>
    match s.mem.acc? o.acc with
    | none => .next s
    | some a =>
      let n := o.width
      let gidx := s.gidxOf o.gid
      let line := o.loc / 64 * 64
      let loc := if o.shared then shadow o.loc else o.loc
      let out := fun (s : State) (reply : W64) =>
        let s : State := { s with mem := { s.mem with ops := s.mem.ops.filter (·.id != id), reps := if a.who == .hub then s.mem.reps else s.mem.reps ++ [o.rep a.stream reply 0 none] } }
        if a.who == .hub then ({ s with mem := s.mem.settle } : State) else s
      event (s.opCan o && s.opTurn o) s fun s =>
        if 8 ≤ o.home then
          out { s with mem := s.mem.acked id } (o.apply (s.mem.natAt none o.loc n)).2
        else
        let held := o.shared && s.mem.owned.contains line
        let seen := if returnsValue o.op then s.mem.writersOf none (if held then loc else o.loc) n else []
        let s := if o.shared then s.own line else s
        let old := s.mem.natAt none loc n
        let replay := if o.shared then s.atomReplay o a.stream gidx a.ctx else none
        let old := match replay with | some v => v.toNat | none => old
        let s := if o.shared && replay.isNone then
            s.logInput a.ctx (.atomic gidx (rankOf o.who) a.stream o.inSeq (BitVec.ofNat 256 old)) 8 else s
        let s := if isSram o.loc then s else s.noteLines [o.loc / 64]
        let w := BitVec.ofNat 64 old
        let (new, reply) := o.apply old
        let s : State := { s with mem := s.mem.updAcc o.acc fun a => { a with seen := (a.seen ++ seen).eraseDups } }
        let s := if writesWord o.op w o.v then s.applyNow o.acc o.home (cellsAt loc (toBytes n new)) (if isSram loc then loc else loc / 64 * 64) (loggedLoc o) o.ri else s
        let s := if o.shared then s.emitOut o.acc (.writeBack line (s.mem.bytesAt none (shadow line) 64)) else s
        let s := out s reply
        if o.op = 0x0A then s.doorbell o.acc o.loc w o.v else s

/-- Replies of one core, stream and Sconce enter in issue order (06 R138); a full queue makes the reply wait (R353). -/
def execReplyWrite (id : Nat) (s : State) : Res :=
  match s.mem.reps.find? (fun r => r.id == id && r.write && !isFwId r.who) with
  | none => .next s
  | some r =>
    let first := s.mem.reps.all fun q => !q.write || q.who != r.who || q.stream != r.stream || q.home != r.home || decide (r.id ≤ q.id)
    let olderOps := s.mem.ops.all fun o => o.who != r.who || o.home != r.home || decide (r.id ≤ o.id) ||
      (match s.mem.acc? o.acc with | some a => a.stream != r.stream | none => true)
    let t := s.focusId r.who
    let here := t.core.id == r.who
    let room := decide (t.core.cq.length < 64)
    let ctx := (s.mem.acc? r.acc).map (·.ctx)
    let dead := !here || (!room && (match ctx with | some c => s.ctxFaulted c | none => true))
    let done := fun (s : State) =>
      ({ s with mem := { s.mem with reps := updateAll (fun x => x.id == id) (fun x => { x with write := false }) s.mem.reps } } : State)
    event (first && olderOps && (dead || room)) s fun s =>
      if dead then done s else done (s.at_ r.who fun s => s.setCore { s.core with cq := s.core.cq ++ [r.reply] })

/-! ### Waits (11 R260, R261, 14 R354) -/

/-- The awaited phase bit stands: the bundle of the core in focus may issue. -/
def execWaitbSatisfied (s : State) : Res :=
  match s.core.wait with
  | .waitb fb ph => event (fbPh (s.getFb fb) == ph) s fun s => s.setCore { s.core with wait := .none }
  | _ => .next s
/-- The address register of the `SB.WAIT` that the core in focus has due. -/
def State.sbWaitReg (s : State) : Option (BitVec 4) :=
  match s.core.cur.entries[s.core.ent]? with
  | none => none
  | some e => match decodeSlotOp e.bundle .x with
    | .ok p => match p.op with | .sbWait _ xa _ => some xa | _ => none
    | .error _ => none
/-- The variable that the core in focus waits on, once a read event of the wait's stream may perform at its die and finds the awaited GEN. -/
def State.sbWaitHit (s : State) : Option (SbWait × Access × Target) :=
  match s.core.sbw with
  | none => none
  | some w =>
    if w.out then none
    else match s.mem.acc? w.acc, s.sbWaitReg.bind fun x => s.myCtx.bind fun k => s.syncTarget k (s.getXp x) false with
      | some a, some t =>
        if s.mem.predsDelivered w.acc a.die && (bits (s.mem.natAt (some a.die) t.loc 8) 63 63 == w.gen.toNat) then some (w, a, t) else none
      | _, _ => none
/-- The wait of the core in focus is over. -/
def State.sbWaitEnd (s : State) : State :=
  match s.sbWaitHit with
  | none => s
  | some (w, a, t) =>
    let seen := s.mem.writersOf (some a.die) t.loc 8
    let m := s.mem.updAcc w.acc fun a => { a with done := true, seen := (a.seen ++ seen).eraseDups }
    ({ s with core := { s.core with sbw := some { w with out := true } }, mem := m } : State).noteLines [t.loc / 64]
/-- Cores that wait in an `SB.WAIT`, the one in focus first. -/
def State.sbWaiters (s : State) : List CoreId :=
  (s.allBoxes.flatMap fun b => b.core :: b.cores).filterMap fun c => match c.sbw with | some w => if w.out then none else some c.id | none => none
/-- A read event of a wait's stream returns the awaited GEN: the first core for which one may. -/
def execSbWaitSatisfied (s : State) : Res :=
  match s.sbWaiters.find? fun c => (s.focusId c).sbWaitHit.isSome with
  | none => .next s
  | some c => .next (s.at_ c State.sbWaitEnd)
/-- The hub has recorded a recall of the watched line. -/
def execWaitaRecall (s : State) : Res :=
  match s.core.wait with
  | .waita line since lim none => event (s.recalled line since) s fun s => s.setCore { s.core with wait := .waita line since lim (some true) }
  | _ => .next s
def execWaitaLimitExpiry (s : State) : Res :=
  match s.core.wait with
  | .waita line since lim none => event (decide (lim ≤ s.gang.now)) s fun s => s.setCore { s.core with wait := .waita line since lim (some false) }
  | _ => .next s

/-! ### Tag sweep and refresh (07 R150, 03 R66, 08 R186) -/

def execTagSweepVisit (line : Nat) (s : State) : Res :=
  let n := line / 64
  match s.mem.tag n with
  | none => .next s
  | some t => event s.dom.sealed s fun s =>
      let cur := s.dom.ri.toNat % 256
      let d := (cur + 256 - t.toNat) % 256
      let t' : Byte := if 128 ≤ d then BitVec.ofNat 8 ((cur + 128) % 256) else t
      { s with mem := { s.mem with tags := updateAll (fun x => x.1 == n) (fun _ => (n, t')) s.mem.tags,
                                   swept := updateAll (fun x => x.1 == n) (fun _ => (n, s.dom.ri)) s.mem.swept } }

end Sys2Proof.Machine
end

