-- ==== Sys2Proof/Machine/Fabric.lean ====
section
/-! DEFINITION. The F slot (15 R358-R371): logical links, `SEND`, `RECV`, `RELAY`, `MCAST`, `LCHK`, their checks; matching, movement of
vectors by frame cycle, retries and link failure. -/

namespace Sys2Proof.Machine

/-! ### Logical links (R358, R359, 05 R114) -/

/-- The far end of a link: partner rank and pairing link; the number of the link's sending direction; its latency. -/
structure LinkEnd where
  rank : Nat
  link : Nat
  out : Nat
  lat : Nat
deriving DecidableEq, Repr

def Gang.linkEnd (g : Gang) (r l : Nat) : Option LinkEnd :=
  let (w, h) := (g.code.lw, g.code.lh)
  let k := r / 4
  let q := r % 4
  let d := k / (w * h)
  let (x, y) := (k % (w * h) % w, k % (w * h) / w)
  let nd := g.g / (w * h)
  let at_ := fun d x y => 4 * (d * w * h + y * w + x) + q
  let torus := fun (ok : Bool) (p m : Nat) => if ok then some { rank := p, link := m, out := r * 16 + l, lat := 7 : LinkEnd } else none
  match l with
  | 0 => torus (decide (0 < y) || h == 4) (at_ d x ((y + h - 1) % h)) 2
  | 1 => torus (decide (x + 1 < w) || w == 4) (at_ d ((x + 1) % w) y) 3
  | 2 => torus (decide (y + 1 < h) || h == 4) (at_ d x ((y + 1) % h)) 0
  | 3 => torus (decide (0 < x) || w == 4) (at_ d ((x + w - 1) % w) y) 1
  | _ =>
    let dl := (l - 4) / 4 + 1
    let c := (l - 4) % 4
    let t := (d + dl) % 4
    if t < nd then some { rank := at_ t x y, link := 4 * (3 - dl) + c + 4, out := 2 ^ 16 + (d * 4 + t) * 4 + c, lat := 24 } else none
/-- The number of the direction in which rank `r` receives on link `l`. -/
def Gang.inDir (g : Gang) (r l : Nat) : Option Nat :=
  match g.linkEnd r l with
  | some e => (g.linkEnd e.rank e.link).map (·.out)
  | none => none

/-! ### Issue (R360-R363) -/

/-- Occupied ends of directions with first and last frame cycle: a direction is occupied at its sending end by transmits and at its receiving end by
receives, each in its own frame cycles (R363). -/
abbrev Occ := List (Nat × Nat × Nat)
def txEnd (d : Nat) : Nat := 2 * d
def rxEnd (d : Nat) : Nat := 2 * d + 1
/-- Some direction is already occupied by a bundle issued earlier (R363). -/
def Gang.busyNow (g : Gang) (o : Occ) (now : Nat) : Bool :=
  o.any fun (r, a, b) => g.occ.any fun (r', a', b', i) => decide (i < now) && r == r' && decide (a ≤ b') && decide (a' ≤ b)
/-- Ranks whose claims of one cycle overlap one another on a link (R363: a gang charge). -/
def overlapRanks (l : List (Nat × Occ)) : List Nat :=
  (l.filter fun x => l.any fun y => x.1 != y.1 && x.2.any fun (r, a, b) =>
    y.2.any fun (r', a', b') => r == r' && decide (a ≤ b') && decide (a' ≤ b)).map (·.1)

/-- A claim on a bank port at a frame cycle of the phase, `df` frame cycles from now. -/
def State.chargeFrame (s : State) (df : Nat) (wr : Bool) (c : Cap) (w : Nat) : State :=
  let s := s.charge df wr c w
  s.setClu { s.clu with charges := s.clu.charges.dropLast ++ (s.clu.charges.getLast?.map fun x => { x with frame := true }).toList }

def xferN (w : W64) : Nat := bits w.toNat 43 32 + 1
def xferWord (w : W64) : Nat := bits w.toNat 31 0
/-- Starts a transfer: its links' occupancy and its place in the gang. -/
def State.startXfer (s : State) (k : FKind) (start n word : Nat) (cap : Option Cap) (o : Occ) : State :=
  let x : FXfer :=
    { id := s.gang.nextXfer, rank := s.rank, kind := k, start := start, n := n, word := word, cap := cap, buf := [], bad := [], matched := false,
      done := false, iss := s.gang.now, seg := s.core.seg, ent := s.core.ent }
  let s := match cap with | some c => s.setClu (s.clu.capture c) | none => s
  s.setGang { s.gang with xfers := s.gang.xfers ++ [x], nextXfer := x.id + 1,
                          occ := s.gang.occ ++ o.map fun (r, a, b) => (r, a, b, s.gang.now) }

/-- A trap of the F slot: class, cause, object, link. -/
abbrev FTrap := Nat × Nat × Nat × Nat
/-- The first checks of `SEND` and `MCAST` (R362): word, links, tile; what they find is the captured tile and the occupancy. -/
def State.txCheck (s : State) (ls : List (BitVec 4)) (t : BitVec 12) (xp : BitVec 4) (start : BitVec 12) : Except FTrap (Cap × Occ) :=
  let w := s.getXp xp
  let at_ := s.gang.sfc.toNat + start.toNat
  let n := xferN w
  let ends := ls.map fun l => s.gang.linkEnd s.rank l.toNat
  if bits w.toNat 63 44 ≠ 0 then .error (8, 0, 0, 0)
  else if ends.any (·.isNone) then .error (9, 2, 0, (ls.headD 0).toNat)
  else match s.tileCheckWords t.toNat (xferWord w + n - 1) with
    | .error cls => .error (cls, 0, t.toNat, 0)
    | .ok c => .ok (c, ends.filterMap fun e => e.map fun e => (txEnd e.out, at_, at_ + n - 1))
/-- Those of `RECV`. -/
def State.rxCheck (s : State) (l : BitVec 4) (t : BitVec 12) (xp : BitVec 4) (start : BitVec 12) : Except FTrap (Cap × Occ) :=
  let w := s.getXp xp
  let at_ := s.gang.sfc.toNat + start.toNat
  let n := xferN w
  if bits w.toNat 63 44 ≠ 0 then .error (8, 0, 0, 0)
  else match s.gang.inDir s.rank l.toNat with
    | none => .error (9, 2, 0, l.toNat)
    | some dir =>
      match s.tileCheckWords t.toNat (xferWord w + n - 1) with
      | .error cls => .error (cls, 0, t.toNat, 0)
      | .ok c => .ok (c, [(rxEnd dir, at_, at_ + n - 1)])
/-- Those of `RELAY`. -/
def State.relayCheck (s : State) (l m : BitVec 4) (xp : BitVec 4) (start : BitVec 12) : Except FTrap Occ :=
  let w := s.getXp xp
  let at_ := s.gang.sfc.toNat + start.toNat
  let n := xferN w
  if bits w.toNat 63 44 ≠ 0 ∨ xferWord w ≠ 0 then .error (8, 0, 0, 0)
  else match s.gang.inDir s.rank l.toNat, s.gang.linkEnd s.rank m.toNat with
    | none, _ => .error (9, 2, 0, l.toNat)
    | some _, none => .error (9, 2, 0, m.toNat)
    | some dir, some e => .ok [(rxEnd dir, at_, at_ + n - 1), (txEnd e.out, at_ + 1, at_ + n)]
/-- Those of `LCHK`. -/
def State.lchkCheck (s : State) (l : BitVec 4) (start : BitVec 12) : Except FTrap Occ :=
  let at_ := s.gang.sfc.toNat + start.toNat
  match s.gang.inDir s.rank l.toNat, s.gang.linkEnd s.rank l.toNat with
  | some dir, some e => .ok [(rxEnd dir, at_, at_), (txEnd e.out, at_, at_)]
  | _, _ => .error (9, 2, 0, l.toNat)
def raiseF (t : FTrap) (s : State) : Res := raise .f t.1 t.2.1 t.2.2.1 t.2.2.2 s
/-- Links of a multicast mask, ascending. -/
def mcastLinks (mask : BitVec 4) : List (BitVec 4) := ((List.range 4).filter fun i => mask.getLsbD i).map (BitVec.ofNat 4)
/-- What an F-slot operation that passes its first checks occupies, and the link that AUX names (R363, 17 R401). -/
def State.claims (s : State) : Instr → Option (Occ × Nat)
  | .send l t xp start => (s.txCheck [l] t xp start).toOption.map fun x => (x.2, l.toNat)
  | .mcast m t xp start => (s.txCheck (mcastLinks m) t xp start).toOption.map fun x => (x.2, ((mcastLinks m).headD 0).toNat)
  | .recv l t xp start => (s.rxCheck l t xp start).toOption.map fun x => (x.2, l.toNat)
  | .relay l m xp start => (s.relayCheck l m xp start).toOption.map fun o => (o, l.toNat)
  | .lchk l start => (s.lchkCheck l start).toOption.map fun o => (o, l.toNat)
  | _ => none

/-- `SEND` and `MCAST`: the checks of R362 in order, then the transfer. -/
def transmit (ls : List (BitVec 4)) (t : BitVec 12) (xp : BitVec 4) (start : BitVec 12) (s : State) : Res :=
  let w := s.getXp xp
  let n := xferN w
  let aux := (ls.headD 0).toNat
  match s.txCheck ls t xp start with
  | .error e => raiseF e s
  | .ok (c, o) =>
    let ws := (List.range n).map (xferWord w + ·)
    if s.gang.busyNow o s.gang.now then raise .f 9 3 0 aux s
    else if 16 ≤ s.core.heldR.length then raise .f 9 1 0 aux s
    else if s.openHit t.toNat ws then raise .f 9 0 0 aux s
    else
      let s := s.startXfer (.send ls) (s.gang.sfc.toNat + start.toNat) n (xferWord w) (some c) o
      let s := s.setCore { s.core with heldR := s.core.heldR ++ [{ tile := t, word := xferWord w, count := n, link := aux }] }
      .next ((List.range n).foldl (fun s v => s.chargeFrame (start.toNat - 1 + v) false c (xferWord w + v)) s)

def execSend (l : BitVec 4) (t : BitVec 12) (xp : BitVec 4) (start : BitVec 12) (s : State) : Res := transmit [l] t xp start s
def execMcast (mask : BitVec 4) (t : BitVec 12) (xp : BitVec 4) (start : BitVec 12) (s : State) : Res := transmit (mcastLinks mask) t xp start s

def execRecv (l : BitVec 4) (t : BitVec 12) (xp : BitVec 4) (start : BitVec 12) (s : State) : Res :=
  let w := s.getXp xp
  let n := xferN w
  match s.rxCheck l t xp start with
  | .error e => raiseF e s
  | .ok (c, o) =>
    let ws := (List.range n).map (xferWord w + ·)
    if s.gang.busyNow o s.gang.now then raise .f 9 3 0 l.toNat s
    else if 16 ≤ s.core.openR.length then raise .f 9 1 0 l.toNat s
    else match s.rangeTrap t.toNat ws true with
      | some cause => raise .f 9 cause 0 l.toNat s
      | none =>
        let s := s.startXfer (.recv l) (s.gang.sfc.toNat + start.toNat) n (xferWord w) (some c) o
        let s := s.setCore { s.core with openR := s.core.openR ++ [{ tile := t, word := xferWord w, count := n, link := l.toNat }] }
        .next ((List.range n).foldl (fun s v => s.chargeFrame (start.toNat + v + 1) true c (xferWord w + v)) s)

def execRelay (l m : BitVec 4) (xp : BitVec 4) (start : BitVec 12) (s : State) : Res :=
  match s.relayCheck l m xp start with
  | .error e => raiseF e s
  | .ok o =>
    if s.gang.busyNow o s.gang.now then raise .f 9 3 0 l.toNat s
    else .next (s.startXfer (.relay l m) (s.gang.sfc.toNat + start.toNat) (xferN (s.getXp xp)) 0 none o)

def execLchk (l : BitVec 4) (start : BitVec 12) (s : State) : Res :=
  match s.lchkCheck l start with
  | .error e => raiseF e s
  | .ok o =>
    if s.gang.busyNow o s.gang.now then raise .f 9 3 0 l.toNat s
    else .next (s.startXfer (.lchk l) (s.gang.sfc.toNat + start.toNat) 1 0 none o)

/-! ### Matching (R364-R366) -/

/-- Links on which a transfer sends, with the frame cycle at which its first vector leaves. -/
def FXfer.outs (x : FXfer) : List (Nat × Nat) :=
  match x.kind with
  | .send ls => ls.map fun l => (l.toNat, x.start)
  | .relay _ o => [(o.toNat, x.start + 1)]
  | _ => []
/-- The link on which a transfer receives. -/
def FXfer.inLink (x : FXfer) : Option Nat :=
  match x.kind with
  | .recv l => some l.toNat
  | .relay i _ => some i.toNat
  | _ => none
/-- Transfers whose first vector reaches rank `r` on link `l` at frame cycle `f`. -/
def Gang.arriving (g : Gang) (r l f : Nat) : List FXfer :=
  g.xfers.filter fun x => x.outs.any fun (m, t) => match g.linkEnd x.rank m with
    | some e => e.rank == r && e.link == l && t + e.lat == f
    | none => false
/-- The last frame cycle in which a transfer samples, moves or writes. -/
def FXfer.last (x : FXfer) : Nat :=
  match x.kind with
  | .send _ => x.start + x.n - 2
  | .recv _ | .relay _ _ => x.start + x.n
  | .lchk _ => x.start
/-- The transfer that feeds a matched receive. -/
def Gang.feeder (g : Gang) (x : FXfer) : Option FXfer := (x.inLink.map fun l => g.arriving x.rank l x.start).bind List.head?

/-- What the interfaces find at frame cycle `f`: the mismatches, with cause, transfer and link. -/
def Gang.mismatches (g : Gang) (f : Nat) : List (Nat × FXfer × Nat) :=
  g.xfers.flatMap fun x =>
    let sent := x.outs.flatMap fun (m, t) => match g.linkEnd x.rank m with
      | some e =>
        if t + e.lat = f then
          match g.xfers.find? (fun y => y.rank == e.rank && y.inLink == some e.link && y.start == f) with
          | none => [(4, x, m)]
          | some y => if y.n = x.n then [] else [(6, x, m)]
        else []
      | none => []
    let got := match x.inLink with
      | some l =>
        if x.start = f then
          match g.arriving x.rank l f with
          | [] => [(5, x, l)]
          | y :: _ => if y.n = x.n then [] else [(6, x, l)]
        else []
      | none => []
    let chk := match x.kind with
      | .lchk l =>
        match g.linkEnd x.rank l.toNat with
        | some e =>
          if x.start + e.lat = f ∧
              !(g.xfers.any fun y => y.rank == e.rank && y.start == x.start && y.kind == .lchk (BitVec.ofNat 4 e.link)) then
            [(7, x, l.toNat)]
          else []
        | none => []
      | _ => []
    sent ++ got ++ chk

/-- The record of a mismatch names the bundle that issued the transfer (17 R401). -/
def State.xferRec (s : State) (cause : Nat) (x : FXfer) (link : Nat) : FaultRec :=
  let t := s.focus x.rank
  let r := t.faultRec { cls := 9, cause := cause, slots := 64, addr := 0, aux := link } 1
  { r with segment := BitVec.ofNat 32 x.seg, entry := BitVec.ofNat 11 x.ent }

/-- Transfers that start at frame cycle `f` and find their partner are matched; a check flit that agrees is. -/
def Gang.matched (g : Gang) (f : Nat) : Gang :=
  let upd := fun (x : FXfer) =>
    match x.kind with
    | .lchk l => (match g.linkEnd x.rank l.toNat with | some e => if x.start + e.lat = f then { x with matched := true } else x | none => x)
    | .send _ => x
    | _ => if x.start = f then { x with matched := true } else x
  { g with xfers := g.xfers.map upd }
/-- After a stop the transfers of bundles that issued still find their partners, as far as those issued (17 R396). -/
def Gang.drainMatch (g : Gang) (f : Nat) : Gang :=
  let bad := (g.mismatches f).map (·.2.1.id)
  { g with xfers := (g.xfers.zip (g.matched f).xfers).map fun x => if bad.contains x.1.id then x.1 else x.2 }
/-- Matching at the gang's frame cycle: what starts now and finds its partner is matched; on a mismatch the gang takes `LINK_MISMATCH`, and no vector
of the mismatched transfers is written (R364). -/
def execLinkMatching (s : State) : Res :=
  let f := s.gang.sfc.toNat
  match s.gang.mismatches f with
  | [] => .next (s.setGang (s.gang.matched f))
  | l =>
    let s1 := l.foldl (fun s (c, x, k) =>
      let r := { s.xferRec c x k with seq := s.pkg.faultSeq }
      ((s.logFault s.die r).notifyFault r).fwEvent s.die 1) s
    .next ((s1.setGang (s1.gang.drainMatch f)).faultCtx s.gang.ctx)

/-! ### Movement by frame cycle (R362, R365) -/

def Gang.updXfer (g : Gang) (id : Nat) (f : FXfer → FXfer) : Gang := { g with xfers := updateAll (fun x => x.id == id) f g.xfers }
def FXfer.vec (x : FXfer) (v : Nat) : Option (List Byte) := (x.buf.find? (·.1 == v)).map (·.2)

/-- Samples at frame cycle `f`: senders read their words; relays take what reaches them, unless its CRC failed. -/
def State.fabricSample (s : State) (f : Nat) : State :=
  s.gang.xfers.foldl (fun s x =>
    match x.kind, x.cap with
    | .send _, some c =>
      if x.start ≤ f + 1 ∧ f + 1 < x.start + x.n then
        let v := f + 1 - x.start
        let t := s.focus x.rank
        let b := tileWord (t.clu.dataOf c) (x.word + v)
        let t := t.notePoison c [x.word + v]
        (t.setGang (t.gang.updXfer x.id fun x => { x with buf := x.buf ++ [(v, b)] })).focus s.rank
      else s
    | .relay _ _, _ =>
      if x.matched ∧ x.start ≤ f ∧ f < x.start + x.n then
        let v := f - x.start
        let got := if x.bad.any (·.1 == v) then none else (s.gang.feeder x).bind fun y => y.vec v
        s.setGang (s.gang.updXfer x.id fun x => match got with
          | some b => { x with buf := x.buf ++ [(v, b)] }
          | none => if x.bad.any (·.1 == v) then x else { x with bad := x.bad ++ [(v, 0)] })
      else s
    | _, _ => s) s

/-- Stores a tile word of the receiving cluster. -/
def State.storeWord (s : State) (rank : Nat) (c : Cap) (w : Nat) (b : List Byte) : State :=
  let t := s.focus rank
  (t.setClu (t.clu.onCap c fun k => { k with data := k.data.store (cellsAt (256 * w) b), poison := k.poison.filter (· / 32 != w) })).focus s.rank
/-- Writes at frame cycle `f`: a receive writes vector v at T + v + 1, unless its CRC failed. -/
def State.fabricWrite (s : State) (f : Nat) : State :=
  s.gang.xfers.foldl (fun s x =>
    match x.kind, x.cap with
    | .recv _, some c =>
      if x.matched ∧ x.start + 1 ≤ f ∧ f ≤ x.start + x.n then
        let v := f - x.start - 1
        let got := if x.bad.any (·.1 == v) then none else (s.gang.feeder x).bind fun y => y.vec v
        match got with
        | some b =>
          let s := s.storeWord x.rank c (x.word + v) b
          s.setGang (s.gang.updXfer x.id fun x => { x with buf := x.buf ++ [(v, [])] })
        | none => s.setGang (s.gang.updXfer x.id fun x => if x.bad.any (·.1 == v) then x else { x with bad := x.bad ++ [(v, 0)] })
      else s
    | _, _ => s) s

/-! ### Retries, arrival, failure (R369, R370) -/

/-- The word that the first sender of a chain of relays holds for vector `v`, read again. -/
def State.heldWord (s : State) : Nat → FXfer → Nat → Option (List Byte)
  | 0, _, _ => none
  | n + 1, x, v =>
    match s.gang.feeder x with
    | none => none
    | some y =>
      match y.kind, y.cap with
      | .send _, some c => let t := s.focus y.rank; some (tileWord (t.clu.dataOf c) (y.word + v))
      | _, _ => if y.bad.any (·.1 == v) then none else s.heldWord n y v
/-- The read of that word meets an uncorrectable error (03 R62, R63). -/
def State.heldPoison (s : State) : Nat → FXfer → Nat → State
  | 0, _, _ => s
  | n + 1, x, v =>
    match s.gang.feeder x with
    | none => s
    | some y =>
      match y.kind, y.cap with
      | .send _, some c => ((s.focus y.rank).notePoison c [y.word + v]).focus s.rank
      | _, _ => s.heldPoison n y v

/-- The timed chains of the cluster of rank `r` have ended. -/
def State.cluTimedEnded (s : State) (r : Nat) : Bool :=
  s.allCores.all fun c => rankOf c.id / 4 != r / 4 || (c.run != .timed)

/-- A vector's CRC check: ahead of its timed arrival, or of a check flit, a failure is recorded; afterwards a retry of a failed vector
succeeds, or fails once more. The fifteenth failed retry makes the link failed. -/
def execLinkRetry (id vector : Nat) (good : Bool) (s : State) : Res :=
  match s.gang.xfers.find? (·.id == id) with
  | none => .next s
  | some x =>
    match x.bad.find? (·.1 == vector) with
    | none =>
      event (!good && !x.done && decide (vector < x.n) && (x.vec vector).isNone && x.outs.isEmpty || (match x.kind with | .relay _ _ => !good && (x.vec vector).isNone && decide (vector < x.n) | _ => false)) s
        fun s => s.setGang (s.gang.updXfer id fun x => { x with bad := x.bad ++ [(vector, 0)] })
    | some (_, k) =>
      let late := decide (x.start + vector + 1 < s.gang.sfc.toNat)
      if !late || !s.cluTimedEnded x.rank then .next s
      else if good then
        let clear := fun (s : State) => s.setGang (s.gang.updXfer id fun x => { x with bad := x.bad.filter (·.1 != vector) })
        match x.kind with
        | .lchk _ => .next (clear s)
        | _ =>
          match s.heldWord (s.gang.xfers.length) x vector with
          | none => .next s
          | some b =>
            let s := s.heldPoison s.gang.xfers.length x vector
            let s := match x.kind, x.cap with | .recv _, some c => s.storeWord x.rank c (x.word + vector) b | _, _ => s
            .next (clear (s.setGang (s.gang.updXfer id fun x => { x with buf := x.buf ++ [(vector, b)] })))
      else
        let s := s.setGang (s.gang.updXfer id fun x => { x with bad := updateAll (fun b => b.1 == vector) (fun b => (b.1, b.2 + 1)) x.bad })
        .next (if 14 ≤ k then s.soon (.linkFailure id) else s)

/-- Every receive that a transfer's vectors reach, directly or over relays, has all of them (R368, R369): until then a retry may read its held words again. -/
def Gang.reached (g : Gang) : Nat → FXfer → Bool
  | 0, _ => false
  | n + 1, x => x.outs.all fun (m, t) => match g.linkEnd x.rank m with
    | some e => g.xfers.any fun z => z.rank == e.rank && z.inLink == some e.link && z.start == t + e.lat && z.done && g.reached n z
    | none => true
/-- Every vector of a receive or relay has been received free of error: its interface arrives, and captures end where both ends are done. -/
def execLinkInterfaceArrival (id : Nat) (s : State) : Res :=
  match s.gang.xfers.find? (·.id == id) with
  | none => .next s
  | some x =>
    let full := match x.kind with
      | .send _ => false
      | .lchk _ => x.matched && x.bad.isEmpty
      | _ => x.matched && x.bad.isEmpty && (List.range x.n).all fun v => (x.vec v).isSome
    event (full && !x.done) s fun s =>
      let s := match x.cap with | some c => ((s.focus x.rank).setClu ((s.focus x.rank).clu.release c)).focus s.rank | none => s
      let s := s.setGang (s.gang.updXfer id fun x => { x with done := true })
      -- senders all of whose final receivers are done
      s.gang.xfers.foldl (fun s y =>
        match y.kind, y.cap with
        | .send _, some c =>
          if !y.done && s.gang.reached (s.gang.xfers.length + 1) y then
            let t := s.focus y.rank
            ((t.setClu (t.clu.release c)).focus s.rank).setGang (s.gang.updXfer y.id fun y => { y with done := true })
          else s
        | _, _ => s) s

/-! ### Physical links (R359, R370; 03 R72) -/

/-- The number of a pair of physical dies. -/
def diePair (a b : Nat) : Nat := 5 * min a b + max a b
/-- A logical die channel of a gang, as `Gang.binds` numbers it. -/
def chanKey (d t c : Nat) : Nat := (4 * min d t + max d t) * 4 + c
/-- The package cluster on which logical cluster `k` stands. -/
def GangBox.physOf (b : GangBox) (k : Nat) : Nat := (((b.clu :: b.clus).find? (·.k == k)).map (·.phys)).getD 0
/-- What carries a link end of a gang: a torus link, by package cluster and direction, or a die channel, by pair of dies and channel. -/
def GangBox.physLink (b : GangBox) (r l : Nat) : Option (Sum (Nat × Nat) (Nat × Nat)) :=
  (b.gang.linkEnd r l).bind fun e =>
    let n := b.gang.code.lw * b.gang.code.lh
    if l < 4 then some (.inl (b.physOf (r / 4), l))
    else (b.gang.binds.find? (·.1 == chanKey (r / 4 / n) (e.rank / 4 / n) ((l - 4) % 4))).map fun x =>
      .inr (diePair (b.physOf (r / 4) / 16) (b.physOf (e.rank / 4) / 16), x.2)
/-- The gang's placement uses the link. -/
def GangBox.usesLink (b : GangBox) (x : Sum (Nat × Nat) (Nat × Nat)) : Bool :=
  (List.range (4 * b.gang.g)).any fun r => (List.range 16).any fun l => b.physLink r l == some x
/-- A link is not used again. -/
def State.retireLink (s : State) (x : Sum (Nat × Nat) (Nat × Nat)) : State :=
  let r := s.pkg.retired
  { s with pkg := { s.pkg with retired := match x with
      | .inl k => { r with links := (k :: r.links).eraseDups }
      | .inr k => { r with chans := (k :: r.chans).eraseDups } } }

/-- The link of a transfer is declared failed: an uncorrectable error of core logic, which retires the link. -/
def execLinkFailure (id : Nat) (s : State) : Res :=
  match s.gang.xfers.find? (·.id == id) with
  | none => .next s
  | some x =>
    let link := match x.inLink with
      | some l => l
      | none => (match x.kind with | .lchk l => l.toNat | _ => (x.outs.headD (0, 0)).1)
    .next (s.soon (.dataUe (.link s.gang.gid (16 * x.rank + link))))

end Sys2Proof.Machine
end

