-- ==== Sys2Proof/Machine/Load.lean ====
section
/-! DEFINITION. Sealed code objects (09 R199-R207, R222, R223; 08 R180-R182): layout, load checks, code handles. -/

namespace Sys2Proof.Machine

/-- The bytes of an object as loaded. -/
abbrev Obj := Array Byte
/-- The `n` bytes at `off`, as far as the object reaches. -/
def Obj.slice (o : Obj) (off n : Nat) : List Byte := (o.toList.drop off).take n
/-- The little-endian number of the `n` bytes at `off`. -/
def Obj.u (o : Obj) (off n : Nat) : Nat := ofBytes (o.slice off n)

/-! ### Fields (R201, R202) -/

def Obj.length (o : Obj) : Nat := o.u 8 8
def Obj.priv (o : Obj) : Bool := o.u 6 2 % 2 == 1
def Obj.fwCore (o : Obj) : Bool := o.u 6 2 / 2 % 2 == 1
def Obj.gmin (o : Obj) : Nat := o.u 16 1
def Obj.gmax (o : Obj) : Nat := o.u 17 1
def Obj.lw (o : Obj) : Nat := o.u 18 1 % 16
def Obj.lh (o : Obj) : Nat := o.u 18 1 / 16
def Obj.nEntry (o : Obj) : Nat := o.u 20 1 + 1
def Obj.t0n (o : Obj) : Nat := o.u 21 1 + 1
def Obj.t1n (o : Obj) : Nat := o.u 22 1 + 1
def Obj.nDict (o : Obj) : Nat := o.u 23 1 + 1
def Obj.nSeg (o : Obj) : Nat := o.u 24 4
def Obj.nRst (o : Obj) : Nat := o.u 28 4
def Obj.nTile (o : Obj) : Nat := o.u 32 2
def Obj.nRot (o : Obj) : Nat := o.u 34 2
def Obj.entOff (o : Obj) : Nat := o.u 40 4
def Obj.t0Off (o : Obj) : Nat := o.u 44 4
def Obj.t1Off (o : Obj) : Nat := o.u 48 4
def Obj.rstOff (o : Obj) : Nat := o.u 52 4
def Obj.segDirOff (o : Obj) : Nat := o.u 56 4
def Obj.dictOff (o : Obj) : Nat := o.u 60 4
def Obj.rmapOff (o : Obj) : Nat := o.u 64 4
def Obj.tileOff (o : Obj) : Nat := o.u 68 4
def Obj.rotOff (o : Obj) : Nat := o.u 72 4
def Obj.schedOff (o : Obj) : Nat := o.u 76 4
def Obj.schedLen (o : Obj) : Nat := o.u 80 4

/-- A descriptor of a number of 256 bits (08 R180). -/
def descOf (d : Nat) : Desc :=
  { budget := fieldAt d 224 32, ylen := fieldAt d 192 32, segtab := fieldAt d 176 16, succ1 := fieldAt d 166 10, succ0 := fieldAt d 156 10,
    pidx := fieldAt d 152 4, comb := bits d 151 151 == 1, mode := fieldAt d 149 2, yieldP := bits d 148 148 == 1, sealOk := bits d 147 147 == 1,
    preemptOk := bits d 146 146 == 1 }
/-- The number of a descriptor. -/
def Desc.bits (d : Desc) : Nat :=
  d.budget.toNat * 2 ^ 224 + d.ylen.toNat * 2 ^ 192 + d.segtab.toNat * 2 ^ 176 + d.succ1.toNat * 2 ^ 166 + d.succ0.toNat * 2 ^ 156
    + d.pidx.toNat * 2 ^ 152 + d.comb.toNat * 2 ^ 151 + d.mode.toNat * 2 ^ 149 + d.yieldP.toNat * 2 ^ 148 + d.sealOk.toNat * 2 ^ 147
    + d.preemptOk.toNat * 2 ^ 146
def Obj.table (o : Obj) (off n : Nat) : List Desc := (List.range n).map fun i => descOf (o.u (off + 32 * i) 32)
def tileDeclOf (x : Nat) : TileDecl :=
  let lvl := bits x 14 14 == 1
  { h := fieldAt x 0 12
    ent := { lvl := lvl, retain := bits x 15 15 == 1, fmt := fieldAt x 16 5, dims := fieldAt x 21 2, owner := fieldAt x 12 2,
             e0 := fieldAt x 32 16, e1 := fieldAt x 48 16, e2 := fieldAt x 64 16, e3 := fieldAt x 80 16 } }
def Obj.dict (o : Obj) (i : Nat) : List W384 :=
  let off := o.u (o.dictOff + 8 * i) 4
  (List.range (o.u (o.dictOff + 8 * i + 4) 2)).map fun k => BitVec.ofNat 384 (o.u (off + 48 * k) 48)
def Obj.segOff (o : Obj) (j : Nat) : Nat := o.u (o.segDirOff + 8 * j) 4
def Obj.nwords (o : Obj) (h : Nat) : Nat := o.u h 4
def Obj.seg (o : Obj) (j : Nat) : Segment :=
  let h := o.segOff j
  { off := h, nent := o.u (h + 4) 2, selPos := o.u (h + 6) 2, next0 := o.u (h + 8) 4, next1 := o.u (h + 12) 4,
    words := (List.range (o.nwords h)).map fun i => BitVec.ofNat 16 (o.u (h + 64 + 2 * i) 2) }
def Obj.ring (o : Obj) (k : Nat) : Vector W16 8 := Vector.ofFn fun i => BitVec.ofNat 16 (o.u (o.rotOff + 16 * k + 2 * i.val) 2)

/-- The object as the package holds it. -/
def Obj.code (o : Obj) (idx : Nat) : CodeObj :=
  { idx := idx, priv := o.priv, fwCore := o.fwCore, gmin := o.gmin, gmax := o.gmax, lw := o.lw, lh := o.lh,
    entries := (List.range o.nEntry).map fun i =>
      { first := fieldAt (o.u (o.entOff + 8 * i) 8) 0 8, argb := o.u (o.entOff + 8 * i + 2) 2 },
    t0 := o.table o.t0Off o.t0n, t1 := o.table o.t1Off o.t1n,
    rst := (List.range o.nRst).map fun i => (o.u (o.rstOff + 8 * i) 4, o.u (o.rstOff + 8 * i + 4) 4),
    dicts := (List.range o.nDict).map o.dict, dictOffs := (List.range o.nDict).map fun i => o.u (o.dictOff + 8 * i) 4,
    rmap := (List.range (4 * o.gmax)).map fun i => o.u (o.rmapOff + i) 1,
    segs := (List.range o.nSeg).map o.seg, rings := (List.range o.nRot).map o.ring,
    tiles := (List.range o.nTile).map fun i => tileDeclOf (o.u (o.tileOff + 16 * i) 16), scheds := o.slice o.schedOff o.schedLen }

/-! ### Checks of the code stream (R206, R207) -/

/-- A scan of code words: idle count, a stamp pending, entries so far, dictionary indices used. `ok` fails at a bad word. -/
structure Scan where
  gap : Nat
  stamp : Bool
  n : Nat
  dict : List Nat
  lits : List Bool
  stamps : Bool
  ended : Bool
  ok : Bool
deriving DecidableEq, Repr

def scanWords : Nat → List W16 → Scan → Scan
  | 0, _, x => x
  | _, [], x => x
  | k + 1, w :: l, x =>
    let v := w.toNat
    if x.ended || !x.ok then { x with ok := false }
    else if v < 0x1000 then
      scanWords k l { x with gap := 0, stamp := false, n := x.n + 1, dict := v :: x.dict, lits := false :: x.lits }
    else if v = 0xFFFF then
      scanWords k (l.drop 24) { x with gap := 0, stamp := false, n := x.n + 1, lits := true :: x.lits, ok := decide (24 ≤ l.length) }
    else if x.stamp then { x with ok := false }
    else if v / 0x1000 = 0xC then
      let g := x.gap + v % 0x1000 + 1
      scanWords k l { x with gap := g, ok := decide (g ≤ 65536) }
    else if v / 0x1000 = 0xD then scanWords k l { x with stamp := true, stamps := true, gap := x.gap }
    else if v = 0xE000 ∨ v / 16 = 0xE01 ∨ v / 16 = 0xE03 then scanWords k l { x with ended := true }
    else { x with ok := false }
def Segment.scan (g : Segment) : Scan :=
  scanWords g.words.length g.words { gap := 0, stamp := false, n := 0, dict := [], lits := [], stamps := false, ended := false, ok := true }

/-! ### Load checks (R203, R182) -/

def allZero (l : List Byte) : Bool := l.all (· == 0)
def Obj.in? (o : Obj) (off n : Nat) : Bool := off % 64 == 0 && decide (off + n ≤ o.length)

/-- Header fields with their ranges. A field outside the range that its row states refuses the load at offset 0, which R203 does not list (log 101). -/
def Obj.headerOk (o : Obj) (chothes : Bool) : Bool :=
  let n := o.length
  decide (256 ≤ n) && n == o.size && o.u 0 4 == 0x4F435359 && o.u 4 2 == 1 && decide (o.u 6 2 < 4) && o.u 19 1 == 0 && o.u 36 4 == 0
    && allZero (o.slice 84 108) && decide (1 ≤ o.gmin) && decide (o.gmin ≤ o.gmax) && decide (o.gmax ≤ 64)
    && decide (1 ≤ o.lw) && decide (o.lw ≤ 4) && decide (1 ≤ o.lh) && decide (o.lh ≤ 4) && decide (o.nEntry ≤ 64)
    && decide (1 ≤ o.nSeg) && decide (o.nSeg ≤ 2 ^ 32 - 2) && decide (o.nTile ≤ 4096) && decide (o.nRot ≤ 64)
    && (!o.priv || chothes) && o.slice 192 64 == sha512 (o.slice 256 (n - 256))

/-- The structures with offset and length. -/
def Obj.structs (o : Obj) : List (Nat × Nat) :=
  [(o.entOff, 8 * o.nEntry), (o.t0Off, 32 * o.t0n), (o.t1Off, 32 * o.t1n), (o.rstOff, 8 * o.nRst), (o.segDirOff, 8 * o.nSeg),
   (o.dictOff, 8 * o.nDict), (o.rmapOff, 4 * o.gmax), (o.tileOff, 16 * o.nTile), (o.rotOff, 16 * o.nRot), (o.schedOff, o.schedLen)]
def Obj.dictStructs (o : Obj) : List (Nat × Nat) :=
  (List.range o.nDict).map fun i => (o.u (o.dictOff + 8 * i) 4, 48 * o.u (o.dictOff + 8 * i + 4) 2)
def Obj.segStructs (o : Obj) : List (Nat × Nat) :=
  (List.range o.nSeg).map fun j => (o.segOff j, 64 + (2 * o.nwords (o.segOff j) + 63) / 64 * 64)

/-- A successor field against the tables (R180, R182). -/
def succOk (f : BitVec 10) (same other : Nat) : Bool :=
  if f.getLsbD 9 then f.setWidth 9 == (0 : BitVec 9) else decide ((f.setWidth 8 : BitVec 8).toNat < if f.getLsbD 8 then other else same)
/-- R182 on one descriptor of 256 bits, with the segment numbers of the ranks that it names (R181). -/
def CodeObj.descOk (c : CodeObj) (raw same other : Nat) : Bool :=
  let d := descOf raw
  let seg := fun (n : Nat) => n == noSeg || decide (n < c.segs.length)
  d.budget != 0 && bits raw 145 0 == 0 && d.mode != 3 && succOk d.succ1 same other && succOk d.succ0 same other
    && decide (d.segtab.toNat + 4 * c.gmax ≤ c.rst.length)
    && (List.range (4 * c.gmax)).all fun q => let x := nth c.rst (d.segtab.toNat + q) (noSeg, noSeg); seg x.1 && seg x.2
/-- Segments that may follow a segment: NEXT1 only where its end word selects (R206). -/
def Segment.nexts (g : Segment) : List Nat :=
  ((if (g.words.getLast?.bind endSelOf).isSome then [g.next0, g.next1] else [g.next0])).filter (· != noSeg)
/-- Segments reachable from those of `l` through the successor fields. -/
def reach (segs : List Segment) : Nat → List Nat → List Nat
  | 0, l => l
  | n + 1, l => reach segs n (l ++ l.flatMap fun j => match segs[j]? with | some g => g.nexts | none => [] : List Nat).eraseDups
/-- A ring-table entry (10 R241). -/
def ringOk (v : Vector W16 8) : Bool :=
  let l := v.toList
  l.all (fun d => (if d.getLsbD 15 then bits d.toNat 13 10 == 0 && decide ((d.toNat / 32) % 32 + d.toNat % 32 + 1 ≤ 32) else d == 0))
    && (List.range 8).all fun i => (List.range i).all fun j =>
      let (a, b) := (nth l i 0, nth l j 0)
      let lo := fun (d : W16) => (d.toNat / 32) % 32
      let hi := fun (d : W16) => (d.toNat / 32) % 32 + d.toNat % 32
      !a.getLsbD 15 || !b.getLsbD 15 || a.getLsbD 14 != b.getLsbD 14 || decide (hi a < lo b) || decide (hi b < lo a)
/-- Capacity of the declarations (R58). -/
def declsFit (l : List TileDecl) : Bool :=
  let c := ((l.filter (·.ent.lvl)).map (·.ent.rows)).sum
  (List.range 4).all fun q => decide (c + ((l.filter fun d => !d.ent.lvl && d.ent.owner.toNat == q).map (·.ent.rows)).sum ≤ 1024)
/-- R43 on a declaration, its reserved bits and unused extents (R42). -/
def declOk (raw : Nat) : Bool :=
  let d := tileDeclOf raw
  bits raw 31 23 == 0 && bits raw 127 96 == 0 && d.ent.formatOk && (!d.ent.lvl || d.ent.owner == 0)
    && (decide (1 ≤ d.ent.dims.toNat) || d.ent.e1 == 0) && (decide (2 ≤ d.ent.dims.toNat) || d.ent.e2 == 0)
    && (decide (3 ≤ d.ent.dims.toNat) || d.ent.e3 == 0)

/-- A segment's header, body, padding, stream and entries (R205-R207, R223). -/
def Obj.segOk (o : Obj) (c : CodeObj) (j : Nat) : Bool :=
  let h := o.segOff j
  let nw := o.nwords h
  let g := o.seg j
  let pad := (2 * nw + 63) / 64 * 64 - 2 * nw
  let x := g.scan
  let nextOk := fun (n : Nat) => n == noSeg || decide (n < o.nSeg)
  let used := (c.rmap.eraseDups).map fun d => (d, nth c.dicts d [])
  let lits := x.lits.reverse
  o.u (h + 16) 4 == 0 && allZero (o.slice (h + 24) 40) && decide (2 ≤ nw) && decide (nw ≤ 131040) && decide (1 ≤ g.nent) && decide (g.nent ≤ 1024)
    && decide (g.selPos < g.nent) && nextOk g.next0 && nextOk g.next1 && allZero (o.slice (h + 64 + 2 * nw) pad)
    && o.u (h + 20) 4 == (crc32c (o.slice (h + 64) (2 * nw))).toNat && x.ok && x.ended && x.n == g.nent
    && used.all (fun d => x.dict.all fun k => decide (k < d.2.length))
    && used.all fun d =>
      let y := expandWords d.2 [] [] 0 g.words.length g.words { ents := [], gap := 0, from_ := 0, stamp := none, c := 0, sel := none }
      let half : Half :=
        { seg := j, entries := y.ents.reverse, gEnd := y.gap, selPos := g.selPos, next0 := g.next0, next1 := g.next1, endSel := y.sel, done := 0 }
      (List.range g.nent).all fun e => nth lits e true || half.entryOk o.nRot e
/-- The F slot of a bundle holds an operation; a NOP may have a guard (09 R215). What does not decode is an illegal entry and no operation (R223). -/
def usesF (w : W384) : Bool := match decodeSlotOp w .f with | .ok o => o.op != .nop | .error _ => false
/-- Segments of the slack chains of a descriptor that hold a stamp or an F-slot operation in the bundles of the rank's own dictionary (R182). -/
def CodeObj.slackBad (c : CodeObj) (d : Desc) : List Nat :=
  ((List.range (4 * c.gmax)).flatMap fun q =>
    let s := (nth c.rst (d.segtab.toNat + q) (noSeg, noSeg)).2
    (if s = noSeg then [] else reach c.segs c.segs.length [s]).filter fun j => match c.segs[j]? with
      | none => false
      | some g =>
        let y := expandWords (nth c.dicts (nth c.rmap q 0) []) [] [] 0 g.words.length g.words
          { ents := [], gap := 0, from_ := 0, stamp := none, c := 0, sel := none }
        g.scan.stamps || y.ents.any fun e => usesF e.bundle).eraseDups

/-- The offsets of failing structures. -/
def Obj.failures (o : Obj) (chothes : Bool) : List Nat :=
  if !o.headerOk chothes then [0]
  else
    let out := (o.structs ++ (if o.structs.all fun x => o.in? x.1 x.2 then o.dictStructs ++ o.segStructs else [])).filter fun x => !o.in? x.1 x.2
    if !out.isEmpty then out.map (·.1)
    else
      let c := o.code 0
      let tbl := fun off n same other => (List.range n).filterMap fun i =>
        let at_ := off + 32 * i
        if c.descOk (o.u at_ 32) same other then none else some at_
      (List.range o.nEntry).filterMap (fun i =>
          let r := o.u (o.entOff + 8 * i) 8
          if bits r 15 8 = 0 ∧ bits r 63 32 = 0 ∧ bits r 18 16 = 0 ∧ bits r 7 0 < o.t0n then none else some (o.entOff + 8 * i))
        ++ tbl o.t0Off o.t0n o.t0n o.t1n ++ tbl o.t1Off o.t1n o.t1n o.t0n
        ++ ((List.range o.nSeg).filterMap fun j => if o.u (o.segDirOff + 8 * j + 4) 4 = 0 then none else some (o.segDirOff + 8 * j))
        ++ ((List.range o.nDict).filterMap fun i =>
          let r := o.u (o.dictOff + 8 * i) 8
          if 1 ≤ bits r 47 32 ∧ bits r 47 32 ≤ 4096 ∧ bits r 63 48 = 0 then none else some (o.dictOff + 8 * i))
        ++ (c.dicts.zipIdx.filterMap fun x =>
          if x.1.all fun w => match decodeBundle o.priv o.fwCore w with | .ok _ => true | .error _ => false then none
          else some (nth c.dictOffs x.2 0))
        ++ ((c.rmap.zipIdx).filterMap fun x => if x.1 < o.nDict then none else some (o.rmapOff + x.2))
        ++ ((List.range o.nSeg).filterMap fun j => if o.segOk c j then none else some (o.segOff j))
        ++ (((c.t0 ++ c.t1).flatMap c.slackBad).map o.segOff)
        ++ (if (o.segStructs.map (·.2)).sum ≤ 2 ^ 18 then [] else [o.segDirOff])
        ++ ((List.range o.nTile).filterMap fun i =>
          let d := fun k => tileDeclOf (o.u (o.tileOff + 16 * k) 16)
          if declOk (o.u (o.tileOff + 16 * i) 16) && (List.range i).all fun k => (d k).h != (d i).h then none else some (o.tileOff + 16 * i))
        ++ (if declsFit c.tiles then [] else [o.tileOff])
        ++ (c.rings.zipIdx.filterMap fun x => if ringOk x.1 then none else some (o.rotOff + 16 * x.2))
/-- The byte offset of the first failing structure, none if the object may be loaded. The spec names no order beyond "first": here the least offset among the
failing records; one that is not wholly inside the object hides all others, and an excess of segments or declarations is reported at their directory
(log 101). Breaks of a structure's stated form that R203 does not list refuse the load too: an offset that is no multiple of 64, NEXT0 or NEXT1 that names no
segment, SELPOS at or past NENT, an index of the rank-dictionary map above NDICT, ARGB that is no multiple of 8 (log 101). -/
def Obj.refusal (o : Obj) (chothes : Bool) : Option Nat :=
  match o.failures chothes with
  | [] => none
  | a :: l => some (l.foldl min a)

/-! ### Code handles (R200) -/

/-- TAG of a handle. -/
def handleTag (boot idx gen ctx : Nat) : Nat :=
  ofBytes ((hmac512 (Config.bootKey boot) (toBytes 2 idx ++ toBytes 2 gen ++ toBytes 2 ctx)).take 4)
def codeHandle (boot idx gen ctx : Nat) : W64 := BitVec.ofNat 64 (handleTag boot idx gen ctx * 2 ^ 32 + gen * 2 ^ 16 + idx)
/-- The object that a handle names for a context. -/
def Pkg.codeOf (p : Pkg) (h : W64) (ctx : BitVec 16) : Option CodeObj :=
  let idx := bits h.toNat 15 0
  match p.codes.find? (fun c => c.index == idx && c.live) with
  | none => none
  | some c => if c.owner = ctx ∧ h = codeHandle p.boots idx c.gen.toNat ctx.toNat then some c.obj else none

end Sys2Proof.Machine
end

