-- ==== Sys2Proof/Machine/Save.lean ====
section
/-! DEFINITION. What Chothes, the dispatcher and Lantern read and write in a context's memory (02 R49, R50, 06 R141), and the save area of
a group (16 R389, R390). -/

namespace Sys2Proof.Machine

/-! ### Memory of a context -/

/-- The lines that `n` bytes from `va` touch, as pieces of virtual address and length. -/
def pieces : Nat → Nat → Nat → List (Nat × Nat)
  | 0, _, _ => []
  | _, _, 0 => []
  | k + 1, va, n => let m := min n (64 - va % 64); (va, m) :: pieces k (va + m) (n - m)
def vaPieces (va n : Nat) : List (Nat × Nat) := pieces (n / 64 + 2) va n
/-- Bytes of a context's memory in coherence order; none where a page is not mapped. -/
def State.loadVa (s : State) (c : Ctx) (va n : Nat) : Option (List Byte) :=
  ((vaPieces va n).mapM fun p => (s.ctxPa c p.1).map fun a => s.mem.bytesAt none a p.2).map List.flatten

/-- The errors that such a read, with its walks, meets (17 R404, R405). -/
def State.noteVa (s : State) (c : Ctx) (va n : Nat) : State :=
  s.noteLines ((vaPieces va n).flatMap fun p => s.walkLines c.root p.1 ++ ((s.ctxPa c p.1).map (· / 64)).toList).eraseDups

/-- A write of this line by an agent of the package waits for room in its undo log. -/
def MemSys.lineWaits (m : MemSys) (line : Nat) : Bool :=
  m.wq.any fun e => e.line == line && (match m.acc? e.acc with | some a => a.who == .hub | none => false)
/-- A store within a line by an agent of the package, Chothes, Bureau or the dispatcher, for context `ctx`: every die has it at once (log 90). Where its
undo log is full it is a write event that stalls (07 R158). An update of a line in error leaves it so (17 R406). -/
def State.storeLine (s : State) (ctx : BitVec 16) (pa : Nat) (l : List Byte) (logged : Bool) : State :=
  let line := pa / 64 * 64
  if l = [] then s
  else if logged && (s.undoFull line s.dom.ri || s.mem.lineWaits line) then
    let (id, s) := s.newAccess .hub 4 0 [] true
    ({ s with mem := s.mem.updAcc id fun a => { a with ctx := ctx } } : State).addWrite id (.bytes (cellsAt pa l)) line true (homeOf line)
  else
    let bad := s.mem.merges line (cellsAt pa l)
    let s := if logged then s.logOld line s.dom.ri else s
    let m := if l.length < 64 then s.mem else { s.mem with poison := s.mem.poison.filter (· != line / 64) }
    let s : State := { s with mem := m.putNow pa l }
    if bad then s.soon (.dataUe (ueSite line)) else s
def State.storeVa (s : State) (c : Ctx) (va : Nat) (l : List Byte) (logged : Bool) : State :=
  ((vaPieces va l.length).foldl (fun (x : State × List Byte) p =>
    (match s.ctxPa c p.1 with | some a => x.1.storeLine c.id a (x.2.take p.2) logged | none => x.1, x.2.drop p.2)) (s, l)).1
def State.storePa (s : State) (c : Ctx) (pa : Nat) (l : List Byte) (logged : Bool) : State :=
  ((vaPieces pa l.length).foldl (fun (x : State × List Byte) p => (x.1.storeLine c.id p.1 (x.2.take p.2) logged, x.2.drop p.2)) (s, l)).1
/-- No write of an agent of the package for the context waits for room. -/
def State.stored (s : State) (c : BitVec 16) : Bool :=
  s.mem.wq.all fun e => match s.mem.acc? e.acc with | some a => a.who != .hub || a.ctx != c | none => true

/-! ### The save area (R389) -/

def w8 (n : Nat) : List Byte := toBytes 8 n
def lanesBytes (v : Lanes) : List Byte := v.toList.flatMap fun w => toBytes 4 w.toNat
/-- Size of a group's save area. -/
def saveSize (g : Nat) : Nat := 0x10000 + 0x50000 * (4 * g) + 0x1010000 * g

/-- The header. -/
def Gang.saveHeader (g : Gang) : List (Nat × List Byte) :=
  let d := match g.next with | some (t, i) => if g.kind = 2 then (g.active, g.desc) else (t, i) | none => (g.active, g.desc)
  let tbl := fun (l : List Desc) => (l ++ List.replicate (256 - l.length) (descOf 0)).flatMap fun x => toBytes 32 x.bits
  [(0x00, w8 g.gidx.toNat), (0x08, w8 g.dispNum.toNat), (0x10, w8 (d.2.toNat + d.1.toNat * 2 ^ 8 + g.kind * 2 ^ 16)),
   (0x18, w8 g.sfc.toNat), (0x20, w8 (g.wd % 2 ^ 34)), (0x28, w8 (g.giveWay.toNat + (if g.run = .evicted then 2 else 0))),
   (0x40, (List.range 4).flatMap fun i => match g.scheds.find? (·.1 == i) with
     | some (_, c) => w8 (c.ctr % 2 ^ 32 * 2 ^ 32 + c.nxt) | none => w8 0),
   (0x1000, tbl g.t0), (0x3000, tbl g.t1)]
def rangeBytes (l : List Range) : List Byte :=
  (List.range 16).flatMap fun i => match l[i]? with
    | some r => w8 (r.word % 2 ^ 32 + r.count % 2 ^ 12 * 2 ^ 32 + r.tile.toNat * 2 ^ 52) ++ w8 1
    | none => w8 0 ++ w8 0
/-- The rank record of a core. -/
def Core.saveRecord (c : Core) : List (Nat × List Byte) :=
  let loopW := fun (j w : Nat) => w8 (c.loopWord j w).toNat
  let sel := match c.sel, c.idle with | some _, h :: _ => h.seg + 2 ^ 32 | some _, [] => noSeg + 2 ^ 32 | none, _ => 0
  let live := fun i => nth c.mxu.live.toList i false
  [(0x00, w8 (c.seg % 2 ^ 32 + c.ent * 2 ^ 32)),
   (0x08, w8 (match c.xfer with
     | some (t, d) => t + 2 ^ 11 + c.rotAt.isSome.toNat * 2 ^ 12 + d % 2 ^ 32 * 2 ^ 32 | none => 0)),
   (0x10, w8 (match c.rotAt with | some r => r.toNat | none => 0)), (0x18, w8 sel), (0x20, w8 c.rot.toNat), (0x28, w8 c.loops.length),
   (0x30, w8 c.aflags.toNat), (0x38, w8 (c.p ||| 1).toNat), (0x40, w8 c.cmds), (0x48, w8 (c.mxu.status.toNat % 256)),
   (0x80, (List.range 6).flatMap fun j => loopW j 0 ++ loopW j 1), (0x200, c.c.toList.flatMap fun x => w8 x.toNat),
   (0x280, c.a.toList.flatMap fun x => w8 x.toNat), (0x380, c.mp.toList.flatMap fun x => w8 x.toNat),
   (0x3C0, c.xp.toList.flatMap fun x => w8 x.toNat), (0x440, (c.v0.m.toList ++ c.v1.m.toList).flatMap fun x => w8 x.toNat),
   (0x4C0, (c.v0.b.toList ++ c.v1.b.toList).flatMap fun x => toBytes 4 x.toNat), (0x500, c.fb.toList.flatMap fun x => w8 x.toNat),
   (0x600, c.ports.toList.flatMap fun p => p.stage.toList.flatMap fun x => w8 x.toNat),
   (0x800, c.ports.toList.flatMap fun p => p.active.toList.flatMap fun x => w8 x.toNat),
   (0xA00, c.ports.toList.zipIdx.flatMap fun x => w8 (x.1.armed.toNat * 2 ^ 63 + (if 8 ≤ x.2 then 2 ^ 62 else 0) + x.1.pos % 2 ^ 32)),
   (0xC00, rangeBytes c.openR ++ rangeBytes c.heldR),
   (0xE00, (c.inCnt.ingest.toList ++ c.inCnt.atom.toList ++ [c.inCnt.waita]).flatMap fun x => toBytes 4 x.toNat),
   (0x1000, (List.range 64).flatMap fun i => match c.cq[i]? with | some r => w8 r.value.toNat ++ w8 r.status.toNat | none => w8 0 ++ w8 0),
   (0x2000, c.v0.r.toList.flatMap lanesBytes), (0x4000, c.v1.r.toList.flatMap lanesBytes),
   (0x6000, (c.v0.e.toList ++ c.v1.e.toList).flatMap lanesBytes),
   (0x8000, (c.ports.toList.take 8).flatMap fun p => (List.range 7).flatMap fun i =>
     match p.buf.find? (·.1 == p.pos + i) with | some (_, v, _) => lanesBytes v | none => List.replicate 256 0)]
  ++ (List.range 4).filterMap fun i =>
    if live i then some (0x10000 + 0x10000 * i, (nth c.mxu.acc.toList i (Vector.replicate 128 (Vector.replicate 128 0))).toList.flatMap fun r =>
      r.toList.flatMap fun w => toBytes 4 w.toNat)
    else none
/-- Writes a gang's state to its save area as writes of the open interval; its tiles only at eviction. -/
def State.writeSave (s : State) (b : GangBox) : State :=
  match s.ctxOf b.gang.ctx with
  | none => s
  | some c =>
    let put := fun (s : State) (x : Nat × List Byte) => s.storeVa c (b.gang.saveArea + x.1) x.2 true
    let s := b.gang.saveHeader.foldl put s
    let s := (b.core :: b.cores).foldl (fun s k => k.saveRecord.foldl (fun s x => put s (0x10000 + 0x50000 * rankOf k.id + x.1, x.2)) s) s
    if b.gang.run = .evicted then
      (b.clu :: b.clus).foldl (fun s k => k.saveArea.foldl (fun s x =>
        put s (0x10000 + 0x50000 * (4 * b.gang.g) + 0x1010000 * k.k + x.1, x.2)) s) s
    else s
def State.saveFocus (s : State) : State := s.writeSave s.box

/-! ### Restoring (R390, 13 R321) -/

/-- The MXU as a restored core finds it. -/
def Mxu.restored (m : Mxu) : Mxu :=
  let keep := fun i => nth m.live.toList i false
  let zero : Acc := Vector.replicate 128 (Vector.replicate 128 0)
  { Mxu.reset with acc := Vector.ofFn fun i => if keep i.val then m.acc[i] else zero, live := m.live,
                   typ := Vector.ofFn fun i => keep i.val && m.typ[i], nextId := m.nextId }
/-- A loop-buffer half expanded again as it stood. -/
def Half.reread (h : Half) : Half := { h with entries := h.entries.map fun e => { e with poisoned := false } }
/-- A core restored from its save area, its code memories loaded anew (09 R204). -/
def Core.restored (c : Core) : Core :=
  { c with mxu := c.mxu.restored, hold := false, wait := .none, sbw := none, codeBad := [], codeHit := [], cur := c.cur.reread, idle := c.idle.map Half.reread }
/-- Every core of the gang in focus. -/
def State.mapCores (s : State) (f : Core → Core) : State := { s with core := f s.core, cores := s.cores.map f }
def State.mapClus (s : State) (f : Cluster → Cluster) : State := { s with clu := f s.clu, clus := s.clus.map f }

/-- What a snapshot slot keeps of a cluster (03 R68, 07 R155): its table, and the contents of RETAIN tiles. -/
def Cluster.snapshot (c : Cluster) : Cluster :=
  { c with tiles := c.tiles.map fun x => (x.1, if x.2.ent.retain then x.2 else { x.2 with data := [], poison := [] }),
           freed := [], charges := [], lxs := [], tlb := [] }

end Sys2Proof.Machine
end

