-- ==== Sys2Proof/Machine/Sched.lean ====
section
/-! DEFINITION. Cluster sets, arbitration, the lives of groups and launches (16 R382-R390, 08 R175-R190). -/

namespace Sys2Proof.Machine

/-! ### Dispatch order (R176) -/

def evenBits (d : Nat) : Nat := (List.range 32).foldl (fun a i => a + d / 4 ^ i % 2 * 2 ^ i) 0
/-- The Hilbert point of `d`: fuel, s, t, u, y. -/
def hilbert : Nat → Nat → Nat → Nat → Nat → Nat × Nat
  | 0, _, _, u, y => (u, y)
  | k + 1, sd, t, u, y =>
    let ru := t / 2 % 2
    let ry := (t ^^^ ru) % 2
    let (u, y) := if ry = 0 then
        (let (u, y) := if ru = 1 then (sd - 1 - u, sd - 1 - y) else (u, y)
         (y, u))
      else (u, y)
    hilbert k (2 * sd) (t / 4) (u + sd * ru) (y + sd * ry)
/-- The point number `p`, counting points inside w × h, of the curve `f` from `d` on; the fuel is the number of points left. -/
def nthInside (f : Nat → Nat × Nat) (w h : Nat) : Nat → Nat → Nat → Nat × Nat
  | 0, _, _ => (0, 0)
  | k + 1, d, p =>
    let (u, y) := f d
    if u < w ∧ y < h then (if p = 0 then (u, y) else nthInside f w h k (d + 1) (p - 1)) else nthInside f w h k (d + 1) p
def stripPoint (w h ord p : Nat) : Nat × Nat :=
  let k := Nat.log2 (2 * max w h - 1)
  match ord with
  | 0 => (p % w, p / w)
  | 1 => (p / h, p % h)
  | 2 => nthInside (fun d => (evenBits d, evenBits (d / 2))) w h (4 ^ k) 0 p
  | _ => nthInside (fun d => hilbert k 1 d 0 0) w h (4 ^ k) 0 p
/-- The group index of dispatch number `i`. -/
def groupIndex (x y ord n i : Nat) : Nat × Nat × Nat :=
  let w := if n = 15 then x else 2 ^ n
  let z := i / (x * y)
  let r := i % (x * y)
  let base := r / (w * y) * w
  let (u, v) := stripPoint (min w (x - base)) y ord (r - base * y)
  (base + u, v, z)

/-! ### Boxes -/

def State.boxOf (s : State) (g : Nat) : Option GangBox := s.allBoxes.find? (·.gang.gid == g)
def State.onBox (s : State) (g : Nat) (f : GangBox → GangBox) : State :=
  if s.gang.gid = g then s.setBox (f s.box) else { s with gangs := updateAll (fun b => b.gang.gid == g) f s.gangs }
def State.onGang (s : State) (g : Nat) (f : Gang → Gang) : State := s.onBox g fun b => { b with gang := f b.gang }
/-- Takes a gang that has ended or been undone out of the machine. -/
def State.dropGang (s : State) (g : Nat) : State :=
  let t := if s.gang.gid = g then s.focusGang 4 else s
  { t with gangs := t.gangs.filter (·.gang.gid != g) }
def GangBox.allCores (b : GangBox) : List Core := b.core :: b.cores
/-- The gang is in a phase and not in its slack window (08 R186). -/
def GangBox.inPhase (b : GangBox) : Bool := b.gang.run == .phase && b.allCores.all (·.run != .arrived)
/-- A gang of the context is in a phase. -/
def State.ctxInPhase (s : State) (c : BitVec 16) : Bool := s.allBoxes.any fun b => b.gang.ctx == c && b.inPhase
/-- Nothing timed of a core is in flight. -/
def Core.calm (c : Core) : Bool := c.pend.isEmpty && c.mxu.q.isEmpty && c.mxu.drains.isEmpty && c.mxu.gathers.isEmpty
/-- No transfer of the gang still moves vectors at its frame cycle. -/
def Gang.drained (g : Gang) : Bool := g.xfers.all fun x => x.done || decide (x.last < g.sfc.toNat + g.drain)
/-- Every timed action, matrix routine and transfer of the gang is over, and its commands are complete: its state may be recorded (10 R240, 16 R388). -/
def GangBox.quiet (b : GangBox) : Bool := b.allCores.all Core.calm && b.gang.cmdsOut.isEmpty && b.gang.drained
/-- The gang executes on its clusters: in a phase, at a boundary on the way to the next, or started. -/
def GangRun.executing : GangRun → Bool
  | .start _ | .phase | .boundary => true
  | _ => false

/-! ### Reports (16 R381, R383) -/

/-- A launch report: queue, status and TAG. The spec gives no layout of its 64 bytes (log 30). -/
def State.report (s : State) (q : BitVec 6) (ctx : BitVec 16) (tag : W32) (status : Nat) : State :=
  let notify := (rget s.disp.queues q).notify
  if notify then
    s.emit 0 (.frame 0x82 0 0 ctx (tag.setWidth 64) (toBytes 64 (q.toNat + status * 2 ^ 8 + tag.toNat * 2 ^ 32)))
  else s

/-! ### Arbitration (R385, R386) -/

def State.setQueue (s : State) (q : BitVec 6) (f : Queue → Queue) : State :=
  { s with disp := { s.disp with queues := rset s.disp.queues q (f (rget s.disp.queues q)) } }
def State.setOf (s : State) (g : Nat) : Option CluSet := s.disp.sets.find? (·.groups.contains g)
/-- The set is of these clusters, in whatever logical order (R384). -/
def CluSet.is (c : CluSet) (l : List Nat) : Bool := c.clusters.all l.contains && l.all c.clusters.contains
def State.updSet (s : State) (cs : CluSet) (f : CluSet → CluSet) : State :=
  { s with disp := { s.disp with sets := updateAll (fun x => x.clusters == cs.clusters) f s.disp.sets } }
/-- The stated run of a group. -/
def Gang.statedRun (g : Gang) : Nat :=
  let ylen := fun (p : Bool × BitVec 8) => match (g.table p.1)[p.2.toNat]? with | some d => d.ylen.toNat | none => 0
  if g.kind = 2 then (let y := ylen (g.active, g.desc); if y = 0 then 0 else y - g.sfc.toNat)
  else match g.next with | some p => ylen p | none => 0
/-- The best group of a list: greatest EffRank, least LastRun, lowest queue number, lowest dispatch number. -/
def bestGroup (rank : Gang → Nat) : List Gang → Option Gang
  | [] => none
  | g :: l =>
    match bestGroup rank l with
    | none => some g
    | some h =>
      let key := fun (x : Gang) => [7 - rank x, x.lastRun, x.queue.toNat, x.dispNum.toNat]
      if key h < key g then some h else some g
/-- Arbitrate(set, now): the pick, and the state with the counters advanced; without a candidate nothing changes. -/
def State.pick (s : State) (cs : CluSet) (now : Nat) : Option Gang × State :=
  let gs := (cs.groups.filterMap s.boxOf).map (·.gang)
  let c := gs.filter fun g => g.run == .waiting || g.run == .fresh || g.run == .boundary
  let slice := s.pkg.cfg.slice
  let fits := fun (g : Gang) (r : Nat) => g.statedRun ≠ 0 && decide (g.statedRun ≤ r) && !g.giveWay
  let f := c.filter fun g => fits g (slice - (now - cs.sliceStart))
  if c.isEmpty then (none, s) else
  let (f, s) := if f.isEmpty then
      let s := s.updSet cs fun x => { x with sliceStart := now }
      let f := c.filter fun g => fits g slice
      let f := if f.isEmpty then c.filter (!·.giveWay) else f
      (if f.isEmpty then c else f, s)
    else (f, s)
  match bestGroup (fun g => (rget s.disp.queues g.queue).effRank) f with
  | none => (none, s)
  | some p =>
    let qs := ((c.map (·.queue)).eraseDups).filter (· != p.queue)
    let s := qs.foldl (fun s q => s.setQueue q fun x =>
      if x.passed + 1 = 8 then { x with effRank := min 7 (x.effRank + 1), passed := 0 } else { x with passed := x.passed + 1 }) s
    let s := s.setQueue p.queue fun x => { x with effRank := x.rank.toNat, passed := 0 }
    let s := c.foldl (fun s g => s.onGang g.gid fun x => { x with giveWay := false }) s
    (some p, s.onGang p.gid fun x => { x with lastRun := now })

/-- A gang that begins or goes on while a seal is under way hears of its request (07 R155); its bound counts from the first time (R156). An
`UNSEALED` domain's launch record may give no bound. -/
def Gang.hearSeal (g : Gang) (s : State) : Gang :=
  if s.dom.st == .barrier ∧ !g.sealed then
    { g with req := { g.req with sealReq := true },
             sealLeft := match g.sealLeft with | some n => some n | none => if g.seald = 0 then none else some g.seald.toNat }
  else g

/-- What is still to come at a core cycle moves with the core's cycle count: writes, and in a slack chain the next bundle and a pending transfer. -/
def Core.shift (c : Core) (d : Nat) : Core :=
  let c := { c with pend := c.pend.map fun p => { p with time := p.time + d } }
  if c.run == .slack then { c with due := c.due + d, last := c.last + d, xfer := c.xfer.map fun x => (x.1, x.2 + d) } else c
/-- The set's next group is chosen. One that goes on starts its successor; another begins once the set's cores are ready, and the one that was
executing is saved, its tiles staying in place (R386). -/
def State.arbitrate (s : State) (cs : CluSet) (now : Nat) : State :=
  let (p, s) := s.pick cs now
  match p with
  | none => s.updSet cs fun x => { x with exec := none }
  | some g =>
    let s := s.updSet cs fun x => { x with exec := some g.gid }
    let s := (cs.groups.filter (· != g.gid)).foldl (fun s k =>
      s.onGang k fun x => if x.run = .boundary then { x with run := .waiting, saved := false } else x) s
    if g.run = .boundary then s.onGang g.gid fun x => (({ x with run := .start (x.now + x.roff) } : Gang).hearSeal s) else s
/-- No group of the set executes, and none has been picked that has still to begin. -/
def State.setIdle (s : State) (cs : CluSet) : Bool :=
  cs.groups.all fun g => match s.boxOf g with
    | some b => !b.gang.run.executing && !(cs.exec == some g && (b.gang.run == .fresh || b.gang.run == .waiting))
    | none => true
/-- Arbitration of a set that has become idle. -/
def State.arbitrateIdle (s : State) (clusters : List Nat) (now : Nat) : State :=
  match s.disp.sets.find? (·.is clusters) with
  | some cs => if s.setIdle cs && !cs.hold then s.arbitrate cs now else s
  | none => s
/-- Every group of the set but `g` has had its state recorded, so that the set's cores are ready. -/
def State.setReady (s : State) (cs : CluSet) (g : Nat) : Bool :=
  cs.groups.all fun k => k == g || (match s.boxOf k with
    | some b => b.gang.run != .waiting && b.gang.run != .stopped && b.gang.run != .faulted || b.gang.saved
    | none => true)

/-! ### Leaving a set (R384, R388, R390) -/

def State.leaveSet (s : State) (g : Nat) : State :=
  match s.setOf g with
  | none => s
  | some cs =>
    let s := s.updSet cs fun x => { x with groups := x.groups.filter (· != g), exec := if x.exec = some g then none else x.exec }
    { s with disp := { s.disp with sets := s.disp.sets.filter (fun x => !x.groups.isEmpty) } }
def State.freeSave (s : State) (g : Nat) : State := { s with disp := { s.disp with saves := s.disp.saves.filter (·.1 != g) } }
/-- Gangs that INVALIDATE waits for are no longer in that phase (02 R34). -/
def State.leftPhase (s : State) (g : Nat) : State :=
  { s with pkg := { s.pkg with jobs := s.pkg.jobs.map fun j => match j.job with
      | .invalidate c v l w => { j with job := .invalidate c v l (w.filter (· != g)) }
      | _ => j } }

def State.updLaunch (s : State) (id : Nat) (f : Launch → Launch) : State :=
  { s with disp := { s.disp with launches := updateAll (fun l => l.id == id) f s.disp.launches } }
def State.launchOf (s : State) (id : Nat) : Option Launch := s.disp.launches.find? (·.id == id)
def Launch.total (l : Launch) : Nat := l.x * l.y * l.z

/-- A scratchpad bank or a code line of the group's clusters that has been read 16 times may have met 16 corrected errors: a free choice (17 R408; log 70).
It is reported, and its cluster retired. -/
def State.wornOut (s : State) (b : GangBox) : State :=
  (b.clu :: b.clus).foldl (fun s c =>
    let banks := s.pkg.bankReads.filter fun x => x.1 / 1024 == c.phys && decide (16 ≤ x.2)
    let lines := s.pkg.codeReads.filter fun x => x.1.2 == c.phys && decide (16 ≤ x.2)
    let sites : List (Nat × Nat) := banks.map (fun _ => (3, 0)) ++ lines.map fun x => (4, x.1.1)
    sites.foldl (fun s x =>
      let (hit, s) := s.choose
      if hit then
        let r := { s.errorRec 14 x.1 x.2 3 with core := BitVec.ofNat 8 (4 * c.phys) }
        let s := ((s.logFault (c.phys / 16) r).notifyFault r).fwEvent (c.phys / 16) 4
        { s with pkg := { s.pkg with bankReads := s.pkg.bankReads.filter (·.1 / 1024 != c.phys), codeReads := s.pkg.codeReads.filter (·.1.2 != c.phys),
                                     retired := { s.pkg.retired with clusters := (c.phys :: s.pkg.retired.clusters).eraseDups } } }
      else s) s) s
/-- A group ends (R190): its clusters return, its save area is free, its launch counts it. `cut` says that it did not end normally. -/
def State.endGroup (s : State) (g : Nat) (cut : Bool) : State :=
  match s.boxOf g with
  | none => s
  | some b =>
    let cs := (s.setOf g).map (·.clusters)
    let now := b.gang.now
    let id := b.gang.launch
    let s := (((s.wornOut b).leaveSet g).freeSave g).leftPhase g
    let s : State := { s with disp := { s.disp with evicted := s.disp.evicted.filter (· != g) } }
    let s := s.dropGang g
    let s := s.updLaunch id fun l => { l with ended := l.ended + 1, cut := l.cut || cut }
    let s := match s.launchOf id with
      | some l => if l.ended = l.total then s.soon (.launchEnd id) else s
      | none => s
    match cs with
    | some c => s.arbitrateIdle c now
    | none => s

/-! ### Boundaries (08 R187-R190) -/

/-- Every timed action of the gang in focus is over. -/
def State.calm (s : State) : Bool := s.allCores.all Core.calm
/-- Tiles of the gang in focus that are copied, all of them or those with RETAIN, hold an uncorrectable error: the copy reads it (03 R62, R63). -/
def State.copyPoison (s : State) (all : Bool) : State :=
  match s.allClus.find? fun c => c.tiles.any fun x => (all || x.2.ent.retain) && !x.2.poison.isEmpty with
  | some c => s.soon (.dataUe (.scratch c.phys))
  | none => s
/-- Seal arrival (07 R155): the input counts restart, RETAIN tiles are copied, the core state goes to the save area. In an `UNSEALED` domain, whose barrier
resets the clocks (06 R129), the spec does not say whether the counts restart: DESIGN CHOICE, they do (log 109). -/
def State.sealStop (s : State) : State :=
  let s := if s.dom.sealed then s.copyPoison false else s
  let s := s.mapCores fun c => { c with inCnt := { ingest := Vector.replicate 16 0, atom := Vector.replicate 16 0, waita := 0 } }
  let s := s.setGang { s.gang with run := .boundary, sealed := true, sealLeft := none, kind := 1, req := { s.gang.req with sealReq := false } }
  if s.dom.sealed then s.saveFocus else s

/-- A group stands before the first evicted group of its launch with a higher dispatch number, or right after the last of its launch, else at the
front (R388). -/
def State.insertEvicted (s : State) (g : Nat) (l : List Nat) : List Nat :=
  let key := fun (h : Nat) => (s.boxOf h).map fun b => (b.gang.launch, b.gang.dispNum.toNat)
  let mine := fun (h : Nat) => (key h).map (·.1) == (key g).map (·.1)
  let before := fun (h : Nat) => mine h && decide (((key h).map (·.2)).getD 0 < ((key g).map (·.2)).getD 0)
  let n := ((l.zipIdx.filter fun x => before x.1).map (·.2 + 1)).foldl max 0
  l.take n ++ g :: l.drop n
/-- It waits for a place. -/
def State.waitEvicted (s : State) (g : Nat) : State := { s with disp := { s.disp with evicted := s.insertEvicted g s.disp.evicted } }
/-- Waits of a gang's `SB.WAIT`s are abandoned: their accesses end (16 R390, 17 R398). -/
def State.abandonWaits (s : State) (b : GangBox) : State :=
  b.allCores.foldl (fun s c => match c.sbw with
    | some w => { s with mem := s.mem.updAcc w.acc fun x => { x with done := true } }
    | none => s) s
/-- A pre-emption lands (16 R388) when every command of the gang is complete: saved, evicted or left resident with its give-way bit; the bundle of a held
`SB.WAIT` makes another access when the group goes on (R390). A frequency change,
or the begin of full service, that was latched with it comes before the arbitration (08 R189). -/
def State.landPreempt (s : State) : State :=
  let g := s.gang
  let evict := g.latched.evict
  let hold := g.latched.freq || g.latched.svc
  let s := s.setGang { g with run := if evict then .evicted else .waiting, giveWay := !evict || g.giveWay, latched := Requests.none, saved := true,
                              req := { g.req with soft := false, hard := false, evict := false } }
  let s := (s.abandonWaits s.box).mapCores fun c => { c with sbw := none }
  let s := if evict then s.saveFocus.copyPoison true else s.saveFocus
  match s.setOf g.gid with
  | none => s
  | some cs =>
    let s := s.updSet cs fun x => { x with exec := none, hold := hold }
    let s := if evict then
        (s.leaveSet g.gid).waitEvicted g.gid
      else s
    s.arbitrateIdle cs.clusters g.now
/-- Sets that waited for a frequency change or for full service are arbitrated. -/
def State.freeSets (s : State) : State :=
  let held := s.disp.sets.filter (·.hold)
  held.foldl (fun s cs => (s.updSet cs fun x => { x with hold := false }).arbitrateIdle cs.clusters s.pkg.cycle) s

/-- The gang in focus, stopped, serves what it has latched, in the order of 08 R189; then its successor starts. Its state is recorded only once what
it has issued is over. A hard pre-emption lands before the seal, for which the group then counts as arrived (07 R157). -/
def State.serve (s : State) : State :=
  let g := s.gang
  let l := g.latched
  let ends := g.kind ≠ 2 ∧ g.next.isNone
  let lands := s.calm && g.cmdsOut.isEmpty
  if l.hard ∧ ¬ends then (if lands then s.landPreempt else s.setGang { g with run := .boundary })
  else if l.sealReq then (if s.calm then s.sealStop else s.setGang { g with run := .boundary })
  else if ends then s.endGroup g.gid false
  else if l.soft then (if lands then s.landPreempt else s.setGang { g with run := .boundary })
  else if l.freq || l.svc then s.setGang { g with run := .boundary }
  else if g.yieldAt then
    match s.setOf g.gid with
    | some cs => (s.setGang { g with yieldAt := false, run := .boundary }).arbitrate cs g.now
    | none => s.setGang { g with yieldAt := false, run := .start (g.now + g.roff) }
  else s.setGang { g with run := .start (g.now + g.roff) }
/-- Serves a gang that waits at its boundary, its requests changed by `f`. -/
def State.serveGang (s : State) (gid : Nat) (f : Requests → Requests) : State :=
  match s.boxOf gid with
  | none => s
  | some b =>
    if b.gang.run = .boundary ∧ !b.gang.sealed then
      let t := s.focusGang gid
      (t.setGang { t.gang with latched := f t.gang.latched }).serve.focusGang s.gang.gid
    else s

/-- The gang predicate (R187): with PIDX 0 always true. -/
def State.gangPredicate (s : State) (d : Desc) : Bool :=
  d.pidx == 0 ||
    (if d.comb then s.allCores.any fun c => c.bit.getD false else s.allCores.all fun c => c.bit.getD true)
/-- Every store of the gang's cores has been applied and delivered everywhere: the next phase begins only then (06 R132). -/
def State.storesDone (s : State) : Bool :=
  let mine := fun (i : Nat) => match s.mem.acc? i with
    | some a => (match a.who with | .core c => gangOf c == s.gang.gid | .hub => false)
    | none => false
  s.mem.wq.all (fun e => !mine e.acc) && s.mem.wlog.all fun e => !mine e.acc || [0, 1, 2, 3, 4].all e.delivered.contains
/-- A link interface has received what was to arrive, and its matching has been made (R186, 15 R364). -/
def Gang.linkDone (g : Gang) (x : FXfer) : Bool :=
  x.done && x.outs.all fun (m, t) => match g.linkEnd x.rank m with | some e => decide (t + e.lat < g.sfc.toNat) | none => true
/-- Every party of the phase has arrived (R186). -/
def State.allArrived (s : State) : Bool :=
  s.allCores.all (·.run == .arrived) && s.gang.cmdsOut.isEmpty && s.gang.xfers.all s.gang.linkDone && s.storesDone
    && s.gang.ctlsOut.all fun k => !s.pkg.postponed.contains k && !s.pkg.refresh.contains k
/-- A check flit that disagreed after its retry is raised here (15 R366); none can in one gang. The successor is resolved (R187), a
`HALT` forces END (11 R257); the table it names is active from now on; and the requests that stand now are latched (R189). -/
def State.resolve (s : State) : State :=
  let g := s.gang
  match g.cur with
  | none => s.setGang { g with run := .boundary }
  | some d =>
    let f := if s.gangPredicate d then d.succ1 else d.succ0
    let next := if g.haltReq then none else g.succOf f
    let lat : Requests :=
      { sealReq := g.req.sealReq && d.sealOk, soft := g.req.soft && d.yieldP, hard := g.req.hard, evict := g.req.evict,
        freq := s.pkg.clk.pending.isSome && d.yieldP, svc := s.pkg.clk.svcReq && !s.pkg.clk.full }
    let (active, desc) := next.getD (g.active, g.desc)
    let s := s.setGang { g with active := active, desc := desc, next := next, latched := lat, yieldAt := d.yieldP, kind := 1, run := .boundary,
                                haltReq := false }
    (s.leftPhase g.gid).serve

def execLastArrival (s : State) : Res := event (s.gang.run == .phase && s.allArrived) s State.resolve

/-! ### Phase start (R184, R188; 15 R367, 05 R115) -/

/-- The chain a core begins with: its loop-buffer half, or none. Where the half of its segment was replaced with its table after the sign-off (R183), the
spec does not say when the new one is expanded: here it stands expanded at SFC 0 (log 94). -/
def State.startCore (s : State) : State :=
  let g := s.gang
  let seg := g.firstSeg s.rank (g.active, g.desc)
  let timed := match g.cur with | some d => (g.chains d s.rank).1 != noSeg | none => false
  let half := match s.core.idle.find? (·.seg == seg) with
    | some h => some h
    | none => if seg = noSeg then none else g.code.expand s.core.codeBad s.rank seg 0
  let s := if half.isSome && !s.core.idle.any (·.seg == seg) then s.readCode seg else s
  let c := s.core
  let c := { c with cmds := 0, openR := [], heldR := [], bit := none, loops := [], xfer := none, rotAt := none, jump := none, sel := none, hold := false,
                    wait := .none, issued := (seg, 0), offTimed := false }
  match half with
  | some h => s.setCore { c with run := if timed then .timed else .waitSlack, cur := h, idle := [], seg := h.seg, ent := 0, due := h.gap 0 }
  | none => s.setCore { c with run := .waitSlack, cur := Half.empty, idle := [], seg := noSeg, ent := 0 }

/-- By SFC 0 some controllers have postponed a refresh batch: a free choice for each (03 R66, log 7). -/
def State.postpone (s : State) : State :=
  let new := (List.range 12).filter fun k => s.pkg.postponed.contains k || Config.freeBool (s.draw + k)
  { s with pkg := { s.pkg with postponed := new }, draw := s.draw + 12 }
/-- No gang whose phase touches the stack is out of its slack window (03 R66). -/
def State.stackIdle (s : State) (k : Nat) : Bool := s.allBoxes.all fun b => !b.inPhase || !b.gang.ctlsOut.contains k
/-- A controller issues the batch it has postponed: in slack windows, or when postponement reaches its limit, a free choice (log 7). Until it is done the
controller has not arrived. -/
def execRefreshBatchIssue (stack : Nat) (s : State) : Res :=
  event (s.pkg.postponed.contains stack && !s.pkg.refresh.contains stack) s fun s =>
    let issue := fun (s : State) => { s with pkg := { s.pkg with postponed := s.pkg.postponed.filter (· != stack), refresh := stack :: s.pkg.refresh } }
    if s.stackIdle stack then issue s else (let (limit, s) := s.choose; if limit then issue s else s)
def execRefreshBatchDone (stack : Nat) (s : State) : Res :=
  .next { s with pkg := { s.pkg with refresh := s.pkg.refresh.filter (· != stack) } }
/-- SFC 0 of the next phase on every core; a group saved inside a phase goes on where it stood. -/
def State.beginPhase (s : State) : State :=
  let g := s.gang
  let s : State := { s with dom := { s.dom with atSeal := false } }
  if g.kind = 2 then s.setGang { g with run := .phase, kind := 1, yieldAt := false, drain := 0 }
  else
    match g.next with
    | none => s
    | some (t, i) =>
      let s := s.postpone
      let g := { g with active := t, desc := i }
      let elastic := match g.cur with | some d => (if d.mode = 0 then g.launchElastic else d.mode == 2) | none => g.launchElastic
      let s := s.setGang { g with run := .phase, kind := 1, next := none, sfc := 0, wd := 0, elastic := elastic, cmdsOut := [], ctlsOut := [], xfers := [],
                                  occ := [], drops := 0, drain := 0, yieldAt := false }
      s.forRanks State.startCore
def execPhaseStart (s : State) : Res :=
  match s.gang.run with
  | .start t => event (decide (t ≤ s.gang.now)) s State.beginPhase
  | _ => .next s

/-! ### Within a phase: chains, arrivals, watchdog (R184-R186, R194, R197; 09 R210) -/

/-- The candidate segment is expanded into the idle half. -/
def execSegmentExpansionDone (s : State) : Res :=
  event (s.core.idle.any fun h => decide (h.done ≤ s.gang.now)) s fun s =>
    s.setCore { s.core with idle := s.core.idle.map fun h => if h.done ≤ s.gang.now then { h with entries := h.entries.map fun e => { e with ready := min e.ready s.gang.now } } else h }
def execCoreArrival (s : State) : Res :=
  event (s.core.run == .signed && s.core.far.isNone && decide (s.core.due ≤ s.gang.now)) s fun s => s.setCore { s.core with run := .arrived }

/-- Every F-slot write into the cluster in focus has performed. -/
def State.cluReceived (s : State) : Bool :=
  s.gang.xfers.all fun x => x.rank / 4 != s.clu.k || (match x.kind with | .recv _ => x.done | _ => true)
/-- The slack segment of the core in focus in the current phase. -/
def State.slackSeg (s : State) : Nat := match s.gang.cur with | some d => (s.gang.chains d s.rank).2 | none => noSeg
/-- The slack chain begins once every core of the cluster has ended its timed chain and the cluster's receives are written. -/
def execSlackChainStart (s : State) : Res :=
  event (s.core.run == .waitSlack && s.slackSeg != noSeg && s.cluCores.all (fun c => c.run != .timed && c.far.isNone) && s.cluReceived) s fun s =>
    let held := if s.core.cur.seg = s.slackSeg ∧ s.core.ent = 0 ∧ s.core.cur.entries ≠ [] then some s.core.cur else s.core.idle.find? (·.seg == s.slackSeg)
    let half := match held with
      | some h => some h
      | none => s.gang.code.expand s.core.codeBad s.rank s.slackSeg s.gang.now
    match half with
    | none => s
    | some h =>
      let s := if held.isNone then s.readCode s.slackSeg else s
      s.setCore { s.core with run := .slack, cur := h, idle := [], seg := h.seg, ent := 0, due := s.gang.now + h.gap 0, sel := none, loops := [],
                               xfer := none, rotAt := none, jump := none }

/-- The core in focus reaches the end of its last chain without `SIGN` (R184): it abstains. A busy MXU or LXE takes the fault of 13 R320 or 14 R348,
whose record names the last bundle that the core issued. -/
def State.abstain (s : State) : State :=
  match s.signCause with
  | none => s.signOff none
  | some c =>
    let k := s.core
    let who := k.id
    let s := (s.setCore { k with seg := k.issued.1, ent := k.issued.2 }).trap .c 1 c 0 0
    s.at_ who fun s => s.setCore { s.core with seg := k.seg, ent := k.ent }
def execImplicitSignOff (s : State) : Res :=
  event (s.core.run == .waitSlack && s.core.far.isNone && s.slackSeg == noSeg) s State.abstain

/-- What the phase still waits for (17 R402). -/
def State.hangCause (s : State) : Nat :=
  if s.allCores.any (·.run != .arrived) then 1
  else if !s.gang.cmdsOut.isEmpty || !s.storesDone then 2
  else if !s.gang.xfers.all s.gang.linkDone then 3 else 4
def execPhaseHang (s : State) : Res :=
  match s.gang.cur with
  | none => .next s
  | some d =>
    event (s.gang.run == .phase && decide (4 * d.budget.toNat ≤ s.gang.wd)) s fun s =>
      let r := s.faultRec { cls := 10, cause := s.hangCause, slots := 0, addr := s.gang.wd % 2 ^ 34, aux := d.budget.toNat } 1
      ((s.logFault s.die r).notifyFault r |>.fwEvent s.die 1).faultCtx s.gang.ctx

end Sys2Proof.Machine
end

