-- ==== Sys2Proof/Machine/Firmware.lean ====
section
/-! DEFINITION. Firmware cores, their registers and Sconce port, PHY training, clock, power and service (18 R416, R421-R435). The
events of a die take place on the die of the core in focus. -/

namespace Sys2Proof.Machine

/-! ### The capability list (R416) -/

/-- A record: ID, VERSION 1 (DESIGN CHOICE, log 31), its length, its fields. -/
def capRecord (id : Nat) (l : List Nat) : List Byte :=
  w8 (id + 2 ^ 16 + (8 + 8 * l.length) * 2 ^ 32) ++ l.flatMap w8
def Queue.owned (q : Queue) (c : BitVec 16) : Bool := q.v && q.ctx == c
/-- Routines of a package that are installed: the library's, and those with a micro-op in core 0's store. -/
def Pkg.routineMask (p : Pkg) : Nat :=
  (List.range 256).foldl (fun a r => if r < 6 || p.uc.any (fun x => x.1 / 32 == r) then a + 2 ^ r else a) 0
def State.capabilities (s : State) (c : Ctx) : List Byte :=
  let g := s.pkg.cfg
  let mask := fun (l : List Nat) => (l.eraseDups.map (2 ^ ·)).sum
  let m := s.pkg.routineMask
  capRecord 1 [0x3836372D394C59, Config.chothesVersion.toNat, g.pkg.toNat, s.pkg.clk.full.toNat]
    ++ capRecord 2 [mask s.pkg.inService, g.undoGib, g.tierGib, g.sharedGib]
    ++ capRecord 3 [mask (((s.disp.queues.toList.zipIdx).filter fun q => q.1.owned c.id).map (·.2)), g.slice]
    ++ capRecord 4 [match s.pkg.clk.step with | some k => k.toNat | none => 0xFF, g.steps.toNat]
    ++ capRecord 5 ((List.range 4).map fun i => m / 2 ^ (64 * i) % 2 ^ 64)
    ++ capRecord 6 (s.pkg.peers.length :: s.pkg.peers.flatMap fun p => [p.id.toNat, p.port.toNat])
    ++ capRecord 7 (c.sync.toList.map fun x => x.1 + x.2 * 2 ^ 32)
    ++ w8 0
/-- Chothes writes the list at mailbox offset 0. -/
def State.writeCaps (s : State) (c : Ctx) : State := s.storeVa c c.mbox (s.capabilities c) true

/-! ### Firmware registers (R421, R422) -/

/-- FWTIMER counts from the TIME at which it is written. -/
def execFwTimer (us : W64) (s : State) : Res := .next (s.setFwd s.die { s.fwd s.die with timer := us, timerAt := (s.fwd s.die).time })
/-- TIME is at least `t` on every die. -/
def State.timeFrom (s : State) (t : W64) : State := { s with fw := s.fw.map fun f => if f.time < t then { f with time := t } else f }
def execFwTimerExpiry (s : State) : Res :=
  let f := s.fwd s.die
  event (f.timer != 0) s fun s =>
    let s := s.timeFrom (f.timerAt + 1000 * f.timer)
    (s.setFwd s.die { s.fwd s.die with timer := 0 }).fwEvent s.die 3
/-- A halted firmware core goes on once FWEVT has a bit (R421). -/
def execFwHaltWake (s : State) : Res :=
  event (s.isFw && s.core.run == .halted && (s.fwd s.die).evt != 0) s fun s => s.setCore { s.core with run := .slack }
/-- Chothes names its next routine to the idle firmware core of die `d` (21 R445): a sealed object with PRIV and FWCORE. Rank 0 of the entry phase starts, its
timed chain as slack code; registers stay as the routine before it left them. Its code memories are loaded anew. -/
def execFwRoutine (d : Nat) (image : List Byte) (entry : Nat) (s : State) : Res :=
  let o : Obj := image.toArray
  let code := o.code 0
  let t := s.focusGang d
  match code.entries[entry]? with
  | none => .next s
  | some e =>
    let g := { t.gang with code := code, t0 := code.t0, t1 := code.t1, active := false, desc := e.first }
    match g.cur.bind fun x => code.expand [] 0 (g.chains x 0).1 t.gang.now with
    | none => .next s
    | some h =>
      event (decide (d < 5) && t.gang.gid == d && t.isFw && t.core.run == .idle && (o.refusal true).isNone && code.priv && code.fwCore) s fun s =>
        let c := t.core
        let c := { c with run := .slack, cur := h, idle := [], seg := h.seg, ent := 0, due := t.gang.now + h.gap 0, issued := (h.seg, 0), loops := [],
                          xfer := none, rotAt := none, jump := none, sel := none, cmds := 0, codeBad := [], codeHit := [] }
        (((t.setGang g).setCore c).readCode h.seg).focusGang s.gang.gid

/-! ### Clock (R430, R431) -/

def State.setClk (s : State) (k : ClkSt) : State := { s with pkg := { s.pkg with clk := k } }
/-- The configuration record permits step `k`. -/
def CfgRec.permits (c : CfgRec) (k : Nat) : Bool := c.steps.getLsbD k
/-- A request for a step in full service; one that is pending is replaced. -/
def State.requestStep (s : State) (k : BitVec 2) : State :=
  if s.pkg.clk.full then s.setClk { s.pkg.clk with pending := some k } else s
/-- A gang that is stopped or idle. -/
def Gang.stopped (g : Gang) : Bool := match g.run with | .phase | .start _ => false | _ => true
def State.allStopped (s : State) : Bool := s.allBoxes.all (·.gang.stopped)
/-- Every gang that waits at its boundary is served with its requests changed by `f`; those of one that is sealed change without its going on (08 R189). -/
def State.serveAll (s : State) (f : Requests → Requests) : State :=
  let s := s.mapGangs fun g => if g.sealed then { g with latched := f g.latched } else g
  (s.allBoxes.map (·.gang.gid)).foldl (fun s g => s.serveGang g f) s

/-- CLKCTL: a step that the record does not permit is not requested (log 32). -/
def execClkctlReq (s : State) : Res :=
  let k : BitVec 2 := (s.fwd s.die).clkctl.setWidth 2
  .next (if s.pkg.cfg.permits k.toNat then s.requestStep k else s)
/-- A pending change is cancelled and the waiting gangs resume. -/
def State.cancelChange (s : State) : State :=
  match s.pkg.clk.pending with
  | none => s
  | some _ => ((s.setClk { s.pkg.clk with pending := none }).serveAll fun r => { r with freq := false }).freeSets
def execClkctlCancel (s : State) : Res := .next s.cancelChange
def execFrequencyChange (s : State) : Res :=
  match s.pkg.clk.pending with
  | none => .next s
  | some k => event s.allStopped s fun s =>
      ((s.setClk { s.pkg.clk with step := some k, pending := none }).serveAll fun r => { r with freq := false }).freeSets
def execFrequencyChangeTimeout (s : State) : Res := .next s.cancelChange

/-! ### Full service (R427-R429) -/

/-- SVC: FULL is set by writing 1, and nothing clears it; in full service it asks for nothing. -/
def execSvcFull (s : State) : Res := event (s.die == 4) s fun s => s.setClk { s.pkg.clk with svcReq := true }
/-- The physical lanes of the logical lanes 0 to 15 in the map of a pseudo-channel: at reset, their own numbers (R425). -/
def FwDie.mapOf (f : FwDie) (c p : Nat) : List Nat :=
  (List.range 16).map fun i => match f.maps.find? (·.1 == (c, p, i)) with | some x => x.2.toNat | none => i
/-- The write and read delays of the logical lanes. -/
def FwDie.delaysOf (f : FwDie) (c p : Nat) : List (BitVec 7 × BitVec 7) :=
  (List.range 16).map fun i => let l := f.lane (c, p, i); (l.wdly, l.rdly)
/-- The delays with which a physical lane has passed a test. -/
def FwDie.passes (f : FwDie) (c p x : Nat) : List (BitVec 7 × BitVec 7) :=
  (f.tests.filter fun t => t.1.ctl == c && t.1.pch == p && !t.2.getLsbD x).filterMap fun t =>
    (t.1.map.idxOf? x).map fun i => nth t.1.delays i (0, 0)
/-- The centre of the passing delays of a sweep (21 R446). -/
def centre (l : List Nat) : Nat := (l.foldl min 127 + l.foldl max 0) / 2
/-- What R426 asks of a pseudo-channel: a map with at most two lanes on the spares, delays at the centres of the windows found, and a PRBS15 test of at least
2^20 bursts with them that found no error. -/
def FwDie.channelOk (f : FwDie) (c p : Nat) : Bool :=
  let map := f.mapOf c p
  let ds := f.delaysOf c p
  decide (((List.range 16).filter fun i => nth map i 0 != i).length ≤ 2)
    && (List.range 16).all (fun i =>
      let l := f.passes c p (nth map i 0)
      let d := nth ds i (0, 0)
      !l.isEmpty && d.1.toNat == centre (l.map (·.1.toNat)) && d.2.toNat == centre (l.map (·.2.toNat)))
    && f.tests.any fun t => t.1.ctl == c && t.1.pch == p && t.1.map == map && t.1.delays == ds && bits t.1.patctl.toNat 11 8 == 0
      && decide (2 ^ 20 ≤ bits t.1.patctl.toNat 47 16 + 1) && t.2 == 0
/-- The stacks in service from the begin of full service: stack 0, which was trained before, and those of which every pseudo-channel meets R426. -/
def State.trained (s : State) : List Nat :=
  (List.range 12).filter fun k => s.pkg.inService.contains k || (List.range 160).all ((s.fwd (k / 3)).channelOk (k % 3))
/-- A stack that training leaves out of service is reported (R426). -/
def State.reportStack (s : State) (k : Nat) : State :=
  let r := s.errorRec 14 1 (k * 2 ^ 36) 3
  ((s.logFault (k / 3) r).notifyFault r).fwEvent (k / 3) 1
def execFullServiceTransition (s : State) : Res :=
  event (s.pkg.clk.svcReq && !s.pkg.clk.full && s.allStopped && !s.barrier) s fun s =>
    let s : State := { s with pkg := { s.pkg with inService := s.trained,
                                                  clk := { s.pkg.clk with step := some 0, full := true } } }
    let s := ((List.range 12).filter fun k => !s.pkg.inService.contains k).foldl State.reportStack s
    let s := s.pkg.ctxs.foldl (fun s c => (s.writeCaps c).emit 0 (.frame 0x82 0 0 c.id 0 (List.replicate 64 0))) s
    (s.serveAll fun r => { r with svc := false }).freeSets

/-! ### Power (R435) -/

/-- The permitted step next below `k` in frequency, and next above. -/
def CfgRec.lower (c : CfgRec) (k : Nat) : Option Nat := (List.range 4).find? fun j => decide (k < j) && c.permits j
def CfgRec.higher (c : CfgRec) (k : Nat) : Option Nat := ((List.range k).reverse).find? fun j => c.permits j
def execPowerSample (mw : Nat) (s : State) : Res :=
  let k := s.pkg.clk
  let l := (mw :: k.power).take 10
  let sum := l.sum
  let full := l.length == 10
  let limit := s.pkg.cfg.powerLimit * 1000
  let under := if full && decide (10 * sum < 9 * (10 * limit)) then k.underMs + 1 else 0
  let s := s.setClk { k with power := l, underMs := if 100 ≤ under then 0 else under }
  let ask := fun (t : Option Nat) => match t with | some j => s.requestStep (BitVec.ofNat 2 j) | none => s
  match k.step with
  | none => .next s
  | some st =>
    if full && decide (10 * limit < sum) then .next (ask (s.pkg.cfg.lower st.toNat))
    else if 100 ≤ under then .next (ask (s.pkg.cfg.higher st.toNat))
    else .next s
/-- Step 3, 0.6 GHz; every die's FWEVT[5] is set (log 33). -/
def execThermalLimit (s : State) : Res :=
  .next ((s.requestStep 3).fwEvent 0 5 |>.fwEvent 1 5 |>.fwEvent 2 5 |>.fwEvent 3 5 |>.fwEvent 4 5)
def execThermalCutoff (s : State) : Res := .next (s.setClk { s.pkg.clk with off := true })

/-! ### The firmware Sconce port (R423) -/

/-- The port is waiting for its reply. -/
def FwDie.pend (f : FwDie) : Bool := f.stat.getLsbD 62
/-- The target of FWSTGT: any sync variable that exists, of any context or of Chothes. -/
def State.fwTarget (s : State) (x : W64) (exact : Bool) : Option Target :=
  let die := bits x.toNat 26 24
  let idx := bits x.toNat 23 0
  let top := if exact then idx + 3 else idx
  if bits x.toNat 63 27 = 0 ∧ die < 5 ∧ (!exact || idx % 4 = 0) ∧ s.syncExists die top then
    some { loc := s.syncLoc die idx, idx := none, home := die, shared := false }
  else none
def State.fwIssue (s : State) (op : BitVec 6) (st : BitVec 4) : State :=
  let d := s.die
  let f := s.fwd d
  s.at_ (.fw d) fun s =>
    let s := s.setFwd d { f with stat := BitVec.ofNat 64 (2 ^ 62), rnum := f.rnum + 1 }
    match s.fwTarget f.stgt (exactOp op) with
    | none =>
      let (id, s) := s.issueAccess st true
      let r : Rep :=
        { id := id, acc := id, who := .fw d, gid := d, idx := none, home := failHome d f.stgt, stream := st, fb := none, write := true,
          reply := { value := 0, op := op, fcode := 12, rnum := f.rnum }, fault := none }
      { s with mem := { s.mem with reps := s.mem.reps ++ [r] } }
    | some t =>
      let (id, s) := s.issueAccess st true
      let o : SOp :=
        { id := id, acc := id, who := .fw d, gid := d, op := op, loc := t.loc, idx := none, home := t.home, v := f.sv, n := f.sn, np := false,
          fb := none, rnum := f.rnum, inSeq := 0, shared := false, ri := s.dom.ri, ready := none }
      { s with mem := ({ s.mem with ops := s.mem.ops ++ [o] } : MemSys).updAcc id fun a => { a with rmw := returnsValue op } }
/-- A write of FWSCMD that names `op`, while no operation is in flight; one on a logged variable waits for the end of a seal's barrier (07 R155). -/
def fws (op : BitVec 6) (st : BitVec 4) (s : State) : Res := event (!(s.fwd s.die).pend && !s.fwHeld op) s fun s => s.fwIssue op st

def execFwsAtLd (st : BitVec 4) (s : State) : Res := fws opAtLd st s
def execFwsAtSt (st : BitVec 4) (s : State) : Res := fws 0x09 st s
def execFwsAtAdd (st : BitVec 4) (s : State) : Res := fws 0x0A st s
def execFwsAtAnd (st : BitVec 4) (s : State) : Res := fws 0x0B st s
def execFwsAtOr (st : BitVec 4) (s : State) : Res := fws 0x0C st s
def execFwsAtXor (st : BitVec 4) (s : State) : Res := fws 0x0D st s
def execFwsAtMin (st : BitVec 4) (s : State) : Res := fws 0x0E st s
def execFwsAtMax (st : BitVec 4) (s : State) : Res := fws 0x0F st s
def execFwsAtMinu (st : BitVec 4) (s : State) : Res := fws 0x10 st s
def execFwsAtMaxu (st : BitVec 4) (s : State) : Res := fws 0x11 st s
def execFwsAtSwap (st : BitVec 4) (s : State) : Res := fws 0x12 st s
def execFwsAtCas (st : BitVec 4) (s : State) : Res := fws 0x13 st s
def execFwsAtXadd (st : BitVec 4) (s : State) : Res := fws opXadd st s
def execFwsAtXrd (st : BitVec 4) (s : State) : Res := fws opXrd st s
def execFwsAtXclr (st : BitVec 4) (s : State) : Res := fws opXclr st s
def execFwsSbArrv (st : BitVec 4) (s : State) : Res := fws opArrv st s

/-! ### The lease (R424)

The lease word is hub index 0. TIME is what the die's core last read of the clock, and "within 2 ms" is counted from when the reply of the renewal arrives
(log 110). -/

def leaseAt : W64 := BitVec.ofNat 64 (4 * 2 ^ 24)
/-- The word by which die `d` takes over from the word `w`. -/
def leaseTaken (w : W64) (d : Nat) : W64 := BitVec.ofNat 64 ((bits w.toNat 63 32 + 1) % 2 ^ 32 * 2 ^ 32 + 2 ^ 8 + d)
/-- Nanoseconds since the core saw the word change. -/
def FwDie.age (f : FwDie) : Nat := (f.time - f.seenAt).toNat
/-- Some core leads and may commit a placement, a region change or the completion of a command: less than 2 ms have passed since its last renewal. -/
def State.led (s : State) : Bool := (List.range 5).any fun d => (s.fwd d).leads && decide ((s.fwd d).age ≤ 2000000)
/-- The die of the leading core. -/
def State.leader (s : State) : Nat := ((List.range 5).find? fun d => (s.fwd d).leads).getD 4
/-- The core of die `d` issues an operation on the lease word through its port. -/
def State.leaseAsk (s : State) (d : Nat) (k : LeaseOp) (op : BitVec 6) (v n : W64) : State :=
  (s.setFwd d { s.fwd d with stgt := leaseAt, sv := v, sn := n, lease := some k }).at_ (.fw d) fun s => s.fwIssue op 0
/-- The turn of die `d`'s core at the lease, between routines: a leader renews after 2 ms; a follower that has seen no change for 10 ms, and 100 µs more for each
die below its own, tries to take over; else it loads the word. -/
def execLeaseTurn (d : Nat) (s : State) : Res :=
  let busy := s.allBoxes.any fun b => b.gang.fw.isSome && b.gang.gid == d && b.core.run == .slack
  event (decide (d < 5) && !busy && !(s.fwd d).pend) s fun s =>
    let s := s.advanceTime
    let f := s.fwd d
    if f.leads then (if 2000000 ≤ f.age then s.leaseAsk d .renew 0x13 f.word (f.word + BitVec.ofNat 64 (2 ^ 32)) else s)
    else if 10000000 + 100000 * d ≤ f.age then s.leaseAsk d .takeOver 0x13 f.word (leaseTaken f.word d)
    else s.leaseAsk d .load opAtLd 0 0
/-- What the reply tells the core: the word, whether it changed, whether the core leads. -/
def FwDie.learn (f : FwDie) (v : W64) : FwDie :=
  let saw := fun (w : W64) (b : Bool) => { f with word := w, seenAt := f.time, leads := b, lease := none }
  match f.lease with
  | none => f
  | some .load => if v = f.word then { f with lease := none } else saw v false
  | some .renew | some .takeOver => if v = f.sv then saw f.sn true else saw v false

/-- The reply of the port's operation arrives (R423). -/
def execFwsReply (s : State) : Res :=
  let d := s.die
  match s.mem.reps.find? (fun r => r.who == .fw d && r.write) with
  | none => .next s
  | some r =>
    let s : State := { s with mem := ({ s.mem with reps := s.mem.reps.filter (·.id != r.id) } : MemSys).settle }
    .next (s.setFwd d { (s.fwd d).learn r.reply.value with reply := r.reply.value, stat := r.reply.status })

/-! ### PHY and training (R425) -/

/-- The selected controller's stack is in service. -/
def State.phyBusy (s : State) (ctl : Nat) : Bool := s.pkg.inService.contains (3 * s.die + ctl)
/-- PHYLANE: PHYS, WDLY and RDLY of the selected lane; a spare's PHYS is fixed. -/
def State.phylaneWrite (s : State) (v : W64) : State :=
  let f := s.fwd s.die
  match physelOf f.physel with
  | none => s
  | some k =>
    if s.phyBusy k.1 then s
    else
      let l : Lane :=
        { phys := if k.2.2 < 16 then fieldAt v.toNat 16 5 else (f.lane k).phys, wdly := fieldAt v.toNat 8 7, rdly := fieldAt v.toNat 0 7 }
      s.setFwd s.die { f with lanes := (k, l) :: f.lanes.filter (·.1 != k) }
/-- A lane map that APPLY refuses. -/
def FwDie.mapBad (f : FwDie) (c p : Nat) : Bool :=
  let l := (List.range 16).map fun i => (f.lane (c, p, i)).phys.toNat
  l.any (fun x => decide (18 ≤ x)) || l.eraseDups.length != 16
    || (List.range 16).any (fun i => let x := nth l i 0; decide (x < 16) && x != i && nth l x 0 == x)
    || (match f.test with | some t => t.ctl == c && t.pch == p | none => false)
def execPatctlApply (s : State) : Res :=
  let f := s.fwd s.die
  match physChan f.physel with
  | none => .next s
  | some (c, p) => event (s.die != 4 && !s.phyBusy c) s fun s =>
      if f.mapBad c p then s.setFwd s.die { f with patres := f.patres ||| BitVec.ofNat 64 (2 ^ 62) }
      else
        let new := (List.range 16).map fun i => ((c, p, i), (f.lane (c, p, i)).phys)
        s.setFwd s.die { f with maps := new ++ f.maps.filter (fun x => x.1.1 != c || x.1.2.1 != p),
                                patres := f.patres &&& ~~~(BitVec.ofNat 64 (2 ^ 62)) }
/-- START clears DONE; the test runs with PATCTL, the delays and the map as they stand. A reserved PAT or DIR starts nothing. -/
def execPatctlStart (s : State) : Res :=
  let f := s.fwd s.die
  match physChan f.physel with
  | none => .next s
  | some (c, p) => event (s.die != 4 && !s.phyBusy c) s fun s =>
      let f := { f with patres := f.patres &&& ~~~(BitVec.ofNat 64 (2 ^ 63)) }
      if 3 < bits f.patctl.toNat 11 8 ∨ 1 < bits f.patctl.toNat 5 4 then s.setFwd s.die f
      else s.setFwd s.die { f with test := some { ctl := c, pch := p, patctl := f.patctl, map := f.mapOf c p, delays := f.delaysOf c p } }
/-- The test ends with what it found: LERR and ERRCNT are properties of the stack (R425), and agree with one another. Only lanes of the map are compared
(21 R446). -/
def execPatternTestDone (lerr : BitVec 18) (errcnt : W32) (s : State) : Res :=
  let f := s.fwd s.die
  match f.test with
  | none => .next s
  | some t => event (decide (errcnt.toNat ≤ bits t.patctl.toNat 47 16 + 1) && ((lerr == 0) == (errcnt == 0))
      && (List.range 18).all fun i => !lerr.getLsbD i || t.map.contains i) s fun s =>
      let bad := ((List.range 18).filter fun i => lerr.getLsbD i).map fun i => (t.ctl, t.pch, i)
      s.setFwd s.die { f with test := none, tests := f.tests ++ [(t, lerr)], fails := bad ++ f.fails.filter (fun x => x.1 != t.ctl || x.2.1 != t.pch),
                              patres := BitVec.ofNat 64 (2 ^ 63 + bits f.patres.toNat 62 62 * 2 ^ 62 + lerr.toNat * 2 ^ 32 + errcnt.toNat) }
/-- PATCTL: the fields are stored; APPLY acts first, then START. -/
def State.patctlWrite (s : State) (v : W64) : State :=
  let f := s.fwd s.die
  let go := match physChan f.physel with | some (c, _) => !s.phyBusy c | none => true
  if s.die = 4 ∨ !go then s
  else
    let keep : Nat := bits v.toNat 47 16 * 2 ^ 16 + bits v.toNat 11 8 * 2 ^ 8 + bits v.toNat 5 4 * 2 ^ 4
    let s := s.setFwd s.die { f with patctl := BitVec.ofNat 64 (keep + (v.toNat % 4 ||| f.patctl.toNat % 4)) }
    let run := fun (b : Bool) (e : State → Res) (s : State) => if b then (match e s with | .next t => t | _ => s) else s
    run (v.getLsbD 0) execPatctlStart (run (v.getLsbD 1) execPatctlApply s)

/-! ### Writes of privileged registers (R422) -/

/-- The next state of an event's meaning. -/
def Res.orElse (s : State) (r : Res) : State := match r with | .next t => t | _ => s
def State.fwsWrite (s : State) (v : W64) : State :=
  let f := s.fwd s.die
  let op : BitVec 6 := v.setWidth 6
  let st : BitVec 4 := fieldAt v.toNat 6 4
  if f.pend then s
  else if bits v.toNat 63 10 ≠ 0 ∨ !((0x08 ≤ op.toNat ∧ op.toNat ≤ 0x16) ∨ op = 0x18) then
    s.setFwd s.die { f with stat := BitVec.ofNat 64 (2 ^ 63 + 8 * 2 ^ 32) }
  else s.fwIssue op st
def State.fwWrite (s : State) (r : BitVec 10) (v : W64) : State :=
  let d := s.die
  let f := s.fwd d
  match r.toNat with
  | 0x201 => s.setFwd d { f with evt := f.evt &&& ~~~v }
  | 0x202 => Res.orElse s (execFwTimer v s)
  | 0x210 =>
    let s := s.setFwd d { f with clkctl := BitVec.ofNat 64 (v.toNat % 4 + ((v.toNat ||| f.clkctl.toNat) &&& 0x300)) }
    let s := if v.getLsbD 8 then Res.orElse s (execClkctlReq s) else s
    if v.getLsbD 9 then Res.orElse s (execClkctlCancel s) else s
  | 0x211 => if v.getLsbD 0 then Res.orElse s (execSvcFull s) else s
  | 0x220 => s.setFwd d { f with stgt := v }
  | 0x221 => s.setFwd d { f with sv := v }
  | 0x222 => s.setFwd d { f with sn := v }
  | 0x223 => s.fwsWrite v
  | 0x240 => if d = 4 then s else s.setFwd d { f with physel := v &&& 0x1FFF03 }
  | 0x241 => if d = 4 then s else s.phylaneWrite v
  | 0x242 => s.patctlWrite v
  | _ => s

end Sys2Proof.Machine
end

