-- ==== Sys2Proof/Machine/Dispatcher.lean ====
section
/-! DEFINITION. The dispatcher (16 R376-R394, 14 R338, R339, 03 R59, R72, 08 R175-R179, R188): records, checks, launches, placement,
start and end, graphs, resume, hard pre-emption, and the pending changes of the leading firmware core (02 R34, R40, 08 R183, 18 R417). -/

namespace Sys2Proof.Machine

/-! ### Records (R377-R379) -/

def LRec.n (r : LRec) : Nat := ofBytes r.bytes
def State.queueOf (s : State) (q : BitVec 6) : Queue := rget s.disp.queues q
/-- A context whose queues dispatch: it stands, has not faulted and is not being torn down. -/
def State.ctxLive (s : State) (c : BitVec 16) : Bool := match s.ctxOf c with | some x => !x.faulted && !x.torn | none => false
/-- Appends a record to a FIFO. -/
def State.pushFifo (s : State) (q : BitVec 6) (r : LRec) : State := s.setQueue q fun x => { x with fifo := x.fifo ++ [r] }
def State.popFifo (s : State) (q : BitVec 6) : State := s.setQueue q fun x => { x with fifo := x.fifo.drop 1 }

/-- The record at HEAD of a queue's host ring enters the FIFO, and HEAD advances, once its undo log has room for it (07 R158). It arrives when it is taken, and a
packet for the same queue that has arrived before it enters first. -/
def execHostRingTake (q : BitVec 6) (s : State) : Res :=
  let u := s.queueOf q
  match s.ctxOf u.ctx with
  | none => .next s
  | some c =>
    let at_ := c.mbox + u.ringOff.toNat
    match s.loadVa c at_ 16 with
    | none => .next s
    | some h =>
      let tail := ofBytes (h.take 8)
      let head := ofBytes (h.drop 8)
      let full := match s.ctxPa c (at_ + 8) with | some a => !s.roomFor [a / 64 * 64] s.dom.ri || s.mem.lineWaits (a / 64 * 64) | none => false
      match s.loadVa c (at_ + 64 + 64 * (head % 2 ^ u.log2n.toNat)) 64 with
      | none => .next s
      | some b => event (!full && u.v && u.ringOff != 0xFFFFFFFF && decide (u.fifo.length < 64) && decide (head < tail) && !s.barrier && s.ctxLive u.ctx
            && s.disp.intake.all fun r => BitVec.ofNat 6 (bits (ofBytes r.bytes) 245 240) != q) s fun s =>
          let s := (s.noteVa c at_ 16).noteVa c (at_ + 64 + 64 * (head % 2 ^ u.log2n.toNat)) 64
          let r : LRec := { bytes := b, queue := q, ctx := u.ctx, from_ := none, preds := [], node := none }
          (s.pushFifo q r).storeVa c (at_ + 8) (toBytes 8 (head + 1)) true

/-- The queue that a packet names (R379). -/
def LRec.target (r : LRec) : BitVec 6 := BitVec.ofNat 6 (bits r.n 245 240)
def LRec.tag (r : LRec) : W32 := BitVec.ofNat 32 (bits r.n 511 480)
/-- The first packet of the intake for a queue enters its FIFO; one whose queue is not in service or is another context's is refused. -/
def execIntakeToFifo (q : BitVec 6) (s : State) : Res :=
  match s.disp.intake.find? (fun r => r.target == q) with
  | none => .next s
  | some r =>
    let u := s.queueOf q
    let rest := s.disp.intake.erase r
    let out : State := { s with disp := { s.disp with intake := rest } }
    if !u.v || u.ctx != r.ctx then .next (out.report q r.ctx r.tag 7)
    else event (decide (u.fifo.length < 64)) s fun _ => out.pushFifo q { r with queue := q }

/-! ### Copy schedules (14 R338, R339; 16 R380) -/

/-- Argument slot `i` of a captured argument block. -/
def argWord (args : List Byte) (i : Nat) : W64 := BitVec.ofNat 64 (ofBytes ((args.drop (8 * i)).take 8))
def u64At (b : List Byte) (i : Nat) : Nat := ofBytes ((b.drop (8 * i)).take 8)
/-- An entry of 128 bytes with its slots resolved; none where it breaks R338. -/
def schedEntOf (args b : List Byte) : Option SchedEnt :=
  let w := u64At b
  let op := bits (w 0) 5 0
  let dmw := bits (w 0) 6 6 == 1
  let fben := bits (w 0) 12 12 == 1
  let ok := bits (w 0) 47 35 == 0 && decide (1 ≤ op) && decide (op ≤ 3) && (op == 3 || bits (w 0) 29 26 == 0) && (fben || bits (w 0) 17 13 == 0)
    && bits (w 4) 63 32 == 0 && (dmw || w 9 == 0) && (List.range 6).all fun i => w (10 + i) == 0
  let rm := XRnd.ofCode (BitVec.ofNat 3 (bits (w 0) 11 9))
  if ok then some
    { stage := bits (w 0) 63 48, ring := if bits (w 0) 34 34 = 1 then argWord args (bits (w 0) 33 30) else 0,
      hA := argWord args (bits (w 0) 25 22), hB := if op = 3 then argWord args (bits (w 0) 29 26) else 0,
      stream := BitVec.ofNat 4 (bits (w 0) 21 18), fb := if fben then some (BitVec.ofNat 5 (bits (w 0) 17 13)) else none, rm := rm,
      sat := bits (w 0) 8 8 == 1, dig := bits (w 0) 7 7 == 1, dmw := dmw, op := BitVec.ofNat 6 op, offA := BitVec.ofNat 64 (w 1),
      endB := BitVec.ofNat 64 (w 2), gsx := BitVec.ofNat 32 (bits (w 3) 31 0), gsy := BitVec.ofNat 32 (bits (w 3) 63 32),
      gsz := BitVec.ofNat 32 (bits (w 4) 31 0), box := Vector.ofFn fun i => BitVec.ofNat 64 (w (5 + i.val)) }
  else none
def nentOf (b : List Byte) : Nat := bits (u64At b 0) 8 0
/-- An image: header and entries. -/
def schedOf (args b : List Byte) : Option Sched :=
  let h := u64At b 0
  let n := nentOf b
  if n = 0 ∨ 256 < n ∨ bits h 15 9 ≠ 0 ∨ bits h 63 24 ≠ 0 ∨ !(allZero ((b.take 64).drop 8)) ∨ b.length ≠ 64 + 128 * n then none
  else
    match (List.range n).mapM fun i => schedEntOf args ((b.drop (64 + 128 * i)).take 128) with
    | none => none
    | some es =>
      if (es.zip (es.drop 1)).all fun p => decide (p.1.stage ≤ p.2.stage) then some { rank := bits h 23 16, ents := es, ctr := 0, nxt := 0 } else none
/-- Image `i` of a code object's images, from byte `l` on. -/
def codeImage : Nat → List Byte → Option (List Byte)
  | i, l =>
    let n := 64 + 128 * nentOf l
    if l.length < 64 ∨ l.length < n then none
    else match i with
      | 0 => some (l.take n)
      | j + 1 => codeImage j (l.drop n)
/-- The schedule that selector `sel` names: none in the option where it names none. -/
def State.schedule (s : State) (c : Ctx) (o : CodeObj) (args : List Byte) (sel : Nat) : Except Unit (Option Sched) :=
  let found := fun (b : Option (List Byte)) => match b.bind (schedOf args) with | some x => Except.ok (some x) | none => .error ()
  if sel < 128 then (if sel = 0 then .ok none else .error ())
  else if sel / 64 % 2 = 0 then found (codeImage (sel % 64) o.scheds)
  else if sel / 16 % 4 ≠ 0 ∨ sel % 16 = 15 then .error ()
  else
    let h := argWord args (sel % 16)
    let off := (argWord args (sel % 16 + 1)).toNat
    found ((s.regionBytes c h off 64).bind fun b => s.regionBytes c h off (64 + 128 * nentOf b))

/-! ### Launch checks (R381) -/

def reservedFields : List (Nat × Nat) :=
  [(447, 444), (415, 411), (383, 368), (335, 331), (319, 315), (303, 299), (287, 283), (271, 267), (255, 246), (239, 238), (127, 116)]
/-- Die and index of a 27-bit sync address lie in the context's range (02 R46). -/
def Ctx.syncOk (c : Ctx) (x : Nat) : Bool :=
  let d := bits x 26 24
  if h : d < 5 then decide ((c.sync[d]).1 ≤ bits x 23 0) && decide (bits x 23 0 ≤ (c.sync[d]).2) else false
def recX (n : Nat) : Nat := bits n 143 128 + 1
def recY (n : Nat) : Nat := bits n 159 144 + 1
def recZ (n : Nat) : Nat := bits n 175 160 + 1
def fieldBad (s : State) (c : Ctx) (n : Nat) : Bool :=
  reservedFields.any (fun f => bits n f.1 f.2 != 0) || decide (bits n 231 224 < 16) || (s.dom.sealed && bits n 223 192 == 0)
    || decide (2 ^ 32 < recX n * recY n * recZ n) || bits n 66 64 != 0
    || (bits n 443 443 == 1 && !c.syncOk (bits n 442 416)) || (bits n 191 191 == 1 && !c.syncOk (bits n 410 384))
/-- Every page that `n` bytes from `va` touch may be read (02 R31). -/
def State.vaReadable (s : State) (c : Ctx) (va n : Nat) : Bool :=
  (vaPieces va n).all fun p => match s.ctxLeaf c p.1 with | some e => s.leafUsable e false | none => false
/-- Rows that the declarations take: of the cluster, and near rows of each rank (03 R58, R59). -/
def CodeObj.fitsRows (o : CodeObj) (crows : Nat) (nrows : List Nat) : Bool :=
  decide (((o.tiles.filter (·.ent.lvl)).map (·.ent.rows)).sum ≤ crows)
    && (List.range 4).all fun q => decide (((o.tiles.filter fun d => !d.ent.lvl && d.ent.owner.toNat == q).map (·.ent.rows)).sum ≤ nth nrows q 0)
def recRows (n : Nat) : Nat × List Nat := (bits n 266 256, [bits n 282 272, bits n 298 288, bits n 314 304, bits n 330 320])

/-- Errors that the reads of a record's arguments and schedules meet (17 R404). -/
def State.noteRecord (s : State) (r : LRec) (c : Ctx) : State :=
  let n := r.n
  match s.pkg.codeOf (BitVec.ofNat 64 (bits n 63 0)) r.ctx with
  | none => s
  | some o =>
    let argb := match o.entries[bits n 237 232]? with | some e => e.argb | none => 0
    let args := (s.loadVa c (bits n 115 64) argb).getD []
    (List.range 4).foldl (fun s k =>
      let sel := bits n (343 + 8 * k) (336 + 8 * k)
      if sel < 192 ∨ sel / 16 % 4 ≠ 0 then s
      else
        let h := argWord args (sel % 16)
        let off := (argWord args (sel % 16 + 1)).toNat
        s.noteRegion c h off (64 + 128 * nentOf ((s.regionBytes c h off 64).getD []))) (s.noteVa c (bits n 115 64) argb)
/-- The first status of R381 that applies, or what the acceptance captures: object, arguments, schedules. -/
def State.checkRecord (s : State) (r : LRec) (c : Ctx) : Except Nat (CodeObj × List Byte × List (Nat × Sched)) :=
  let n := r.n
  match s.pkg.codeOf (BitVec.ofNat 64 (bits n 63 0)) r.ctx with
  | none => .error 1
  | some o =>
    if fieldBad s c n then .error 2
    else
      let argva := bits n 115 64
      match o.entries[bits n 237 232]? with
      | none => .error 3
      | some e =>
        let argb := e.argb
        if !s.vaReadable c argva argb then .error 3
        else
          let g := bits n 181 176 + 1
          let (cr, nr) := recRows n
          if g < o.gmin ∨ o.gmax < g ∨ g % (o.lw * o.lh) ≠ 0 ∨ 4 < g / (o.lw * o.lh) then .error 4
          else if 1024 < cr ∨ nr.any (fun x => decide (1024 < x) || decide (1024 < cr + x)) ∨ !o.fitsRows cr nr then .error 5
          else
            let args := (s.loadVa c argva argb).getD []
            match (List.range 4).mapM fun k => s.schedule c o args (bits n (343 + 8 * k) (336 + 8 * k)) with
            | .error () => .error 6
            | .ok l =>
              let t := s.queueOf r.target
              if !t.v || t.ctx != r.ctx then .error 7
              else if c.torn then .error 8
              else .ok (o, args, (l.zipIdx).filterMap fun x => x.1.map fun y => (x.2, y))

def State.newLaunch (s : State) (q : BitVec 6) (r : LRec) (o : CodeObj) (args : List Byte) (sc : List (Nat × Sched)) : Launch :=
  let n := r.n
  let (cr, nr) := recRows n
  { id := s.disp.nextId, queue := q, ctx := r.ctx, tag := r.tag, code := o, mode := bits n 188 188 == 1, g := bits n 181 176 + 1, x := recX n,
    y := recY n, z := recZ n, ord := BitVec.ofNat 2 (bits n 183 182), swz := BitVec.ofNat 4 (bits n 187 184), entry := bits n 237 232,
    roff := bits n 231 224, seald := BitVec.ofNat 32 (bits n 223 192), rst := bits n 189 189 == 1, bar := bits n 190 190 == 1,
    waitEn := bits n 443 443 == 1, waitVar := bits n 442 416, waitVal := BitVec.ofNat 32 (bits n 479 448), waitOk := bits n 443 443 == 0, gids := [],
    doneEn := bits n 191 191 == 1, doneVar := bits n 410 384, argva := BitVec.ofNat 64 (bits n 115 64), args := args, crows := cr,
    nrows := Vector.ofFn fun i => nth nr i.val 0, scheds := sc, nextDisp := 0, ended := 0, cut := false, preds := r.preds, node := r.node }
def LRec.isGraph (r : LRec) : Bool := bits r.n 63 0 == 0
/-- What the launch waits for has come: WAITVAR, the accesses before it, and room in its queue behind evicted groups (R383, R388, 11 R259). -/
def State.awaited (s : State) (l : Launch) : Bool :=
  l.waitOk && s.ctxLive l.ctx && l.preds.all s.mem.complete
    && s.disp.evicted.all fun g => match s.boxOf g with | some b => b.gang.queue != l.queue | none => true
/-- Every group of these launches of one queue, newest first, has been offered; the last group of one is offered as soon as those before it are placed
(R177, R382). -/
def State.allOffered (s : State) : List Launch → Bool
  | [] => true
  | m :: l => s.allOffered l && (m.nextDisp == m.total || (m.nextDisp + 1 == m.total && s.awaited m && (!m.bar || l.all fun k => k.ended == k.total)))
/-- A record stands at the head of a queue's FIFO once every group of each launch before it has been offered: until then the launch before it is the
head (R376, R382). -/
def State.headFree (s : State) (q : BitVec 6) : Bool := s.allOffered (s.disp.launches.filter (·.queue == q)).reverse
/-- The record at the head of a FIFO is accepted or refused; a faulted context's queues stay as they are (17 R398). -/
def execLaunchCheck (q : BitVec 6) (s : State) : Res :=
  match (s.queueOf q).fifo with
  | [] => .next s
  | r :: _ =>
    match s.ctxOf r.ctx with
    | none => .next (s.popFifo q)
    | some c => event (!c.faulted && !r.isGraph && s.headFree q) s fun s =>
        let res := s.checkRecord r c
        let read := match res with | .error st => decide (6 ≤ st) | .ok _ => true
        let t := (if read then s.noteRecord r c else s).popFifo q
        match res with
        | .error st => t.report q r.ctx r.tag st
        | .ok (o, args, sc) =>
          { t with disp := { t.disp with launches := t.disp.launches ++ [s.newLaunch q r o args sc], nextId := t.disp.nextId + 1 } }

/-- WAITVAR is loaded (R383): its write becomes a predecessor of the launch's accesses. -/
def execWaitvarLoad (launch : Nat) (s : State) : Res :=
  match s.launchOf launch with
  | none => .next s
  | some l =>
    let a := s.syncLoc (bits l.waitVar 26 24) (bits l.waitVar 23 0)
    let v := s.mem.natAt none a 8
    event (l.waitEn && !l.waitOk && s.ctxLive l.ctx && decide (l.waitVal.toNat ≤ v % 2 ^ 32)) s fun s =>
      (s.noteLines [a / 64]).updLaunch launch fun l => { l with waitOk := true, preds := (l.preds ++ (s.mem.writersOf none a 8).map (·.2)).eraseDups }

/-! ### Placement (R384, 03 R59, R72) -/

/-- Physical channels of a pair of dies that have not failed. -/
def State.workingChans (s : State) (p : Nat) : List Nat := (List.range 6).filter fun c => !s.pkg.retired.chans.contains (p, c)
/-- The physical dies of a placement's logical dies. -/
def diesOf (o : CodeObj) (g : Nat) (l : List Nat) : List Nat :=
  (List.range (g / (o.lw * o.lh))).map fun d => nth l (d * (o.lw * o.lh)) 0 / 16
/-- Pairs of logical dies, each once. -/
def diePairs (nd : Nat) : List (Nat × Nat) := (List.range nd).flatMap fun t => (List.range t).map fun d => (d, t)
/-- The binding of a placement: each logical channel to a working physical channel of its dies, none to two (R359). Which one is Bureau's choice,
here the first ones (log 97). -/
def State.bindChans (s : State) (o : CodeObj) (g : Nat) (l : List Nat) : List (Nat × Nat) :=
  let ds := diesOf o g l
  (diePairs ds.length).flatMap fun x =>
    (((s.workingChans (diePair (nth ds x.1 0) (nth ds x.2 0))).take 4).zipIdx).map fun y => (chanKey x.1 x.2 y.2, y.1)
/-- Clusters that stand for logical die `d` of a gang of `o`: torus offsets of one physical die, none retired, and no failed torus link among those
that the gang has. -/
def State.dieOk (s : State) (o : CodeObj) (l : List Nat) : Bool :=
  let p0 := nth l 0 0
  let gang : Gang := { Gang.fwReset 0 with code := o, g := o.lw * o.lh }
  (l.zipIdx).all (fun x =>
      let (u, v) := (x.2 % o.lw, x.2 / o.lw)
      x.1 == 16 * (p0 / 16) + (p0 % 16 / 4 + v) % 4 * 4 + (p0 % 4 + u) % 4 && decide (x.1 < 64) && !s.pkg.retired.clusters.contains x.1)
    && s.pkg.retired.links.all fun x => match l.idxOf? x.1 with
        | some k => (gang.linkEnd (4 * k) x.2).isNone
        | none => true
/-- The clusters place a gang of `o`: a physical die for each logical die, all different, each as `dieOk` says, and for each pair of them four
channels that have not failed (R72). -/
def State.placeable (s : State) (o : CodeObj) (g : Nat) (l : List Nat) : Bool :=
  let n := o.lw * o.lh
  let ds := diesOf o g l
  l.length == g && (List.range (g / n)).all (fun d => s.dieOk o ((l.drop (d * n)).take n)) && ds.eraseDups.length == ds.length
    && (diePairs ds.length).all fun x => decide (4 ≤ (s.workingChans (diePair (nth ds x.1 0) (nth ds x.2 0))).length)
/-- Rows of a group's reservation. -/
def GangBox.rows (b : GangBox) : Nat × List Nat := (b.clu.crows, b.clu.nrows.toList)
/-- The clusters are free, or are a set where the reservation fits beside the residents' (03 R58, R59). -/
def State.roomOn (s : State) (l : List Nat) (rows : Nat × List Nat) : Bool :=
  match s.disp.sets.find? (·.is l) with
  | some cs =>
    let all := rows :: (cs.groups.filterMap s.boxOf).map GangBox.rows
    let c := (all.map (·.1)).sum
    (List.range 4).all fun q => decide (c + (all.map fun r => nth r.2 q 0).sum ≤ 1024)
  | none => s.disp.sets.all fun cs => cs.clusters.all fun k => !l.contains k
def State.joinSet (s : State) (g : Nat) (l : List Nat) (now : Nat) : State :=
  match s.disp.sets.find? (·.is l) with
  | some cs => s.updSet cs fun x => { x with groups := x.groups ++ [g] }
  | none => { s with disp := { s.disp with sets := s.disp.sets ++ [{ clusters := l, exec := none, sliceStart := now, groups := [g], hold := false }] } }

/-- The ways to choose `n` different dies, in order. -/
def dieChoices : Nat → List (List Nat)
  | 0 => [[]]
  | n + 1 => (dieChoices n).flatMap fun l => ((List.range 4).filter fun d => !l.contains d).map fun d => l ++ [d]
/-- A placement of a gang of `o`, if there is one: on clusters that no set has, or on those of one set. -/
def State.findPlace (s : State) (o : CodeObj) (g : Nat) (rows : Nat × List Nat) : Option (List Nat) :=
  let n := o.lw * o.lh
  let at_ := fun (d p : Nat) => (List.range n).map fun j => 16 * d + (p / 4 + j / o.lw) % 4 * 4 + (p % 4 + j % o.lw) % 4
  let on := fun (allowed : Nat → Bool) => (dieChoices (g / n)).findSome? fun ds =>
    (ds.mapM fun d => ((List.range 16).map (at_ d)).find? fun l => s.dieOk o l && l.all allowed).bind fun ls =>
      if s.placeable o g ls.flatten && s.roomOn ls.flatten rows then some ls.flatten else none
  (on fun k => s.disp.sets.all fun cs => !cs.clusters.contains k).or (s.disp.sets.findSome? fun cs => on cs.clusters.contains)

/-- Save areas in use of a context. -/
def State.savesOf (s : State) (c : BitVec 16) : List (Nat × Nat) :=
  (s.disp.saves.filter (·.2.1 == c)).map fun x => (x.2.2.1, x.2.2.2)
/-- A free place in the context's save pool: its start, or right after an area in use. -/
def State.savePlace (s : State) (c : Ctx) (size : Nat) : Option Nat :=
  let used := s.savesOf c.id
  let cand := c.pool :: used.map fun x => x.1 + x.2
  cand.find? fun a => decide (c.pool ≤ a) && decide (a + size ≤ c.pool + c.poolLen) && used.all fun x => decide (a + size ≤ x.1) || decide (x.1 + x.2 ≤ a)

/-- The launch offers its next group: it has one, what it waits for has come, and its queue's earlier launches have been offered, and have
ended where BAR asks it (R382). -/
def State.offers (s : State) (l : Launch) : Bool :=
  let before := (s.disp.launches.filter fun m => m.queue == l.queue && decide (m.id < l.id)).reverse
  decide (l.nextDisp < l.total) && s.awaited l && s.allOffered before && (!l.bar || before.all fun k => k.ended == k.total)
def State.newGang (s : State) (l : Launch) (area : Nat) : Gang :=
  let (x, y, z) := groupIndex l.x l.y l.ord.toNat l.swz.toNat l.nextDisp
  let first := match l.code.entries[l.entry]? with | some e => e.first | none => 0
  { Gang.fwReset 0 with
    gid := s.disp.nextGid, launch := l.id, ctx := l.ctx, queue := l.queue, code := l.code, g := l.g,
    gidx := BitVec.ofNat 48 (x + y * 2 ^ 16 + z * 2 ^ 32), dispNum := BitVec.ofNat 32 l.nextDisp, args := l.args, argva := l.argva, run := .fresh,
    now := s.pkg.cycle, launchElastic := l.mode, roff := l.roff, seald := l.seald, restartable := l.rst, scheds := l.scheds, saveArea := area, saved := true, t0 := l.code.t0, t1 := l.code.t1, desc := first,
    next := some (false, first), fw := none }
/-- A core of a new group: its accesses follow what the launch waited for. -/
def newCore (g r : Nat) (preds : List Nat) : Core := { Core.reset (.rank g r) with streams := Vector.replicate 16 preds }
def newBox (g : Gang) (clusters : List Nat) (crows : Nat) (nrows : Vector Nat 4) (preds : List Nat) : GangBox :=
  let clu := fun k => Cluster.reset k (nth clusters k 0) crows nrows
  { gang := g, core := newCore g.gid 0 preds, cores := (List.range (4 * g.g - 1)).map fun r => newCore g.gid (r + 1) preds, clu := clu 0,
    clus := (List.range (g.g - 1)).map fun k => clu (k + 1) }

/-- A pre-emption request reaches the executing gangs that `q` selects (R387). -/
def State.askPreempt (s : State) (q : Gang → Bool) (hard evict : Bool) : State :=
  s.mapGangs fun g =>
    if q g && g.run.executing then
      { g with req := { g.req with hard := g.req.hard || hard, soft := g.req.soft || !hard, evict := g.req.evict || evict } }
    else g
/-- Bureau's own requests (R387, R388), of the leading firmware core (01 R17): where a launch is offered that fits nowhere, it may pre-empt queues of lower EffRank that execute, evicting them or
not. Whether it does, and how, are free choices (log 103). -/
def State.bureau (s : State) : State :=
  let rank := fun (q : BitVec 6) => (rget s.disp.queues q).effRank
  (if s.led then s.disp.launches else []).foldl (fun s l =>
    let below := fun (g : Gang) => g.run.executing && !g.req.soft && !g.req.hard && decide (rank g.queue < rank l.queue)
    let qs := (((s.allBoxes.map (·.gang)).filter below).map (·.queue)).eraseDups
    if qs.isEmpty || !s.offers l || (s.findPlace l.code l.g (l.crows, l.nrows.toList)).isSome then s
    else qs.foldl (fun s q =>
      let (go, s) := s.choose
      let (hard, s) := s.choose
      let (evict, s) := s.choose
      if go then s.askPreempt (·.queue == q) hard evict else s) s) s

/-- Bureau, which the leading firmware core runs (01 R17, 18 R424), places the next group of a launch on clusters. -/
def execGroupPlacement (launch : Nat) (clusters : List Nat) (s : State) : Res :=
  match s.launchOf launch with
  | none => .next s
  | some l =>
    match s.ctxOf l.ctx with
    | none => .next s
    | some c =>
      match s.savePlace c (saveSize l.g) with
      | none => .next s
      | some area =>
        event (s.led && s.offers l && s.placeable l.code l.g clusters && s.roomOn clusters (l.crows, l.nrows.toList)) s fun s =>
          let g := { s.newGang l area with binds := s.bindChans l.code l.g clusters }
          let b := newBox g clusters l.crows l.nrows l.preds
          let s := s.updLaunch launch fun l => { l with nextDisp := l.nextDisp + 1, gids := l.gids ++ [g.gid] }
          let s : State := { s with gangs := insertBox b s.gangs,
                                    disp := { s.disp with nextGid := s.disp.nextGid + 1, saves := s.disp.saves ++ [(g.gid, l.ctx, area, saveSize l.g)] } }
          (s.joinSet g.gid clusters s.pkg.cycle).arbitrateIdle clusters s.pkg.cycle

/-! ### Group start (R179, R188, 03 R56) -/

/-- The declared tiles of a cluster, empty. -/
def Cluster.declare (c : Cluster) (l : List TileDecl) : Cluster := l.foldl (fun c d => c.create d.h.toNat d.ent) c
/-- The loop buffer of a core with its first segment of phase `p` expanded from cycle `now`. -/
def Core.expandFirst (c : Core) (g : Gang) (p : Bool × BitVec 8) (now : Nat) : Core :=
  let r := rankOf c.id
  let seg := g.firstSeg r p
  { c with idle := if seg = noSeg then [] else (g.code.expand c.codeBad r seg now).toList }
/-- A fresh group whose tiles, timetable and entry phase stand and whose first segments are expanded; its first phase begins a restart offset after the
last of them. -/
def GangBox.started (b : GangBox) (first : BitVec 8) : GangBox :=
  let g := { b.gang with t0 := b.gang.code.t0, t1 := b.gang.code.t1, active := false, desc := first, next := some (false, first), kind := 1 }
  let core := b.core.expandFirst g (false, first) g.now
  let cores := b.cores.map fun c => c.expandFirst g (false, first) g.now
  let ready := ((core :: cores).flatMap fun c => c.idle.map (·.done)).foldl max g.now
  { gang := { g with run := .start (ready + g.roff), saved := false }, core := core, cores := cores,
    clu := b.clu.declare g.code.tiles, clus := b.clus.map fun c => c.declare g.code.tiles }
/-- The cycle of a set's cores. -/
def State.setNow (s : State) (cs : CluSet) : Nat := ((cs.groups.filterMap s.boxOf).map (·.gang.now)).foldl max 0
/-- The cores of a group have read the segments in their loop buffers (09 R204). -/
def State.readHalves (s : State) (gid : Nat) : State :=
  ((s.focusGang gid).forRanks fun s => ((if s.core.cur.entries = [] then [] else [s.core.cur]) ++ s.core.idle).foldl (fun s h => s.readCode h.seg) s).focusGang s.gang.gid
/-- The group that its set has picked is created once the set's cores are ready (R386). -/
def execGroupStart (gid : Nat) (s : State) : Res :=
  match s.boxOf gid with
  | none => .next s
  | some b =>
    let entry := match s.launchOf b.gang.launch with | some l => l.entry | none => 0
    match b.gang.code.entries[entry]? with
    | none => .next s
    | some e =>
      event (b.gang.run == .fresh && (match s.setOf gid with | some cs => cs.exec == some gid && s.setReady cs gid | none => false) && s.dom.st != .closed) s fun s =>
        let t := match s.setOf gid with | some cs => s.setNow cs | none => b.gang.now
        (s.onBox gid fun b => let b := ({ b with gang := { b.gang with now := t } } : GangBox).started e.first; { b with gang := b.gang.hearSeal s }).readHalves gid

/-! ### Graphs (R391, R392) and the ends of launches (R383) -/

/-- The group that a set has picked begins once the set's cores are ready (R386): a fresh one is created, another restored. -/
def State.beginPick (s : State) (cs : CluSet) : State :=
  match cs.exec.bind s.boxOf with
  | none => s
  | some b =>
    let t := s.setNow cs
    let go := b.gang.run == .fresh || b.gang.run == .waiting
    if !go || !s.setReady cs b.gang.gid || s.dom.st == .closed then s
    else if b.gang.run = .fresh then Res.orElse s (execGroupStart b.gang.gid s)
    else State.readHalves (gid := b.gang.gid) <| s.onBox b.gang.gid fun b =>
      let d := t - b.gang.now
      { b with gang := (({ b.gang with run := .start (t + b.gang.roff), now := t, saved := false } : Gang).hearSeal s),
               core := b.core.restored.shift d, cores := b.cores.map fun c => c.restored.shift d }
def State.beginPicks (s : State) : State := s.disp.sets.foldl State.beginPick s

/-- Accesses issued by the cores of groups. -/
def MemSys.accsOf (m : MemSys) (gids : List Nat) : List Nat :=
  (m.accs.filter fun a => match a.who with | .core (.rank g _) => gids.contains g | _ => false).map (·.id)
/-- Released nodes enter the intake, from where they reach their queues' FIFOs, in ascending index. -/
def State.releaseNodes (s : State) (id : Nat) : State :=
  match s.disp.graphs.find? (·.id == id) with
  | none => s
  | some g =>
    let ready := (List.range g.nodes.length).filter fun i => !g.released.contains i &&
      (g.nodes.zipIdx).all fun x => !x.1.2.contains i || g.ended.contains x.2
    let recs := ready.map fun i =>
      let b := (nth g.nodes i ([], [])).1
      let preds := ((g.nodes.zipIdx).filter fun x => x.1.2.contains i).flatMap fun x => (g.preds.filter (·.1 == x.2)).flatMap (·.2)
      ({ bytes := b, queue := g.queue, ctx := g.ctx, from_ := none, preds := preds, node := some (id, i) } : LRec)
    { s with disp := { s.disp with intake := s.disp.intake ++ recs,
                                   graphs := updateAll (fun g => g.id == id) (fun g => { g with released := g.released ++ ready }) s.disp.graphs } }
/-- The dispatcher's `AT.ADD` of 1 to a sync variable, after `preds`. -/
def State.signalVar (s : State) (ctx : BitVec 16) (x : Nat) (preds : List Nat) : State :=
  let die := bits x 26 24
  let (id, s) := s.newAccess .hub 4 0 preds true
  let s : State := { s with mem := s.mem.updAcc id fun a => { a with ctx := ctx, rmw := true } }
  let o : SOp :=
    { id := id, acc := id, who := .fw 4, gid := 4, op := 0x0A, loc := s.syncLoc die (bits x 23 0), idx := none, home := die, v := 1, n := 0, np := true, fb := none,
      rnum := 0, inSeq := 0, shared := false, ri := s.dom.ri, ready := none }
  { s with mem := { s.mem with ops := s.mem.ops ++ [o] } }
/-- A node of a replay has ended; the replay ends with its last node. -/
def State.endNode (s : State) (id i : Nat) (accs : List Nat) : State :=
  let s : State := { s with disp := { s.disp with
    graphs := updateAll (fun g => g.id == id) (fun g => { g with ended := g.ended ++ [i], preds := g.preds ++ [(i, accs)] }) s.disp.graphs } }
  match s.disp.graphs.find? (·.id == id) with
  | none => s
  | some g =>
    if g.ended.length < g.nodes.length then s.releaseNodes id
    else
      let s : State := { s with disp := { s.disp with graphs := s.disp.graphs.filter (·.id != id) } }
      let s := if g.doneEn then s.signalVar g.ctx g.doneVar (g.preds.flatMap (·.2)) else s
      s.report g.queue g.ctx g.tag 0
/-- A node has ended, and with the last node of a replay the node that the replay stands for; the fuel is the number of replays. -/
def State.endNodes : Nat → State → Nat → Nat → List Nat → State
  | 0, s, _, _, _ => s
  | k + 1, s, id, i, accs =>
    let g := s.disp.graphs.find? (·.id == id)
    let t := s.endNode id i accs
    match g.bind (·.node), t.disp.graphs.any (·.id == id) with
    | some (h, j), false => State.endNodes k t h j ((g.map fun x => x.preds.flatMap (·.2)).getD [] ++ accs)
    | _, _ => t
/-- A launch all of whose groups have ended (R383). One cut off by a fault reports 8 (log 36). -/
def execLaunchEnd (launch : Nat) (s : State) : Res :=
  match s.launchOf launch with
  | none => .next s
  | some l => event (l.ended == l.total && s.dom.st != .closed) s fun s =>
      let accs := s.mem.accsOf l.gids
      let s : State := { s with disp := { s.disp with launches := s.disp.launches.filter (·.id != launch) } }
      let s := if l.doneEn && !l.cut then s.signalVar l.ctx l.doneVar accs else s
      let s := s.report l.queue l.ctx l.tag (if l.cut then 8 else 0)
      match l.node with
      | some (g, i) => State.endNodes (s.disp.graphs.length + 1) s g i accs
      | none => s

/-- Nodes that name no cycle: each round takes out those that no other names. -/
def acyclic : Nat → List (Nat × List Nat) → Bool
  | 0, l => l.isEmpty
  | k + 1, l =>
    let rest := l.filter fun x => l.any fun y => y.2.contains x.1
    l.isEmpty || (decide (rest.length < l.length) && acyclic k rest)
/-- A graph image: its nodes with their successors. The status of a refusal otherwise (log 37). -/
def State.graphImage (s : State) (c : Ctx) (va : Nat) : Except Nat (List (List Byte × List Nat)) :=
  match s.loadVa c va 64 with
  | none => .error 3
  | some h =>
    let n := bits (ofBytes h) 10 0
    if ofBytes h ≠ n ∨ n = 0 ∨ 1024 < n then .error 6
    else match s.loadVa c (va + 64) (128 * n) with
      | none => .error 3
      | some b =>
        let nodes := (List.range n).map fun i =>
          let r := (b.drop (128 * i)).take 128
          let su := (List.range 12).map fun j => ofBytes ((r.drop (64 + 2 * j)).take 2)
          (r.take 64, su.filter (· != 0xFFFF), allZero (r.drop 88))
        let ns := nodes.map fun x => (x.1, x.2.1)
        if nodes.all (fun x => x.2.2 && x.2.1.all fun j => decide (j < n)) && acyclic n ((ns.map (·.2)).zipIdx.map fun x => (x.2, x.1)) then .ok ns
        else .error 6
/-- Errors that the capture of an image meets (17 R404). -/
def State.noteGraph (s : State) (c : Ctx) (va : Nat) : State :=
  match s.loadVa c va 64 with
  | none => s
  | some h => s.noteVa c va (64 + 128 * min 1024 (bits (ofBytes h) 10 0))
/-- A graph packet that takes FIELD: a field that must be zero (all but CODE, ARGVA, QUEUE, TAG, DONEEN and DONEVAR), or ARGVA misaligned (R381). -/
def graphFieldBad (n : Nat) : Bool :=
  bits n 66 64 != 0 || bits n 127 116 != 0 || bits n 190 128 != 0 || bits n 239 192 != 0 || bits n 383 246 != 0 || bits n 479 411 != 0
/-- Host writes that Lantern has accepted are applied (R392). -/
def State.hostWritesDone (s : State) : Bool :=
  s.host.pendq.all (fun r => match r.in_ with | .hostWrite _ _ _ _ _ _ => false | _ => true)
    && s.mem.wq.all fun e => match s.mem.acc? e.acc with | some a => a.who != .hub | none => true
def execGraphReplayStart (q : BitVec 6) (s : State) : Res :=
  match (s.queueOf q).fifo with
  | [] => .next s
  | r :: _ =>
    match s.ctxOf r.ctx with
    | none => .next (s.popFifo q)
    | some c => event (!c.faulted && r.isGraph && s.headFree q && decide (s.disp.graphs.length < 16) && s.hostWritesDone && r.preds.all s.mem.complete) s fun s =>
        let n := r.n
        let t := (s.noteGraph c (bits n 115 64)).popFifo q
        let u := s.queueOf r.target
        let img := s.graphImage c (bits n 115 64)
        let st := if graphFieldBad n || (bits n 191 191 == 1 && !c.syncOk (bits n 410 384)) then 2
          else match img with
            | .error 3 => 3
            | .error _ => 6
            | .ok _ => if !u.v || u.ctx != r.ctx then 7 else if c.torn then 8 else 0
        match st, img with
        | 0, .ok ns =>
          let id := t.disp.nextId
          let g : Graph := { id := id, queue := q, ctx := r.ctx, tag := r.tag, doneEn := bits n 191 191 == 1, doneVar := bits n 410 384, node := r.node, nodes := ns,
                             released := [], ended := [], preds := [] }
          ({ t with disp := { t.disp with graphs := t.disp.graphs ++ [g], nextId := id + 1 } } : State).releaseNodes id
        | _, _ => t.report q r.ctx r.tag st

/-! ### Hard pre-emption (R387, R388) and resume (R390) -/

/-- The core is due to issue a timed bundle with PP at this frame cycle and has nothing timed in flight. -/
def State.coreQuiet (s : State) (c : Core) : Bool :=
  let pp := match c.cur.entries[c.ent]? with | some e => e.bundle.getLsbD (Slot.c.base + 63) | none => false
  c.run == .timed && c.due == s.gang.sfc.toNat && pp && c.calm && c.far.isNone && !c.mxu.chain && (c.mxu.chainNo == 0 || decide (c.mxu.chainEnd < s.gang.now)) && c.mxu.oldChains.all fun x => decide (x.1 < s.gang.now)
def State.hardReady (s : State) : Bool :=
  s.gang.req.hard && s.gang.run == .phase && (match s.gang.cur with | some d => d.preemptOk | none => false)
    && s.allCores.all s.coreQuiet && s.allClus.all (·.lxs.isEmpty) && s.gang.xfers.all (·.done)
def execHardPreemption (s : State) : Res :=
  event s.hardReady s fun s =>
    let g := s.gang
    let s := s.setGang { g with run := .boundary, kind := 2, latched := { Requests.none with hard := true, evict := g.req.evict }, yieldAt := false }
    (s.leftPhase g.gid).serve

/-- An evicted group goes back on clusters (R390): the first of its queue in the list. One that has never run is created when it begins. -/
def execGroupResume (gid : Nat) (clusters : List Nat) (s : State) : Res :=
  match s.boxOf gid with
  | none => .next s
  | some b =>
    let mine := s.disp.evicted.filter fun g => match s.boxOf g with | some x => x.gang.queue == b.gang.queue | none => false
    event (s.led && b.gang.run == .evicted && mine.head? == some gid && s.ctxLive b.gang.ctx && s.placeable b.gang.code b.gang.g clusters
        && s.roomOn clusters b.rows) s fun s =>
      let place := fun (c : Cluster) => { c with phys := nth clusters c.k 0, tlb := [] }
      let s := s.onBox gid fun b =>
        { b with gang := { b.gang with run := if b.gang.kind = 0 then .fresh else .waiting, binds := s.bindChans b.gang.code b.gang.g clusters }, clu := place b.clu, clus := b.clus.map place }
      let s : State := { s with disp := { s.disp with evicted := s.disp.evicted.filter (· != gid) } }
      (s.joinSet gid clusters s.pkg.cycle).arbitrateIdle clusters s.pkg.cycle

/-! ### Changes that wait for slack boundaries -/

/-- A response (18 R413, R417): STATUS and the words of the block from word 1 on. -/
def State.respond (s : State) (seq : W32) (ctx : BitVec 16) (tag : W64) (status : W16) (words : List Nat) : State :=
  s.emit 0 (.frame 0x83 status seq ctx tag (toBytes 64 (((0 :: words).zipIdx.map fun x => x.1 % 2 ^ 64 * 2 ^ (64 * x.2)).sum)))
/-- A refusal names the rule it rests on in word 1. -/
def State.refuse (s : State) (seq : W32) (ctx : BitVec 16) (tag : W64) (rule : Nat) : State := s.respond seq ctx tag 3 [rule]
def State.dropJob (s : State) (id : Nat) : State := { s with pkg := { s.pkg with jobs := s.pkg.jobs.filter (·.id != id) } }
def State.jobOf (s : State) (id : Nat) : Option JobRec := s.pkg.jobs.find? (·.id == id)

/-- Translations of a range of a context leave every cache (02 R34). -/
def State.clearTlb (s : State) (ctx : BitVec 16) (va len : Nat) : State :=
  let out := fun (c : Cluster) => { c with tlb := c.tlb.filter fun e => decide (2 ^ 21 * (e.1 + 1) ≤ va) || decide (va + len ≤ 2 ^ 21 * e.1) }
  let f := fun (b : GangBox) => if b.gang.ctx == ctx then { b with clu := out b.clu, clus := b.clus.map out } else b
  { s.setBox (f s.box) with gangs := s.gangs.map f }
def execInvalidationComplete (id : Nat) (s : State) : Res :=
  match s.jobOf id with
  | none => .next s
  | some j =>
    match j.job with
    | .invalidate c va len wait =>
      event (s.led && wait.all fun g => match s.boxOf g with | some b => b.gang.run != .phase | none => true) s fun s =>
        ((s.clearTlb c va len).dropJob id).respond j.seq j.ctx j.tag 0 []
    | _ => .next s

/-- A Sconce operation of a context that is not complete names the region (02 R40). -/
def State.opNames (s : State) (cx : BitVec 16) (idx : Nat) : Bool :=
  let mine := fun (acc : Nat) => match s.mem.acc? acc with | some a => a.ctx == cx | none => false
  s.mem.ops.any (fun o => o.idx == some idx && mine o.acc) || s.mem.reps.any fun r => r.idx == some idx && mine r.acc
/-- The pages of a region may be pinned with its permission (R37): their leaf entries. An entry with a Reserved bit set, which the spec does not mention
here, is refused like one that is not mappable (log 95). -/
def State.pinPages (s : State) (c : Ctx) (r : Region) : Option (List Nat) :=
  (List.range r.pages).mapM fun i =>
    match s.ctxLeaf c (r.base / 2 ^ 21 * 2 ^ 21 + i * 2 ^ 21) with
    | some e => if leafReservedOk e && s.mappable (leafFrame e) (leafPcls e) && (!r.wr || bits e 1 1 == 1) then some e else none
    | none => none
/-- Entry `idx` may change now (R40), and the undo logs have room for what the change writes (log 65). -/
def State.regionFree (s : State) (c : Ctx) (idx : Nat) (new : Region) : Bool :=
  let lines := (c.rbase + 64 * idx) :: (if new.v then (List.range new.pages).map fun i => (new.flist + 8 * i) / 64 * 64 else [])
  !s.ctxInPhase c.id && !s.barrier && s.roomFor lines s.dom.ri && s.mem.cmds.all (fun k => k.ctx != c.id || !k.names.contains idx)
    && !s.opNames c.id idx
/-- The entry becomes the image `e` with generation `gen`, and its frame records the leaf entries `es` (R37; log 64). -/
def State.putRegion (s : State) (c : Ctx) (idx gen e : Nat) (es : List Nat) : State :=
  let s := s.storePa c (c.rbase + 64 * idx) (toBytes 64 (e / 2 ^ 24 * 2 ^ 24 + gen)) true
  es.zipIdx.foldl (fun s x => s.storePa c ((Region.ofNat e).flist + 8 * x.2) (toBytes 8 x.1) true) s
/-- The frame records of a region whose home is another package, as that package gives them: free values (15 R373; log 53). -/
def State.farRecords (s : State) (p : Nat) (r : Region) : List Nat :=
  (List.range r.pages).map fun i => s.mem.natAt none (farVa p (r.base / 2 ^ 21 * 2 ^ 21 + i * 2 ^ 21)) 8
/-- A region that would cross a partition, or lie in none of the context's (15 R373). -/
def State.crosses (s : State) (c : Ctx) (r : Region) : Bool :=
  decide (1 < c.pkgs.length) && (bits r.base 51 45 != bits (r.base + r.len - 1) 51 45 || s.partOf c r.base == .outside)
/-- A change that the driver asked for, on every package of the context (15 R373). It creates no region over pages that are not logged (R33) or are of the shared
window (R51), and none that crosses a partition. An image that R36 does not allow would fail every check: the spec does not say whether its REGION_SET is
refused; DESIGN CHOICE, it is, with rule 36 (log 111). -/
def execRegionChangeApply (id : Nat) (s : State) : Res :=
  match s.jobOf id with
  | none => .next s
  | some j =>
    match j.job, s.ctxOf j.ctx with
    | .region _ idx img, some c =>
      let n := ofBytes img
      let r := Region.ofNat n
      event (s.led && s.regionFree c idx r) s fun s =>
        let old := Region.ofNat (s.regionEntry c idx)
        let s := s.dropJob id
        if r.v && r.malformed then s.refuse j.seq j.ctx j.tag 36
        else if r.v && s.crosses c r then s.refuse j.seq j.ctx j.tag 373
        else if r.v && s.partOf c r.base != .own then
          let (no, s) := s.choose
          if no then s.refuse j.seq j.ctx j.tag 37
          else (s.putRegion c idx old.gen n (s.farRecords (bits r.base 51 45) r)).respond j.seq j.ctx j.tag 0 [old.gen * 2 ^ 40 + idx]
        else if r.v then
          match s.pinPages c r with
          | none => s.refuse j.seq j.ctx j.tag 37
          | some es =>
            if es.any fun e => bits e 5 5 == 0 then s.refuse j.seq j.ctx j.tag 33
            else if es.any fun e => leafPcls e == 3 then s.refuse j.seq j.ctx j.tag 51
            else (s.putRegion c idx old.gen n es).respond j.seq j.ctx j.tag 0 [old.gen * 2 ^ 40 + idx]
        else
          let gen := (old.gen + 1) % 2 ^ 24
          (s.putRegion c idx gen (s.regionEntry c idx - (if old.v then 2 ^ 63 else 0)) []).respond j.seq j.ctx j.tag 0 [gen * 2 ^ 40 + idx]
    | _, _ => .next s
/-- A region that Chothes creates by itself, over pages of the shared window, or of the egress and input-log areas, for Lantern, `INGEST`, `EGRESS`, atomics
and `WAITA` (R33, R51). When it does, and which entry it takes, are its own (log 93). -/
def execChothesRegion (ctx : BitVec 16) (idx : Nat) (img : List Byte) (s : State) : Res :=
  match s.ctxOf ctx with
  | none => .next s
  | some c =>
    let n := ofBytes (img.take 64)
    let r := Region.ofNat n
    match s.pinPages c r with
    | none => .next s
    | some es =>
      event (s.led && r.v && !r.malformed && s.partOf c r.base == .own && !s.crosses c r && decide (1 ≤ idx) && decide (idx < c.rtlim) && s.regionFree c idx r
          && es.all fun e => leafPcls e == 3 || bits e 5 5 == 0) s fun s =>
        s.putRegion c idx (Region.ofNat (s.regionEntry c idx)).gen n es

/-- R182 on a table that replaces one of a gang's, the chains that its descriptors name included, and on the other table's successors into it. -/
def tableOk (o : CodeObj) (new other : List Desc) : Bool :=
  new.all (fun d => o.descOk d.bits new.length other.length && (o.slackBad d).isEmpty)
    && other.all fun d => succOk d.succ1 other.length new.length && succOk d.succ0 other.length new.length
def execTableReplacementApply (id : Nat) (s : State) : Res :=
  match s.jobOf id with
  | none => .next s
  | some j =>
    match j.job with
    | .table gid t1 ds =>
      match s.boxOf gid with
      | none => .next ((s.dropJob id).refuse j.seq j.ctx j.tag 183)
      | some b => event (s.led && b.gang.active != t1 && !b.inPhase && b.gang.run != .fresh) s fun s =>
          let g := b.gang
          let s := s.dropJob id
          if tableOk g.code ds (if t1 then g.t0 else g.t1) then
            (s.onGang gid fun g => if t1 then { g with t1 := ds } else { g with t0 := ds }).respond j.seq j.ctx j.tag 0 []
          else s.refuse j.seq j.ctx j.tag 182
    | _ => .next s

/-- The gang on a cluster is in a phase, out of its slack window. -/
def State.clusterInPhase (s : State) (k : Nat) : Bool :=
  s.allBoxes.any fun b => (b.clu :: b.clus).any (·.phys == k) && b.gang.alive && b.inPhase
/-- A routine is installed in the cores of every cluster that is not inside a phase; the response follows the last. -/
def execRoutineInstall (id : Nat) (s : State) : Res :=
  match s.jobOf id with
  | none => .next s
  | some j =>
    match j.job with
    | .routine idx ops left =>
      let now := left.filter fun k => s.led && !s.clusterInPhase k
      let left := left.filter fun k => !s.led || s.clusterInPhase k
      let p := now.foldl (fun p k => (List.range 4).foldl (fun p q =>
        (ops.zipIdx).foldl (fun p u => p.setUcode (4 * k + q) idx u.2 u.1) p) p) s.pkg
      let s : State := { s with pkg := { p with jobs := updateAll (fun x => x.id == id) (fun x => { x with job := .routine idx ops left }) p.jobs } }
      .next (if left.isEmpty then (s.dropJob id).respond j.seq j.ctx j.tag 0 [] else s)
    | _ => .next s

end Sys2Proof.Machine
end

