-- ==== Sys2Proof/Machine/Host.lean ====
section
/-! DEFINITION. Lantern, the driver commands, the CXL ports and the scale-out connections (18 R412-R420, R433, R434, R450; 16 R393; 17 R400;
06 R141, R145). -/

namespace Sys2Proof.Machine

/-! ### The hub's own accesses (06 R141, R145, R146) -/

/-- An access of the hub after `preds` that writes the cells of each line; a line without cells gets an empty write. -/
def State.hubAccess (s : State) (ctx : BitVec 16) (preds : List Nat) (lines : List (Nat × List Host.Cell)) : Nat × State :=
  let (id, s) := s.newAccess .hub 4 0 preds true
  let s : State := { s with mem := s.mem.updAcc id fun a => { a with ctx := ctx } }
  (id, lines.foldl (fun s x => s.addWrite id (.bytes x.2) x.1 true (homeOf x.1)) s)
def insertNat (n : Nat) : List Nat → List Nat
  | [] => [n]
  | m :: l => if n < m then n :: m :: l else m :: insertNat n l
/-- Write events of the hub that are queued and read events of the host's reads, in the order they were made. -/
def MemSys.hubQueued (m : MemSys) : List Nat :=
  let ws := (m.wq.filter fun e => match m.acc? e.acc with | some a => a.who == .hub | none => false).map (·.id)
  let rs := (m.rq.filter fun e => match e.dst with | .host _ => true | _ => false).map (·.id)
  (ws ++ rs).foldr insertNat []
/-- An access is the hub's own. -/
def MemSys.ofHub (m : MemSys) (acc : Nat) : Bool := match m.acc? acc with | some a => a.who == .hub | none => false
/-- Every queued write of the hub is applied, in order, and delivered, to the hub die first, and every read of the host between them performed; then the hub's
Sconce operations that can execute do. False where an undo log, a clock or a seal barrier makes a write or a read wait. -/
def State.flushHub (s : State) : Bool × State :=
  let late := fun (s : State) =>
    (s.mem.wlog.filter fun e => s.mem.ofHub e.acc).foldl (fun s e =>
      [4, 0, 1, 2, 3].foldl (fun s d => Res.orElse s (execWriteEventDelivery e.id d s)) s) s
  let ops := fun (x : Bool × State) =>
    (x.1, (x.2.mem.ops.filter fun o => x.2.mem.ofHub o.acc).foldl (fun s o => late (Res.orElse s (execSconceOperationExecute o.id s))) x.2)
  ops <| s.mem.hubQueued.foldl (fun (x : Bool × State) i =>
    let s := x.2
    if !x.1 then x
    else match s.mem.wq.find? (·.id == i) with
      | some e => if s.canApply e e.cells.isEmpty then (true, late (Res.orElse s (execWriteEventApply i s))) else (false, s)
      | none =>
        let t := Res.orElse s (execReadEventPerform i s)
        (t.mem.rq.all (·.id != i), t)) (true, late s)

/-! ### Requests: SEQ, ACK, NAK, FLOW (R413, R414) -/

/-- An answer without payload, which leaves at once. -/
def State.answer (s : State) (opc : Byte) (status : W16) (seq : W32) (ctx : BitVec 16) (tag : W64) : State :=
  s.sendOut (.frame opc status seq ctx tag [])
/-- The interval after `r` (07 R148). -/
def nextRi (r : W32) : W32 := if r = 0xFFFFFFFF then 1 else r + 1
/-- The interval of a request accepted now: while a barrier is open, the next (07 R155). -/
def State.inputRi (s : State) : W32 := if s.barrier then nextRi s.dom.ri else s.dom.ri
/-- A frame arrives with sequence number `seq`: a boot that was refused answers nothing; a number other than the next expected, a malformed
request and one without room are answered and change nothing; any other is logged and acknowledged, then performed, or kept while a barrier
is open or earlier requests wait. A command sets FWEVT[0] of the leading core (R422). -/
def State.request (s : State) (seq : W32) (ctx : BitVec 16) (tag : W64) (bad flow : Bool) (r : InRec) (len : Nat) (run : State → State) : State :=
  if !s.pkg.booted then s
  else if seq ≠ s.host.seq then s.answer 0x85 5 s.host.seq ctx tag
  else if bad then s.answer 0x85 2 s.host.seq ctx tag
  else if flow then s.answer 0x86 0 seq ctx tag
  else
    let ri := s.inputRi
    let s : State := { s with host := { s.host with seq := s.host.seq + 1 } }
    let s := (s.logInputAt ri ctx r len).answer 0x84 0 seq ctx tag
    let s := match r with | .command _ _ => s.fwEvent s.leader 0 | _ => s
    if s.barrier || !s.host.pendq.isEmpty then { s with host := { s.host with pendq := s.host.pendq ++ [{ ri := ri, ctx := ctx, in_ := r }] } }
    else run s
/-- A request that cannot be performed yet waits as the first of those to come. -/
def State.pend (s : State) (ctx : BitVec 16) (r : InRec) : State :=
  { s with host := { s.host with pendq := s.host.pendq ++ [{ ri := s.dom.ri, ctx := ctx, in_ := r }] } }

/-! ### WRITE and READ (R415, 02 R49, R50, 06 R141) -/

/-- Data byte `i` is written. -/
def enabled (ben : Option (List Bool)) (i : Nat) : Bool := match ben with | none => true | some l => nth l i false
/-- The cells that an accepted WRITE gives each line that it names, by physical address; unmapped pages take none. One that writes no byte is empty, at
its starting offset (02 R39). -/
def State.writeLines (s : State) (c : Ctx) (off : Nat) (data : List Byte) (ben : List Bool) : List (Nat × List Host.Cell) :=
  let va := c.mbox + off
  let ps := if ben.contains true then vaPieces va data.length else [(if off = c.mboxLen then va - 1 else va, 0)]
  ps.filterMap fun p => (s.ctxPa c p.1).map fun pa =>
    (pa / 64 * 64, (List.range p.2).filterMap fun i =>
      let k := p.1 + i - va
      if nth ben k false then some (pa + i, nth data k 0) else none)
/-- The WRITE is performed: refused past the window and in the capability area. -/
def State.hostWrite (s : State) (seq : W32) (ctx : BitVec 16) (tag : W64) (off : Nat) (data : List Byte) (ben : List Bool) : State :=
  match s.ctxOf ctx with
  | none => s.refuse seq ctx tag 49
  | some c =>
    if c.mboxLen < off + data.length ∨ (off < 0x10000 ∧ data ≠ []) then s.refuse seq ctx tag 414
    else
      let (id, s) := s.hubAccess ctx s.mem.hubLast (s.writeLines c off data ben)
      { s with mem := { s.mem with hubLast := [id] } }
/-- READ responses held, and READs accepted and not performed (07 R160). -/
def State.readsHeld (s : State) : Nat :=
  (s.dom.held.filter fun h => match h.eff with | .frame o _ _ _ _ _ => o == 0x81 | _ => false).length + s.host.reads.length
    + (s.host.pendq.filter fun r => match r.in_ with | .hostRead _ _ _ _ _ => true | _ => false).length
/-- The READ's read events, one for each line, and one without bytes where it asks for none, perform at the hub die after every earlier host write and read; the
answer follows the last. -/
def State.hostRead (s : State) (seq : W32) (ctx : BitVec 16) (tag : W64) (off len : Nat) : State :=
  match s.ctxOf ctx with
  | none => s.refuse seq ctx tag 49
  | some c =>
    if c.mboxLen < off + len then s.refuse seq ctx tag 414
    else match (if len = 0 then [(c.mbox + off - (if off = c.mboxLen then 1 else 0), 0)] else vaPieces (c.mbox + off) len).mapM fun p =>
        (s.ctxPa c p.1).map fun a => (a, p.2) with
      | none => s.refuse seq ctx tag 49
      | some l =>
        let (id, s) := s.hubAccess ctx s.mem.hubLast []
        let s := l.foldl (fun s p => s.addRead id p.1 p.2 (.host id)) s
        let r : HostRead := { acc := id, seq := seq, ctx := ctx, tag := tag, pieces := l, data := [] }
        let s : State := { s with mem := { s.mem with hubLast := [id] }, host := { s.host with reads := s.host.reads ++ [r] } }
        s.hostReadDone id
/-- Bytes of a frame without VLAN tag (R413). -/
def frameBytes (n : Nat) (ben : Bool) : Nat := 50 + n + (if ben then (n + 7) / 8 else 0)

def execWrite (seq : W32) (ctx : BitVec 16) (tag : W64) (offset : BitVec 30) (data : List Byte) (ben : Option (List Bool)) (s : State) : Res :=
  let n := data.length
  let en := (List.range n).map (enabled ben)
  if 9216 < frameBytes n ben.isSome then .next s
  else .next (s.request seq ctx tag (decide (8192 < n) || (ben.isSome && decide (8128 < n)) || (s.ctxOf ctx).isNone) (s.inlogFull ctx)
    (.hostWrite seq ctx tag offset.toNat data en) (64 + n) fun s => s.hostWrite seq ctx tag offset.toNat data en)
def execRead (seq : W32) (ctx : BitVec 16) (tag : W64) (offset : BitVec 30) (len : BitVec 14) (s : State) : Res :=
  .next (s.request seq ctx tag (decide (8192 < len.toNat) || (s.ctxOf ctx).isNone) (s.inlogFull ctx || decide (256 ≤ s.readsHeld))
    (.hostRead seq ctx tag offset.toNat len.toNat) 64 fun s => s.hostRead seq ctx tag offset.toNat len.toNat)

/-! ### Commands: arguments and answers (R417, R450) -/

/-- Argument word `i` of a command block, 1 to 7. -/
def cmdArg (f : CmdFrame) (i : Nat) : Nat := (nth f.args (i - 1) 0).toNat
/-- The bits of the listed fields. -/
def fieldMask (l : List (Nat × Nat)) : Nat := (l.map fun p => 2 ^ (p.1 + 1) - 2 ^ p.2).sum
/-- No bit outside the listed fields of words 1 to 7 is set. -/
def cmdOnly (f : CmdFrame) (l : List (List (Nat × Nat))) : Bool :=
  (List.range 7).all fun i => let v := cmdArg f (i + 1); v &&& fieldMask (nth l i []) == v
def State.reply (s : State) (f : CmdFrame) (status : W16) (words : List Nat) : State := s.respond f.seq f.ctx f.tag status words
def State.deny (s : State) (f : CmdFrame) (rule : Nat) : State := s.refuse f.seq f.ctx f.tag rule
/-- A command of a context: refused while the configuration record is (R434); ARG for an unknown context, an unlisted bit or a value out of
range. -/
def State.command (s : State) (f : CmdFrame) (fields : List (List (Nat × Nat))) (range : Ctx → Bool) (k : Ctx → State → State) : State :=
  if !s.pkg.cfgOk then s.deny f 434
  else match s.ctxOf f.ctx with
    | none => s.reply f 2 []
    | some c => if cmdOnly f fields && range c then k c s else s.reply f 2 []

/-! ### CTX_CREATE (R450, 02 R33, R46, R49, 03 R71) -/

/-- Every page of `n` bytes from `va` has a leaf entry that meets `ok`. -/
def State.pagesAre (s : State) (c : Ctx) (va n : Nat) (ok : Nat → Bool) : Bool :=
  (List.range (n / 2 ^ 21)).all fun i => match s.ctxLeaf c (va + 2 ^ 21 * i) with | some e => ok e | none => false
/-- A leaf of a mappable HBM page with the given LOGGED bit. -/
def State.hbmLeaf (s : State) (logged : Bool) (e : Nat) : Bool :=
  leafReservedOk e && s.mappable (leafFrame e) (leafPcls e) && leafPcls e == 1 && (bits e 5 5 == 1) == logged
/-- Sync indices of a new context on a die: Chothes chooses a range apart from its own and from those of other contexts (Config). -/
def State.newSync (s : State) (id d : Nat) : Nat × Nat :=
  let lo := max 64 (Config.syncFirst id d)
  let hi := min (2 ^ 24 - 1) (Config.syncLast id d)
  let clash := s.pkg.ctxs.any fun c => let x := nth c.sync.toList d (1, 0); decide (lo ≤ x.2) && decide (x.1 ≤ hi)
  if hi < lo ∨ clash then (1, 0) else (lo, hi)
/-- The lowest context number in no use. -/
def State.freeCtx (s : State) : Nat :=
  (((List.range (s.pkg.ctxs.length + 1)).map (· + 1)).find? fun i => s.pkg.ctxs.all fun c => c.id.toNat != i).getD 0
def State.ctxOfArgs (s : State) (f : CmdFrame) : Ctx :=
  let a := cmdArg f
  let id := s.freeCtx
  let gib := let n := bits (a 6) 36 32; if n = 0 then 1 else n
  { id := BitVec.ofNat 16 id, root := a 1, rbase := a 2, rtlim := bits (a 3) 24 0, mbox := bits (a 4) 30 0 * 2 ^ 21,
    mboxLen := (bits (a 3) 40 32 + 1) * 2 ^ 21, egress := bits (a 5) 30 0 * 2 ^ 21, inlog := bits (a 6) 30 0 * 2 ^ 21, inlogLen := gib * 2 ^ 30,
    pool := bits (a 7) 30 0 * 2 ^ 21, poolLen := bits (a 7) 63 32 * 2 ^ 21, sync := Vector.ofFn fun i => s.newSync id i.val,
    faulted := false, torn := false, inlogUsed := 0, inlogLost := 0, egressUsed := 0, egressLost := 0,
    pkgs := s.dom.pkgs.filter fun p => p == s.pkg.cfg.pkg.toNat || Config.ctxOn id p, todo := [] }
def createFields : List (List (Nat × Nat)) :=
  [[(47, 0)], [(47, 0)], [(24, 0), (40, 32)], [(30, 0)], [(30, 0)], [(30, 0), (36, 32)], [(30, 0), (63, 32)]]
/-- The values of R450's ranges. -/
def createArgsOk (f : CmdFrame) : Bool :=
  f.ctx == 0 && cmdOnly f createFields && cmdArg f 1 % 2 ^ 15 == 0 && cmdArg f 2 % 64 == 0 && decide (1 ≤ bits (cmdArg f 3) 24 0)
    && decide (bits (cmdArg f 3) 24 0 ≤ 2 ^ 24) && decide (bits (cmdArg f 6) 36 32 ≤ 16)
/-- The rule that refuses a new context, if one does: its mailbox, its egress and input-log areas, its save pool. -/
def State.createRefusal (s : State) (c : Ctx) : Option Nat :=
  if !s.pagesAre c c.mbox c.mboxLen (s.hbmLeaf true) then some 49
  else if !s.pagesAre c c.egress (2 ^ 32) (s.hbmLeaf false) || !s.pagesAre c c.inlog c.inlogLen (s.hbmLeaf false) then some 71
  else if !s.pagesAre c c.pool c.poolLen (s.hbmLeaf true) then some 384
  else none
def State.addCtx (s : State) (c : Ctx) : State := ({ s with pkg := { s.pkg with ctxs := s.pkg.ctxs ++ [c] } } : State).writeCaps c
def State.ctxCreate (s : State) (f : CmdFrame) : State :=
  if !s.pkg.cfgOk then s.deny f 434
  else if !createArgsOk f then s.reply f 2 []
  else
    let c := s.ctxOfArgs f
    match s.createRefusal c with
    | some r => s.deny f r
    | none => (s.addCtx c).reply f 0 [c.id.toNat]

/-! ### Tear-down (16 R393) -/

def State.addJob (s : State) (f : CmdFrame) (j : Job) : Nat × State :=
  let id := s.disp.nextId
  (id, { s with disp := { s.disp with nextId := id + 1 },
                pkg := { s.pkg with jobs := s.pkg.jobs ++ [{ id := id, seq := f.seq, ctx := f.ctx, tag := f.tag, job := j }] } })
/-- Everything of the context that waits in the dispatcher is discarded, each launch reporting TEARDOWN. -/
def State.discard (s : State) (c : BitVec 16) : State :=
  let fifos := (List.range 64).flatMap fun q => (s.queueOf (BitVec.ofNat 6 q)).fifo.filter (·.ctx == c)
  let packets := s.disp.intake.filter (·.ctx == c)
  let s := fifos.foldl (fun s r => s.report r.queue c r.tag 8) s
  let s := packets.foldl (fun s r => s.report r.target c r.tag 8) s
  let s := (s.disp.launches.filter (·.ctx == c)).foldl (fun s l => s.report l.queue c l.tag 8) s
  let s := (s.disp.graphs.filter (·.ctx == c)).foldl (fun s g => s.report g.queue c g.tag 8) s
  { s with disp := { s.disp with
      queues := s.disp.queues.map fun q => { q with fifo := q.fifo.filter (·.ctx != c) }, intake := s.disp.intake.filter (·.ctx != c),
      launches := s.disp.launches.filter (·.ctx != c), graphs := s.disp.graphs.filter (·.ctx != c), saves := s.disp.saves.filter (·.2.1 != c) } }
/-- The context is being torn down: its groups stop. -/
def State.tearDown (s : State) (f : CmdFrame) (c : Ctx) (answer : Bool) : State :=
  let s := s.setCtx { c with torn := true, faulted := true }
  ((s.discard c.id).faultCtx c.id).addJob { f with ctx := c.id } (.destroy answer) |>.2
/-- Groups of contexts being torn down end once their commands have completed. -/
def State.reapGroups (s : State) : State :=
  let dead := s.allBoxes.filter fun b => b.gang.alive && b.gang.cmdsOut.isEmpty && (match s.ctxOf b.gang.ctx with | some c => c.torn | none => false)
  dead.foldl (fun s b => (s.abandonWaits b).endGroup b.gang.gid true) s
/-- A context without groups and commands goes: its queues, code, connections and pending changes with it. -/
def State.reapCtx (s : State) (c : Ctx) : State :=
  if s.allBoxes.any (fun b => b.gang.ctx == c.id && b.gang.alive) || s.mem.cmds.any (·.ctx == c.id) then s
  else
    let mine := s.pkg.jobs.filter (·.ctx == c.id)
    let s : State := { s with
      disp := { s.disp with queues := s.disp.queues.map fun q => if q.ctx == c.id then Queue.reset else q }
      pkg := { s.pkg with
        ctxs := s.pkg.ctxs.filter (·.id != c.id), jobs := s.pkg.jobs.filter (·.ctx != c.id), peers := s.pkg.peers.filter (·.ctx != c.id)
        codes := updateAll (fun k => k.owner == c.id && k.live) (fun k => { k with live := false, gen := k.gen + 1 }) s.pkg.codes } }
    mine.foldl (fun s j => match j.job with
      | .destroy false => s
      | .destroy true => s.respond j.seq j.ctx j.tag 0 []
      | _ => s.refuse j.seq j.ctx j.tag 393) s
def State.reap (s : State) : State :=
  let s := s.reapGroups
  (s.pkg.ctxs.filter (·.torn)).foldl State.reapCtx s
def State.ctxDestroy (s : State) (f : CmdFrame) : State := s.command f [] (fun _ => true) fun c s => (s.tearDown f c true).reap

/-! ### CODE_LOAD, CODE_UNLOAD (09 R199-R203) -/

/-- The lowest code-table entry without an object, and its generation. -/
def Pkg.freeCode (p : Pkg) : Nat × W16 :=
  let i := (((List.range (p.codes.length + 1)).map (· + 1)).find? fun i => p.codes.all fun c => c.index != i || !c.live).getD 0
  (i, ((p.codes.find? (·.index == i)).map (·.gen)).getD 0)
def State.codeLoad (s : State) (f : CmdFrame) : State :=
  s.command f [[(63, 0)], [(43, 0)]] (fun _ => true) fun c s =>
    let h := BitVec.ofNat 64 (cmdArg f 1)
    let src := (s.regionBytes c h (cmdArg f 2) 256).bind fun b => s.regionBytes c h (cmdArg f 2) (max 256 (ofBytes ((b.drop 8).take 8)))
    match src with
    | none => s.deny f 38
    | some l =>
      let s := s.noteRegion c h (cmdArg f 2) l.length
      let o : Obj := l.toArray
      let (i, gen) := s.pkg.freeCode
      match o.refusal false with
      | some at_ => s.reply f 3 [203, 1, at_]
      | none =>
        if 65535 < i then s.deny f 200
        else
          let e : CodeEnt := { index := i, gen := gen, owner := c.id, live := true, obj := o.code i }
          ({ s with pkg := { s.pkg with codes := e :: s.pkg.codes.filter (·.index != i) } } : State).reply f 0
            [(codeHandle s.pkg.boots i gen.toNat c.id.toNat).toNat]
/-- The object leaves the code table. Groups of an accepted launch that have not started are not mentioned: DESIGN CHOICE, they start from the launch's own
copy (log 116). -/
def State.codeUnload (s : State) (f : CmdFrame) : State :=
  s.command f [[(63, 0)]] (fun _ => true) fun c s =>
    let h := BitVec.ofNat 64 (cmdArg f 1)
    match s.pkg.codeOf h c.id with
    | none => s.deny f 200
    | some _ =>
      ({ s with pkg := { s.pkg with codes := updateAll (fun k => k.index == bits h.toNat 15 0) (fun k => { k with live := false, gen := k.gen + 1 })
                                      s.pkg.codes } } : State).reply f 0 []

/-! ### REGION_SET, INVALIDATE, ROUTINE_SET, TABLE_SET (02 R34, R37, R40; 08 R183) -/

/-- The change is applied now if its slack boundary stands. -/
def State.tryJob (s : State) (id : Nat) : State :=
  match s.jobOf id with
  | none => s
  | some j => match j.job with
    | .invalidate _ _ _ _ => Res.orElse s (execInvalidationComplete id s)
    | .region _ _ _ => Res.orElse s (execRegionChangeApply id s)
    | .table _ _ _ => Res.orElse s (execTableReplacementApply id s)
    | .routine _ _ _ => Res.orElse s (execRoutineInstall id s)
    | .resume gid tr =>
      match s.boxOf gid with
      | none => (s.dropJob id).refuse j.seq j.ctx j.tag 400
      | some b =>
        if b.gang.run == .stopped && b.gang.saved && s.led then
          let cs := (s.setOf gid).map (·.clusters)
          let s := ((s.dropJob id).focusGang gid).returnFromStop tr |>.focusGang s.gang.gid
          let s := s.respond j.seq j.ctx j.tag 0 []
          match cs with
          | some l => s.arbitrateIdle l b.gang.now
          | none => (s.onGang gid fun g => { g with run := .evicted }).waitEvicted gid
        else s
    | .destroy _ => s
def State.addAndTry (s : State) (f : CmdFrame) (j : Job) : State := let (id, s) := s.addJob f j; s.tryJob id

def State.regionSet (s : State) (f : CmdFrame) : State :=
  s.command f [[(39, 0)], [(29, 0)]]
    (fun c => decide (1 ≤ cmdArg f 1) && decide (cmdArg f 1 < c.rtlim) && cmdArg f 2 % 64 == 0 && decide (0x10000 ≤ cmdArg f 2) && decide (cmdArg f 2 + 64 ≤ c.mboxLen))
    fun c s => match s.loadVa c (c.mbox + cmdArg f 2) 64 with
      | none => s.deny f 49
      | some img => (s.noteVa c (c.mbox + cmdArg f 2) 64).addAndTry f (.region c.id (cmdArg f 1) img)
def State.invalidate (s : State) (f : CmdFrame) : State :=
  s.command f [[(51, 0)], [(52, 0)]] (fun _ => decide (1 ≤ cmdArg f 2) && decide (cmdArg f 2 ≤ 2 ^ 52)) fun c s =>
    s.addAndTry f (.invalidate c.id (cmdArg f 1) (cmdArg f 2) ((s.allBoxes.filter fun b => b.gang.ctx == c.id && b.inPhase).map (·.gang.gid)))
def State.routineSet (s : State) (f : CmdFrame) : State :=
  s.command f [[(7, 0)], [(63, 0)], [(43, 0)]] (fun _ => decide (6 ≤ cmdArg f 1)) fun c s =>
    match s.regionBytes c (BitVec.ofNat 64 (cmdArg f 2)) (cmdArg f 3) 256 with
    | none => s.deny f 38
    | some l => (s.noteRegion c (BitVec.ofNat 64 (cmdArg f 2)) (cmdArg f 3) 256).addAndTry f (.routine (cmdArg f 1) ((List.range 32).map fun i => argWord l i) (List.range 64))
/-- A group of the oldest launch of a queue with a TAG that has not ended. -/
def State.tableGroup (s : State) (c : Ctx) (q : BitVec 6) (tag dispNum : Nat) : Option Nat :=
  match s.disp.launches.find? fun l => l.queue == q && l.ctx == c.id && l.tag.toNat == tag with
  | none => none
  | some l => (s.allBoxes.find? fun b => b.gang.launch == l.id && b.gang.alive && b.gang.dispNum.toNat == dispNum).map (·.gang.gid)
def State.tableSet (s : State) (f : CmdFrame) : State :=
  s.command f [[(5, 0), (63, 32)], [(31, 0)], [(0, 0), (15, 8)], [(63, 0)], [(43, 0)]] (fun _ => true) fun c s =>
    let n := bits (cmdArg f 3) 15 8 + 1
    match s.tableGroup c (BitVec.ofNat 6 (bits (cmdArg f 1) 5 0)) (bits (cmdArg f 1) 63 32) (cmdArg f 2) with
    | none => s.deny f 183
    | some g =>
      match s.regionBytes c (BitVec.ofNat 64 (cmdArg f 4)) (cmdArg f 5) (32 * n) with
      | none => s.deny f 38
      | some l =>
        let s := s.noteRegion c (BitVec.ofNat 64 (cmdArg f 4)) (cmdArg f 5) (32 * n)
        let raw := (List.range n).map fun i => ofBytes ((l.drop (32 * i)).take 32)
        if raw.any fun d => bits d 145 0 != 0 then s.deny f 182
        else s.addAndTry f (.table g (bits (cmdArg f 3) 0 0 == 1) (raw.map descOf))

/-! ### QUEUE_SET, PREEMPT, RESUME (16 R376, R387; 17 R400) -/

/-- A descriptor within the ranges of R376. -/
def queueDescOk (d : Nat) : Bool :=
  bits d 127 96 == 0 && bits d 47 40 == 0 && bits d 31 8 == 0 && bits d 3 1 == 0 && decide (bits d 39 32 ≤ 12)
    && (bits d 95 64 == 0xFFFFFFFF || bits d 95 64 % 64 == 0)
/-- The queue as configured: EffRank at RANK, Passed 0 (R385). -/
def Queue.configured (q : Queue) (d : Nat) : Queue :=
  { q with v := bits d 0 0 == 1, rank := BitVec.ofNat 3 (bits d 6 4), notify := bits d 7 7 == 1, log2n := BitVec.ofNat 8 (bits d 39 32),
           ctx := BitVec.ofNat 16 (bits d 63 48), ringOff := BitVec.ofNat 32 (bits d 95 64), effRank := bits d 6 4, passed := 0 }
def State.queueSet (s : State) (f : CmdFrame) : State :=
  let d := cmdArg f 2 + cmdArg f 3 * 2 ^ 64
  s.command f [[(5, 0)], [(63, 0)], [(63, 0)]] (fun _ => queueDescOk d) fun c s =>
    if bits d 63 48 ≠ c.id.toNat then s.deny f 376
    else (s.setQueue (BitVec.ofNat 6 (cmdArg f 1)) fun q => q.configured d).reply f 0 []
/-- A pre-emption request of a queue, or of the whole context, reaches the groups that execute. -/
def State.preempt (s : State) (f : CmdFrame) : State :=
  let whole := bits (cmdArg f 1) 8 8 == 1
  let q : BitVec 6 := BitVec.ofNat 6 (bits (cmdArg f 1) 5 0)
  let hard := bits (cmdArg f 2) 0 0 == 1
  let evict := bits (cmdArg f 2) 1 1 == 1
  s.command f [[(5, 0), (8, 8)], [(1, 0)]] (fun _ => !whole || q == 0) fun c s =>
    if !whole && (s.queueOf q).ctx != c.id then s.deny f 387
    else
      (s.askPreempt (fun g => g.ctx == c.id && (whole || g.queue == q)) hard evict).reply f 0 []
def State.resume (s : State) (f : CmdFrame) : State :=
  s.command f [[(31, 0)]] (fun _ => true) fun c s =>
    let recs := (s.pkg.faults.toList.flatMap id).filter fun r => r.ctx == c.id && (r.cls == 17 || r.cls == 18) && !r.fwc
    match recs.find? (·.seq.toNat == cmdArg f 1) with
    | none => s.deny f 400
    | some r =>
      match s.allBoxes.find? fun b => b.gang.run == .stopped && b.gang.ctx == c.id && b.gang.gidx == r.gidx && b.gang.dispNum == r.dispNum with
      | none => s.deny f 400
      | some b =>
        if !r.resumable || c.faulted then s.deny f 400
        else
          let same := recs.filter fun x => x.gidx == r.gidx && x.dispNum == r.dispNum && x.tstamp == r.tstamp
          s.addAndTry f (.resume b.gang.gid (same.map (·.rank.toNat)))

/-! ### ATTEST, FREQ, CONFIG_WRITE (R431-R434) -/

/-- The measurement of the stages that have booted: each digest extends the one before (R432). -/
def measurement (l : List (BitVec 512 × W32)) : List Byte := l.foldl (fun m d => sha512 (m ++ (toBytes 64 d.1.toNat).reverse)) (List.replicate 64 0)
/-- The identity keys, derived from the seed (R433). -/
def edKey : List Byte := hkdf512 (toBytes 32 Config.seed.toNat) (asciiBytes "YL9 id ed25519")
def mlKey : List Byte := hkdf512 (toBytes 32 Config.seed.toNat) (asciiBytes "YL9 id mldsa65")

/-- What the signatures of an ATTEST response cover; the spec gives its items and no layout (log 38). -/
def State.attestBody (s : State) (f : CmdFrame) : List Byte :=
  let tail := match (s.ctxOf f.ctx).bind fun c => s.loadVa c (c.mbox + 0x10000) 8 with | some b => b | none => List.replicate 8 0
  (List.range 7).flatMap (fun i => toBytes 8 (cmdArg f (i + 1))) ++ tail ++ measurement Config.stages
    ++ Config.stages.flatMap (fun v => toBytes 4 v.2.toNat) ++ sha512 (s.pkg.flash.getD []) ++ toBytes 8 0x3836372D394C59 ++ toBytes 8 s.pkg.cfg.pkg.toNat
def State.attest (s : State) (f : CmdFrame) : State :=
  let s := match s.ctxOf f.ctx with | some c => s.noteVa c (c.mbox + 0x10000) 8 | none => s
  let b := s.attestBody f
  s.sendOut (.frame 0x83 0 f.seq f.ctx f.tag (b ++ Config.signEd edKey b ++ Config.signMl mlKey b))
def State.freq (s : State) (f : CmdFrame) : State :=
  s.command f [[(1, 0)]] (fun _ => true) fun _ s =>
    if !s.pkg.clk.full then s.deny f 427
    else if !s.pkg.cfg.permits (cmdArg f 1) then s.deny f 434
    else (s.requestStep (BitVec.ofNat 2 (cmdArg f 1))).reply f 0 []
/-- The new record is stored to flash; the one in force stays until the next cold reset. After a boot that refused its record no context stands, and the spec does
not say where the new record comes from: it is free (R434; log 113). -/
def State.configWrite (s : State) (f : CmdFrame) : State :=
  match s.ctxOf f.ctx with
  | none =>
    if s.pkg.cfgOk then s.reply f 2 []
    else ({ s with draw := s.draw + 1, pkg := { s.pkg with flash := some ((List.range Config.cfgLength.toNat).map (Config.cfgByte s.draw)) } } : State).reply f 0 []
  | some c =>
    if !cmdOnly f [[(63, 0)], [(43, 0)]] then s.reply f 2 []
    else match s.regionBytes c (BitVec.ofNat 64 (cmdArg f 1)) (cmdArg f 2) Config.cfgLength.toNat with
      | none => s.deny f 38
      | some l =>
        let s := s.noteRegion c (BitVec.ofNat 64 (cmdArg f 1)) (cmdArg f 2) Config.cfgLength.toNat
        ({ s with pkg := { s.pkg with flash := some l } } : State).reply f 0 []

/-! ### PEER_SET (R420) -/

/-- Rings that a connection may use: a readable send ring, and a receive ring that writes may reach on logged pages. -/
def State.ringsOk (s : State) (c : Ctx) (send recv : Nat) : Bool :=
  match s.regionOf c send .read, s.regionOf c recv .write with
  | some a, some b => decide (64 ≤ a.len) && decide (8192 ≤ b.len) && s.farOf c b.base == 0 && (s.frameRecs b).all fun r => r.getLsbD 5
  | _, _ => false
def State.peerSet (s : State) (f : CmdFrame) : State :=
  let door := bits (cmdArg f 5) 26 0
  let prod := bits (cmdArg f 5) 58 32
  s.command f [[(15, 0), (18, 16)], [(47, 0)], [(63, 0)], [(63, 0)], [(26, 0), (58, 32)]] (fun c => c.syncOk door && c.syncOk prod) fun c s =>
    let q : BitVec 16 := BitVec.ofNat 16 (bits (cmdArg f 1) 15 0)
    let old := s.pkg.peers.find? (·.id == q)
    if !s.ringsOk c (cmdArg f 3) (cmdArg f 4) || (match old with | some p => p.ctx != c.id | none => false) then s.deny f 420
    else
      let base := old.getD { id := q, port := 0, addr := 0, send := 0, recv := 0, doorbell := 0, producer := 0, ctx := c.id, nextTx := 0, unacked := [],
                             nextRx := 0, posted := 0, lastRx := [], lost := false }
      let p := { base with port := BitVec.ofNat 3 (bits (cmdArg f 1) 18 16), addr := BitVec.ofNat 48 (cmdArg f 2), send := BitVec.ofNat 64 (cmdArg f 3),
                           recv := BitVec.ofNat 64 (cmdArg f 4), doorbell := s.syncLoc (bits door 26 24) (bits door 23 0), producer := prod, lost := false }
      let s := s.noteLines (s.regionLines c (cmdArg f 3) ++ s.regionLines c (cmdArg f 4)).eraseDups
      ({ s with pkg := { s.pkg with peers := s.pkg.peers.filter (·.id != q) ++ [p] } } : State).reply f 0 []

/-! ### Commands as requests (R417) -/

/-- The leading firmware core executes a command, after every host write before it, while it may commit (R424). One that waits is executed by the core that leads
next. -/
def State.runCommand (s : State) (op : Byte) (f : CmdFrame) : State :=
  let (ok, s) := s.flushHub
  if !ok || !s.led then s.pend f.ctx (.command op f)
  else match op.toNat with
    | 1 => s.ctxCreate f
    | 2 => s.ctxDestroy f
    | 3 => s.codeLoad f
    | 4 => s.codeUnload f
    | 5 => s.regionSet f
    | 6 => s.invalidate f
    | 7 => s.queueSet f
    | 8 => s.preempt f
    | 9 => s.resume f
    | 10 => s.routineSet f
    | 11 => s.tableSet f
    | 12 => s.attest f
    | 13 => s.freq f
    | 14 => s.configWrite f
    | 15 => s.peerSet f
    | _ => s.reply f 1 []
def hostCommand (op : Byte) (f : CmdFrame) (s : State) : Res :=
  .next (s.request f.seq f.ctx f.tag false (s.inlogFull f.ctx) (.command op f) 64 fun s => s.runCommand op f)
def execCtxCreate (f : CmdFrame) (s : State) : Res := hostCommand 1 f s
def execCtxDestroy (f : CmdFrame) (s : State) : Res := hostCommand 2 f s
def execCodeLoad (f : CmdFrame) (s : State) : Res := hostCommand 3 f s
def execCodeUnload (f : CmdFrame) (s : State) : Res := hostCommand 4 f s
def execRegionSet (f : CmdFrame) (s : State) : Res := hostCommand 5 f s
def execInvalidate (f : CmdFrame) (s : State) : Res := hostCommand 6 f s
def execQueueSet (f : CmdFrame) (s : State) : Res := hostCommand 7 f s
def execPreempt (f : CmdFrame) (s : State) : Res := hostCommand 8 f s
def execResume (f : CmdFrame) (s : State) : Res := hostCommand 9 f s
def execRoutineSet (f : CmdFrame) (s : State) : Res := hostCommand 10 f s
def execTableSet (f : CmdFrame) (s : State) : Res := hostCommand 11 f s
def execAttest (f : CmdFrame) (s : State) : Res := hostCommand 12 f s
def execFreq (f : CmdFrame) (s : State) : Res := hostCommand 13 f s
def execConfigWrite (f : CmdFrame) (s : State) : Res := hostCommand 14 f s
def execPeerSet (f : CmdFrame) (s : State) : Res := hostCommand 15 f s

/-! ### Frames as they arrive (R412, R413, R417) -/

/-- An Ethernet frame of at most 9,216 bytes with a good check sequence: source address, EtherType, what follows; a single VLAN tag is passed over. -/
def etherFrame (l : List Byte) : Option (Nat × Nat × List Byte) :=
  let n := l.length
  if 9216 < n ∨ n < 18 ∨ ofBytes (l.drop (n - 4)) ≠ (fcs32 (l.take (n - 4))).toNat then none
  else
    let body := (l.take (n - 4)).drop 12
    let body := if beNat (body.take 2) = 0x8100 then body.drop 4 else body
    some (beNat ((l.drop 6).take 6), beNat (body.take 2), body.drop 2)
/-- The frame type of the device's traffic. -/
def yl9Type : Nat := 0x88B5
/-- A frame at the host port. One that is too long or damaged, of another EtherType (PAUSE among them) or from another address than the host's is dropped; a
header that breaks R413 is answered by NAK: another OPC or VER with UNKNOWN, the rest with ARG, a payload cut short included (log 117). -/
def execHostFrame (l : List Byte) (s : State) : Res :=
  match etherFrame l with
  | none => .next s
  | some (src, typ, body) =>
    if typ ≠ yl9Type ∨ src ≠ s.pkg.cfg.hostAddr.toNat ∨ !s.pkg.booted then .next s
    else
      let h := ofBytes (body.take 32)
      let pay := body.drop 32
      let len := bits h 109 96
      let ben := bits h 110 110 == 1
      let opc := bits h 15 8
      let (seq, ctx, tag) : W32 × BitVec 16 × W64 := (fieldAt h 32 32, fieldAt h 16 16, fieldAt h 128 64)
      let nak := fun (st : W16) => (.next (s.answer 0x85 st s.host.seq ctx tag) : Res)
      let bad := bits h 255 192 != 0 || bits h 127 111 != 0 || bits h 95 94 != 0 || (ben && opc != 1) || (opc == 3 && len != 64)
        || (opc != 2 && decide (pay.length < len + (if ben then (len + 7) / 8 else 0)))
      let enables := (List.range len).map fun i => (nth (pay.drop len) (i / 8) 0).getLsbD (i % 8)
      if body.length < 32 then .next s
      else if bits h 7 0 ≠ 1 ∨ opc = 0 ∨ 3 < opc then nak 1
      else if seq ≠ s.host.seq then nak 5
      else if bad then nak 2
      else if opc = 1 then execWrite seq ctx tag (fieldAt h 64 30) (pay.take len) (if ben then some enables else none) s
      else if opc = 2 then execRead seq ctx tag (fieldAt h 64 30) (BitVec.ofNat 14 len) s
      else
        let w := fun i => BitVec.ofNat 64 (ofBytes ((pay.drop (8 * i)).take 8))
        hostCommand (if (w 0).toNat < 256 then (w 0).setWidth 8 else 0) { seq := seq, ctx := ctx, tag := tag, args := (List.range 7).map fun i => w (i + 1) } s

/-! ### CXL (R418, R419) -/

/-- A back-invalidate snoop of a line of the shared window, at its address, with what the host then writes there. An owned line makes it wait for the
write-back (06 R140); a filtered line leaves the filter, and a recall is recorded. What the host writes comes after all that has left for the line (R140). -/
def execBackInvalidateSnoop (line : Nat) (data : Option (List Byte)) (s : State) : Res :=
  let n := line / 64
  event (isShared line && !s.mem.owned.contains (64 * n)) s fun s =>
    let s := if s.pkg.snoop.contains n then ({ s with pkg := { s.pkg with snoop := s.pkg.snoop.filter (· != n) } } : State).recall n else s
    match data with
    | some l =>
      let m := s.mem.putNow (64 * n) (l.take 64)
      { s with mem := if 64 ≤ l.length then { m with poison := m.poison.filter (· != n) } else m }
    | none => s
/-- Every line behind the port is an uncorrectable error from now on. -/
def execCxlLinkLoss (port : Nat) (s : State) : Res :=
  event (decide (port < 4)) s fun s => { s with mem := { s.mem with lostPorts := (port :: s.mem.lostPorts).eraseDups } }

/-! ### Scale-out (R420, 06 R145) -/

/-- A payload lands in the next slot of the receive ring, after the one before it, and the producer variable counts it. One without bytes is an empty write there
(06 R146). -/
def State.landReceive (s : State) (q : Nat) (data : List Byte) : State :=
  match s.pkg.peers.find? fun p => p.id.toNat == q with
  | none => s
  | some p =>
    match s.ctxOf p.ctx with
    | none => s
    | some c =>
      match s.regionOf c p.recv.toNat .write with
      | none => s
      | some r =>
        let recs := s.frameRecs r
        let off := 8192 * (p.posted % (r.len / 8192))
        let s := s.noteLines (s.regionLines c p.recv.toNat)
        let cells := data.mapIdx fun i b => (frameOf r.base recs (off + i), b)
        let lines := if data = [] then [frameOf r.base recs off / 64 * 64] else (cells.map fun x => x.1 / 64 * 64).eraseDups
        let (id, s) := s.hubAccess c.id p.lastRx (lines.map fun l => (l, cells.filter fun x => x.1 / 64 * 64 == l))
        (s.updPeer p.id fun p => { p with posted := p.posted + 1, lastRx := [id] }).signalVar c.id p.producer [id]
/-- A frame of a peer: the next in its sequence is logged, acknowledged and lands, unless a barrier is open or the input log is full; one that has
come before is acknowledged again; another waits for its retransmission. -/
def execScaleOutReceive (peer : Nat) (seq : W32) (data : List Byte) (s : State) : Res :=
  match s.pkg.peers.find? fun p => p.id.toNat == peer && !p.lost with
  | none => .next s
  | some p =>
    if 8192 < data.length ∨ s.barrier ∨ s.inlogFull p.ctx then .next s
    else if seq = p.nextRx then
      let s := s.logInput p.ctx (.receive peer seq data) data.length
      let s := (s.updPeer p.id fun p => { p with nextRx := p.nextRx + 1 }).sendOut (.scaleOut peer (p.nextRx + 1) [])
      .next (s.landReceive peer data)
    else if (p.nextRx - seq).toNat < 2 ^ 31 then .next (s.sendOut (.scaleOut peer p.nextRx []))
    else .next s
/-- 100 µs without acknowledgement: every frame from the first unacknowledged one is sent again. -/
def execScaleOutRetransmit (peer : Nat) (s : State) : Res :=
  match s.pkg.peers.find? fun p => p.id.toNat == peer && !p.lost with
  | none => .next s
  | some p => .next (p.unacked.foldl (fun s x => s.sendOut (.scaleOut peer x.1 x.2)) s)
/-- The peer has every frame below `seq`: their room in the egress area is free again, and sends that waited for it are made. -/
def execScaleOutAcknowledgement (peer : Nat) (seq : W32) (s : State) : Res :=
  match s.pkg.peers.find? fun p => p.id.toNat == peer && !p.lost with
  | none => .next s
  | some p =>
    let got := fun (x : W32 × List Byte) => decide (x.1 ≠ seq ∧ (seq - x.1).toNat < 2 ^ 31)
    let n := ((p.unacked.filter got).map fun x => x.2.length).sum
    let s := s.updPeer p.id fun p => { p with unacked := p.unacked.filter fun x => !got x }
    .next ((s.freeEgress p.ctx n).sendTodo p.ctx)

/-- A frame at a scale-out port, with the frame rules of R412: it belongs to the connection of that port and of the source's address. -/
def execPortFrame (port : Nat) (l : List Byte) (s : State) : Res :=
  match etherFrame l with
  | none => .next s
  | some (src, typ, body) =>
    match s.pkg.peers.find? fun p => p.port.toNat == port && p.addr.toNat == src && !p.lost with
    | none => .next s
    | some p =>
      if typ ≠ yl9Type then .next s
      else if Config.soAck body then execScaleOutAcknowledgement p.id.toNat (Config.soSeq body) s
      else execScaleOutReceive p.id.toNat (Config.soSeq body) (Config.soData body) s

end Sys2Proof.Machine
end

