-- ==== Sys2Proof/Machine/Layout.lean ====
section
/-! DEFINITION. `LX`, the timed command of the Layout Engine (14 R345-R348): checks, acceptance, samples, writes. -/

namespace Sys2Proof.Machine

/-- Element words, then scale words, of the range of `n` elements from `base` (R346). -/
def rangeWords (e : TileEnt) (base n : Nat) : List Nat × List Nat :=
  let span := fun a b => (List.range (b + 1 - a)).map (a + ·)
  (span (e.wordOf base) (e.wordOf (base + n - 1)),
   if isBlock e.fmt then
     span (e.scaleAt (base / 32) / 256) ((e.scaleAt ((base + n - 1) / 32) + scaleBytes e.fmt - 1) / 256)
   else [])
/-- The cycle after issue at which source word number `i` is sampled, of `ne` element words. -/
def sampleCycle (ne i : Nat) : Nat := if i < ne then 1 + i / 16 else 2 + (ne - 1) / 16 + (i - ne) / 16
/-- First and last cycles of an `LX`, absolute. -/
def LxOp.firstSample (o : LxOp) : Nat := o.iss + 1
def LxOp.lastSample (o : LxOp) : Nat := o.iss + sampleCycle o.nsE (o.ns - 1)
def LxOp.firstWrite (o : LxOp) : Nat := o.iss + 40 + o.k
def LxOp.lastWrite (o : LxOp) : Nat := o.iss + 40 + o.k + o.nd - 1
/-- Words held at cycle `c` (R347). -/
def LxOp.held (o : LxOp) (c : Nat) : Nat :=
  if o.lastWrite < c then 0 else ((List.range o.ns).filter fun i => decide (o.iss + sampleCycle o.nsE i ≤ c)).length
/-- The cluster's LXE accepts `o` beside those already accepted (R346, R347). -/
def lxAccepts (l : List LxOp) (o : LxOp) : Bool :=
  l.all (fun e => decide (e.lastSample < o.firstSample) && decide (e.lastWrite < o.firstWrite))
    && (List.range (o.lastSample + 1 - o.firstSample)).all fun t =>
        decide ((o :: l).foldl (fun a e => a + e.held (o.firstSample + t)) 0 ≤ 512)

/-- The move of an `LX`. -/
def LxOp.move (o : LxOp) : Move :=
  moveOf opLd o.ext [0, 0, 0, 0] (dmwOf o.dmw o.ext 6) o.rm o.sat (.tile o.src o.sBase) (.tile o.dst o.dBase)

/-- `LX` (14 R345). A block-format destination takes whole blocks along its innermost extent (04 R83). -/
def execLx (xa xb : BitVec 4) (rm : XRnd) (sat : Bool) (s : State) : Res :=
  let sd := s.getXp xa
  let dd := s.xpAt (xa.toNat + 1)
  let e0 := s.getXp xb
  let e1 := s.xpAt (xb.toNat + 1)
  let w := s.xpAt (xb.toNat + 2)
  let ext := [bits e0.toNat 15 0, bits e0.toNat 31 16, bits e0.toNat 47 32, bits e0.toNat 63 48, bits e1.toNat 15 0, bits e1.toNat 31 16]
  let n := boxN ext
  match dmwOf w ext 6 with
  | none => raise .x 8 0 0 0 s
  | some d =>
    if bits e1.toNat 63 32 ≠ 0 ∨ n = 0 ∨ descStride sd ≠ 0 ∨ descStride dd ≠ 0 then raise .x 8 0 0 0 s
    else match s.tileCheck (descTile sd) (some (descBase sd + n - 1)), s.tileCheck (descTile dd) (some (descBase dd + n - 1)) with
      | .error cls, _ => raise .x cls 0 (descTile sd) 0 s
      | .ok _, .error cls => raise .x cls 0 (descTile dd) 0 s
      | .ok cs, .ok cd =>
        let o : LxOp :=
          { id := s.gang.nextId, rank := s.rank, iss := s.gang.now, src := cs, dst := cd, sBase := descBase sd, dBase := descBase dd, n := n, ext := ext,
            dmw := w, rm := rm, sat := sat, k := d.cost, ns := 0, nsE := 0, nd := 0, buf := [] }
        let fmtBad := !baseOk cs.ent.fmt (descBase sd) || !baseOk cd.ent.fmt (descBase dd) || (isBlock cd.ent.fmt && (n % 32 != 0 || d.dims.headD 1 % 32 != 0))
          || ((!s.fmtOk cs.ent.fmt || !s.fmtOk cd.ent.fmt) && !o.move.copies)
        if fmtBad then raise .x 8 0 0 0 s
        else
          let (se, ss) := rangeWords cs.ent (descBase sd) n
          let (de, ds) := rangeWords cd.ent (descBase dd) n
          match s.rangeTrap cs.h (se ++ ss) false, s.rangeTrap cd.h (de ++ ds) true with
          | some c, _ => raise .x 9 c 0 (s.rangeLink cs.h (se ++ ss) false) s
          | none, some c => raise .x 9 c 0 (s.rangeLink cd.h (de ++ ds) true) s
          | none, none =>
            let o := { o with ns := (se ++ ss).length, nsE := se.length, nd := (de ++ ds).length }
            if !lxAccepts s.clu.lxs o then raise .x 1 11 0 0 s
            else
              let s := s.setGang { s.gang with nextId := s.gang.nextId + 1 }
              let s := s.setClu { (s.clu.capture cs).capture cd with lxs := s.clu.lxs ++ [o] }
              let s := ((se ++ ss).zipIdx).foldl (fun s x => s.charge (sampleCycle o.nsE x.2) false cs x.1) s
              let s := ((de ++ ds).zipIdx).foldl (fun s x => s.charge (40 + o.k + x.2) true cd x.1) s
              let s := (List.range (sampleCycle o.nsE (o.ns - 1))).foldl (fun s t => s.later (t + 1) true (.lxSample o.id (t + 1))) s
              .next ((s.later (39 + o.k) true (.lxWrite o.id 0)).later (39 + o.k + o.nd) true (.lxWrite o.id 1))

/-- The samples of an `LX` at issue+`t`. -/
def State.lxSample (s : State) (id t : Nat) : State :=
  match s.clu.lxs.find? (·.id == id) with
  | none => s
  | some o =>
    let (se, ss) := rangeWords o.src.ent o.sBase o.n
    let ws := ((se ++ ss).zipIdx.filter fun x => sampleCycle o.nsE x.2 == t).map (·.1)
    let data := s.clu.dataOf o.src
    let got := ws.flatMap fun w => cellsAt (256 * w) (tileWord data w)
    (s.setClu { s.clu with lxs := updateAll (fun x => x.id == id) (fun x => { x with buf := x.buf.store got }) s.clu.lxs }).notePoison o.src ws
/-- One cycle before its first write the LXE has every sample: the updates of each destination word are queued as of its bundle. -/
def State.lxResult (s : State) (id : Nat) : State :=
  match s.clu.lxs.find? (·.id == id) with
  | none => s
  | some o =>
    let m := o.move
    let cp := m.copies
    let rd := fun (a : Int) => (o.buf.get a.toNat).toNat
    let ups := (List.range m.units).flatMap fun b => (m.unit cp rd b).1
    let (de, ds) := rangeWords o.dst.ent o.dBase o.n
    (de ++ ds).zipIdx.foldl (fun s x =>
      let us := (ups.filter fun p => p.1.toNat / 2048 == x.1).map fun (p : Put) => ({ o := p.1.toNat, w := p.2.1, v := p.2.2 } : BitUpd)
      s.laterIss o.iss (1 + x.2) (.tile o.dst us)) s
/-- The `LX` is finished. -/
def State.lxEnd (s : State) (id : Nat) : State :=
  match s.clu.lxs.find? (·.id == id) with
  | none => s
  | some o => s.setClu { (s.clu.release o.src).release o.dst with lxs := s.clu.lxs.filter (·.id != id) }

end Sys2Proof.Machine
end

