-- ==== Sys2Proof/Machine/Perform.lean ====
section
/-! DEFINITION. What the timed actions of a core do in the cycle they are due (05 R106-R110): first the samples, then the writes. -/

namespace Sys2Proof.Machine

/-! ### Samples -/

/-- The action samples in its cycle; the others write. -/
def Act.samples : Act → Bool
  | .samplePort _ _ _ _ _ | .sampleLdt _ _ _ _ | .mxFetch _ _ | .gatherRead _ _ | .drainSample _ | .lxSample _ _ | .mstat _ | .ucodeR _ _ _ => true
  | _ => false
/-- A scheduled read of vector `k`: of the words `ws` of the tile that was captured when it was scheduled. The data of one of an earlier arm is
discarded (10 R239). -/
def State.samplePort (s : State) (n arm k : Nat) (c : Cap) (ws : List Nat) : State :=
  let p := s.getPort n
  let s := if p.cap.isSome && p.arm = arm then
      let (x, f) := decodeVec p.active c.ent (s.clu.dataOf c) k
      s.setCore (s.core.setPort n { p with buf := p.buf ++ [(k, x, f)] })
    else s
  s.notePoison c ws
/-- The bank read of an `LDT`: its register write and flags follow (05 R108, 11 R269). -/
def State.sampleLdt (s : State) (c : Cap) (k : Nat) (d : BitVec 5) (iss : Nat) : State :=
  let (w, f) := readLane c.ent (s.clu.dataOf c) k
  let v : W64 := if isInt c.ent.fmt && c.ent.fmt != 9 then w.signExtend 64 else w.setWidth 64
  let dt := if c.ent.lvl then 3 else 1
  let s := s.laterIss iss dt (.a d v)
  let s := if f = 0 then s else s.laterIss iss dt (.flags f)
  s.notePoison c (c.ent.wordsOf k)
def State.doSample (s : State) (p : Pend) : State :=
  match p.act with
  | .samplePort n arm k c ws => s.samplePort n.toNat arm k c ws
  | .sampleLdt c k d iss => s.sampleLdt c k d iss
  | .mxFetch id t => s.mxFetch id t
  | .gatherRead id i => s.gatherRead id i
  | .drainSample id => s.drainSample id
  | .lxSample id t => s.lxSample id t
  | .mstat mp => s.laterIss p.iss 0 (.mp mp s.core.mxu.status)
  | .ucodeR mp r i => s.laterIss p.iss 0 (.mp mp (s.ucodeAt s.pkgCore r.toNat i.toNat))
  | _ => s

/-! ### Writes -/

/-- A tile write (03 R63, 17 R406). -/
def State.writeTile (s : State) (c : Cap) (l : List BitUpd) : State :=
  match s.clu.capTile? c with
  | none => s
  | some t =>
    (s.setClu (s.clu.onCap c fun t => t.put l)).meet (if t.merges l then some (.scratch s.clu.phys) else none)
/-- An arm performs (10 R239). -/
def State.armPort (s : State) (n : Nat) (ps : Vector W64 5) (c : Cap) : State :=
  let p := s.getPort n
  let s := match p.cap with | some k => s.setClu (s.clu.release k) | none => s
  s.setCore (s.core.setPort n { p with active := ps, armed := true, pos := 0, cap := some c, armIss := s.gang.now, arm := p.arm + 1, buf := [] })
def State.stageWrite (s : State) (port : BitVec 4) (i : BitVec 3) (v : W64) : State :=
  let p := s.getPort port.toNat
  if h : i.toNat < 5 then s.setCore (s.core.setPort port.toNat { p with stage := p.stage.set i.toNat v h }) else s
def zeroAcc : Acc := Vector.replicate 128 (Vector.replicate 128 0)
/-- A write to ROT (10 R245). -/
def Core.setRot (c : Core) (v : W64) : Core :=
  { c with rotc := v.setWidth 32, rote := if fieldAt v.toNat 32 7 = (0x7F : BitVec 7) then none else some (fieldAt v.toNat 32 7) }

def State.doWrite (s : State) (p : Pend) : State :=
  let c := s.core
  match p.act with
  | .c i v => s.setCore (c.setC i v)
  | .p i b => s.setCore (c.setP i b)
  | .a i v => s.setCore (c.setA i v)
  | .v u i x m => s.setCore (c.setV u i x m)
  | .m u i x m => s.setCore (c.setM u i x m)
  | .b u i x => s.setCore (c.setB u i x)
  | .e u i x m => s.setCore (c.setE u i x m)
  | .mp i v => s.setCore (c.setMp i v)
  | .xp i v => s.setCore (c.setXp i v)
  | .flags f => s.setCore { c with aflags := c.aflags ||| f.setWidth 64 }
  | .flagsClr v => s.setCore { c with aflags := c.aflags &&& ~~~v }
  | .fbArrive n => s.setCore (c.setFb n (fbArrive (rget c.fb n)))
  | .fbSet n v => s.setCore (c.setFb n (v &&& 0x1FFFFFFFF))
  | .stage port i v => s.stageWrite port i v
  | .stageSys port i v => s.stageWrite port i v
  | .rot v => s.setCore (c.setRot v)
  | .fwReg r v => s.fwWrite r v
  | .tile k l => s.writeTile k l
  | .tileNew h e => s.setClu (s.clu.create h e)
  | .tileFree h => s.setClu (s.clu.freeTile h s.gang.now)
  | .uncap k => s.setClu (s.clu.release k)
  | .arm n ps k => s.armPort n ps k
  | .live k b => s.setMxu { c.mxu with live := rset c.mxu.live k b }
  | .mzero k => s.setMxu { c.mxu with acc := rset c.mxu.acc k zeroAcc }
  | .ucodeW r i v => { s with pkg := s.pkg.setUcode s.pkgCore r.toNat i.toNat v }
  | .mxStep id k => s.mxStep id k
  | .mxEnd id => s.mxEnd id
  | .drainEnd id => s.drainEnd id
  | .gatherSet id => s.gatherSet id
  | .lxWrite id j => if j = 0 then s.lxResult id else s.lxEnd id
  | .samplePort _ _ _ _ _ | .sampleLdt _ _ _ _ | .mxFetch _ _ | .gatherRead _ _ | .drainSample _ | .lxSample _ _ | .mstat _ | .ucodeR _ _ _ => s

/-- The register that a write is of: its file and number. -/
def Act.reg : Act → Option (Nat × Nat)
  | .c i _ => some (0, i.toNat)
  | .p i _ => some (1, i.toNat)
  | .a i _ => some (2, i.toNat)
  | .mp i _ => some (3, i.toNat)
  | .xp i _ => some (4, i.toNat)
  | .v u i _ _ => some (if u = .v0 then 5 else 6, i.toNat)
  | .m u i _ _ => some (if u = .v0 then 7 else 8, i.toNat)
  | .b u i _ => some (if u = .v0 then 9 else 10, i.toNat)
  | .e u i _ _ => some (if u = .v0 then 11 else 12, i.toNat)
  | _ => none
/-- Order of the writes of one cycle: a `SYSWR` of a flag barrier, of AFLAGS or of a staging word comes first (05 R118, 10 R246), then the
matrix unit's own steps (13 R313). -/
def Act.rankOf : Act → Nat
  | .fbSet _ _ | .flagsClr _ | .stageSys _ _ _ => 0
  | .mxStep _ _ => 1
  | _ => 2

/-! ### A cycle -/

def State.dueSamples (s : State) : List Pend := s.core.pend.filter fun p => p.time == s.gang.now && p.act.samples
def State.dueWrites (s : State) (k : Nat) : List Pend := s.core.pend.filter fun p => p.time == s.gang.now && !p.act.samples && p.act.rankOf == k
/-- The samples of the core in focus in this cycle. -/
def State.samplePhase (s : State) : State := s.dueSamples.foldl State.doSample s
/-- A copy's write is discarded where the slot that owns the register writes it in the same bundle and cycle, whatever lanes or bits that write masks
(05 R109, 10 R234). -/
def discarded (l : List Pend) (p : Pend) : Bool :=
  !p.own && p.act.reg.isSome && l.any fun q => q.own && q.iss == p.iss && q.act.reg == p.act.reg
/-- The writes of the core in focus in this cycle. Actions of this cycle and before are done. -/
def State.writePhase (s : State) : State :=
  let l := s.dueWrites 0 ++ s.dueWrites 1 ++ s.dueWrites 2
  let s := (l.filter fun p => !discarded l p).foldl State.doWrite s
  s.setCore { s.core with pend := s.core.pend.filter fun p => decide (s.gang.now < p.time) }

/-! ### A register written on its own (10 R245, R246; 18 R422) -/

def State.regWrite (s : State) (r : Nat) (v : W64) : State :=
  match sysAct r v with
  | some (_, a) => s.doWrite { time := s.gang.now, iss := s.gang.now, own := true, act := a }
  | none => s
def execRegisterWrite (r : BitVec 10) (v : W64) (s : State) : Res := event (!s.privBad r) s fun s => s.regWrite r.toNat v

end Sys2Proof.Machine
end

