-- ==== Sys2Proof/Machine/Seal.lean ====
section
/-! DEFINITION. Seals (07 R148, R153-R161, R169): requests, the barrier, the commit and what it releases, the bounds on arrival. -/

namespace Sys2Proof.Machine

/-! ### Requests (R153, R169) -/

/-- A request of Chothes: an `UNSEALED` domain has no such trigger. -/
def execSealRequest (s : State) : Res := .next s.pressSeal
/-- The timer and the host-read limit run in a sealed domain only. -/
def execSealPeriodExpiry (s : State) : Res := event s.dom.sealed s State.requestSeal
def execHostReadLimitExpiry (s : State) : Res :=
  event (s.dom.sealed && s.dom.held.any fun h => match h.eff with | .frame o _ _ _ _ _ => o == 0x81 | _ => false) s State.requestSeal

/-! ### The barrier (R155) -/

/-- The gang executes and has not arrived. -/
def Gang.unarrived (g : Gang) : Bool := g.alive && g.run.executing && !g.sealed
/-- The leader starts one seal for all requests that stand: every gang that executes hears of it, and every die's coordinator (FWEVT[2], R422); requests from
now on are for the next. -/
def execSealStart (s : State) : Res :=
  event (s.dom.st == .requested) s fun s =>
    let s : State := { s with dom := { s.dom with st := .barrier, again := false } }
    [0, 1, 2, 3, 4].foldl (fun s d => s.fwEvent d 2) (s.mapGangs fun g => if g.unarrived then g.hearSeal s else g)
/-- An access that the clock of its die has no room to count belongs to the next interval (06 R129). -/
def MemSys.uncounted (m : MemSys) (acc : Nat) : Bool := match m.acc? acc with | some a => !m.clockRoom a | none => false
/-- Every write of the interval is complete, and every delegated operation has written its reply. -/
def MemSys.quiet (m : MemSys) : Bool :=
  m.wq.all (fun e => m.uncounted e.acc) && m.wlog.isEmpty && m.ops.all (fun o => m.uncounted o.acc) && m.reps.all (!·.write)
/-- A firmware core has issued a write of FWSCMD that has not performed: its operation is of the open interval. -/
def GangBox.fwsToCome (b : GangBox) : Bool := b.core.pend.any fun p => match p.act with | .fwReg r _ => r == 0x223 | _ => false
/-- Every arrival is in: the barrier closes. -/
def State.barrierReady (s : State) : Bool := s.allBoxes.all (fun b => !b.gang.unarrived && !b.fwsToCome) && s.mem.quiet
def execSealBarrierClose (s : State) : Res :=
  event (s.dom.st == .barrier && s.barrierReady) s fun s => { s with dom := { s.dom with st := .closed } }

/-! ### The commit (R155, R161; 03 R68; 06 R129) -/

/-- No listed tag has gone 64 intervals without a visit of the sweep (R150). -/
def State.sweepOk (s : State) : Bool := !s.dom.sealed || s.mem.swept.all fun x => decide ((s.dom.ri - x.2).toNat < 64)
/-- What the seal keeps of a gang: an evicted group's tiles are whole in its save area. -/
def GangBox.snapshot (b : GangBox) : GangBox :=
  if b.gang.run = .evicted then b else { b with clu := b.clu.snapshot, clus := b.clus.map Cluster.snapshot }
def State.snapshot (s : State) : Snap :=
  let mine := s.mem.accs.filter fun a => a.who == .hub && (s.mem.wq.any (·.acc == a.id) || s.mem.ops.any (·.acc == a.id))
  let of := fun (i : Nat) => mine.any (·.id == i)
  { boxes := (s.allBoxes.filter fun b => b.gang.alive).map GangBox.snapshot, disp := s.disp, ctxs := s.pkg.ctxs, peers := s.pkg.peers, accs := mine,
    wq := s.mem.wq.filter fun e => of e.acc, ops := s.mem.ops.filter fun o => of o.acc }
/-- The slot that does not hold the last completed snapshot receives the new one and becomes it. -/
def State.takeSnapshot (s : State) : State :=
  if !s.dom.sealed then s
  else
    let n := some s.snapshot
    let d := s.dom
    let newer := fun (a : Nat) => match s.snapPlace a with | some (b, _, _) => b != d.slotB | none => false
    { s with pkg := { s.pkg with poked := s.pkg.poked.filter fun a => !newer a },
             dom := if d.slotB then { d with snapA := n, slotB := false } else { d with snapB := n, slotB := true } }
/-- Bytes that a record takes of an input-log area. -/
def recSize : InRec → Nat
  | .hostWrite _ _ _ _ d _ => 64 + 64 + d.length
  | .hostRead _ _ _ _ _ => 64 + 64
  | .command _ _ => 64 + 64
  | .receive _ _ d => 64 + d.length
  | .ingest _ _ _ _ _ _ _ => 64 + 64
  | .atomic _ _ _ _ _ => 64 + 8
  | .waita _ _ _ _ => 64
/-- A logged request that has not been performed, a READ whose reads have not all performed, or a command whose change has not been applied, keeps its
record: it belongs to the next interval (R148). -/
def State.stillPending (s : State) (r : InLog) : Bool :=
  s.host.pendq.any (·.in_ == r.in_) || match r.in_ with
    | .hostRead seq c _ _ _ => s.host.reads.any fun h => h.seq == seq && h.ctx == c
    | .command _ f => s.pkg.jobs.any fun j => j.seq == f.seq && j.ctx == f.ctx
    | _ => false
/-- Records of interval `n` are freed. -/
def State.freeInputs (s : State) (n : W32) : State :=
  let l := (s.dom.inlog.filter fun r => r.ri != n || s.stillPending r).map fun r => if r.ri = n then { r with ri := s.dom.ri } else r
  let used := fun (c : BitVec 16) => ((l.filter (·.ctx == c)).map fun r => recSize r.in_).sum
  { s with dom := { s.dom with inlog := l, replay := [] },
           pkg := { s.pkg with ctxs := s.pkg.ctxs.map fun c => { c with inlogUsed := used c.id }, corrected := [] } }
/-- Accesses that the clock had no room for, or that issued after the barrier closed, belong to the new interval. -/
def State.relabel (s : State) : State :=
  let m := s.mem
  let late := fun (a : Access) => m.wq.any (·.acc == a.id) || m.ops.any (·.acc == a.id) || m.rq.any (·.acc == a.id)
  { s with mem := { m with accs := m.accs.map fun a => if late a then { a with ri := s.dom.ri } else a, ops := m.ops.map fun o => { o with ri := s.dom.ri } } }
/-- An effect that reaches the host's memory or a peer, before the frames. -/
def Out.isFrame : Out → Bool
  | .frame _ _ _ _ _ _ => true
  | _ => false
/-- The held effects of interval `n` leave (R161): writes and sends in the order in which they were made, which no causal predecessor breaks (06 R143,
R145), then responses and notifications in the order they were performed. Room in the egress area comes back, but for sends that are not
acknowledged, and sends that waited are made. -/
def State.releaseHeld (s : State) (n : W32) : State :=
  let mine := s.dom.held.filter (·.ri == n)
  let s : State := { s with dom := { s.dom with held := s.dom.held.filter (·.ri != n) } }
  let s := s.pkg.ctxs.foldl (fun s c => s.readArea c (c.egress + 2 ^ 21 * c.egressLost) c.egressUsed) s
  let s := ((mine.filter (!·.eff.isFrame) ++ mine.filter (·.eff.isFrame)).foldl (fun s h => s.release h.acc h.eff) s).recountEgress
  (s.pkg.ctxs.map (·.id)).foldl State.sendTodo s
/-- A logged request or receive is performed. -/
def State.perform (s : State) (r : InLog) : State :=
  match r.in_ with
  | .hostWrite seq c tag off d en => s.hostWrite seq c tag off d en
  | .hostRead seq c tag off len => s.hostRead seq c tag off len
  | .command op f => s.runCommand op f
  | .receive q _ d => s.landReceive q d
  | _ => s
/-- Requests that were kept are performed in order; once one has to wait, those after it wait. -/
def State.performPending (s : State) : State :=
  let l := s.host.pendq
  l.foldl (fun s r => if s.host.pendq.isEmpty then s.perform r else { s with host := { s.host with pendq := s.host.pendq ++ [r] } })
    { s with host := { s.host with pendq := [] } }
/-- The gangs that stopped for the seal go on (R155, item 8), with what their boundary still has to serve (R157). -/
def State.resumeSealed (s : State) : State :=
  let ids := (s.allBoxes.filter (·.gang.sealed)).map (·.gang.gid)
  let s := s.mapGangs fun g => { g with sealed := false, sealLeft := none, req := { g.req with sealReq := false } }
  ids.foldl (fun s g => s.serveGang g fun r => { r with sealReq := false }) s
/-- Launches all of whose groups have ended, and groups picked, that waited for the commit. -/
def State.rearm (s : State) : State := s.disp.launches.foldl (fun s l => if l.ended = l.total then s.soon (.launchEnd l.id) else s) s
/-- The interval ends. An `UNSEALED` domain has no intervals: its barrier resets the clocks, and its counter stays (06 R129, R169). -/
def State.commitSeal (s : State) : State :=
  let n := s.dom.ri
  let s := s.takeSnapshot
  let m := { s.mem with clk := Vector.replicate 5 (Vector.replicate 5 0), undo := Vector.replicate 13 [], syncBit := [] }
  let s : State := { s with mem := m, dom := { s.dom with ri := if s.dom.sealed then nextRi n else n, st := if s.dom.again then .requested else .none, atSeal := true, again := false } }
  (((s.freeInputs n).relabel.releaseHeld n).resumeSealed).rearm.performPending
def execSealCommit (s : State) : Res := event (s.dom.st == .closed && s.sweepOk) s State.commitSeal

/-! ### Bounds (R156) -/

/-- Write events and operations of the context that wait for room in an undo log are discarded; their commands complete with status fault. -/
def State.dropStalled (s : State) (c : BitVec 16) : State :=
  let mine := fun (acc : Nat) => match s.mem.acc? acc with | some a => a.ctx == c | none => false
  let stuck := s.mem.wq.filter fun e => e.logged && mine e.acc && s.undoFull e.line s.dom.ri
  let ops := s.mem.ops.filter fun o => loggedLoc o && mine o.acc && s.undoFullFor o.places o.ri
  let reps := ops.map fun o => o.rep (((s.mem.acc? o.acc).map (·.stream)).getD 0) 0 15 none
  let hit := fun (k : Cmd) => stuck.any (·.acc == k.acc)
  { s with mem := ({ s.mem with wq := s.mem.wq.filter fun e => !stuck.any (·.id == e.id), ops := s.mem.ops.filter fun o => !ops.contains o,
                                reps := s.mem.reps ++ reps.filter fun r => !isFwId r.who,
                                cmds := updateAll hit (fun k => { k with status := 1, fcode := 15 }) s.mem.cmds } : MemSys).settle }
/-- Those of contexts that are torn down, for as long as a barrier waits. -/
def State.dropTorn (s : State) : State :=
  if s.dom.st == .barrier then ((s.pkg.ctxs.filter (·.torn)).map (·.id)).foldl State.dropStalled s else s
/-- `SEAL_TIMEOUT` of the context of gang `gid`: recorded, its gangs stop, and it is torn down. -/
def State.sealTimeout (s : State) (gid : Nat) : State :=
  let t := s.focusGang gid
  match t.ctxOf t.gang.ctx with
  | none => s
  | some c =>
    if c.torn then s
    else
      let r := t.faultRec { cls := 15, cause := 0, slots := 0, addr := 0, aux := 0 } 1
      let t := (((t.logFault t.die r).notifyFault r).fwEvent t.die 1).focusGang s.gang.gid
      (t.dropStalled c.id).tearDown { seq := 0, ctx := c.id, tag := 0, args := [] } c false
/-- The gang in focus has run its SEALOK bound out. -/
def execSealokBoundExpiry (s : State) : Res :=
  event (s.gang.sealLeft == some 0 && s.gang.unarrived) s fun s => s.sealTimeout s.gang.gid
/-- The barrier's wall-clock limit passes: every context with a gang that has not arrived, or whose core state still waits to be written. -/
def execBarrierLimitExpiry (s : State) : Res :=
  event (s.dom.st == .barrier) s fun s =>
    ((s.allBoxes.filter fun b => b.gang.unarrived || (b.gang.sealed && !s.stored b.gang.ctx)).map (·.gang.gid)).foldl State.sealTimeout s

end Sys2Proof.Machine
end

