-- ==== Sys2Proof/Machine/Recovery.lean ====
section
/-! DEFINITION. Uncorrectable errors (17 R404-R409), rollback (07 R163-R172), page migration (03 R73), lost packages and planes (15 R375), cold
reset (18 R427, R432-R434). -/

namespace Sys2Proof.Machine

/-! ### What maps a page -/

/-- The tables below a table of `n` entries: the addresses that its present entries name. -/
def State.subTables (s : State) (base n : Nat) : List Nat :=
  (List.range n).filterMap fun i =>
    let e := s.mem.natAt none (base + 16 * i) 8
    if e % 2 = 0 ∨ bits e 14 1 ≠ 0 ∨ bits e 63 48 ≠ 0 then none else some (bits e 47 15 * 2 ^ 15)
/-- A context's tables of leaf entries, and all its page tables. -/
def State.leafTables (s : State) (c : Ctx) : List Nat := (s.subTables c.root 2048).flatMap fun t => s.subTables t 1024
def State.pageTables (s : State) (c : Ctx) : List Nat := c.root :: s.subTables c.root 2048 ++ s.leafTables c
/-- The present leaf entries of a context: address and entry. -/
def State.leaves (s : State) (c : Ctx) : List (Nat × Nat) :=
  (s.leafTables c).flatMap fun t => (List.range 1024).filterMap fun i =>
    let e := s.mem.natAt none (t + 16 * i) 8
    if e % 2 = 1 then some (t + 16 * i, e) else none
/-- The valid regions of a context, and those of them that are homed in this package (15 R373). -/
def State.allRegions (s : State) (c : Ctx) : List Region :=
  ((List.range c.rtlim).map fun i => Region.ofNat (s.regionEntry c i)).filter (·.v)
def State.regions (s : State) (c : Ctx) : List Region := (s.allRegions c).filter fun r => s.farOf c r.base == 0
/-- The frame records of a context's regions: address and record. -/
def State.records (s : State) (c : Ctx) : List (Nat × Nat) :=
  (s.regions c).flatMap fun r => (s.frameRecs r).zipIdx.map fun x => (r.flist + 8 * x.2, x.1.toNat)
/-- Some region or page of the context maps a frame that meets `bad`. -/
def State.ctxMaps (s : State) (c : Ctx) (bad : Nat → Bool) : Bool :=
  (s.leaves c).any (fun x => bad (leafFrame x.2)) || (s.records c).any fun x => bad (leafFrame x.2)

/-! ### Code memory (09 R204, 17 R407)

A line of code is named by the number of its object's code-table entry and its place in the object (log 41), a core by its number in the package; the firmware
core of die d is 256 + d. Every core has a copy of its own. -/

/-- Lines of the core's code memories are rewritten from the second copy. -/
def Core.rewrite (c : Core) (l : List Nat) : Core :=
  { c with codeBad := c.codeBad.filter fun n => !l.contains n, codeHit := c.codeHit.filter fun n => !l.contains n }
/-- The place of a line in its object. -/
def codePlace (line : Nat) : Nat := line % 2 ^ 32 / 64
/-- The number in the package of a core of the gang. -/
def GangBox.coreNo (b : GangBox) (c : Core) : Nat :=
  match c.id with
  | .fw d => 256 + d
  | .rank _ r => 4 * b.physOf (r / 4) + r % 4
/-- The gang is on its clusters, with this line in its cores' memories. -/
def GangBox.holdsCode (b : GangBox) (line : Nat) : Bool := b.gang.code.idx == line / 2 ^ 32 && b.gang.run != .evicted
/-- The line has an uncorrectable error in the memories of one core. -/
def GangBox.hurtCode (b : GangBox) (line core : Nat) : GangBox :=
  let f := fun (c : Core) => if b.holdsCode line && b.coreNo c == core then { c with codeBad := (codePlace line :: c.codeBad).eraseDups } else c
  { b with core := f b.core, cores := b.cores.map f }
def State.hurtCode (s : State) (line core : Nat) : State := (s.allBoxes.map (·.gang.gid)).foldl (fun s g => s.onBox g fun b => b.hurtCode line core) s
/-- A poisoned entry built from the line may still issue. -/
def CodeObj.mayIssue (o : CodeObj) (c : Core) (n : Nat) : Bool :=
  let live := match c.run with | .timed | .waitSlack | .slack | .halted => true | _ => false
  ((if live then [c.cur] else []) ++ c.idle).any fun h => h.entries.zipIdx.any fun e => e.1.poisoned && (o.entryLines (rankOf c.id) h.seg e.2).contains n
/-- An expansion of the core has read the line with its error, and no entry built from it is still to issue: the error is latent. -/
def GangBox.latentIn (b : GangBox) (line : Nat) : Option CoreId :=
  if b.holdsCode line && !b.inPhase then
    ((b.core :: b.cores).find? fun c => c.codeHit.contains (codePlace line) && !b.gang.code.mayIssue c (codePlace line)).map (·.id)
  else none
/-- At a slack window of the gang the line is rewritten from the second copy, and its address joins the latent-error list. -/
def execLatentCodeRewrite (line : Nat) (s : State) : Res :=
  match s.allBoxes.findSome? fun b => b.latentIn line with
  | none => .next s
  | some who =>
    let s := s.at_ who fun s => s.setCore (s.core.rewrite [codePlace line])
    let at_ := (s.recordsOf 4).1 + 2 ^ 18 + 8 * s.pkg.latent.length
    .next { s with pkg := { s.pkg with latent := s.pkg.latent ++ [line], poked := s.pkg.poked.filter fun a => decide (a < at_) || decide (at_ + 8 ≤ a) } }

/-! ### Errors (17 R404, R405) -/

/-- SOURCE and ADDR of an error. -/
def State.ueSource (s : State) : UeSite → Nat × Nat
  | .hbm l => (1, l)
  | .tier2 l => (2, l)
  | .scratch _ => (3, 0)
  | .code l _ => (4, l)
  | .core _ _ => (5, 0)
  | .link _ _ => (6, 0)
  | .undo k i => (7, s.undoBase k + 128 * i)
  | .sconce _ => (8, 0)
  | .ingest l => (9, l)
  | .package _ => (10, 0)
/-- The package core that an error names, and the die whose log takes the record. -/
def ueCore : UeSite → Nat
  | .scratch k => 4 * k
  | .code _ c => if c < 256 then c else 0
  | .core k q => if k < 64 then 4 * k + q else 0
  | _ => 0
def ueDie : UeSite → Nat
  | .hbm l => homeOf l
  | .scratch k => k / 16
  | .core k _ => if k < 64 then k / 16 else min 4 (k - 64)
  | .undo k _ => if k < 12 then k / 3 else 4
  | .sconce d => min d 4
  | .code _ c => if c < 256 then c / 64 else min 4 (c - 256)
  | _ => 4
/-- Entry `i` of an undo log is lost. -/
def State.strike (s : State) (k i : Nat) : State :=
  if h : k < 13 then
    { s with mem := { s.mem with undo := s.mem.undo.set k (s.mem.undo[k].mapIdx fun n u => if n = i then { u with lost := true } else u) } }
  else s
/-- The dies of a link: of its cluster, or of its pair. -/
def linkDies : Sum (Nat × Nat) (Nat × Nat) → List Nat
  | .inl k => [k.1 / 16]
  | .inr k => [k.1 / 5, k.1 % 5]
/-- What the error does at once: a line is poisoned, or the undo entry that stands there is lost; a cluster or a link is out of service from step 5 of
R165 on, and a link's failure is told to its dies (FWEVT[6]). -/
def State.damage (s : State) (u : UeSite) : State :=
  let line := fun (l : Nat) => match s.undoPlace l with
    | some (k, i, _) => s.strike k i
    | none => { s with mem := { s.mem with poison := (l / 64 :: s.mem.poison).eraseDups } }
  let retire := fun (k : Nat) => ({ s with pkg := { s.pkg with retired := { s.pkg.retired with clusters := (k :: s.pkg.retired.clusters).eraseDups } } } : State)
  match u with
  | .hbm l => line l
  | .tier2 l => line l
  | .ingest l => line l
  | .scratch k => retire k
  | .core k _ => if k < 64 then retire k else s
  | .undo k i => s.strike k i
  | .link g c => (match (s.boxOf g).bind fun b => b.physLink (c / 16) (c % 16) with
    | some x => (linkDies x).foldl (fun s d => s.fwEvent d 6) (s.retireLink x)
    | none => s)
  | _ => s
/-- The gang has a core on a cluster that meets `q`. -/
def GangBox.on (b : GangBox) (q : Nat → Bool) : Bool := b.gang.alive && (b.clu :: b.clus).any fun c => q c.phys
/-- Contexts that read or write a line just now. -/
def State.usersOf (s : State) (l : Nat) : List (BitVec 16) :=
  let at_ := fun (a : Nat) => a / 64 == l / 64
  let accs := ((s.mem.rq.filter fun e => at_ e.addr).map (·.acc)) ++ ((s.mem.wq.filter fun e => at_ e.line).map (·.acc))
    ++ ((s.mem.wlog.filter fun e => at_ e.line).map (·.acc))
  (accs.filterMap fun i => (s.mem.acc? i).map (·.ctx)).eraseDups
/-- Contexts that an error touches in an UNSEALED domain: those that read or wrote the line (all that map it where none does just now), or those
that run on the failed part. -/
def State.touched (s : State) (u : UeSite) : List (BitVec 16) :=
  let all := s.pkg.ctxs.map (·.id)
  let where_ := fun (q : GangBox → Bool) => (s.allBoxes.filter q).map (·.gang.ctx)
  let line := fun (l : Nat) =>
    let us := (s.usersOf l).filter all.contains
    if us.isEmpty then (s.pkg.ctxs.filter fun c => s.ctxMaps c fun f => f == l / 2 ^ 21 * 2 ^ 21).map (·.id) else us
  let die := fun (d : Nat) =>
    if d = 4 then all
    else where_ (fun b => b.on fun k => k / 16 == d) ++ ((s.pkg.ctxs.filter fun c =>
      (let x := nth c.sync.toList d (1, 0); decide (x.1 ≤ x.2)) || s.ctxMaps c fun f => homeOf f == d).map (·.id))
  (match u with
    | .hbm l => line l
    | .tier2 l => line l
    | .scratch k => where_ fun b => b.on (· == k)
    | .core k _ => if 64 ≤ k then die (min 4 (k - 64)) else where_ fun b => b.on (· == k)
    | .link g c => (match (s.boxOf g).bind fun b => b.physLink (c / 16) (c % 16) with
      | some x => where_ fun b => b.gang.alive && b.usesLink x
      | none => [])
    | .undo k _ => die (if k < 12 then k / 3 else 4)
    | .sconce d => die d
    | .package _ => []
    | .code _ _ => []
    | .ingest _ => []).eraseDups.filter all.contains
/-- The core that an error is in, with the gang that runs on it: that of context `ctx`, or the one executing for a rollback. -/
def State.errorGroup (s : State) (u : UeSite) (ctx : BitVec 16) : Option (Nat × Nat) :=
  let find := fun (k q : Nat) =>
    (s.allBoxes.find? fun b => b.on (· == k) && (if ctx = 0 then b.gang.run.executing else b.gang.ctx == ctx)).map fun b =>
      (b.gang.gid, 4 * ((b.clu :: b.clus).find? (·.phys == k) |>.map (·.k)).getD 0 + q)
  match u with
  | .scratch k => find k 0
  | .core k q => find k q
  | _ => none
/-- A record of an error, in the log of its die; released at once (R403). An error in a core that a group runs on names the group and its SFC (R401). -/
def State.recordUe (s : State) (u : UeSite) (disp : Nat) (ctx : BitVec 16) : State :=
  let (src, addr) := s.ueSource u
  let r := { s.errorRec 14 src addr disp with core := BitVec.ofNat 8 (ueCore u), ctx := ctx }
  let r := match s.errorGroup u ctx with
    | some (g, q) =>
      let t := (s.focusGang g).focus q
      { r with sfc := t.gang.sfc, dispNum := t.gang.dispNum, gidx := t.gang.gidx, segment := BitVec.ofNat 32 t.core.seg, entry := BitVec.ofNat 11 t.core.ent,
               desc := t.gang.desc, table := t.gang.active, rank := BitVec.ofNat 8 q, ctx := t.gang.ctx }
    | none => r
  ((s.logFault (ueDie u) r).notifyFault r).fwEvent (ueDie u) 1
def State.faultByUe (s : State) (u : UeSite) (c : BitVec 16) : State := (s.recordUe u 1 c).faultCtx c
/-- A rollback has been triggered and has not run. -/
def State.rolling (s : State) : Bool := s.agenda.any fun t => match t with | .auto (.rollback _) => true | _ => false
/-- A lasting error of a source that R405 hands to the recovery domain. One that arises when a rollback has begun faults every context (07 R167). -/
def State.ue (s : State) (u : UeSite) : State :=
  if s.dom.sealed then (if s.rolling then s.soon (.faultAll u) else (s.recordUe u 2 0).soon (.rollback [])) else (s.touched u).foldl (fun s c => s.faultByUe u c) s
/-- Every context of the domain takes a context fault. -/
def State.faultAll (s : State) (u : UeSite) : State := (s.pkg.ctxs.map (·.id)).foldl (fun s c => s.faultByUe u c) s
def execDataUe (u : UeSite) (s : State) : Res :=
  .next (match u with
    | .code l c => s.hurtCode l c
    | .ingest _ => s.damage u
    | _ => (s.damage u).ue u)

/-! ### Lost packages, peers and planes (15 R375, 17 R409) -/

/-- The access has an event that a package has not acknowledged. -/
def MemSys.waitsFor (m : MemSys) (pkg acc : Nat) : Bool := m.packets.any fun p => p.pkg == pkg && p.acc == acc
/-- A command that waits for a lost package ends with PEER_LOST; what it had still to read there is free, as every byte of that package is. -/
def MemSys.loseCmd (m : MemSys) (pkg : Nat) (c : Cmd) : Cmd :=
  if m.waitsFor pkg c.acc || c.recs.any (m.waitsFor pkg) then
    let data := (m.rq.filter fun e => e.dst == .cmd c.id && homeOf e.addr == farHome pkg).foldl (fun d e => d.store (cellsAt e.addr (m.bytesAt none e.addr e.n))) c.data
    { c with data := data, status := if c.status = 0 then 3 else c.status, fcode := if c.status = 0 then 19 else c.fcode }
  else c
/-- What waits for a lost package ends with PEER_LOST (06 R136, 17 R409): commands, operations with reply value 0, and fences that had its acknowledgement to
wait for, which are marked. Writes that it had not acknowledged are given up; a far load of a bundle returns a free value (log 53). -/
def State.loseFar (s : State) (pkg : Nat) : State :=
  let m := s.mem
  let home := farHome pkg
  let gone := m.ops.filter (·.home == home)
  let reps := gone.map fun o => o.rep (((m.acc? o.acc).map (·.stream)).getD 0) 0 19 (some ((s.focusId o.who).faultRec { cls := 19, cause := 0, slots := 0, addr := 0, aux := 0 } 3))
  let lost := fun (f : Access) => !f.done && (f.fence == some .domain || f.fence == some .system) && (m.waitSet f).any fun a => m.waitsFor pkg a.id
  let here := fun (e : REv) => homeOf e.addr != home
  { s with mem := ({ m with
      accs := m.accs.map fun a => if lost a then { a with lost := true } else a
      wq := m.wq.filter (·.home != home)
      rq := (m.rq.filter fun e => here e || (match e.dst with | .cmd _ => false | _ => true)).map fun e =>
        if here e then e else { e with val := e.val.or (some (m.bytesAt none e.addr e.n)) }
      cmds := m.cmds.map (m.loseCmd pkg)
      ops := m.ops.filter (·.home != home)
      reps := m.reps ++ reps.filter fun r => !isFwId r.who
      packets := m.packets.filter (·.pkg != pkg) } : MemSys).settle }
/-- Lost packages of an `UNSEALED` domain: what has come to wait for one since ends too. -/
def State.loseAllFar (s : State) : State := s.dom.lostPkgs.foldl State.loseFar s
/-- 2 ms after its last response. A package of a sealed domain is an error of source 10; one of an `UNSEALED` domain makes what waits for it end; a peer outside
the domain is reported, and what it has not acknowledged is given up, with what was to be sent to it. -/
def execPeerLossDeclared (pkg : Nat) (s : State) : Res :=
  if s.dom.pkgs.contains pkg && pkg != s.pkg.cfg.pkg.toNat then
    .next (if s.dom.sealed then s.ue (.package pkg)
      else ({ s with dom := { s.dom with lostPkgs := (pkg :: s.dom.lostPkgs).eraseDups } } : State).loseFar pkg)
  else
    match s.pkg.peers.find? fun p => p.id.toNat == pkg && !p.lost with
    | none => .next s
    | some p =>
      let n := (p.unacked.map fun x => x.2.length).sum
      let r := { s.errorRec 19 0 0 3 with ctx := p.ctx }
      let s := s.updPeer p.id fun p => { p with lost := true, unacked := [] }
      let s := match s.ctxOf p.ctx with | some c => s.setCtx { c with todo := c.todo.filter (·.1 != p.id) } | none => s
      let s := ((s.logFault 4 r).notifyFault r).fwEvent 4 1
      .next ((s.freeEgress p.ctx n).sendTodo p.ctx)
/-- The plane leaves the dealing order, its unacknowledged packets are sent again on the remaining planes in turn (R375), and the die that owns it is told
(FWEVT[6]). -/
def execPlaneFailure (plane : Nat) (s : State) : Res :=
  let left := s.dom.planes.filter (· != plane)
  let again := fun (p : Packet) => if p.plane = plane then { p with plane := nth left (p.seq % max 1 left.length) 0 } else p
  .next (({ s with dom := { s.dom with planes := left }, mem := { s.mem with packets := s.mem.packets.map again } } : State).fwEvent (planeDie plane) 6)

/-! ### Page migration (03 R73) -/

/-- A page of class `p` may move to frame `f`. -/
def State.mayMove (s : State) (p f : Nat) : Bool :=
  s.mappable f p && !isShared f && !s.pkg.retired.frames.contains (f / 2 ^ 21)
    && (match p with | 0 => true | 1 => isHbm f | 2 => isTier2 f | _ => false)
/-- The frame holds a page, a page table or a table of regions. -/
def State.frameUsed (s : State) (f : Nat) : Bool :=
  let at_ := fun (a : Nat) => a / 2 ^ 21 * 2 ^ 21 == f
  s.pkg.ctxs.any fun c => (s.pageTables c).any at_ || s.ctxMaps c (· == f) || (s.allRegions c).any (fun r => (List.range r.pages).any fun i => at_ (r.flist + 8 * i))
    || (decide (c.rbase < f + 2 ^ 21) && decide (f < c.rbase + 64 * c.rtlim))
/-- An accepted command touches the frame. -/
def Cmd.touches (c : Cmd) (f : Nat) : Bool :=
  let g := fun (e : GEnd) => e.far == 0 && e.recs.any fun r => leafFrame r.toNat == f
  let e := fun (x : End) => match x with | .glob e => g e | .tile _ _ => false
  e c.src || e c.dst || (match c.ring with | some r => g r.end_ | none => false)
/-- A number of a line of the old frame becomes that of the new. -/
def movedLine (old new n : Nat) : Nat := if n / 2 ^ 15 = old / 2 ^ 21 then n - old / 64 + new / 64 else n
def MemSys.movePage (m : MemSys) (old new : Nat) : MemSys :=
  let inNew := fun (n : Nat) => n / 2 ^ 15 == new / 2 ^ 21
  let cells := (m.bytes.filter fun x => x.1 / 2 ^ 21 == old / 2 ^ 21).map fun x => (x.1 - old + new, x.2)
  { m with bytes := Memory.store (m.bytes.filter fun x => x.1 / 2 ^ 21 != new / 2 ^ 21) cells
           poison := (m.poison.filter fun n => !inNew n).map (movedLine old new)
           tags := (m.tags.filter fun x => !inNew x.1).map fun x => (movedLine old new x.1, x.2)
           swept := (m.swept.filter fun x => !inNew x.1).map fun x => (movedLine old new x.1, x.2) }
/-- An entry or frame record that names the old frame names the new one. -/
def reframe (new e : Nat) : Nat := e - bits e 47 21 * 2 ^ 21 + new
/-- A Sconce operation that is not complete touches the frame. -/
def MemSys.opTouches (m : MemSys) (f : Nat) : Bool := m.ops.any fun o => !isSram o.loc && o.loc / 2 ^ 21 == f / 2 ^ 21
/-- The swap, after a seal has completed and before a gang goes on: every entry and frame record that names the old frame is rewritten, and translations
of it leave the caches. -/
def execPageMigrationSwap (ctx vpn frame : Nat) (s : State) : Res :=
  match s.ctxOf (BitVec.ofNat 16 ctx) with
  | none => .next s
  | some c =>
    match s.ctxLeaf c (vpn * 2 ^ 21) with
    | none => .next s
    | some e =>
      let old := leafFrame e
      let still := s.dom.atSeal && !s.barrier && s.mem.wq.isEmpty && s.mem.wlog.isEmpty && s.mem.rq.isEmpty
        && s.mem.undo.toList.all (·.isEmpty) && s.mem.cmds.all (fun k => !k.touches old) && !s.mem.opTouches old
      event (still && bits e 5 5 == 1 && frame % 2 ^ 21 == 0 && s.mayMove (leafPcls e) frame && !s.frameUsed frame) s fun s =>
        let sites := s.pkg.ctxs.flatMap fun c => (s.leaves c ++ s.records c).filter fun x => leafFrame x.2 == old
        let s : State := { s with mem := s.mem.movePage old frame }
        let at_ := fun (a : Nat) => if a / 2 ^ 21 = old / 2 ^ 21 then a - old + frame else a
        let s := (sites.eraseDups).foldl (fun s x => s.storePa c (at_ x.1) (toBytes 8 (reframe frame x.2)) false) s
        s.pkg.ctxs.foldl (fun s c => s.clearTlb c.id 0 (2 ^ 52)) s

/-! ### Rollback (07 R165) -/

/-- Commands that a rollback leaves alone (18 R417): their number in CMDREQ. -/
def exceptedCmd (op : Byte) : Bool := [3, 4, 10, 13, 14].contains op.toNat
/-- The response of an excepted command. -/
def State.keepsHeld (s : State) (h : Held) : Bool :=
  match h.eff with
  | .frame o _ seq _ _ _ => o == 0x83 && s.dom.inlog.any fun r => match r.in_ with | .command op f => exceptedCmd op && f.seq == seq | _ => false
  | _ => false
/-- Steps 1 and 2: what is on its way is abandoned, but for the firmware cores' own. -/
def MemSys.abandon (m : MemSys) : MemSys :=
  let fw := fun (w : Who) => match w with | .core c => isFwId c | .hub => false
  let mine := m.accs.filter fun a => fw a.who
  let ofFw := fun (i : Nat) => mine.any (·.id == i)
  { m with bytes := m.wlog.foldl (fun b e => b.store e.cells.reverse) m.bytes, wlog := [], accs := mine,
           wq := m.wq.filter fun e => ofFw e.acc, rq := m.rq.filter fun e => ofFw e.acc, cmds := m.cmds.filter fun c => isFwId c.who,
           ops := m.ops.filter fun o => ofFw o.acc, reps := m.reps.filter fun r => isFwId r.who, packets := [] }
/-- An undo entry restores what it holds; one that holds nothing that can be read restores nothing (R152, R167). -/
def MemSys.undoOne (m : MemSys) (ri : W32) (u : Undo) : MemSys :=
  if !u.ok then m
  else
    let m := { m with bytes := m.bytes.write u.addr u.old }
    if u.kind = 1 then m
    else
      let m := m.setTag (u.addr / 64) (if u.otag = BitVec.ofNat 8 (ri.toNat + 128) then none else some u.otag) ri
      { m with poison := if u.bad then (u.addr / 64 :: m.poison).eraseDups else m.poison.filter (· != u.addr / 64) }
/-- Steps 3 and 4: every log from its newest entry to its oldest; then logs, bits, clocks and owned lines are as after a seal. -/
def MemSys.undoAll (m : MemSys) (ri : W32) : MemSys :=
  let m := m.undo.toList.foldl (fun m l => l.reverse.foldl (fun m u => m.undoOne ri u) m) m
  { m with undo := Vector.replicate 13 [], syncBit := [], owned := [], hubLast := [], clk := Vector.replicate 5 (Vector.replicate 5 0) }
/-- The first undo entry that cannot be replayed. -/
def MemSys.undoBad (m : MemSys) : Option (Nat × Nat) :=
  m.undo.toList.zipIdx.findSome? fun x => (x.1.findIdx? fun u => !u.ok).map fun i => (x.2, i)
/-- The last completed snapshot. -/
def Domain.last (d : Domain) : Option Snap := if d.slotB then d.snapB else d.snapA

/-- A core as steps 7 and 9 find it. -/
def Core.rolled (c : Core) : Core :=
  { c with mxu := { Mxu.reset with nextId := c.mxu.nextId }, pend := [], openR := [], heldR := [], wait := .none, far := none, sbw := none, hold := false }
/-- A loop-buffer half expanded again as it stood, by a core whose code memories have errors in the lines `bad`. -/
def Half.anew (o : CodeObj) (bad : List Nat) (r : Nat) (h : Half) : Half :=
  if bad = [] then h.reread
  else { h with entries := h.entries.mapIdx fun i e => { e with poisoned := (o.entryLines r h.seg i).any bad.contains } }
/-- A gang of the snapshot at the time of the rollback; its last run, and the errors in its cores' code memories, are today's. A resident group's accumulators
read +0 (R165, 13 R321), as do those of one that was saved inside a phase: step 9 reloads core state but what step 7 resets (log 118). -/
def State.rolledBox (s : State) (b : GangBox) : GangBox :=
  let now := max b.gang.now s.pkg.cycle
  let cur := s.allBoxes.find? (·.gang.gid == b.gang.gid)
  let fix := fun (c : Core) =>
    let c := if b.gang.run = .evicted then { c with wait := .none, far := none, sbw := none, hold := false } else c.rolled
    match cur.bind fun x => (x.core :: x.cores).find? (·.id == c.id) with
    | some d => { c with codeBad := d.codeBad, codeHit := d.codeHit, cur := c.cur.anew b.gang.code d.codeBad (rankOf c.id),
                         idle := c.idle.map (Half.anew b.gang.code d.codeBad (rankOf c.id)) }
    | none => c
  let g := { b.gang with now := now, cmdsOut := [], ctlsOut := [], xfers := [], occ := [], saved := true, lastRun := (cur.map (·.gang.lastRun)).getD b.gang.lastRun
                         run := match b.gang.run with | .start _ => .start (now + b.gang.roff) | r => r }
  let clean := fun (c : Cluster) => { c with freed := [], tlb := [], charges := [], lxs := [] }
  { gang := g, core := fix (b.core.shift (now - b.gang.now)), cores := b.cores.map fun c => fix (c.shift (now - b.gang.now)), clu := clean b.clu,
    clus := b.clus.map clean }
/-- The dispatcher of the snapshot; aging counts and slices are today's (16 R394), and numbers are not given twice. -/
def State.rolledDisp (s : State) (d : Disp) : Disp :=
  { d with
    queues := Vector.ofFn fun i => { d.queues[i] with effRank := s.disp.queues[i].effRank, passed := s.disp.queues[i].passed }
    sets := d.sets.map fun x => { x with sliceStart := ((s.disp.sets.find? (·.clusters == x.clusters)).map (·.sliceStart)).getD s.pkg.cycle }
    nextId := s.disp.nextId, nextGid := s.disp.nextGid }
/-- Contexts whose fault stands: a `CODE_UE`, or an error under step 6 or R167, of the open interval (17 R407, R410). -/
def State.faultsKept (s : State) : List (BitVec 16) :=
  ((s.pkg.faults.toList.flatMap id).filter fun r => r.ri == s.dom.ri && (r.cls == 13 || (r.cls == 14 && r.disp == 1 && r.source != 9)) && !r.fwc).map (·.ctx)
def State.markFaults (s : State) (l : List (BitVec 16)) : State := (l.filter fun c => (s.ctxOf c).isSome).eraseDups.foldl State.faultCtx s
/-- Connections are as at the seal; sequence numbers, what has left and what has arrived stay as they are. A connection made since has no rings until its
PEER_SET is executed again. -/
def rolledPeers (now old : List Peer) : List Peer :=
  (now.map fun p => match old.find? (·.id == p.id) with
    | some o => { o with nextTx := p.nextTx, unacked := p.unacked, nextRx := p.nextRx, lost := p.lost, lastRx := [] }
    | none => { p with send := 0, recv := 0, doorbell := 2 ^ 60, producer := 0, posted := 0, lastRx := [] })
  ++ old.filter fun o => now.all (·.id != o.id)
/-- The state restored from the snapshot, or from the formation of the domain where there is none (R148). -/
def State.reload (s : State) : State :=
  let sn : Snap := s.dom.last.getD { boxes := [], disp := Disp.reset, ctxs := [], peers := [], accs := [], wq := [], ops := [] }
  let fw := s.allBoxes.filter fun b => b.gang.fw.isSome
  let boxes := (fw ++ sn.boxes.map s.rolledBox).foldl (fun l b => insertBox b l) []
  let ctxs := sn.ctxs.map fun c => match s.ctxOf c.id with
    | some d => { c with inlogUsed := d.inlogUsed, inlogLost := d.inlogLost, egressLost := d.egressLost }
    | none => c
  let jobs := s.pkg.jobs.filter fun j => match j.job with | .routine _ _ _ => true | _ => false
  let m := s.mem
  let ri := s.dom.ri
  let m := { m with accs := m.accs ++ sn.accs.map (fun a => { a with ri := ri }), wq := m.wq ++ sn.wq, ops := m.ops ++ sn.ops.map fun o => { o with ri := ri } }
  let t : State := { s with mem := m, disp := s.rolledDisp sn.disp, pkg := { s.pkg with ctxs := ctxs, jobs := jobs, peers := rolledPeers s.pkg.peers sn.peers } }
  match boxes.find? (·.gang.gid == 4) with
  | some b => { t.setBox b with gangs := boxes.filter (·.gang.gid != 4) }
  | none => t

/-- The gang needs clusters to go on: it is resident and not at its end. -/
def Gang.resident (g : Gang) : Bool :=
  match g.run with
  | .ended | .fw | .evicted | .faulted => false
  | _ => g.kind == 2 || g.next.isSome || g.run == .fresh
/-- The clusters of a gang in logical order. -/
def GangBox.placed (b : GangBox) : List Nat := (List.range b.gang.g).map b.physOf
/-- Step 6 for one gang: it moves where Bureau says; one whose placement no longer stands moves somewhere, waits evicted where there is no room, or faults
where its launch cannot be restarted; another stays, on channels that work. A stopped group stays stopped (17 R397). -/
def State.replaceGang (s : State) (place : List (Nat × List Nat)) (src : UeSite) (gid : Nat) : State :=
  match s.boxOf gid with
  | none => s
  | some b =>
    let out := s.leaveSet gid
    let can := fun (l : List Nat) => out.placeable b.gang.code b.gang.g l && out.roomOn l b.rows
    let moved := fun (r : GangRun) => match b.gang.run with | .stopped => GangRun.stopped | _ => r
    let must := !s.placeable b.gang.code b.gang.g b.placed
    let named := ((place.find? (·.1 == gid)).map (·.2)).filter can
    let t := if must then named.or (out.findPlace b.gang.code b.gang.g b.rows) else named
    if !b.gang.resident then s
    else if must && !b.gang.restartable then s.faultByUe src b.gang.ctx
    else match t with
      | some l =>
        let at_ := fun (c : Cluster) => { c with phys := nth l c.k 0, tlb := [] }
        let s := out.onBox gid fun b =>
          { b with gang := { b.gang with run := moved (if b.gang.kind = 0 then .fresh else .waiting), sealed := false, saved := true, binds := s.bindChans b.gang.code b.gang.g l },
                   clu := at_ b.clu, clus := b.clus.map at_ }
        s.joinSet gid l s.pkg.cycle
      | none =>
        if must then
          let s := out.onGang gid fun g => { g with run := .evicted, sealed := false, saved := true }
          let s := match s.boxOf gid with | some b => s.writeSave b | none => s
          if b.gang.run = .stopped then s.onGang gid fun g => { g with run := .stopped } else s.waitEvicted gid
        else s.onGang gid fun g => { g with binds := s.bindChans g.code g.g b.placed }
/-- What a rollback cannot restore (R167): frames with a line in error. Those of the second tier are dealt over all ports in 1 KiB. -/
def State.badFrame (s : State) (f : Nat) : Bool :=
  s.mem.poison.any (fun n => n / 2 ^ 15 == f / 2 ^ 21 && !isShared (64 * n)) || (isTier2 f && (List.range 16).any fun i => s.mem.bad (f / 64 + i))
/-- Step 5: a frame with a line in error is retired, with those that contexts map behind a lost port. -/
def State.retireBad (s : State) : State :=
  let poisoned := (s.mem.poison.filter fun n => !isShared (64 * n) && decide (64 * n < syncBase)).map (· / 2 ^ 15)
  let lost := ((s.pkg.ctxs.flatMap fun c => (s.leaves c ++ s.records c).map fun x => leafFrame x.2).filter fun f => isTier2 f && s.badFrame f).map (· / 2 ^ 21)
  { s with pkg := { s.pkg with retired := { s.pkg.retired with frames := (poisoned ++ lost ++ s.pkg.retired.frames).eraseDups } } }
def State.loseBad (s : State) (src : UeSite) : State :=
  ((s.pkg.ctxs.filter fun c => s.ctxMaps c s.badFrame).map (·.id)).foldl (fun s c => s.faultByUe src c) s
/-- Step 8: an input of the rolled-back interval is applied again; commands that R417 excepts, and ATTEST, whose response has left, are not, but for those that
had not been executed (`todo`). -/
def InRec.again : InRec → Bool
  | .hostWrite _ _ _ _ _ _ | .hostRead _ _ _ _ _ | .receive _ _ _ => true
  | .command op _ => !exceptedCmd op && op != 12
  | _ => false
def State.replayInputs (s : State) (l todo : List InLog) : State :=
  (l.filter fun r => r.in_.again || todo.any (·.in_ == r.in_)).foldl (fun s r =>
    if s.host.pendq.isEmpty then s.perform r else { s with host := { s.host with pendq := s.host.pendq ++ [r] } }) s
/-- The error that started the rollback, as the newest record with disposition 2 has it. -/
def State.trigger (s : State) : UeSite :=
  match ((s.pkg.faults.toList.flatMap id).filter (·.disp == 2)).foldl (fun (m : Option FaultRec) r =>
      match m with | some x => if x.seq.toNat ≤ r.seq.toNat then some r else m | none => some r) none with
  | some r => (match r.source.toNat with
    | 1 => .hbm r.addr.toNat
    | 2 => .tier2 r.addr.toNat
    | 3 => .scratch (r.core.toNat / 4)
    | 6 => .link 0 0
    | 7 => (match s.undoPlace r.addr.toNat with | some (k, i, _) => .undo k i | none => .undo 12 0)
    | 8 => .sconce 4
    | 10 => .package 0
    | _ => .core (r.core.toNat / 4) (r.core.toNat % 4))
  | none => .core 0 0
/-- The rollback of a sealed domain, with the placements that Bureau chooses. -/
def State.rollback (s : State) (place : List (Nat × List Nat)) : State :=
  let src := s.trigger
  let kept := s.faultsKept
  let lost := s.mem.undoBad
  let todo := s.host.pendq
  let s := (s.allBoxes.foldl State.wornOut s).retireBad
  let log := s.dom.inlog.map fun r => { r with ri := s.dom.ri }
  let s : State := { s with
    mem := s.mem.abandon.undoAll s.dom.ri
    dom := { s.dom with st := if s.dom.st == .none then .none else .requested, again := false, atSeal := false, held := s.dom.held.filter s.keepsHeld, inlog := log, replay := log }
    host := { s.host with pendq := [], reads := [] }
    agenda := s.agenda.filter fun t => match t with | .auto (.launchEnd _) => false | _ => true }
  let s := s.retireBad.reload.recountEgress
  let s := s.pkg.ctxs.foldl (fun s c => s.readArea c (c.inlog + 2 ^ 21 * c.inlogLost) c.inlogUsed) s
  let s := ((s.allBoxes.filter fun b => b.gang.fw.isNone).map (·.gang.gid)).foldl (fun s g => s.replaceGang place src g) s
  let s := s.loseBad src
  let s := ((s.replayInputs log todo).flushHub.2).markFaults kept
  let s := match lost with | some (k, i) => s.faultAll (.undo k i) | none => s
  let s := (s.rearm).resumeSealed
  let s := (s.disp.sets.map (·.clusters)).foldl (fun s l => s.arbitrateIdle l s.pkg.cycle) s
  (s.pkg.ctxs.map (·.id)).foldl State.sendTodo s
def execRollback (place : List (Nat × List Nat)) (s : State) : Res := event s.dom.sealed s fun s => s.rollback place

/-! ### Cold reset (18 R427, R432, R434) -/

/-- The fields of a stored record (log 9), each within its range. -/
def cfgOfFlash (l : List Byte) : CfgRec :=
  let f := Config.cfgField l
  { pkg := BitVec.ofNat 7 (f 0), sealedMode := f 1 % 2 == 0, sealPeriod := 1 + f 2 % 1000, hostReadLimit := 100 + f 3 % 19901,
    barrierLimit := 10 + f 4 % 991, undoGib := 2 ^ (f 5 % 4), slice := 10000 + f 6 % 9990001, sharedGib := f 7 % 1025,
    hostAddr := BitVec.ofNat 48 (f 8) &&& ~~~(BitVec.ofNat 48 (2 ^ 40)), steps := BitVec.ofNat 4 (1 + f 9 % 15), powerLimit := 1000 + f 10 % 1601, tierGib := 0 }
/-- The record in force after a reset: the stored one, or the defaults where none is stored or it was refused. -/
def State.cfgAfterReset (s : State) (ok : Bool) : CfgRec :=
  let c := match ok, s.pkg.flash with | true, some l => cfgOfFlash l | _, _ => CfgRec.default
  { c with tierGib := Config.tierGib % 8193 }
/-- No stage's security version is below the counter of the board (R432). -/
def State.svnOk (s : State) : Bool := Config.stages.all fun v => decide (s.pkg.svnMin.toNat ≤ v.2.toNat)
/-- The counter after a boot: the lowest version where all are above it. -/
def State.svnNext (s : State) : W32 :=
  match Config.stages.map (·.2) with
  | [] => s.pkg.svnMin
  | v :: l => let m := l.foldl (fun a b => if b < a then b else a) v; if s.pkg.svnMin < m then m else s.pkg.svnMin
/-- The record in flash, if there is one, names this device: it carries the SHA-512 of its Ed25519 identity key (R434). -/
def State.recordOurs (s : State) : Bool :=
  match s.pkg.flash with | some l => Config.cfgIdentity l == sha512 (Config.edPublic edKey) | none => true
/-- The domain of a package at a boot: itself, and the others that it then has. -/
def State.bootPkgs (s : State) (own : Nat) : List Nat := own :: (List.range 128).filter fun p => p != own && Config.inDomain s.pkg.boots p
/-- Power and reset: everything but flash, the board's counter, the shared window, which is the host's, and what has left starts anew. `sigOk`: the
signatures of every stage verified; `cfgOk`: so did the configuration record. The hub's firmware core takes the lease, and stack 0 is in service. -/
def execColdReset (sigOk cfgOk : Bool) (s : State) : Res :=
  let r := State.reset
  let bootOk := sigOk && s.svnOk
  let cfgOk := cfgOk && s.recordOurs
  let cfg := s.cfgAfterReset cfgOk
  let shared := s.mem.bytes.filter fun x => isShared x.1
  let lease : Nat := 2 ^ 32 + 2 ^ 8 + 4
  .next { r with
    mem := { r.mem with bytes := if bootOk then Memory.write shared (syncAt 4 0) (toBytes 8 lease) else shared }
    pkg := { r.pkg with flash := s.pkg.flash, boots := s.pkg.boots + 1, svnMin := if bootOk then s.svnNext else s.pkg.svnMin, booted := bootOk, cfgOk := bootOk && cfgOk, cfg := cfg,
                        inService := if bootOk then [0] else [] }
    dom := { r.dom with sealed := cfg.sealedMode, pkgs := s.bootPkgs cfg.pkg.toNat }
    fw := if bootOk then r.fw.set 4 { r.fw[4] with leads := true, word := BitVec.ofNat 64 lease } else r.fw
    host := { r.host with sent := s.host.sent }
    agenda := s.agenda.filter fun t => match t with | .auto _ => false | _ => true
    draw := s.draw }

end Sys2Proof.Machine
end

