-- ==== Sys2Proof/Machine/Issue.lean ====
section
/-! DEFINITION. What stands before a bundle's issue (08 R184, R191, R194; 09 R204, R209, R211, R222; 12 R296-R298; 17 R407): the entry due, its
checks, the ends of chains, frame cycles that are dropped. -/

namespace Sys2Proof.Machine

/-! ### The entry due -/

def State.entry? (s : State) : Option Entry := s.core.cur.entries[s.core.ent]?
/-- The first slot that fails its decoding, else the slot that a check over two slots names. -/
def badSlot (priv fw : Bool) (w : W384) : Option Slot :=
  let slots : List Slot := [.c, .a, .v0, .v1, .m, .x, .f]
  match slots.find? fun sl => match decodeSlotOp w sl with | .error _ => true | .ok _ => false with
  | some sl => some sl
  | none => match decodeBundle priv fw w with
    | .ok _ => none
    | .error .privileged => some .m
    | .error .fwSlot => slots.find? fun sl => slotBits w sl != 0 && sl != .c && sl != .a
    | .error _ => some .v0
/-- The slot of the entry due that makes its bundle illegal (R222, R223). -/
def State.illegal (s : State) (e : Entry) : Option Slot :=
  match badSlot s.gang.code.priv s.gang.code.fwCore e.bundle with
  | some sl => some sl
  | none => if s.core.cur.entryOk s.gang.code.rings.length s.core.ent then none else some .c
/-- The stamp of an entry does not match the frame cycle (R209). -/
def State.stampBad (s : State) (e : Entry) : Bool := match e.stamp with | some n => n != s.gang.sfc.setWidth 12 | none => false
/-- The bundle of an entry that passes its checks. -/
def State.bundleOf (s : State) (e : Entry) : Option Bundle :=
  match decodeBundle s.gang.code.priv s.gang.code.fwCore e.bundle with
  | .ok b => some b
  | .error _ => none
/-- A trap without a faulting slot. -/
def State.plainTrap (s : State) (cls cause addr aux slots : Nat) : TrapRec :=
  { who := s.core.id, info := { cls := cls, cause := cause, slots := slots, addr := addr, aux := aux } }
/-- The address of the line that poisons the entry due (17 R401). -/
def State.badLine (s : State) : Nat :=
  let l := s.gang.code.entryLines s.rank s.core.seg s.core.ent
  codeAddr s.gang.code (((l.find? s.core.codeHit.contains).or l.head?).getD 0)
/-- What stops the entry due before its operations: stamp, poison, an illegal bundle. -/
def State.preTrap (s : State) (e : Entry) : Option TrapRec :=
  if s.stampBad e then some (s.plainTrap 3 0 (s.gang.sfc.toNat % 4096) ((e.stamp.map (·.toNat)).getD 0) 0)
  else if e.poisoned then some (s.plainTrap 13 0 s.badLine 0 0)
  else (s.illegal e).map fun sl => s.plainTrap 1 0 0 0 (slotBit sl)

/-! ### Poisoned code (R407) -/

/-- Both copies of the lines of the entry due are checked and the failing one rewritten. -/
def State.rewriteEntry (s : State) : State := s.setCore (s.core.rewrite (s.gang.code.entryLines s.rank s.core.seg s.core.ent))

/-! ### Ends of chains (R184, R208) -/

/-- A core past its last entry ends its chain at the cycle that is due: its timed chain, after which the slack chain's first segment is expanded
(09 R210), or its slack chain, with which its phase execution ends. A firmware core ends its routine. -/
def State.endChain (s : State) : State :=
  let c := s.core
  let past := decide (c.cur.nent ≤ c.ent)
  if c.run == .timed && past && decide (c.due ≤ s.gang.sfc.toNat) then
    let half := if s.slackSeg = noSeg then none else s.gang.code.expand c.codeBad s.rank s.slackSeg s.gang.now
    let s := if s.slackSeg = noSeg then s else s.readCode s.slackSeg
    s.setCore { s.core with run := .waitSlack, idle := half.toList }
  else if c.run == .slack && past && c.far.isNone && decide (c.due ≤ s.gang.now) then
    if s.isFw then s.setCore { c with run := .idle } else s.abstain
  else s

/-! ### Dropped frame cycles (R296-R298) -/

/-- The entry due of a core in its timed chain can be dropped: it is ready and legal, its F slot is NOP, and every other slot is NOP or has a
false guard. -/
def State.coreDroppable (s : State) : Bool :=
  match s.entry? with
  | none => false
  | some e =>
    s.core.due == s.gang.sfc.toNat && decide (e.ready ≤ s.gang.now) && (s.preTrap e).isNone && !s.core.skipC
      && (match s.bundleOf e with
        | some b => b.f.op == .nop && b.slots.all fun x => x.2.op == .nop || !s.guardTrue x.2.guard
        | none => false)
/-- Nothing timed of the gang is still to come. -/
def State.nothingTimed (s : State) : Bool :=
  s.calm && s.gang.xfers.all fun x => x.done || decide (x.last < s.gang.sfc.toNat)
/-- The next frame cycle of phase code (07 R156). -/
def Gang.nextFrame (g : Gang) : Gang := { g with sfc := g.sfc + 1, sealLeft := g.sealLeft.map (· - 1) }
def isTimed (c : Core) : Bool := c.run == .timed
/-- A far access of a timed chain's bundle has not returned: the gang is held (R193, 11 R270), also where that bundle was the chain's last. -/
def Core.holdsGang (c : Core) : Bool := c.far.isSome && (c.run == .timed || c.run == .waitSlack || (c.run == .signed && c.offTimed))
/-- One of a slack chain's bundle has not: the cluster is held (R194). -/
def Core.holdsClu (c : Core) : Bool := c.far.isSome && (c.run == .slack || (c.run == .signed && !c.offTimed))
/-- The ranks of the gang in focus that meet `q`, ascending. -/
def State.ranksWhere (s : State) (q : Core → Bool) : List Nat :=
  let l := (s.allCores.filter q).map fun c => rankOf c.id
  (List.range (4 * s.gang.g + 1)).filter l.contains
/-- The frame cycle is dropped: at least one core is in its timed chain, and the gang is not held. -/
def State.droppable (s : State) : Bool :=
  let rs := s.ranksWhere isTimed
  s.gang.elastic && s.gang.run == .phase && decide (s.gang.drops < 4) && !rs.isEmpty && rs.all (fun r => (s.focus r).coreDroppable)
    && s.allCores.all (!·.holdsGang) && s.nothingTimed
    && (s.gang.mismatches s.gang.sfc.toNat).isEmpty
def State.dropFrame (s : State) : State :=
  let f := s.gang.sfc.toNat
  let s := Res.orElse s (execLinkMatching s)
  let s := (s.ranksWhere isTimed).foldl (fun s r =>
    let t := s.focus r
    ((t.setCore { t.core with issued := (t.core.seg, t.core.ent) }).onIssue f).focus s.rank) s
  s.setGang { s.gang.nextFrame with drops := s.gang.drops + 1 }
def execDroppedFrameCycle (s : State) : Res := event s.droppable s State.dropFrame

end Sys2Proof.Machine
end

