-- ==== Sys2Proof/Machine/VecF.lean ====
section
/-! DEFINITION. Floating-point forms of the V slots: arithmetic, compares, transcendentals, conversions (12 R280-R286). -/

namespace Sys2Proof.Machine

/-! ### Lanes (12 R275): computed where the mask is set -/

/-- A one-operand form of latency `lat`. -/
def vec1 (o : Un) (lat : Nat) (int : Bool) (f : W32 → W32 × Fl) (s : State) : Res :=
  s.withSrcs o.u [(o.x, int)] fun vs s =>
    let x := nth vs 0 (Lanes.splat 0)
    let m := s.getM o.u o.m
    s.vput o.u o.d lat (Lanes.build fun j => (f (x.lane j)).1) m (orLanes (fun j => (f (x.lane j)).2) m)

/-- A two-operand form. -/
def vec2 (o : Bin) (lat : Nat) (intX intY : Bool) (f : W32 → W32 → W32 × Fl) (s : State) : Res :=
  s.withSrcs o.u [(o.x, intX), (o.y, intY)] fun vs s =>
    let x := nth vs 0 (Lanes.splat 0)
    let y := nth vs 1 (Lanes.splat 0)
    let m := s.getM o.u o.m
    s.vput o.u o.d lat (Lanes.build fun j => (f (x.lane j) (y.lane j)).1) m
      (orLanes (fun j => (f (x.lane j) (y.lane j)).2) m)

/-- A three-operand form. -/
def vec3 (o : Tri) (lat : Nat) (int : Bool) (f : W32 → W32 → W32 → W32 × Fl) (s : State) : Res :=
  s.withSrcs o.u [(o.x, int), (o.y, int), (o.z, int)] fun vs s =>
    let x := nth vs 0 (Lanes.splat 0)
    let y := nth vs 1 (Lanes.splat 0)
    let z := nth vs 2 (Lanes.splat 0)
    let m := s.getM o.u o.m
    s.vput o.u o.d lat (Lanes.build fun j => (f (x.lane j) (y.lane j) (z.lane j)).1) m
      (orLanes (fun j => (f (x.lane j) (y.lane j) (z.lane j)).2) m)

/-! ### Lane functions -/

/-- A sum rounded once; flags of the operation and of the rounding (04 R89, R94, R98). -/
def addLane (md : RMode) (x y : W32) : W32 × Fl :=
  let (v, f) := (valOf x).add (valOf y) md
  let (w, g) := toF32 md v
  (w, f ||| g)
def subLane (md : RMode) (x y : W32) : W32 × Fl :=
  let (v, f) := (valOf x).add (valOf y).neg md
  let (w, g) := toF32 md v
  (w, f ||| g)
def mulLane (md : RMode) (x y : W32) : W32 × Fl :=
  let (v, f) := (valOf x).mul (valOf y)
  let (w, g) := toF32 md v
  (w, f ||| g)
/-- a·b + c or c − a·b, one rounding. A NaN operand gives the canonical NaN with no flag, even where the product is 0·∞ (R280). -/
def fmaLane (md : RMode) (negP : Bool) (x y z : W32) : W32 × Fl :=
  let a := valOf x; let b := valOf y; let c := valOf z
  if a.isNan || b.isNan || c.isNan then (nan32, 0)
  else
    let (p, f) := a.mul b
    let p := if negP then p.neg else p
    let (v, g) := c.add p md
    let (w, h) := toF32 md v
    (w, f ||| (if p.isNan then 0 else g) ||| h)

/-- FMIN and FMAX (R281): the chosen operand's pattern; −0 is below +0. -/
def minLane (x y : W32) : W32 :=
  let a := valOf x; let b := valOf y
  if a.isNan || b.isNan then nan32
  else if a.eqv b then (if a.isNeg then x else y)
  else if a.lt b then x else y
def maxLane (x y : W32) : W32 :=
  let a := valOf x; let b := valOf y
  if a.isNan || b.isNan then nan32
  else if a.eqv b then (if a.isNeg then y else x)
  else if a.lt b then y else x

/-- FRCP, FRSQ, FSQRT, FEXP2, FLOG2, FTANH under RNE with the special operands of 04 R99. -/
def rcpLane (x : W32) : W32 × Fl :=
  match valOf x with
  | .nan => (nan32, 0)
  | .inf n => toF32 .rne (Val.zero n)
  | .fin n m e _ => if m = 0 then ((toF32 .rne (.inf n)).1, fDZ) else toF32 .rne (recip n m e)
def rsqLane (x : W32) : W32 × Fl :=
  match valOf x with
  | .nan => (nan32, 0)
  | .inf n => if n then (nan32, fNV) else (0, 0)
  | .fin n m e _ =>
    if m = 0 then ((toF32 .rne (.inf n)).1, fDZ)
    else if n then (nan32, fNV) else toF32 .rne (rsqrtVal m e)
def sqrtLane (x : W32) : W32 × Fl :=
  match valOf x with
  | .nan => (nan32, 0)
  | .inf n => if n then (nan32, fNV) else (x, 0)
  | .fin n m e _ => if m = 0 then (x, 0) else if n then (nan32, fNV) else toF32 .rne (sqrtVal m e)
def exp2Lane (x : W32) : W32 × Fl :=
  match valOf x with
  | .nan => (nan32, 0)
  | .inf n => if n then (0, 0) else (x, 0)
  | .fin n m e _ => toF32 .rne (exp2Val n m e)
def log2Lane (x : W32) : W32 × Fl :=
  match valOf x with
  | .nan => (nan32, 0)
  | .inf n => if n then (nan32, fNV) else (x, 0)
  | .fin n m e _ =>
    if m = 0 then ((toF32 .rne (.inf true)).1, fDZ)
    else if n then (nan32, fNV) else toF32 .rne (log2Val m e)
def tanhLane (x : W32) : W32 × Fl :=
  match valOf x with
  | .nan => (nan32, 0)
  | .inf n => toF32 .rne (Val.ofInt (if n then -1 else 1))
  | .fin n m e _ => if m = 0 then (x, 0) else toF32 .rne (tanhVal n m e)

/-- FROUND (R286): integral, the sign of a zero result kept, NX when it differs. -/
def roundLane (md : RMode) (x : W32) : W32 × Fl :=
  match valOf x with
  | .nan => (nan32, 0)
  | .inf _ => (x, 0)
  | .fin n m e st =>
    let (k, nx) := roundAt md 0 0 n m e st 0
    ((toF32 .rne (.fin n k 0 false)).1, if nx then fNX else 0)
/-- FSCALE (R286): a·2^n rounded once. -/
def scaleLane (md : RMode) (x n : W32) : W32 × Fl :=
  match valOf x with
  | .fin neg m e st =>
    if m = 0 then (x, 0)
    else toF32 md (.fin neg m (e + max (-1000) (min 1000 n.toInt)) st)
  | v => toF32 md v

/-! ### Arithmetic (R280) -/

def execFadd (o : Bin) (rm : Dir) (s : State) : Res := vec2 o 4 false false (addLane (modeOf rm)) s
def execFsub (o : Bin) (rm : Dir) (s : State) : Res := vec2 o 4 false false (subLane (modeOf rm)) s
def execFmul (o : Bin) (rm : Dir) (s : State) : Res := vec2 o 5 false false (mulLane (modeOf rm)) s
def execFma (o : Tri) (rm : Dir) (s : State) : Res := vec3 o 5 false (fmaLane (modeOf rm) false) s
def execFnma (o : Tri) (rm : Dir) (s : State) : Res := vec3 o 5 false (fmaLane (modeOf rm) true) s

/-! ### Minimum, maximum, sign, class, select (R281, R282) -/

def execFmin (o : Bin) (s : State) : Res := vec2 o 4 false false (fun x y => (minLane x y, 0)) s
def execFmax (o : Bin) (s : State) : Res := vec2 o 4 false false (fun x y => (maxLane x y, 0)) s
def execFabs (o : Un) (s : State) : Res := vec1 o 2 false (fun x => (x &&& 0x7FFFFFFF, 0)) s
def execFneg (o : Un) (s : State) : Res := vec1 o 2 false (fun x => (x ^^^ 0x80000000, 0)) s
def execFclass (o : Un) (s : State) : Res := vec1 o 2 false (fun x => (fclassBit x, 0)) s
def execFsel (o : Bin) (c : BitVec 3) (s : State) : Res :=
  s.withSrcs o.u [(o.x, false), (o.y, false)] fun vs s =>
    let x := nth vs 0 (Lanes.splat 0)
    let y := nth vs 1 (Lanes.splat 0)
    let k := s.getM o.u c
    s.vput o.u o.d 2 (Lanes.build fun j => if k.getLsbD j then x.lane j else y.lane j) (s.getM o.u o.m) 0

/-! ### Compares to masks (R283) -/

/-- The mask whose bit j is `f j`. -/
def maskOf (f : Nat → Bool) : W64 := BitVec.ofNat 64 ((List.range 64).foldl (fun a j => if f j then a + 2 ^ j else a) 0)

def execFcmp (c : FCond) (o : CmpOps) (s : State) : Res :=
  s.withSrcs o.u [(o.x, false), (o.y, false)] fun vs s =>
    let x := nth vs 0 (Lanes.splat 0)
    let y := nth vs 1 (Lanes.splat 0)
    let m := s.getM o.u o.m
    let f := fun j => fcondTrue c (valOf (x.lane j)) (valOf (y.lane j))
    s.mput o.u o.d 4 (maskOf fun j => (f j).1) m (orLanes (fun j => (f j).2) m)

/-! ### Transcendentals (R284): the mode is ignored -/

def execFrcp (o : Un) (_ : Dir) (s : State) : Res := vec1 o 10 false rcpLane s
def execFrsq (o : Un) (_ : Dir) (s : State) : Res := vec1 o 10 false rsqLane s
def execFsqrt (o : Un) (_ : Dir) (s : State) : Res := vec1 o 10 false sqrtLane s
def execFexp2 (o : Un) (_ : Dir) (s : State) : Res := vec1 o 14 false exp2Lane s
def execFlog2 (o : Un) (_ : Dir) (s : State) : Res := vec1 o 14 false log2Lane s
def execFtanh (o : Un) (_ : Dir) (s : State) : Res := vec1 o 14 false tanhLane s

/-! ### Conversion (R285) -/

/-- What one lane of FCVT becomes, with flags and, under FEEDBACK, its new residue. -/
structure CvtLane where
  d : W32
  fl : Fl
  e : W32
deriving DecidableEq, Repr

/-- The exact source value of a lane. -/
def cvtSrc (isI : Bool) (x : W32) : Elem := if isI then .i x.toInt else .f (valOf x)

/-- Target codes 0 to 4: rounded, then decoded again to FP32. -/
def cvtFloat (fmt : BitVec 5) (md : RMode) (row col : Nat) (sat : Bool) (x : Elem) : Nat × Fl :=
  let v := match x with | .f v => v | .i i => Val.ofInt i
  roundTo (floatOf fmt) md row col sat v

/-- Integer targets: clamped silently into SAT from INT32, rounded and clamped into NV from FP32. UINT32 takes an INT32 source's
bits unchanged (04 R79). -/
def cvtInt (fmt : BitVec 5) (md : RMode) (row col : Nat) (x : W32) (isI : Bool) : Nat × Fl :=
  if isI then encodeInt fmt x
  else
    let (lo, hi) := intRange fmt
    let (n, fl) := floatToInt md row col lo hi (valOf x)
    (intCode fmt n, fl)

/-- A lane converted to a simple target. -/
def cvtLane (fmt : BitVec 5) (md : RMode) (row col : Nat) (sat isI : Bool) (x : W32) : W32 × Fl :=
  if isInt fmt then
    let (c, fl) := cvtInt fmt md row col x isI
    (BitVec.ofInt 32 (decodeInt fmt c), fl)
  else
    let (c, fl) := cvtFloat fmt md row col sat (cvtSrc isI x)
    ((toF32 .rne ((floatOf fmt).decode c)).1, fl)

/-- A lane converted to a simple target under FEEDBACK with residue `e` (04 R92). -/
def cvtFeed (fmt : BitVec 5) (sat : Bool) (x e : W32) : CvtLane :=
  let (t, f1) := feedT (valOf x) e
  let (d, f2) := cvtLane fmt .rne 0 0 sat false t
  let (e', f3) := feedE (valOf x) e t (laneVal fmt d)
  { d := d, fl := f1 ||| f2 ||| f3, e := e' }

/-- A block target: lanes 32b to 32b+31 form block b; `t` gives each lane's value, +0 where the mask is off. -/
def cvtBlock (fmt : BitVec 5) (md : RMode) (row : Nat → Nat) (sat : Bool) (t : Nat → Val) (b : Nat) : BlockCode :=
  encodeBlock fmt md (fun i => (row (32 * b + i), 32 * b + i)) sat ((List.range 32).map fun i => t (32 * b + i))
/-- The FP32 value that element `i` of a block decodes to (04 R81, R85). -/
def blockVal (fmt : BitVec 5) (c : BlockCode) (i : Nat) : Val :=
  if fmt.toNat = 13 then (decodeQ4X (fun k => nth c.q k 0) c.s c.o i).1 else decodeMX fmt (nth c.q i 0) c.s
/-- The flag of the decode of a whole block (04 R85). -/
def blockFl (fmt : BitVec 5) (c : BlockCode) : Fl := if fmt.toNat = 13 then (decodeQ4X (fun k => nth c.q k 0) c.s c.o 0).2 else 0

/-- Mode and rows of a conversion. -/
def CvtMode (r : CvtRnd) : RMode := match r with | .dir d => modeOf d | .dither _ => .dith | .feedback _ => .rne

def execFcvt (o : Un) (isI : Bool) (tgt : BitVec 4) (r : CvtRnd) (sat : Bool) (s : State) : Res :=
  let fmt : BitVec 5 := tgt.setWidth 5
  let rows := match r with | .dither x => [(x, true)] | _ => []
  s.withSrcs o.u ((o.x, isI) :: rows) fun vs s =>
    let x := nth vs 0 (Lanes.splat 0)
    let rw := nth vs 1 (Lanes.splat 0)
    let row := fun j => (rw.lane j).toNat
    let md := CvtMode r
    let m := s.getM o.u o.m
    let old := match r with | .feedback e => s.getE o.u e | _ => Lanes.splat 0
    let isF := match r with | .feedback _ => true | _ => false
    let keepE (res : Res) (new : Lanes) (lat : Nat) : Res :=
      match res, r with
      | .next t, .feedback e => .next (t.later (s.putAt o.d lat) true (.e o.u e new m))
      | res, _ => res
    if isBlock fmt then
      let t := fun j => if isF then feedT (valOf (x.lane j)) (old.lane j) else (x.lane j, 0)
      let val := fun j =>
        if m.getLsbD j then
          (if isI then Val.ofInt (x.lane j).toInt else valOf (t j).1)
        else Val.zero false
      let c0 := cvtBlock fmt md row sat val 0
      let c1 := cvtBlock fmt md row sat val 1
      let dec := fun j => if j < 32 then blockVal fmt c0 j else blockVal fmt c1 (j - 32)
      let on (b : Nat) : Bool := (List.range 32).any fun i => m.getLsbD (32 * b + i)
      let fl := (if on 0 then c0.fl ||| blockFl fmt c0 else 0) ||| (if on 1 then c1.fl ||| blockFl fmt c1 else 0) ||| orLanes (fun j => (t j).2) m
      let e := fun j => feedE (valOf (x.lane j)) (old.lane j) (t j).1 (asF32 (dec j))
      let flE : Fl := if isF then orLanes (fun j => (e j).2) m else 0
      keepE (s.vput o.u o.d 6 (Lanes.build fun j => (toF32 .rne (dec j)).1) m
        (fl ||| flE ||| orLanes (fun j => (toF32 .rne (dec j)).2) m)) (Lanes.build fun j => (e j).1) 6
    else if isF then
      let c := fun j => cvtFeed fmt sat (x.lane j) (old.lane j)
      keepE (s.vput o.u o.d 4 (Lanes.build fun j => (c j).d) m (orLanes (fun j => (c j).fl) m)) (Lanes.build fun j => (c j).e) 4
    else
      let c := fun j => cvtLane fmt md (row j) j sat isI (x.lane j)
      s.vput o.u o.d 4 (Lanes.build fun j => (c j).1) m (orLanes (fun j => (c j).2) m)

def execFround (o : Un) (rm : Dir) (s : State) : Res := vec1 o 4 false (roundLane (modeOf rm)) s
def execFscale (o : Bin) (rm : Dir) (s : State) : Res := vec2 o 4 false true (scaleLane (modeOf rm)) s

end Sys2Proof.Machine
end

