-- ==== Sys2Proof/Machine/VecI.lean ====
section
/-! DEFINITION. Integer forms of the V slots, reductions and scans (12 R287-R290, 04 R100, R101). -/

namespace Sys2Proof.Machine

/-- A two-operand integer form: no flag (R287). -/
def int2 (o : Bin) (lat : Nat) (f : W32 → W32 → W32) (s : State) : Res := vec2 o lat true true (fun x y => (f x y, 0)) s
def int1 (o : Un) (f : W32 → W32) (s : State) : Res := vec1 o 2 true (fun x => (f x, 0)) s

def execIadd (o : Bin) (s : State) : Res := int2 o 2 (· + ·) s
def execIsub (o : Bin) (s : State) : Res := int2 o 2 (· - ·) s
def execImul (o : Bin) (s : State) : Res := int2 o 4 (· * ·) s
def execImulh (o : Bin) (s : State) : Res := int2 o 4 (fun x y => BitVec.ofInt 32 (x.toInt * y.toInt / 2 ^ 32)) s
def execImulhu (o : Bin) (s : State) : Res := int2 o 4 (fun x y => BitVec.ofNat 32 (x.toNat * y.toNat / 2 ^ 32)) s
/-- Shift counts are y[4:0]. -/
def cnt5 (y : W32) : Nat := y.toNat % 32
def execIshl (o : Bin) (s : State) : Res := int2 o 2 (fun x y => x <<< cnt5 y) s
def execIshr (o : Bin) (s : State) : Res := int2 o 2 (fun x y => x >>> cnt5 y) s
def execIsar (o : Bin) (s : State) : Res := int2 o 2 (fun x y => x.sshiftRight (cnt5 y)) s
def execIand (o : Bin) (s : State) : Res := int2 o 2 (· &&& ·) s
def execIor (o : Bin) (s : State) : Res := int2 o 2 (· ||| ·) s
def execIxor (o : Bin) (s : State) : Res := int2 o 2 (· ^^^ ·) s
def execIandn (o : Bin) (s : State) : Res := int2 o 2 (fun x y => x &&& ~~~y) s
def execImin (o : Bin) (s : State) : Res := int2 o 2 (fun x y => if x.toInt ≤ y.toInt then x else y) s
def execImax (o : Bin) (s : State) : Res := int2 o 2 (fun x y => if x.toInt ≤ y.toInt then y else x) s
def execIminu (o : Bin) (s : State) : Res := int2 o 2 (fun x y => if x.toNat ≤ y.toNat then x else y) s
def execImaxu (o : Bin) (s : State) : Res := int2 o 2 (fun x y => if x.toNat ≤ y.toNat then y else x) s
/-- Signed, clamped silently to 32 bits. -/
def clamp32 (x : Int) : W32 := BitVec.ofInt 32 (clampInt (-2147483648) 2147483647 x)
def execIadds (o : Bin) (s : State) : Res := int2 o 2 (fun x y => clamp32 (x.toInt + y.toInt)) s
def execIsubs (o : Bin) (s : State) : Res := int2 o 2 (fun x y => clamp32 (x.toInt - y.toInt)) s
def execIabs (o : Un) (s : State) : Res := int1 o (fun x => BitVec.ofNat 32 x.toInt.natAbs) s
def execIclz (o : Un) (s : State) : Res := int1 o (fun x => BitVec.ofNat 32 (leadZeros x)) s
def execIpopc (o : Un) (s : State) : Res := int1 o (fun x => BitVec.ofNat 32 (popCount x)) s

/-- ICMP into a mask (R288). -/
def execIcmp (c : Cond) (o : CmpOps) (s : State) : Res :=
  s.withSrcs o.u [(o.x, true), (o.y, true)] fun vs s =>
    let x := nth vs 0 (Lanes.splat 0)
    let y := nth vs 1 (Lanes.splat 0)
    s.mput o.u o.d 2 (maskOf fun j => condTrue c (x.lane j) (y.lane j)) (s.getM o.u o.m) 0
/-- ISEL: SRCA where the lane of SRCC is non-zero (R288). -/
def execIsel (o : Tri) (s : State) : Res := vec3 o 2 true (fun x y z => (if z = 0 then y else x, 0)) s

/-! ### Reductions and scans (R289, R290) -/

/-- One level of PairTree (04 R100): neighbours combined. -/
def pairUp {α : Type} (op : α → α → α) : List α → List α
  | x :: y :: l => op x y :: pairUp op l
  | l => l
/-- PairTree over 64 entries: six levels. -/
def pairTree {α : Type} (op : α → α → α) (d : α) (l : List α) : α :=
  nth (pairUp op (pairUp op (pairUp op (pairUp op (pairUp op (pairUp op l)))))) 0 d

/-- An FP32 sum carrying its flags. -/
def addF (a b : W32 × Fl) : W32 × Fl := let (w, f) := addLane .rne a.1 b.1; (w, a.2 ||| b.2 ||| f)
/-- Lanes with the identity where `on` is false. -/
def lanesOr (x : Lanes) (on : Nat → Bool) (idt : W32) : List W32 :=
  (List.range 64).map fun j => if on j then x.lane j else idt
def negZero : W32 := 0x80000000

/-- A reduction written to every lane of the destination. -/
def reduce (o : Un) (lat : Nat) (int : Bool) (f : (Nat → Bool) → Lanes → W32 × Fl) (s : State) : Res :=
  s.withSrcs o.u [(o.x, int)] fun vs s =>
    let x := nth vs 0 (Lanes.splat 0)
    let m := s.getM o.u o.m
    let (w, fl) := f (fun j => m.getLsbD j) x
    s.vput o.u o.d lat (Lanes.splat w) (BitVec.allOnes 64) fl

/-- FRSUM's value and flags over the lanes `on` selects. -/
def frsumOf (on : Nat → Bool) (x : Lanes) : W32 × Fl := pairTree addF (0, 0) ((lanesOr x on negZero).map fun w => (w, 0))
/-- A flagless reduction. -/
def treeOf (op : W32 → W32 → W32) (idt : W32) (on : Nat → Bool) (x : Lanes) : W32 × Fl := (pairTree op idt (lanesOr x on idt), 0)

def execFrsum (o : Un) (s : State) : Res := reduce o 16 false frsumOf s
def execFrmax (o : Un) (s : State) : Res := reduce o 8 false (treeOf maxLane 0xFF800000) s
def execFrmin (o : Un) (s : State) : Res := reduce o 8 false (treeOf minLane 0x7F800000) s
def execIrsum (o : Un) (s : State) : Res := reduce o 6 true (treeOf (· + ·) 0) s
def execIrmax (o : Un) (uns : Bool) (s : State) : Res :=
  reduce o 6 true (if uns then treeOf (fun x y => if x.toNat ≤ y.toNat then y else x) 0
    else treeOf (fun x y => if x.toInt ≤ y.toInt then y else x) 0x80000000) s
def execIrmin (o : Un) (uns : Bool) (s : State) : Res :=
  reduce o 6 true (if uns then treeOf (fun x y => if x.toNat ≤ y.toNat then x else y) 0xFFFFFFFF
    else treeOf (fun x y => if x.toInt ≤ y.toInt then x else y) 0x7FFFFFFF) s

/-- A scan (04 R101): lane j combines the lanes up to j (below j if exclusive), the others being the identity. -/
def scan (o : Un) (lat : Nat) (int excl : Bool) (idt : W32) (f : (Nat → Bool) → Lanes → W32 × Fl) (s : State) : Res :=
  s.withSrcs o.u [(o.x, int)] fun vs s =>
    let x := nth vs 0 (Lanes.splat 0)
    let m := s.getM o.u o.m
    let at_ := fun j =>
      if excl then (if j = 0 then (idt, 0) else f (fun i => m.getLsbD i && decide (i < j)) x)
      else f (fun i => m.getLsbD i && decide (i ≤ j)) x
    s.vput o.u o.d lat (Lanes.build fun j => (at_ j).1) (BitVec.allOnes 64) (orLanes (fun j => (at_ j).2) (BitVec.allOnes 64))

def execFscan (o : Un) (s : State) : Res := scan o 18 false false negZero frsumOf s
def execFscanx (o : Un) (s : State) : Res := scan o 18 false true negZero frsumOf s
def execIscan (o : Un) (s : State) : Res := scan o 8 true false 0 (treeOf (· + ·) 0) s
def execIscanx (o : Un) (s : State) : Res := scan o 8 true true 0 (treeOf (· + ·) 0) s

end Sys2Proof.Machine
end

