-- ==== Sys2Proof/Machine/VecMove.lean ====
section
/-! DEFINITION. Movement, mask forms and copies to the A file of the V slots (12 R291-R295). -/

namespace Sys2Proof.Machine

/-- Positions below `n` that satisfy `q`, ascending. -/
def positions (n : Nat) (q : Nat → Bool) : List Nat := (List.range n).filter q
/-- Lane n of the result is the n-th entry, `d` past the end. -/
def packLanes (l : List W32) (d : W32) : Lanes := Lanes.build fun n => nth l n d

/-- COMPRESS form 0: indices of the set mask bits (R291). -/
def execCompressM (u : VU) (d : VDst) (m : BitVec 3) (s : State) : Res :=
  let k := s.getM u m
  atomic s (s.vput u d 3 (packLanes ((positions 64 fun j => k.getLsbD j).map (BitVec.ofNat 32)) 0xFFFFFFFF) (BitVec.allOnes 64) 0)

/-- COMPRESS form 1: positions of the set bits of a 2,048-bit map from a start on. -/
def execCompressB (u : VU) (d : VDst) (x y : VSrc) (s : State) : Res :=
  s.withSrcs u [(x, true), (y, true)] fun vs s =>
    let a := nth vs 0 (Lanes.splat 0)
    let st := ((nth vs 1 (Lanes.splat 0)).lane 0).toNat
    let l := positions 2048 fun k => decide (st ≤ k) && (a.lane (k / 32)).getLsbD (k % 32)
    s.vput u d 3 (packLanes (l.map (BitVec.ofNat 32)) 0xFFFFFFFF) (BitVec.allOnes 64) 0

/-- COMPRESS form 2: lanes at the set mask bits, packed; 0 past them. -/
def execCompressV (o : Un) (s : State) : Res :=
  s.withSrcs o.u [(o.x, false)] fun vs s =>
    let a := nth vs 0 (Lanes.splat 0)
    let k := s.getM o.u o.m
    s.vput o.u o.d 3 (packLanes ((positions 64 fun j => k.getLsbD j).map a.lane) 0) (BitVec.allOnes 64) 0

/-- EXPAND (R292): the n-th packed lane to the n-th set mask bit. -/
def execExpand (o : Un) (s : State) : Res :=
  s.withSrcs o.u [(o.x, false)] fun vs s =>
    let a := nth vs 0 (Lanes.splat 0)
    let k := s.getM o.u o.m
    s.vput o.u o.d 3 (Lanes.build fun j => a.lane (positions j fun i => k.getLsbD i).length) k 0

/-- A one-operand movement: lane j of the result is lane `f j` of the source. -/
def moveLanes (o : Un) (f : Nat → Nat) (s : State) : Res :=
  s.withSrcs o.u [(o.x, false)] fun vs s =>
    let a := nth vs 0 (Lanes.splat 0)
    s.vput o.u o.d 2 (Lanes.build fun j => a.lane (f j)) (s.getM o.u o.m) 0

/-- PERM (R293): the index operand is read as integers. -/
def execPerm (o : Bin) (s : State) : Res :=
  s.withSrcs o.u [(o.x, false), (o.y, true)] fun vs s =>
    let a := nth vs 0 (Lanes.splat 0)
    let y := nth vs 1 (Lanes.splat 0)
    s.vput o.u o.d 3 (Lanes.build fun j => a.lane ((y.lane j).toNat % 64)) (s.getM o.u o.m) 0
def execBcast (o : Un) (n : BitVec 6) (s : State) : Res := moveLanes o (fun _ => n.toNat) s
def execRotl (o : Un) (n : BitVec 6) (s : State) : Res := moveLanes o (fun j => (j + n.toNat) % 64) s
def execMov (o : Un) (s : State) : Res := moveLanes o id s
def execLaneid (u : VU) (d : VDst) (m : BitVec 3) (s : State) : Res :=
  atomic s (s.vput u d 2 (Lanes.build fun j => BitVec.ofNat 32 j) (s.getM u m) 0)
/-- MOVB: a lane to a broadcast register, performing at issue+1. -/
def execMovb (u : VU) (d : BitVec 3) (x : VSrc) (n : BitVec 6) (s : State) : Res :=
  s.withSrcs u [(x, false)] fun vs s => .next (s.later 1 true (.b u d ((nth vs 0 (Lanes.splat 0)).lane n.toNat)))

/-! ### Masks (R294) -/

def mask2 (o : Msk2) (f : W64 → W64 → W64) (s : State) : Res :=
  s.mput o.u o.d 2 (f (s.getM o.u o.x) (s.getM o.u o.y)) (s.getM o.u o.m) 0
def execMskand (o : Msk2) (s : State) : Res := mask2 o (· &&& ·) s
def execMskor (o : Msk2) (s : State) : Res := mask2 o (· ||| ·) s
def execMskxor (o : Msk2) (s : State) : Res := mask2 o (· ^^^ ·) s
def execMskandn (o : Msk2) (s : State) : Res := mask2 o (fun a b => a &&& ~~~b) s
def execMsknot (u : VU) (d x m : BitVec 3) (s : State) : Res := s.mput u d 2 (~~~(s.getM u x)) (s.getM u m) 0
def execMskfrom (u : VU) (d : BitVec 3) (x : VSrc) (m : BitVec 3) (s : State) : Res :=
  s.withSrcs u [(x, true)] fun vs s =>
    let a := nth vs 0 (Lanes.splat 0)
    s.mput u d 2 (maskOf fun j => a.lane j != 0) (s.getM u m) 0
def execMskto (u : VU) (d : VDst) (x m : BitVec 3) (s : State) : Res :=
  let k := s.getM u x
  atomic s (s.vput u d 2 (Lanes.build fun j => if k.getLsbD j then 1 else 0) (s.getM u m) 0)
def execMskpopc (u : VU) (d : VDst) (x m : BitVec 3) (s : State) : Res :=
  atomic s (s.vput u d 2 (Lanes.splat (BitVec.ofNat 32 (popCount (s.getM u x)))) (s.getM u m) 0)

/-! ### Copies to the A file (R295): read at issue, performing at issue+2; an A-slot write of that cycle wins (05 R109) -/

def execCopyAV (u : VU) (d : BitVec 5) (x : BitVec 5) (rot : Bool) (n : BitVec 6) (s : State) : Res :=
  .next (s.later 2 false (.a d (((s.getV u (s.rotated u x rot)).lane n.toNat).setWidth 64)))
def execMskcopyA (u : VU) (d : BitVec 5) (x : BitVec 3) (s : State) : Res := .next (s.later 2 false (.a d (s.getM u x)))

end Sys2Proof.Machine
end

