-- ==== Sys2Proof/Machine/Dispatch.lean ====
section
/-! DEFINITION. One arm per row of the opcode table: what each instruction and event does (95_what_each_step_holds.md). -/

namespace Sys2Proof.Machine

def exec (i : Instr) (s : State) : Host.Outcome State Fault Refusal :=
  match i with
  | .nop => Sys2Proof.Machine.execNop s
  | .br sv => Sys2Proof.Machine.execBr sv s
  | .bri t => Sys2Proof.Machine.execBri t s
  | .call t => Sys2Proof.Machine.execCall t s
  | .ret => Sys2Proof.Machine.execRet s
  | .loop n e ring => Sys2Proof.Machine.execLoop n e ring s
  | .loopr sv e ring => Sys2Proof.Machine.execLoopr sv e ring s
  | .brkLoop t => Sys2Proof.Machine.execBrkLoop t s
  | .pset d x => Sys2Proof.Machine.execPset d x s
  | .pand d x y => Sys2Proof.Machine.execPand d x y s
  | .por d x y => Sys2Proof.Machine.execPor d x y s
  | .pxor d x y => Sys2Proof.Machine.execPxor d x y s
  | .pnot d x => Sys2Proof.Machine.execPnot d x s
  | .sign => Sys2Proof.Machine.execSign s
  | .halt => Sys2Proof.Machine.execHalt s
  | .yield_ => Sys2Proof.Machine.execYield s
  | .sealreq => Sys2Proof.Machine.execSealreq s
  | .enq d => Sys2Proof.Machine.execEnq d s
  | .waitb fb ph => Sys2Proof.Machine.execWaitb fb ph s
  | .arrv fb => Sys2Proof.Machine.execArrv fb s
  | .waita p sv limit => Sys2Proof.Machine.execWaita p sv limit s
  | .fence sc mask fb => Sys2Proof.Machine.execFence sc mask fb s
  | .trap k => Sys2Proof.Machine.execTrap k s
  | .brk k => Sys2Proof.Machine.execBrk k s
  | .sysrd d r => Sys2Proof.Machine.execSysrd d r s
  | .syswr r sv => Sys2Proof.Machine.execSyswr r sv s
  | .frame d k => Sys2Proof.Machine.execFrame d k s
  | .frameCyc d => Sys2Proof.Machine.execFrameCyc d s
  | .cmovi d k => Sys2Proof.Machine.execCmovi d k s
  | .cmov d sv => Sys2Proof.Machine.execCmov d sv s
  | .cadd d sv => Sys2Proof.Machine.execCadd d sv s
  | .caddi d k => Sys2Proof.Machine.execCaddi d k s
  | .csub d sv => Sys2Proof.Machine.execCsub d sv s
  | .ccmp c p x y => Sys2Proof.Machine.execCcmp c p x y s
  | .ccmpi c p x k => Sys2Proof.Machine.execCcmpi c p x k s
  | .psave d => Sys2Proof.Machine.execPsave d s
  | .pload sv => Sys2Proof.Machine.execPload sv s
  | .copyAC d sv => Sys2Proof.Machine.execCopyAC d sv s
  | .add d x y => Sys2Proof.Machine.execAdd d x y s
  | .sub d x y => Sys2Proof.Machine.execSub d x y s
  | .mul d x y => Sys2Proof.Machine.execMul d x y s
  | .mulh d x y u => Sys2Proof.Machine.execMulh d x y u s
  | .shl d x y => Sys2Proof.Machine.execShl d x y s
  | .shr d x y => Sys2Proof.Machine.execShr d x y s
  | .sar d x y => Sys2Proof.Machine.execSar d x y s
  | .and_ d x y => Sys2Proof.Machine.execAnd d x y s
  | .or_ d x y => Sys2Proof.Machine.execOr d x y s
  | .xor_ d x y => Sys2Proof.Machine.execXor d x y s
  | .min_ d x y u => Sys2Proof.Machine.execMin d x y u s
  | .max_ d x y u => Sys2Proof.Machine.execMax d x y u s
  | .cmp c d p x y => Sys2Proof.Machine.execCmp c d p x y s
  | .sel d p x y => Sys2Proof.Machine.execSel d p x y s
  | .clz d x => Sys2Proof.Machine.execClz d x s
  | .popc d x => Sys2Proof.Machine.execPopc d x s
  | .bfx sv d x lo w1 => Sys2Proof.Machine.execBfx sv d x lo w1 s
  | .bfi d x lo w1 => Sys2Proof.Machine.execBfi d x lo w1 s
  | .addi d x k => Sys2Proof.Machine.execAddi d x k s
  | .andi d x k => Sys2Proof.Machine.execAndi d x k s
  | .ori d x k => Sys2Proof.Machine.execOri d x k s
  | .xori d x k => Sys2Proof.Machine.execXori d x k s
  | .shli d x k => Sys2Proof.Machine.execShli d x k s
  | .shri d x k => Sys2Proof.Machine.execShri d x k s
  | .sari d x k => Sys2Proof.Machine.execSari d x k s
  | .cmpi c d p x k => Sys2Proof.Machine.execCmpi c d p x k s
  | .movi d k => Sys2Proof.Machine.execMovi d k s
  | .movhi d k => Sys2Proof.Machine.execMovhi d k s
  | .ldt d t ix off => Sys2Proof.Machine.execLdt d t ix off s
  | .stt sv t ix off => Sys2Proof.Machine.execStt sv t ix off s
  | .fld sz st d b off => Sys2Proof.Machine.execFld sz st d b off s
  | .fst sz st sv b off => Sys2Proof.Machine.execFst sz st sv b off s
  | .genSet port ix sv => Sys2Proof.Machine.execGenSet port ix sv s
  | .genArm port => Sys2Proof.Machine.execGenArm port s
  | .talloc t e q fmt dims lvl retain owner => Sys2Proof.Machine.execTalloc t e q fmt dims lvl retain owner s
  | .tfree t => Sys2Proof.Machine.execTfree t s
  | .copyV0 msk k sv => Sys2Proof.Machine.execCopyV0 msk k sv s
  | .copyV1 msk k sv => Sys2Proof.Machine.execCopyV1 msk k sv s
  | .copyM k sv => Sys2Proof.Machine.execCopyM k sv s
  | .copyX k sv => Sys2Proof.Machine.execCopyX k sv s
  | .copyC k sv => Sys2Proof.Machine.execCopyC k sv s
  | .fadd o rm => Sys2Proof.Machine.execFadd o rm s
  | .fsub o rm => Sys2Proof.Machine.execFsub o rm s
  | .fmul o rm => Sys2Proof.Machine.execFmul o rm s
  | .fma o rm => Sys2Proof.Machine.execFma o rm s
  | .fnma o rm => Sys2Proof.Machine.execFnma o rm s
  | .fmin o => Sys2Proof.Machine.execFmin o s
  | .fmax o => Sys2Proof.Machine.execFmax o s
  | .fabs o => Sys2Proof.Machine.execFabs o s
  | .fneg o => Sys2Proof.Machine.execFneg o s
  | .fsel o c => Sys2Proof.Machine.execFsel o c s
  | .fclass o => Sys2Proof.Machine.execFclass o s
  | .fcmp c o => Sys2Proof.Machine.execFcmp c o s
  | .frcp o rm => Sys2Proof.Machine.execFrcp o rm s
  | .frsq o rm => Sys2Proof.Machine.execFrsq o rm s
  | .fsqrt o rm => Sys2Proof.Machine.execFsqrt o rm s
  | .fexp2 o rm => Sys2Proof.Machine.execFexp2 o rm s
  | .flog2 o rm => Sys2Proof.Machine.execFlog2 o rm s
  | .ftanh o rm => Sys2Proof.Machine.execFtanh o rm s
  | .fcvt o isI tgt rnd sat => Sys2Proof.Machine.execFcvt o isI tgt rnd sat s
  | .fround o rm => Sys2Proof.Machine.execFround o rm s
  | .fscale o rm => Sys2Proof.Machine.execFscale o rm s
  | .iadd o => Sys2Proof.Machine.execIadd o s
  | .isub o => Sys2Proof.Machine.execIsub o s
  | .imul o => Sys2Proof.Machine.execImul o s
  | .imulh o => Sys2Proof.Machine.execImulh o s
  | .imulhu o => Sys2Proof.Machine.execImulhu o s
  | .ishl o => Sys2Proof.Machine.execIshl o s
  | .ishr o => Sys2Proof.Machine.execIshr o s
  | .isar o => Sys2Proof.Machine.execIsar o s
  | .iand o => Sys2Proof.Machine.execIand o s
  | .ior o => Sys2Proof.Machine.execIor o s
  | .ixor o => Sys2Proof.Machine.execIxor o s
  | .iandn o => Sys2Proof.Machine.execIandn o s
  | .imin o => Sys2Proof.Machine.execImin o s
  | .imax o => Sys2Proof.Machine.execImax o s
  | .iminu o => Sys2Proof.Machine.execIminu o s
  | .imaxu o => Sys2Proof.Machine.execImaxu o s
  | .iadds o => Sys2Proof.Machine.execIadds o s
  | .isubs o => Sys2Proof.Machine.execIsubs o s
  | .iabs o => Sys2Proof.Machine.execIabs o s
  | .iclz o => Sys2Proof.Machine.execIclz o s
  | .ipopc o => Sys2Proof.Machine.execIpopc o s
  | .icmp c o => Sys2Proof.Machine.execIcmp c o s
  | .isel o => Sys2Proof.Machine.execIsel o s
  | .frsum o => Sys2Proof.Machine.execFrsum o s
  | .frmax o => Sys2Proof.Machine.execFrmax o s
  | .frmin o => Sys2Proof.Machine.execFrmin o s
  | .irsum o => Sys2Proof.Machine.execIrsum o s
  | .irmax o uns => Sys2Proof.Machine.execIrmax o uns s
  | .irmin o uns => Sys2Proof.Machine.execIrmin o uns s
  | .fscan o => Sys2Proof.Machine.execFscan o s
  | .fscanx o => Sys2Proof.Machine.execFscanx o s
  | .iscan o => Sys2Proof.Machine.execIscan o s
  | .iscanx o => Sys2Proof.Machine.execIscanx o s
  | .compressM u d m => Sys2Proof.Machine.execCompressM u d m s
  | .compressB u d x y => Sys2Proof.Machine.execCompressB u d x y s
  | .compressV o => Sys2Proof.Machine.execCompressV o s
  | .expand o => Sys2Proof.Machine.execExpand o s
  | .perm o => Sys2Proof.Machine.execPerm o s
  | .bcast o n => Sys2Proof.Machine.execBcast o n s
  | .laneid u d m => Sys2Proof.Machine.execLaneid u d m s
  | .rotl o n => Sys2Proof.Machine.execRotl o n s
  | .movb u d x n => Sys2Proof.Machine.execMovb u d x n s
  | .mov o => Sys2Proof.Machine.execMov o s
  | .mskand o => Sys2Proof.Machine.execMskand o s
  | .mskor o => Sys2Proof.Machine.execMskor o s
  | .mskxor o => Sys2Proof.Machine.execMskxor o s
  | .msknot u d x m => Sys2Proof.Machine.execMsknot u d x m s
  | .mskandn o => Sys2Proof.Machine.execMskandn o s
  | .mskfrom u d x m => Sys2Proof.Machine.execMskfrom u d x m s
  | .mskto u d x m => Sys2Proof.Machine.execMskto u d x m s
  | .mskpopc u d x m => Sys2Proof.Machine.execMskpopc u d x m s
  | .copyAV u d x rot n => Sys2Proof.Machine.execCopyAV u d x rot n s
  | .mskcopyA u d x => Sys2Proof.Machine.execMskcopyA u d x s
  | .mcall r acc => Sys2Proof.Machine.execMcall r acc s
  | .mchb => Sys2Proof.Machine.execMchb s
  | .mche => Sys2Proof.Machine.execMche s
  | .mzero acc => Sys2Proof.Machine.execMzero acc s
  | .mdrain t acc mp rm sat => Sys2Proof.Machine.execMdrain t acc mp rm sat s
  | .mgidx mp n => Sys2Proof.Machine.execMgidx mp n s
  | .mstat mp => Sys2Proof.Machine.execMstat mp s
  | .mlive acc => Sys2Proof.Machine.execMlive acc s
  | .mdead acc => Sys2Proof.Machine.execMdead acc s
  | .copyAM d mp => Sys2Proof.Machine.execCopyAM d mp s
  | .mloaduc r ix mp => Sys2Proof.Machine.execMloaduc r ix mp s
  | .mreaduc mp r ix => Sys2Proof.Machine.execMreaduc mp r ix s
  | .bxLd o => Sys2Proof.Machine.execBxLd o s
  | .bxSt o => Sys2Proof.Machine.execBxSt o s
  | .bxCp o => Sys2Proof.Machine.execBxCp o s
  | .bxSch n => Sys2Proof.Machine.execBxSch n s
  | .csadv n => Sys2Proof.Machine.execCsadv n s
  | .lx xa xb rm sat => Sys2Proof.Machine.execLx xa xb rm sat s
  | .atLd o => Sys2Proof.Machine.execAtLd o s
  | .atSt o => Sys2Proof.Machine.execAtSt o s
  | .atAdd o => Sys2Proof.Machine.execAtAdd o s
  | .atAnd o => Sys2Proof.Machine.execAtAnd o s
  | .atOr o => Sys2Proof.Machine.execAtOr o s
  | .atXor o => Sys2Proof.Machine.execAtXor o s
  | .atMin o => Sys2Proof.Machine.execAtMin o s
  | .atMax o => Sys2Proof.Machine.execAtMax o s
  | .atMinu o => Sys2Proof.Machine.execAtMinu o s
  | .atMaxu o => Sys2Proof.Machine.execAtMaxu o s
  | .atSwap o => Sys2Proof.Machine.execAtSwap o s
  | .atCas o => Sys2Proof.Machine.execAtCas o s
  | .atXadd o => Sys2Proof.Machine.execAtXadd o s
  | .atXrd o => Sys2Proof.Machine.execAtXrd o s
  | .atXclr o => Sys2Proof.Machine.execAtXclr o s
  | .sbArrv o => Sys2Proof.Machine.execSbArrv o s
  | .sbWait st xa gen => Sys2Proof.Machine.execSbWait st xa gen s
  | .cqPop xa => Sys2Proof.Machine.execCqPop xa s
  | .ingest o => Sys2Proof.Machine.execIngest o s
  | .egress o => Sys2Proof.Machine.execEgress o s
  | .copyAX d k => Sys2Proof.Machine.execCopyAX d k s
  | .send l t xp start => Sys2Proof.Machine.execSend l t xp start s
  | .recv l t xp start => Sys2Proof.Machine.execRecv l t xp start s
  | .relay l m xp start => Sys2Proof.Machine.execRelay l m xp start s
  | .mcast mask t xp start => Sys2Proof.Machine.execMcast mask t xp start s
  | .lchk l start => Sys2Proof.Machine.execLchk l start s
  | .droppedFrameCycle => Sys2Proof.Machine.execDroppedFrameCycle s
  | .segmentExpansionDone => Sys2Proof.Machine.execSegmentExpansionDone s
  | .waitbSatisfied => Sys2Proof.Machine.execWaitbSatisfied s
  | .sbWaitSatisfied => Sys2Proof.Machine.execSbWaitSatisfied s
  | .waitaRecall => Sys2Proof.Machine.execWaitaRecall s
  | .waitaLimitExpiry => Sys2Proof.Machine.execWaitaLimitExpiry s
  | .farAccessReturn => Sys2Proof.Machine.execFarAccessReturn s
  | .fenceWaitEnd k => Sys2Proof.Machine.execFenceWaitEnd k s
  | .writeEventApply id => Sys2Proof.Machine.execWriteEventApply id s
  | .writeEventDelivery id die => Sys2Proof.Machine.execWriteEventDelivery id die s
  | .readEventPerform id => Sys2Proof.Machine.execReadEventPerform id s
  | .sconceOperationExecute id => Sys2Proof.Machine.execSconceOperationExecute id s
  | .replyWrite id => Sys2Proof.Machine.execReplyWrite id s
  | .commandComplete id => Sys2Proof.Machine.execCommandComplete id s
  | .completionRecordWrite id => Sys2Proof.Machine.execCompletionRecordWrite id s
  | .tagSweepVisit line => Sys2Proof.Machine.execTagSweepVisit line s
  | .refreshBatchIssue stack => Sys2Proof.Machine.execRefreshBatchIssue stack s
  | .refreshBatchDone stack => Sys2Proof.Machine.execRefreshBatchDone stack s
  | .linkMatching => Sys2Proof.Machine.execLinkMatching s
  | .linkRetry id vector good => Sys2Proof.Machine.execLinkRetry id vector good s
  | .linkInterfaceArrival id => Sys2Proof.Machine.execLinkInterfaceArrival id s
  | .linkFailure id => Sys2Proof.Machine.execLinkFailure id s
  | .coreArrival => Sys2Proof.Machine.execCoreArrival s
  | .lastArrival => Sys2Proof.Machine.execLastArrival s
  | .phaseStart => Sys2Proof.Machine.execPhaseStart s
  | .slackChainStart => Sys2Proof.Machine.execSlackChainStart s
  | .phaseHang => Sys2Proof.Machine.execPhaseHang s
  | .sealRequest => Sys2Proof.Machine.execSealRequest s
  | .sealPeriodExpiry => Sys2Proof.Machine.execSealPeriodExpiry s
  | .hostReadLimitExpiry => Sys2Proof.Machine.execHostReadLimitExpiry s
  | .sealStart => Sys2Proof.Machine.execSealStart s
  | .sealBarrierClose => Sys2Proof.Machine.execSealBarrierClose s
  | .sealCommit => Sys2Proof.Machine.execSealCommit s
  | .sealokBoundExpiry => Sys2Proof.Machine.execSealokBoundExpiry s
  | .barrierLimitExpiry => Sys2Proof.Machine.execBarrierLimitExpiry s
  | .pageMigrationSwap ctx vpn frame => Sys2Proof.Machine.execPageMigrationSwap ctx vpn frame s
  | .dataUe site => Sys2Proof.Machine.execDataUe site s
  | .latentCodeRewrite line => Sys2Proof.Machine.execLatentCodeRewrite line s
  | .rollback place => Sys2Proof.Machine.execRollback place s
  | .peerLossDeclared pkg => Sys2Proof.Machine.execPeerLossDeclared pkg s
  | .planeFailure plane => Sys2Proof.Machine.execPlaneFailure plane s
  | .hostRingTake q => Sys2Proof.Machine.execHostRingTake q s
  | .intakeToFifo q => Sys2Proof.Machine.execIntakeToFifo q s
  | .launchCheck q => Sys2Proof.Machine.execLaunchCheck q s
  | .waitvarLoad launch => Sys2Proof.Machine.execWaitvarLoad launch s
  | .groupPlacement launch clusters => Sys2Proof.Machine.execGroupPlacement launch clusters s
  | .groupStart gid => Sys2Proof.Machine.execGroupStart gid s
  | .launchEnd launch => Sys2Proof.Machine.execLaunchEnd launch s
  | .graphReplayStart q => Sys2Proof.Machine.execGraphReplayStart q s
  | .hardPreemption => Sys2Proof.Machine.execHardPreemption s
  | .groupResume gid clusters => Sys2Proof.Machine.execGroupResume gid clusters s
  | .invalidationComplete id => Sys2Proof.Machine.execInvalidationComplete id s
  | .regionChangeApply id => Sys2Proof.Machine.execRegionChangeApply id s
  | .tableReplacementApply id => Sys2Proof.Machine.execTableReplacementApply id s
  | .routineInstall id => Sys2Proof.Machine.execRoutineInstall id s
  | .write seq ctx tag offset data ben => Sys2Proof.Machine.execWrite seq ctx tag offset data ben s
  | .read seq ctx tag offset len => Sys2Proof.Machine.execRead seq ctx tag offset len s
  | .ctxCreate f => Sys2Proof.Machine.execCtxCreate f s
  | .ctxDestroy f => Sys2Proof.Machine.execCtxDestroy f s
  | .codeLoad f => Sys2Proof.Machine.execCodeLoad f s
  | .codeUnload f => Sys2Proof.Machine.execCodeUnload f s
  | .regionSet f => Sys2Proof.Machine.execRegionSet f s
  | .invalidate f => Sys2Proof.Machine.execInvalidate f s
  | .queueSet f => Sys2Proof.Machine.execQueueSet f s
  | .preempt f => Sys2Proof.Machine.execPreempt f s
  | .resume f => Sys2Proof.Machine.execResume f s
  | .routineSet f => Sys2Proof.Machine.execRoutineSet f s
  | .tableSet f => Sys2Proof.Machine.execTableSet f s
  | .attest f => Sys2Proof.Machine.execAttest f s
  | .freq f => Sys2Proof.Machine.execFreq f s
  | .configWrite f => Sys2Proof.Machine.execConfigWrite f s
  | .peerSet f => Sys2Proof.Machine.execPeerSet f s
  | .backInvalidateSnoop line data => Sys2Proof.Machine.execBackInvalidateSnoop line data s
  | .cxlLinkLoss port => Sys2Proof.Machine.execCxlLinkLoss port s
  | .scaleOutReceive peer seq data => Sys2Proof.Machine.execScaleOutReceive peer seq data s
  | .scaleOutRetransmit peer => Sys2Proof.Machine.execScaleOutRetransmit peer s
  | .coldReset bootOk cfgOk => Sys2Proof.Machine.execColdReset bootOk cfgOk s
  | .svcFull => Sys2Proof.Machine.execSvcFull s
  | .fullServiceTransition => Sys2Proof.Machine.execFullServiceTransition s
  | .clkctlReq => Sys2Proof.Machine.execClkctlReq s
  | .clkctlCancel => Sys2Proof.Machine.execClkctlCancel s
  | .frequencyChange => Sys2Proof.Machine.execFrequencyChange s
  | .frequencyChangeTimeout => Sys2Proof.Machine.execFrequencyChangeTimeout s
  | .powerSample mw => Sys2Proof.Machine.execPowerSample mw s
  | .thermalLimit => Sys2Proof.Machine.execThermalLimit s
  | .thermalCutoff => Sys2Proof.Machine.execThermalCutoff s
  | .fwTimer us => Sys2Proof.Machine.execFwTimer us s
  | .fwTimerExpiry => Sys2Proof.Machine.execFwTimerExpiry s
  | .fwHaltWake => Sys2Proof.Machine.execFwHaltWake s
  | .fwsAtLd st => Sys2Proof.Machine.execFwsAtLd st s
  | .fwsAtSt st => Sys2Proof.Machine.execFwsAtSt st s
  | .fwsAtAdd st => Sys2Proof.Machine.execFwsAtAdd st s
  | .fwsAtAnd st => Sys2Proof.Machine.execFwsAtAnd st s
  | .fwsAtOr st => Sys2Proof.Machine.execFwsAtOr st s
  | .fwsAtXor st => Sys2Proof.Machine.execFwsAtXor st s
  | .fwsAtMin st => Sys2Proof.Machine.execFwsAtMin st s
  | .fwsAtMax st => Sys2Proof.Machine.execFwsAtMax st s
  | .fwsAtMinu st => Sys2Proof.Machine.execFwsAtMinu st s
  | .fwsAtMaxu st => Sys2Proof.Machine.execFwsAtMaxu st s
  | .fwsAtSwap st => Sys2Proof.Machine.execFwsAtSwap st s
  | .fwsAtCas st => Sys2Proof.Machine.execFwsAtCas st s
  | .fwsAtXadd st => Sys2Proof.Machine.execFwsAtXadd st s
  | .fwsAtXrd st => Sys2Proof.Machine.execFwsAtXrd st s
  | .fwsAtXclr st => Sys2Proof.Machine.execFwsAtXclr st s
  | .fwsSbArrv st => Sys2Proof.Machine.execFwsSbArrv st s
  | .fwsReply => Sys2Proof.Machine.execFwsReply s
  | .patctlApply => Sys2Proof.Machine.execPatctlApply s
  | .patctlStart => Sys2Proof.Machine.execPatctlStart s
  | .patternTestDone lerr errcnt => Sys2Proof.Machine.execPatternTestDone lerr errcnt s
  | .registerWrite r v => Sys2Proof.Machine.execRegisterWrite r v s
  | .implicitSignOff => Sys2Proof.Machine.execImplicitSignOff s
  | .scaleOutAcknowledgement peer seq => Sys2Proof.Machine.execScaleOutAcknowledgement peer seq s

end Sys2Proof.Machine
end

