-- ==== Sys2Proof/Machine/Cycle.lean ====
section
/-! DEFINITION. A core cycle of a gang or of a firmware core (05 R106-R116; 08 R184-R198; 11 R247-R250; 17 R396): its bundles issue through
`exec`, then what is due samples and writes. -/

namespace Sys2Proof.Machine

/-! ### A bundle (09 R213; 10 R240; 17 R396) -/

/-- What a bundle does: it issues, it traps, or operations hold it. -/
inductive Issued where
  | done (s : State)
  | trap (t : TrapRec)
  | held (l : List Instr)

/-- The operations that have their guard true. -/
def State.active (s : State) (l : List (Slot × SlotOp)) : List Instr :=
  (l.filter fun x => s.guardTrue x.2.guard && !(x.1 == .c && s.core.skipC)).map (·.2.op)
/-- The operation, alone, would hold its bundle. -/
def State.holds (s : State) (i : Instr) : Bool :=
  match exec i s with
  | .next t => t.traps.length == s.traps.length && t.core.hold
  | _ => false
/-- The operations of a bundle in the order of their slots, each on the state that those before it leave. With the first one that holds the bundle, those
after it that would hold it too begin to wait. -/
def issueSlots : List Instr → State → Issued
  | [], s => .done s
  | i :: l, s =>
    match exec i s with
    | .next t =>
      match t.traps.drop s.traps.length with
      | r :: _ => .trap r
      | [] => if t.core.hold then .held (i :: l.filter s.holds) else issueSlots l t
    | _ => issueSlots l s
/-- Operations that make the MXU (cause 8) or the LXE (cause 12) busy from their issue (13 R320, 14 R348). -/
def busyCause : Instr → Option Nat
  | .mcall _ _ | .mdrain _ _ _ _ _ | .mgidx _ _ | .mchb => some 8
  | .lx _ _ _ _ => some 12
  | _ => none
def isSign : Instr → Bool
  | .sign | .halt => true
  | _ => false
/-- A sign-off with the MXU or the LXE busy, by an operation of the same bundle included, is a fault of the C slot, the lowest (17 R396). -/
def State.signTrap (s : State) (l : List (Slot × SlotOp)) : Option TrapRec :=
  let ops := s.active l
  if s.isFw || !ops.any isSign then none
  else
    let by_ := ops.filterMap busyCause
    if s.core.mxu.busy || by_.contains 8 then some (s.plainTrap 1 8 0 0 1)
    else if s.lxBusy || by_.contains 12 then some (s.plainTrap 1 12 0 0 1)
    else none
/-- The bundle due on the core in focus. -/
def State.issueBundle (s : State) : Issued :=
  match s.entry? with
  | none => .done s
  | some e =>
    match s.preTrap e, s.bundleOf e with
    | some t, _ => .trap t
    | none, none => .done s
    | none, some b =>
      match s.signTrap b.slots with
      | some r => .trap r
      | none =>
        match issueSlots (s.active b.slots) s with
        | .done t =>
          let t := t.setCore { t.core with skipC := false, issued := (s.core.seg, s.core.ent) }
          .done (if t.core.run == .signed then t.onSign s.core.loops s.core.ent else t.onIssue s.fcyc)
        | r => r
/-- The poisoned code of trapping cores is rewritten (R407). -/
def State.takeIssueTraps (s : State) (l : List TrapRec) : State :=
  let s := s.takeTraps l
  (l.filter (·.info.cls == 13)).foldl (fun s t => (s.focusId t.who).rewriteEntry.focusId s.core.id) s

/-- The bundles of the ranks `rs`, ascending: the state after those that issue, the traps, and the operations that hold. -/
def issueAll : List Nat → State → State × List TrapRec × List (Nat × Instr)
  | [], s => (s, [], [])
  | r :: l, s =>
    let t := s.focus r
    match t.entry? with
    | none => issueAll l s
    | some e =>
      if t.gang.now < e.ready then
        let (u, ts, hs) := issueAll l s
        (u, t.plainTrap 2 0 0 0 0 :: ts, hs)
      else match t.issueBundle with
        | .done u => issueAll l u
        | .trap x => let (u, ts, hs) := issueAll l s; (u, x :: ts, hs)
        | .held is => let (u, ts, hs) := issueAll l s; (u, ts, is.map (fun i => (r, i)) ++ hs)
/-- What a held operation has begun: its watch or its read events. The bundle itself has had no effect. -/
def State.register (s : State) (hs : List (Nat × Instr)) : State :=
  (hs.foldl (fun (s : State) (h : Nat × Instr) =>
    let t := Res.orElse s (exec h.2 (s.focus h.1))
    t.setCore { t.core with hold := false }) s).focus s.rank

/-! ### The timed chains of a gang (R191, R193; 03 R61; 15 R363) -/

/-- Cores of the gang due to issue a timed bundle in this frame cycle. -/
def dueTimed (f : Nat) (c : Core) : Bool := isTimed c && c.due == f && decide (c.ent < c.cur.nent)
/-- Ranks whose bundles issued now over-subscribe a bank. -/
def State.conflicts (s : State) (rsv : Bool) : List Nat := s.allClus.flatMap fun k => conflictRanks k.charges s.gang.now rsv
/-- Core `r` of the gang in focus. -/
def State.coreId (s : State) (r : Nat) : CoreId := (s.focus r).core.id
/-- The links that the bundles of the ranks `rs`, due now, claim, as far as their first checks pass: rank, occupancy, link for AUX. -/
def State.linkClaims (s : State) (rs : List Nat) : List (Nat × Occ × Nat) :=
  rs.filterMap fun r =>
    let t := s.focus r
    t.entry?.bind fun e =>
      if (t.preTrap e).isSome || decide (t.gang.now < e.ready) then none
      else (t.bundleOf e).bind fun b => ((t.active b.slots).findSome? t.claims).map fun x => (r, x)
/-- The trap of an `LX` that the cluster's LXE does not accept. -/
def TrapRec.lxeBusy (t : TrapRec) : Bool := t.info.cls == 1 && t.info.cause == 11 && t.info.slots == slotBit .x
/-- The state with the claims of rank `r`'s bundle as though the LXE were free: bank conflicts come before that check in the list of `LX` (14 R345). -/
def State.freeLxe (s : State) (r : Nat) : State :=
  let t := s.focus r
  match (t.setClu { t.clu with lxs := [] }).issueBundle with
  | .done u => u.focus s.rank
  | _ => s
/-- Traps, without the busy LXEs that only an `LX` of a charged bundle makes busy, for that has no effect (14 R347). -/
def State.trueTraps (s : State) (rs : List Nat) (ts : List TrapRec) (banks : List Nat) : List TrapRec :=
  let laps := overlapRanks ((s.linkClaims rs).map fun x => (x.1, x.2.1))
  ts.filter fun t => !t.lxeBusy ||
    (issueAll (rs.filter fun r => r == rankOf t.who || !(banks ++ laps).contains r) s).2.1.any fun x => x.who == t.who && x.lxeBusy
/-- The records of a frame cycle in which bundles trap or are charged: one a rank. A link that is busy only by bundles of this cycle counts among the checks
of the F slot, the last (R362, R363, 17 R396); a bank conflict has no slot. -/
def State.timedFaults (s : State) (rs : List Nat) (ts : List TrapRec) (banks : List Nat) : List TrapRec :=
  let claims := s.linkClaims rs
  let laps := overlapRanks (claims.map fun x => (x.1, x.2.1))
  let at_ := fun (r : Nat) (i : TrapInfo) => ({ who := s.coreId r, info := i } : TrapRec)
  rs.filterMap fun r =>
    let busy := (claims.find? fun x => x.1 == r && laps.contains r).map fun x =>
      at_ r { cls := 9, cause := 3, slots := 64, addr := 0, aux := x.2.2 }
    let bank := if banks.contains r then some (at_ r { cls := 4, cause := 0, slots := 0, addr := 0, aux := 0 }) else none
    match ts.find? fun t => rankOf t.who == r with
    | some t => if t.info.slots = 64 then busy.or (some t) else if t.lxeBusy then bank.or (some t) else some t
    | none => busy.or bank
/-- The timed bundles of this cycle: the state, the faults, of which none leaves a bundle any effect, and whether the gang is held. -/
def State.timedIssue (s : State) : State × List TrapRec × Bool :=
  let f := s.gang.sfc.toNat
  let rs := s.ranksWhere (dueTimed f)
  let late := rs.any fun r => match (s.focus r).entry? with | some e => decide (s.gang.now < e.ready) | none => false
  if s.allCores.any Core.holdsGang || (s.gang.elastic && late) then (s, [], true)
  else
    match issueAll rs s with
    | (t, ts, hs) =>
      if !hs.isEmpty then (s.register hs, [], true)
      else
        let t := t.focus s.rank
        let cs := ((ts.filter TrapRec.lxeBusy).foldl (fun t x => t.freeLxe (rankOf x.who)) t).conflicts false
        if s.gang.elastic && !cs.isEmpty then (s, [], true)
        else
          match s.timedFaults rs (s.trueTraps rs ts cs) cs with
          | [] => (t, [], false)
          | l => (s, l, false)

/-! ### The slack chains of a cluster (R194; 03 R62) -/

def isSlack (c : Core) : Bool := c.run == .slack
/-- The core's next bundle waits one core cycle. -/
def Core.delay (c : Core) : Core := { c with due := c.due + 1, xfer := c.xfer.map fun x => (x.1, x.2 + 1) }
def State.delay (s : State) (rs : List Nat) : State :=
  rs.foldl (fun s r => let t := s.focus r; (t.setCore t.core.delay).focus s.rank) s
/-- Bundles in rank order; one that would over-subscribe a bank, or take a port kept for variable-side traffic, is held, and one that traps stays as it
is. -/
def issueSlack : List Nat → State → State × List TrapRec × List (Nat × Instr)
  | [], s => (s, [], [])
  | r :: l, s =>
    match (s.focus r).issueBundle with
    | .done u => issueSlack l (if (u.conflicts true).contains r then s.delay [r] else u.focus s.rank)
    | .trap x =>
      if x.lxeBusy && ((s.freeLxe r).conflicts true).contains r then issueSlack l (s.delay [r])
      else let (u, ts, hs) := issueSlack l s; (u, x :: ts, hs)
    | .held is => let (u, ts, hs) := issueSlack l s; (u, ts, is.map (fun i => (r, i)) ++ hs)
/-- The slack bundles of cluster `k` in this cycle: the state, and the faults. A wait holds every bundle of the cluster. -/
def State.slackIssue (s : State) (k : Nat) : State × List TrapRec :=
  let inClu := fun (c : Core) => rankOf c.id / 4 == k
  let due := s.ranksWhere fun c => inClu c && isSlack c && decide (c.due ≤ s.gang.now) && decide (c.ent < c.cur.nent)
  if due.isEmpty then (s, [])
  else if s.allCores.any fun c => inClu c && c.holdsClu then (s.delay due, [])
  else
    let isReady := fun (r : Nat) => match (s.focus r).entry? with | some e => decide (e.ready ≤ s.gang.now) | none => false
    let s1 := s.delay (due.filter fun r => !isReady r)
    let rs := due.filter isReady
    match issueSlack rs s1 with
    | (t, ts, hs) => if hs.isEmpty then (t.focus s.rank, ts) else ((s1.register hs).delay rs, [])

/-! ### A cycle -/

/-- Does `f` with every core of the gang in focus. -/
def State.eachRank (s : State) (f : State → State) : State :=
  (s.ranksWhere fun _ => true).foldl (fun s r => (f (s.focus r)).focus s.rank) s
def State.running (s : State) : Bool := s.gang.run == .phase || s.gang.run == .fw
/-- Arrivals, and waits that end by themselves. -/
def State.wake (s : State) : State :=
  s.eachRank fun s => Res.orElse s (execCoreArrival s) |> fun s => Res.orElse s (execFarAccessReturn s)
    |> fun s => Res.orElse s (execWaitaRecall s) |> fun s => Res.orElse s (execWaitaLimitExpiry s) |> fun s => Res.orElse s (execFwHaltWake s)
/-- Chains end and slack chains begin. -/
def State.chains (s : State) : State :=
  let s := s.eachRank State.endChain
  if s.running then
    let s := s.eachRank fun s => if s.isFw then s else Res.orElse s (execImplicitSignOff s)
    s.eachRank fun s => if s.isFw then s else Res.orElse s (execSlackChainStart s)
  else s
/-- Hard pre-emption before the frame cycle that is due, or that frame cycle dropped, up to four times. -/
def State.dropFrames : Nat → State → State
  | 0, s => Res.orElse s (execHardPreemption s)
  | n + 1, s =>
    let t := Res.orElse s (execHardPreemption s)
    if t.running && t.droppable then State.dropFrames n t.dropFrame.chains else t
/-- The bundles of this cycle; the flag says that the gang is held. Where a timed bundle faults no bundle of the gang issues; where a slack bundle does, the
others stop at their next (17 R396). Every core that faults in the cycle has its record. -/
def State.issue (s : State) : State × Bool :=
  let s := if s.isFw then s else State.dropFrames 4 s
  let s := if s.gang.run == .phase && s.gang.xfers != [] then Res.orElse s (execLinkMatching s) else s
  if !s.running then (s, false)
  else
    let (t, ts, held) := if s.isFw then (s, [], false) else s.timedIssue
    let (u, us) := (t.allClus.map (·.k)).foldl (fun x k => let (v, vs) := x.1.slackIssue k; (v, x.2 ++ vs)) (t, [])
    match ts, us with
    | [], [] => (u, held)
    | [], us => (u.takeIssueTraps us, held)
    | ts, us => (s.takeIssueTraps (ts ++ us), held)
/-- F-slot claims stand at frame cycles: in a held cycle they move (05 R116). One that so meets the claim of an earlier access takes place beside it: 05 R116
and 03 R61 name no conflict (log 100). -/
def Cluster.holdCharges (now : Nat) (k : Cluster) : Cluster :=
  { k with charges := k.charges.map fun c => if c.frame && decide (now ≤ c.cyc) then { c with cyc := c.cyc + 1 } else c }
/-- A gang that stopped inside a phase, transfers of its earlier bundles still to move (17 R396). -/
def Gang.draining (g : Gang) : Bool := (g.run == .stopped || g.run == .faulted) && g.kind == 2 && !g.drained
/-- What is due in this cycle samples, then writes. -/
def State.perform1 (s : State) (moves : Bool) : State :=
  let f := s.gang.sfc.toNat + s.gang.drain
  let s := if s.gang.draining then s.setGang (s.gang.drainMatch f) else s
  let s := s.eachRank State.samplePhase
  let s := if moves then s.fabricSample f else s
  let s := s.eachRank State.writePhase
  if moves then s.fabricWrite f else s
/-- Interfaces arrive, the last arrival is resolved, a stopped gang is served. -/
def State.arrivals (s : State) : State :=
  if s.gang.run == .phase then
    let s := (s.gang.xfers.map (·.id)).foldl (fun s i => Res.orElse s (execLinkInterfaceArrival i s)) s
    Res.orElse s (execLastArrival s)
  else if s.gang.run == .boundary && !s.gang.sealed && (s.gang.latched.soft || s.gang.latched.hard || s.gang.latched.sealReq) then s.serve
  else s
/-- The cycle counts of a gang advance. -/
def State.tick (s : State) (gid : Nat) (held : Bool) : State :=
  let s := s.focusGang gid
  if s.gang.gid ≠ gid then s
  else
    let g := { s.gang with now := s.gang.now + 1, drops := 0 }
    let g := if g.run == .phase then (let g := { g with wd := g.wd + 1 }; if held then g else g.nextFrame)
      else if g.run == .fw then { g with sfc := g.sfc + 1 } else if g.draining then { g with drain := g.drain + 1 } else g
    let s := s.setGang g
    let s := s.mapClus fun k => { k with charges := k.charges.filter fun c => decide (g.now ≤ c.cyc), freed := k.freed.filter fun x => decide (g.now ≤ x.1 + 2) }
    { s with pkg := { s.pkg with cycle := max s.pkg.cycle g.now } }
/-- The watchdog (R197) and the SEALOK bound (07 R156). -/
def State.bounds (s : State) : State :=
  let s := Res.orElse s (execPhaseHang s)
  if s.gang.run == .phase then Res.orElse s (execSealokBoundExpiry s) else s
/-- One core cycle of the gang in focus. -/
def State.cycle (s : State) : State :=
  let gid := s.gang.gid
  let s := s.wake
  let s := Res.orElse s (execPhaseStart s)
  let s := if s.running then s.chains else s
  let (s, held) := if s.running then s.issue else (s, false)
  let s := if s.gang.gid = gid then
      (let moves := s.gang.run == .phase && !held || s.gang.draining
       let s := s.perform1 moves
       let s := if held then s.mapClus (Cluster.holdCharges s.gang.now) else s
       s.arrivals)
    else s
  let s := s.tick gid held
  if s.gang.gid = gid then s.bounds else s

/-! ### After a turn: what Chothes and the dispatcher do by themselves -/

/-- The state of a group that has stopped, faulted or given way is recorded once, when it is quiet (17 R397, R398; 16 R386). The set of one that stopped
while it executed is then idle and is arbitrated, for other contexts are not affected. No logged write of Chothes is made while a seal's barrier is open
(07 R155). -/
def State.saveStopped (s : State) : State :=
  if s.barrier then s else (s.allBoxes.filter fun b => (b.gang.run == .stopped || b.gang.run == .faulted || b.gang.run == .waiting) && !b.gang.saved && b.quiet).foldl (fun s b =>
    let s := (s.writeSave b).onGang b.gang.gid fun g => { g with saved := true }
    match s.setOf b.gang.gid with
    | some cs => if cs.exec = some b.gang.gid && b.gang.run != .waiting then s.arbitrateIdle cs.clusters b.gang.now else s
    | none => s) s
/-- What waits in memory: operations become executable, pages that are worn are retired, what faulted contexts or a lost package leave stuck is given up;
another turn finds other bytes in other packages. -/
def State.maintainMem (s : State) : State :=
  let s := s.loseAllFar.abandonStuck.dropTorn.retireWorn.ripen
  { s with mem := { s.mem with farDraw := s.mem.farDraw + 1 } }
/-- Saves, begins of groups, pending changes at their slack boundaries, tear-downs, pre-emption for a launch of higher rank, and requests that waited. -/
def State.maintain (s : State) : State :=
  let s := s.maintainMem.saveStopped.beginPicks
  let s := (s.pkg.jobs.map (·.id)).foldl State.tryJob s
  let s := s.reap.bureau
  if s.barrier || s.host.pendq.isEmpty then s else s.performPending

/-! ### A turn (log 6) -/

/-- A write from another package of the domain is a write event that comes in at the hub (06 R134, 15 R374; log 53). -/
def State.farWrite (s : State) (pkg line : Nat) (cells : List Host.Cell) : State :=
  let mine := fun (c : Host.Cell) => c.1 / 64 == line && s.mappable (c.1 / 2 ^ 21 * 2 ^ 21) (if isHbm c.1 then 1 else 2)
  if s.dom.pkgs.contains pkg && pkg != s.pkg.cfg.pkg.toNat && !s.barrier && cells.all mine then
    (s.hubAccess 0 [] [(64 * line, cells)]).2
  else s
def State.runAuto (s : State) : Auto → Res
  | .dataUe u => execDataUe u s
  | .linkFailure id => execLinkFailure id s
  | .launchEnd l => execLaunchEnd l s
  | .rollback p => execRollback p s
  | .faultAll u => .next (s.faultAll u)
  | .region c i img => execChothesRegion c i img s
  | .routine d img e => execFwRoutine d img e s
  | .lease d => execLeaseTurn d s
  | .frame b => execHostFrame b s
  | .portFrame p b => execPortFrame p b s
  | .farWrite p line cells => .next (s.farWrite p line cells)
/-- A core cycle of gang `g`, if it exists. -/
def State.runGang (s : State) (g : Nat) : Res := .next (if s.hasGang g then (s.focusGang g).cycle else s)
/-- The gang that is furthest behind. -/
def State.hindmost (s : State) : Nat :=
  (s.gangs.foldl (fun (m : Nat × Nat) b => if b.gang.now < m.2 then (b.gang.gid, b.gang.now) else m) (s.gang.gid, s.gang.now)).1
/-- The event is that of a reset, the one thing that happens without power or after a boot that was refused. -/
def isReset : Instr → Bool
  | .coldReset _ _ => true
  | _ => false
/-- The machine runs. -/
def State.live (s : State) : Bool := !s.pkg.clk.off && s.pkg.booted
/-- The next turn: an event of the variable side or of the outside, a consequence, a cycle of a gang; with none listed, a cycle of the gang that
is furthest behind. Slot operations are no events. -/
def State.turn (s : State) : Res :=
  match s.agenda with
  | .event i :: l =>
    let s : State := { s with agenda := l }
    if i.slot?.isSome || (!s.live && !isReset i) then .next s else exec i s
  | .auto a :: l =>
    let s : State := { s with agenda := l }
    if s.live then s.runAuto a else .next s
  | .gang g :: l =>
    let s : State := { s with agenda := l }
    if s.live then s.runGang g else .next s
  | [] => if s.pkg.clk.off then .fault .powerOff else if s.pkg.booted then s.runGang s.hindmost else .fault .notBooted

/-! ### A program of one bundle, loaded by hand (log 42) -/

/-- A segment of 1,024 entries: the bundle, then NOPs; three idle cycles at its end. -/
def fetchSeg (w : W384) : Segment :=
  { off := 0, nent := 1024, selPos := 1023, next0 := noSeg, next1 := noSeg,
    words := 0xFFFF :: (List.range 24).map (fun k => BitVec.ofNat 16 (w.toNat / 2 ^ (16 * k))) ++ List.replicate 1023 0 ++ [0xC002, 0xE000]  }
/-- The segment, expanded. -/
def fetchHalf (w : W384) : Half :=
  { seg := 0, entries := { bundle := w, gap := 0, stamp := none, ready := 0, poisoned := false }
      :: List.replicate 1023 { bundle := 0, gap := 0, stamp := none, ready := 0, poisoned := false },
    gEnd := 3, selPos := 1023, next0 := noSeg, next1 := noSeg, endSel := none, done := 0 }
/-- One phase, `ELASTIC`, without successor. -/
def fetchDesc : Desc :=
  { budget := 0xFFFFFFFF, ylen := 0, segtab := 0, succ1 := 0x200, succ0 := 0x200, pidx := 0, comb := false, mode := 2, yieldP := true, sealOk := true,
    preemptOk := true }
def fetchCode (w : W384) : CodeObj :=
  { idx := 0, priv := true, fwCore := false, gmin := 1, gmax := 1, lw := 1, lh := 1, entries := [⟨0, 0⟩], t0 := [fetchDesc], t1 := [],
    rst := [(0, noSeg), (noSeg, noSeg), (noSeg, noSeg), (noSeg, noSeg)], dicts := [[0]], dictOffs := [0], rmap := [0, 0, 0, 0],
    segs := [fetchSeg w], rings := List.replicate 127 (Vector.replicate 8 0), tiles := [], scheds := [] }
/-- A gang of one cluster at SFC 0 of its phase; rank 0 has the segment, the other ranks have arrived. -/
def fetchBox (s : State) (w : W384) : GangBox :=
  let gid := s.disp.nextGid
  let base := Gang.fwReset 0
  let core := fun (r : Nat) => Core.reset (.rank gid r)
  { gang := { base with gid := gid, code := fetchCode w, g := 1, run := .phase, now := s.pkg.cycle, elastic := true, launchElastic := true, t0 := [fetchDesc],
                        roff := 32, kind := 1, fw := none }
    core := { core 0 with run := .timed, cur := fetchHalf w }
    cores := [1, 2, 3].map fun r => { core r with run := .arrived }
    clu := Cluster.reset 0 0 1024 (Vector.replicate 4 1024), clus := [] }
/-- The state with that gang in focus, its cycle next. -/
def State.loadFetch (s : State) (w : W384) : State :=
  let b := fetchBox s w
  { s.setBox b with gangs := insertBox s.box s.gangs, agenda := .gang b.gang.gid :: s.agenda, disp := { s.disp with nextGid := s.disp.nextGid + 1 } }

end Sys2Proof.Machine
end

