-- ==== Sys2Proof/Machine/Step.lean ====
section
/-! DEFINITION. The step function, and a state whose next step runs a given bundle. -/

namespace Sys2Proof.Machine

/-- The state after a turn, with what follows by itself. -/
def after : Res → Res
  | .next s => .next s.maintain
  | r => r

/-- One turn. `traps` lists the traps of this step alone. -/
def step (s : State) : Host.Outcome State Fault Refusal := after (State.turn { s with traps := [] })

/-- `s` with a bundle of bits `w` as the next to issue. A program comes to run by a launch, or, for a firmware core, from board flash; this
stands for the loading (log 42). -/
def State.withFetchWord (s : State) (nbits w : Nat) : State := s.loadFetch (BitVec.ofNat 384 (w % 2 ^ nbits))

end Sys2Proof.Machine
end

