-- ==== Sys2Proof/Safety.lean ====
section
/-! DEFINITION. What claims about the machine are stated with: the invariant that every step keeps, what two states share, which
instructions only queue timed writes, and the answer of a V-slot form. -/

namespace Sys2Proof

open Sys2Proof.Machine

/-! ### Invariant -/

/-- Global memory is in its canonical form. -/
def memWf (s : State) : Prop := s.mem.bytes.wf = true

/-! ### What two states share -/

/-- The register files, flags and accumulators of a core (10 R233, R245; 13 R299). -/
structure SameRegs (x y : Core) : Prop where
  c : x.c = y.c
  p : x.p = y.p
  a : x.a = y.a
  v0 : x.v0 = y.v0
  v1 : x.v1 = y.v1
  mp : x.mp = y.mp
  xp : x.xp = y.xp
  acc : x.mxu.acc = y.mxu.acc
  live : x.mxu.live = y.mxu.live
  typ : x.mxu.typ = y.mxu.typ
  aflags : x.aflags = y.aflags
  fb : x.fb = y.fb
  rote : x.rote = y.rote
  rotc : x.rotc = y.rotc

/-- Every byte of global memory, of the Sconces' variables, and of the tiles of the cluster in focus and of the gang's other clusters reads the
same: at every die and in coherence order. -/
structure SameBytes (s t : State) : Prop where
  glob : ∀ (d : Option Nat) (x : Nat), (∀ k, d = some k → k < 5) → s.mem.byteAt d x = t.mem.byteAt d x
  tile : ∀ (k : Cap) (x : Nat), (s.clu.dataOf k).get x = (t.clu.dataOf k).get x
  others : s.clus = t.clus

/-! ### Instructions that only queue register writes -/

/-- Register actions that a bundle queues for the file of the issuing core. -/
inductive Dest where
  | c (i : BitVec 4)
  | p (i : BitVec 4)
  | a (i : BitVec 5)
  | m (u : VU) (i : BitVec 3)
  | b (u : VU) (i : BitVec 3)
  | mp (i : BitVec 3)
  | xp (i : BitVec 4)
  | fb (i : BitVec 5)
  | acc (k : BitVec 2)
  | live (k : BitVec 2)
  | ucode (r : BitVec 8) (i : BitVec 5)
  | stage (port : BitVec 4) (i : BitVec 3)
deriving DecidableEq, Repr

/-- The register that a queued action writes, if it is one of these. -/
def Machine.Act.dest? : Act → Option Dest
  | .c i _ => some (.c i)
  | .p i _ => some (.p i)
  | .a i _ => some (.a i)
  | .m u i _ _ => some (.m u i)
  | .b u i _ => some (.b u i)
  | .mp i _ => some (.mp i)
  | .xp i _ => some (.xp i)
  | .fbArrive n => some (.fb n)
  | .mzero k => some (.acc k)
  | .live k _ => some (.live k)
  | .ucodeW r i _ => some (.ucode r i)
  | .ucodeR k _ _ => some (.mp k)
  | .stage n i _ => some (.stage n i)
  | _ => none

/-- The destinations of the instructions that read registers at issue and queue register writes, and do nothing else and never trap
(11 R254-R256, R260, R264-R268, R271, R273; 12 R294, R295; 13 R313, R317-R319; 14 R357). -/
def Instr.queued : Instr → Option (List Dest)
  | .nop => some []
  | .pset d _ | .pand d _ _ | .por d _ _ | .pxor d _ _ | .pnot d _ => some [.p d]
  | .cmovi d _ | .cmov d _ | .cadd d _ | .caddi d _ | .csub d _ | .psave d | .frame d _ | .frameCyc d => some [.c d]
  | .ccmp _ p _ _ | .ccmpi _ p _ _ => some [.p p]
  | .pload _ => some ((List.range 15).map fun i => .p (BitVec.ofNat 4 (i + 1)))
  | .copyAC d _ | .copyAV _ d _ _ _ | .mskcopyA _ d _ | .copyAM d _ | .copyAX d _ => some [.a d]
  | .arrv n => some [.fb n]
  | .add d _ _ | .sub d _ _ | .mul d _ _ | .mulh d _ _ _ | .shl d _ _ | .shr d _ _ | .sar d _ _ | .and_ d _ _ | .or_ d _ _ | .xor_ d _ _
  | .min_ d _ _ _ | .max_ d _ _ _ | .sel d _ _ _ | .clz d _ | .popc d _ | .bfx _ d _ _ _ | .bfi d _ _ _ | .addi d _ _ | .andi d _ _
  | .ori d _ _ | .xori d _ _ | .shli d _ _ | .shri d _ _ | .sari d _ _ | .movi d _ | .movhi d _ => some [.a d]
  | .cmp _ d p _ _ | .cmpi _ d p _ _ => some (.p p :: (match d with | some r => [.a r] | none => []))
  | .genSet n i _ => some [.stage n i]
  | .copyV0 msk k _ => some [if msk then .m .v0 k else .b .v0 k]
  | .copyV1 msk k _ => some [if msk then .m .v1 k else .b .v1 k]
  | .copyM k _ => some [.mp k]
  | .copyX k _ => some [.xp k]
  | .copyC k _ => some [.c k]
  | .mskand o | .mskor o | .mskxor o | .mskandn o => some [.m o.u o.d]
  | .msknot u d _ _ => some [.m u d]
  | .mzero k => some [.acc k]
  | .mlive k | .mdead k => some [.live k]
  | .mloaduc r i _ => some [.ucode r i]
  | .mreaduc k _ _ => some [.mp k]
  | _ => none

/-! ### V-slot forms -/

/-- Every source of a form can be read now and no pop's scheduled read falls in an open range (12 R278): the lanes read. -/
def Machine.State.sources (s : State) (u : VU) (l : List (VSrc × Bool)) : Option (List Lanes) :=
  match l.mapM (fun x => s.src u x.1 x.2) with
  | none => none
  | some vs => if (popsOf (l.map (·.1))).any s.popOpen then none else some vs

/-- The state once the sources have popped what they pop. -/
def Machine.State.popped (s : State) (l : List (VSrc × Bool)) : State := (popsOf (l.map (·.1))).foldl State.pop s

/-- The result reaches its destination, which changes `s` into `t`: what `vput` describes (12 R277, 10 R239). -/
def VPut (s : State) (u : VU) (d : VDst) (lat : Nat) (x : Lanes) (m : W64) (fl : Fl) (t : State) : Prop := s.vput u d lat x m fl = .next t

/-- The destination takes a result now: a register always; an output port that is armed, with a vector left, whose tile words lie in no open
and no held range (05 R113, R115, 15 R367). -/
def Machine.State.dstReady (s : State) (u : VU) (d : VDst) (x : Lanes) (m : W64) : Bool :=
  match d with
  | .reg _ _ => true
  | .push o =>
    let p := s.getPort (8 + o.toNat)
    match p.cap with
    | none => false
    | some c =>
      p.armed && decide (p.pos < psNV p.active)
        && (s.rangeTrap c.h (updWords (encodePush p.active c.ent p.pos x m (s.getE u (psRes p.active))).upd) true).isNone

/-- Lane `j` of source `i`. -/
def srcLane (vs : List Lanes) (i j : Nat) : W32 := (nth vs i (Lanes.splat 0)).lane j

/-- Instruction `i`, whose sources are `l`, completes and gives destination `d` of unit `u`, with latency `lat` and under the lane mask `m`, the lanes
`f` of what its sources read, with the flags `fl`: whenever the sources can be read and the destination takes the result. -/
def VecGives (i : Instr) (s : State) (u : VU) (d : VDst) (l : List (VSrc × Bool)) (lat : Nat) (m : W64) (f : List Lanes → Nat → W32)
    (fl : List Lanes → Fl) : Prop :=
  ∀ vs, s.sources u l = some vs → ∀ x : Lanes, (∀ j, j < 64 → x.lane j = f vs j) → (s.popped l).dstReady u d x m = true →
    ∃ t, exec i s = .next t ∧ VPut (s.popped l) u d lat x m (fl vs) t

/-- As `VecGives`, for a result in mask register `d`, of whose bits the mask `m` enables some. -/
def MaskGives (i : Instr) (s : State) (u : VU) (d : BitVec 3) (l : List (VSrc × Bool)) (lat : Nat) (m : W64) (f : List Lanes → Nat → Bool)
    (fl : List Lanes → Fl) : Prop :=
  ∀ vs, s.sources u l = some vs → ∀ x : W64, (∀ j, j < 64 → x.getLsbD j = f vs j) →
    exec i s = .next (((s.popped l).later (lat - 1) true (.m u d x m)).flagLater (lat - 1) (fl vs))

/-- The lanes that mask bits select, those before `j` alone or with `j`. -/
def upTo (m : W64) (j : Nat) (incl : Bool) : Nat → Bool := fun i => m.getLsbD i && (decide (i < j) || (incl && i == j))

/-! ### Driver commands -/

/-- The state in which a command that arrives now and is performed at once is run: its sequence number passed, logged, acknowledged, the leader told of it, every host write before
it delivered to the hub (18 R413, R414, R417, R422). -/
def Machine.State.accepted (s : State) (op : Byte) (f : CmdFrame) : Bool × State :=
  let t := (({ s with host := { s.host with seq := s.host.seq + 1 } } : State).logInputAt s.dom.ri f.ctx (.command op f) 64).answer 0x84 0 f.seq f.ctx f.tag
  (t.fwEvent t.leader 0).flushHub
/-- A command frame with the expected number is performed at once: no barrier is open, nothing waits before it, the input log and the undo logs have room, and a die
holds the lease. -/
def Machine.State.takes (s : State) (op : Byte) (f : CmdFrame) : Bool :=
  s.pkg.booted && f.seq == s.host.seq && !s.inlogFull f.ctx && !s.barrier && s.host.pendq.isEmpty && (s.accepted op f).1 && (s.accepted op f).2.led

end Sys2Proof
end

