-- ==== Sys2Proof/Certificates/Slice0/Obligations.lean ====
section
/-! DEFINITION. Statements about the machine for the provers. Rules are those of spec/: 11 R268 is rule 268 of 11_control_and_scalar_instructions.md. -/

open Sys2Proof Sys2Proof.Machine

/-! ### Steps, bundles and decoding -/

/-- A turn of the agenda runs what it names: an event runs its meaning, a gang one core cycle of that gang, and with nothing listed the gang that
is furthest behind runs one; without power or after a refused boot nothing runs. After the turn the machine does what follows by itself
(`maintain`). The order of turns is the model's choice (log 6), as are the stops without power and after a refused boot (log 48). -/
def Obligations.StepRunsTurn : Prop :=
  ∀ (s : State), let s0 : State := { s with traps := [] }
    (∀ i l, s.agenda = .event i :: l → s.live = true → i.slot? = none → step s = after (exec i { s0 with agenda := l })) ∧
    (∀ g l, s.agenda = .gang g :: l → s.live = true → s.hasGang g = true →
      step s = .next (((({ s0 with agenda := l } : State).focusGang g).cycle).maintain)) ∧
    (s.agenda = [] → s.pkg.clk.off = true → step s = .fault .powerOff) ∧
    (s.agenda = [] → s.pkg.clk.off = false → s.pkg.booted = false → step s = .fault .notBooted) ∧
    (s.agenda = [] → s.live = true → step s = .next (((s0.focusGang s0.hindmost).cycle).maintain))

/-- The bundle at the program counter is the one decoded and run. Where the entry that is due (segment `seg`, entry `ent`) passes its checks and
its 384 bits decode to a bundle whose one operation is `i` in slot `sl`, with a true guard, the bundle issues exactly as `exec i` says: its next
state followed by the sequencer's bookkeeping (11 R248), its trap, or its hold; `SIGN` and `HALT` among them, where a busy MXU or LXE does not trap.
Operations whose guard is false, and after a return from a stop the C slot's, have no effect, and the bundle is counted as issued (09 R217; 17 R400).
In a bundle of several operations that queue register writes each reads the state before any of them writes (10 R240).
The ranks whose bundles are due issue in ascending order, each with its core in focus and, if its entry has been expanded, as `issueBundle`
says: a bundle that issues passes its state to the next rank; one that traps or is held leaves the state as it was (10 R240). That the ranks of a
cycle issue in that order, each on what the lower ranks leave, is the model's choice (logs 43 and 87). -/
def Obligations.BundleRunsDecoded : Prop :=
  (∀ (s : State) (e : Entry) (b : Bundle) (sl : Slot) (g : BitVec 5) (i : Instr),
     s.core.cur.entries[s.core.ent]? = some e → s.preTrap e = none →
     decodeBundle s.gang.code.priv s.gang.code.fwCore e.bundle = .ok b →
     (sl, ⟨g, i⟩) ∈ b.slots → (∀ x ∈ b.slots, x.1 ≠ sl → x.2.op = .nop) →
     s.guardTrue g = true → s.core.skipC = false → s.core.hold = false →
     let ends := s.isFw = false ∧ (i = .sign ∨ i = .halt)
     (∀ k, ends → s.signCause = some k → s.issueBundle = .trap (s.plainTrap 1 k 0 0 1)) ∧
     ((ends → s.signCause = none) →
       (∀ t, exec i s = .next t → t.traps = s.traps → t.core.hold = false →
         let t' := t.setCore { t.core with skipC := false, issued := (s.core.seg, s.core.ent) }
         (t.core.run ≠ .signed → s.issueBundle = .done (t'.onIssue s.fcyc)) ∧
         (t.core.run = .signed → s.issueBundle = .done (t'.onSign s.core.loops s.core.ent))) ∧
       (∀ t r l, exec i s = .next t → t.traps = s.traps ++ r :: l → s.issueBundle = .trap r) ∧
       (∀ t, exec i s = .next t → t.traps = s.traps → t.core.hold = true → s.issueBundle = .held [i]))) ∧
  (∀ (s : State) (e : Entry) (b : Bundle),
     s.core.cur.entries[s.core.ent]? = some e → s.preTrap e = none →
     decodeBundle s.gang.code.priv s.gang.code.fwCore e.bundle = .ok b → s.core.hold = false → s.core.run ≠ .signed →
     let runs := fun (x : Slot × SlotOp) => s.guardTrue x.2.guard = true ∧ ¬(x.1 = .c ∧ s.core.skipC = true)
     ((∀ x ∈ b.slots, x.2.op = .nop ∨ ¬runs x) →
       s.issueBundle = .done ((s.setCore { s.core with skipC := false, issued := (s.core.seg, s.core.ent) }).onIssue s.fcyc)) ∧
     ((∀ x ∈ b.slots, runs x → x.2.op.queued.isSome = true) → ∃ u : State,
       s.issueBundle = .done ((u.setCore { u.core with skipC := false, issued := (s.core.seg, s.core.ent) }).onIssue s.fcyc) ∧
       u = { s with core := { s.core with pend := u.core.pend } } ∧
       ∀ p, p ∈ u.core.pend ↔ p ∈ s.core.pend ∨ ∃ x ∈ b.slots, runs x ∧ ∃ t, exec x.2.op s = .next t ∧ p ∈ t.core.pend)) ∧
  (∀ (s : State) (r : Nat) (l : List Nat) (e : Entry), (s.focus r).entry? = some e → e.ready ≤ (s.focus r).gang.now →
     (∀ t, (s.focus r).issueBundle = .done t → issueAll (r :: l) s = issueAll l t) ∧
     (∀ x, (s.focus r).issueBundle = .trap x →
       issueAll (r :: l) s = ((issueAll l s).1, x :: (issueAll l s).2.1, (issueAll l s).2.2)) ∧
     (∀ is, (s.focus r).issueBundle = .held is →
       issueAll (r :: l) s = ((issueAll l s).1, (issueAll l s).2.1, is.map (fun i => (r, i)) ++ (issueAll l s).2.2)))

/-- Words written out from the encoding tables of 09 R216-R227 decode to the instructions that the manual assembles them from. -/
def Obligations.DecodeWords : Prop :=
  decodeSlot .c 0x0006005B8D806260 = .ok (.waita 3 3 3000000) ∧
  decodeSlot .c 0x000A000000180280 = .ok (.fence .system 12 none) ∧
  decodeSlot .c 0x0484000000006320 = .ok (.syswr 0x242 3) ∧
  decodeSlot .a 0x001000084300 = .ok (.addi 4 4 1) ∧
  decodeSlot .a 0x0001081E03E0 = .ok (.cmpi .lt none 1 15 0) ∧
  decodeSlot .v0 0x0000000243008093 = .ok (.fma ⟨.v0, .reg 4 false, .pop 0, .pop 1, .reg 4 false, 0⟩ .rne) ∧
  decodeSlot .v0 0x000000200000EA00 = .ok (.compressM .v0 (.reg 7 false) 1) ∧
  decodeSlot .m 0x0000000040020 = .ok (.mcall 0 1) ∧
  decodeSlot .m 0x0020034400A0 = .ok (.mdrain 52 1 2 (.dir .rne) false) ∧
  decodeSlot .x 0x000210C0 = .ok (.lx 2 4 (.dir .rne) false) ∧
  decodeSlot .f 0x004014012220 = .ok (.send 1 9 2 10) ∧
  decodeSlot .f 0x004018008660 = .ok (.relay 3 4 2 12)

/-- Every well-formed C-slot instruction is encoded and decodes to itself (09 R224). -/
def Obligations.EncodeC : Prop :=
  ∀ i : Instr, i.slot? = some .c → i.wf = true → ∃ w, Sys2Proof.encodeIn .c i = some w ∧ w < 2 ^ 64 ∧ decodeSlot .c w = .ok i

/-- Every well-formed A-slot instruction is encoded and decodes to itself (09 R225). -/
def Obligations.EncodeA : Prop :=
  ∀ i : Instr, i.slot? = some .a → i.wf = true → ∃ w, Sys2Proof.encodeIn .a i = some w ∧ w < 2 ^ 48 ∧ decodeSlot .a w = .ok i

/-- Every well-formed V-slot instruction is encoded and decodes to itself, in either V slot (09 R226). -/
def Obligations.EncodeV : Prop :=
  ∀ (i : Instr) (u : VU), i.vu? = some u → i.wf = true → ∃ w, Sys2Proof.encodeIn u.slot i = some w ∧ w < 2 ^ 64 ∧ decodeSlot u.slot w = .ok i

/-- Every well-formed instruction of the M, X and F slots is encoded and decodes to itself (09 R227). -/
def Obligations.EncodeMXF : Prop :=
  ∀ (i : Instr) (sl : Slot), sl = .m ∨ sl = .x ∨ sl = .f → i.slot? = some sl → i.wf = true →
    ∃ w, Sys2Proof.encodeIn sl i = some w ∧ w < 2 ^ 48 ∧ decodeSlot sl w = .ok i

/-! ### The C slot -/

/-- Branches, calls and returns complete as taken transfers: the target is set for the third cycle after issue, and `CALL` queues its link, the
entry that the target replaces, for `c15` at issue (11 R247, R248, R250, R251). A register target above NENT is no completion: it takes
ILLEGAL_BUNDLE "target". -/
def Obligations.TransfersComplete : Prop :=
  ∀ (s : State) (r : BitVec 4) (t : BitVec 10),
    let goTo := fun (n : Nat) => ({ s with core := { s.core with xfer := some (n, s.fcyc + 3) } } : State)
    exec (.bri t) s = .next (goTo t.toNat) ∧
    exec (.call t) s = .next ((goTo t.toNat).later 0 true (.c 15 (BitVec.ofNat 64 (s.replaced 3 s.core.loops s.core.ent .nop 0)))) ∧
    ((s.getC r).toNat ≤ s.core.cur.nent → exec (.br r) s = .next (goTo (s.getC r).toNat)) ∧
    ((s.getC 15).toNat ≤ s.core.cur.nent → exec .ret s = .next (goTo (s.getC 15).toNat)) ∧
    (s.core.cur.nent < (s.getC r).toNat → exec (.br r) s = .next (s.trap .c 1 1)) ∧
    (s.core.cur.nent < (s.getC 15).toNat → exec .ret s = .next (s.trap .c 1 1))

/-- `LOOP` and `LOOPR` push a level, or with a count of 0 pass to END + 1; a ring named sets ROTE to its entry and ROTC to 0; `BREAK` pops the
innermost level and transfers. A full or empty loop stack takes ILLEGAL_BUNDLE (11 R252, R253).
The sequencer's bookkeeping after an entry issues (11 R248), in the common cases: at the END of the innermost level with iterations left the body
begins again, ITER advances, and ROTC with it where the loop names a ring; on the last iteration the level is popped; elsewhere the next
entry in code order follows. -/
def Obligations.LoopsComplete : Prop :=
  (∀ (s : State) (n : BitVec 24) (r : BitVec 4) (e t : BitVec 10) (ring : BitVec 8),
     let rot := fun (u : State) => if ring = 0 then u else u.later 0 true (.rot (BitVec.ofNat 64 ((ring.toNat - 1) * 2 ^ 32)))
     let push := fun (k : Nat) => let u := rot s
       ({ u with core := { u.core with loops :=
           { trip := BitVec.ofNat 32 k, iter := 0, start := BitVec.ofNat 10 (s.core.ent + 1), stop := e, ring := ring != 0 } :: s.core.loops } } : State)
     (s.core.loops.length ≠ 6 → n ≠ 0 → exec (.loop n e ring) s = .next (push n.toNat)) ∧
     (s.core.loops.length ≠ 6 → s.getC r ≠ 0 → exec (.loopr r e ring) s = .next (push (min (s.getC r).toNat (2 ^ 32 - 1)))) ∧
     (s.core.loops.length ≠ 6 → s.getC r = 0 →
       exec (.loopr r e ring) s = .next (let u := rot s; { u with core := { u.core with jump := some (e.toNat + 1) } })) ∧
     (∀ lv rest, s.core.loops = lv :: rest → exec (.brkLoop t) s = .next
       { s with core := { s.core with loops := rest, jump := some (s.core.ent + 1), rotAt := if lv.ring then some (lv.iter + 1) else s.core.rotAt,
                                      xfer := some (t.toNat, s.fcyc + 3) } }) ∧
     (s.core.loops.length = 6 → exec (.loop n e ring) s = .next (s.trap .c 1 2) ∧ exec (.loopr r e ring) s = .next (s.trap .c 1 2)) ∧
     (s.core.loops = [] → exec (.brkLoop t) s = .next (s.trap .c 1 3))) ∧
  (∀ (lv : Level) (rest : List Level) (e : Nat),
     loopNext [] e = (e + 1, [], false) ∧
     (e ≠ lv.stop.toNat → loopNext (lv :: rest) e = (e + 1, lv :: rest, false)) ∧
     (e = lv.stop.toNat → lv.iter.toNat + 1 < lv.trip.toNat →
       loopNext (lv :: rest) e = (lv.start.toNat, { lv with iter := lv.iter + 1 } :: rest, lv.ring)) ∧
     (e = lv.stop.toNat → lv.iter.toNat + 1 = lv.trip.toNat → loopNext (lv :: rest) e = (e + 1, rest, lv.ring)))

/-- Predicate and control-register forms complete and queue their result at issue (11 R254, R255, R256, R264); `COPY.A` from a `c` register queues
it at issue+1. Sums and differences wrap modulo 2^64; immediates are sign-extended.
The integer conditions of 11 R255 on 64-bit operands, two's-complement and unsigned, TST and its negation. -/
def Obligations.ControlResults : Prop :=
  (∀ (s : State) (d r x y : BitVec 4) (a b : PRef) (k : W32) (c : Cond) (ad : BitVec 5),
     let next := fun (i : Instr) (act : Act) => exec i s = .next (s.later 0 true act)
     next (.pset d a) (.p d (s.getPRef a)) ∧
     next (.pand d a b) (.p d (s.getPRef a && s.getPRef b)) ∧
     next (.por d a b) (.p d (s.getPRef a || s.getPRef b)) ∧
     next (.pxor d a b) (.p d (s.getPRef a != s.getPRef b)) ∧
     next (.pnot d a) (.p d (!s.getPRef a)) ∧
     (∃ v : W64, v.toInt = k.toInt ∧ next (.cmovi d k) (.c d v)) ∧
     next (.cmov d r) (.c d (s.getC r)) ∧
     (∃ v : W64, v.toNat = ((s.getC d).toNat + (s.getC r).toNat) % 2 ^ 64 ∧ next (.cadd d r) (.c d v)) ∧
     (∃ v : W64, (v.toNat : Int) = ((s.getC d).toNat + k.toInt) % 2 ^ 64 ∧ next (.caddi d k) (.c d v)) ∧
     (∃ v : W64, (v.toNat + (s.getC r).toNat) % 2 ^ 64 = (s.getC d).toNat ∧ next (.csub d r) (.c d v)) ∧
     next (.ccmp c d x y) (.p d (condTrue c (s.getC x) (s.getC y))) ∧
     (∃ v : W64, v.toInt = k.toInt ∧ next (.ccmpi c d x k) (.p d (condTrue c (s.getC x) v))) ∧
     (∃ v : W64, (∀ j, 16 ≤ j → v.getLsbD j = false) ∧ (∀ j, j < 16 → v.getLsbD j = s.getP (BitVec.ofNat 4 j)) ∧ next (.psave d) (.c d v)) ∧
     exec (.pload r) s = .next ((List.range 15).foldl
       (fun u i => u.later 0 true (.p (BitVec.ofNat 4 (i + 1)) ((s.getC r).getLsbD (i + 1)))) s) ∧
     exec (.copyAC ad r) s = .next (s.later 1 false (.a ad (s.getC r))) ∧
     (∃ v : W64, (v.toNat : Int) = (s.gang.sfc.toNat + k.toInt) % 2 ^ 64 ∧ next (.frame d k) (.c d v)) ∧
     (∃ v : W64, v.toNat = s.gang.now % 2 ^ 64 ∧ next (.frameCyc d) (.c d v)) ∧
     exec .nop s = .next s) ∧
  (∀ x y : W64,
     (condTrue .eq x y = true ↔ x = y) ∧ (condTrue .ne x y = true ↔ x ≠ y) ∧
     (condTrue .lt x y = true ↔ x.toInt < y.toInt) ∧ (condTrue .ge x y = true ↔ y.toInt ≤ x.toInt) ∧
     (condTrue .le x y = true ↔ x.toInt ≤ y.toInt) ∧ (condTrue .gt x y = true ↔ y.toInt < x.toInt) ∧
     (condTrue .ltu x y = true ↔ x.toNat < y.toNat) ∧ (condTrue .geu x y = true ↔ y.toNat ≤ x.toNat) ∧
     (condTrue .leu x y = true ↔ x.toNat ≤ y.toNat) ∧ (condTrue .gtu x y = true ↔ y.toNat < x.toNat) ∧
     (condTrue .tst x y = true ↔ ∃ j, x.getLsbD j = true ∧ y.getLsbD j = true) ∧
     (condTrue .tstn x y = true ↔ ∀ j, ¬(x.getLsbD j = true ∧ y.getLsbD j = true)))

/-- `SIGN` ends the core's phase execution with the sampled PIDX predicate, `HALT` with none and forces END; both with the MXU or LXE busy take
ILLEGAL_BUNDLE (08 R184; 11 R257; 13 R320; 14 R348). On a firmware core `SIGN` does nothing, `HALT` stops issue until FWEVT has a bit, `YIELD` does
nothing (18 R421). `YIELD` sets the give-way bit (11 R258). `SEALREQ` requests a seal (07 R153); on a firmware core of an `UNSEALED` domain, which has only
the clock's and the programs' triggers, it does nothing (07 R169). -/
def Obligations.PhaseControlCompletes : Prop :=
  ∀ (s : State),
    let arrive := (s.gang.signHalves s.core.codeBad s.rank s.gang.now).2
    let asks := s.isFw = false ∨ s.dom.sealed = true
    (s.isFw = false → s.core.mxu.busy = false → s.lxBusy = false → ∃ t, exec .sign s = .next t ∧
      t.core.run = .signed ∧ t.core.offTimed = (s.core.run == .timed) ∧ t.core.bit = some s.pidxBit ∧ t.core.due = arrive ∧ t.core.loops = [] ∧ SameRegs s.core t.core ∧
      t.gang = s.gang ∧ t.mem = s.mem ∧ t.clu = s.clu ∧ t.cores = s.cores) ∧
    (s.isFw = false → s.core.mxu.busy = false → s.lxBusy = false → ∃ t, exec .halt s = .next t ∧
      t.core.run = .signed ∧ t.core.bit = none ∧ t.core.due = arrive ∧ SameRegs s.core t.core ∧
      t.gang = { s.gang with haltReq := true } ∧ t.mem = s.mem ∧ t.clu = s.clu) ∧
    (s.isFw = true → exec .sign s = .next s ∧ exec .yield_ s = .next s) ∧
    (s.isFw = true → (s.fwd s.die).evt = 0 → exec .halt s = .next { s with core := { s.core with run := .halted } }) ∧
    (s.isFw = true → (s.fwd s.die).evt ≠ 0 → exec .halt s = .next s) ∧
    (s.isFw = false → exec .yield_ s = .next { s with gang := { s.gang with giveWay := true } }) ∧
    (asks → s.dom.st = .none → exec .sealreq s = .next { s with dom := { s.dom with st := .requested } }) ∧
    (asks → s.dom.st = .requested → exec .sealreq s = .next s) ∧
    (s.isFw = true → s.dom.sealed = false → exec .sealreq s = .next s) ∧
    (asks → s.dom.st ≠ .none → s.dom.st ≠ .requested → exec .sealreq s = .next { s with dom := { s.dom with again := true } }) ∧
    (s.isFw = false → s.core.mxu.busy = true → exec .sign s = .next (s.trap .c 1 8) ∧ exec .halt s = .next (s.trap .c 1 8)) ∧
    (s.isFw = false → s.core.mxu.busy = false → s.lxBusy = true →
      exec .sign s = .next (s.trap .c 1 12) ∧ exec .halt s = .next (s.trap .c 1 12))

/-- `ENQ` completes: the predicate performs at issue+63, 1 where the packet of `a0` to `a7` is accepted into the intake, 0 where the core has four
packets there or its context is being torn down; the packet waits for every access of its core with a write that is not applied and delivered
everywhere, for every Sconce operation of it that writes and is not performed, and for every command of it that is not complete (11 R259, 06 R132). On a
firmware core the packet is the queue's own context's (18 R421). That the packet joins the intake in the cycle of the issue is the model's choice (log 22). -/
def Obligations.EnqCompletes : Prop :=
  ∀ (s : State) (d : BitVec 4) (c : Ctx),
    let ctx := if s.isFw then (rget s.disp.queues (BitVec.ofNat 6 (bits (s.getA 3).toNat 53 48))).ctx else s.gang.ctx
    s.ctxOf ctx = some c →
    let mine := (s.disp.intake.filter fun r => r.from_ == some s.core.id).length
    (mine < 4 → c.torn = false → ∃ t r, exec (.enq d) s = .next (t.later 63 true (.p d true)) ∧
      t = { s with disp := { s.disp with intake := s.disp.intake ++ [r] } } ∧ r.from_ = some s.core.id ∧ r.ctx = ctx ∧
      r.bytes.length = 64 ∧ (∀ (i : BitVec 5), i.toNat < 8 → ofBytes ((r.bytes.drop (8 * i.toNat)).take 8) = (s.getA i).toNat) ∧
      (∀ a ∈ s.mem.accs, a.who = .core s.core.id →
        (∃ e ∈ s.mem.wq ++ s.mem.wlog, e.acc = a.id) ∨ (∃ o ∈ s.mem.ops, o.acc = a.id ∧ o.op ≠ 0x08 ∧ o.op ≠ 0x15) ∨
          (a.done = false ∧ ∃ k ∈ s.mem.cmds, k.acc = a.id) → a.id ∈ r.preds)) ∧
    (4 ≤ mine ∨ c.torn = true → exec (.enq d) s = .next (s.later 63 true (.p d false)))

/-- `WAITB` issues at once where the phase bit stands, waits otherwise, and takes OVERRUN in a LOCKSTEP timed chain (11 R260). `ARRV` performs its
arrival at issue+1.
`WAITA` (11 R261): a wait that has ended issues with its outcome; otherwise, the line being translated and no outcome logged, it issues with 1
where a recall stands since the watch began, with 0 where the limit is 0, and else waits until limit core cycles have passed, its line in the snoop filter;
the walk may correct an error or report a line in error, which is all that it leaves. A line that does
not translate takes FAR_PAGE, and a LOCKSTEP timed chain OVERRUN. That the fault names the line's address is the model's choice (log 16). -/
def Obligations.WaitsComplete : Prop :=
  (∀ (s : State) (fb : BitVec 5) (ph : Bool),
     (s.lockstep = false → (s.getFb fb).getLsbD 32 = ph → exec (.waitb fb ph) s = .next s) ∧
     (s.lockstep = false → (s.getFb fb).getLsbD 32 ≠ ph →
       exec (.waitb fb ph) s = .next { s with core := { s.core with wait := .waitb fb ph, hold := true } }) ∧
     (s.lockstep = true → exec (.waitb fb ph) s = .next (s.trap .c 2 1)) ∧
     exec (.arrv fb) s = .next (s.later 1 true (.fbArrive fb))) ∧
  (∀ (s : State) (p r : BitVec 4) (limit : W32), s.lockstep = false →
     (∀ b, (s.waitaDone p b).core.wait = .none ∧ (s.waitaDone p b).core.inCnt.waita = s.core.inCnt.waita + 1 ∧
       (s.waitaDone p b).core.pend = (s.later 0 true (.p p b)).core.pend) ∧
     (∀ l a b out, s.core.wait = .waita l a b (some out) → exec (.waita p r limit) s = .next (s.waitaDone p out)) ∧
     (∀ line, s.core.wait = .none → s.sharedLine (s.getC r).toNat = some line → s.waitaReplay = none → ∃ u : State,
       u = { s with agenda := u.agenda, draw := u.draw, pkg := { s.pkg with corrected := u.pkg.corrected } } ∧
       (s.recalled line (s.watchFrom line) = true → exec (.waita p r limit) s = .next (u.waitaDone p true)) ∧
       (s.recalled line (s.watchFrom line) = false → limit = 0 → exec (.waita p r limit) s = .next (u.waitaDone p false)) ∧
       (s.recalled line (s.watchFrom line) = false → limit ≠ 0 → ∃ t, exec (.waita p r limit) s = .next t ∧ t.core.hold = true ∧
         t.core.wait = .waita line (s.watchFrom line) (s.gang.now + limit.toNat) none ∧ SameRegs s.core t.core ∧
         (s.pkg.snoop.length < 65536 → line ∈ t.pkg.snoop))) ∧
     (∀ line b, s.core.wait = .none → s.sharedLine (s.getC r).toNat = some line → s.waitaReplay = some b → ∃ u : State,
       u = { s with agenda := u.agenda, draw := u.draw, pkg := { s.pkg with corrected := u.pkg.corrected } } ∧
       exec (.waita p r limit) s = .next (u.waitaDone p b)) ∧
     (s.core.wait = .none → s.sharedLine (s.getC r).toNat = none →
       exec (.waita p r limit) s =
         .next (s.trap .c 11 (if s.part (s.getC r).toNat = .outside then 2 else 0) ((s.getC r).toNat / 64 * 64))))

/-- `FENCE` completes without holding issue: a new access follows the frontiers of the masked streams and becomes the frontier of each; at a scope
other than CORE, with a stream in its mask, it is a party of the phase and arrives when its wait ends; at CORE, or with an empty mask, it is over at once
and arrives at issue+1 (06 R131; 11 R262; the cycle of that arrival is the model's choice, log 91). -/
def Obligations.FenceCompletes : Prop :=
  ∀ (s : State) (sc : Scope) (mask : BitVec 16) (fb : Option (BitVec 5)), ∃ t, exec (.fence sc mask fb) s = .next t ∧
    t.mem.nextId = s.mem.nextId + 1 ∧
    (∃ a ∈ t.mem.accs, a.id = s.mem.nextId ∧ a.fence = some sc ∧ a.mask = mask ∧ (a.done = true ↔ sc = .core ∨ mask = 0) ∧
      (∀ x, x ∈ a.preds ↔ ∃ st : BitVec 4, mask.getLsbD st.toNat = true ∧ x ∈ s.frontier st)) ∧
    (∀ st : BitVec 4, t.frontier st = if mask.getLsbD st.toNat then [s.mem.nextId] else s.frontier st) ∧
    (sc ≠ .core → mask ≠ 0 → t.gang.cmdsOut = s.gang.cmdsOut ++ [s.mem.nextId] ∧ t.core.pend = s.core.pend) ∧
    (sc = .core ∨ mask = 0 → t.gang = s.gang ∧
      t.core.pend = (match fb with | some n => (s.later 1 true (.fbArrive n)).core.pend | none => s.core.pend)) ∧
    SameRegs s.core t.core ∧ SameBytes s t

/-- `TRAP` and `BRK` are software faults: the group stops at this bundle, which has no effect; the record names class, AUX and the C slot, disposition
group stop; and the program counter stays at the bundle (10 R240; 11 R263; 17 R397, R401). -/
def Obligations.SoftwareFaultsStop : Prop :=
  ∀ (s : State) (k : W32) (i : Instr) (cls : Nat), i = .trap k ∧ cls = 17 ∨ i = .brk k ∧ cls = 18 → s.isFw = false → s.die < 5 →
    ∃ t, exec i s = .next t ∧ t.gang.run = .stopped ∧ t.core = s.core ∧ t.clu = s.clu ∧ t.mem = s.mem ∧ t.cores = s.cores ∧
      (∃ x, t.traps = s.traps ++ [x]) ∧
      ∃ (r : FaultRec) (h : s.die < 5), (t.pkg.faults[s.die]).getLast? = some r ∧ r.cls = BitVec.ofNat 16 cls ∧ r.cause = 0 ∧ r.aux = k ∧
        r.slots = 1 ∧ r.disp = 0 ∧ r.rank = BitVec.ofNat 8 s.rank ∧ r.segment = BitVec.ofNat 32 s.core.seg ∧ r.entry = BitVec.ofNat 11 s.core.ent

/-- `SYSRD` queues the register at issue+1; AFLAGS read while a chain's flags are pending keeps every flag that is set, the others being free (log 7);
TIME and FWTIMER are read after an unstated advance (log 7). A privileged number in an object without PRIV takes PRIV (11 R264; 10 R245; 13 R312; 18 R422).
`SYSWR` queues its write: AFLAGS (bits given are cleared), a flag barrier, a staging word or a privileged register at issue+1, ROT at issue, which is the
model's choice (log 21); a read-only or unassigned number has no effect (11 R264; 10 R245, R246). While a seal's barrier is open a firmware core's operation
on a logged variable is held (07 R155). -/
def Obligations.SystemRegistersComplete : Prop :=
  (∀ (s : State) (d : BitVec 4) (r : BitVec 10),
     (s.privBad r = false → r ≠ 0x202 → r ≠ 0x203 → (r ≠ 0 ∨ s.core.mxu.flagsPending = false) →
       exec (.sysrd d r) s = .next (s.later 1 true (.c d (s.sysRead r.toNat)))) ∧
     (s.core.mxu.flagsPending = true → s.core.aflags.toNat < 2 ^ 7 → ∃ (v : W64) (n : Nat),
       exec (.sysrd d 0) s = .next (({ s with draw := n } : State).later 1 true (.c d v)) ∧ v &&& s.core.aflags = s.core.aflags ∧ v.toNat < 2 ^ 7) ∧
     (s.privBad 0x203 = false → ∃ t : State, exec (.sysrd d 0x203) s = .next (t.later 1 true (.c d (t.fwd s.die).time)) ∧ t.core = s.core ∧
       t.gang = s.gang ∧ t.mem = s.mem) ∧
     (s.privBad 0x202 = false → ∃ t : State, exec (.sysrd d 0x202) s = .next (t.later 1 true (.c d (t.fwd s.die).remaining)) ∧ t.core = s.core ∧
       t.gang = s.gang ∧ t.mem = s.mem) ∧
     (s.privBad r = true → exec (.sysrd d r) s = .next (s.trap .c 16 0)) ∧
     (s.privBad r = true ↔ 0x200 ≤ r.toNat ∧ s.gang.code.priv = false)) ∧
  (∀ (s : State) (r : BitVec 10) (c : BitVec 4), let v := s.getC c
     (s.privBad r = true → exec (.syswr r c) s = .next (s.trap .c 16 0)) ∧
     (s.privBad r = false →
       (r = 0 → exec (.syswr r c) s = .next (s.later 1 true (.flagsClr v))) ∧
       (r = 9 → exec (.syswr r c) s = .next (s.later 0 true (.rot v))) ∧
       (0x020 ≤ r.toNat → r.toNat < 0x040 → exec (.syswr r c) s = .next (s.later 1 true (.fbSet (BitVec.ofNat 5 (r.toNat - 0x020)) v))) ∧
       (0x050 ≤ r.toNat → r.toNat < 0x08C → exec (.syswr r c) s =
         .next (s.later 1 true (.stageSys (BitVec.ofNat 4 ((r.toNat - 0x050) / 5)) (BitVec.ofNat 3 ((r.toNat - 0x050) % 5)) v))) ∧
       (0x200 ≤ r.toNat → (s.isFw = true → r = 0x223 → s.fwHeld (v.setWidth 6) = false) →
         exec (.syswr r c) s = .next (s.later 1 true (.fwReg r v))) ∧
       (s.isFw = true → r = 0x223 → s.fwHeld (v.setWidth 6) = true →
         exec (.syswr r c) s = .next { s with core := { s.core with hold := true } }) ∧
       (r ≠ 0 → r ≠ 9 → ¬(0x020 ≤ r.toNat ∧ r.toNat < 0x040) → ¬(0x050 ≤ r.toNat ∧ r.toNat < 0x08C) → r.toNat < 0x200 →
         exec (.syswr r c) s = .next s)))

/-! ### The A slot -/

/-- Scalar arithmetic on registers completes: results are those of the integers, wrapped to 64 bits; they perform at issue, products at issue+2; shift
counts are the low six bits (11 R265).
Immediate forms, moves, counts and bit fields complete, performing at issue: immediates of twelve bits are sign-extended; a field of width
w1 + 1 from bit `lo` is extracted, or inserted into the old destination (11 R267, R268). -/
def Obligations.ScalarArithmetic : Prop :=
  (∀ (s : State) (d x y : BitVec 5) (u : Bool),
     let X := s.getA x
     let Y := s.getA y
     let n := (s.getA y).toNat % 64
     let gives := fun (i : Instr) (dt : Nat) (ok : W64 → Prop) => ∃ v, ok v ∧ exec i s = .next (s.later dt true (.a d v))
     gives (.add d x y) 0 (fun v => v.toNat = (X.toNat + Y.toNat) % 2 ^ 64) ∧
     gives (.sub d x y) 0 (fun v => (v.toNat + Y.toNat) % 2 ^ 64 = X.toNat) ∧
     gives (.mul d x y) 2 (fun v => v.toNat = X.toNat * Y.toNat % 2 ^ 64) ∧
     gives (.mulh d x y true) 2 (fun v => v.toNat = X.toNat * Y.toNat / 2 ^ 64) ∧
     gives (.mulh d x y false) 2 (fun v => v.toInt = X.toInt * Y.toInt / 2 ^ 64) ∧
     gives (.shl d x y) 0 (fun v => v.toNat = X.toNat * 2 ^ n % 2 ^ 64) ∧
     gives (.shr d x y) 0 (fun v => v.toNat = X.toNat / 2 ^ n) ∧
     gives (.sar d x y) 0 (fun v => v.toInt = X.toInt / 2 ^ n) ∧
     gives (.and_ d x y) 0 (fun v => ∀ j, v.getLsbD j = (X.getLsbD j && Y.getLsbD j)) ∧
     gives (.or_ d x y) 0 (fun v => ∀ j, v.getLsbD j = (X.getLsbD j || Y.getLsbD j)) ∧
     gives (.xor_ d x y) 0 (fun v => ∀ j, v.getLsbD j = (X.getLsbD j != Y.getLsbD j)) ∧
     gives (.min_ d x y u) 0 (fun v => if u then v.toNat = min X.toNat Y.toNat else v.toInt = min X.toInt Y.toInt) ∧
     gives (.max_ d x y u) 0 (fun v => if u then v.toNat = max X.toNat Y.toNat else v.toInt = max X.toInt Y.toInt)) ∧
  (∀ (s : State) (d x : BitVec 5) (k : BitVec 12) (n : BitVec 6) (j31 : BitVec 31) (lo w1 : BitVec 6),
     let X := s.getA x
     let D := s.getA d
     let w := w1.toNat + 1
     let kb := fun (j : Nat) => decide (j < 64) && k.getLsbD (min j 11)
     let gives := fun (i : Instr) (ok : W64 → Prop) => ∃ v, ok v ∧ exec i s = .next (s.later 0 true (.a d v))
     gives (.addi d x k) (fun v => (v.toNat : Int) = (X.toNat + k.toInt) % 2 ^ 64) ∧
     gives (.andi d x k) (fun v => ∀ j, v.getLsbD j = (X.getLsbD j && kb j)) ∧
     gives (.ori d x k) (fun v => ∀ j, v.getLsbD j = (X.getLsbD j || kb j)) ∧
     gives (.xori d x k) (fun v => ∀ j, v.getLsbD j = (X.getLsbD j != kb j)) ∧
     gives (.shli d x n) (fun v => v.toNat = X.toNat * 2 ^ n.toNat % 2 ^ 64) ∧
     gives (.shri d x n) (fun v => v.toNat = X.toNat / 2 ^ n.toNat) ∧
     gives (.sari d x n) (fun v => v.toInt = X.toInt / 2 ^ n.toNat) ∧
     gives (.movi d j31) (fun v => v.toInt = j31.toInt) ∧
     gives (.movhi d j31) (fun v => v.toNat = (D.toNat * 2 ^ 31 + j31.toNat) % 2 ^ 64) ∧
     gives (.clz d x) (fun v => v.toNat ≤ 64 ∧ X.toNat < 2 ^ (64 - v.toNat) ∧ (v.toNat < 64 → 2 ^ (63 - v.toNat) ≤ X.toNat)) ∧
     gives (.popc d x) (fun v => v.toNat = ((List.range 64).filter fun j => X.getLsbD j).length) ∧
     gives (.bfx false d x lo w1) (fun v => v.toNat = X.toNat / 2 ^ lo.toNat % 2 ^ w) ∧
     gives (.bfx true d x lo w1) (fun v => v.toInt = signExt (X.toNat / 2 ^ lo.toNat % 2 ^ w) w) ∧
     gives (.bfi d x lo w1) (fun v => ∀ j, j < 64 →
       v.getLsbD j = if lo.toNat ≤ j ∧ j < lo.toNat + w then X.getLsbD (j - lo.toNat) else D.getLsbD j))

/-- Compares queue their predicate at issue+1 and, where the form names a register, 0 or 1 for it at issue; `SEL` chooses by a predicate (11 R266). -/
def Obligations.ScalarCompares : Prop :=
  ∀ (s : State) (c : Cond) (p : BitVec 4) (d x y : BitVec 5) (k : BitVec 12),
    (let b := condTrue c (s.getA x) (s.getA y)
     exec (.cmp c none p x y) s = .next (s.later 1 false (.p p b)) ∧
     exec (.cmp c (some d) p x y) s = .next ((s.later 1 false (.p p b)).later 0 true (.a d (if b then 1 else 0)))) ∧
    (∃ v : W64, v.toInt = k.toInt ∧
      (let b := condTrue c (s.getA x) v
       exec (.cmpi c none p x k) s = .next (s.later 1 false (.p p b)) ∧
       exec (.cmpi c (some d) p x k) s = .next ((s.later 1 false (.p p b)).later 0 true (.a d (if b then 1 else 0))))) ∧
    exec (.sel d p x y) s = .next (s.later 0 true (.a d (if s.getP p then s.getA x else s.getA y)))

/-- Tile scalars (11 R269). With the element's table check passed, its format usable and no range in the way, `LDT` completes: it samples the element at
issue+1, or +2 in a CLUSTER tile, and claims the bank port of its word; `STT` completes: the encoded element is written at issue+7, or +10, with a
claim on the bank's write port. Failed checks take the fault that R44 names with the handle as object, FORMAT, or LINK_MISMATCH with the range's link. -/
def Obligations.TileScalarsComplete : Prop :=
  ∀ (s : State) (r : BitVec 5) (t : BitVec 12) (i : BitVec 5) (off : BitVec 14), let k := s.elemOff i off
    (∀ c, s.tileCheck t.toNat (some k) = .ok c → s.fmtOk c.ent.fmt = true → s.rangeTrap t.toNat (c.ent.wordsOf k) false = none →
      ∃ u, exec (.ldt r t i off) s = .next u ∧
        u = (s.later (if c.ent.lvl then 2 else 1) true (.sampleLdt c k r s.gang.now)).charge (if c.ent.lvl then 2 else 1) false c (c.ent.wordOf k)) ∧
    (∀ c, s.tileCheck t.toNat (some k) = .ok c → s.fmtOk c.ent.fmt = true → isBlock c.ent.fmt = false →
      s.rangeTrap t.toNat [c.ent.wordOf k] true = none →
      ∃ u, exec (.stt r t i off) s = .next u ∧
        (let dt := if c.ent.lvl then 10 else 7
         let code := encodeLane c.ent.fmt .rne (k / c.ent.n0) (k % c.ent.n0) false ((s.getA r).setWidth 32)
         u = ((s.later dt true (.tile c [elemUpd c.ent k code.1])).flagLater dt code.2).charge dt true c (c.ent.wordOf k))) ∧
    (∀ cls, s.tileCheck t.toNat (some k) = .error cls →
      exec (.ldt r t i off) s = .next (s.trap .a cls 0 (if cls = 6 ∨ cls = 7 then t.toNat else 0)) ∧
      exec (.stt r t i off) s = .next (s.trap .a cls 0 (if cls = 6 ∨ cls = 7 then t.toNat else 0))) ∧
    (∀ c, s.tileCheck t.toNat (some k) = .ok c →
      (s.fmtOk c.ent.fmt = false → exec (.ldt r t i off) s = .next (s.trap .a 8 0) ∧ exec (.stt r t i off) s = .next (s.trap .a 8 0)) ∧
      (isBlock c.ent.fmt = true → exec (.stt r t i off) s = .next (s.trap .a 8 0)) ∧
      (∀ cause, s.fmtOk c.ent.fmt = true → s.rangeTrap t.toNat (c.ent.wordsOf k) false = some cause →
        exec (.ldt r t i off) s = .next (s.trap .a 9 cause 0 (s.rangeLink t.toNat (c.ent.wordsOf k) false))) ∧
      (∀ cause, s.fmtOk c.ent.fmt = true → isBlock c.ent.fmt = false → s.rangeTrap t.toNat [c.ent.wordOf k] true = some cause →
        exec (.stt r t i off) s = .next (s.trap .a 9 cause 0 (s.rangeLink t.toNat [c.ent.wordOf k] true))))

/-- Far loads and stores outside a LOCKSTEP timed chain complete where the address is aligned and its page can be used: the access takes its place in its
stream and the core waits for its return; a load's bytes are read at its die, a store's bytes are written at their home. Otherwise FAR_PAGE, cause 1 for
alignment first, 2 for a package that the context does not run on, 0 for a page that does not translate, or OVERRUN (08 R193; 11 R270; 15 R372; 17 R402;
02 R27-R34). What stands in another package of the context translates there (log 53), and a logged store of firmware is held while a seal's barrier is open
(07 R155). -/
def Obligations.FarAccessesComplete : Prop :=
  ∀ (s : State) (sz : BitVec 2) (st : BitVec 4) (r b : BitVec 5) (off : BitVec 16),
    let va := s.farAddr b off
    let n := 2 ^ sz.toNat
    let goes := s.lockstep = false ∧ va % n = 0
    ((va : Int) = ((s.getA b).toNat + off.toInt) % 2 ^ 64) ∧
    (s.lockstep = true → exec (.fld sz st r b off) s = .next (s.trap .a 2 1) ∧ exec (.fst sz st r b off) s = .next (s.trap .a 2 1)) ∧
    (s.lockstep = false → va % n ≠ 0 →
      exec (.fld sz st r b off) s = .next (s.trap .a 11 1 va) ∧ exec (.fst sz st r b off) s = .next (s.trap .a 11 1 va)) ∧
    (goes → s.part va = .outside →
      exec (.fld sz st r b off) s = .next (s.trap .a 11 2 va) ∧ exec (.fst sz st r b off) s = .next (s.trap .a 11 2 va)) ∧
    (goes → s.part va = .own → (s.translate va false).1 = none → exec (.fld sz st r b off) s = .next (s.trap .a 11 0 va)) ∧
    (goes → s.part va = .own → (s.translate va true).1 = none → exec (.fst sz st r b off) s = .next (s.trap .a 11 0 va)) ∧
    (∀ c, s.isFw = false → s.ctxOf s.gang.ctx = some c →
      (s.part va = .own ↔ c.pkgs.length ≤ 1 ∨ bits va 51 45 = s.pkg.cfg.pkg.toNat) ∧
      (s.part va = .outside ↔ 1 < c.pkgs.length ∧ bits va 51 45 ≠ s.pkg.cfg.pkg.toNat ∧ bits va 51 45 ∉ c.pkgs)) ∧
    (∀ pa lg u, goes → s.farPage va false = (.ok (pa, lg), u) → ∃ t, exec (.fld sz st r b off) s = .next t ∧
      t.core.far = some s.mem.nextId ∧ t.frontier st = [s.mem.nextId] ∧ SameRegs s.core t.core ∧ SameBytes s t ∧
      ∃ e ∈ t.mem.rq, e.acc = s.mem.nextId ∧ e.addr = pa ∧ e.n = n ∧ e.dst = .reg s.core.id r ∧ e.val = none) ∧
    (∀ pa lg u, goes → s.farPage va true = (.ok (pa, lg), u) →
      (s.isFw = true → lg = true → s.barrier = true → exec (.fst sz st r b off) s = .next { s with core := { s.core with hold := true } }) ∧
      (¬(s.isFw = true ∧ lg = true ∧ s.barrier = true) → ∃ t, exec (.fst sz st r b off) s = .next t ∧
        t.core.far = some s.mem.nextId ∧ t.frontier st = [s.mem.nextId] ∧ SameRegs s.core t.core ∧ SameBytes s t ∧
        ∃ e ∈ t.mem.wq, e.acc = s.mem.nextId ∧ e.line = pa / 64 * 64 ∧ e.logged = lg ∧ e.home = homeOf pa ∧
          e.src = .bytes (cellsAt pa (toBytes n (s.getA r).toNat)))) ∧
    (∀ w x, s.part va = .own → (s.translate va w).1 = some x → (s.farPage va w).1 = .ok x) ∧
    (∀ w q, s.part va = .other q → (s.farPage va w).1 = .ok (farVa q va, false) ∨ (s.farPage va w).1 = .error 0) ∧
    (∀ w c u, goes → s.farPage va w = (.error c, u) →
      (w = false → exec (.fld sz st r b off) s = .next (s.trap .a 11 c va)) ∧ (w = true → exec (.fst sz st r b off) s = .next (s.trap .a 11 c va)))

/-- Staging writes, arms, tile allocation and copies out of the A file complete (11 R271-R273; 10 R235-R239): `GEN.SET` writes a staging word at issue+1;
`GEN.ARM` that passes the checks of 10 R238, with no read-ahead word in an open range, captures its tile and queues the arm at issue, with the reads
of the first vectors, and with one LINK_MISMATCH with the range's link; `TALLOC` of a free handle whose entry is allowed creates it at issue+1 and queues 0, or
queues 1 where the reservation has no room; extents above DIMS or a format that is not allowed take FORMAT; `TFREE` of an entry without captures frees it at issue+1; a copy queues its register at issue+1. -/
def Obligations.GeneratorsAndTiles : Prop :=
  ∀ (s : State) (n : BitVec 4) (w : BitVec 3) (r q : BitVec 5) (t : BitVec 12) (fmt : BitVec 5) (dims : BitVec 2) (lvl retain msk : Bool)
    (owner : BitVec 2) (k3 : BitVec 3) (k4 : BitVec 4),
    exec (.genSet n w r) s = .next (s.later 1 true (.stage n w (s.getA r))) ∧
    (let p := s.getPort n.toNat
     ∀ c, s.armCheck n.toNat p.stage = .ok c →
      let vs := if 8 ≤ n.toNat then [] else List.range (min (aheadOf c.ent) (psNV p.stage))
      ((vs.any fun i => s.openHit c.h (vecWords p.stage c.ent i)) = true →
        exec (.genArm n) s = .next (s.trap .a 9 0 0 (s.rangeLink c.h (vs.flatMap (vecWords p.stage c.ent)) false))) ∧
      ((vs.any fun i => s.openHit c.h (vecWords p.stage c.ent i)) = false → ∃ u, exec (.genArm n) s = .next u ∧ SameRegs s.core u.core ∧
        u.mem = s.mem ∧ { time := s.gang.now, iss := s.gang.now, own := true, act := .arm n.toNat p.stage c } ∈ u.core.pend ∧
        ∀ i ∈ vs, { time := s.gang.now + (2 + i), iss := s.gang.now, own := true, act := .samplePort n (p.arm + 1) i c (vecWords p.stage c.ent i) } ∈ u.core.pend)) ∧
    (∀ cls, s.armCheck n.toNat (s.getPort n.toNat).stage = .error cls → ∃ a, exec (.genArm n) s = .next (s.trap .a cls 0 a)) ∧
    (let e := allocEnt (s.getA r) fmt dims lvl retain owner
     (s.tableView.tile? t.toNat = none → e.extentsOk = true → e.formatOk = true →
      (s.tableView.fits e = true → exec (.talloc t r q fmt dims lvl retain owner) s =
        .next ((s.later 1 true (.tileNew t.toNat e)).later 1 true (.a q 0))) ∧
      (s.tableView.fits e = false → exec (.talloc t r q fmt dims lvl retain owner) s = .next (s.later 1 true (.a q 1)))) ∧
     (s.tableView.tile? t.toNat = none → (e.formatOk = false ∨ e.dims = 0 ∧ e.e1 ≠ 0 ∨ e.dims.toNat ≤ 1 ∧ e.e2 ≠ 0 ∨ e.dims.toNat ≤ 2 ∧ e.e3 ≠ 0) →
       exec (.talloc t r q fmt dims lvl retain owner) s = .next (s.trap .a 8 0)) ∧
     (∀ x, s.tableView.tile? t.toNat = some x → exec (.talloc t r q fmt dims lvl retain owner) s = .next (s.trap .a 7 0 t.toNat))) ∧
    (∀ x, s.tableView.tile? t.toNat = some x → x.caps = 0 → exec (.tfree t) s = .next (s.later 1 true (.tileFree t.toNat))) ∧
    (∀ x, s.tableView.tile? t.toNat = some x → x.caps ≠ 0 → exec (.tfree t) s = .next (s.trap .a 7 0 t.toNat)) ∧
    (s.tableView.tile? t.toNat = none → exec (.tfree t) s = .next (s.trap .a 7 0 t.toNat)) ∧
    exec (.copyV0 msk k3 r) s = .next (s.later 1 false (if msk then .m .v0 k3 (s.getA r) (BitVec.allOnes 64) else .b .v0 k3 ((s.getA r).setWidth 32))) ∧
    exec (.copyV1 msk k3 r) s = .next (s.later 1 false (if msk then .m .v1 k3 (s.getA r) (BitVec.allOnes 64) else .b .v1 k3 ((s.getA r).setWidth 32))) ∧
    exec (.copyM k3 r) s = .next (s.later 1 false (.mp k3 (s.getA r))) ∧
    exec (.copyX k4 r) s = .next (s.later 1 false (.xp k4 (s.getA r))) ∧
    exec (.copyC k4 r) s = .next (s.later 1 false (.c k4 (s.getA r)))

/-! ### The V slots -/

/-- Integer forms of two and one operands complete with the results of 12 R287: lane by lane, wrapped to 32 bits unless clamped, signed or unsigned as
named, shift counts five bits; no flag. Constants are read as integers (09 R218). -/
def Obligations.VectorIntegers : Prop :=
  ∀ (s : State) (o : Bin) (q : Un),
    let m := s.getM o.u o.m
    let m1 := s.getM q.u q.m
    let two := fun (i : Instr) (lat : Nat) (ok : W32 → W32 → W32 → Prop) => ∃ f : W32 → W32 → W32, (∀ x y, ok x y (f x y)) ∧
      VecGives i s o.u o.d [(o.x, true), (o.y, true)] lat m (fun vs j => f (srcLane vs 0 j) (srcLane vs 1 j)) (fun _ => 0)
    let one := fun (i : Instr) (ok : W32 → W32 → Prop) => ∃ f : W32 → W32, (∀ x, ok x (f x)) ∧
      VecGives i s q.u q.d [(q.x, true)] 2 m1 (fun vs j => f (srcLane vs 0 j)) (fun _ => 0)
    let clamp := fun (k : Int) => max (-2 ^ 31) (min (2 ^ 31 - 1) k)
    two (.iadd o) 2 (fun x y v => v.toNat = (x.toNat + y.toNat) % 2 ^ 32) ∧
    two (.isub o) 2 (fun x y v => (v.toNat + y.toNat) % 2 ^ 32 = x.toNat) ∧
    two (.imul o) 4 (fun x y v => v.toNat = x.toNat * y.toNat % 2 ^ 32) ∧
    two (.imulh o) 4 (fun x y v => v.toInt = x.toInt * y.toInt / 2 ^ 32) ∧
    two (.imulhu o) 4 (fun x y v => v.toNat = x.toNat * y.toNat / 2 ^ 32) ∧
    two (.ishl o) 2 (fun x y v => v.toNat = x.toNat * 2 ^ (y.toNat % 32) % 2 ^ 32) ∧
    two (.ishr o) 2 (fun x y v => v.toNat = x.toNat / 2 ^ (y.toNat % 32)) ∧
    two (.isar o) 2 (fun x y v => v.toInt = x.toInt / 2 ^ (y.toNat % 32)) ∧
    two (.iand o) 2 (fun x y v => ∀ j, v.getLsbD j = (x.getLsbD j && y.getLsbD j)) ∧
    two (.ior o) 2 (fun x y v => ∀ j, v.getLsbD j = (x.getLsbD j || y.getLsbD j)) ∧
    two (.ixor o) 2 (fun x y v => ∀ j, v.getLsbD j = (x.getLsbD j != y.getLsbD j)) ∧
    two (.iandn o) 2 (fun x y v => ∀ j, v.getLsbD j = (x.getLsbD j && !y.getLsbD j)) ∧
    two (.imin o) 2 (fun x y v => v.toInt = min x.toInt y.toInt) ∧
    two (.imax o) 2 (fun x y v => v.toInt = max x.toInt y.toInt) ∧
    two (.iminu o) 2 (fun x y v => v.toNat = min x.toNat y.toNat) ∧
    two (.imaxu o) 2 (fun x y v => v.toNat = max x.toNat y.toNat) ∧
    two (.iadds o) 2 (fun x y v => v.toInt = clamp (x.toInt + y.toInt)) ∧
    two (.isubs o) 2 (fun x y v => v.toInt = clamp (x.toInt - y.toInt)) ∧
    one (.iabs q) (fun x v => v.toNat = x.toInt.natAbs) ∧
    one (.iclz q) (fun x v => v.toNat ≤ 32 ∧ x.toNat < 2 ^ (32 - v.toNat) ∧ (v.toNat < 32 → 2 ^ (31 - v.toNat) ≤ x.toNat)) ∧
    one (.ipopc q) (fun x v => v.toNat = ((List.range 32).filter fun j => x.getLsbD j).length)

/-- Floating-point arithmetic, minimum and maximum, sign, class, rounding, scaling and the transcendentals complete with their latencies (12 R280-R286;
05 R108): each lane is the lane function of its sources, and the flags are the OR over the lanes that the mask enables (12 R275; 04 R97). -/
def Obligations.VectorFloats : Prop :=
  ∀ (s : State) (o : Bin) (q : Un) (z : Tri) (rm : Dir),
    let md := modeOf rm
    let two := fun (i : Instr) (iy : Bool) (lat : Nat) (f : W32 → W32 → W32 × Fl) =>
      VecGives i s o.u o.d [(o.x, false), (o.y, iy)] lat (s.getM o.u o.m) (fun vs j => (f (srcLane vs 0 j) (srcLane vs 1 j)).1)
        (fun vs => orLanes (fun j => (f (srcLane vs 0 j) (srcLane vs 1 j)).2) (s.getM o.u o.m))
    let one := fun (i : Instr) (lat : Nat) (f : W32 → W32 × Fl) =>
      VecGives i s q.u q.d [(q.x, false)] lat (s.getM q.u q.m) (fun vs j => (f (srcLane vs 0 j)).1)
        (fun vs => orLanes (fun j => (f (srcLane vs 0 j)).2) (s.getM q.u q.m))
    let three := fun (i : Instr) (neg : Bool) =>
      let f := fmaLane md neg
      VecGives i s z.u z.d [(z.x, false), (z.y, false), (z.z, false)] 5 (s.getM z.u z.m)
        (fun vs j => (f (srcLane vs 0 j) (srcLane vs 1 j) (srcLane vs 2 j)).1)
        (fun vs => orLanes (fun j => (f (srcLane vs 0 j) (srcLane vs 1 j) (srcLane vs 2 j)).2) (s.getM z.u z.m))
    two (.fadd o rm) false 4 (addLane md) ∧ two (.fsub o rm) false 4 (subLane md) ∧ two (.fmul o rm) false 5 (mulLane md) ∧
    three (.fma z rm) false ∧ three (.fnma z rm) true ∧
    two (.fmin o) false 4 (fun x y => (minLane x y, 0)) ∧ two (.fmax o) false 4 (fun x y => (maxLane x y, 0)) ∧
    two (.fscale o rm) true 4 (scaleLane md) ∧
    one (.fabs q) 2 (fun x => (x &&& 0x7FFFFFFF, 0)) ∧ one (.fneg q) 2 (fun x => (x ^^^ 0x80000000, 0)) ∧
    one (.fclass q) 2 (fun x => (fclassBit x, 0)) ∧ one (.fround q rm) 4 (roundLane md) ∧
    one (.frcp q rm) 10 rcpLane ∧ one (.frsq q rm) 10 rsqLane ∧ one (.fsqrt q rm) 10 sqrtLane ∧
    one (.fexp2 q rm) 14 exp2Lane ∧ one (.flog2 q rm) 14 log2Lane ∧ one (.ftanh q rm) 14 tanhLane

/-- `FMIN` and `FMAX` take the lesser or greater operand's pattern: a NaN operand gives the canonical NaN; -0 is below +0 in either order; no flag is set
(12 R281). Their fields are those of `FADD` with MODE zero. -/
def Obligations.FminFmaxMean : Prop :=
  (∀ x y : W32, (valOf x).isNan = true ∨ (valOf y).isNan = true → minLane x y = 0x7FC00000 ∧ maxLane x y = 0x7FC00000) ∧
  (minLane 0 0x80000000 = 0x80000000 ∧ minLane 0x80000000 0 = 0x80000000 ∧ maxLane 0 0x80000000 = 0 ∧ maxLane 0x80000000 0 = 0) ∧
  (∀ x y : W32, (valOf x).isNan = false → (valOf y).isNan = false →
    ((valOf x).lt (valOf y) = true → minLane x y = x ∧ maxLane x y = y) ∧
    ((valOf y).lt (valOf x) = true → minLane x y = y ∧ maxLane x y = x) ∧
    (minLane x y = x ∨ minLane x y = y) ∧ (maxLane x y = x ∨ maxLane x y = y)) ∧
  (∀ (s : State) (o : Bin),
    VecGives (.fmin o) s o.u o.d [(o.x, false), (o.y, false)] 4 (s.getM o.u o.m) (fun vs j => minLane (srcLane vs 0 j) (srcLane vs 1 j)) (fun _ => 0) ∧
    VecGives (.fmax o) s o.u o.d [(o.x, false), (o.y, false)] 4 (s.getM o.u o.m) (fun vs j => maxLane (srcLane vs 0 j) (srcLane vs 1 j)) (fun _ => 0)) ∧
  (∀ o : Bin, ∃ a b c : VW, encV (.fadd o .rne) = some a ∧ encV (.fmin o) = some b ∧ encV (.fmax o) = some c ∧
    a.mode = 0 ∧ b = { a with op := b.op } ∧ c = { a with op := c.op })

/-- Selects complete: `FSEL` by a mask register, `ISEL` by a lane that is not zero (12 R282, R288). Compares complete into a mask register: `FCMP` at
latency 4 with its flags, `ICMP` at latency 2 without (12 R283, R288). -/
def Obligations.SelectsAndCompares : Prop :=
  ∀ (s : State) (o : Bin) (z : Tri) (k : CmpOps) (c : BitVec 3) (fc : FCond) (ic : Cond),
    VecGives (.fsel o c) s o.u o.d [(o.x, false), (o.y, false)] 2 (s.getM o.u o.m)
      (fun vs j => if (s.getM o.u c).getLsbD j then srcLane vs 0 j else srcLane vs 1 j) (fun _ => 0) ∧
    VecGives (.isel z) s z.u z.d [(z.x, true), (z.y, true), (z.z, true)] 2 (s.getM z.u z.m)
      (fun vs j => if srcLane vs 2 j ≠ 0 then srcLane vs 0 j else srcLane vs 1 j) (fun _ => 0) ∧
    (let f := fun (vs : List Lanes) j => fcondTrue fc (valOf (srcLane vs 0 j)) (valOf (srcLane vs 1 j))
     MaskGives (.fcmp fc k) s k.u k.d [(k.x, false), (k.y, false)] 4 (s.getM k.u k.m) (fun vs j => (f vs j).1)
      (fun vs => orLanes (fun j => (f vs j).2) (s.getM k.u k.m))) ∧
    MaskGives (.icmp ic k) s k.u k.d [(k.x, true), (k.y, true)] 2 (s.getM k.u k.m)
      (fun vs j => condTrue ic (srcLane vs 0 j) (srcLane vs 1 j)) (fun _ => 0)

/-- Reductions write one value to every lane, scans to each lane the combination of the lanes up to it, or below it if exclusive; lanes whose mask bit is
clear count as the identity; every lane is written (12 R289, R290; 04 R100, R101).
The integer sum of a reduction is the sum of the selected lanes modulo 2^32, whatever the tree; minima and maxima are those of the selected lanes
(04 R100; 12 R289): the greatest or least of them, unsigned or signed, and never below, or above, the identity. -/
def Obligations.ReductionsAndScans : Prop :=
  (∀ (s : State) (q : Un) (uns : Bool),
     let m := s.getM q.u q.m
     let all := BitVec.allOnes 64
     let red := fun (i : Instr) (int : Bool) (lat : Nat) (f : (Nat → Bool) → Lanes → W32 × Fl) =>
       VecGives i s q.u q.d [(q.x, int)] lat all (fun vs _ => (f (fun j => m.getLsbD j) (nth vs 0 (Lanes.splat 0))).1)
         (fun vs => (f (fun j => m.getLsbD j) (nth vs 0 (Lanes.splat 0))).2)
     let scn := fun (i : Instr) (int incl : Bool) (lat : Nat) (idt : W32) (f : (Nat → Bool) → Lanes → W32 × Fl) =>
       let lane := fun (vs : List Lanes) (j : Nat) =>
         if incl = false ∧ j = 0 then (idt, (0 : Fl)) else f (upTo m j incl) (nth vs 0 (Lanes.splat 0))
       VecGives i s q.u q.d [(q.x, int)] lat all (fun vs j => (lane vs j).1) (fun vs => orLanes (fun j => (lane vs j).2) all)
     let maxS := fun (x y : W32) => if x.toInt ≤ y.toInt then y else x
     let minS := fun (x y : W32) => if x.toInt ≤ y.toInt then x else y
     let maxU := fun (x y : W32) => if x.toNat ≤ y.toNat then y else x
     let minU := fun (x y : W32) => if x.toNat ≤ y.toNat then x else y
     red (.frsum q) false 16 frsumOf ∧ red (.frmax q) false 8 (treeOf maxLane 0xFF800000) ∧ red (.frmin q) false 8 (treeOf minLane 0x7F800000) ∧
     red (.irsum q) true 6 (treeOf (· + ·) 0) ∧
     red (.irmax q uns) true 6 (if uns then treeOf maxU 0 else treeOf maxS 0x80000000) ∧
     red (.irmin q uns) true 6 (if uns then treeOf minU 0xFFFFFFFF else treeOf minS 0x7FFFFFFF) ∧
     scn (.fscan q) false true 18 0x80000000 frsumOf ∧ scn (.fscanx q) false false 18 0x80000000 frsumOf ∧
     scn (.iscan q) true true 8 0 (treeOf (· + ·) 0) ∧ scn (.iscanx q) true false 8 0 (treeOf (· + ·) 0)) ∧
  (∀ (on : Nat → Bool) (x : Lanes),
     let l := ((List.range 64).filter on).map x.lane
     (treeOf (· + ·) 0 on x).1.toNat = (l.map BitVec.toNat).sum % 2 ^ 32 ∧
     (let v := (treeOf (fun x y : W32 => if x.toNat ≤ y.toNat then y else x) 0 on x).1
      (∀ y ∈ l, y.toNat ≤ v.toNat) ∧ (v = 0 ∨ v ∈ l)) ∧
     (let v := (treeOf (fun x y : W32 => if x.toNat ≤ y.toNat then x else y) 0xFFFFFFFF on x).1
      (∀ y ∈ l, v.toNat ≤ y.toNat) ∧ (v = 0xFFFFFFFF ∨ v ∈ l)) ∧
     (let v := (treeOf (fun x y : W32 => if x.toInt ≤ y.toInt then y else x) 0x80000000 on x).1
      (∀ y ∈ l, y.toInt ≤ v.toInt) ∧ (v = 0x80000000 ∨ v ∈ l)) ∧
     (let v := (treeOf (fun x y : W32 => if x.toInt ≤ y.toInt then x else y) 0x7FFFFFFF on x).1
      (∀ y ∈ l, v.toInt ≤ y.toInt) ∧ (v = 0x7FFFFFFF ∨ v ∈ l)))

/-- Lane j of an inclusive scan equals the tree over the vector whose lanes above j, and whose lanes that the mask leaves out, are replaced by the identity;
lane j of an exclusive scan equals that value for j - 1, and the identity for j = 0 (04 R101). So for the integer trees and for the sums of `FSCAN` and
`FSCANX`. -/
def Obligations.ScansAreTrees : Prop :=
  (∀ (op : W32 → W32 → W32) (idt : W32) (m : W64) (x : Lanes) (j : Nat), j < 64 →
    let lanes := (List.range 64).map fun i => if i ≤ j ∧ m.getLsbD i = true then x.lane i else idt
    let lanesF := (List.range 64).map fun i => if i ≤ j ∧ m.getLsbD i = true then x.lane i else (0x80000000 : W32)
    (treeOf op idt (upTo m j true) x).1 = pairTree op idt lanes ∧
    (0 < j → treeOf op idt (upTo m j false) x = treeOf op idt (upTo m (j - 1) true) x) ∧
    frsumOf (upTo m j true) x = pairTree addF (0, 0) (lanesF.map fun w => (w, 0)) ∧
    (0 < j → frsumOf (upTo m j false) x = frsumOf (upTo m (j - 1) true) x)) ∧
  (∀ (s : State) (q : Un),
    let m := s.getM q.u q.m
    let all := BitVec.allOnes 64
    let src := fun (vs : List Lanes) => nth vs 0 (Lanes.splat 0)
    let below := fun (f : (Nat → Bool) → Lanes → W32 × Fl) (idt : W32) (vs : List Lanes) (j : Nat) =>
      if j = 0 then (idt, (0 : Fl)) else f (upTo m (j - 1) true) (src vs)
    VecGives (.iscan q) s q.u q.d [(q.x, true)] 8 all (fun vs j => (treeOf (· + ·) 0 (upTo m j true) (src vs)).1) (fun _ => 0) ∧
    VecGives (.iscanx q) s q.u q.d [(q.x, true)] 8 all (fun vs j => (below (treeOf (· + ·) 0) 0 vs j).1) (fun _ => 0) ∧
    VecGives (.fscan q) s q.u q.d [(q.x, false)] 18 all (fun vs j => (frsumOf (upTo m j true) (src vs)).1)
      (fun vs => orLanes (fun j => (frsumOf (upTo m j true) (src vs)).2) all) ∧
    VecGives (.fscanx q) s q.u q.d [(q.x, false)] 18 all (fun vs j => (below frsumOf 0x80000000 vs j).1)
      (fun vs => orLanes (fun j => (below frsumOf 0x80000000 vs j).2) all))

/-- Movement completes (12 R291-R293, R295): `COMPRESS` lists the set mask bits or the set bits of a 2,048-bit map, or packs lanes; `EXPAND` puts the n-th packed lane
at the n-th set bit; `PERM`, `BCAST`, `ROTL`, `MOV`, `LANEID` move lanes; `MOVB` queues a lane for a broadcast register at issue+1; copies to the A file at
issue+2.
`EXPAND` undoes `COMPRESS` form 2 for the same mask: on the lanes of the mask it gives back the lanes that were packed (12 R291, R292). -/
def Obligations.VectorMovement : Prop :=
  (∀ (s : State) (u : VU) (d : VDst) (q : Un) (o : Bin) (k : BitVec 3) (n : BitVec 6) (x y : VSrc) (a r : BitVec 5) (rot : Bool) (bd : BitVec 3),
     let m := s.getM q.u q.m
     let mk := s.getM u k
     let all := BitVec.allOnes 64
     let moves := fun (i : Instr) (f : Nat → Nat) => VecGives i s q.u q.d [(q.x, false)] 2 m (fun vs j => srcLane vs 0 (f j)) (fun _ => 0)
     VecGives (.compressM u d k) s u d [] 3 all (fun _ j => nth ((positions 64 fun i => mk.getLsbD i).map (BitVec.ofNat 32)) j 0xFFFFFFFF) (fun _ => 0) ∧
     VecGives (.compressB u d x y) s u d [(x, true), (y, true)] 3 all
       (fun vs j => nth ((positions 2048 fun i => decide ((srcLane vs 1 0).toNat ≤ i) && (srcLane vs 0 (i / 32)).getLsbD (i % 32)).map (BitVec.ofNat 32))
         j 0xFFFFFFFF) (fun _ => 0) ∧
     VecGives (.compressV q) s q.u q.d [(q.x, false)] 3 all (fun vs j => nth ((positions 64 fun i => m.getLsbD i).map (srcLane vs 0)) j 0) (fun _ => 0) ∧
     VecGives (.expand q) s q.u q.d [(q.x, false)] 3 m (fun vs j => srcLane vs 0 ((List.range j).filter fun i => m.getLsbD i).length) (fun _ => 0) ∧
     VecGives (.perm o) s o.u o.d [(o.x, false), (o.y, true)] 3 (s.getM o.u o.m) (fun vs j => srcLane vs 0 ((srcLane vs 1 j).toNat % 64)) (fun _ => 0) ∧
     moves (.bcast q n) (fun _ => n.toNat) ∧ moves (.rotl q n) (fun j => (j + n.toNat) % 64) ∧ moves (.mov q) (fun j => j) ∧
     VecGives (.laneid u d k) s u d [] 2 mk (fun _ j => BitVec.ofNat 32 j) (fun _ => 0) ∧
     (∀ vs, s.sources u [(x, false)] = some vs →
       exec (.movb u bd x n) s = .next ((s.popped [(x, false)]).later 1 true (.b u bd (srcLane vs 0 n.toNat)))) ∧
     exec (.copyAV u a r rot n) s = .next (s.later 2 false (.a a (((s.getV u (s.rotated u r rot)).lane n.toNat).setWidth 64))) ∧
     exec (.mskcopyA u a k) s = .next (s.later 2 false (.a a mk))) ∧
  (∀ (m : W64) (x : Lanes) (j : Nat), j < 64 → m.getLsbD j = true →
     (packLanes ((positions 64 fun i => m.getLsbD i).map x.lane) 0).lane (positions j fun i => m.getLsbD i).length = x.lane j)

/-- Mask forms complete (12 R294): logic of two masks, `NOT`, masks from and to vectors, and the population count to every lane. -/
def Obligations.MaskForms : Prop :=
  ∀ (s : State) (o : Msk2) (u : VU) (d k x : BitVec 3) (v : VSrc) (vd : VDst),
    let a := s.getM o.u o.x
    let b := s.getM o.u o.y
    let m := s.getM o.u o.m
    let two := fun (i : Instr) (f : W64) => exec i s = .next (s.later 1 true (.m o.u o.d f m))
    two (.mskand o) (a &&& b) ∧ two (.mskor o) (a ||| b) ∧ two (.mskxor o) (a ^^^ b) ∧ two (.mskandn o) (a &&& ~~~b) ∧
    exec (.msknot u d x k) s = .next (s.later 1 true (.m u d (~~~(s.getM u x)) (s.getM u k))) ∧
    MaskGives (.mskfrom u d v k) s u d [(v, true)] 2 (s.getM u k) (fun vs j => srcLane vs 0 j != 0) (fun _ => 0) ∧
    VecGives (.mskto u vd x k) s u vd [] 2 (s.getM u k) (fun _ j => if (s.getM u x).getLsbD j then 1 else 0) (fun _ => 0) ∧
    VecGives (.mskpopc u vd x k) s u vd [] 2 (s.getM u k)
      (fun _ _ => BitVec.ofNat 32 ((List.range 64).filter fun j => (s.getM u x).getLsbD j).length) (fun _ => 0)

/-! ### Conversions, ports and formats -/

/-- `FCVT` completes (12 R285). To a simple format: latency 4, each lane converted under its mode, rows of DITHER read as integers. To a block format: latency 6,
lanes 0 to 31 and 32 to 63 each a block, masked-off lanes counting as +0, each lane what its block decodes to. Under FEEDBACK the result is that of
value plus residue, and the new residues of the masked lanes are written with it, from the result as FP32 (04 R92). -/
def Obligations.FcvtCompletes : Prop :=
  ∀ (s : State) (o : Un) (isI sat : Bool) (tgt : BitVec 4) (r : CvtRnd),
    let fmt : BitVec 5 := tgt.setWidth 5
    let l := (o.x, isI) :: (match r with | .dither x => [(x, true)] | _ => [])
    let m := s.getM o.u o.m
    let row := fun (vs : List Lanes) j => (srcLane vs 1 j).toNat
    (isBlock fmt = false → (∀ e, r ≠ .feedback e) →
      VecGives (.fcvt o isI tgt r sat) s o.u o.d l 4 m (fun vs j => (cvtLane fmt (CvtMode r) (row vs j) j sat isI (srcLane vs 0 j)).1)
        (fun vs => orLanes (fun j => (cvtLane fmt (CvtMode r) (row vs j) j sat isI (srcLane vs 0 j)).2) m)) ∧
    (isBlock fmt = false → ∀ e, r = .feedback e → ∀ vs, s.sources o.u l = some vs →
      let c := fun j => cvtFeed fmt sat (srcLane vs 0 j) ((s.getE o.u e).lane j)
      ∀ x y : Lanes, (∀ j, j < 64 → x.lane j = (c j).d ∧ y.lane j = (c j).e) → (s.popped l).dstReady o.u o.d x m = true →
        ∃ t, exec (.fcvt o isI tgt r sat) s = .next (t.later ((s.popped l).putAt o.d 4) true (.e o.u e y m)) ∧ VPut (s.popped l) o.u o.d 4 x m (orLanes (fun j => (c j).fl) m) t) ∧
    (isBlock fmt = true → ∀ vs, s.sources o.u l = some vs →
      let old := match r with | .feedback e => s.getE o.u e | _ => Lanes.splat 0
      let v := fun j => if m.getLsbD j then
          (if isI then Val.ofInt (srcLane vs 0 j).toInt
           else match r with | .feedback _ => valOf (feedT (valOf (srcLane vs 0 j)) (old.lane j)).1 | _ => valOf (srcLane vs 0 j))
        else Val.zero false
      let code := cvtBlock fmt (CvtMode r) (row vs) sat v
      let dec := fun j => blockVal fmt (code (j / 32)) (j % 32)
      ∀ x : Lanes, (∀ j, j < 64 → x.lane j = (toF32 .rne (dec j)).1) → (s.popped l).dstReady o.u o.d x m = true →
        ∃ t fl, exec (.fcvt o isI tgt r sat) s = .next (match r with
            | .feedback e => t.later ((s.popped l).putAt o.d 6) true
                (.e o.u e (Lanes.build fun j => (feedE (valOf (srcLane vs 0 j)) (old.lane j) (feedT (valOf (srcLane vs 0 j)) (old.lane j)).1 (asF32 (dec j))).1) m)
            | _ => t) ∧ VPut (s.popped l) o.u o.d 6 x m fl t)

/-- A register result performs at issue+L-1 with its flags (05 R107; 12 R277). A push to an armed port with a vector left captures its tile again, advances POS
and queues the result's flags for issue+L-1 and the encoded words, the encode's flags and, under FEEDBACK, the residues of the masked lanes of the sequence for issue+7 (issue+10 in a CLUSTER tile) where the latency is at most 5, else
for issue+L+2 (issue+L+5) (05 R108, R113; 10 R239; 04 R92); words of an open or held range take LINK_MISMATCH with the range's link (15 R367). -/
def Obligations.ResultsReachDestinations : Prop :=
  ∀ (s : State) (u : VU) (n : BitVec 5) (rot : Bool) (o : BitVec 2) (lat : Nat) (x : Lanes) (m : W64) (fl : Fl),
    VPut s u (.reg n rot) lat x m fl ((s.later (lat - 1) true (.v u (s.rotated u n rot) x m)).flagLater (lat - 1) fl) ∧
    (let k := 8 + o.toNat
     let p := s.getPort k
     ∀ c t, p.cap = some c → s.dstReady u (.push o) x m = true → VPut s u (.push o) lat x m fl t →
      let out := encodePush p.active c.ent p.pos x m (s.getE u (psRes p.active))
      let dt := if lat ≤ 5 then (if c.ent.lvl then 10 else 7) else (if c.ent.lvl then lat + 5 else lat + 2)
      t.getPort k = { p with pos := p.pos + 1 } ∧ (∀ j, j ≠ k → t.getPort j = s.getPort j) ∧ SameRegs s.core t.core ∧ t.mem = s.mem ∧ t.gang = s.gang ∧
      { time := s.gang.now + dt, iss := s.gang.now, own := true, act := .tile c out.upd } ∈ t.core.pend ∧
      (fl ≠ 0 → { time := s.gang.now + (lat - 1), iss := s.gang.now, own := true, act := .flags fl } ∈ t.core.pend) ∧
      (out.fl ≠ 0 → { time := s.gang.now + dt, iss := s.gang.now, own := true, act := .flags out.fl } ∈ t.core.pend) ∧
      (psFeed p.active = true →
        ∃ m', (∀ j, j < 64 → m'.getLsbD j = (m.getLsbD j && decide (64 * p.pos + j < psT p.active))) ∧
          { time := s.gang.now + dt, iss := s.gang.now, own := true, act := .e u (psRes p.active) out.res m' } ∈ t.core.pend)) ∧
    (∀ c cause, (s.getPort (8 + o.toNat)).cap = some c → (s.getPort (8 + o.toNat)).armed = true → (s.getPort (8 + o.toNat)).pos < psNV (s.getPort (8 + o.toNat)).active →
      let p := s.getPort (8 + o.toNat)
      let ws := updWords (encodePush p.active c.ent p.pos x m (s.getE u (psRes p.active))).upd
      s.rangeTrap c.h ws true = some cause → s.vput u (.push o) lat x m fl = .next (s.trap (vuSlot u) 9 cause 0 (s.rangeLink c.h ws true))) ∧
    (∃ t, s.vput u (.push o) lat x m fl = .next t)

/-- Pops and peeks (05 R111, R112): an armed input port whose next vector has been read, and whose first pop has come due, gives that vector to a pop
and to a peek; the pop, once per form however often it is named, advances POS and drops the vector.
Every V-slot form with a vector source that cannot be read now, or with an output port that is not armed or has no vector left, takes PORT_UNARMED in its slot
and has no other effect; one whose pop schedules a read in an open range takes LINK_MISMATCH with the range's link (12 R278; 05 R113; 10 R240; 15 R367). -/
def Obligations.PortsComplete : Prop :=
  (∀ (s : State) (u : VU) (n : BitVec 3) (c : Cap) (x : Lanes) (f : Fl) (int : Bool),
     let p := s.getPort n.toNat
     p.cap = some c → p.armed = true → p.armIss + (if c.ent.lvl then 9 else 6) ≤ s.gang.now → p.pos < psNV p.active →
     p.buf.find? (fun b => b.1 == p.pos) = some (p.pos, x, f) →
     s.src u (.pop n) int = some x ∧ s.src u (.peek n) int = some x ∧ popsOf [.pop n, .pop n, .peek n] = [n.toNat] ∧
     (s.pop n.toNat).getPort n.toNat = { p with pos := p.pos + 1, buf := p.buf.filter fun b => b.1 != p.pos } ∧
     SameRegs s.core (s.pop n.toNat).core ∧ (s.pop n.toNat).mem = s.mem) ∧
  (∀ (s : State) (i : Instr) (u : VU), i.vu? = some u →
     ((∃ x ∈ i.vsrcs, ∃ n, x.port? = some n ∧ s.portVec n.toNat = none) → exec i s = .next (s.trap (vuSlot u) 5 0)) ∧
     (∀ k, i.vdst? = some (.push k) → (∀ x ∈ i.vsrcs, ∀ n, x.port? = some n → (s.portVec n.toNat).isSome = true) →
       (popsOf i.vsrcs).any s.popOpen = false →
       (let p := s.getPort (8 + k.toNat)
        p.cap = none ∨ p.armed = false ∨ psNV p.active ≤ p.pos) → exec i s = .next (s.trap (vuSlot u) 5 0)) ∧
     ((∀ x ∈ i.vsrcs, ∀ n, x.port? = some n → (s.portVec n.toNat).isSome = true) → (popsOf i.vsrcs).any s.popOpen = true →
       exec i s = .next (s.trap (vuSlot u) 9 0 0 (s.popLink (popsOf i.vsrcs)))))

/-- Encoding an INT32 lane into an integer format saturates; INT8, UINT8, INT16 and INT4 set SAT where the clamp changes the value; INT32 and UINT32 take the
bits unchanged; BIT stores whether the lane is not zero (04 R79).
Elements of 4 bits and of 1 bit are packed from bit 0 upward, and storing one leaves the other bits of its byte unchanged (04 R80). -/
def Obligations.IntegerEncodings : Prop :=
  (∀ x : W32,
     let sat := fun (fmt : BitVec 5) (lo hi : Int) =>
       decodeInt fmt (encodeInt fmt x).1 = max lo (min hi x.toInt) ∧ ((encodeInt fmt x).2 = fSAT ↔ x.toInt < lo ∨ hi < x.toInt) ∧
       ((encodeInt fmt x).2 = 0 ↔ lo ≤ x.toInt ∧ x.toInt ≤ hi)
     sat 5 (-128) 127 ∧ sat 6 0 255 ∧ sat 7 (-32768) 32767 ∧ sat 15 (-8) 7 ∧
     encodeInt 8 x = (x.toNat, 0) ∧ encodeInt 9 x = (x.toNat, 0) ∧ encodeInt 14 x = (if x ≠ 0 then 1 else 0, 0)) ∧
  (∀ (m : Memory) (k v : Nat), m.wf = true →
     m.field (4 * k) 4 = (m.get (k / 2)).toNat / (if k % 2 = 0 then 1 else 16) % 16 ∧
     m.field k 1 = (m.get (k / 8)).toNat / 2 ^ (k % 8) % 2 ∧
     (m.setField (4 * k) 4 v).field (4 * k) 4 = v % 16 ∧
     (∀ j, j ≠ k → (m.setField (4 * k) 4 v).field (4 * j) 4 = m.field (4 * j) 4) ∧
     (∀ j, j ≠ k → (m.setField k 1 v).field j 1 = m.field j 1) ∧ (m.setField k 1 v).field k 1 = v % 2)

/-- Rounding an FP32 value to FP32 changes nothing and raises no flag, in every mode of arithmetic, subnormal values included (04 R89, R95). -/
def Obligations.Fp32RoundsToItself : Prop :=
  ∀ (w : W32) (d : Dir), (valOf w).isNan = false → toF32 (modeOf d) (valOf w) = (w, 0)

/-! ### The M slot -/

/-- `MCALL` (13 R306, R307, R309, R311): where its checks pass, a routine of the captured micro-ops, descriptors and accumulator is accepted behind those
unended, at most one; it takes its first MXU cycle S at issue+11 or in the cycle after the last routine's E, and its last E after the cycles of its
micro-ops; the latch set alternates; its end is queued for E. Where a check fails the bundle traps with that check's class, cause and object, or link. -/
def Obligations.MatrixCalls : Prop :=
  ∀ (s : State) (r : BitVec 8) (k : BitVec 2),
    (∀ q, s.callCheck r k = .ok q → s.core.mxu.q.length < 2 ∧ q.args = s.core.mp ∧ q.acc = k ∧ q.iss = s.gang.now ∧ q.set1 = s.core.mxu.nextSet ∧
      cutEnd ((List.range 32).map fun i => s.ucodeAt s.pkgCore r.toNat i) = some q.ops ∧ routineOk q.ops = true ∧
      (s.core.mxu.q = [] → q.s = s.gang.now + 11) ∧
      (∀ x l, s.core.mxu.q = l ++ [x] → q.s = max (s.gang.now + 11) (x.e + 1)) ∧
      (∃ c, q.e + 1 = q.s + (q.ops.map (uCycles c)).sum) ∧
      ∃ t, exec (.mcall r k) s = .next t ∧ t.core.mxu.q = s.core.mxu.q ++ [q] ∧ t.core.mxu.nextSet = !s.core.mxu.nextSet ∧
        { time := s.gang.now + (q.e - s.gang.now), iss := s.gang.now, own := true, act := .mxEnd q.id } ∈ t.core.pend ∧
        SameRegs s.core t.core ∧ SameBytes s t ∧ t.mem = s.mem ∧ t.gang = s.gang) ∧
    (∀ cls cause x, s.callCheck r k = .error (cls, cause, x) →
      exec (.mcall r k) s = .next (s.trap .m cls cause (if cls = 9 then 0 else x) (if cls = 9 then x else 0)))

/-- The M-slot forms that write a register, an accumulator bit or a micro-op (13 R312, R313, R316-R319): what each queues and when, and what the queued
write does. `MLIVE` (OP 0x08) and `MDEAD` (0x09) take ACC and zeros, `COPY.A` (0x0A) AREG and MP. `MLIVE` and `MDEAD` set and clear LIVE at issue+1; `COPY.A` writes `mpK`, read at issue, at issue+2; `MZERO` writes zero bits to every lane at
issue+1 and leaves TYPE; `MLOADUC` and `MREADUC` at issue+1; `MSTAT` samples and writes at issue+1, or takes "open chain" (1, 7). `MCHB` and `MCHE` open and
close a chain, or take "chain" (1, 6). -/
def Obligations.MatrixForms : Prop :=
  ∀ (s : State) (k : BitVec 2) (mp : BitVec 3) (d i : BitVec 5) (r : BitVec 8),
    encM (.mlive k) = some ⟨0x08, 0, k, 0, 0, 0, 0, 0, 0⟩ ∧ encM (.mdead k) = some ⟨0x09, 0, k, 0, 0, 0, 0, 0, 0⟩ ∧
    encM (.copyAM d mp) = some ⟨0x0A, 0, 0, 0, 0, 0, mp, d, 0⟩ ∧
    exec (.mlive k) s = .next (s.later 1 true (.live k true)) ∧
    exec (.mdead k) s = .next (s.later 1 true (.live k false)) ∧
    (∀ p b, p.act = .live k b → s.doWrite p = { s with core := { s.core with mxu := { s.core.mxu with live := rset s.core.mxu.live k b } } }) ∧
    exec (.copyAM d mp) s = .next (s.later 2 false (.a d (s.getMp mp))) ∧
    exec (.mzero k) s = .next (s.later 1 true (.mzero k)) ∧
    (∀ p, p.act = .mzero k → ∃ t, s.doWrite p = t ∧ t.core.mxu.typ = s.core.mxu.typ ∧
      (∀ m n, Acc.lane (rget t.core.mxu.acc k) m n = 0) ∧ (∀ j, j ≠ k → rget t.core.mxu.acc j = rget s.core.mxu.acc j)) ∧
    exec (.mloaduc r i mp) s = .next (s.later 1 true (.ucodeW r i (s.getMp mp))) ∧
    (∀ p v, p.act = .ucodeW r i v → (s.doWrite p).ucodeAt s.pkgCore r.toNat i.toNat = v) ∧
    exec (.mreaduc mp r i) s = .next (s.later 1 true (.ucodeR mp r i)) ∧
    (s.core.mxu.openChain (s.gang.now + 1) (fun _ => true) = false → exec (.mstat mp) s = .next (s.later 1 true (.mstat mp))) ∧
    (s.core.mxu.openChain (s.gang.now + 1) (fun _ => true) = true → exec (.mstat mp) s = .next (s.trap .m 1 7)) ∧
    (s.core.mxu.chain = false → ∃ t, exec .mchb s = .next t ∧ t.core.mxu.chain = true ∧ t.core.mxu.chainAccs = [] ∧ t.core.mxu.q = s.core.mxu.q ∧
      SameRegs s.core t.core ∧ t.core.pend = s.core.pend ∧ t.mem = s.mem ∧ t.clu = s.clu ∧ t.gang = s.gang) ∧
    (s.core.mxu.chain = true → exec .mchb s = .next (s.trap .m 1 6)) ∧
    (s.core.mxu.chain = true → ∃ fl, (∀ x ∈ fl, x ∈ s.core.mxu.chainFlags) ∧
      exec .mche s = .next { s with core := { s.core with mxu := { s.core.mxu with chain := false, chainFlags := fl } } }) ∧
    (s.core.mxu.chain = false → exec .mche s = .next (s.trap .m 1 6))

/-- `MDRAIN` and `MGIDX` (13 R314, R315): where the tile, the format, the ranges and the chains allow it, a drain of the accumulator samples at issue+1, and
a gather's latch performs at issue+10; neither changes a register or a byte at issue. A range that does not fit takes TILE_BOUNDS or TILE_HANDLE; a format that is
disabled or not allowed, a base that R300 forbids, an offset that is no multiple of EPW, and reserved bits of a drain's descriptor take FORMAT (that a gather's bounds come
before its format, and the class for the reserved bits, are the model's choices, logs 119 and 120); words of open or held ranges take LINK_MISMATCH with the range's link; an accumulator
of an unfinished chain takes ILLEGAL_BUNDLE (1, 7). -/
def Obligations.MatrixDrainsGathers : Prop :=
  ∀ (s : State) (h : BitVec 12) (k : BitVec 2) (mp : BitVec 3) (rm : XRnd) (sat : Bool) (n : BitVec 8),
    let base := (s.getMp mp).toNat % 2 ^ 32
    (∀ c, s.tileCheck h.toNat (some (base + 16383)) = .ok c → s.fmtOk c.ent.fmt = true → c.ent.fmt ≠ 14 → (s.getMp mp).toNat < 2 ^ 32 →
      baseOk c.ent.fmt base = true →
      s.rangeTrap h.toNat ((List.range (drainWords c.ent.fmt)).map (base / epw c.ent.fmt + ·) ++ scaleWords c.ent base (drainWords c.ent.fmt)) true = none →
      (s.core.mxu.openChain (s.gang.now + 1) (· == k) = false →
        ∃ t x, exec (.mdrain h k mp rm sat) s = .next t ∧ t.core.mxu.drains = s.core.mxu.drains ++ [x] ∧
          x = { id := s.core.mxu.nextId, iss := s.gang.now, acc := k, cap := c, base := base, rm := rm, sat := sat } ∧
          { time := s.gang.now + 1, iss := s.gang.now, own := true, act := .drainSample x.id } ∈ t.core.pend ∧
          SameRegs s.core t.core ∧ SameBytes s t ∧ t.mem = s.mem ∧ t.gang = s.gang) ∧
      (s.core.mxu.openChain (s.gang.now + 1) (· == k) = true → exec (.mdrain h k mp rm sat) s = .next (s.trap .m 1 7))) ∧
    (∀ c, s.tileCheck h.toNat (some (base + 16383)) = .ok c →
      let words := (List.range (drainWords c.ent.fmt)).map (base / epw c.ent.fmt + ·) ++ scaleWords c.ent base (drainWords c.ent.fmt)
      (s.fmtOk c.ent.fmt = false ∨ c.ent.fmt = 14 ∨ 2 ^ 32 ≤ (s.getMp mp).toNat ∨ baseOk c.ent.fmt base = false →
        exec (.mdrain h k mp rm sat) s = .next (s.trap .m 8 0)) ∧
      (∀ cause, s.fmtOk c.ent.fmt = true → c.ent.fmt ≠ 14 → (s.getMp mp).toNat < 2 ^ 32 → baseOk c.ent.fmt base = true →
        s.rangeTrap h.toNat words true = some cause → exec (.mdrain h k mp rm sat) s = .next (s.trap .m 9 cause 0 (s.rangeLink h.toNat words true)))) ∧
    (∀ cls, s.tileCheck h.toNat (some (base + 16383)) = .error cls → exec (.mdrain h k mp rm sat) s = .next (s.trap .m cls 0 h.toNat)) ∧
    (let w := s.getMp mp
     let offs := (List.range n.toNat).map fun i => descBase w + s.gatherIdx mp i * descStride w
     ∀ c, s.tileCheck (descTile w) none = .ok c → (∀ o ∈ offs, o + epw c.ent.fmt ≤ c.ent.count ∧ o % epw c.ent.fmt = 0) →
      s.fmtOk c.ent.fmt = true → (mclass c.ent.fmt).isSome = true → isBlock c.ent.fmt = false → baseOk c.ent.fmt (descBase w) = true →
      s.openHit (descTile w) (offs.map (· / epw c.ent.fmt)) = false →
        ∃ t x, exec (.mgidx mp n) s = .next t ∧ t.core.mxu.gathers = s.core.mxu.gathers ++ [x] ∧ x.words = offs.map (· / epw c.ent.fmt) ∧ x.cap = c ∧
          { time := s.gang.now + 10, iss := s.gang.now, own := true, act := .gatherSet x.id } ∈ t.core.pend ∧
          SameRegs s.core t.core ∧ SameBytes s t ∧ t.mem = s.mem ∧ t.gang = s.gang) ∧
    (let w := s.getMp mp
     let offs := (List.range n.toNat).map fun i => descBase w + s.gatherIdx mp i * descStride w
     ∀ c, s.tileCheck (descTile w) none = .ok c →
      let allowed := s.fmtOk c.ent.fmt = true ∧ (mclass c.ent.fmt).isSome = true ∧ isBlock c.ent.fmt = false ∧ baseOk c.ent.fmt (descBase w) = true ∧
        ∀ o ∈ offs, o % epw c.ent.fmt = 0
      ((∃ o ∈ offs, c.ent.count < o + epw c.ent.fmt) → exec (.mgidx mp n) s = .next (s.trap .m 6 0 (descTile w))) ∧
      ((∀ o ∈ offs, o + epw c.ent.fmt ≤ c.ent.count) → ¬allowed → exec (.mgidx mp n) s = .next (s.trap .m 8 0)) ∧
      ((∀ o ∈ offs, o + epw c.ent.fmt ≤ c.ent.count) → allowed → s.openHit (descTile w) (offs.map (· / epw c.ent.fmt)) = true →
        exec (.mgidx mp n) s = .next (s.trap .m 9 0 0 (s.rangeLink (descTile w) (offs.map (· / epw c.ent.fmt)) false)))) ∧
    (∀ cls, s.tileCheck (descTile (s.getMp mp)) none = .error cls → exec (.mgidx mp n) s = .next (s.trap .m cls 0 (descTile (s.getMp mp))))

/-! ### The X slot -/

/-- `BX.LD`, `BX.ST`, `BX.CP`, `INGEST` and `EGRESS` (14 R324, R325, R337, R355, R356): a bundle that would pass 256 commands of the phase takes ILLEGAL_BUNDLE
"command limit" (1, 9); otherwise the command is accepted at issue, counted, the newest access and the frontier of its stream, and a party of the
phase; nothing is read or written yet. One whose checks pass has status 0; one with a wrong reserved bit is a failing command with FORMAT; one whose checks
fail names the first failure's class and object.
`BX.SCH` and `CSADV` (14 R338-R341): of the copy schedule, held by the rank that issues, `BX.SCH` releases the next entry, and `CSADV` adds one to CTR and
releases from NXT on the entries whose stage lies below it; the released entries and the form itself are counted, and NXT passes them. With no such
schedule, or one of another rank, ILLEGAL_BUNDLE "schedule" (1, 10); past 256 commands, "command limit". -/
def Obligations.TransfersAccepted : Prop :=
  (∀ (s : State) (o : BxOps) (w : WinOps),
     let takes := fun (i : Instr) (op : BitVec 6) (st : BitVec 4) (fb : Option (BitVec 5)) (a : BxArgs) =>
       (256 ≤ s.core.cmds → exec i s = .next (s.trap .x 1 9)) ∧
       (s.core.cmds < 256 → ∃ (t : State) (c : Cmd), exec i s = .next t ∧ t.mem.cmds = s.mem.cmds ++ [c] ∧ c.id = s.mem.nextId ∧ c.op = op ∧ c.stream = st ∧
         c.fb = fb ∧ c.who = s.core.id ∧ c.data = [] ∧ t.core.cmds = s.core.cmds + 1 ∧ t.frontier st = [s.mem.nextId] ∧
         t.gang.cmdsOut = s.gang.cmdsOut ++ [s.mem.nextId] ∧ SameRegs s.core t.core ∧ t.core.pend = s.core.pend ∧ SameBytes s t ∧
         (a.reservedOk = false → c.status = 1 ∧ c.fcode = 8) ∧
         (∀ b, a.reservedOk = true → s.ringOf a.ring = .error b → c.status = 1 ∧ c.fcode = b.1 ∧ c.faddr = b.2) ∧
         (∀ r b, a.reservedOk = true → s.ringOf a.ring = .ok r → s.checkEnds a = .error b → c.status = 1 ∧ c.fcode = b.1 ∧ c.faddr = b.2) ∧
         (∀ r e, a.reservedOk = true → s.ringOf a.ring = .ok r → s.checkEnds a = .ok e → c.status = 0 ∧ c.src = e.src ∧ c.dst = e.dst))
     takes (.bxLd o) opLd o.st o.fb (s.bxArgs opLd o) ∧ takes (.bxSt o) opSt o.st o.fb (s.bxArgs opSt o) ∧
     takes (.bxCp o) opCp o.st o.fb (s.bxArgs opCp o) ∧ takes (.ingest w) opIngest w.st w.fb (s.winArgs opIngest w) ∧
     takes (.egress w) opEgress w.st w.fb (s.winArgs opEgress w)) ∧
  (∀ (s : State) (n : BitVec 2) (sc : Sched), s.gang.scheds.find? (fun x => x.1 == n.toNat) = some (n.toNat, sc) →
     let one := (sc.ents.drop sc.nxt).take 1
     let due := (sc.ents.drop sc.nxt).takeWhile fun e => decide (e.stage < sc.ctr + 1)
     let gives := fun (i : Instr) (l : List SchedEnt) (sc' : Sched) => s.core.cmds + l.length + 1 ≤ 256 → ∃ t : State, exec i s = .next t ∧
       t.core.cmds = s.core.cmds + l.length + 1 ∧ t.mem.cmds.length = s.mem.cmds.length + l.length ∧
       t.gang.cmdsOut.length = s.gang.cmdsOut.length + l.length ∧
       t.gang.scheds.find? (fun x => x.1 == n.toNat) = some (n.toNat, { sc' with nxt := sc.nxt + l.length }) ∧ SameRegs s.core t.core ∧ SameBytes s t
     (sc.rank = s.rank → gives (.bxSch n) one sc ∧ gives (.csadv n) due { sc with ctr := sc.ctr + 1 } ∧
       (256 < s.core.cmds + one.length + 1 → exec (.bxSch n) s = .next (s.trap .x 1 9)) ∧
       (256 < s.core.cmds + due.length + 1 → exec (.csadv n) s = .next (s.trap .x 1 9))) ∧
     (sc.rank ≠ s.rank → exec (.bxSch n) s = .next (s.trap .x 1 10) ∧ exec (.csadv n) s = .next (s.trap .x 1 10)))

/-- The sixteen Sconce operations (14 R350, R352, R353): an operation whose target passes its checks takes its place, with its opcode, operands, reply number and
home, as the newest access of its stream and a party of the phase; one whose target fails is answered at once with its fault code, FORMAT where a
region offset has reserved bits and REGION_BOUNDS otherwise. Past 256 commands, "command limit". -/
def Obligations.SconceOperationsIssue : Prop :=
  ∀ (s : State) (o : At1) (q : At2),
    let takes := fun (i : Instr) (op : BitVec 6) (g np : Bool) (st xa : BitVec 4) (v n : W64) (fb : Option (BitVec 5)) =>
      (256 ≤ s.core.cmds → exec i s = .next (s.trap .x 1 9)) ∧
      (s.core.cmds < 256 →
        (∀ tg obj, s.target g xa op = (some tg, obj) → ∃ (t : State) (e : SOp), exec i s = .next t ∧ t.mem.ops = s.mem.ops ++ [e] ∧
          e.id = s.mem.nextId ∧ e.op = op ∧ e.loc = tg.loc ∧ e.home = tg.home ∧ e.v = v ∧ e.n = n ∧ e.np = np ∧ e.fb = fb ∧ e.rnum = s.core.rnum ∧
          t.core.rnum = s.core.rnum + 1 ∧ t.core.cmds = s.core.cmds + 1 ∧ t.frontier st = [s.mem.nextId] ∧
          t.gang.cmdsOut = s.gang.cmdsOut ++ [s.mem.nextId] ∧ SameRegs s.core t.core ∧ SameBytes s t) ∧
        (∀ obj, s.target g xa op = (none, obj) → ∃ (t : State) (r : Rep), exec i s = .next t ∧ t.mem.reps = s.mem.reps ++ [r] ∧ t.mem.ops = s.mem.ops ∧
          r.reply.value = 0 ∧ r.reply.op = op ∧ r.reply.rnum = s.core.rnum ∧ r.fb = fb ∧ r.write = !np ∧ r.fault.isSome = true ∧
          r.reply.fcode = (if g = true ∧ 2 ^ 44 ≤ (s.xpAt (xa.toNat + 1)).toNat then 8 else 12) ∧
          t.core.rnum = s.core.rnum + 1 ∧ t.frontier st = [s.mem.nextId] ∧ SameRegs s.core t.core ∧ SameBytes s t))
    let one := fun i op => takes i op o.g o.np o.st o.xa 0 0 o.fb
    let two := fun i op => takes i op q.g q.np q.st q.xa (s.getXp q.xb) (s.xpAt (q.xb.toNat + 1)) q.fb
    one (.atLd o) 0x08 ∧ two (.atSt q) 0x09 ∧ two (.atAdd q) 0x0A ∧ two (.atAnd q) 0x0B ∧ two (.atOr q) 0x0C ∧ two (.atXor q) 0x0D ∧
    two (.atMin q) 0x0E ∧ two (.atMax q) 0x0F ∧ two (.atMinu q) 0x10 ∧ two (.atMaxu q) 0x11 ∧ two (.atSwap q) 0x12 ∧ two (.atCas q) 0x13 ∧
    two (.atXadd q) opXadd ∧ one (.atXrd o) opXrd ∧ one (.atXclr o) opXclr ∧ one (.sbArrv o) opArrv

/-- `SB.WAIT`, `CQ.POP` and `COPY.A` from the X file (14 R353, R354, R357). A wait that has ended issues and is counted; a new one, its target in the context's
ranges, is held with an access of its stream until the barrier's phase allows; a target outside them faults the context, and in a LOCKSTEP timed chain it takes
OVERRUN. `CQ.POP` takes the oldest reply, value and status with bit 63, or zeros where there is none. -/
def Obligations.WaitsAndRepliesComplete : Prop :=
  ∀ (s : State) (st xa k : BitVec 4) (gen : Bool) (d : BitVec 5),
    (∀ w, s.lockstep = false → s.core.sbw = some w → w.out = true → s.core.cmds < 256 →
      exec (.sbWait st xa gen) s = .next { s with core := { s.core with cmds := s.core.cmds + 1, sbw := none } }) ∧
    (∀ c tg, s.lockstep = false → s.core.sbw = none → s.core.cmds < 256 → s.myCtx = some c → s.syncTarget c (s.getXp xa) false = some tg →
      ∃ t : State, exec (.sbWait st xa gen) s = .next t ∧ t.core.sbw = some { acc := s.mem.nextId, gen := gen, out := false } ∧ t.core.hold = true ∧
        t.frontier st = [s.mem.nextId] ∧ SameRegs s.core t.core ∧ SameBytes s t) ∧
    (∀ c, s.lockstep = false → s.core.sbw = none → s.core.cmds < 256 → s.myCtx = some c → s.syncTarget c (s.getXp xa) false = none →
      ∃ t : State, exec (.sbWait st xa gen) s = .next t ∧ (∀ k ∈ t.pkg.ctxs, k.id = s.gang.ctx → k.faulted = true) ∧ SameRegs s.core t.core) ∧
    (s.lockstep = true → exec (.sbWait st xa gen) s = .next (s.trap .x 2 1)) ∧
    (s.core.cq = [] → exec (.cqPop xa) s = .next ((s.later 1 true (.xp xa 0)).later 1 true (.xp (xa + 1) 0))) ∧
    (∀ r l, s.core.cq = r :: l → ∃ v : W64, v.getLsbD 63 = true ∧ v.toNat % 2 ^ 32 = r.rnum.toNat % 2 ^ 32 ∧
      exec (.cqPop xa) s = .next ((({ s with core := { s.core with cq := l } } : State).later 1 true (.xp xa r.value)).later 1 true (.xp (xa + 1) v))) ∧
    exec (.copyAX d k) s = .next (s.later 2 false (.a d (s.getXp k)))

/-- `LX` (14 R345-R347): with a legal descriptor pair, both tile ranges in their tiles and of usable formats, no word in an open or held range, and the LXE free to accept
it beside those it has, the command is accepted: sources are sampled from issue+1 on, destination words written from issue+40+K on, and neither a register nor a byte
changes at issue. A busy LXE takes ILLEGAL_BUNDLE (1, 11); a tile that fails its checks takes TILE_HANDLE or TILE_BOUNDS with its handle. -/
def Obligations.LayoutCommandCompletes : Prop :=
  ∀ (s : State) (xa xb : BitVec 4) (rm : XRnd) (sat : Bool) (d : Dmw) (cs cd : Cap),
    let sd := s.getXp xa
    let dd := s.xpAt (xa.toNat + 1)
    let e0 := (s.getXp xb).toNat
    let e1 := (s.xpAt (xb.toNat + 1)).toNat
    let ext := [bits e0 15 0, bits e0 31 16, bits e0 47 32, bits e0 63 48, bits e1 15 0, bits e1 31 16]
    let n := boxN ext
    let src := rangeWords cs.ent (descBase sd) n
    let dst := rangeWords cd.ent (descBase dd) n
    let o : LxOp :=
      { id := s.gang.nextId, rank := s.rank, iss := s.gang.now, src := cs, dst := cd, sBase := descBase sd, dBase := descBase dd, n := n, ext := ext,
        dmw := s.xpAt (xb.toNat + 2), rm := rm, sat := sat, k := d.cost, ns := (src.1 ++ src.2).length, nsE := src.1.length,
        nd := (dst.1 ++ dst.2).length, buf := [] }
    dmwOf (s.xpAt (xb.toNat + 2)) ext 6 = some d → e1 < 2 ^ 32 → n ≠ 0 → descStride sd = 0 → descStride dd = 0 →
      (∀ cls, s.tileCheck (descTile sd) (some (descBase sd + n - 1)) = .error cls → exec (.lx xa xb rm sat) s = .next (s.trap .x cls 0 (descTile sd))) ∧
      (s.tileCheck (descTile sd) (some (descBase sd + n - 1)) = .ok cs →
        (∀ cls, s.tileCheck (descTile dd) (some (descBase dd + n - 1)) = .error cls → exec (.lx xa xb rm sat) s = .next (s.trap .x cls 0 (descTile dd))) ∧
        (s.tileCheck (descTile dd) (some (descBase dd + n - 1)) = .ok cd →
          baseOk cs.ent.fmt (descBase sd) = true → baseOk cd.ent.fmt (descBase dd) = true → (isBlock cd.ent.fmt = true → n % 32 = 0 ∧ d.dims.headD 1 % 32 = 0) →
          s.fmtOk cs.ent.fmt = true → s.fmtOk cd.ent.fmt = true →
          s.rangeTrap cs.h (src.1 ++ src.2) false = none → s.rangeTrap cd.h (dst.1 ++ dst.2) true = none →
            (lxAccepts s.clu.lxs o = false → exec (.lx xa xb rm sat) s = .next (s.trap .x 1 11)) ∧
            (lxAccepts s.clu.lxs o = true → ∃ t : State, exec (.lx xa xb rm sat) s = .next t ∧ t.clu.lxs = s.clu.lxs ++ [o] ∧
              { time := s.gang.now + (39 + d.cost), iss := s.gang.now, own := true, act := .lxWrite o.id 0 } ∈ t.core.pend ∧
              { time := s.gang.now + (39 + d.cost + o.nd), iss := s.gang.now, own := true, act := .lxWrite o.id 1 } ∈ t.core.pend ∧
              o.firstWrite = s.gang.now + 40 + d.cost ∧ SameRegs s.core t.core ∧ SameBytes s t ∧ t.mem = s.mem)))

/-! ### The F slot -/

/-- `SEND`, `MCAST`, `RECV`, `RELAY` and `LCHK` (15 R360-R363, R366): where the descriptor, the links, the tile words, the link occupancy and the range tables allow
it, a transfer of the count its register gives is registered, START frame cycles after this one, the link ends it occupies are taken, and a range of the tile is held
(transmits) or open (receives). Reserved bits take FORMAT; a link that does not exist, an occupied link, a full table and an open range take LINK_MISMATCH (9; causes
2, 3, 1, 0) with the link in AUX, a tile that fails its checks its class with the handle. -/
def Obligations.LinkTransfersRegister : Prop :=
  ∀ (s : State) (l m : BitVec 4) (h : BitVec 12) (xp : BitVec 4) (start : BitVec 12) (e e' : LinkEnd) (dir : Nat) (c : Cap),
    let w := s.getXp xp
    let n := xferN w
    let at_ := s.gang.sfc.toNat + start.toNat
    let words := (List.range n).map (xferWord w + ·)
    let starts := fun (i : Instr) (k : FKind) (n word : Nat) (cap : Option Cap) (occ : Occ) (held opens : Bool) (link : Nat) => ∃ (t : State) (x : FXfer), exec i s = .next t ∧
      t.gang.xfers = s.gang.xfers ++ [x] ∧ x.kind = k ∧ x.start = at_ ∧ x.n = n ∧ x.word = word ∧ x.cap = cap ∧ x.rank = s.rank ∧ x.matched = false ∧ x.done = false ∧
      t.gang.occ = s.gang.occ ++ occ.map (fun y => (y.1, y.2.1, y.2.2, s.gang.now)) ∧
      t.core.heldR = (if held then s.core.heldR ++ [{ tile := h, word := word, count := n, link := link }] else s.core.heldR) ∧
      t.core.openR = (if opens then s.core.openR ++ [{ tile := h, word := word, count := n, link := link }] else s.core.openR) ∧
      SameRegs s.core t.core ∧ t.core.pend = s.core.pend ∧ SameBytes s t ∧ t.mem = s.mem
    let sends := fun (i : Instr) (ls : List (BitVec 4)) => i = .send l h xp start ∧ ls = [l] ∨
      (∃ mask : BitVec 4, i = .mcast mask h xp start ∧ ls = ((List.range 4).filter fun i => mask.getLsbD i).map (BitVec.ofNat 4))
    (∀ (i : Instr) (ls : List (BitVec 4)) (ends : List LinkEnd), sends i ls →
      ls.map (fun l => s.gang.linkEnd s.rank l.toNat) = ends.map some → w.toNat < 2 ^ 44 →
      s.tileCheckWords h.toNat (xferWord w + n - 1) = .ok c →
      let occ : Occ := ends.map fun e => (txEnd e.out, at_, at_ + n - 1)
      let aux := (ls.headD 0).toNat
      (s.gang.busyNow occ s.gang.now = true → exec i s = .next (s.trap .f 9 3 0 aux)) ∧
      (s.gang.busyNow occ s.gang.now = false → 16 ≤ s.core.heldR.length → exec i s = .next (s.trap .f 9 1 0 aux)) ∧
      (s.gang.busyNow occ s.gang.now = false → s.core.heldR.length < 16 → s.openHit h.toNat words = true → exec i s = .next (s.trap .f 9 0 0 aux)) ∧
      (s.gang.busyNow occ s.gang.now = false → s.core.heldR.length < 16 → s.openHit h.toNat words = false →
        starts i (.send ls) n (xferWord w) (some c) occ true false aux)) ∧
    (∀ (i : Instr) (ls : List (BitVec 4)), sends i ls →
      let aux := (ls.headD 0).toNat
      (2 ^ 44 ≤ w.toNat → exec i s = .next (s.trap .f 8 0)) ∧
      (w.toNat < 2 ^ 44 → (∃ k ∈ ls, s.gang.linkEnd s.rank k.toNat = none) → exec i s = .next (s.trap .f 9 2 0 aux)) ∧
      (∀ cls, w.toNat < 2 ^ 44 → (∀ k ∈ ls, s.gang.linkEnd s.rank k.toNat ≠ none) → s.tileCheckWords h.toNat (xferWord w + n - 1) = .error cls →
        exec i s = .next (s.trap .f cls 0 h.toNat))) ∧
    (w.toNat < 2 ^ 44 → s.gang.inDir s.rank l.toNat = some dir → s.tileCheckWords h.toNat (xferWord w + n - 1) = .ok c →
      let occ : Occ := [(rxEnd dir, at_, at_ + n - 1)]
      (s.gang.busyNow occ s.gang.now = true → exec (.recv l h xp start) s = .next (s.trap .f 9 3 0 l.toNat)) ∧
      (s.gang.busyNow occ s.gang.now = false → s.core.openR.length < 16 → s.rangeTrap h.toNat words true = none →
        starts (.recv l h xp start) (.recv l) n (xferWord w) (some c) occ false true l.toNat) ∧
      (s.gang.busyNow occ s.gang.now = false → 16 ≤ s.core.openR.length → exec (.recv l h xp start) s = .next (s.trap .f 9 1 0 l.toNat)) ∧
      (∀ cause, s.gang.busyNow occ s.gang.now = false → s.core.openR.length < 16 → s.rangeTrap h.toNat words true = some cause →
        exec (.recv l h xp start) s = .next (s.trap .f 9 cause 0 l.toNat))) ∧
    (w.toNat < 2 ^ 44 → xferWord w = 0 → s.gang.inDir s.rank l.toNat = some dir → s.gang.linkEnd s.rank m.toNat = some e' →
      let occ : Occ := [(rxEnd dir, at_, at_ + n - 1), (txEnd e'.out, at_ + 1, at_ + n)]
      (s.gang.busyNow occ s.gang.now = true → exec (.relay l m xp start) s = .next (s.trap .f 9 3 0 l.toNat)) ∧
      (s.gang.busyNow occ s.gang.now = false → starts (.relay l m xp start) (.relay l m) n 0 none occ false false 0)) ∧
    (s.gang.inDir s.rank l.toNat = some dir → s.gang.linkEnd s.rank l.toNat = some e →
      let occ : Occ := [(rxEnd dir, at_, at_), (txEnd e.out, at_, at_)]
      (s.gang.busyNow occ s.gang.now = true → exec (.lchk l start) s = .next (s.trap .f 9 3 0 l.toNat)) ∧
      (s.gang.busyNow occ s.gang.now = false → starts (.lchk l start) (.lchk l) 1 0 none occ false false 0)) ∧
    (2 ^ 44 ≤ w.toNat ∨ xferWord w ≠ 0 → exec (.relay l m xp start) s = .next (s.trap .f 8 0)) ∧
    (w.toNat < 2 ^ 44 → xferWord w = 0 → s.gang.inDir s.rank l.toNat = none → exec (.relay l m xp start) s = .next (s.trap .f 9 2 0 l.toNat)) ∧
    (w.toNat < 2 ^ 44 → xferWord w = 0 → s.gang.inDir s.rank l.toNat = some dir → s.gang.linkEnd s.rank m.toNat = none →
      exec (.relay l m xp start) s = .next (s.trap .f 9 2 0 m.toNat)) ∧
    (s.gang.inDir s.rank l.toNat = none ∨ s.gang.linkEnd s.rank l.toNat = none → exec (.lchk l start) s = .next (s.trap .f 9 2 0 l.toNat)) ∧
    (2 ^ 44 ≤ w.toNat → exec (.recv l h xp start) s = .next (s.trap .f 8 0)) ∧
    (w.toNat < 2 ^ 44 → s.gang.inDir s.rank l.toNat = none → exec (.recv l h xp start) s = .next (s.trap .f 9 2 0 l.toNat)) ∧
    (∀ cls, w.toNat < 2 ^ 44 → s.gang.inDir s.rank l.toNat = some dir → s.tileCheckWords h.toNat (xferWord w + n - 1) = .error cls →
      exec (.recv l h xp start) s = .next (s.trap .f cls 0 h.toNat))

/-! ### Events of the sequencer -/

/-- The events of a phase (08 R184-R189, R194, R197; 09 R210, R211; 12 R296). A phase starts at SFC 0 with the successor's descriptor, or goes on where a hard pre-emption
stopped it; a signed core arrives once its successors are expanded; expansion makes the entries of a finished half ready; a slack chain starts at its first entry;
a core at the end of its last chain abstains, or takes the sign-off fault, which names the last bundle it issued; a dropped frame cycle advances SFC and no core cycle; after the last arrival, with no request
latched, the successor starts one restart offset later, and with END the group ends; four times the budget without it is PHASE_HANG. -/
def Obligations.PhaseEventsComplete : Prop :=
  ∀ (s : State) (t0 : Nat) (tb : Bool) (ix : BitVec 8) (d : Desc),
    (s.gang.run = .start t0 → t0 ≤ s.gang.now → s.gang.kind = 2 →
      exec .phaseStart s = .next { s with gang := { s.gang with run := .phase, kind := 1, yieldAt := false, drain := 0 }, dom := { s.dom with atSeal := false } }) ∧
    (s.gang.run = .start t0 → t0 ≤ s.gang.now → s.gang.kind ≠ 2 → s.gang.next = some (tb, ix) → ∃ t : State, exec .phaseStart s = .next t ∧
      t.gang.run = .phase ∧ t.gang.sfc = 0 ∧ t.gang.wd = 0 ∧ t.gang.active = tb ∧ t.gang.desc = ix ∧ t.gang.next = none ∧ t.gang.cmdsOut = [] ∧
      t.gang.xfers = [] ∧ t.gang.now = s.gang.now ∧ t.mem = s.mem) ∧
    (s.core.run = .signed → s.core.far = none → s.core.due ≤ s.gang.now → exec .coreArrival s = .next { s with core := { s.core with run := .arrived } }) ∧
    ((∃ h ∈ s.core.idle, h.done ≤ s.gang.now) → ∃ t : State, exec .segmentExpansionDone s = .next t ∧ t.core.idle.length = s.core.idle.length ∧
      (∀ h ∈ t.core.idle, h.done ≤ s.gang.now → ∀ e ∈ h.entries, e.ready ≤ s.gang.now) ∧ SameRegs s.core t.core ∧ t.mem = s.mem) ∧
    (s.core.run = .waitSlack → s.slackSeg ≠ noSeg → (∀ c ∈ s.cluCores, c.run ≠ .timed ∧ c.far = none) → s.cluReceived = true →
      (∃ g, s.gang.code.segs[s.slackSeg]? = some g) → ∃ t : State, exec .slackChainStart s = .next t ∧ t.core.run = .slack ∧ t.core.seg = s.slackSeg ∧ t.core.ent = 0 ∧
        t.core.loops = [] ∧ t.core.due = s.gang.now + t.core.cur.gap 0 ∧ SameRegs s.core t.core ∧ t.mem = s.mem) ∧
    (s.core.run = .waitSlack → s.core.far = none → s.slackSeg = noSeg → s.signCause = none → ∃ t : State, exec .implicitSignOff s = .next t ∧ t.core.run = .signed ∧ t.core.bit = none ∧
      SameRegs s.core t.core ∧ t.mem = s.mem ∧ t.gang = s.gang) ∧
    (∀ c, s.core.run = .waitSlack → s.core.far = none → s.slackSeg = noSeg → s.signCause = some c → s.isFw = false → s.die < 5 → ∃ (t : State) (r : FaultRec) (h : s.die < 5),
      exec .implicitSignOff s = .next t ∧ (t.pkg.faults[s.die]).getLast? = some r ∧ r.cls = 1 ∧ r.cause = BitVec.ofNat 8 c ∧
      r.segment = BitVec.ofNat 32 s.core.issued.1 ∧ r.entry = BitVec.ofNat 11 s.core.issued.2) ∧
    (s.droppable = true → ∃ t : State, exec .droppedFrameCycle s = .next t ∧ t.gang.sfc = s.gang.sfc + 1 ∧ t.gang.now = s.gang.now ∧ t.gang.drops = s.gang.drops + 1 ∧
      t.mem = s.mem) ∧
    (s.gang.run = .phase → s.allArrived = true → s.gang.cur = some d → s.gang.req = Requests.none → s.pkg.clk.pending = none → s.pkg.clk.svcReq = false →
      d.yieldP = false → s.gang.haltReq = false →
      (∀ p, s.gang.succOf (if s.gangPredicate d then d.succ1 else d.succ0) = some p → ∃ t : State, exec .lastArrival s = .next t ∧ t.gang.next = some p ∧
        t.gang.active = p.1 ∧ t.gang.desc = p.2 ∧ t.gang.run = .start (s.gang.now + s.gang.roff) ∧ t.core = s.core ∧ t.mem = s.mem) ∧
      (s.gang.succOf (if s.gangPredicate d then d.succ1 else d.succ0) = none → ∃ u : State, exec .lastArrival s = .next (u.endGroup s.gang.gid false) ∧
        u.gang.next = none ∧ u.core = s.core ∧ u.mem = s.mem)) ∧
    (s.gang.cur = some d → s.gang.run = .phase → 4 * d.budget.toNat ≤ s.gang.wd → s.die < 5 → ∃ (t : State) (r : FaultRec) (h : s.die < 5), exec .phaseHang s = .next t ∧
      t.gang.run = .faulted ∧ (t.pkg.faults[s.die]).getLast? = some r ∧ r.cls = 10 ∧ r.cause = BitVec.ofNat 8 s.hangCause ∧ r.aux = BitVec.ofNat 32 d.budget.toNat ∧ r.disp = 1)

/-- Waits that end (11 R260, R261, R270; 14 R354; 18 R421): the awaited flag phase, a recall or the limit of a `WAITA`, the value of an `FLD`, the application of an `FST`,
the awaited generation of a barrier variable, an event bit of a halted firmware core. -/
def Obligations.WaitEventsComplete : Prop :=
  ∀ (s : State) (fb : BitVec 5) (ph : Bool) (line since lim acc : Nat),
    (s.core.wait = .waitb fb ph → (s.getFb fb).getLsbD 32 = ph → exec .waitbSatisfied s = .next { s with core := { s.core with wait := .none } }) ∧
    (s.core.wait = .waita line since lim none → s.recalled line since = true →
      exec .waitaRecall s = .next { s with core := { s.core with wait := .waita line since lim (some true) } }) ∧
    (s.core.wait = .waita line since lim none → lim ≤ s.gang.now →
      exec .waitaLimitExpiry s = .next { s with core := { s.core with wait := .waita line since lim (some false) } }) ∧
    (∀ e v x d, s.core.far = some acc → s.mem.rq.find? (fun e => e.acc == acc) = some e → e.val = some v → e.dst = .reg x d → memWf s →
      ∃ t : State, exec .farAccessReturn s = .next t ∧ t.core.far = none ∧ (t.getA d).toNat = ofBytes v % 2 ^ 64 ∧ (∀ j, j ≠ d → t.getA j = s.getA j) ∧
        t.core.p = s.core.p ∧ t.core.c = s.core.c ∧ t.core.pend = s.core.pend ∧ SameBytes s t) ∧
    (s.core.far = some acc → (∀ e ∈ s.mem.rq, e.acc ≠ acc) → (∀ e ∈ s.mem.wq, e.acc ≠ acc) →
      exec .farAccessReturn s = .next { s with core := { s.core with far := none } }) ∧
    (∀ a gen k, s.core.sbw = some { acc := acc, gen := gen, out := false } → s.sbWaitHit = some ({ acc := acc, gen := gen, out := false }, a, k) → s.sbWaiters.head? = some s.core.id → ∃ t : State,
      exec .sbWaitSatisfied s = .next t ∧ t.core.sbw = some { acc := acc, gen := gen, out := true } ∧ SameRegs s.core t.core ∧ SameBytes s t) ∧
    (s.isFw = true → s.core.run = .halted → (s.fwd s.die).evt ≠ 0 → exec .fwHaltWake s = .next { s with core := { s.core with run := .slack } })

/-! ### Events of the memory system -/

/-- A write event of bytes is applied at its home (06 R124; 17 R406): from then on every byte of it reads as written at its home and in coherence order, every other byte
as before at every die, and the memory keeps its canonical form.
A delivery (06 R124, R127, R129) makes an applied write visible at one more die, once everything before it is and its clock allows it: coherence order and the other dies read as before, and a byte
that only this write holds reads as it says.
A read event of a far load performs once its predecessors are delivered to its die: it keeps the bytes that its die sees, of a reservation what it holds (log 54); nothing is
written (06 R124, R125; 11 R270). One of an address homed on another package waits for what that package has yet to answer instead, unless the package is lost (15 R372; log 53 of the
assumption log names what of it is the model's reading). A read of a command or of the host stores its line, and the event is gone. -/
def Obligations.MemoryEventsComplete : Prop :=
  (∀ (s : State) (id : Nat) (e : WEv) (l : List Host.Cell), memWf s → s.mem.wq.find? (fun e => e.id == id) = some e → e.src = .bytes l →
     (l.map (·.1)).Nodup → (∀ x ∈ l, isFar x.1 = false) → s.canApply e l.isEmpty = true → e.home < 5 →
     ∃ t : State, exec (.writeEventApply id) s = .next t ∧ memWf t ∧ t.mem.wq = s.mem.wq.filter (fun x => x.id != id) ∧
       (∀ x ∈ l, t.mem.byteAt none x.1 = x.2 ∧ t.mem.byteAt (some e.home) x.1 = x.2) ∧
       (∀ (d : Option Nat) (a : Nat), (∀ k, d = some k → k < 5) → (∀ x ∈ l, x.1 ≠ a) → t.mem.byteAt d a = s.mem.byteAt d a) ∧
       (∀ d a, d < 5 → d ≠ e.home → t.mem.byteAt (some d) a = s.mem.byteAt (some d) a) ∧ SameRegs s.core t.core ∧ t.gang = s.gang) ∧
  (∀ (s : State) (id die : Nat) (e : WEv), memWf s → s.mem.wlog.find? (fun e => e.id == id) = some e → (∀ x ∈ s.mem.wlog, x.id = id → x = e) → die < 5 →
     die ∉ e.delivered → s.mem.predsDelivered e.acc die = true → (∀ a, s.mem.acc? e.acc = some a → s.mem.clockOk a die = true) →
     ∃ t : State, exec (.writeEventDelivery id die) s = .next t ∧ memWf t ∧ (∀ a, t.mem.byteAt none a = s.mem.byteAt none a) ∧
       (∀ k a, k < 5 → k ≠ die → t.mem.byteAt (some k) a = s.mem.byteAt (some k) a) ∧
       (∀ a, (∀ x ∈ e.cells, x.1 ≠ a) → t.mem.byteAt (some die) a = s.mem.byteAt (some die) a) ∧
       (∀ a, (∃ x ∈ e.cells, x.1 = a) → (∀ w ∈ s.mem.wlog, w.id ≠ id → ∀ x ∈ w.cells, x.1 ≠ a) → t.mem.byteAt (some die) a = s.mem.byteAt none a)) ∧
  (∀ (s : State) (id : Nat) (e : REv) (a : Access), s.mem.rq.find? (fun e => e.id == id) = some e → s.mem.acc? e.acc = some a → e.val = none →
     s.mem.predsDelivered e.acc (if isFar e.addr then homeOf e.addr else a.die) = true → (isFar e.addr = true → homeOf e.addr - 8 ∉ s.dom.lostPkgs) →
     (∀ x d, e.dst = .reg x d → ∃ t e', exec (.readEventPerform id) s = .next t ∧ t.mem.rq.find? (fun e => e.id == id) = some e' ∧
       e'.val = some (s.loadBytes a.die e.addr e.n) ∧ SameRegs s.core t.core ∧ SameBytes s t) ∧
     (∀ c cm, e.dst = .cmd c → s.mem.cmds.find? (fun x => x.id == c) = some cm → cm.op ≠ opIngest ∨ s.inlogFull cm.ctx = false → ∃ t : State,
       exec (.readEventPerform id) s = .next t ∧ (∀ x ∈ t.mem.rq, x.id ≠ id)) ∧
     (∀ h, e.dst = .host h → s.barrier = false → ∃ t : State, exec (.readEventPerform id) s = .next t ∧ (∀ x ∈ t.mem.rq, x.id ≠ id) ∧ SameRegs s.core t.core)) ∧
  (∀ (s : State) (d a : Nat), s.undoPlace a = none → s.tagPlace a = none → s.snapPlace a = none → s.recordByte a = none → s.loadByte d a = s.mem.byteAt (some d) a)

/-- A Sconce operation executes once everything before it is delivered to its home and its turn has come (at one home an operation on the same bytes that became ready in an earlier
cycle goes first, and at the hub those of one cycle go by ascending die, 18 R424) (06 R137, R138; 14 R352, R353): the event is gone; and one on a word that is not in the shared
window replaces the word as `wordOp` says if it writes, in coherence order, leaves every other byte, and queues the reply. One homed on another package writes nothing here and is answered with a value that is free (log 53).
The word operations as the home performs them (06 R137; 14 R352): the new word and the replied one, sums modulo 2^64, comparisons signed or
unsigned, `AT.CAS` writing where the old word equals v. -/
def Obligations.SconceOperationsExecute : Prop :=
  (∀ (s : State) (id : Nat) (o : SOp) (a : Access), memWf s → s.mem.ops.find? (fun o => o.id == id) = some o → s.mem.acc? o.acc = some a →
     o.home < 5 → o.loc + o.width ≤ 2 ^ 60 → s.opTurn o = true → s.dom.st ≠ .closed → s.mem.predsDelivered o.acc o.home = true →
     (o.op ≠ opAtLd → o.op ≠ opXrd → s.mem.clockRoom a = true ∧ s.mem.clockOk a o.home = true ∧ (loggedLoc o = true → s.undoFullFor o.places o.ri = false)) →
     (o.shared = true → s.inlogFull a.ctx = false) → (∀ p ∈ s.pkg.peers, p.doorbell ≠ o.loc) →
     ∃ t : State, exec (.sconceOperationExecute id) s = .next t ∧ t.mem.ops = s.mem.ops.filter (fun x => x.id != id) ∧ memWf t ∧
       (o.shared = false → exactOp o.op = false →
         let old := BitVec.ofNat 64 (s.mem.natAt none o.loc 8)
         let res := wordOp o.op old o.v o.n
         t.mem.natAt none o.loc 8 = (if writesWord o.op old o.v then res.1 else old).toNat ∧
         (∀ x, (x < o.loc ∨ o.loc + 8 ≤ x) → t.mem.byteAt none x = s.mem.byteAt none x) ∧
         (a.who ≠ .hub → ∃ r ∈ t.mem.reps, r.who = o.who ∧ r.fb = o.fb ∧ r.write = !o.np ∧ r.reply = { value := res.2, op := o.op, fcode := 0, rnum := o.rnum }))) ∧
  (∀ (s : State) (id : Nat) (o : SOp) (a : Access), s.mem.ops.find? (fun o => o.id == id) = some o → s.mem.acc? o.acc = some a → 8 ≤ o.home →
     s.opTurn o = true → s.dom.st ≠ .closed → s.mem.predsDelivered o.acc o.home = true → o.home - 8 ∉ s.dom.lostPkgs → a.who ≠ .hub →
     ∃ t : State, exec (.sconceOperationExecute id) s = .next t ∧ t.mem.ops = s.mem.ops.filter (fun x => x.id != id) ∧ t.mem.bytes = s.mem.bytes ∧ t.mem.wlog = s.mem.wlog ∧
       (∃ r ∈ t.mem.reps, r.who = o.who ∧ r.fb = o.fb ∧ r.write = !o.np ∧ r.reply.fcode = 0) ∧ t.core = s.core ∧ t.gang = s.gang) ∧
  (∀ w v n : W64,
     wordOp 0x08 w v n = (w, w) ∧ wordOp 0x09 w v n = (v, 0) ∧
     (∃ x : W64, x.toNat = (w.toNat + v.toNat) % 2 ^ 64 ∧ wordOp 0x0A w v n = (x, w)) ∧
     (∃ x : W64, (∀ j, x.getLsbD j = (w.getLsbD j && v.getLsbD j)) ∧ wordOp 0x0B w v n = (x, w)) ∧
     (∃ x : W64, (∀ j, x.getLsbD j = (w.getLsbD j || v.getLsbD j)) ∧ wordOp 0x0C w v n = (x, w)) ∧
     (∃ x : W64, (∀ j, x.getLsbD j = (w.getLsbD j != v.getLsbD j)) ∧ wordOp 0x0D w v n = (x, w)) ∧
     (∃ x : W64, x.toInt = min w.toInt v.toInt ∧ wordOp 0x0E w v n = (x, w)) ∧ (∃ x : W64, x.toInt = max w.toInt v.toInt ∧ wordOp 0x0F w v n = (x, w)) ∧
     (∃ x : W64, x.toNat = min w.toNat v.toNat ∧ wordOp 0x10 w v n = (x, w)) ∧ (∃ x : W64, x.toNat = max w.toNat v.toNat ∧ wordOp 0x11 w v n = (x, w)) ∧
     wordOp 0x12 w v n = (v, w) ∧ wordOp 0x13 w v n = (if w = v then n else w, w))

/-- Replies, commands, records and fences come to their ends (06 R131; 14 R324, R333-R335, R353, R354): a reply joins its core's queue of at most 64 in the order of its operations;
a command that has moved everything, or whose record is complete, leaves the machine and signs off; a record is written where the ring has room; a fence whose
wait is over signs off.
The tag sweep and refresh (07 R150; 03 R66; 08 R186): a visit of a listed line in a sealed domain moves its tag to `RI + 128` where it is 128 or more behind; a postponed refresh batch of a stack begins
where the phases that touch the stack are in slack, else at a limit that is free (log 7), and ends. Neither changes a byte. -/
def Obligations.CommandsEnd : Prop :=
  (∀ (s : State) (id : Nat),
     (∀ r, s.mem.reps.find? (fun r => r.id == id && r.write && !isFwId r.who) = some r → r.who = s.core.id → s.core.cq.length < 64 →
       (∀ q ∈ s.mem.reps, q.write = true → q.who = r.who → q.stream = r.stream → q.home = r.home → r.id ≤ q.id) →
       (∀ o ∈ s.mem.ops, o.who = r.who → o.home = r.home → r.id ≤ o.id) → ∃ t : State, exec (.replyWrite id) s = .next t ∧
         t.core.cq = s.core.cq ++ [r.reply] ∧ SameRegs s.core t.core ∧ SameBytes s t) ∧
     (∀ r, s.mem.reps.find? (fun r => r.id == id && !r.write && !isFwId r.who) = some r → ∃ t : State, exec (.commandComplete id) s = .next t ∧
       (∀ q ∈ t.mem.reps, q.id ≠ id)) ∧
     (∀ c, s.mem.reps.find? (fun r => r.id == id && !r.write && !isFwId r.who) = none → s.mem.cmds.find? (fun c => c.id == id) = some c →
       (c.st = .run ∧ c.ring = none ∧ s.cmdMoved c = true ∨ c.st = .record ∧ ∀ x ∈ c.recs, s.mem.complete x = true) → ∃ t : State,
         exec (.commandComplete id) s = .next t ∧ (∀ k ∈ t.mem.cmds, k.id ≠ id) ∧ (∀ b ∈ t.allBoxes, b.gang.gid = gangOf c.who → id ∉ b.gang.cmdsOut)) ∧
     (∀ c r, s.mem.cmds.find? (fun c => c.id == id) = some c → c.ring = some r → c.st = .run → s.cmdMoved c = true → s.mem.ringTurn c r = true →
       s.mem.predsDelivered c.acc (homeOf (r.end_.phys r.end_.virt)) = true →
       let room := (r.end_.natAt s.mem 8 8 + 2 ^ 64 - r.end_.natAt s.mem 16 8) % 2 ^ 64 ≠ 2 ^ r.log2n
       (room → ∃ (t : State) (c' : Cmd), exec (.completionRecordWrite id) s = .next t ∧
         t.mem.cmds.find? (fun c => c.id == id) = some c' ∧ c'.st = .record ∧ c'.recs.length = 2) ∧
       (¬room → s.ctxFaulted c.ctx = false → exec (.completionRecordWrite id) s = .next s)) ∧
     (∀ f sc, s.mem.acc? id = some f → f.fence = some sc → f.done = false → s.mem.fenceOver f sc = true → ∃ t : State,
         exec (.fenceWaitEnd id) s = .next t ∧ (∀ c, f.who = .core c → ∀ b ∈ t.allBoxes, b.gang.gid = gangOf c → id ∉ b.gang.cmdsOut) ∧
         (f.lost = true → f.who = .core s.core.id → s.isFw = false → ∃ (d : Nat) (h : d < 5) (r : FaultRec), (t.pkg.faults[d]).getLast? = some r ∧ r.cls = 19 ∧ r.disp = 3))) ∧
  (∀ (s : State) (line stack : Nat) (b : Byte),
     (s.dom.sealed = true → s.mem.tag (line / 64) = some b → ∃ t : State, exec (.tagSweepVisit line) s = .next t ∧
       t.mem.tag (line / 64) = some (if 128 ≤ (s.dom.ri.toNat % 256 + 256 - b.toNat) % 256 then BitVec.ofNat 8 ((s.dom.ri.toNat + 128) % 256) else b) ∧
       t.mem.bytes = s.mem.bytes ∧ t.mem.wlog = s.mem.wlog ∧ t.core = s.core) ∧
     (stack ∈ s.pkg.postponed → stack ∉ s.pkg.refresh → ∃ t : State, exec (.refreshBatchIssue stack) s = .next t ∧ t.mem = s.mem ∧ t.core = s.core ∧
       (t.pkg.refresh = stack :: s.pkg.refresh ∧ stack ∉ t.pkg.postponed ∨ t.pkg.refresh = s.pkg.refresh ∧ t.pkg = s.pkg) ∧
       (s.stackIdle stack = true → t.pkg.refresh = stack :: s.pkg.refresh)) ∧
     (∃ t : State, exec (.refreshBatchDone stack) s = .next t ∧ stack ∉ t.pkg.refresh ∧ (∀ k, k ≠ stack → (k ∈ t.pkg.refresh ↔ k ∈ s.pkg.refresh)) ∧ t.mem = s.mem ∧ t.core = s.core))

/-! ### Events of links, seals and recovery -/

/-- Link events (15 R363-R366, R375). Matching without a mismatch marks the transfers that start now; with one, the gang's context stops with LINK_MISMATCH. A CRC
failure ahead of a transfer's movement is recorded; a retry counts, and the sixteenth makes the link fail, which retires it and raises an error of it; a retry free of error
gives the vector the word its sender holds, a receiver's tile with it. With a mismatch the transfers that did match stay on the way and are not lost to the earlier bundles' accesses. A
receiver with every vector free of error arrives. A plane that fails carries no packet from then on, and the die it belongs to is told (1 R17). -/
def Obligations.LinkEventsComplete : Prop :=
  ∀ (s : State) (id v : Nat) (x : FXfer),
    (s.gang.mismatches s.gang.sfc.toNat = [] → ∃ t : State, exec .linkMatching s = .next t ∧ t.gang.xfers.map (·.id) = s.gang.xfers.map (·.id) ∧
      (∀ y ∈ t.gang.xfers, y.start = s.gang.sfc.toNat → (match y.kind with | .send _ => True | .lchk _ => True | _ => y.matched = true)) ∧ t.core = s.core ∧ t.mem = s.mem) ∧
    (s.gang.mismatches s.gang.sfc.toNat ≠ [] → s.gang.run = .phase → ∃ t : State, exec .linkMatching s = .next t ∧ t.gang.run = .faulted ∧ t.mem = s.mem ∧
      (∀ x ∈ s.gang.xfers, x.id ∈ (s.gang.mismatches s.gang.sfc.toNat).map (·.2.1.id) → x ∈ t.gang.xfers) ∧
      (∀ x ∈ s.gang.xfers, x.id ∉ (s.gang.mismatches s.gang.sfc.toNat).map (·.2.1.id) → x.start = s.gang.sfc.toNat →
        (match x.kind with | .send _ => x ∈ t.gang.xfers | .lchk _ => True | _ => { x with matched := true } ∈ t.gang.xfers))) ∧
    (s.gang.xfers.find? (fun x => x.id == id) = some x →
      (x.bad = [] → x.done = false → v < x.n → x.vec v = none → x.outs = [] → ∃ (t : State) (y : FXfer), exec (.linkRetry id v false) s = .next t ∧
        t.gang.xfers.find? (fun x => x.id == id) = some y ∧ y.bad = [(v, 0)] ∧ t.mem = s.mem ∧ t.core = s.core) ∧
      (∀ n l, x.bad = (v, n) :: l → x.start + v + 1 < s.gang.sfc.toNat → s.cluTimedEnded x.rank = true → ∃ (t : State) (y : FXfer), exec (.linkRetry id v false) s = .next t ∧
        t.gang.xfers.find? (fun x => x.id == id) = some y ∧ y.bad.head? = some (v, n + 1) ∧ (14 ≤ n → Turn.auto (.linkFailure id) ∈ t.agenda) ∧ t.mem = s.mem) ∧
      (∀ n l b, x.bad = (v, n) :: l → x.start + v + 1 < s.gang.sfc.toNat → s.cluTimedEnded x.rank = true → (∀ k, x.kind ≠ .lchk k) →
        s.heldWord (s.gang.xfers.length) x v = some b → x.vec v = none → ∃ (t : State) (y : FXfer), exec (.linkRetry id v true) s = .next t ∧
        t.gang.xfers.find? (fun x => x.id == id) = some y ∧ y.bad = x.bad.filter (fun b => b.1 != v) ∧ y.vec v = some b ∧ t.mem = s.mem ∧
        (∀ (j : BitVec 4) (c : Cap), x.kind = .recv j → x.cap = some c → s.rank = x.rank → (s.heldPoison (s.gang.xfers.length) x v).rank = s.rank →
          (s.heldPoison (s.gang.xfers.length) x v).clu = s.clu → t.clu = s.clu.onCap c fun k =>
          { k with data := k.data.store (cellsAt (256 * (x.word + v)) b), poison := k.poison.filter (fun u => u / 32 != x.word + v) })) ∧
      (∀ n l k, x.bad = (v, n) :: l → x.start + v + 1 < s.gang.sfc.toNat → s.cluTimedEnded x.rank = true → x.kind = .lchk k → ∃ (t : State) (y : FXfer),
        exec (.linkRetry id v true) s = .next t ∧ t.gang.xfers.find? (fun x => x.id == id) = some y ∧ y.bad = x.bad.filter (fun b => b.1 != v) ∧ SameRegs s.core t.core ∧ t.mem = s.mem) ∧
      (∀ l k, x.kind = .recv l → x.matched = true → x.bad = [] → x.done = false → (∀ i, i < x.n → (x.vec i).isSome = true) → x.cap = some k → ∃ (t : State) (y : FXfer),
        exec (.linkInterfaceArrival id) s = .next t ∧ t.gang.xfers.find? (fun x => x.id == id) = some y ∧ y.done = true ∧ t.mem = s.mem) ∧
      (∀ l, x.inLink = some l → ∃ t : State, exec (.linkFailure id) s = .next t ∧
        Turn.auto (.dataUe (.link s.gang.gid (16 * x.rank + l))) ∈ t.agenda ∧ t.gang = s.gang ∧ t.core = s.core ∧ t.mem = s.mem)) ∧
    (∃ t : State, exec (.planeFailure v) s = .next t ∧ v ∉ t.dom.planes ∧ (∀ k, k ≠ v → (k ∈ t.dom.planes ↔ k ∈ s.dom.planes)) ∧
      (planeDie v < 5 → (t.fwd (planeDie v)).evt.getLsbD 6 = true) ∧ t.mem = { s.mem with packets := t.mem.packets } ∧
      (∀ i : Nat, (t.mem.packets[i]?).map (fun p => (p.ev, p.acc)) = (s.mem.packets[i]?).map (fun p => (p.ev, p.acc))) ∧
      (v ∈ s.dom.planes → (∃ k ∈ s.dom.planes, k ≠ v) → ∀ p ∈ t.mem.packets, p.plane ≠ v) ∧ t.core = s.core)

/-- Seal events (07 R148, R153, R155, R156, R161, R169). In a sealed domain a request, the period and the host-read limit ask for a seal: where none is under way
it is requested, and where one is, another follows it; in an `UNSEALED` domain these three do nothing. The leader starts the seal and every gang that executes hears of it;
with every gang arrived and every write of the interval complete the barrier closes; the commit passes to the next interval (0xFFFFFFFF is followed by 1), empties the undo
logs and ends the protocol; a gang whose SEALOK bound has run out, and at the barrier limit every gang that has not arrived or is not stored, takes SEAL_TIMEOUT. -/
def Obligations.SealEventsComplete : Prop :=
  ∀ (s : State),
    let asked := fun (i : Instr) => ∃ (st : SealSt) (again : Bool), exec i s = .next { s with dom := { s.dom with st := st, again := again } } ∧
      (s.dom.st = .none → st = .requested ∧ again = s.dom.again) ∧ (s.dom.st = .requested → st = .requested ∧ again = s.dom.again) ∧
      (s.dom.st = .barrier ∨ s.dom.st = .closed → st = s.dom.st ∧ again = true)
    (s.dom.sealed = true → asked .sealRequest ∧ asked .sealPeriodExpiry) ∧
    (s.dom.sealed = true → (∃ h ∈ s.dom.held, ∃ a b c d e, h.eff = .frame 0x81 a b c d e) → asked .hostReadLimitExpiry) ∧
    (s.dom.sealed = false → exec .sealRequest s = .next s ∧ exec .sealPeriodExpiry s = .next s ∧ exec .hostReadLimitExpiry s = .next s) ∧
    (s.dom.st = .requested → ∃ t : State, exec .sealStart s = .next t ∧ t.dom.st = .barrier ∧ t.dom.again = false ∧ t.core = s.core ∧ t.mem = s.mem ∧ (∀ d < 5, (t.fwd d).evt.getLsbD 2 = true) ∧
      (∀ b ∈ t.allBoxes, b.gang.unarrived = true → b.gang.req.sealReq = true)) ∧
    (s.dom.st = .barrier → (∀ b ∈ s.allBoxes, b.gang.unarrived = false ∧ b.fwsToCome = false) → s.mem.quiet = true →
      exec .sealBarrierClose s = .next { s with dom := { s.dom with st := .closed } }) ∧
    (s.dom.st = .closed → s.sweepOk = true → exec .sealCommit s = .next s.commitSeal) ∧
    (s.dom.st = .closed → s.sweepOk = true → s.host.pendq = [] → s.dom.held = [] → s.pkg.peers = [] → s.disp.launches = [] → (∀ b ∈ s.allBoxes, b.gang.sealed = false) →
      ∃ t : State, exec .sealCommit s = .next t ∧ t.dom.ri = (if s.dom.sealed then nextRi s.dom.ri else s.dom.ri) ∧
        t.dom.st = (if s.dom.again then .requested else .none) ∧ (∀ l ∈ t.mem.undo.toList, l = []) ∧ t.mem.syncBit = [] ∧ t.mem.bytes = s.mem.bytes ∧ t.core = s.core) ∧
    (s.gang.sealLeft = some 0 → s.gang.unarrived = true → exec .sealokBoundExpiry s = .next (s.sealTimeout s.gang.gid)) ∧
    (s.dom.st = .barrier → exec .barrierLimitExpiry s =
      .next (((s.allBoxes.filter fun b => b.gang.unarrived || (b.gang.sealed && !s.stored b.gang.ctx)).map (·.gang.gid)).foldl State.sealTimeout s)) ∧
    nextRi 0xFFFFFFFF = 1 ∧ (∀ r : W32, r ≠ 0xFFFFFFFF → (nextRi r).toNat = r.toNat + 1)

/-- Errors and what follows them (17 R404-R407, R409; 07 R165, R167; 03 R73). An error of a line poisons it; in a sealed domain it is recorded with disposition 2 and a rollback
follows, or, where one has been triggered already, every context faults; one in the code memory of a core marks the line in that core alone; a rollback abandons and undoes the
interval's writes and leaves no log entry behind in the memory it starts from, each undo entry that can be replayed giving its bytes back; a line of code that an expansion has read, and
whose entries can issue no more, is rewritten and listed outside a phase; a lost peer is reported and its unacknowledged data given up; a package lost in an `UNSEALED` domain ends the
commands, and answers the Sconce operations, that wait for it with PEER_LOST; at a completed seal a page moves to a free frame.
Choices of the model and not of the spec: the address of a code line is its object's index times 2^32 and its offset, and every core's code memory is its own (log 41); a rollback and
the second error are turns of the agenda (log 49). -/
def Obligations.RecoveryEventsComplete : Prop :=
  ∀ (s : State) (a : Nat) (u : UeSite) (place : List (Nat × List Nat)),
    (s.dom.sealed = true → s.undoPlace a = none → ∃ t : State, exec (.dataUe (.hbm a)) s = .next t ∧ a / 64 ∈ t.mem.poison ∧ t.core = s.core ∧ t.mem.bytes = s.mem.bytes ∧
      (s.rolling = true → Turn.auto (.faultAll (.hbm a)) ∈ t.agenda) ∧
      (s.rolling = false → Turn.auto (.rollback []) ∈ t.agenda ∧ ∀ h : homeOf a < 5, ∃ r, (t.pkg.faults[homeOf a]).getLast? = some r ∧ r.cls = 14 ∧ r.disp = 2)) ∧
    (∀ k, ∃ t : State, exec (.dataUe (.code a k)) s = .next t ∧ SameRegs s.core t.core ∧ t.mem = s.mem ∧ t.pkg = s.pkg ∧
      ((s.box.holdsCode a && s.box.coreNo s.core == k) = true → codePlace a ∈ t.core.codeBad) ∧ ((s.box.holdsCode a && s.box.coreNo s.core == k) = false → t.core = s.core)) ∧
    exec (.dataUe (.ingest a)) s = .next (s.damage (.ingest a)) ∧
    ((∀ l k, u ≠ .code l k) → (∀ l, u ≠ .ingest l) → exec (.dataUe u) s = .next ((s.damage u).ue u)) ∧
    (s.dom.sealed = true → exec (.rollback place) s = .next (s.rollback place)) ∧
    (s.dom.sealed = false → exec (.rollback place) s = .next s) ∧
    (∀ l ∈ (s.mem.abandon.undoAll s.dom.ri).undo.toList, l = []) ∧ (s.mem.abandon.undoAll s.dom.ri).wlog = [] ∧
    (memWf s → ∀ (e : Undo) i, e.ok = true → i < e.old.length → (s.mem.undoOne s.dom.ri e).bytes.get (e.addr + i) = nth e.old i 0) ∧
    (∀ who, (s.allBoxes.findSome? fun b => b.latentIn a) = some who → ∃ t : State, exec (.latentCodeRewrite a) s = .next t ∧ t.pkg.latent = s.pkg.latent ++ [a] ∧ t.mem = s.mem ∧
      (who = s.core.id → codePlace a ∉ t.core.codeBad ∧ codePlace a ∉ t.core.codeHit ∧ SameRegs s.core t.core)) ∧
    ((s.allBoxes.findSome? fun b => b.latentIn a) = none → exec (.latentCodeRewrite a) s = .next s) ∧
    (∀ (b : GangBox) (c : CoreId), b.latentIn a = some c → b.gang.code.idx = a / 2 ^ 32 ∧ b.inPhase = false ∧
      ∃ x ∈ b.core :: b.cores, x.id = c ∧ codePlace a ∈ x.codeHit ∧ b.gang.code.mayIssue x (codePlace a) = false) ∧
    (∀ p, s.dom.pkgs.contains a = false → s.pkg.peers.find? (fun p => p.id.toNat == a && !p.lost) = some p → ∃ t : State, exec (.peerLossDeclared a) s = .next t ∧
      (∀ q ∈ t.pkg.peers, q.id = p.id → q.lost = true ∧ q.unacked = []) ∧ (∃ r, (t.pkg.faults[4]).getLast? = some r ∧ r.cls = 19 ∧ r.disp = 3) ∧ t.core = s.core ∧ t.mem = s.mem) ∧
    (s.dom.pkgs.contains a = true → a ≠ s.pkg.cfg.pkg.toNat →
      (s.dom.sealed = true → exec (.peerLossDeclared a) s = .next (s.ue (.package a))) ∧
      (s.dom.sealed = false → ∃ t : State, exec (.peerLossDeclared a) s = .next t ∧ a ∈ t.dom.lostPkgs ∧ (∀ o ∈ t.mem.ops, o.home ≠ farHome a) ∧ (∀ p ∈ t.mem.packets, p.pkg ≠ a) ∧
        (∀ o ∈ s.mem.ops, o.home = farHome a → isFwId o.who = false → ∃ r ∈ t.mem.reps, r.id = o.id ∧ r.who = o.who ∧ r.fb = o.fb ∧ r.write = !o.np ∧ r.reply.value = 0 ∧ r.reply.fcode = 19) ∧
        (∀ c ∈ s.mem.cmds, s.mem.waitsFor a c.acc = true → c.status = 0 → ∃ k ∈ t.mem.cmds, k.id = c.id ∧ k.status = 3 ∧ k.fcode = 19) ∧
        (memWf s → SameBytes s t) ∧ t.core = s.core ∧ t.gang = s.gang)) ∧
    (∀ vpn frame c e, s.ctxOf (BitVec.ofNat 16 a) = some c → s.ctxLeaf c (vpn * 2 ^ 21) = some e → s.dom.atSeal = true → s.barrier = false →
      s.mem.wq = [] → s.mem.wlog = [] → s.mem.rq = [] → (∀ l ∈ s.mem.undo.toList, l = []) → (∀ k ∈ s.mem.cmds, k.touches (leafFrame e) = false) →
      s.mem.opTouches (leafFrame e) = false → bits e 5 5 = 1 → frame % 2 ^ 21 = 0 → s.mayMove (leafPcls e) frame = true → s.frameUsed frame = false → ∃ (t : State) (m : Memory),
        exec (.pageMigrationSwap a vpn frame) s = .next t ∧ m = (s.mem.movePage (leafFrame e) frame).bytes ∧
        (∀ i, i < 2 ^ 21 → memWf s → leafFrame e ≠ frame → m.get (frame + i) = s.mem.bytes.get (leafFrame e + i)) ∧ SameRegs s.core t.core)

/-! ### The dispatcher -/

/-- Dispatcher events (16 R376-R392, 11 R259). A ring record or an intake packet joins its queue's FIFO, in the order in which they came; the head of a FIFO is accepted as a launch or
reported with its status; a waited-for value releases its launch; a graph packet whose fields, image and queue pass their checks becomes a graph of the dispatcher, and the nodes that no node
precedes are sent to the intake, and one that fails reports the status of its first failure; Bureau's placement, while a die holds its lease, forms a group; a group starts once its set
is ready for it; a launch whose groups have ended is reported; a hard pre-emption stops its group at a point where nothing is under way.
Changes at slack boundaries (02 R34, R37, R40; 08 R183; 13 R321): an invalidation that no gang in its phase delays clears the translations and answers; a region change is
answered with its handle; a table is replaced where its checks hold; a routine enters the store of every cluster that is not in a phase.
Choices of the model and not of the spec: a launch that was cut by a fault is reported with status 8 (log 36); the GEN that a region change answers is the device's count (log 64);
a ring's record runs on the queue of its ring (log 73). -/
def Obligations.DispatcherComplete : Prop :=
  (∀ (s : State) (q : BitVec 6) (id gid : Nat) (cs : List Nat),
     (∀ c h b, s.ctxOf (s.queueOf q).ctx = some c → s.loadVa c (c.mbox + (s.queueOf q).ringOff.toNat) 16 = some h →
       let tail := ofBytes (h.take 8)
       let head := ofBytes (h.drop 8)
       s.loadVa c (c.mbox + (s.queueOf q).ringOff.toNat + 64 + 64 * (head % 2 ^ (s.queueOf q).log2n.toNat)) 64 = some b → (s.queueOf q).v = true →
       (s.queueOf q).ringOff ≠ 0xFFFFFFFF → (s.queueOf q).fifo.length < 64 → head < tail → s.barrier = false → s.ctxLive (s.queueOf q).ctx = true →
       (∀ x ∈ s.disp.intake, BitVec.ofNat 6 (bits (ofBytes x.bytes) 245 240) ≠ q) → (∀ a, s.ctxPa c (c.mbox + (s.queueOf q).ringOff.toNat + 8) = some a → s.roomFor [a / 64 * 64] s.dom.ri = true ∧ s.mem.lineWaits (a / 64 * 64) = false) →
       ∃ (t : State) (r : LRec), exec (.hostRingTake q) s = .next t ∧ (t.queueOf q).fifo = (s.queueOf q).fifo ++ [r] ∧ r.bytes = b ∧ r.queue = q ∧
         r.ctx = (s.queueOf q).ctx ∧ SameRegs s.core t.core) ∧
     (∀ r, s.disp.intake.find? (fun r => r.target == q) = some r → (s.queueOf q).v = true → (s.queueOf q).ctx = r.ctx → (s.queueOf q).fifo.length < 64 →
       ∃ t : State, exec (.intakeToFifo q) s = .next t ∧ (t.queueOf q).fifo = (s.queueOf q).fifo ++ [{ r with queue := q }] ∧ t.disp.intake = s.disp.intake.erase r ∧
         t.core = s.core ∧ t.mem = s.mem) ∧
     (∀ r, s.disp.intake.find? (fun r => r.target == q) = some r → (s.queueOf q).v = false ∨ (s.queueOf q).ctx ≠ r.ctx → exec (.intakeToFifo q) s =
       .next (({ s with disp := { s.disp with intake := s.disp.intake.erase r } } : State).report q r.ctx r.tag 7)) ∧
     (∀ r l c, (s.queueOf q).fifo = r :: l → s.ctxOf r.ctx = some c → c.faulted = false → r.isGraph = false → s.headFree q = true →
       (∀ o a sc, s.checkRecord r c = .ok (o, a, sc) → ∃ (t : State) (x : Launch), exec (.launchCheck q) s = .next t ∧ (t.queueOf q).fifo = l ∧
         t.disp.launches = s.disp.launches ++ [x] ∧ x.id = s.disp.nextId ∧ x.queue = q ∧ x.ctx = r.ctx ∧ x.tag = r.tag ∧ x.code = o ∧ x.args = a ∧ x.nextDisp = 0) ∧
       (∀ st, s.checkRecord r c = .error st → ∃ u : State, exec (.launchCheck q) s = .next (u.report q r.ctx r.tag st) ∧ (u.queueOf q).fifo = l ∧
         u.disp.launches = s.disp.launches ∧ u.core = s.core ∧ u.mem = s.mem)) ∧
     (∀ l, s.launchOf id = some l → l.waitEn = true → l.waitOk = false → s.ctxLive l.ctx = true →
       l.waitVal.toNat ≤ s.mem.natAt none (s.syncLoc (bits l.waitVar 26 24) (bits l.waitVar 23 0)) 8 % 2 ^ 32 → ∃ (t : State) (x : Launch), exec (.waitvarLoad id) s = .next t ∧
         t.launchOf id = some x ∧ x.waitOk = true ∧ t.mem = s.mem ∧ t.core = s.core) ∧
     (∀ l c area, s.launchOf id = some l → s.ctxOf l.ctx = some c → s.savePlace c (saveSize l.g) = some area → s.led = true → s.offers l = true → s.placeable l.code l.g cs = true →
       s.roomOn cs (l.crows, l.nrows.toList) = true → ∃ t : State, exec (.groupPlacement id cs) s = .next t ∧ t.disp.nextGid = s.disp.nextGid + 1 ∧
         ∃ x, t.launchOf id = some x ∧ x.nextDisp = l.nextDisp + 1 ∧ s.disp.nextGid ∈ x.gids) ∧
     (∀ b k e l, s.boxOf gid = some b → b.gang.run = .fresh → s.launchOf b.gang.launch = some l → b.gang.code.entries[l.entry]? = some e →
       s.setOf gid = some k → k.exec = some gid → s.setReady k gid = true → s.dom.st ≠ .closed →
         let begun := fun (b : GangBox) => ({ b with gang := { b.gang with now := s.setNow k } } : GangBox).started e.first
         exec (.groupStart gid) s = .next ((s.onBox gid fun b => { begun b with gang := (begun b).gang.hearSeal s }).readHalves gid)) ∧
     (∀ l, s.launchOf id = some l → l.ended = l.total → s.dom.st ≠ .closed → l.doneEn = false → l.node = none → exec (.launchEnd id) s =
       .next (({ s with disp := { s.disp with launches := s.disp.launches.filter (fun x => x.id != id) } } : State).report l.queue l.ctx l.tag (if l.cut then 8 else 0))) ∧
     (∀ l, s.launchOf id = some l → l.ended = l.total → s.dom.st ≠ .closed → ∃ t : State, exec (.launchEnd id) s = .next t ∧ t.launchOf id = none) ∧
     (s.hardReady = true → ∃ u : State, exec .hardPreemption s = .next u.serve ∧ u.gang.run = .boundary ∧ u.gang.kind = 2 ∧ u.gang.latched.hard = true ∧
       u.gang.latched.soft = false ∧ u.core = s.core ∧ u.mem = s.mem) ∧
     (∀ r l c, (s.queueOf q).fifo = r :: l → s.ctxOf r.ctx = some c → c.faulted = false → r.isGraph = true → s.headFree q = true → s.disp.graphs.length < 16 →
       s.hostWritesDone = true → r.preds.all s.mem.complete = true →
         let img := s.graphImage c (bits r.n 115 64)
         let good := graphFieldBad r.n = false ∧ (bits r.n 191 191 = 1 → c.syncOk (bits r.n 410 384) = true)
         let served := (s.queueOf r.target).v = true ∧ (s.queueOf r.target).ctx = r.ctx
         let refused := fun (st : Nat) => exec (.graphReplayStart q) s = .next (((s.noteGraph c (bits r.n 115 64)).popFifo q).report q r.ctx r.tag st)
         (∀ ns, good → img = .ok ns → served → c.torn = false → (∀ g ∈ s.disp.graphs, g.id ≠ s.disp.nextId) → ∃ (t : State) (g : Graph) (recs : List LRec),
           exec (.graphReplayStart q) s = .next t ∧ (t.queueOf q).fifo = l ∧ t.disp.graphs = s.disp.graphs ++ [g] ∧ t.disp.nextId = s.disp.nextId + 1 ∧ g.id = s.disp.nextId ∧
           g.queue = q ∧ g.ctx = r.ctx ∧ g.tag = r.tag ∧ g.nodes = ns ∧ g.ended = [] ∧ (∀ i, i ∈ g.released ↔ i < ns.length ∧ ∀ x ∈ ns, i ∉ x.2) ∧
           t.disp.intake = s.disp.intake ++ recs ∧ recs.map (·.node) = g.released.map (fun i => some (g.id, i)) ∧
           (∀ x ∈ recs, x.queue = q ∧ x.ctx = r.ctx ∧ ∃ i, x.node = some (g.id, i) ∧ x.bytes = (nth ns i ([], [])).1) ∧ t.disp.launches = s.disp.launches ∧ t.core = s.core ∧ t.mem = s.mem) ∧
         (¬good → refused 2) ∧ (good → img = .error 3 → refused 3) ∧ (good → img = .error 6 → refused 6) ∧
         (∀ ns, good → img = .ok ns → (¬served → refused 7) ∧ (served → c.torn = true → refused 8))) ∧
     (∀ b, s.boxOf gid = some b → b.gang.run = .evicted → s.led = true → s.ctxLive b.gang.ctx = true →
       (s.disp.evicted.filter fun g => match s.boxOf g with | some x => x.gang.queue == b.gang.queue | none => false).head? = some gid →
       s.placeable b.gang.code b.gang.g cs = true → s.roomOn cs b.rows = true → ∃ t : State, exec (.groupResume gid cs) s = .next t ∧ gid ∉ t.disp.evicted)) ∧
  (∀ (s : State) (id : Nat) (j : JobRec), s.jobOf id = some j → s.led = true →
     (∀ c va n w, j.job = .invalidate c va n w → (∀ g ∈ w, ∀ b, s.boxOf g = some b → b.gang.run ≠ .phase) → ∃ u : State,
       exec (.invalidationComplete id) s = .next (u.respond j.seq j.ctx j.tag 0 []) ∧ u.jobOf id = none ∧
       (s.gang.ctx = c → ∀ e ∈ u.clu.tlb, 2 ^ 21 * (e.1 + 1) ≤ va ∨ va + n ≤ 2 ^ 21 * e.1) ∧ u.mem = s.mem) ∧
     (∀ cx ix img c, j.job = .region cx ix img → s.ctxOf j.ctx = some c → s.ctxInPhase c.id = false → s.barrier = false →
       (∀ k ∈ s.mem.cmds, k.ctx = c.id → k.names.contains ix = false) → s.opNames c.id ix = false →
         let r := Region.ofNat (ofBytes img)
         let old := Region.ofNat (s.regionEntry c ix)
         let answers := fun (gen : Nat) => ∃ u : State, exec (.regionChangeApply id) s = .next (u.respond j.seq j.ctx j.tag 0 [gen * 2 ^ 40 + ix]) ∧ u.jobOf id = none
         (r.v = false → s.roomFor [c.rbase + 64 * ix] s.dom.ri = true → answers ((old.gen + 1) % 2 ^ 24)) ∧
         (∀ es, r.v = true → r.malformed = false → s.crosses c r = false → s.partOf c r.base = .own → s.pinPages c r = some es → (∀ e ∈ es, bits e 5 5 = 1 ∧ leafPcls e ≠ 3) →
           s.roomFor ((c.rbase + 64 * ix) :: (List.range r.pages).map fun i => (r.flist + 8 * i) / 64 * 64) s.dom.ri = true → answers old.gen)) ∧
     (∀ gid t1 ds b, j.job = .table gid t1 ds → s.boxOf gid = some b → b.gang.active ≠ t1 → b.inPhase = false → b.gang.run ≠ .fresh →
       tableOk b.gang.code ds (if t1 then b.gang.t0 else b.gang.t1) = true → ∃ u : State, exec (.tableReplacementApply id) s = .next (u.respond j.seq j.ctx j.tag 0 []) ∧
         ∃ x, u.boxOf gid = some x ∧ x.gang.table t1 = ds ∧ x.gang.table (!t1) = b.gang.table (!t1)) ∧
     (∀ ix ops l, j.job = .routine ix ops l → ops.length ≤ 32 → ix < 256 → ∃ t : State, exec (.routineInstall id) s = .next t ∧ t.mem = s.mem ∧ t.gang = s.gang ∧
       (∀ k ∈ l, k < 64 → s.clusterInPhase k = false → ∀ c i, c < 4 → i < ops.length → t.ucodeAt (4 * k + c) ix i = nth ops i 0)))

/-! ### The host -/

/-- Frames and links of the host (18 R413-R415, R418-R420; 06 R140, R141). A `WRITE` with the expected number, in the window and past the capability area, is
acknowledged and queues its bytes as an access of the hub; a `READ`, of no byte also, queues a read event for each line,
and after the last of them answers with the bytes that the hub saw, or holds the response to the seal; a wrong number is answered with
NAK and changes nothing else. A snoop takes its line out of the filter, recalls it for the cores that watch it from before, and stores what the host writes over every write before it;
a lost port makes its lines errors. A peer's next frame is acknowledged and counted; unacknowledged frames are sent again; an acknowledgement frees those before it.
Choices of the model and not of the spec: the number of a request is checked before its form and its context (log 39); a READ is one access with a read event for each line (log 76). -/
def Obligations.HostFramesComplete : Prop :=
  ∀ (s : State) (seq : W32) (ctx : BitVec 16) (tag : W64) (off : BitVec 30) (data : List Byte) (len : BitVec 14) (c : Ctx), s.pkg.booted = true →
    (seq = s.host.seq → s.ctxOf ctx = some c → data.length ≤ 8192 → s.inlogFull ctx = false → s.barrier = false → s.host.pendq = [] → 0x10000 ≤ off.toNat →
      off.toNat + data.length ≤ c.mboxLen → ∃ t : State, exec (.write seq ctx tag off data none) s = .next t ∧ t.host.seq = s.host.seq + 1 ∧
        Out.frame 0x84 0 seq ctx tag [] ∈ t.host.sent ∧ t.mem.hubLast = [s.mem.nextId] ∧ (∀ e ∈ t.mem.wq, e ∈ s.mem.wq ∨ e.acc = s.mem.nextId) ∧
        SameRegs s.core t.core ∧ SameBytes s t) ∧
    (∀ l, seq = s.host.seq → s.ctxOf ctx = some c → len.toNat ≤ 8192 → s.inlogFull ctx = false → s.readsHeld < 256 → s.barrier = false → s.host.pendq = [] →
      off.toNat + len.toNat ≤ c.mboxLen → (if len = 0 then [(c.mbox + off.toNat - (if off.toNat = c.mboxLen then 1 else 0), 0)] else vaPieces (c.mbox + off.toNat) len.toNat).mapM
        (fun p => (s.ctxPa c p.1).map fun a => (a, p.2)) = some l →
      ∃ (t : State) (r : HostRead), exec (.read seq ctx tag off len) s = .next t ∧ t.host.seq = s.host.seq + 1 ∧ Out.frame 0x84 0 seq ctx tag [] ∈ t.host.sent ∧
        t.mem.hubLast = [s.mem.nextId] ∧ t.host.reads = s.host.reads ++ [r] ∧ r.acc = s.mem.nextId ∧ r.seq = seq ∧ r.tag = tag ∧ r.pieces = l ∧
        (∀ p ∈ l, ∃ e ∈ t.mem.rq, e.acc = s.mem.nextId ∧ e.addr = p.1 ∧ e.n = p.2 ∧ e.dst = .host s.mem.nextId ∧ e.val = none) ∧ SameRegs s.core t.core ∧ SameBytes s t) ∧
    (∀ id e h a r, s.mem.rq.find? (fun e => e.id == id) = some e → s.mem.acc? e.acc = some a → e.dst = .host h → e.val = none → isFar e.addr = false → s.mem.predsDelivered e.acc a.die = true →
      s.barrier = false → s.host.reads.find? (fun r => r.acc == h) = some r → (∀ x ∈ s.mem.rq, x.acc = h → x.id = id) → ∃ t : State,
        exec (.readEventPerform id) s = .next t ∧ (∀ x ∈ t.host.reads, x.acc ≠ h) ∧ (memWf s → SameBytes s t) ∧
        (let o := Out.frame 0x81 0 r.seq r.ctx r.tag (r.pieces.flatMap fun p => (r.data.store (cellsAt e.addr (s.mem.bytesAt (some a.die) e.addr e.n))).read p.1 p.2)
         (s.dom.sealed = false → o ∈ t.host.sent) ∧ (s.dom.sealed = true → ∃ x ∈ t.dom.held, x.eff = o))) ∧
    (seq ≠ s.host.seq → data.length ≤ 8192 → exec (.write seq ctx tag off data none) s = .next (s.sendOut (.frame 0x85 5 s.host.seq ctx tag [])) ∧
      exec (.read seq ctx tag off len) s = .next (s.sendOut (.frame 0x85 5 s.host.seq ctx tag []))) ∧
    (∀ (line : Nat) (w : Option (List Byte)), isShared line = true → 64 * (line / 64) ∉ s.mem.owned → ∃ t : State, exec (.backInvalidateSnoop line w) s = .next t ∧
      line / 64 ∉ t.pkg.snoop ∧ t.core = s.core ∧ (w = none → t.mem = { s.mem with nextId := t.mem.nextId }) ∧
      (line / 64 ∈ s.pkg.snoop → s.recalled (line / 64) s.mem.nextId = false → t.recalled (line / 64) s.mem.nextId = true ∧ t.recalled (line / 64) t.mem.nextId = false) ∧
      (∀ l i, w = some l → memWf s → i < 64 → i < l.length → t.mem.byteAt none (64 * (line / 64) + i) = nth l i 0)) ∧
    (∀ port, port < 4 → ∃ t : State, exec (.cxlLinkLoss port) s = .next t ∧ port ∈ t.mem.lostPorts ∧ t.core = s.core ∧ t.mem.bytes = s.mem.bytes) ∧
    (∀ peer p, s.pkg.peers.find? (fun p => p.id.toNat == peer && !p.lost) = some p →
      (seq = p.nextRx → data.length ≤ 8192 → s.barrier = false → s.inlogFull p.ctx = false → ∃ t : State, exec (.scaleOutReceive peer seq data) s = .next t ∧
        Out.scaleOut peer (seq + 1) [] ∈ t.host.sent ∧ (∀ x ∈ t.pkg.peers, x.id = p.id → ∃ y ∈ s.pkg.peers, y.id = p.id ∧ x.nextRx = y.nextRx + 1)) ∧
      exec (.scaleOutRetransmit peer) s = .next { s with host := { s.host with sent := s.host.sent ++ p.unacked.map fun x => Out.scaleOut peer x.1 x.2 } } ∧
      ((∀ c, s.ctxOf p.ctx = some c → c.todo = []) → ∃ t : State, exec (.scaleOutAcknowledgement peer seq) s = .next t ∧
        (∀ x ∈ t.pkg.peers, x.id = p.id → ∀ f ∈ x.unacked, f.1 = seq ∨ 2 ^ 31 ≤ (seq - f.1).toNat) ∧ t.core = s.core ∧ t.mem = s.mem))

/-- The driver commands (18 R417, R431, R433, R434, R450; 02 R34, R37; 08 R183; 09 R199-R203; 16 R376, R387, R393; 17 R400): one that is taken is performed in the state that
`accepted` gives, as its operation says, with a response of status 0 and the words of its answer. The attestation is signed by the two keys derived from the seed.
Choices of the model and not of the spec: the length of a configuration record is a free number (log 9); the layout of the attestation (log 38); FREQ is answered when the change is
requested, PREEMPT applies to the groups that execute then, and the lowest free number of a context or a code entry is taken (log 39). -/
def Obligations.CommandsComplete : Prop :=
  ∀ (s : State) (f : CmdFrame),
    let run := fun (i : Instr) (op : Byte) (P : State → (W16 → List Nat → State → Prop) → (State → Prop) → Prop) => s.takes op f = true →
      P (s.accepted op f).2 (fun st ws v => exec i s = .next (v.respond f.seq f.ctx f.tag st ws)) (fun t => exec i s = .next t)
    run (.ctxCreate f) 1 (fun u answers _ => u.pkg.cfgOk = true → createArgsOk f = true → u.createRefusal (u.ctxOfArgs f) = none →
      ∃ v : State, answers 0 [(u.ctxOfArgs f).id.toNat] v ∧ v.pkg.ctxs = u.pkg.ctxs ++ [u.ctxOfArgs f]) ∧
    run (.ctxDestroy f) 2 (fun u _ ends => ∀ c, u.pkg.cfgOk = true → u.ctxOf f.ctx = some c → cmdOnly f [] = true → ends (u.tearDown f c true).reap) ∧
    run (.codeLoad f) 3 (fun u answers _ => ∀ c l, u.pkg.cfgOk = true → u.ctxOf f.ctx = some c → cmdOnly f [[(63, 0)], [(43, 0)]] = true →
      ((u.regionBytes c (BitVec.ofNat 64 (cmdArg f 1)) (cmdArg f 2) 256).bind fun b =>
        u.regionBytes c (BitVec.ofNat 64 (cmdArg f 1)) (cmdArg f 2) (max 256 (ofBytes ((b.drop 8).take 8)))) = some l →
      Obj.refusal (l : List Byte).toArray false = none → u.pkg.freeCode.1 ≤ 65535 → ∃ (v : State) (e : CodeEnt),
        answers 0 [(codeHandle u.pkg.boots e.index e.gen.toNat c.id.toNat).toNat] v ∧ e ∈ v.pkg.codes ∧ e.live = true ∧ e.owner = c.id ∧ e.index = u.pkg.freeCode.1) ∧
    run (.codeUnload f) 4 (fun u answers _ => ∀ c o, u.pkg.cfgOk = true → u.ctxOf f.ctx = some c → cmdOnly f [[(63, 0)]] = true →
      u.pkg.codeOf (BitVec.ofNat 64 (cmdArg f 1)) c.id = some o → ∃ v : State, answers 0 [] v ∧
        ∀ k ∈ v.pkg.codes, k.index = bits (BitVec.ofNat 64 (cmdArg f 1)).toNat 15 0 → k.live = false) ∧
    run (.regionSet f) 5 (fun u _ ends => ∀ c img, u.pkg.cfgOk = true → u.ctxOf f.ctx = some c → cmdOnly f [[(39, 0)], [(29, 0)]] = true → 1 ≤ cmdArg f 1 →
      cmdArg f 1 < c.rtlim → cmdArg f 2 % 64 = 0 → 0x10000 ≤ cmdArg f 2 → cmdArg f 2 + 64 ≤ c.mboxLen → u.loadVa c (c.mbox + cmdArg f 2) 64 = some img →
      ends ((u.noteVa c (c.mbox + cmdArg f 2) 64).addAndTry f (.region c.id (cmdArg f 1) img))) ∧
    run (.invalidate f) 6 (fun u _ ends => ∀ c, u.pkg.cfgOk = true → u.ctxOf f.ctx = some c → cmdOnly f [[(51, 0)], [(52, 0)]] = true → 1 ≤ cmdArg f 2 →
      cmdArg f 2 ≤ 2 ^ 52 → ends (u.addAndTry f (.invalidate c.id (cmdArg f 1) (cmdArg f 2)
        ((u.allBoxes.filter fun b => b.gang.ctx == c.id && b.inPhase).map (·.gang.gid))))) ∧
    run (.queueSet f) 7 (fun u answers _ => ∀ c, let d := cmdArg f 2 + cmdArg f 3 * 2 ^ 64
      u.pkg.cfgOk = true → u.ctxOf f.ctx = some c → cmdOnly f [[(5, 0)], [(63, 0)], [(63, 0)]] = true → queueDescOk d = true → bits d 63 48 = c.id.toNat →
      ∃ v : State, answers 0 [] v ∧ v.queueOf (BitVec.ofNat 6 (cmdArg f 1)) = (u.queueOf (BitVec.ofNat 6 (cmdArg f 1))).configured d ∧
        (∀ q, q ≠ BitVec.ofNat 6 (cmdArg f 1) → v.queueOf q = u.queueOf q) ∧ v.core = u.core ∧ v.mem = u.mem) ∧
    run (.preempt f) 8 (fun u answers _ => ∀ c, u.pkg.cfgOk = true → u.ctxOf f.ctx = some c → cmdOnly f [[(5, 0), (8, 8)], [(1, 0)]] = true →
      bits (cmdArg f 1) 8 8 = 1 → bits (cmdArg f 1) 5 0 = 0 → ∃ v : State, answers 0 [] v ∧
        (u.gang.ctx = c.id → u.gang.run.executing = true → (bits (cmdArg f 2) 0 0 = 1 → v.gang.req.hard = true) ∧ (bits (cmdArg f 2) 0 0 = 0 → v.gang.req.soft = true)) ∧
        v.core = u.core ∧ v.mem = u.mem) ∧
    run (.resume f) 9 (fun u _ ends => ∀ c r b, u.pkg.cfgOk = true → u.ctxOf f.ctx = some c → cmdOnly f [[(31, 0)]] = true →
      let recs := (u.pkg.faults.toList.flatMap id).filter fun r => r.ctx == c.id && (r.cls == 17 || r.cls == 18) && !r.fwc
      recs.find? (fun r => r.seq.toNat == cmdArg f 1) = some r →
      u.allBoxes.find? (fun b => b.gang.run == .stopped && b.gang.ctx == c.id && b.gang.gidx == r.gidx && b.gang.dispNum == r.dispNum) = some b → r.resumable = true →
      c.faulted = false → ends (u.addAndTry f (.resume b.gang.gid
        ((recs.filter fun x => x.gidx == r.gidx && x.dispNum == r.dispNum && x.tstamp == r.tstamp).map (·.rank.toNat))))) ∧
    run (.routineSet f) 10 (fun u _ ends => ∀ c l, u.pkg.cfgOk = true → u.ctxOf f.ctx = some c → cmdOnly f [[(7, 0)], [(63, 0)], [(43, 0)]] = true → 6 ≤ cmdArg f 1 →
      u.regionBytes c (BitVec.ofNat 64 (cmdArg f 2)) (cmdArg f 3) 256 = some l →
      ends ((u.noteRegion c (BitVec.ofNat 64 (cmdArg f 2)) (cmdArg f 3) 256).addAndTry f (.routine (cmdArg f 1) ((List.range 32).map fun i => argWord l i) (List.range 64)))) ∧
    run (.tableSet f) 11 (fun u _ ends => ∀ c g l, u.pkg.cfgOk = true → u.ctxOf f.ctx = some c →
      cmdOnly f [[(5, 0), (63, 32)], [(31, 0)], [(0, 0), (15, 8)], [(63, 0)], [(43, 0)]] = true →
      u.tableGroup c (BitVec.ofNat 6 (bits (cmdArg f 1) 5 0)) (bits (cmdArg f 1) 63 32) (cmdArg f 2) = some g →
      u.regionBytes c (BitVec.ofNat 64 (cmdArg f 4)) (cmdArg f 5) (32 * (bits (cmdArg f 3) 15 8 + 1)) = some l →
      let raw := (List.range (bits (cmdArg f 3) 15 8 + 1)).map fun i => ofBytes ((l.drop (32 * i)).take 32)
      (∀ d ∈ raw, bits d 145 0 = 0) → ends ((u.noteRegion c (BitVec.ofNat 64 (cmdArg f 4)) (cmdArg f 5) (32 * (bits (cmdArg f 3) 15 8 + 1))).addAndTry f (.table g (bits (cmdArg f 3) 0 0 == 1) (raw.map descOf)))) ∧
    run (.attest f) 12 (fun u _ ends => let b := u.attestBody f
      let out := Out.frame 0x83 0 f.seq f.ctx f.tag (b ++ Config.signEd edKey b ++ Config.signMl mlKey b)
      (u.ctxOf f.ctx = none → ends (u.sendOut out)) ∧ (∀ c, u.ctxOf f.ctx = some c → ends ((u.noteVa c (c.mbox + 0x10000) 8).sendOut out))) ∧
    run (.freq f) 13 (fun u answers _ => ∀ c, u.pkg.cfgOk = true → u.ctxOf f.ctx = some c → cmdOnly f [[(1, 0)]] = true → u.pkg.clk.full = true →
      u.pkg.cfg.permits (cmdArg f 1) = true → ∃ v : State, answers 0 [] v ∧ v.pkg.clk.pending = some (BitVec.ofNat 2 (cmdArg f 1)) ∧ v.core = u.core ∧ v.mem = u.mem) ∧
    run (.configWrite f) 14 (fun u answers _ => ∀ c l, u.ctxOf f.ctx = some c → cmdOnly f [[(63, 0)], [(43, 0)]] = true →
      u.regionBytes c (BitVec.ofNat 64 (cmdArg f 1)) (cmdArg f 2) Config.cfgLength.toNat = some l → ∃ v : State, answers 0 [] v ∧ v.pkg.flash = some l ∧
        v.pkg.cfg = u.pkg.cfg ∧ v.core = u.core ∧ v.mem = u.mem) ∧
    run (.peerSet f) 15 (fun u answers _ => ∀ c, u.pkg.cfgOk = true → u.ctxOf f.ctx = some c →
      cmdOnly f [[(15, 0), (18, 16)], [(47, 0)], [(63, 0)], [(63, 0)], [(26, 0), (58, 32)]] = true → c.syncOk (bits (cmdArg f 5) 26 0) = true →
      c.syncOk (bits (cmdArg f 5) 58 32) = true → u.ringsOk c (cmdArg f 3) (cmdArg f 4) = true → (∀ p ∈ u.pkg.peers, p.ctx = c.id) → ∃ (v : State) (p : Peer),
        answers 0 [] v ∧ p ∈ v.pkg.peers ∧ p.id = BitVec.ofNat 16 (bits (cmdArg f 1) 15 0) ∧ p.ctx = c.id ∧ p.send = BitVec.ofNat 64 (cmdArg f 3) ∧
        p.recv = BitVec.ofNat 64 (cmdArg f 4) ∧ p.lost = false ∧ v.core = u.core ∧ v.mem = u.mem)

/-! ### Firmware, clock, power and reset -/

/-- The firmware's registers and ports, the clock and the power limits, and the reset (18 R421-R425, R427, R429, R431, R432, R435; 10 R246). FWTIMER and its expiry; a `CLKCTL` request of
a permitted step in full service, its cancellation, the change once every gang is stopped; the power average over 10 samples; 105 and 115 degrees; an operation of the firmware
Sconce port while none is in flight and no barrier holds it, and its reply; lane maps and pattern tests of a controller out of service, whose errors are lanes of the map it began with
and whose delays are those of its start; what a write of each register does: AFLAGS, ROT, flag barriers, staging words, and the registers of the firmware from 0x200 on; a reset boots
with good signatures and security versions, gives the hub the lease, and keeps the shared window and what has left.
Choices of the model and not of the spec: the thermal event on all five dies (log 33); which stacks come into service (log 34); what a reset keeps besides (log 57); bits written 1 stay
set until the spec clears them (log 60); FWTIMER counts from the TIME last read (log 63); the first value of the version counter (log 106). -/
def Obligations.FirmwareComplete : Prop :=
  ∀ (s : State) (us v : W64) (mw ctl pch : Nat) (k : BitVec 2) (st : BitVec 4) (lerr : BitVec 18) (n : W32) (r : BitVec 10), s.die < 5 →
    let f := s.fwd s.die
    let next := fun (i : Instr) (P : State → Prop) => ∃ t : State, exec i s = .next t ∧ P t
    let ports : List (Instr × BitVec 6) :=
      [(.fwsAtLd st, 0x08), (.fwsAtSt st, 0x09), (.fwsAtAdd st, 0x0A), (.fwsAtAnd st, 0x0B), (.fwsAtOr st, 0x0C), (.fwsAtXor st, 0x0D), (.fwsAtMin st, 0x0E),
        (.fwsAtMax st, 0x0F), (.fwsAtMinu st, 0x10), (.fwsAtMaxu st, 0x11), (.fwsAtSwap st, 0x12), (.fwsAtCas st, 0x13), (.fwsAtXadd st, 0x14), (.fwsAtXrd st, 0x15),
        (.fwsAtXclr st, 0x16), (.fwsSbArrv st, 0x18)]
    next (.fwTimer us) (fun t => (t.fwd s.die).timer = us ∧ (∀ d, d ≠ s.die → t.fwd d = s.fwd d) ∧ t.core = s.core ∧ t.mem = s.mem) ∧
    (f.timer ≠ 0 → next .fwTimerExpiry fun t => (t.fwd s.die).timer = 0 ∧ (t.fwd s.die).evt.getLsbD 3 = true ∧ t.core = s.core ∧ t.mem = s.mem) ∧
    (s.pkg.cfg.permits (f.clkctl.toNat % 4) = true → s.pkg.clk.full = true → next .clkctlReq fun t => t.pkg.clk.pending = some (f.clkctl.setWidth 2) ∧ t.core = s.core) ∧
    (s.pkg.clk.pending = some k → next .clkctlCancel (fun t => t.pkg.clk.pending = none ∧ t.pkg.clk.step = s.pkg.clk.step) ∧
      next .frequencyChangeTimeout (fun t => t.pkg.clk.pending = none ∧ t.pkg.clk.step = s.pkg.clk.step) ∧
      (s.allStopped = true → next .frequencyChange fun t => t.pkg.clk.pending = none ∧ t.pkg.clk.step = some k)) ∧
    (s.die = 4 → next .svcFull fun t => t.pkg.clk.svcReq = true ∧ t.core = s.core ∧ t.mem = s.mem) ∧
    (s.pkg.clk.svcReq = true → s.pkg.clk.full = false → s.allStopped = true → s.barrier = false → next .fullServiceTransition fun t => t.pkg.clk.full = true ∧ t.pkg.clk.svcReq = true ∧
      t.pkg.clk.step = some 0 ∧ t.pkg.inService = s.trained) ∧
    (∀ j, j ∈ s.trained ↔ j < 12 ∧ (j ∈ s.pkg.inService ∨ ∀ c < 160, (s.fwd (j / 3)).channelOk (j % 3) c = true)) ∧
    next (.powerSample mw) (fun t => t.pkg.clk.power = (mw :: s.pkg.clk.power).take 10 ∧
      (∀ c j, s.pkg.clk.step = some c → s.pkg.clk.full = true → (mw :: s.pkg.clk.power).length ≥ 10 →
        10 * (s.pkg.cfg.powerLimit * 1000) < ((mw :: s.pkg.clk.power).take 10).sum → s.pkg.cfg.lower c.toNat = some j → t.pkg.clk.pending = some (BitVec.ofNat 2 j)) ∧
      t.core = s.core ∧ t.mem = s.mem) ∧
    (s.pkg.clk.full = true → next .thermalLimit fun t => t.pkg.clk.pending = some 3 ∧ (∀ d, d < 5 → (t.fwd d).evt.getLsbD 5 = true) ∧ t.core = s.core) ∧
    next .thermalCutoff (fun t => t.pkg.clk.off = true ∧ t.core = s.core ∧ t.mem = s.mem) ∧
    (∀ i op, (i, op) ∈ ports → s.core.id = .fw s.die → f.pend = false → s.fwHeld op = false →
      (∀ tg, s.fwTarget f.stgt (exactOp op) = some tg → next i fun t => ∃ o, t.mem.ops = s.mem.ops ++ [o] ∧ o.op = op ∧ o.v = f.sv ∧ o.n = f.sn ∧ o.loc = tg.loc ∧
        o.home = tg.home ∧ (t.fwd s.die).pend = true ∧ (t.fwd s.die).rnum = f.rnum + 1 ∧ t.frontier st = [s.mem.nextId]) ∧
      (s.fwTarget f.stgt (exactOp op) = none → next i fun t => ∃ x, t.mem.reps = s.mem.reps ++ [x] ∧ x.reply.fcode = 12 ∧ (t.fwd s.die).pend = true)) ∧
    (∀ x, s.mem.reps.find? (fun x => x.who == .fw s.die && x.write) = some x → next .fwsReply fun t => (t.fwd s.die).reply = x.reply.value ∧
      (t.fwd s.die).stat.getLsbD 63 = true ∧ (t.fwd s.die).pend = x.reply.status.getLsbD 62 ∧ t.core = s.core) ∧
    (physChan f.physel = some (ctl, pch) → s.die ≠ 4 → s.phyBusy ctl = false →
      (f.mapBad ctl pch = true → next .patctlApply fun t => (t.fwd s.die).patres.getLsbD 62 = true ∧ (t.fwd s.die).maps = f.maps) ∧
      (f.mapBad ctl pch = false → next .patctlApply fun t => (t.fwd s.die).patres.getLsbD 62 = false ∧
        ∀ i, i < 16 → ((ctl, pch, i), (f.lane (ctl, pch, i)).phys) ∈ (t.fwd s.die).maps) ∧
      (bits f.patctl.toNat 11 8 ≤ 3 → bits f.patctl.toNat 5 4 ≤ 1 → next .patctlStart fun t => (t.fwd s.die).patres.getLsbD 63 = false ∧
        (t.fwd s.die).test = some { ctl := ctl, pch := pch, patctl := f.patctl, map := f.mapOf ctl pch, delays := f.delaysOf ctl pch })) ∧
    (∀ x, f.test = some x → n.toNat ≤ bits x.patctl.toNat 47 16 + 1 → (lerr = 0 ↔ n = 0) →
      (∀ i, i < 18 → lerr.getLsbD i = true → i ∈ x.map) → next (.patternTestDone lerr n) fun t => (t.fwd s.die).test = none ∧
      (t.fwd s.die).patres.getLsbD 63 = true ∧ (t.fwd s.die).tests = f.tests ++ [(x, lerr)] ∧ (∀ i, i < 18 → lerr.getLsbD i = true → (x.ctl, x.pch, i) ∈ (t.fwd s.die).fails)) ∧
    (s.privBad r = false →
      let wr := next (.registerWrite r v)
      let keeps := fun (t : State) => t.core = s.core ∧ t.mem = s.mem ∧ ∀ d, d ≠ s.die → t.fwd d = s.fwd d
      (r = 0 → wr fun t => t.core.aflags = s.core.aflags &&& ~~~v ∧ t.mem = s.mem) ∧
      (r = 9 → wr fun t => t.core.rotc = v.setWidth 32 ∧ t.core.rote = (if bits v.toNat 38 32 = 127 then none else some (BitVec.ofNat 7 (bits v.toNat 38 32))) ∧ t.mem = s.mem) ∧
      (0x020 ≤ r.toNat → r.toNat < 0x040 → wr fun t => (t.getFb (BitVec.ofNat 5 (r.toNat - 0x020))) = v &&& 0x1FFFFFFFF ∧ t.mem = s.mem) ∧
      (0x050 ≤ r.toNat → r.toNat < 0x08C → wr fun t => let n := (r.toNat - 0x050) / 5
        (∀ j, (h : j < 5) → (t.getPort n).stage[j] = if j = (r.toNat - 0x050) % 5 then v else (s.getPort n).stage[j]) ∧ (t.getPort n).armed = (s.getPort n).armed ∧
        (∀ m, m ≠ n → t.getPort m = s.getPort m) ∧ t.mem = s.mem) ∧
      (r = 0x201 → wr fun t => (t.fwd s.die).evt = f.evt &&& ~~~v ∧ keeps t) ∧
      (r = 0x202 → wr fun t => (t.fwd s.die).timer = v ∧ keeps t) ∧
      (r = 0x210 → v.getLsbD 8 = false → v.getLsbD 9 = false → wr fun t => (t.fwd s.die).clkctl.toNat % 4 = v.toNat % 4 ∧ t.pkg = s.pkg ∧ keeps t) ∧
      (r = 0x210 → v.getLsbD 8 = true → v.getLsbD 9 = false → s.pkg.clk.full = true → s.pkg.cfg.permits (v.toNat % 4) = true →
        wr fun t => t.pkg.clk.pending = some (v.setWidth 2) ∧ keeps t) ∧
      (r = 0x210 → v.getLsbD 9 = true → wr fun t => t.pkg.clk.pending = none) ∧
      (r = 0x211 → s.die = 4 → v.getLsbD 0 = true → wr fun t => t.pkg.clk.svcReq = true ∧ keeps t) ∧
      (r = 0x211 → s.die ≠ 4 ∨ v.getLsbD 0 = false → exec (.registerWrite r v) s = .next s) ∧
      (r = 0x220 → wr fun t => (t.fwd s.die).stgt = v ∧ keeps t) ∧ (r = 0x221 → wr fun t => (t.fwd s.die).sv = v ∧ keeps t) ∧ (r = 0x222 → wr fun t => (t.fwd s.die).sn = v ∧ keeps t) ∧
      (r = 0x223 → f.pend = true → exec (.registerWrite r v) s = .next s) ∧
      (r = 0x223 → f.pend = false → 2 ^ 10 ≤ v.toNat ∨ v.toNat % 64 < 0x08 ∨ v.toNat % 64 = 0x17 ∨ 0x18 < v.toNat % 64 → wr fun t =>
        (t.fwd s.die).stat.getLsbD 63 = true ∧ bits (t.fwd s.die).stat.toNat 47 32 = 8 ∧ (t.fwd s.die).pend = false ∧ keeps t) ∧
      (r = 0x223 → f.pend = false → (∀ p, s.fwHeld p = false) → ∀ i op, (i, op) ∈ ports → v = (st ++ op).setWidth 64 → exec (.registerWrite r v) s = exec i s) ∧
      (s.die = 4 → 0x240 ≤ r.toNat → r.toNat ≤ 0x242 → exec (.registerWrite r v) s = .next s) ∧
      (r = 0x240 → s.die ≠ 4 → wr fun t => (t.fwd s.die).physel = v &&& 0x1FFF03 ∧ keeps t) ∧
      (∀ lane, r = 0x241 → s.die ≠ 4 → physelOf f.physel = some lane → s.phyBusy lane.1 = false → wr fun t =>
        (t.fwd s.die).lane lane = { phys := if lane.2.2 < 16 then BitVec.ofNat 5 (bits v.toNat 20 16) else (f.lane lane).phys, wdly := BitVec.ofNat 7 (bits v.toNat 14 8),
                                    rdly := BitVec.ofNat 7 (bits v.toNat 6 0) } ∧ (∀ l, l ≠ lane → (t.fwd s.die).lane l = f.lane l) ∧ keeps t) ∧
      (r = 0x242 → s.die ≠ 4 → (∀ c p, physChan f.physel = some (c, p) → s.phyBusy c = false) → v.getLsbD 0 = false → v.getLsbD 1 = false → wr fun t =>
        bits (t.fwd s.die).patctl.toNat 47 16 = bits v.toNat 47 16 ∧ bits (t.fwd s.die).patctl.toNat 11 8 = bits v.toNat 11 8 ∧
        bits (t.fwd s.die).patctl.toNat 5 4 = bits v.toNat 5 4 ∧ keeps t)) ∧
    (∀ ok cfg, next (.coldReset ok cfg) fun t => t.pkg.booted = (ok && s.svnOk) ∧ t.core = State.reset.core ∧ t.gang = State.reset.gang ∧ t.disp = State.reset.disp ∧
      t.pkg.flash = s.pkg.flash ∧ t.host.sent = s.host.sent ∧ t.host.seq = 0 ∧ t.pkg.cfgOk = (ok && s.svnOk && (cfg && s.recordOurs)) ∧
      t.pkg.cfg = s.cfgAfterReset (cfg && s.recordOurs) ∧ t.dom.sealed = t.pkg.cfg.sealedMode ∧ t.led = (ok && s.svnOk) ∧
      (memWf s → (∀ a, isShared a = true → t.mem.bytes.get a = s.mem.bytes.get a) ∧ (ok = true → s.svnOk = true → t.mem.natAt none (syncAt 4 0) 8 = 2 ^ 32 + 2 ^ 8 + 4)))

/-- The state right after reset: what the spec gives (10 R233, R239; 05 R117; 07 R148; 16 R376; 18 R414, R427). The hub's firmware core is in focus with `p0` = 1, other registers, masks and
accumulators 0, ports unarmed and flag barriers at EXP 1; interval 1, no seal under way; every queue with RINGOFF 0xFFFF_FFFF; SEQ 0; no context, no group; memory lists nothing.
Choices of the model and not of the spec: memory nothing has written reads as 0 (log 1), sync variables 0 (log 2), the registers of a firmware core (log 81). -/
def Obligations.ResetState : Prop :=
  let s := State.reset
  memWf s ∧ s.mem.bytes = [] ∧ s.core.id = .fw 4 ∧ s.core.p = 1 ∧ (∀ i, s.getP i = (i == 0)) ∧ (∀ i, s.getC i = 0) ∧ (∀ i, s.getA i = 0) ∧
  (∀ u i j, j < 64 → (s.getV u i).lane j = 0) ∧ (∀ u i, i ≠ 0 → s.getM u i = 0) ∧ (∀ u, s.getM u 0 = BitVec.allOnes 64) ∧ (∀ u i, s.getB u i = 0) ∧
  (∀ i, s.getMp i = 0) ∧ (∀ i, s.getXp i = 0) ∧ (∀ (k : BitVec 2) m n, Acc.lane (rget s.core.mxu.acc k) m n = 0) ∧ (∀ k : BitVec 2, rget s.core.mxu.live k = false) ∧ s.core.aflags = 0 ∧
  (∀ i, s.getFb i = 1) ∧ (∀ i, i < 12 → (s.getPort i).armed = false ∧ (s.getPort i).pos = 0) ∧ s.core.loops = [] ∧ s.core.rote = none ∧ s.core.rotc = 0 ∧
  s.dom.ri = 1 ∧ s.dom.st = .none ∧ (∀ q, (s.queueOf q).ringOff = 0xFFFFFFFF ∧ (s.queueOf q).v = false ∧ (s.queueOf q).fifo = []) ∧ s.host.seq = 0 ∧ s.pkg.ctxs = [] ∧
  s.disp.launches = [] ∧ s.pkg.clk.full = false ∧ s.traps = []

/-! ### What stays unchanged -/

/-- Frame of the instructions that read registers at issue and queue writes (`Instr.queued` lists them with their destinations: predicates, control and scalar arithmetic, copies, masks,
staging, `MZERO`, `MLIVE`, `MDEAD`, the micro-op store): the next state is the state with actions queued and nothing else changed; every action queued before stays, and every
new one is of this cycle and writes a destination of the instruction. Among the actions of one cycle the newest of the owning slots stands last, so that it takes effect. -/
def Obligations.QueuedWritesFrame : Prop :=
  (∀ (i : Instr) (s : State) (l : List Dest), i.queued = some l → ∃ t : State, exec i s = .next t ∧ t = { s with core := { s.core with pend := t.core.pend } } ∧
    (∀ p ∈ s.core.pend, p ∈ t.core.pend) ∧
    (∀ p ∈ t.core.pend, p ∈ s.core.pend ∨ p.iss = s.gang.now ∧ s.gang.now ≤ p.time ∧ ∃ d ∈ l, p.act.dest? = some d)) ∧
  (∀ (s : State) (dt : Nat) (a : Act), (∀ p ∈ s.core.pend, p.iss ≤ s.gang.now) →
    (s.later dt true a).core.pend = s.core.pend ++ [{ time := s.gang.now + dt, iss := s.gang.now, own := true, act := a }]) ∧
  (∀ (s : State) (dt : Nat) (a : Act) (l m : List Pend), s.core.pend = l ++ m → (∀ p ∈ l, p.iss < s.gang.now ∨ p.own = false) → (∀ p ∈ m, p.iss = s.gang.now ∧ p.own = true) →
    (∀ p ∈ l, p.iss ≤ s.gang.now) →
    (s.later dt false a).core.pend = l ++ { time := s.gang.now + dt, iss := s.gang.now, own := false, act := a } :: m)

/-- A queued register write changes its register and nothing else when it performs: a write to `p0` nothing, a write to mask register 0 nothing, a vector write the lanes that its mask
enables; no byte of memory changes, and the other registers read as before (10 R233, R234; 12 R275). -/
def Obligations.PerformedWritesFrame : Prop :=
  ∀ (s : State) (p : Pend),
    (∀ i v, p.act = .c i v → ∀ j, (s.doWrite p).getC j = if j = i then v else s.getC j) ∧
    (∀ i v, p.act = .a i v → ∀ j, (s.doWrite p).getA j = if j = i then v else s.getA j) ∧
    (∀ i b, p.act = .p i b → ∀ j, (s.doWrite p).getP j = if j = i ∧ i ≠ 0 then b else s.getP j) ∧
    (∀ i v, p.act = .mp i v → ∀ j, (s.doWrite p).getMp j = if j = i then v else s.getMp j) ∧
    (∀ i v, p.act = .xp i v → ∀ j, (s.doWrite p).getXp j = if j = i then v else s.getXp j) ∧
    (∀ u i v, p.act = .b u i v → ∀ w j, (s.doWrite p).getB w j = if w = u ∧ j = i then v else s.getB w j) ∧
    (∀ u i x m, p.act = .v u i x m → ∀ w j k, k < 64 →
      ((s.doWrite p).getV w j).lane k = if w = u ∧ j = i ∧ m.getLsbD k = true then x.lane k else (s.getV w j).lane k) ∧
    (∀ u i x m, p.act = .m u i x m → ∀ w j k, k < 64 →
      ((s.doWrite p).getM w j).getLsbD k = if w = u ∧ j = i ∧ i ≠ 0 ∧ m.getLsbD k = true then x.getLsbD k else (s.getM w j).getLsbD k) ∧
    ((∃ i v, p.act = .c i v) ∨ (∃ i v, p.act = .mp i v) ∨ (∃ i v, p.act = .xp i v) ∨ (∃ i v, p.act = .a i v) ∨ (∃ i b, p.act = .p i b) ∨ (∃ u i v, p.act = .b u i v) ∨
      (∃ u i x m, p.act = .v u i x m) ∨ (∃ u i x m, p.act = .e u i x m) ∨ (∃ u i x m, p.act = .m u i x m) →
      (s.doWrite p).mem = s.mem ∧ (s.doWrite p).clu = s.clu ∧ (s.doWrite p).clus = s.clus ∧ (s.doWrite p).gang = s.gang ∧ (s.doWrite p).core.pend = s.core.pend ∧
        (s.doWrite p).core.aflags = s.core.aflags ∧ (s.doWrite p).core.fb = s.core.fb ∧ (s.doWrite p).core.ports = s.core.ports ∧ (s.doWrite p).core.mxu = s.core.mxu ∧
        (s.doWrite p).core.rote = s.core.rote ∧ (s.doWrite p).core.rotc = s.core.rotc)

/-- A bundle that traps has no effect (10 R240): whichever operation traps, after the others of its bundle have gone through, the issue of the bundle gives only the trap and not what they
did; and taking a trap leaves the core's registers, ports, loop stack and program counter, the tiles, the memory and the other cores as they were. The record names class, cause, slot,
place and frame cycle; for a class that 17 R395 answers with a context fault, the context faults and its gang stops (17 R398, R401), and for `TRAP` and `BRK` the group stops (17 R397);
a firmware core ends its routine (18 R421). -/
def Obligations.TrapsHaveNoEffect : Prop :=
  (∀ (s : State) (sl : Slot) (cls cause addr aux : Nat), s.die < 5 → 1 ≤ cls → cls ≤ 18 → cls ≠ 14 →
    let t := s.trap sl cls cause addr aux
    SameRegs s.core t.core ∧ t.core.ports = s.core.ports ∧ t.core.pend = s.core.pend ∧ t.core.loops = s.core.loops ∧ t.core.seg = s.core.seg ∧
    t.core.ent = s.core.ent ∧ t.core.due = s.core.due ∧ t.clu = s.clu ∧ t.clus = s.clus ∧ t.cores = s.cores ∧ t.mem = s.mem ∧
    (∃ r : TrapRec, t.traps = s.traps ++ [r] ∧ r.who = s.core.id ∧ r.info.cls = cls ∧ r.info.cause = cause ∧ r.info.slots = slotBit sl) ∧
    (∃ (r : FaultRec) (h : s.die < 5), (t.pkg.faults[s.die]).getLast? = some r ∧ r.cls = BitVec.ofNat 16 cls ∧ r.cause = BitVec.ofNat 8 cause ∧ r.aux = BitVec.ofNat 32 aux ∧
      r.addr = BitVec.ofNat 64 addr ∧ r.slots = BitVec.ofNat 8 (slotBit sl) ∧ r.sfc = s.gang.sfc ∧ r.segment = BitVec.ofNat 32 s.core.seg ∧ r.entry = BitVec.ofNat 11 s.core.ent ∧
      r.fwc = s.isFw ∧ r.disp = (if s.isFw then 3 else if cls = 17 ∨ cls = 18 then 0 else 1)) ∧
    (s.isFw = true → t.core.run = .idle ∧ t.gang = s.gang) ∧
    (s.isFw = false → t.core = s.core) ∧
    (s.isFw = false → cls ≠ 17 → cls ≠ 18 → s.gang.alive = true → t.gang.run = .faulted ∧ ∀ c ∈ t.pkg.ctxs, c.id = s.gang.ctx → c.faulted = true) ∧
    (s.isFw = false → cls = 17 ∨ cls = 18 → t.gang.run = .stopped ∧ t.pkg.ctxs = s.pkg.ctxs)) ∧
  (∀ (s u : State) (e : Entry) (b : Bundle) (before after : List Instr) (i : Instr) (sl : Slot) (cls cause addr aux : Nat), s.entry? = some e → s.preTrap e = none →
    s.bundleOf e = some b → s.signTrap b.slots = none → s.active b.slots = before ++ i :: after → issueSlots before s = .done u → exec i u = .next (u.trap sl cls cause addr aux) →
      let x : TrapRec := { who := u.core.id, info := { cls := cls, cause := cause, slots := slotBit sl, addr := addr, aux := aux } }
      s.issueBundle = .trap x ∧
      ∀ (r : Nat) (l : List Nat), s.rank = r → e.ready ≤ s.gang.now → issueAll (r :: l) s = ((issueAll l s).1, x :: (issueAll l s).2.1, (issueAll l s).2.2))

/-- `STAMP` (09 R209): an entry due whose stamp differs from SFC[11:0] takes DESYNC in either mode, and its bundle has no effect. -/
def Obligations.StampsAreChecked : Prop :=
  ∀ (s : State) (e : Entry) (n : BitVec 12) (r : Nat) (l : List Nat), s.rank = r → s.core.cur.entries[s.core.ent]? = some e → e.stamp = some n → n ≠ s.gang.sfc.setWidth 12 →
    ∃ x : TrapRec, x.who = s.core.id ∧ x.info.cls = 3 ∧ s.issueBundle = .trap x ∧
      (e.ready ≤ s.gang.now → issueAll (r :: l) s = ((issueAll l s).1, x :: (issueAll l s).2.1, (issueAll l s).2.2))

/-- Every step from a state whose global memory is in canonical form leads to one whose memory is: addresses rise and no entry is a byte that an unlisted address reads as. -/
def Obligations.StepKeepsMemory : Prop :=
  ∀ s t : State, memWf s → step s = .next t → memWf t
end

