-- ==== Sys2Proof/Laws/Memory.lean ====
section
/-! SUPPORT. What the operations on byte lists do: every operation keeps the canonical form, and reads after writes. -/

namespace Sys2Proof.Machine

/-! ### One byte -/

theorem Memory.wfFrom_mono {lo lo' : Nat} (h : lo' ≤ lo) : ∀ {m : Memory}, Memory.wfFrom lo m = true → Memory.wfFrom lo' m = true
  | [], _ => rfl
  | (a, b) :: m, hm => by
    simp only [Memory.wfFrom, Bool.and_eq_true, decide_eq_true_eq] at hm ⊢
    exact ⟨⟨Nat.le_trans h hm.1.1, hm.1.2⟩, hm.2⟩

/-- Below the first address that a canonical list may name, every address reads as unlisted. -/
theorem Memory.get_of_lt {lo : Nat} : ∀ {m : Memory} {a : Nat}, Memory.wfFrom lo m = true → a < lo → m.get a = Memory.blank
  | [], _, _, _ => rfl
  | (k, b) :: m, a, hm, ha => by
    simp only [Memory.wfFrom, Bool.and_eq_true, decide_eq_true_eq] at hm
    have h1 : a ≠ k := by omega
    have h2 : a < k := by omega
    simp [Memory.get, h1, h2]

theorem Memory.wfFrom_set {lo a : Nat} {x : Byte} (ha : lo ≤ a) : ∀ {m : Memory}, Memory.wfFrom lo m = true → Memory.wfFrom lo (m.set a x) = true
  | [], _ => by
    unfold Memory.set; split
    · rfl
    · next h => simp [Memory.wfFrom, ha, h]
  | (k, b) :: m, hm => by
    have hm' := hm
    simp only [Memory.wfFrom, Bool.and_eq_true, decide_eq_true_eq] at hm
    unfold Memory.set; split
    · next hk =>
      split
      · exact hm'
      · next hx =>
        simp only [Memory.wfFrom, Bool.and_eq_true, decide_eq_true_eq]
        exact ⟨⟨ha, by simpa using hx⟩, ⟨by omega, hm.1.2⟩, hm.2⟩
    · split
      · next hk =>
        split
        · exact Memory.wfFrom_mono (by omega) hm.2
        · next hx =>
          simp only [Memory.wfFrom, Bool.and_eq_true, decide_eq_true_eq]
          exact ⟨⟨hm.1.1, by simpa using hx⟩, hm.2⟩
      · next hlt hne =>
        simp only [Memory.wfFrom, Bool.and_eq_true, decide_eq_true_eq]
        exact ⟨hm.1, Memory.wfFrom_set (by omega) hm.2⟩

/-- A write keeps the canonical form. -/
theorem Memory.wf_set {m : Memory} (a : Nat) (x : Byte) (h : m.wf = true) : (m.set a x).wf = true := Memory.wfFrom_set (Nat.zero_le a) h

theorem Memory.get_set_from {lo : Nat} (x : Byte) : ∀ {m : Memory} (a k : Nat), Memory.wfFrom lo m = true →
    (m.set a x).get k = if k = a then x else m.get k
  | [], a, k, _ => by
    unfold Memory.set; split
    · next h => subst h; simp [Memory.get]
    · by_cases hk : k = a <;> simp [Memory.get, hk]
  | (j, b) :: m, a, k, hm => by
    have hm' := hm
    simp only [Memory.wfFrom, Bool.and_eq_true, decide_eq_true_eq] at hm
    unfold Memory.set; split
    · next hj =>
      split
      · next hx =>
        subst hx
        by_cases hk : k = a
        · subst hk
          have : k ≠ j := by omega
          simp [Memory.get, this, hj]
        · simp [hk]
      · by_cases hk : k = a
        · simp [Memory.get, hk]
        · by_cases hlt : k < a
          · have h1 : k ≠ j := by omega
            have h2 : k < j := by omega
            simp [Memory.get, hk, hlt, h1, h2]
          · simp [Memory.get, hk, hlt]
    · split
      · next hj =>
        subst hj
        split
        · next hx =>
          subst hx
          by_cases hk : k = a
          · subst hk; simp [Memory.get_of_lt hm.2 (Nat.lt_succ_self _)]
          · by_cases hlt : k < a
            · simp [Memory.get, hk, hlt, Memory.get_of_lt hm.2 (Nat.lt_succ_of_lt hlt)]
            · simp [Memory.get, hk, hlt]
        · by_cases hk : k = a <;> simp [Memory.get, hk]
      · next hlt hne =>
        have ih := Memory.get_set_from x a k hm.2
        by_cases hk : k = j
        · subst hk
          have : k ≠ a := by omega
          simp [Memory.get, this]
        · by_cases hlt2 : k < j
          · have : k ≠ a := by omega
            simp [Memory.get, hk, hlt2, this]
          · simp only [Memory.get, hk, hlt2, if_false, ih]

/-- A read after a write: the byte written, or what stood there. -/
theorem Memory.get_set {m : Memory} (h : m.wf = true) (a k : Nat) (x : Byte) : (m.set a x).get k = if k = a then x else m.get k :=
  Memory.get_set_from x a k h

/-- A memory that lists nothing reads as unlisted everywhere and is canonical. -/
@[simp] theorem Memory.get_nil (a : Nat) : Memory.get [] a = Memory.blank := rfl
@[simp] theorem Memory.wf_nil : Memory.wf [] = true := rfl

/-! ### Several bytes -/

theorem Memory.wf_write : ∀ (l : List Byte) {m : Memory} (a : Nat), m.wf = true → (m.write a l).wf = true
  | [], _, _, h => h
  | b :: l, _, a, h => Memory.wf_write l (a + 1) (Memory.wf_set a b h)

theorem Memory.wf_store : ∀ (l : List Host.Cell) {m : Memory}, m.wf = true → (m.store l).wf = true
  | [], _, h => h
  | c :: l, _, h => Memory.wf_store l (Memory.wf_set c.1 c.2 h)

/-- Bytes written in a row: each byte of the row reads as written, every other as before. -/
theorem Memory.get_write : ∀ (l : List Byte) {m : Memory} (a k : Nat), m.wf = true →
    (m.write a l).get k = if a ≤ k ∧ k < a + l.length then l.getD (k - a) Memory.blank else m.get k
  | [], m, a, k, _ => by
    have : ¬(a ≤ k ∧ k < a) := by omega
    simp [Memory.write, this]
  | b :: l, m, a, k, h => by
    rw [Memory.write, Memory.get_write l (a + 1) k (Memory.wf_set a b h), Memory.get_set h]
    by_cases h1 : k = a
    · subst h1
      have : ¬(k + 1 ≤ k ∧ k < k + 1 + l.length) := by omega
      simp
    · by_cases h2 : a + 1 ≤ k ∧ k < a + 1 + l.length
      · have h3 : a ≤ k ∧ k < a + (b :: l).length := by simp; omega
        have h4 : k - a = (k - (a + 1)) + 1 := by omega
        rw [if_pos h2, if_pos h3, h4]; rfl
      · have h3 : ¬(a ≤ k ∧ k < a + (b :: l).length) := by simp; omega
        rw [if_neg h2, if_neg h1, if_neg h3]

/-- Cells stored: the last cell that names an address gives its byte. -/
theorem Memory.get_store : ∀ (l : List Host.Cell) {m : Memory} (k : Nat), m.wf = true →
    (m.store l).get k = match l.reverse.find? (fun c => c.1 == k) with | some c => c.2 | none => m.get k
  | [], _, _, _ => rfl
  | c :: l, m, k, h => by
    have ih := Memory.get_store l k (Memory.wf_set c.1 c.2 h)
    have hs : m.store (c :: l) = (m.set c.1 c.2).store l := rfl
    rw [hs, ih, List.reverse_cons, List.find?_append, Memory.get_set h]
    cases hf : l.reverse.find? (fun c => c.1 == k) with
    | some d => simp
    | none =>
      by_cases hk : k = c.1
      · simp [hk]
      · have : (c.1 == k) = false := by simpa using fun e => hk e.symm
        simp [hk, this]

/-- The field of bits replaced: the canonical form is kept. -/
theorem Memory.wf_setField {m : Memory} (o n v : Nat) (h : m.wf = true) : (m.setField o n v).wf = true := Memory.wf_write _ _ h

end Sys2Proof.Machine
end

