-- ==== Sys2Proof/Laws/Mem.lean ====
section
/-! SUPPORT. What the shared operations of global memory do (06 R123-R131): which bytes they leave as they were, and that they keep the
canonical form. -/

namespace Sys2Proof.Machine

/-! ### Settling -/

/-- Write event `e` is one that die `d` sees (or coherence order, without a die), and holds byte `a`. -/
def WEv.sees (d : Option Nat) (a : Nat) (e : WEv) : Bool :=
  (match d with | some d => e.delivered.contains d | none => true) && e.cells.any (fun c => c.1 == a)
/-- The byte at `a` of a write event, if there is one, else of the memory. -/
def pickByte (o : Option WEv) (b : Memory) (a : Nat) : Byte :=
  match o with
  | some e => ((e.cells.find? (fun c => c.1 == a)).map (·.2)).getD Memory.blank
  | none => b.get a

/-- The byte that a log of writes over a memory gives, to die `d` or in coherence order: that of the newest event seen; in another package a free value. -/
theorem MemSys.byteAt_eq (m : MemSys) (d : Option Nat) (a : Nat) :
    m.byteAt d a = if isFar a then Config.farByte m.farDraw a else pickByte (m.wlog.reverse.find? (WEv.sees d a)) m.bytes a := rfl

/-- Only the bytes and the log matter to a read, and, in another package, the number of the turn. -/
theorem MemSys.byteAt_congr {m n : MemSys} (hb : m.bytes = n.bytes) (hl : m.wlog = n.wlog) (hf : m.farDraw = n.farDraw) (d : Option Nat) (a : Nat) :
    m.byteAt d a = n.byteAt d a := by
  rw [MemSys.byteAt_eq, MemSys.byteAt_eq, hb, hl, hf]

/-- Merging the writes that every die has keeps the canonical form. -/
theorem MemSys.settleLog_wf : ∀ (l : List WEv) (b : Memory), b.wf = true → (MemSys.settleLog l b).2.wf = true
  | [], _, h => h
  | e :: l, b, h => by
    unfold MemSys.settleLog; split
    · exact MemSys.settleLog_wf l _ (Memory.wf_store _ h)
    · exact h

/-- Merging one event that every die has leaves what a read picks. -/
theorem pickByte_store {e : WEv} {d : Option Nat} {b : Memory} {a : Nat} (h : b.wf = true)
    (hd : (match d with | some d => e.delivered.contains d | none => true) = true) :
    pickByte none (b.store e.cells.reverse) a = pickByte ([e].find? (WEv.sees d a)) b a := by
  have hs : WEv.sees d a e = e.cells.any (fun c => c.1 == a) := by unfold WEv.sees; rw [hd, Bool.true_and]
  unfold pickByte
  rw [Memory.get_store _ _ h, List.reverse_reverse, List.find?_cons, hs]
  cases hc : e.cells.find? (fun c => c.1 == a) with
  | some c =>
    have : e.cells.any (fun c => c.1 == a) = true :=
      List.any_eq_true.mpr ⟨c, List.mem_of_find?_eq_some hc, by simpa using List.find?_some hc⟩
    simp [this, hc]
  | none =>
    have : e.cells.any (fun c => c.1 == a) = false := by
      rw [List.any_eq_false]; intro c hm; simpa using List.find?_eq_none.mp hc c hm
    simp [this]

/-- Merging the writes that every die has changes no byte that a die reads, nor one in coherence order. -/
theorem MemSys.settleLog_reads (d : Option Nat) (hd : ∀ k, d = some k → k < 5) (a : Nat) : ∀ (l : List WEv) (b : Memory), b.wf = true →
    pickByte ((MemSys.settleLog l b).1.reverse.find? (WEv.sees d a)) (MemSys.settleLog l b).2 a
      = pickByte (l.reverse.find? (WEv.sees d a)) b a
  | [], _, _ => rfl
  | e :: l, b, h => by
    unfold MemSys.settleLog; split
    · next hall =>
      rw [MemSys.settleLog_reads d hd a l _ (Memory.wf_store _ h), List.reverse_cons, List.find?_append]
      cases hf : l.reverse.find? (WEv.sees d a) with
      | some x => rfl
      | none =>
        refine pickByte_store (d := d) h ?_
        cases d with
        | none => rfl
        | some k =>
          have hk := hd k rfl
          exact List.all_eq_true.mp hall k (by simp; omega)
    · rfl

/-- Settling keeps the canonical form and changes no byte that a die reads, nor one in coherence order. -/
theorem MemSys.settle_wf {m : MemSys} (h : m.bytes.wf = true) : m.settle.bytes.wf = true := MemSys.settleLog_wf _ _ h
theorem MemSys.settle_byteAt {m : MemSys} (h : m.bytes.wf = true) (d : Option Nat) (hd : ∀ k, d = some k → k < 5) (a : Nat) :
    m.settle.byteAt d a = m.byteAt d a := by
  have key := MemSys.settleLog_reads d hd a m.wlog m.bytes h
  rw [MemSys.byteAt_eq, MemSys.byteAt_eq]
  show (if isFar a then Config.farByte m.farDraw a else _) = _
  split
  · rfl
  · exact key
@[simp] theorem MemSys.settle_farDraw (m : MemSys) : m.settle.farDraw = m.farDraw := rfl
@[simp] theorem MemSys.settle_packets (m : MemSys) : m.settle.packets = m.packets := rfl
@[simp] theorem MemSys.settle_wq (m : MemSys) : m.settle.wq = m.wq := rfl
@[simp] theorem MemSys.settle_rq (m : MemSys) : m.settle.rq = m.rq := rfl
@[simp] theorem MemSys.settle_ops (m : MemSys) : m.settle.ops = m.ops := rfl
@[simp] theorem MemSys.settle_reps (m : MemSys) : m.settle.reps = m.reps := rfl
@[simp] theorem MemSys.settle_cmds (m : MemSys) : m.settle.cmds = m.cmds := rfl
@[simp] theorem MemSys.settle_undo (m : MemSys) : m.settle.undo = m.undo := rfl
@[simp] theorem MemSys.settle_poison (m : MemSys) : m.settle.poison = m.poison := rfl

/-! ### Issuing accesses and their events -/

@[simp] theorem State.addWrite_bytes (s : State) (acc : Nat) (src : WSrc) (line : Nat) (lg : Bool) (home : Nat) :
    (s.addWrite acc src line lg home).mem.bytes = s.mem.bytes := rfl
@[simp] theorem State.addWrite_wlog (s : State) (acc : Nat) (src : WSrc) (line : Nat) (lg : Bool) (home : Nat) :
    (s.addWrite acc src line lg home).mem.wlog = s.mem.wlog := rfl
@[simp] theorem State.addWrite_core (s : State) (acc : Nat) (src : WSrc) (line : Nat) (lg : Bool) (home : Nat) :
    (s.addWrite acc src line lg home).core = s.core := rfl
@[simp] theorem State.addWrite_wq (s : State) (acc : Nat) (src : WSrc) (line : Nat) (lg : Bool) (home : Nat) :
    (s.addWrite acc src line lg home).mem.wq =
      s.mem.wq ++ [{ id := s.mem.nextId, acc := acc, src := src, line := line, logged := lg, home := home, delivered := [] }] := rfl
@[simp] theorem State.addRead_bytes (s : State) (acc addr n : Nat) (d : RDst) : (s.addRead acc addr n d).mem.bytes = s.mem.bytes := rfl
@[simp] theorem State.addRead_wlog (s : State) (acc addr n : Nat) (d : RDst) : (s.addRead acc addr n d).mem.wlog = s.mem.wlog := rfl
@[simp] theorem State.addRead_core (s : State) (acc addr n : Nat) (d : RDst) : (s.addRead acc addr n d).core = s.core := rfl
@[simp] theorem State.addRead_rq (s : State) (acc addr n : Nat) (d : RDst) :
    (s.addRead acc addr n d).mem.rq = s.mem.rq ++ [{ id := s.mem.nextId, acc := acc, addr := addr, n := n, dst := d, val := none }] := rfl

/-- A new access takes the next number, is listed with its predecessors, and changes neither a byte nor a core. -/
theorem State.newAccess_spec (s : State) (who : Who) (die : Nat) (st : BitVec 4) (preds : List Nat) (done : Bool) :
    (s.newAccess who die st preds done).1 = s.mem.nextId ∧
    (let t := (s.newAccess who die st preds done).2
     t.mem.nextId = s.mem.nextId + 1 ∧ t.mem.bytes = s.mem.bytes ∧ t.mem.wlog = s.mem.wlog ∧ t.mem.wq = s.mem.wq ∧ t.mem.rq = s.mem.rq ∧
     t.core = s.core ∧ t.clu = s.clu ∧ t.gang = s.gang ∧ t.cores = s.cores ∧ t.clus = s.clus ∧
     ∃ a ∈ t.mem.accs, a.id = s.mem.nextId ∧ a.preds = preds ∧ a.who = who ∧ a.die = die ∧ a.stream = st ∧ a.done = done) :=
  ⟨rfl, rfl, rfl, rfl, rfl, rfl, rfl, rfl, rfl, rfl, rfl, _, List.mem_append_right _ (List.mem_singleton.mpr rfl), rfl, rfl, rfl, rfl, rfl, rfl⟩

end Sys2Proof.Machine
end

