-- ==== Sys2Proof/Laws/State.lean ====
section
/-! SUPPORT. One lemma per field and update: what each plain update of the state and of a core writes, and that it leaves the rest. -/

namespace Sys2Proof.Machine

/-! ### Updates of the state -/

section setCore
variable (s : State) (c : Core)
@[simp] theorem State.setCore_core : (s.setCore c).core = c := rfl
@[simp] theorem State.setCore_clu : (s.setCore c).clu = s.clu := rfl
@[simp] theorem State.setCore_gang : (s.setCore c).gang = s.gang := rfl
@[simp] theorem State.setCore_cores : (s.setCore c).cores = s.cores := rfl
@[simp] theorem State.setCore_clus : (s.setCore c).clus = s.clus := rfl
@[simp] theorem State.setCore_gangs : (s.setCore c).gangs = s.gangs := rfl
@[simp] theorem State.setCore_mem : (s.setCore c).mem = s.mem := rfl
@[simp] theorem State.setCore_dom : (s.setCore c).dom = s.dom := rfl
@[simp] theorem State.setCore_disp : (s.setCore c).disp = s.disp := rfl
@[simp] theorem State.setCore_host : (s.setCore c).host = s.host := rfl
@[simp] theorem State.setCore_fw : (s.setCore c).fw = s.fw := rfl
@[simp] theorem State.setCore_pkg : (s.setCore c).pkg = s.pkg := rfl
@[simp] theorem State.setCore_traps : (s.setCore c).traps = s.traps := rfl
@[simp] theorem State.setCore_agenda : (s.setCore c).agenda = s.agenda := rfl
@[simp] theorem State.setCore_draw : (s.setCore c).draw = s.draw := rfl
end setCore

section setClu
variable (s : State) (c : Cluster)
@[simp] theorem State.setClu_core : (s.setClu c).core = s.core := rfl
@[simp] theorem State.setClu_clu : (s.setClu c).clu = c := rfl
@[simp] theorem State.setClu_gang : (s.setClu c).gang = s.gang := rfl
@[simp] theorem State.setClu_cores : (s.setClu c).cores = s.cores := rfl
@[simp] theorem State.setClu_clus : (s.setClu c).clus = s.clus := rfl
@[simp] theorem State.setClu_gangs : (s.setClu c).gangs = s.gangs := rfl
@[simp] theorem State.setClu_mem : (s.setClu c).mem = s.mem := rfl
@[simp] theorem State.setClu_dom : (s.setClu c).dom = s.dom := rfl
@[simp] theorem State.setClu_disp : (s.setClu c).disp = s.disp := rfl
@[simp] theorem State.setClu_host : (s.setClu c).host = s.host := rfl
@[simp] theorem State.setClu_fw : (s.setClu c).fw = s.fw := rfl
@[simp] theorem State.setClu_pkg : (s.setClu c).pkg = s.pkg := rfl
@[simp] theorem State.setClu_traps : (s.setClu c).traps = s.traps := rfl
@[simp] theorem State.setClu_agenda : (s.setClu c).agenda = s.agenda := rfl
@[simp] theorem State.setClu_draw : (s.setClu c).draw = s.draw := rfl
end setClu

section setGang
variable (s : State) (g : Gang)
@[simp] theorem State.setGang_core : (s.setGang g).core = s.core := rfl
@[simp] theorem State.setGang_clu : (s.setGang g).clu = s.clu := rfl
@[simp] theorem State.setGang_gang : (s.setGang g).gang = g := rfl
@[simp] theorem State.setGang_cores : (s.setGang g).cores = s.cores := rfl
@[simp] theorem State.setGang_clus : (s.setGang g).clus = s.clus := rfl
@[simp] theorem State.setGang_gangs : (s.setGang g).gangs = s.gangs := rfl
@[simp] theorem State.setGang_mem : (s.setGang g).mem = s.mem := rfl
@[simp] theorem State.setGang_dom : (s.setGang g).dom = s.dom := rfl
@[simp] theorem State.setGang_disp : (s.setGang g).disp = s.disp := rfl
@[simp] theorem State.setGang_host : (s.setGang g).host = s.host := rfl
@[simp] theorem State.setGang_fw : (s.setGang g).fw = s.fw := rfl
@[simp] theorem State.setGang_pkg : (s.setGang g).pkg = s.pkg := rfl
@[simp] theorem State.setGang_traps : (s.setGang g).traps = s.traps := rfl
@[simp] theorem State.setGang_agenda : (s.setGang g).agenda = s.agenda := rfl
@[simp] theorem State.setGang_draw : (s.setGang g).draw = s.draw := rfl
end setGang

section setBox
variable (s : State) (b : GangBox)
@[simp] theorem State.setBox_core : (s.setBox b).core = b.core := rfl
@[simp] theorem State.setBox_clu : (s.setBox b).clu = b.clu := rfl
@[simp] theorem State.setBox_gang : (s.setBox b).gang = b.gang := rfl
@[simp] theorem State.setBox_cores : (s.setBox b).cores = b.cores := rfl
@[simp] theorem State.setBox_clus : (s.setBox b).clus = b.clus := rfl
@[simp] theorem State.setBox_gangs : (s.setBox b).gangs = s.gangs := rfl
@[simp] theorem State.setBox_mem : (s.setBox b).mem = s.mem := rfl
@[simp] theorem State.setBox_dom : (s.setBox b).dom = s.dom := rfl
@[simp] theorem State.setBox_disp : (s.setBox b).disp = s.disp := rfl
@[simp] theorem State.setBox_host : (s.setBox b).host = s.host := rfl
@[simp] theorem State.setBox_fw : (s.setBox b).fw = s.fw := rfl
@[simp] theorem State.setBox_pkg : (s.setBox b).pkg = s.pkg := rfl
@[simp] theorem State.setBox_traps : (s.setBox b).traps = s.traps := rfl
@[simp] theorem State.setBox_agenda : (s.setBox b).agenda = s.agenda := rfl
@[simp] theorem State.setBox_draw : (s.setBox b).draw = s.draw := rfl
end setBox

section setMxu
variable (s : State) (m : Mxu)
@[simp] theorem State.setMxu_core : (s.setMxu m).core = { s.core with mxu := m } := rfl
@[simp] theorem State.setMxu_clu : (s.setMxu m).clu = s.clu := rfl
@[simp] theorem State.setMxu_gang : (s.setMxu m).gang = s.gang := rfl
@[simp] theorem State.setMxu_cores : (s.setMxu m).cores = s.cores := rfl
@[simp] theorem State.setMxu_clus : (s.setMxu m).clus = s.clus := rfl
@[simp] theorem State.setMxu_gangs : (s.setMxu m).gangs = s.gangs := rfl
@[simp] theorem State.setMxu_mem : (s.setMxu m).mem = s.mem := rfl
@[simp] theorem State.setMxu_dom : (s.setMxu m).dom = s.dom := rfl
@[simp] theorem State.setMxu_disp : (s.setMxu m).disp = s.disp := rfl
@[simp] theorem State.setMxu_host : (s.setMxu m).host = s.host := rfl
@[simp] theorem State.setMxu_fw : (s.setMxu m).fw = s.fw := rfl
@[simp] theorem State.setMxu_pkg : (s.setMxu m).pkg = s.pkg := rfl
@[simp] theorem State.setMxu_traps : (s.setMxu m).traps = s.traps := rfl
@[simp] theorem State.setMxu_agenda : (s.setMxu m).agenda = s.agenda := rfl
@[simp] theorem State.setMxu_draw : (s.setMxu m).draw = s.draw := rfl
end setMxu

section holdBundle
variable (s : State) 
@[simp] theorem State.holdBundle_core : (s.holdBundle).core = { s.core with hold := true } := rfl
@[simp] theorem State.holdBundle_clu : (s.holdBundle).clu = s.clu := rfl
@[simp] theorem State.holdBundle_gang : (s.holdBundle).gang = s.gang := rfl
@[simp] theorem State.holdBundle_cores : (s.holdBundle).cores = s.cores := rfl
@[simp] theorem State.holdBundle_clus : (s.holdBundle).clus = s.clus := rfl
@[simp] theorem State.holdBundle_gangs : (s.holdBundle).gangs = s.gangs := rfl
@[simp] theorem State.holdBundle_mem : (s.holdBundle).mem = s.mem := rfl
@[simp] theorem State.holdBundle_dom : (s.holdBundle).dom = s.dom := rfl
@[simp] theorem State.holdBundle_disp : (s.holdBundle).disp = s.disp := rfl
@[simp] theorem State.holdBundle_host : (s.holdBundle).host = s.host := rfl
@[simp] theorem State.holdBundle_fw : (s.holdBundle).fw = s.fw := rfl
@[simp] theorem State.holdBundle_pkg : (s.holdBundle).pkg = s.pkg := rfl
@[simp] theorem State.holdBundle_traps : (s.holdBundle).traps = s.traps := rfl
@[simp] theorem State.holdBundle_agenda : (s.holdBundle).agenda = s.agenda := rfl
@[simp] theorem State.holdBundle_draw : (s.holdBundle).draw = s.draw := rfl
end holdBundle

section later
variable (s : State) (dt : Nat) (own : Bool) (a : Act)
@[simp] theorem State.later_clu : (s.later dt own a).clu = s.clu := rfl
@[simp] theorem State.later_gang : (s.later dt own a).gang = s.gang := rfl
@[simp] theorem State.later_cores : (s.later dt own a).cores = s.cores := rfl
@[simp] theorem State.later_clus : (s.later dt own a).clus = s.clus := rfl
@[simp] theorem State.later_gangs : (s.later dt own a).gangs = s.gangs := rfl
@[simp] theorem State.later_mem : (s.later dt own a).mem = s.mem := rfl
@[simp] theorem State.later_dom : (s.later dt own a).dom = s.dom := rfl
@[simp] theorem State.later_disp : (s.later dt own a).disp = s.disp := rfl
@[simp] theorem State.later_host : (s.later dt own a).host = s.host := rfl
@[simp] theorem State.later_fw : (s.later dt own a).fw = s.fw := rfl
@[simp] theorem State.later_pkg : (s.later dt own a).pkg = s.pkg := rfl
@[simp] theorem State.later_traps : (s.later dt own a).traps = s.traps := rfl
@[simp] theorem State.later_agenda : (s.later dt own a).agenda = s.agenda := rfl
@[simp] theorem State.later_draw : (s.later dt own a).draw = s.draw := rfl
end later

section flagLater
variable (s : State) (dt : Nat) (f : Fl)
@[simp] theorem State.flagLater_clu : (s.flagLater dt f).clu = s.clu := by unfold State.flagLater; split <;> rfl
@[simp] theorem State.flagLater_gang : (s.flagLater dt f).gang = s.gang := by unfold State.flagLater; split <;> rfl
@[simp] theorem State.flagLater_cores : (s.flagLater dt f).cores = s.cores := by unfold State.flagLater; split <;> rfl
@[simp] theorem State.flagLater_clus : (s.flagLater dt f).clus = s.clus := by unfold State.flagLater; split <;> rfl
@[simp] theorem State.flagLater_gangs : (s.flagLater dt f).gangs = s.gangs := by unfold State.flagLater; split <;> rfl
@[simp] theorem State.flagLater_mem : (s.flagLater dt f).mem = s.mem := by unfold State.flagLater; split <;> rfl
@[simp] theorem State.flagLater_dom : (s.flagLater dt f).dom = s.dom := by unfold State.flagLater; split <;> rfl
@[simp] theorem State.flagLater_disp : (s.flagLater dt f).disp = s.disp := by unfold State.flagLater; split <;> rfl
@[simp] theorem State.flagLater_host : (s.flagLater dt f).host = s.host := by unfold State.flagLater; split <;> rfl
@[simp] theorem State.flagLater_fw : (s.flagLater dt f).fw = s.fw := by unfold State.flagLater; split <;> rfl
@[simp] theorem State.flagLater_pkg : (s.flagLater dt f).pkg = s.pkg := by unfold State.flagLater; split <;> rfl
@[simp] theorem State.flagLater_traps : (s.flagLater dt f).traps = s.traps := by unfold State.flagLater; split <;> rfl
@[simp] theorem State.flagLater_agenda : (s.flagLater dt f).agenda = s.agenda := by unfold State.flagLater; split <;> rfl
@[simp] theorem State.flagLater_draw : (s.flagLater dt f).draw = s.draw := by unfold State.flagLater; split <;> rfl
end flagLater

section charge
variable (s : State) (dt : Nat) (wr : Bool) (c : Cap) (w : Nat)
@[simp] theorem State.charge_core : (s.charge dt wr c w).core = s.core := rfl
@[simp] theorem State.charge_gang : (s.charge dt wr c w).gang = s.gang := rfl
@[simp] theorem State.charge_cores : (s.charge dt wr c w).cores = s.cores := rfl
@[simp] theorem State.charge_clus : (s.charge dt wr c w).clus = s.clus := rfl
@[simp] theorem State.charge_gangs : (s.charge dt wr c w).gangs = s.gangs := rfl
@[simp] theorem State.charge_mem : (s.charge dt wr c w).mem = s.mem := rfl
@[simp] theorem State.charge_dom : (s.charge dt wr c w).dom = s.dom := rfl
@[simp] theorem State.charge_disp : (s.charge dt wr c w).disp = s.disp := rfl
@[simp] theorem State.charge_host : (s.charge dt wr c w).host = s.host := rfl
@[simp] theorem State.charge_fw : (s.charge dt wr c w).fw = s.fw := rfl
@[simp] theorem State.charge_pkg : (s.charge dt wr c w).pkg = s.pkg := rfl
@[simp] theorem State.charge_traps : (s.charge dt wr c w).traps = s.traps := rfl
@[simp] theorem State.charge_agenda : (s.charge dt wr c w).agenda = s.agenda := rfl
@[simp] theorem State.charge_draw : (s.charge dt wr c w).draw = s.draw := rfl
end charge

section mapGangs
variable (s : State) (f : Gang → Gang)
@[simp] theorem State.mapGangs_core : (s.mapGangs f).core = s.core := rfl
@[simp] theorem State.mapGangs_clu : (s.mapGangs f).clu = s.clu := rfl
@[simp] theorem State.mapGangs_gang : (s.mapGangs f).gang = f s.gang := rfl
@[simp] theorem State.mapGangs_cores : (s.mapGangs f).cores = s.cores := rfl
@[simp] theorem State.mapGangs_clus : (s.mapGangs f).clus = s.clus := rfl
@[simp] theorem State.mapGangs_mem : (s.mapGangs f).mem = s.mem := rfl
@[simp] theorem State.mapGangs_dom : (s.mapGangs f).dom = s.dom := rfl
@[simp] theorem State.mapGangs_disp : (s.mapGangs f).disp = s.disp := rfl
@[simp] theorem State.mapGangs_host : (s.mapGangs f).host = s.host := rfl
@[simp] theorem State.mapGangs_fw : (s.mapGangs f).fw = s.fw := rfl
@[simp] theorem State.mapGangs_pkg : (s.mapGangs f).pkg = s.pkg := rfl
@[simp] theorem State.mapGangs_traps : (s.mapGangs f).traps = s.traps := rfl
@[simp] theorem State.mapGangs_agenda : (s.mapGangs f).agenda = s.agenda := rfl
@[simp] theorem State.mapGangs_draw : (s.mapGangs f).draw = s.draw := rfl
end mapGangs

section sendOut
variable (s : State) (o : Out)
@[simp] theorem State.sendOut_core : (s.sendOut o).core = s.core := rfl
@[simp] theorem State.sendOut_clu : (s.sendOut o).clu = s.clu := rfl
@[simp] theorem State.sendOut_gang : (s.sendOut o).gang = s.gang := rfl
@[simp] theorem State.sendOut_cores : (s.sendOut o).cores = s.cores := rfl
@[simp] theorem State.sendOut_clus : (s.sendOut o).clus = s.clus := rfl
@[simp] theorem State.sendOut_gangs : (s.sendOut o).gangs = s.gangs := rfl
@[simp] theorem State.sendOut_mem : (s.sendOut o).mem = s.mem := rfl
@[simp] theorem State.sendOut_dom : (s.sendOut o).dom = s.dom := rfl
@[simp] theorem State.sendOut_disp : (s.sendOut o).disp = s.disp := rfl
@[simp] theorem State.sendOut_fw : (s.sendOut o).fw = s.fw := rfl
@[simp] theorem State.sendOut_pkg : (s.sendOut o).pkg = s.pkg := rfl
@[simp] theorem State.sendOut_traps : (s.sendOut o).traps = s.traps := rfl
@[simp] theorem State.sendOut_agenda : (s.sendOut o).agenda = s.agenda := rfl
@[simp] theorem State.sendOut_draw : (s.sendOut o).draw = s.draw := rfl
end sendOut

section emit
variable (s : State) (acc : Nat) (o : Out)
@[simp] theorem State.emit_core : (s.emit acc o).core = s.core := by unfold State.emit; split <;> rfl
@[simp] theorem State.emit_clu : (s.emit acc o).clu = s.clu := by unfold State.emit; split <;> rfl
@[simp] theorem State.emit_gang : (s.emit acc o).gang = s.gang := by unfold State.emit; split <;> rfl
@[simp] theorem State.emit_cores : (s.emit acc o).cores = s.cores := by unfold State.emit; split <;> rfl
@[simp] theorem State.emit_clus : (s.emit acc o).clus = s.clus := by unfold State.emit; split <;> rfl
@[simp] theorem State.emit_gangs : (s.emit acc o).gangs = s.gangs := by unfold State.emit; split <;> rfl
@[simp] theorem State.emit_mem : (s.emit acc o).mem = s.mem := by unfold State.emit; split <;> rfl
@[simp] theorem State.emit_disp : (s.emit acc o).disp = s.disp := by unfold State.emit; split <;> rfl
@[simp] theorem State.emit_fw : (s.emit acc o).fw = s.fw := by unfold State.emit; split <;> rfl
@[simp] theorem State.emit_pkg : (s.emit acc o).pkg = s.pkg := by unfold State.emit; split <;> rfl
@[simp] theorem State.emit_traps : (s.emit acc o).traps = s.traps := by unfold State.emit; split <;> rfl
@[simp] theorem State.emit_agenda : (s.emit acc o).agenda = s.agenda := by unfold State.emit; split <;> rfl
@[simp] theorem State.emit_draw : (s.emit acc o).draw = s.draw := by unfold State.emit; split <;> rfl
end emit

section setCtx
variable (s : State) (c : Ctx)
@[simp] theorem State.setCtx_core : (s.setCtx c).core = s.core := rfl
@[simp] theorem State.setCtx_clu : (s.setCtx c).clu = s.clu := rfl
@[simp] theorem State.setCtx_gang : (s.setCtx c).gang = s.gang := rfl
@[simp] theorem State.setCtx_cores : (s.setCtx c).cores = s.cores := rfl
@[simp] theorem State.setCtx_clus : (s.setCtx c).clus = s.clus := rfl
@[simp] theorem State.setCtx_gangs : (s.setCtx c).gangs = s.gangs := rfl
@[simp] theorem State.setCtx_mem : (s.setCtx c).mem = s.mem := rfl
@[simp] theorem State.setCtx_dom : (s.setCtx c).dom = s.dom := rfl
@[simp] theorem State.setCtx_disp : (s.setCtx c).disp = s.disp := rfl
@[simp] theorem State.setCtx_host : (s.setCtx c).host = s.host := rfl
@[simp] theorem State.setCtx_fw : (s.setCtx c).fw = s.fw := rfl
@[simp] theorem State.setCtx_traps : (s.setCtx c).traps = s.traps := rfl
@[simp] theorem State.setCtx_agenda : (s.setCtx c).agenda = s.agenda := rfl
@[simp] theorem State.setCtx_draw : (s.setCtx c).draw = s.draw := rfl
end setCtx

section logFault
variable (s : State) (d : Nat) (r : FaultRec)
@[simp] theorem State.logFault_core : (s.logFault d r).core = s.core := by unfold State.logFault; split <;> rfl
@[simp] theorem State.logFault_clu : (s.logFault d r).clu = s.clu := by unfold State.logFault; split <;> rfl
@[simp] theorem State.logFault_gang : (s.logFault d r).gang = s.gang := by unfold State.logFault; split <;> rfl
@[simp] theorem State.logFault_cores : (s.logFault d r).cores = s.cores := by unfold State.logFault; split <;> rfl
@[simp] theorem State.logFault_clus : (s.logFault d r).clus = s.clus := by unfold State.logFault; split <;> rfl
@[simp] theorem State.logFault_gangs : (s.logFault d r).gangs = s.gangs := by unfold State.logFault; split <;> rfl
@[simp] theorem State.logFault_mem : (s.logFault d r).mem = s.mem := by unfold State.logFault; split <;> rfl
@[simp] theorem State.logFault_dom : (s.logFault d r).dom = s.dom := by unfold State.logFault; split <;> rfl
@[simp] theorem State.logFault_disp : (s.logFault d r).disp = s.disp := by unfold State.logFault; split <;> rfl
@[simp] theorem State.logFault_host : (s.logFault d r).host = s.host := by unfold State.logFault; split <;> rfl
@[simp] theorem State.logFault_fw : (s.logFault d r).fw = s.fw := by unfold State.logFault; split <;> rfl
@[simp] theorem State.logFault_traps : (s.logFault d r).traps = s.traps := by unfold State.logFault; split <;> rfl
@[simp] theorem State.logFault_agenda : (s.logFault d r).agenda = s.agenda := by unfold State.logFault; split <;> rfl
@[simp] theorem State.logFault_draw : (s.logFault d r).draw = s.draw := by unfold State.logFault; split <;> rfl
end logFault

section notifyFault
variable (s : State) (r : FaultRec)
@[simp] theorem State.notifyFault_core : (s.notifyFault r).core = s.core := by unfold State.notifyFault; split <;> simp
@[simp] theorem State.notifyFault_clu : (s.notifyFault r).clu = s.clu := by unfold State.notifyFault; split <;> simp
@[simp] theorem State.notifyFault_gang : (s.notifyFault r).gang = s.gang := by unfold State.notifyFault; split <;> simp
@[simp] theorem State.notifyFault_cores : (s.notifyFault r).cores = s.cores := by unfold State.notifyFault; split <;> simp
@[simp] theorem State.notifyFault_clus : (s.notifyFault r).clus = s.clus := by unfold State.notifyFault; split <;> simp
@[simp] theorem State.notifyFault_gangs : (s.notifyFault r).gangs = s.gangs := by unfold State.notifyFault; split <;> simp
@[simp] theorem State.notifyFault_mem : (s.notifyFault r).mem = s.mem := by unfold State.notifyFault; split <;> simp
@[simp] theorem State.notifyFault_disp : (s.notifyFault r).disp = s.disp := by unfold State.notifyFault; split <;> simp
@[simp] theorem State.notifyFault_fw : (s.notifyFault r).fw = s.fw := by unfold State.notifyFault; split <;> simp
@[simp] theorem State.notifyFault_pkg : (s.notifyFault r).pkg = s.pkg := by unfold State.notifyFault; split <;> simp
@[simp] theorem State.notifyFault_traps : (s.notifyFault r).traps = s.traps := by unfold State.notifyFault; split <;> simp
@[simp] theorem State.notifyFault_agenda : (s.notifyFault r).agenda = s.agenda := by unfold State.notifyFault; split <;> simp
@[simp] theorem State.notifyFault_draw : (s.notifyFault r).draw = s.draw := by unfold State.notifyFault; split <;> simp
end notifyFault

section faultCtx
variable (s : State) (c : BitVec 16)
@[simp] theorem State.faultCtx_core : (s.faultCtx c).core = s.core := rfl
@[simp] theorem State.faultCtx_clu : (s.faultCtx c).clu = s.clu := rfl
@[simp] theorem State.faultCtx_cores : (s.faultCtx c).cores = s.cores := rfl
@[simp] theorem State.faultCtx_clus : (s.faultCtx c).clus = s.clus := rfl
@[simp] theorem State.faultCtx_mem : (s.faultCtx c).mem = s.mem := rfl
@[simp] theorem State.faultCtx_dom : (s.faultCtx c).dom = s.dom := rfl
@[simp] theorem State.faultCtx_disp : (s.faultCtx c).disp = s.disp := rfl
@[simp] theorem State.faultCtx_host : (s.faultCtx c).host = s.host := rfl
@[simp] theorem State.faultCtx_fw : (s.faultCtx c).fw = s.fw := rfl
@[simp] theorem State.faultCtx_traps : (s.faultCtx c).traps = s.traps := rfl
@[simp] theorem State.faultCtx_agenda : (s.faultCtx c).agenda = s.agenda := rfl
@[simp] theorem State.faultCtx_draw : (s.faultCtx c).draw = s.draw := rfl
end faultCtx

section fwEvent
variable (s : State) (d b : Nat)
@[simp] theorem State.fwEvent_core : (s.fwEvent d b).core = s.core := by unfold State.fwEvent; split <;> rfl
@[simp] theorem State.fwEvent_clu : (s.fwEvent d b).clu = s.clu := by unfold State.fwEvent; split <;> rfl
@[simp] theorem State.fwEvent_gang : (s.fwEvent d b).gang = s.gang := by unfold State.fwEvent; split <;> rfl
@[simp] theorem State.fwEvent_cores : (s.fwEvent d b).cores = s.cores := by unfold State.fwEvent; split <;> rfl
@[simp] theorem State.fwEvent_clus : (s.fwEvent d b).clus = s.clus := by unfold State.fwEvent; split <;> rfl
@[simp] theorem State.fwEvent_gangs : (s.fwEvent d b).gangs = s.gangs := by unfold State.fwEvent; split <;> rfl
@[simp] theorem State.fwEvent_mem : (s.fwEvent d b).mem = s.mem := by unfold State.fwEvent; split <;> rfl
@[simp] theorem State.fwEvent_dom : (s.fwEvent d b).dom = s.dom := by unfold State.fwEvent; split <;> rfl
@[simp] theorem State.fwEvent_disp : (s.fwEvent d b).disp = s.disp := by unfold State.fwEvent; split <;> rfl
@[simp] theorem State.fwEvent_host : (s.fwEvent d b).host = s.host := by unfold State.fwEvent; split <;> rfl
@[simp] theorem State.fwEvent_pkg : (s.fwEvent d b).pkg = s.pkg := by unfold State.fwEvent; split <;> rfl
@[simp] theorem State.fwEvent_traps : (s.fwEvent d b).traps = s.traps := by unfold State.fwEvent; split <;> rfl
@[simp] theorem State.fwEvent_agenda : (s.fwEvent d b).agenda = s.agenda := by unfold State.fwEvent; split <;> rfl
@[simp] theorem State.fwEvent_draw : (s.fwEvent d b).draw = s.draw := by unfold State.fwEvent; split <;> rfl
end fwEvent

section setFwd
variable (s : State) (d : Nat) (f : FwDie)
@[simp] theorem State.setFwd_core : (s.setFwd d f).core = s.core := by unfold State.setFwd; split <;> rfl
@[simp] theorem State.setFwd_clu : (s.setFwd d f).clu = s.clu := by unfold State.setFwd; split <;> rfl
@[simp] theorem State.setFwd_gang : (s.setFwd d f).gang = s.gang := by unfold State.setFwd; split <;> rfl
@[simp] theorem State.setFwd_cores : (s.setFwd d f).cores = s.cores := by unfold State.setFwd; split <;> rfl
@[simp] theorem State.setFwd_clus : (s.setFwd d f).clus = s.clus := by unfold State.setFwd; split <;> rfl
@[simp] theorem State.setFwd_gangs : (s.setFwd d f).gangs = s.gangs := by unfold State.setFwd; split <;> rfl
@[simp] theorem State.setFwd_mem : (s.setFwd d f).mem = s.mem := by unfold State.setFwd; split <;> rfl
@[simp] theorem State.setFwd_dom : (s.setFwd d f).dom = s.dom := by unfold State.setFwd; split <;> rfl
@[simp] theorem State.setFwd_disp : (s.setFwd d f).disp = s.disp := by unfold State.setFwd; split <;> rfl
@[simp] theorem State.setFwd_host : (s.setFwd d f).host = s.host := by unfold State.setFwd; split <;> rfl
@[simp] theorem State.setFwd_pkg : (s.setFwd d f).pkg = s.pkg := by unfold State.setFwd; split <;> rfl
@[simp] theorem State.setFwd_traps : (s.setFwd d f).traps = s.traps := by unfold State.setFwd; split <;> rfl
@[simp] theorem State.setFwd_agenda : (s.setFwd d f).agenda = s.agenda := by unfold State.setFwd; split <;> rfl
@[simp] theorem State.setFwd_draw : (s.setFwd d f).draw = s.draw := by unfold State.setFwd; split <;> rfl
end setFwd

section setQueue
variable (s : State) (q : BitVec 6) (f : Queue → Queue)
@[simp] theorem State.setQueue_core : (s.setQueue q f).core = s.core := rfl
@[simp] theorem State.setQueue_clu : (s.setQueue q f).clu = s.clu := rfl
@[simp] theorem State.setQueue_gang : (s.setQueue q f).gang = s.gang := rfl
@[simp] theorem State.setQueue_cores : (s.setQueue q f).cores = s.cores := rfl
@[simp] theorem State.setQueue_clus : (s.setQueue q f).clus = s.clus := rfl
@[simp] theorem State.setQueue_gangs : (s.setQueue q f).gangs = s.gangs := rfl
@[simp] theorem State.setQueue_mem : (s.setQueue q f).mem = s.mem := rfl
@[simp] theorem State.setQueue_dom : (s.setQueue q f).dom = s.dom := rfl
@[simp] theorem State.setQueue_host : (s.setQueue q f).host = s.host := rfl
@[simp] theorem State.setQueue_fw : (s.setQueue q f).fw = s.fw := rfl
@[simp] theorem State.setQueue_pkg : (s.setQueue q f).pkg = s.pkg := rfl
@[simp] theorem State.setQueue_traps : (s.setQueue q f).traps = s.traps := rfl
@[simp] theorem State.setQueue_agenda : (s.setQueue q f).agenda = s.agenda := rfl
@[simp] theorem State.setQueue_draw : (s.setQueue q f).draw = s.draw := rfl
end setQueue

section setClk
variable (s : State) (k : ClkSt)
@[simp] theorem State.setClk_core : (s.setClk k).core = s.core := rfl
@[simp] theorem State.setClk_clu : (s.setClk k).clu = s.clu := rfl
@[simp] theorem State.setClk_gang : (s.setClk k).gang = s.gang := rfl
@[simp] theorem State.setClk_cores : (s.setClk k).cores = s.cores := rfl
@[simp] theorem State.setClk_clus : (s.setClk k).clus = s.clus := rfl
@[simp] theorem State.setClk_gangs : (s.setClk k).gangs = s.gangs := rfl
@[simp] theorem State.setClk_mem : (s.setClk k).mem = s.mem := rfl
@[simp] theorem State.setClk_dom : (s.setClk k).dom = s.dom := rfl
@[simp] theorem State.setClk_disp : (s.setClk k).disp = s.disp := rfl
@[simp] theorem State.setClk_host : (s.setClk k).host = s.host := rfl
@[simp] theorem State.setClk_fw : (s.setClk k).fw = s.fw := rfl
@[simp] theorem State.setClk_traps : (s.setClk k).traps = s.traps := rfl
@[simp] theorem State.setClk_agenda : (s.setClk k).agenda = s.agenda := rfl
@[simp] theorem State.setClk_draw : (s.setClk k).draw = s.draw := rfl
end setClk

section requestSeal
variable (s : State) 
@[simp] theorem State.requestSeal_core : (s.requestSeal).core = s.core := by unfold State.requestSeal; split <;> rfl
@[simp] theorem State.requestSeal_clu : (s.requestSeal).clu = s.clu := by unfold State.requestSeal; split <;> rfl
@[simp] theorem State.requestSeal_gang : (s.requestSeal).gang = s.gang := by unfold State.requestSeal; split <;> rfl
@[simp] theorem State.requestSeal_cores : (s.requestSeal).cores = s.cores := by unfold State.requestSeal; split <;> rfl
@[simp] theorem State.requestSeal_clus : (s.requestSeal).clus = s.clus := by unfold State.requestSeal; split <;> rfl
@[simp] theorem State.requestSeal_gangs : (s.requestSeal).gangs = s.gangs := by unfold State.requestSeal; split <;> rfl
@[simp] theorem State.requestSeal_mem : (s.requestSeal).mem = s.mem := by unfold State.requestSeal; split <;> rfl
@[simp] theorem State.requestSeal_disp : (s.requestSeal).disp = s.disp := by unfold State.requestSeal; split <;> rfl
@[simp] theorem State.requestSeal_host : (s.requestSeal).host = s.host := by unfold State.requestSeal; split <;> rfl
@[simp] theorem State.requestSeal_fw : (s.requestSeal).fw = s.fw := by unfold State.requestSeal; split <;> rfl
@[simp] theorem State.requestSeal_pkg : (s.requestSeal).pkg = s.pkg := by unfold State.requestSeal; split <;> rfl
@[simp] theorem State.requestSeal_traps : (s.requestSeal).traps = s.traps := by unfold State.requestSeal; split <;> rfl
@[simp] theorem State.requestSeal_agenda : (s.requestSeal).agenda = s.agenda := by unfold State.requestSeal; split <;> rfl
@[simp] theorem State.requestSeal_draw : (s.requestSeal).draw = s.draw := by unfold State.requestSeal; split <;> rfl
end requestSeal

/-! ### What `later` leaves of the core -/

section laterCore
variable (s : State) (dt : Nat) (own : Bool) (a : Act)
@[simp] theorem State.later_core_id : (s.later dt own a).core.id = s.core.id := rfl
@[simp] theorem State.later_core_c : (s.later dt own a).core.c = s.core.c := rfl
@[simp] theorem State.later_core_p : (s.later dt own a).core.p = s.core.p := rfl
@[simp] theorem State.later_core_a : (s.later dt own a).core.a = s.core.a := rfl
@[simp] theorem State.later_core_v0 : (s.later dt own a).core.v0 = s.core.v0 := rfl
@[simp] theorem State.later_core_v1 : (s.later dt own a).core.v1 = s.core.v1 := rfl
@[simp] theorem State.later_core_mp : (s.later dt own a).core.mp = s.core.mp := rfl
@[simp] theorem State.later_core_xp : (s.later dt own a).core.xp = s.core.xp := rfl
@[simp] theorem State.later_core_mxu : (s.later dt own a).core.mxu = s.core.mxu := rfl
@[simp] theorem State.later_core_aflags : (s.later dt own a).core.aflags = s.core.aflags := rfl
@[simp] theorem State.later_core_fb : (s.later dt own a).core.fb = s.core.fb := rfl
@[simp] theorem State.later_core_ports : (s.later dt own a).core.ports = s.core.ports := rfl
@[simp] theorem State.later_core_loops : (s.later dt own a).core.loops = s.core.loops := rfl
@[simp] theorem State.later_core_rote : (s.later dt own a).core.rote = s.core.rote := rfl
@[simp] theorem State.later_core_rotc : (s.later dt own a).core.rotc = s.core.rotc := rfl
@[simp] theorem State.later_core_seg : (s.later dt own a).core.seg = s.core.seg := rfl
@[simp] theorem State.later_core_ent : (s.later dt own a).core.ent = s.core.ent := rfl
@[simp] theorem State.later_core_due : (s.later dt own a).core.due = s.core.due := rfl
@[simp] theorem State.later_core_last : (s.later dt own a).core.last = s.core.last := rfl
@[simp] theorem State.later_core_xfer : (s.later dt own a).core.xfer = s.core.xfer := rfl
@[simp] theorem State.later_core_rotAt : (s.later dt own a).core.rotAt = s.core.rotAt := rfl
@[simp] theorem State.later_core_sel : (s.later dt own a).core.sel = s.core.sel := rfl
@[simp] theorem State.later_core_cur : (s.later dt own a).core.cur = s.core.cur := rfl
@[simp] theorem State.later_core_idle : (s.later dt own a).core.idle = s.core.idle := rfl
@[simp] theorem State.later_core_cmds : (s.later dt own a).core.cmds = s.core.cmds := rfl
@[simp] theorem State.later_core_openR : (s.later dt own a).core.openR = s.core.openR := rfl
@[simp] theorem State.later_core_heldR : (s.later dt own a).core.heldR = s.core.heldR := rfl
@[simp] theorem State.later_core_inCnt : (s.later dt own a).core.inCnt = s.core.inCnt := rfl
@[simp] theorem State.later_core_cq : (s.later dt own a).core.cq = s.core.cq := rfl
@[simp] theorem State.later_core_rnum : (s.later dt own a).core.rnum = s.core.rnum := rfl
@[simp] theorem State.later_core_streams : (s.later dt own a).core.streams = s.core.streams := rfl
@[simp] theorem State.later_core_watches : (s.later dt own a).core.watches = s.core.watches := rfl
@[simp] theorem State.later_core_run : (s.later dt own a).core.run = s.core.run := rfl
@[simp] theorem State.later_core_bit : (s.later dt own a).core.bit = s.core.bit := rfl
@[simp] theorem State.later_core_wait : (s.later dt own a).core.wait = s.core.wait := rfl
@[simp] theorem State.later_core_far : (s.later dt own a).core.far = s.core.far := rfl
@[simp] theorem State.later_core_sbw : (s.later dt own a).core.sbw = s.core.sbw := rfl
@[simp] theorem State.later_core_issued : (s.later dt own a).core.issued = s.core.issued := rfl
@[simp] theorem State.later_core_offTimed : (s.later dt own a).core.offTimed = s.core.offTimed := rfl
@[simp] theorem State.later_core_hold : (s.later dt own a).core.hold = s.core.hold := rfl
@[simp] theorem State.later_core_skipC : (s.later dt own a).core.skipC = s.core.skipC := rfl
@[simp] theorem State.later_core_jump : (s.later dt own a).core.jump = s.core.jump := rfl
@[simp] theorem State.later_core_codeBad : (s.later dt own a).core.codeBad = s.core.codeBad := rfl
@[simp] theorem State.later_core_codeHit : (s.later dt own a).core.codeHit = s.core.codeHit := rfl
theorem State.later_core_pend : (s.later dt own a).core.pend
    = insertPend { time := s.gang.now + dt, iss := s.gang.now, own := own, act := a } s.core.pend := rfl
end laterCore

/-! ### Updates of a core -/

section setC
variable (c : Core) (i : BitVec 4) (x : W64)
@[simp] theorem Core.setC_id : (c.setC i x).id = c.id := rfl
@[simp] theorem Core.setC_c : (c.setC i x).c = rset c.c i x := rfl
@[simp] theorem Core.setC_p : (c.setC i x).p = c.p := rfl
@[simp] theorem Core.setC_a : (c.setC i x).a = c.a := rfl
@[simp] theorem Core.setC_v0 : (c.setC i x).v0 = c.v0 := rfl
@[simp] theorem Core.setC_v1 : (c.setC i x).v1 = c.v1 := rfl
@[simp] theorem Core.setC_mp : (c.setC i x).mp = c.mp := rfl
@[simp] theorem Core.setC_xp : (c.setC i x).xp = c.xp := rfl
@[simp] theorem Core.setC_mxu : (c.setC i x).mxu = c.mxu := rfl
@[simp] theorem Core.setC_aflags : (c.setC i x).aflags = c.aflags := rfl
@[simp] theorem Core.setC_fb : (c.setC i x).fb = c.fb := rfl
@[simp] theorem Core.setC_ports : (c.setC i x).ports = c.ports := rfl
@[simp] theorem Core.setC_loops : (c.setC i x).loops = c.loops := rfl
@[simp] theorem Core.setC_rote : (c.setC i x).rote = c.rote := rfl
@[simp] theorem Core.setC_rotc : (c.setC i x).rotc = c.rotc := rfl
@[simp] theorem Core.setC_seg : (c.setC i x).seg = c.seg := rfl
@[simp] theorem Core.setC_ent : (c.setC i x).ent = c.ent := rfl
@[simp] theorem Core.setC_due : (c.setC i x).due = c.due := rfl
@[simp] theorem Core.setC_last : (c.setC i x).last = c.last := rfl
@[simp] theorem Core.setC_xfer : (c.setC i x).xfer = c.xfer := rfl
@[simp] theorem Core.setC_rotAt : (c.setC i x).rotAt = c.rotAt := rfl
@[simp] theorem Core.setC_sel : (c.setC i x).sel = c.sel := rfl
@[simp] theorem Core.setC_cur : (c.setC i x).cur = c.cur := rfl
@[simp] theorem Core.setC_idle : (c.setC i x).idle = c.idle := rfl
@[simp] theorem Core.setC_cmds : (c.setC i x).cmds = c.cmds := rfl
@[simp] theorem Core.setC_openR : (c.setC i x).openR = c.openR := rfl
@[simp] theorem Core.setC_heldR : (c.setC i x).heldR = c.heldR := rfl
@[simp] theorem Core.setC_inCnt : (c.setC i x).inCnt = c.inCnt := rfl
@[simp] theorem Core.setC_cq : (c.setC i x).cq = c.cq := rfl
@[simp] theorem Core.setC_rnum : (c.setC i x).rnum = c.rnum := rfl
@[simp] theorem Core.setC_streams : (c.setC i x).streams = c.streams := rfl
@[simp] theorem Core.setC_pend : (c.setC i x).pend = c.pend := rfl
@[simp] theorem Core.setC_watches : (c.setC i x).watches = c.watches := rfl
@[simp] theorem Core.setC_run : (c.setC i x).run = c.run := rfl
@[simp] theorem Core.setC_bit : (c.setC i x).bit = c.bit := rfl
@[simp] theorem Core.setC_wait : (c.setC i x).wait = c.wait := rfl
@[simp] theorem Core.setC_far : (c.setC i x).far = c.far := rfl
@[simp] theorem Core.setC_sbw : (c.setC i x).sbw = c.sbw := rfl
@[simp] theorem Core.setC_issued : (c.setC i x).issued = c.issued := rfl
@[simp] theorem Core.setC_offTimed : (c.setC i x).offTimed = c.offTimed := rfl
@[simp] theorem Core.setC_hold : (c.setC i x).hold = c.hold := rfl
@[simp] theorem Core.setC_skipC : (c.setC i x).skipC = c.skipC := rfl
@[simp] theorem Core.setC_jump : (c.setC i x).jump = c.jump := rfl
@[simp] theorem Core.setC_codeBad : (c.setC i x).codeBad = c.codeBad := rfl
@[simp] theorem Core.setC_codeHit : (c.setC i x).codeHit = c.codeHit := rfl
end setC

section setA
variable (c : Core) (i : BitVec 5) (x : W64)
@[simp] theorem Core.setA_id : (c.setA i x).id = c.id := rfl
@[simp] theorem Core.setA_c : (c.setA i x).c = c.c := rfl
@[simp] theorem Core.setA_p : (c.setA i x).p = c.p := rfl
@[simp] theorem Core.setA_a : (c.setA i x).a = rset c.a i x := rfl
@[simp] theorem Core.setA_v0 : (c.setA i x).v0 = c.v0 := rfl
@[simp] theorem Core.setA_v1 : (c.setA i x).v1 = c.v1 := rfl
@[simp] theorem Core.setA_mp : (c.setA i x).mp = c.mp := rfl
@[simp] theorem Core.setA_xp : (c.setA i x).xp = c.xp := rfl
@[simp] theorem Core.setA_mxu : (c.setA i x).mxu = c.mxu := rfl
@[simp] theorem Core.setA_aflags : (c.setA i x).aflags = c.aflags := rfl
@[simp] theorem Core.setA_fb : (c.setA i x).fb = c.fb := rfl
@[simp] theorem Core.setA_ports : (c.setA i x).ports = c.ports := rfl
@[simp] theorem Core.setA_loops : (c.setA i x).loops = c.loops := rfl
@[simp] theorem Core.setA_rote : (c.setA i x).rote = c.rote := rfl
@[simp] theorem Core.setA_rotc : (c.setA i x).rotc = c.rotc := rfl
@[simp] theorem Core.setA_seg : (c.setA i x).seg = c.seg := rfl
@[simp] theorem Core.setA_ent : (c.setA i x).ent = c.ent := rfl
@[simp] theorem Core.setA_due : (c.setA i x).due = c.due := rfl
@[simp] theorem Core.setA_last : (c.setA i x).last = c.last := rfl
@[simp] theorem Core.setA_xfer : (c.setA i x).xfer = c.xfer := rfl
@[simp] theorem Core.setA_rotAt : (c.setA i x).rotAt = c.rotAt := rfl
@[simp] theorem Core.setA_sel : (c.setA i x).sel = c.sel := rfl
@[simp] theorem Core.setA_cur : (c.setA i x).cur = c.cur := rfl
@[simp] theorem Core.setA_idle : (c.setA i x).idle = c.idle := rfl
@[simp] theorem Core.setA_cmds : (c.setA i x).cmds = c.cmds := rfl
@[simp] theorem Core.setA_openR : (c.setA i x).openR = c.openR := rfl
@[simp] theorem Core.setA_heldR : (c.setA i x).heldR = c.heldR := rfl
@[simp] theorem Core.setA_inCnt : (c.setA i x).inCnt = c.inCnt := rfl
@[simp] theorem Core.setA_cq : (c.setA i x).cq = c.cq := rfl
@[simp] theorem Core.setA_rnum : (c.setA i x).rnum = c.rnum := rfl
@[simp] theorem Core.setA_streams : (c.setA i x).streams = c.streams := rfl
@[simp] theorem Core.setA_pend : (c.setA i x).pend = c.pend := rfl
@[simp] theorem Core.setA_watches : (c.setA i x).watches = c.watches := rfl
@[simp] theorem Core.setA_run : (c.setA i x).run = c.run := rfl
@[simp] theorem Core.setA_bit : (c.setA i x).bit = c.bit := rfl
@[simp] theorem Core.setA_wait : (c.setA i x).wait = c.wait := rfl
@[simp] theorem Core.setA_far : (c.setA i x).far = c.far := rfl
@[simp] theorem Core.setA_sbw : (c.setA i x).sbw = c.sbw := rfl
@[simp] theorem Core.setA_issued : (c.setA i x).issued = c.issued := rfl
@[simp] theorem Core.setA_offTimed : (c.setA i x).offTimed = c.offTimed := rfl
@[simp] theorem Core.setA_hold : (c.setA i x).hold = c.hold := rfl
@[simp] theorem Core.setA_skipC : (c.setA i x).skipC = c.skipC := rfl
@[simp] theorem Core.setA_jump : (c.setA i x).jump = c.jump := rfl
@[simp] theorem Core.setA_codeBad : (c.setA i x).codeBad = c.codeBad := rfl
@[simp] theorem Core.setA_codeHit : (c.setA i x).codeHit = c.codeHit := rfl
end setA

section setMp
variable (c : Core) (i : BitVec 3) (x : W64)
@[simp] theorem Core.setMp_id : (c.setMp i x).id = c.id := rfl
@[simp] theorem Core.setMp_c : (c.setMp i x).c = c.c := rfl
@[simp] theorem Core.setMp_p : (c.setMp i x).p = c.p := rfl
@[simp] theorem Core.setMp_a : (c.setMp i x).a = c.a := rfl
@[simp] theorem Core.setMp_v0 : (c.setMp i x).v0 = c.v0 := rfl
@[simp] theorem Core.setMp_v1 : (c.setMp i x).v1 = c.v1 := rfl
@[simp] theorem Core.setMp_mp : (c.setMp i x).mp = rset c.mp i x := rfl
@[simp] theorem Core.setMp_xp : (c.setMp i x).xp = c.xp := rfl
@[simp] theorem Core.setMp_mxu : (c.setMp i x).mxu = c.mxu := rfl
@[simp] theorem Core.setMp_aflags : (c.setMp i x).aflags = c.aflags := rfl
@[simp] theorem Core.setMp_fb : (c.setMp i x).fb = c.fb := rfl
@[simp] theorem Core.setMp_ports : (c.setMp i x).ports = c.ports := rfl
@[simp] theorem Core.setMp_loops : (c.setMp i x).loops = c.loops := rfl
@[simp] theorem Core.setMp_rote : (c.setMp i x).rote = c.rote := rfl
@[simp] theorem Core.setMp_rotc : (c.setMp i x).rotc = c.rotc := rfl
@[simp] theorem Core.setMp_seg : (c.setMp i x).seg = c.seg := rfl
@[simp] theorem Core.setMp_ent : (c.setMp i x).ent = c.ent := rfl
@[simp] theorem Core.setMp_due : (c.setMp i x).due = c.due := rfl
@[simp] theorem Core.setMp_last : (c.setMp i x).last = c.last := rfl
@[simp] theorem Core.setMp_xfer : (c.setMp i x).xfer = c.xfer := rfl
@[simp] theorem Core.setMp_rotAt : (c.setMp i x).rotAt = c.rotAt := rfl
@[simp] theorem Core.setMp_sel : (c.setMp i x).sel = c.sel := rfl
@[simp] theorem Core.setMp_cur : (c.setMp i x).cur = c.cur := rfl
@[simp] theorem Core.setMp_idle : (c.setMp i x).idle = c.idle := rfl
@[simp] theorem Core.setMp_cmds : (c.setMp i x).cmds = c.cmds := rfl
@[simp] theorem Core.setMp_openR : (c.setMp i x).openR = c.openR := rfl
@[simp] theorem Core.setMp_heldR : (c.setMp i x).heldR = c.heldR := rfl
@[simp] theorem Core.setMp_inCnt : (c.setMp i x).inCnt = c.inCnt := rfl
@[simp] theorem Core.setMp_cq : (c.setMp i x).cq = c.cq := rfl
@[simp] theorem Core.setMp_rnum : (c.setMp i x).rnum = c.rnum := rfl
@[simp] theorem Core.setMp_streams : (c.setMp i x).streams = c.streams := rfl
@[simp] theorem Core.setMp_pend : (c.setMp i x).pend = c.pend := rfl
@[simp] theorem Core.setMp_watches : (c.setMp i x).watches = c.watches := rfl
@[simp] theorem Core.setMp_run : (c.setMp i x).run = c.run := rfl
@[simp] theorem Core.setMp_bit : (c.setMp i x).bit = c.bit := rfl
@[simp] theorem Core.setMp_wait : (c.setMp i x).wait = c.wait := rfl
@[simp] theorem Core.setMp_far : (c.setMp i x).far = c.far := rfl
@[simp] theorem Core.setMp_sbw : (c.setMp i x).sbw = c.sbw := rfl
@[simp] theorem Core.setMp_issued : (c.setMp i x).issued = c.issued := rfl
@[simp] theorem Core.setMp_offTimed : (c.setMp i x).offTimed = c.offTimed := rfl
@[simp] theorem Core.setMp_hold : (c.setMp i x).hold = c.hold := rfl
@[simp] theorem Core.setMp_skipC : (c.setMp i x).skipC = c.skipC := rfl
@[simp] theorem Core.setMp_jump : (c.setMp i x).jump = c.jump := rfl
@[simp] theorem Core.setMp_codeBad : (c.setMp i x).codeBad = c.codeBad := rfl
@[simp] theorem Core.setMp_codeHit : (c.setMp i x).codeHit = c.codeHit := rfl
end setMp

section setXp
variable (c : Core) (i : BitVec 4) (x : W64)
@[simp] theorem Core.setXp_id : (c.setXp i x).id = c.id := rfl
@[simp] theorem Core.setXp_c : (c.setXp i x).c = c.c := rfl
@[simp] theorem Core.setXp_p : (c.setXp i x).p = c.p := rfl
@[simp] theorem Core.setXp_a : (c.setXp i x).a = c.a := rfl
@[simp] theorem Core.setXp_v0 : (c.setXp i x).v0 = c.v0 := rfl
@[simp] theorem Core.setXp_v1 : (c.setXp i x).v1 = c.v1 := rfl
@[simp] theorem Core.setXp_mp : (c.setXp i x).mp = c.mp := rfl
@[simp] theorem Core.setXp_xp : (c.setXp i x).xp = rset c.xp i x := rfl
@[simp] theorem Core.setXp_mxu : (c.setXp i x).mxu = c.mxu := rfl
@[simp] theorem Core.setXp_aflags : (c.setXp i x).aflags = c.aflags := rfl
@[simp] theorem Core.setXp_fb : (c.setXp i x).fb = c.fb := rfl
@[simp] theorem Core.setXp_ports : (c.setXp i x).ports = c.ports := rfl
@[simp] theorem Core.setXp_loops : (c.setXp i x).loops = c.loops := rfl
@[simp] theorem Core.setXp_rote : (c.setXp i x).rote = c.rote := rfl
@[simp] theorem Core.setXp_rotc : (c.setXp i x).rotc = c.rotc := rfl
@[simp] theorem Core.setXp_seg : (c.setXp i x).seg = c.seg := rfl
@[simp] theorem Core.setXp_ent : (c.setXp i x).ent = c.ent := rfl
@[simp] theorem Core.setXp_due : (c.setXp i x).due = c.due := rfl
@[simp] theorem Core.setXp_last : (c.setXp i x).last = c.last := rfl
@[simp] theorem Core.setXp_xfer : (c.setXp i x).xfer = c.xfer := rfl
@[simp] theorem Core.setXp_rotAt : (c.setXp i x).rotAt = c.rotAt := rfl
@[simp] theorem Core.setXp_sel : (c.setXp i x).sel = c.sel := rfl
@[simp] theorem Core.setXp_cur : (c.setXp i x).cur = c.cur := rfl
@[simp] theorem Core.setXp_idle : (c.setXp i x).idle = c.idle := rfl
@[simp] theorem Core.setXp_cmds : (c.setXp i x).cmds = c.cmds := rfl
@[simp] theorem Core.setXp_openR : (c.setXp i x).openR = c.openR := rfl
@[simp] theorem Core.setXp_heldR : (c.setXp i x).heldR = c.heldR := rfl
@[simp] theorem Core.setXp_inCnt : (c.setXp i x).inCnt = c.inCnt := rfl
@[simp] theorem Core.setXp_cq : (c.setXp i x).cq = c.cq := rfl
@[simp] theorem Core.setXp_rnum : (c.setXp i x).rnum = c.rnum := rfl
@[simp] theorem Core.setXp_streams : (c.setXp i x).streams = c.streams := rfl
@[simp] theorem Core.setXp_pend : (c.setXp i x).pend = c.pend := rfl
@[simp] theorem Core.setXp_watches : (c.setXp i x).watches = c.watches := rfl
@[simp] theorem Core.setXp_run : (c.setXp i x).run = c.run := rfl
@[simp] theorem Core.setXp_bit : (c.setXp i x).bit = c.bit := rfl
@[simp] theorem Core.setXp_wait : (c.setXp i x).wait = c.wait := rfl
@[simp] theorem Core.setXp_far : (c.setXp i x).far = c.far := rfl
@[simp] theorem Core.setXp_sbw : (c.setXp i x).sbw = c.sbw := rfl
@[simp] theorem Core.setXp_issued : (c.setXp i x).issued = c.issued := rfl
@[simp] theorem Core.setXp_offTimed : (c.setXp i x).offTimed = c.offTimed := rfl
@[simp] theorem Core.setXp_hold : (c.setXp i x).hold = c.hold := rfl
@[simp] theorem Core.setXp_skipC : (c.setXp i x).skipC = c.skipC := rfl
@[simp] theorem Core.setXp_jump : (c.setXp i x).jump = c.jump := rfl
@[simp] theorem Core.setXp_codeBad : (c.setXp i x).codeBad = c.codeBad := rfl
@[simp] theorem Core.setXp_codeHit : (c.setXp i x).codeHit = c.codeHit := rfl
end setXp

section setFb
variable (c : Core) (i : BitVec 5) (x : W64)
@[simp] theorem Core.setFb_id : (c.setFb i x).id = c.id := rfl
@[simp] theorem Core.setFb_c : (c.setFb i x).c = c.c := rfl
@[simp] theorem Core.setFb_p : (c.setFb i x).p = c.p := rfl
@[simp] theorem Core.setFb_a : (c.setFb i x).a = c.a := rfl
@[simp] theorem Core.setFb_v0 : (c.setFb i x).v0 = c.v0 := rfl
@[simp] theorem Core.setFb_v1 : (c.setFb i x).v1 = c.v1 := rfl
@[simp] theorem Core.setFb_mp : (c.setFb i x).mp = c.mp := rfl
@[simp] theorem Core.setFb_xp : (c.setFb i x).xp = c.xp := rfl
@[simp] theorem Core.setFb_mxu : (c.setFb i x).mxu = c.mxu := rfl
@[simp] theorem Core.setFb_aflags : (c.setFb i x).aflags = c.aflags := rfl
@[simp] theorem Core.setFb_fb : (c.setFb i x).fb = rset c.fb i x := rfl
@[simp] theorem Core.setFb_ports : (c.setFb i x).ports = c.ports := rfl
@[simp] theorem Core.setFb_loops : (c.setFb i x).loops = c.loops := rfl
@[simp] theorem Core.setFb_rote : (c.setFb i x).rote = c.rote := rfl
@[simp] theorem Core.setFb_rotc : (c.setFb i x).rotc = c.rotc := rfl
@[simp] theorem Core.setFb_seg : (c.setFb i x).seg = c.seg := rfl
@[simp] theorem Core.setFb_ent : (c.setFb i x).ent = c.ent := rfl
@[simp] theorem Core.setFb_due : (c.setFb i x).due = c.due := rfl
@[simp] theorem Core.setFb_last : (c.setFb i x).last = c.last := rfl
@[simp] theorem Core.setFb_xfer : (c.setFb i x).xfer = c.xfer := rfl
@[simp] theorem Core.setFb_rotAt : (c.setFb i x).rotAt = c.rotAt := rfl
@[simp] theorem Core.setFb_sel : (c.setFb i x).sel = c.sel := rfl
@[simp] theorem Core.setFb_cur : (c.setFb i x).cur = c.cur := rfl
@[simp] theorem Core.setFb_idle : (c.setFb i x).idle = c.idle := rfl
@[simp] theorem Core.setFb_cmds : (c.setFb i x).cmds = c.cmds := rfl
@[simp] theorem Core.setFb_openR : (c.setFb i x).openR = c.openR := rfl
@[simp] theorem Core.setFb_heldR : (c.setFb i x).heldR = c.heldR := rfl
@[simp] theorem Core.setFb_inCnt : (c.setFb i x).inCnt = c.inCnt := rfl
@[simp] theorem Core.setFb_cq : (c.setFb i x).cq = c.cq := rfl
@[simp] theorem Core.setFb_rnum : (c.setFb i x).rnum = c.rnum := rfl
@[simp] theorem Core.setFb_streams : (c.setFb i x).streams = c.streams := rfl
@[simp] theorem Core.setFb_pend : (c.setFb i x).pend = c.pend := rfl
@[simp] theorem Core.setFb_watches : (c.setFb i x).watches = c.watches := rfl
@[simp] theorem Core.setFb_run : (c.setFb i x).run = c.run := rfl
@[simp] theorem Core.setFb_bit : (c.setFb i x).bit = c.bit := rfl
@[simp] theorem Core.setFb_wait : (c.setFb i x).wait = c.wait := rfl
@[simp] theorem Core.setFb_far : (c.setFb i x).far = c.far := rfl
@[simp] theorem Core.setFb_sbw : (c.setFb i x).sbw = c.sbw := rfl
@[simp] theorem Core.setFb_issued : (c.setFb i x).issued = c.issued := rfl
@[simp] theorem Core.setFb_offTimed : (c.setFb i x).offTimed = c.offTimed := rfl
@[simp] theorem Core.setFb_hold : (c.setFb i x).hold = c.hold := rfl
@[simp] theorem Core.setFb_skipC : (c.setFb i x).skipC = c.skipC := rfl
@[simp] theorem Core.setFb_jump : (c.setFb i x).jump = c.jump := rfl
@[simp] theorem Core.setFb_codeBad : (c.setFb i x).codeBad = c.codeBad := rfl
@[simp] theorem Core.setFb_codeHit : (c.setFb i x).codeHit = c.codeHit := rfl
end setFb

section setP
variable (c : Core) (i : BitVec 4) (b : Bool)
@[simp] theorem Core.setP_id : (c.setP i b).id = c.id := by unfold Core.setP; cases i == 0 <;> rfl
@[simp] theorem Core.setP_c : (c.setP i b).c = c.c := by unfold Core.setP; cases i == 0 <;> rfl
@[simp] theorem Core.setP_a : (c.setP i b).a = c.a := by unfold Core.setP; cases i == 0 <;> rfl
@[simp] theorem Core.setP_v0 : (c.setP i b).v0 = c.v0 := by unfold Core.setP; cases i == 0 <;> rfl
@[simp] theorem Core.setP_v1 : (c.setP i b).v1 = c.v1 := by unfold Core.setP; cases i == 0 <;> rfl
@[simp] theorem Core.setP_mp : (c.setP i b).mp = c.mp := by unfold Core.setP; cases i == 0 <;> rfl
@[simp] theorem Core.setP_xp : (c.setP i b).xp = c.xp := by unfold Core.setP; cases i == 0 <;> rfl
@[simp] theorem Core.setP_mxu : (c.setP i b).mxu = c.mxu := by unfold Core.setP; cases i == 0 <;> rfl
@[simp] theorem Core.setP_aflags : (c.setP i b).aflags = c.aflags := by unfold Core.setP; cases i == 0 <;> rfl
@[simp] theorem Core.setP_fb : (c.setP i b).fb = c.fb := by unfold Core.setP; cases i == 0 <;> rfl
@[simp] theorem Core.setP_ports : (c.setP i b).ports = c.ports := by unfold Core.setP; cases i == 0 <;> rfl
@[simp] theorem Core.setP_loops : (c.setP i b).loops = c.loops := by unfold Core.setP; cases i == 0 <;> rfl
@[simp] theorem Core.setP_rote : (c.setP i b).rote = c.rote := by unfold Core.setP; cases i == 0 <;> rfl
@[simp] theorem Core.setP_rotc : (c.setP i b).rotc = c.rotc := by unfold Core.setP; cases i == 0 <;> rfl
@[simp] theorem Core.setP_seg : (c.setP i b).seg = c.seg := by unfold Core.setP; cases i == 0 <;> rfl
@[simp] theorem Core.setP_ent : (c.setP i b).ent = c.ent := by unfold Core.setP; cases i == 0 <;> rfl
@[simp] theorem Core.setP_due : (c.setP i b).due = c.due := by unfold Core.setP; cases i == 0 <;> rfl
@[simp] theorem Core.setP_last : (c.setP i b).last = c.last := by unfold Core.setP; cases i == 0 <;> rfl
@[simp] theorem Core.setP_xfer : (c.setP i b).xfer = c.xfer := by unfold Core.setP; cases i == 0 <;> rfl
@[simp] theorem Core.setP_rotAt : (c.setP i b).rotAt = c.rotAt := by unfold Core.setP; cases i == 0 <;> rfl
@[simp] theorem Core.setP_sel : (c.setP i b).sel = c.sel := by unfold Core.setP; cases i == 0 <;> rfl
@[simp] theorem Core.setP_cur : (c.setP i b).cur = c.cur := by unfold Core.setP; cases i == 0 <;> rfl
@[simp] theorem Core.setP_idle : (c.setP i b).idle = c.idle := by unfold Core.setP; cases i == 0 <;> rfl
@[simp] theorem Core.setP_cmds : (c.setP i b).cmds = c.cmds := by unfold Core.setP; cases i == 0 <;> rfl
@[simp] theorem Core.setP_openR : (c.setP i b).openR = c.openR := by unfold Core.setP; cases i == 0 <;> rfl
@[simp] theorem Core.setP_heldR : (c.setP i b).heldR = c.heldR := by unfold Core.setP; cases i == 0 <;> rfl
@[simp] theorem Core.setP_inCnt : (c.setP i b).inCnt = c.inCnt := by unfold Core.setP; cases i == 0 <;> rfl
@[simp] theorem Core.setP_cq : (c.setP i b).cq = c.cq := by unfold Core.setP; cases i == 0 <;> rfl
@[simp] theorem Core.setP_rnum : (c.setP i b).rnum = c.rnum := by unfold Core.setP; cases i == 0 <;> rfl
@[simp] theorem Core.setP_streams : (c.setP i b).streams = c.streams := by unfold Core.setP; cases i == 0 <;> rfl
@[simp] theorem Core.setP_pend : (c.setP i b).pend = c.pend := by unfold Core.setP; cases i == 0 <;> rfl
@[simp] theorem Core.setP_watches : (c.setP i b).watches = c.watches := by unfold Core.setP; cases i == 0 <;> rfl
@[simp] theorem Core.setP_run : (c.setP i b).run = c.run := by unfold Core.setP; cases i == 0 <;> rfl
@[simp] theorem Core.setP_bit : (c.setP i b).bit = c.bit := by unfold Core.setP; cases i == 0 <;> rfl
@[simp] theorem Core.setP_wait : (c.setP i b).wait = c.wait := by unfold Core.setP; cases i == 0 <;> rfl
@[simp] theorem Core.setP_far : (c.setP i b).far = c.far := by unfold Core.setP; cases i == 0 <;> rfl
@[simp] theorem Core.setP_sbw : (c.setP i b).sbw = c.sbw := by unfold Core.setP; cases i == 0 <;> rfl
@[simp] theorem Core.setP_issued : (c.setP i b).issued = c.issued := by unfold Core.setP; cases i == 0 <;> rfl
@[simp] theorem Core.setP_offTimed : (c.setP i b).offTimed = c.offTimed := by unfold Core.setP; cases i == 0 <;> rfl
@[simp] theorem Core.setP_hold : (c.setP i b).hold = c.hold := by unfold Core.setP; cases i == 0 <;> rfl
@[simp] theorem Core.setP_skipC : (c.setP i b).skipC = c.skipC := by unfold Core.setP; cases i == 0 <;> rfl
@[simp] theorem Core.setP_jump : (c.setP i b).jump = c.jump := by unfold Core.setP; cases i == 0 <;> rfl
@[simp] theorem Core.setP_codeBad : (c.setP i b).codeBad = c.codeBad := by unfold Core.setP; cases i == 0 <;> rfl
@[simp] theorem Core.setP_codeHit : (c.setP i b).codeHit = c.codeHit := by unfold Core.setP; cases i == 0 <;> rfl
end setP

section setVf
variable (c : Core) (u : VU) (f : VFile)
@[simp] theorem Core.setVf_id : (c.setVf u f).id = c.id := by cases u <;> rfl
@[simp] theorem Core.setVf_c : (c.setVf u f).c = c.c := by cases u <;> rfl
@[simp] theorem Core.setVf_p : (c.setVf u f).p = c.p := by cases u <;> rfl
@[simp] theorem Core.setVf_a : (c.setVf u f).a = c.a := by cases u <;> rfl
@[simp] theorem Core.setVf_mp : (c.setVf u f).mp = c.mp := by cases u <;> rfl
@[simp] theorem Core.setVf_xp : (c.setVf u f).xp = c.xp := by cases u <;> rfl
@[simp] theorem Core.setVf_mxu : (c.setVf u f).mxu = c.mxu := by cases u <;> rfl
@[simp] theorem Core.setVf_aflags : (c.setVf u f).aflags = c.aflags := by cases u <;> rfl
@[simp] theorem Core.setVf_fb : (c.setVf u f).fb = c.fb := by cases u <;> rfl
@[simp] theorem Core.setVf_ports : (c.setVf u f).ports = c.ports := by cases u <;> rfl
@[simp] theorem Core.setVf_loops : (c.setVf u f).loops = c.loops := by cases u <;> rfl
@[simp] theorem Core.setVf_rote : (c.setVf u f).rote = c.rote := by cases u <;> rfl
@[simp] theorem Core.setVf_rotc : (c.setVf u f).rotc = c.rotc := by cases u <;> rfl
@[simp] theorem Core.setVf_seg : (c.setVf u f).seg = c.seg := by cases u <;> rfl
@[simp] theorem Core.setVf_ent : (c.setVf u f).ent = c.ent := by cases u <;> rfl
@[simp] theorem Core.setVf_due : (c.setVf u f).due = c.due := by cases u <;> rfl
@[simp] theorem Core.setVf_last : (c.setVf u f).last = c.last := by cases u <;> rfl
@[simp] theorem Core.setVf_xfer : (c.setVf u f).xfer = c.xfer := by cases u <;> rfl
@[simp] theorem Core.setVf_rotAt : (c.setVf u f).rotAt = c.rotAt := by cases u <;> rfl
@[simp] theorem Core.setVf_sel : (c.setVf u f).sel = c.sel := by cases u <;> rfl
@[simp] theorem Core.setVf_cur : (c.setVf u f).cur = c.cur := by cases u <;> rfl
@[simp] theorem Core.setVf_idle : (c.setVf u f).idle = c.idle := by cases u <;> rfl
@[simp] theorem Core.setVf_cmds : (c.setVf u f).cmds = c.cmds := by cases u <;> rfl
@[simp] theorem Core.setVf_openR : (c.setVf u f).openR = c.openR := by cases u <;> rfl
@[simp] theorem Core.setVf_heldR : (c.setVf u f).heldR = c.heldR := by cases u <;> rfl
@[simp] theorem Core.setVf_inCnt : (c.setVf u f).inCnt = c.inCnt := by cases u <;> rfl
@[simp] theorem Core.setVf_cq : (c.setVf u f).cq = c.cq := by cases u <;> rfl
@[simp] theorem Core.setVf_rnum : (c.setVf u f).rnum = c.rnum := by cases u <;> rfl
@[simp] theorem Core.setVf_streams : (c.setVf u f).streams = c.streams := by cases u <;> rfl
@[simp] theorem Core.setVf_pend : (c.setVf u f).pend = c.pend := by cases u <;> rfl
@[simp] theorem Core.setVf_watches : (c.setVf u f).watches = c.watches := by cases u <;> rfl
@[simp] theorem Core.setVf_run : (c.setVf u f).run = c.run := by cases u <;> rfl
@[simp] theorem Core.setVf_bit : (c.setVf u f).bit = c.bit := by cases u <;> rfl
@[simp] theorem Core.setVf_wait : (c.setVf u f).wait = c.wait := by cases u <;> rfl
@[simp] theorem Core.setVf_far : (c.setVf u f).far = c.far := by cases u <;> rfl
@[simp] theorem Core.setVf_sbw : (c.setVf u f).sbw = c.sbw := by cases u <;> rfl
@[simp] theorem Core.setVf_issued : (c.setVf u f).issued = c.issued := by cases u <;> rfl
@[simp] theorem Core.setVf_offTimed : (c.setVf u f).offTimed = c.offTimed := by cases u <;> rfl
@[simp] theorem Core.setVf_hold : (c.setVf u f).hold = c.hold := by cases u <;> rfl
@[simp] theorem Core.setVf_skipC : (c.setVf u f).skipC = c.skipC := by cases u <;> rfl
@[simp] theorem Core.setVf_jump : (c.setVf u f).jump = c.jump := by cases u <;> rfl
@[simp] theorem Core.setVf_codeBad : (c.setVf u f).codeBad = c.codeBad := by cases u <;> rfl
@[simp] theorem Core.setVf_codeHit : (c.setVf u f).codeHit = c.codeHit := by cases u <;> rfl
end setVf

section setPort
variable (c : Core) (i : Nat) (p : Port)
@[simp] theorem Core.setPort_id : (c.setPort i p).id = c.id := by unfold Core.setPort; split <;> rfl
@[simp] theorem Core.setPort_c : (c.setPort i p).c = c.c := by unfold Core.setPort; split <;> rfl
@[simp] theorem Core.setPort_p : (c.setPort i p).p = c.p := by unfold Core.setPort; split <;> rfl
@[simp] theorem Core.setPort_a : (c.setPort i p).a = c.a := by unfold Core.setPort; split <;> rfl
@[simp] theorem Core.setPort_v0 : (c.setPort i p).v0 = c.v0 := by unfold Core.setPort; split <;> rfl
@[simp] theorem Core.setPort_v1 : (c.setPort i p).v1 = c.v1 := by unfold Core.setPort; split <;> rfl
@[simp] theorem Core.setPort_mp : (c.setPort i p).mp = c.mp := by unfold Core.setPort; split <;> rfl
@[simp] theorem Core.setPort_xp : (c.setPort i p).xp = c.xp := by unfold Core.setPort; split <;> rfl
@[simp] theorem Core.setPort_mxu : (c.setPort i p).mxu = c.mxu := by unfold Core.setPort; split <;> rfl
@[simp] theorem Core.setPort_aflags : (c.setPort i p).aflags = c.aflags := by unfold Core.setPort; split <;> rfl
@[simp] theorem Core.setPort_fb : (c.setPort i p).fb = c.fb := by unfold Core.setPort; split <;> rfl
@[simp] theorem Core.setPort_loops : (c.setPort i p).loops = c.loops := by unfold Core.setPort; split <;> rfl
@[simp] theorem Core.setPort_rote : (c.setPort i p).rote = c.rote := by unfold Core.setPort; split <;> rfl
@[simp] theorem Core.setPort_rotc : (c.setPort i p).rotc = c.rotc := by unfold Core.setPort; split <;> rfl
@[simp] theorem Core.setPort_seg : (c.setPort i p).seg = c.seg := by unfold Core.setPort; split <;> rfl
@[simp] theorem Core.setPort_ent : (c.setPort i p).ent = c.ent := by unfold Core.setPort; split <;> rfl
@[simp] theorem Core.setPort_due : (c.setPort i p).due = c.due := by unfold Core.setPort; split <;> rfl
@[simp] theorem Core.setPort_last : (c.setPort i p).last = c.last := by unfold Core.setPort; split <;> rfl
@[simp] theorem Core.setPort_xfer : (c.setPort i p).xfer = c.xfer := by unfold Core.setPort; split <;> rfl
@[simp] theorem Core.setPort_rotAt : (c.setPort i p).rotAt = c.rotAt := by unfold Core.setPort; split <;> rfl
@[simp] theorem Core.setPort_sel : (c.setPort i p).sel = c.sel := by unfold Core.setPort; split <;> rfl
@[simp] theorem Core.setPort_cur : (c.setPort i p).cur = c.cur := by unfold Core.setPort; split <;> rfl
@[simp] theorem Core.setPort_idle : (c.setPort i p).idle = c.idle := by unfold Core.setPort; split <;> rfl
@[simp] theorem Core.setPort_cmds : (c.setPort i p).cmds = c.cmds := by unfold Core.setPort; split <;> rfl
@[simp] theorem Core.setPort_openR : (c.setPort i p).openR = c.openR := by unfold Core.setPort; split <;> rfl
@[simp] theorem Core.setPort_heldR : (c.setPort i p).heldR = c.heldR := by unfold Core.setPort; split <;> rfl
@[simp] theorem Core.setPort_inCnt : (c.setPort i p).inCnt = c.inCnt := by unfold Core.setPort; split <;> rfl
@[simp] theorem Core.setPort_cq : (c.setPort i p).cq = c.cq := by unfold Core.setPort; split <;> rfl
@[simp] theorem Core.setPort_rnum : (c.setPort i p).rnum = c.rnum := by unfold Core.setPort; split <;> rfl
@[simp] theorem Core.setPort_streams : (c.setPort i p).streams = c.streams := by unfold Core.setPort; split <;> rfl
@[simp] theorem Core.setPort_pend : (c.setPort i p).pend = c.pend := by unfold Core.setPort; split <;> rfl
@[simp] theorem Core.setPort_watches : (c.setPort i p).watches = c.watches := by unfold Core.setPort; split <;> rfl
@[simp] theorem Core.setPort_run : (c.setPort i p).run = c.run := by unfold Core.setPort; split <;> rfl
@[simp] theorem Core.setPort_bit : (c.setPort i p).bit = c.bit := by unfold Core.setPort; split <;> rfl
@[simp] theorem Core.setPort_wait : (c.setPort i p).wait = c.wait := by unfold Core.setPort; split <;> rfl
@[simp] theorem Core.setPort_far : (c.setPort i p).far = c.far := by unfold Core.setPort; split <;> rfl
@[simp] theorem Core.setPort_sbw : (c.setPort i p).sbw = c.sbw := by unfold Core.setPort; split <;> rfl
@[simp] theorem Core.setPort_issued : (c.setPort i p).issued = c.issued := by unfold Core.setPort; split <;> rfl
@[simp] theorem Core.setPort_offTimed : (c.setPort i p).offTimed = c.offTimed := by unfold Core.setPort; split <;> rfl
@[simp] theorem Core.setPort_hold : (c.setPort i p).hold = c.hold := by unfold Core.setPort; split <;> rfl
@[simp] theorem Core.setPort_skipC : (c.setPort i p).skipC = c.skipC := by unfold Core.setPort; split <;> rfl
@[simp] theorem Core.setPort_jump : (c.setPort i p).jump = c.jump := by unfold Core.setPort; split <;> rfl
@[simp] theorem Core.setPort_codeBad : (c.setPort i p).codeBad = c.codeBad := by unfold Core.setPort; split <;> rfl
@[simp] theorem Core.setPort_codeHit : (c.setPort i p).codeHit = c.codeHit := by unfold Core.setPort; split <;> rfl
end setPort

section setStream
variable (c : Core) (st : BitVec 4) (l : List Nat)
@[simp] theorem Core.setStream_id : (c.setStream st l).id = c.id := rfl
@[simp] theorem Core.setStream_c : (c.setStream st l).c = c.c := rfl
@[simp] theorem Core.setStream_p : (c.setStream st l).p = c.p := rfl
@[simp] theorem Core.setStream_a : (c.setStream st l).a = c.a := rfl
@[simp] theorem Core.setStream_v0 : (c.setStream st l).v0 = c.v0 := rfl
@[simp] theorem Core.setStream_v1 : (c.setStream st l).v1 = c.v1 := rfl
@[simp] theorem Core.setStream_mp : (c.setStream st l).mp = c.mp := rfl
@[simp] theorem Core.setStream_xp : (c.setStream st l).xp = c.xp := rfl
@[simp] theorem Core.setStream_mxu : (c.setStream st l).mxu = c.mxu := rfl
@[simp] theorem Core.setStream_aflags : (c.setStream st l).aflags = c.aflags := rfl
@[simp] theorem Core.setStream_fb : (c.setStream st l).fb = c.fb := rfl
@[simp] theorem Core.setStream_ports : (c.setStream st l).ports = c.ports := rfl
@[simp] theorem Core.setStream_loops : (c.setStream st l).loops = c.loops := rfl
@[simp] theorem Core.setStream_rote : (c.setStream st l).rote = c.rote := rfl
@[simp] theorem Core.setStream_rotc : (c.setStream st l).rotc = c.rotc := rfl
@[simp] theorem Core.setStream_seg : (c.setStream st l).seg = c.seg := rfl
@[simp] theorem Core.setStream_ent : (c.setStream st l).ent = c.ent := rfl
@[simp] theorem Core.setStream_due : (c.setStream st l).due = c.due := rfl
@[simp] theorem Core.setStream_last : (c.setStream st l).last = c.last := rfl
@[simp] theorem Core.setStream_xfer : (c.setStream st l).xfer = c.xfer := rfl
@[simp] theorem Core.setStream_rotAt : (c.setStream st l).rotAt = c.rotAt := rfl
@[simp] theorem Core.setStream_sel : (c.setStream st l).sel = c.sel := rfl
@[simp] theorem Core.setStream_cur : (c.setStream st l).cur = c.cur := rfl
@[simp] theorem Core.setStream_idle : (c.setStream st l).idle = c.idle := rfl
@[simp] theorem Core.setStream_cmds : (c.setStream st l).cmds = c.cmds := rfl
@[simp] theorem Core.setStream_openR : (c.setStream st l).openR = c.openR := rfl
@[simp] theorem Core.setStream_heldR : (c.setStream st l).heldR = c.heldR := rfl
@[simp] theorem Core.setStream_inCnt : (c.setStream st l).inCnt = c.inCnt := rfl
@[simp] theorem Core.setStream_cq : (c.setStream st l).cq = c.cq := rfl
@[simp] theorem Core.setStream_rnum : (c.setStream st l).rnum = c.rnum := rfl
@[simp] theorem Core.setStream_streams : (c.setStream st l).streams = rset c.streams st l := rfl
@[simp] theorem Core.setStream_pend : (c.setStream st l).pend = c.pend := rfl
@[simp] theorem Core.setStream_watches : (c.setStream st l).watches = c.watches := rfl
@[simp] theorem Core.setStream_run : (c.setStream st l).run = c.run := rfl
@[simp] theorem Core.setStream_bit : (c.setStream st l).bit = c.bit := rfl
@[simp] theorem Core.setStream_wait : (c.setStream st l).wait = c.wait := rfl
@[simp] theorem Core.setStream_far : (c.setStream st l).far = c.far := rfl
@[simp] theorem Core.setStream_sbw : (c.setStream st l).sbw = c.sbw := rfl
@[simp] theorem Core.setStream_issued : (c.setStream st l).issued = c.issued := rfl
@[simp] theorem Core.setStream_offTimed : (c.setStream st l).offTimed = c.offTimed := rfl
@[simp] theorem Core.setStream_hold : (c.setStream st l).hold = c.hold := rfl
@[simp] theorem Core.setStream_skipC : (c.setStream st l).skipC = c.skipC := rfl
@[simp] theorem Core.setStream_jump : (c.setStream st l).jump = c.jump := rfl
@[simp] theorem Core.setStream_codeBad : (c.setStream st l).codeBad = c.codeBad := rfl
@[simp] theorem Core.setStream_codeHit : (c.setStream st l).codeHit = c.codeHit := rfl
end setStream

/-! ### Register files -/

@[simp] theorem Core.vf_setVf (c : Core) (u w : VU) (f : VFile) : (c.setVf u f).vf w = if w = u then f else c.vf w := by
  cases u <;> cases w <;> rfl

end Sys2Proof.Machine
end

