-- ==== Sys2Proof/Laws/Ops.lean ====
section
/-! SUPPORT. One lemma for each shared operation over registers, timed writes, the focus, traps and tiles: all that the operation can do. -/

namespace Sys2Proof.Machine

/-! ### Register files -/

/-- A register file after a write: the new value at its number, every other register as before. -/
theorem rget_rset {α : Type} {n k : Nat} (v : Vector α n) (i j : BitVec k) (x : α) (h : 2 ^ k ≤ n) :
    rget (rset v i x h) j h = if j = i then x else rget v j h := by
  unfold rget rset
  rw [Vector.getElem_set]
  have : i.toNat = j.toNat ↔ j = i := ⟨fun e => (BitVec.eq_of_toNat_eq e).symm, fun e => by rw [e]⟩
  simp only [this]

/-- A write through `setP`: its predicate alone changes, and `p0` never (10 R233). -/
theorem Core.setP_reads (c : Core) (i j : BitVec 4) (b : Bool) :
    (c.setP i b).p.getLsbD j.toNat = if j = i ∧ i ≠ 0 then b else c.p.getLsbD j.toNat := by
  unfold Core.setP
  by_cases hi : i = 0
  · simp [hi]
  · have hne : (i == 0) = false := by simpa using hi
    have hlt : j.toNat < 16 := j.isLt
    have hi16 : i.toNat < 16 := i.isLt
    have hbit : (BitVec.ofNat 16 (2 ^ i.toNat)).getLsbD j.toNat = decide (i.toNat = j.toNat) := by
      rw [BitVec.getLsbD_ofNat]; simp [hlt, Nat.testBit_two_pow]
    have hij : (i.toNat = j.toNat) ↔ j = i := ⟨fun e => (BitVec.eq_of_toNat_eq e).symm, fun e => by rw [e]⟩
    simp only [hne, Bool.false_eq_true, if_false]
    generalize BitVec.ofNat 16 (2 ^ i.toNat) = bit at hbit
    have hi' : ¬ i = 0#4 := hi
    cases b
    · simp only [Bool.false_eq_true, if_false, BitVec.getLsbD_and, BitVec.getLsbD_not, hbit, hij, hlt]
      by_cases hji : j = i <;> simp [hji, hi']
    · simp only [if_true, BitVec.getLsbD_or, hbit, hij]
      by_cases hji : j = i <;> simp [hji, hi']

/-- Reading a port after writing one. -/
theorem Core.getPort_setPort (s : State) (i j : Nat) (p : Port) (hi : i < 12) :
    (s.setCore (s.core.setPort i p)).getPort j = if j = i then p else s.getPort j := by
  unfold State.getPort Core.setPort State.setCore
  simp only [hi, dif_pos]
  by_cases hj : j < 12
  · simp only [hj, dif_pos]
    rw [Vector.getElem_set]
    by_cases h : j = i
    · simp [h]
    · simp [h, Ne.symm h]
  · have : j ≠ i := fun h => hj (h ▸ hi)
    simp [hj, this]

/-! ### Timed writes (10 R234) -/

/-- Inserting an action adds it and drops none. -/
theorem mem_insertPend (p q : Pend) : ∀ l : List Pend, q ∈ insertPend p l ↔ q = p ∨ q ∈ l
  | [] => by simp [insertPend]
  | x :: l => by
    unfold insertPend
    split
    · rw [List.mem_cons, mem_insertPend p q l, List.mem_cons]; tauto
    · simp

/-- The actions after `later`: the new one and those before. -/
theorem State.mem_later (s : State) (dt : Nat) (own : Bool) (a : Act) (q : Pend) :
    q ∈ (s.later dt own a).core.pend ↔ q = { time := s.gang.now + dt, iss := s.gang.now, own := own, act := a } ∨ q ∈ s.core.pend :=
  mem_insertPend _ _ _

/-- `later` changes the queue of timed actions and nothing else. -/
theorem State.later_eq (s : State) (dt : Nat) (own : Bool) (a : Act) :
    s.later dt own a = { s with core := { s.core with pend := (s.later dt own a).core.pend } } := rfl

/-- An action behind which none of the queue must stand goes to its end. -/
theorem insertPend_last (p : Pend) : ∀ l : List Pend, (∀ q ∈ l, q.before p = true) → insertPend p l = l ++ [p]
  | [], _ => rfl
  | x :: l, h => by
    unfold insertPend
    rw [if_pos (h x List.mem_cons_self), insertPend_last p l fun q hq => h q (List.mem_cons_of_mem _ hq), List.cons_append]

/-- Setting no flag changes nothing; setting some queues them. -/
theorem State.flagLater_zero (s : State) (dt : Nat) : s.flagLater dt 0 = s := rfl
theorem State.flagLater_of_ne {s : State} {dt : Nat} {f : Fl} (h : f ≠ 0) : s.flagLater dt f = s.later dt true (.flags f) := if_neg h

/-! ### The focus -/

theorem State.focusClu_self {s : State} {k : Nat} (h : s.clu.k = k) : s.focusClu k = s := if_pos h
theorem State.focus_self {s : State} {r : Nat} (h : s.rank = r) : s.focus r = s := if_pos h
theorem State.focusGang_self {s : State} {g : Nat} (h : s.gang.gid = g) : s.focusGang g = s := if_pos h
theorem State.focusId_self {s : State} {who : CoreId} (h : s.core.id = who) : s.focusId who = s := if_pos h

/-- Moving the focus between the cores of a gang moves nothing but the focus: memory, domain, dispatcher, host, package, agenda stay. -/
theorem State.focusClu_rest (s : State) (k : Nat) :
    (s.focusClu k).mem = s.mem ∧ (s.focusClu k).gang = s.gang ∧ (s.focusClu k).gangs = s.gangs ∧ (s.focusClu k).core = s.core ∧
    (s.focusClu k).cores = s.cores ∧ (s.focusClu k).dom = s.dom ∧ (s.focusClu k).pkg = s.pkg ∧ (s.focusClu k).traps = s.traps := by
  unfold State.focusClu
  split
  · simp
  · split <;> simp
theorem State.focus_rest (s : State) (r : Nat) :
    (s.focus r).mem = s.mem ∧ (s.focus r).gang = s.gang ∧ (s.focus r).gangs = s.gangs ∧ (s.focus r).dom = s.dom ∧ (s.focus r).pkg = s.pkg ∧
    (s.focus r).traps = s.traps := by
  unfold State.focus
  split
  · simp
  · split
    · simp
    · next c _ =>
      obtain ⟨h1, h2, h3, _, _, h4, h5, h6⟩ := State.focusClu_rest
        { s with core := c, cores := insertCore s.core (s.cores.filter (fun c => rankOf c.id != r)) } (r / 4)
      exact ⟨h1, h2, h3, h4, h5, h6⟩
theorem State.focusGang_rest (s : State) (g : Nat) :
    (s.focusGang g).mem = s.mem ∧ (s.focusGang g).dom = s.dom ∧ (s.focusGang g).pkg = s.pkg ∧ (s.focusGang g).traps = s.traps ∧
    (s.focusGang g).disp = s.disp ∧ (s.focusGang g).fw = s.fw := by
  unfold State.focusGang
  split
  · simp
  · split <;> simp [State.setBox]
theorem State.focusId_rest (s : State) (who : CoreId) :
    (s.focusId who).mem = s.mem ∧ (s.focusId who).dom = s.dom ∧ (s.focusId who).pkg = s.pkg ∧ (s.focusId who).traps = s.traps := by
  unfold State.focusId
  split
  · simp
  · cases who with
    | rank g r =>
      obtain ⟨a, _, _, b, c, d⟩ := State.focus_rest (s.focusGang g) r
      obtain ⟨a', b', c', d', _, _⟩ := State.focusGang_rest s g
      exact ⟨a.trans a', b.trans b', c.trans c', d.trans d'⟩
    | fw d =>
      obtain ⟨a', b', c', d', _, _⟩ := State.focusGang_rest s d
      exact ⟨a', b', c', d'⟩

/-! ### Traps -/

/-- A meaning that raises a trap always has a next state: the one that `takeTraps` gives. -/
theorem raise_eq (sl : Slot) (cls cause addr aux : Nat) (s : State) :
    raise sl cls cause addr aux s = .next (s.takeTraps
      [{ who := s.core.id, info := { cls := cls, cause := cause, slots := slotBit sl, addr := addr, aux := aux } }]) := rfl

/-- The trap of the core in focus, on a core of a group: the record is logged and notified, FWEVT bit 1 set, and the group stops or the context
faults; the traps of the step list it (17 R396-R403). -/
theorem State.takeTrap_group {s : State} {t : TrapRec} (hw : s.core.id = t.who) (hf : s.isFw = false) :
    s.takeTrap t =
      (let r := s.faultRec t.info (dispOf t.info.cls)
       let u := ((s.logFault s.die r).notifyFault r).fwEvent ((s.logFault s.die r).notifyFault r).die 1
       if dispOf t.info.cls = 0 then u.setGang { u.gang with run := .stopped, kind := 2 } else u.faultCtx u.gang.ctx) := by
  unfold State.takeTrap
  rw [State.focusId_self hw]
  simp only [hf, Bool.false_eq_true, if_false]

/-- A part that is atomic either completes without a trap, with its own next state, or leaves only its traps. -/
theorem atomic_cases (s0 : State) (r : Res) :
    (∃ s, r = .next s ∧ s.traps.length ≤ s0.traps.length ∧ atomic s0 r = .next s) ∨
    (∃ s, r = .next s ∧ s0.traps.length < s.traps.length ∧ atomic s0 r = .next (s0.takeTraps (s.traps.drop s0.traps.length))) ∨
    ((∀ s, r ≠ .next s) ∧ atomic s0 r = r) := by
  cases r with
  | next s =>
    by_cases h : s.traps.length ≤ s0.traps.length
    · exact .inl ⟨s, rfl, h, by simp [atomic, h]⟩
    · exact .inr (.inl ⟨s, rfl, by omega, by simp [atomic, h]⟩)
  | fault f => exact .inr (.inr ⟨(fun s h => by cases h), rfl⟩)
  | refused q => exact .inr (.inr ⟨(fun s h => by cases h), rfl⟩)

/-! ### Free values -/

/-- A free choice advances the counter alone; its outcome is the free function at the counter. -/
theorem State.choose_eq (s : State) : s.choose = (Config.freeBool s.draw, { s with draw := s.draw + 1 }) := rfl

/-! ### Results of vector forms (12 R275, R277) -/

theorem State.vput_reg (s : State) (u : VU) (n : BitVec 5) (rot : Bool) (lat : Nat) (x : Lanes) (m : W64) (fl : Fl) :
    s.vput u (.reg n rot) lat x m fl = .next ((s.later (lat - 1) true (.v u (s.rotated u n rot) x m)).flagLater (lat - 1) fl) := rfl
theorem State.mput_eq (s : State) (u : VU) (d : BitVec 3) (lat : Nat) (x m : W64) (fl : Fl) :
    s.mput u d lat x m fl = .next ((s.later (lat - 1) true (.m u d x m)).flagLater (lat - 1) fl) := rfl

/-- Reading the sources of a V-slot form: a source that cannot be read, or a pop that would read into an open range, traps; otherwise the form
goes on with the lanes, its ports popped (12 R278). -/
theorem State.withSrcs_cases (s : State) (u : VU) (l : List (VSrc × Bool)) (k : List Lanes → State → Res) :
    (l.mapM (fun x => s.src u x.1 x.2) = none ∧ s.withSrcs u l k = raise (vuSlot u) 5 0 0 0 s) ∨
    (∃ vs, l.mapM (fun x => s.src u x.1 x.2) = some vs ∧ (popsOf (l.map (·.1))).any s.popOpen = true ∧
      s.withSrcs u l k = raise (vuSlot u) 9 0 0 (s.popLink (popsOf (l.map (·.1)))) s) ∨
    (∃ vs, l.mapM (fun x => s.src u x.1 x.2) = some vs ∧ (popsOf (l.map (·.1))).any s.popOpen = false ∧
      s.withSrcs u l k = atomic s (k vs ((popsOf (l.map (·.1))).foldl State.pop s))) := by
  unfold State.withSrcs
  cases h : l.mapM (fun x => s.src u x.1 x.2) with
  | none => exact .inl ⟨rfl, rfl⟩
  | some vs =>
    cases hp : (popsOf (l.map (·.1))).any s.popOpen with
    | true => exact .inr (.inl ⟨vs, rfl, rfl, by simp [hp]⟩)
    | false => exact .inr (.inr ⟨vs, rfl, rfl, by simp [hp]⟩)

/-! ### Tiles -/

/-- Claims of bank ports change the list of claims alone. -/
theorem State.chargeAll_eq (dt : Nat) (wr : Bool) (c : Cap) : ∀ (l : List Nat) (s : State),
    s.chargeAll dt wr c l = { s with clu := { s.clu with charges := (s.chargeAll dt wr c l).clu.charges } }
  | [], _ => rfl
  | w :: l, s => by
    have h := State.chargeAll_eq dt wr c l (s.charge dt wr c w)
    unfold State.chargeAll at h ⊢
    rw [List.foldl_cons, h]; rfl

/-- What a table check that passes has found (02 R44). -/
theorem State.tileCheck_ok {s : State} {h : Nat} {hi : Option Nat} {c : Cap} (hc : s.tileCheck h hi = .ok c) :
    ∃ t, s.clu.tile? h = some t ∧ c = { h := h, ent := t.ent, born := t.born } ∧ (t.ent.lvl = true ∨ t.ent.owner.toNat = s.localRank) ∧
      ∀ k, hi = some k → k < t.ent.count := by
  unfold State.tileCheck at hc
  cases ht : s.clu.tile? h with
  | none => rw [ht] at hc; cases hc
  | some t =>
    rw [ht] at hc
    simp only at hc
    split at hc
    · cases hc
    · next ho =>
      have hown : t.ent.lvl = true ∨ t.ent.owner.toNat = s.localRank := by
        cases hl : t.ent.lvl with
        | true => exact .inl rfl
        | false => exact .inr (by simpa [hl] using ho)
      cases hi with
      | none => cases hc; exact ⟨t, rfl, rfl, hown, by simp⟩
      | some k =>
        simp only at hc
        split at hc
        · cases hc
        · next hk => cases hc; exact ⟨t, rfl, rfl, hown, by intro j hj; cases hj; omega⟩

/-! ### Issuing an access (06 R123, R126) -/

/-- An access of the core in focus takes the next number, follows its stream's frontier and becomes it. -/
theorem State.issueAccess_spec (s : State) (st : BitVec 4) (done : Bool) :
    (s.issueAccess st done).1 = s.mem.nextId ∧
    (let t := (s.issueAccess st done).2
     t.frontier st = [s.mem.nextId] ∧ t.mem.nextId = s.mem.nextId + 1 ∧ t.mem.bytes = s.mem.bytes ∧ t.mem.wlog = s.mem.wlog ∧
     t.core = s.core.setStream st [s.mem.nextId] ∧ t.clu = s.clu ∧ t.gang = s.gang ∧ t.cores = s.cores ∧ t.clus = s.clus ∧
     ∃ a ∈ t.mem.accs, a.id = s.mem.nextId ∧ a.preds = s.frontier st) := by
  have key : ∀ p : Nat × State, p = s.newAccess (.core s.core.id) s.die st (s.frontier st) done →
      s.issueAccess st done = (p.1, p.2.setCore (p.2.core.setStream st [p.1])) := by
    intro p hp; subst hp; rfl
  obtain ⟨h0, h1, h2, h3, _, _, h4, h5, h6, h7, h8, a, ha, ha1, ha2, _⟩ :=
    State.newAccess_spec s (.core s.core.id) s.die st (s.frontier st) done
  rw [key _ rfl]
  refine ⟨h0, ?_, h1, h2, h3, ?_, h5, h6, h7, h8, a, ha, ha1, ha2⟩
  · show rget (rset _ _ _) _ = _
    rw [rget_rset, if_pos rfl, h0]
  · rw [State.setCore_core, h4, h0]

/-! ### Reset -/

/-- Memory after reset is in canonical form. -/
theorem State.reset_mem_wf : State.reset.mem.bytes.wf = true := rfl

end Sys2Proof.Machine
end

