-- ==== Sys2Proof/Tests/Slice0.lean ====
section
/-! SUPPORT. Tests: words decoded, ill-formed terms refused, one step on small states, and for every obligation with hypotheses states and operands
that meet them (`test_meets_…`). -/

namespace Sys2Proof.Tests

open Sys2Proof Sys2Proof.Machine
section
set_option Elab.async false

/-! ### Words of every slot, written out from the encoding tables of 09 R216-R227 -/

/-- `mcall 0, acc1` (13 R306). -/
theorem test_decode_mcall : decodeSlot .m 0x0000000040020 = .ok (.mcall 0 1) := by decide +kernel
/-- `mdrain t52, acc1, mp2` (13 R314). -/
theorem test_decode_mdrain : decodeSlot .m 0x0020034400A0 = .ok (.mdrain 52 1 2 (.dir .rne) false) := by decide +kernel
/-- `mdrain.dith t32, acc3, mp4`. -/
theorem test_decode_mdrain_dith : decodeSlot .m 0x0044020C00A0 = .ok (.mdrain 32 3 4 .dither false) := by decide +kernel
/-- `lx xp2, xp4` (14 R345). -/
theorem test_decode_lx : decodeSlot .x 0x000210C0 = .ok (.lx 2 4 (.dir .rne) false) := by decide +kernel
/-- `send l1, t9, xp2, 10` (15 R362). -/
theorem test_decode_send : decodeSlot .f 0x004014012220 = .ok (.send 1 9 2 10) := by decide +kernel
/-- `relay l3, l4, xp2, 12`. -/
theorem test_decode_relay : decodeSlot .f 0x004018008660 = .ok (.relay 3 4 2 12) := by decide +kernel
/-- `waita p3, c3, 3000000` (11 R261). -/
theorem test_decode_waita : decodeSlot .c 0x0006005B8D806260 = .ok (.waita 3 3 3000000) := by decide +kernel
/-- `sign` (11 R257). -/
theorem test_decode_sign : decodeSlot .c 0x1A0 = .ok .sign := by decide +kernel
/-- `addi a4, a4, 1` (11 R268). -/
theorem test_decode_addi : decodeSlot .a 0x001000084300 = .ok (.addi 4 4 1) := by decide +kernel
/-- `compress.m v7, vm1` (12 R291). -/
theorem test_decode_compress : decodeSlot .v0 0x000000200000EA00 = .ok (.compressM .v0 (.reg 7 false) 1) := by decide +kernel
/-- `(!p3) fma v4, ip0, ip1, v4` with its guard (09 R213; 12 R280). -/
theorem test_decode_fma_guard :
    decodeSlotOp (BitVec.ofNat 384 (0x0000000243008093 * 2 ^ 112)) .v0 = .ok ⟨0x13, .fma ⟨.v0, .reg 4 false, .pop 0, .pop 1, .reg 4 false, 0⟩ .rne⟩ := by
  decide +kernel
/-- A reserved opcode of the C slot is refused (09 R222). -/
theorem test_decode_reserved : (decodeSlot .c 0x7E0).isOk = false := by decide +kernel
/-- A shorter row's word decodes as the table numbers it. -/
theorem test_decode_table : decodeTableWord 384 (0x1A0 + 0) = some .sign := by decide +kernel

/-! ### Well-formedness refuses what a load refuses: one ill-formed term for each check -/

theorem test_wf_loop_count : Instr.wf (.loop 0 3 0) = false := by decide
theorem test_wf_port_number : Instr.wf (.genSet 12 0 1) = false ∧ Instr.wf (.genArm 12) = false ∧ Instr.wf (.genArm 11) = true := by decide
theorem test_wf_stage_word : Instr.wf (.genSet 0 5 1) = false ∧ Instr.wf (.genSet 0 4 1) = true := by decide
theorem test_wf_talloc_result : Instr.wf (.talloc 1 2 0 0 0 false false 0) = false := by decide
theorem test_wf_copy_mask : Instr.wf (.copyV0 true 0 1) = false ∧ Instr.wf (.copyV1 true 0 1) = false ∧ Instr.wf (.copyV0 false 0 1) = true := by decide
theorem test_wf_compare_mask : Instr.wf (.fcmp .eq ⟨.v0, 0, .bc 0, .bc 1, 0⟩) = false ∧ Instr.wf (.icmp .eq ⟨.v0, 0, .bc 0, .bc 1, 0⟩) = false := by decide
theorem test_wf_mask_result : Instr.wf (.mskand ⟨.v0, 0, 1, 2, 0⟩) = false ∧ Instr.wf (.mskor ⟨.v0, 0, 1, 2, 0⟩) = false ∧
    Instr.wf (.mskxor ⟨.v0, 0, 1, 2, 0⟩) = false ∧ Instr.wf (.mskandn ⟨.v0, 0, 1, 2, 0⟩) = false ∧ Instr.wf (.msknot .v0 0 1 0) = false ∧
    Instr.wf (.mskfrom .v0 0 (.bc 0) 0) = false := by decide
theorem test_wf_fcvt : Instr.wf (.fcvt ⟨.v0, .reg 1 false, .bc 0, 0⟩ false 14 (.dir .rne) false) = false ∧
    Instr.wf (.fcvt ⟨.v0, .reg 1 false, .bc 0, 0⟩ true 5 (.feedback 1) false) = false := by decide
theorem test_wf_mgidx : Instr.wf (.mgidx 0 0) = false ∧ Instr.wf (.mgidx 0 17) = false ∧ Instr.wf (.mgidx 4 16) = false ∧ Instr.wf (.mgidx 3 16) = true := by decide
theorem test_wf_transfer_run : Instr.wf (.bxLd ⟨13, 0, .dir .rne, false, false, false, 0, none⟩) = false ∧
    Instr.wf (.bxSt ⟨0, 12, .dir .rne, false, false, true, 0, none⟩) = false ∧ Instr.wf (.bxCp ⟨12, 0, .dir .rne, false, false, false, 0, none⟩) = false ∧
    Instr.wf (.bxLd ⟨12, 12, .dir .rne, false, false, false, 0, none⟩) = true := by decide
theorem test_wf_lx_run : Instr.wf (.lx 15 0 (.dir .rne) false) = false ∧ Instr.wf (.lx 0 14 (.dir .rne) false) = false := by decide
theorem test_wf_sconce_run : Instr.wf (.atLd ⟨true, false, 0, 15, none⟩) = false ∧ Instr.wf (.atCas ⟨false, false, 0, 0, 15, none⟩) = false ∧
    Instr.wf (.atAdd ⟨true, false, 0, 15, 0, none⟩) = false ∧ Instr.wf (.atAdd ⟨false, false, 0, 15, 15, none⟩) = true := by decide
theorem test_wf_cqpop_run : Instr.wf (.cqPop 15) = false ∧ Instr.wf (.cqPop 14) = true := by decide
theorem test_wf_window_run : Instr.wf (.ingest ⟨12, 0, false, 0, none⟩) = false ∧ Instr.wf (.egress ⟨12, 0, false, 0, none⟩) = false := by decide
theorem test_wf_start : Instr.wf (.send 0 0 0 1) = false ∧ Instr.wf (.recv 0 0 0 1) = false ∧ Instr.wf (.relay 0 1 0 1) = false ∧ Instr.wf (.lchk 0 1) = false ∧
    Instr.wf (.mcast 1 0 0 1) = false ∧ Instr.wf (.send 0 0 0 2) = true := by decide
theorem test_wf_mcast_mask : Instr.wf (.mcast 0 0 0 2) = false := by decide
theorem test_wf_event : Instr.wf .coreArrival = false := by decide

/-! ### Small states -/

/-- A core of a group of one cluster at frame cycle 0 of an `ELASTIC` phase, with the bundle `w` due. -/
def gs (w : Nat) : State := State.reset.withFetchWord 384 w
/-- That core with nothing in its bundle. -/
def g : State := gs 0
/-- In a `LOCKSTEP` phase. -/
def lock : State := { g with gang := { g.gang with elastic := false } }
/-- The next step runs event `i`. -/
def due (i : Instr) : State := { State.reset with agenda := [.event i] }
/-- With another core, in focus. -/
def withCore (f : Core → Core) : State := { g with core := f g.core }
/-- An outcome that is a next state. -/
def okRes : Res → Bool
  | .next _ => true
  | _ => false
/-- The next state of an outcome, or `s`. -/
def nextOr (s : State) : Res → State
  | .next t => t
  | _ => s

/-! ### Steps, bundles and decoding -/

theorem test_meets_StepRunsTurn_event : (due .sealRequest).agenda = .event .sealRequest :: [] ∧ (due .sealRequest).live = true ∧ Instr.slot? .sealRequest = none := by
  decide +kernel
theorem test_meets_StepRunsTurn_gang : g.agenda = .gang 5 :: [] ∧ g.live = true ∧ g.hasGang 5 = true := by decide +kernel
theorem test_meets_StepRunsTurn_off :
    let s : State := { State.reset with pkg := { Pkg.reset with clk := { Pkg.reset.clk with off := true } } }
    s.agenda = [] ∧ s.pkg.clk.off = true := by decide +kernel
theorem test_meets_StepRunsTurn_notBooted :
    let s : State := { State.reset with pkg := { Pkg.reset with booted := false } }
    s.agenda = [] ∧ s.pkg.clk.off = false ∧ s.pkg.booted = false := by decide +kernel
theorem test_meets_StepRunsTurn_idle : State.reset.agenda = [] ∧ State.reset.live = true := by decide +kernel

/-- The bundle that holds `i` alone, with guard `p0`. -/
def word (i : Instr) : Nat := ((encodeBundle1 0 i).getD 0).toNat
/-- The hypotheses of `BundleRunsDecoded` on the entry due, its bundle and its one operation. -/
def runsOne (s : State) (sl : Slot) (gd : BitVec 5) (i : Instr) : Bool :=
  match s.core.cur.entries[s.core.ent]? with
  | some e => (s.preTrap e).isNone && (match decodeBundle s.gang.code.priv s.gang.code.fwCore e.bundle with
      | .ok b => b.slots.contains (sl, ⟨gd, i⟩) && b.slots.all (fun x => x.1 == sl || x.2.op == .nop)
      | .error _ => false)
      && i != .nop && i != .sign && i != .halt && s.guardTrue gd && !s.core.skipC && !s.core.hold
  | none => false
/-- An operation that issues, in the C slot and with a predicate guard in the M slot. -/
theorem test_meets_BundleRunsDecoded_issues :
    (let s := gs (word (.cmovi 2 7))
     let t := nextOr s (exec (.cmovi 2 7) s)
     runsOne s .c 0 (.cmovi 2 7) && okRes (exec (.cmovi 2 7) s) && t.traps == s.traps && !t.core.hold && t.core.run != .signed) = true := by decide +kernel
theorem test_meets_BundleRunsDecoded_issues_m :
    (let s := gs (word (.mzero 3))
     let t := nextOr s (exec (.mzero 3) s)
     runsOne s .m 0 (.mzero 3) && okRes (exec (.mzero 3) s) && t.traps == s.traps && !t.core.hold && t.core.run != .signed) = true := by decide +kernel
/-- One that traps. -/
theorem test_meets_BundleRunsDecoded_traps :
    (let s := gs (word (.trap 9))
     runsOne s .c 0 (.trap 9) && (nextOr s (exec (.trap 9) s)).traps.length == s.traps.length + 1) = true := by decide +kernel
/-- One that is held. -/
theorem test_meets_BundleRunsDecoded_held :
    (let s := gs (word (.waitb 3 true))
     let t := nextOr s (exec (.waitb 3 true) s)
     runsOne s .c 0 (.waitb 3 true) && t.traps == s.traps && t.core.hold) = true := by decide +kernel
/-- Entries that are ready, whose bundles issue, trap and hold. -/
theorem test_meets_BundleRunsDecoded_all :
    [.cmovi 2 7, .trap 9, .waitb 3 true].map (fun (i : Instr) =>
      let s := (gs (word i)).focus 0
      ((s.entry?.map (·.ready)) == some 0, match s.issueBundle with | .done _ => 0 | .trap _ => 1 | .held _ => 2)) = [(true, 0), (true, 1), (true, 2)] := by
  decide +kernel

/-- Instructions of every slot that are well-formed. -/
theorem test_meets_EncodeC : Instr.slot? (.loop 5 9 1) = some .c ∧ Instr.wf (.loop 5 9 1) = true := by decide
theorem test_meets_EncodeA : Instr.slot? (.genSet 11 4 31) = some .a ∧ Instr.wf (.genSet 11 4 31) = true := by decide
theorem test_meets_EncodeV : Instr.vu? (.fcvt ⟨.v1, .push 3, .peek 7, 7⟩ false 13 (.feedback 3) true) = some .v1 ∧
    Instr.wf (.fcvt ⟨.v1, .push 3, .peek 7, 7⟩ false 13 (.feedback 3) true) = true ∧ Instr.vu? (.movb .v0 7 (.bc 3) 63) = some .v0 ∧
    Instr.wf (.movb .v0 7 (.bc 3) 63) = true := by decide
theorem test_meets_EncodeMXF : Instr.slot? (.mgidx 3 16) = some .m ∧ Instr.wf (.mgidx 3 16) = true ∧ Instr.slot? (.atCas ⟨true, true, 15, 14, 14, some 31⟩) = some .x ∧
    Instr.wf (.atCas ⟨true, true, 15, 14, 14, some 31⟩) = true ∧ Instr.slot? (.mcast 15 4095 15 2) = some .f ∧ Instr.wf (.mcast 15 4095 15 2) = true := by decide

/-! ### The C slot -/

/-- Entry numbers up to NENT, and above it. -/
theorem test_meets_TransfersComplete : (let s := withCore fun c => c.setC 2 1024
    decide ((s.getC 2).toNat ≤ s.core.cur.nent) && decide ((g.getC 15).toNat ≤ g.core.cur.nent) &&
    (let s := withCore fun c => (c.setC 2 1025).setC 15 1025
     decide (s.core.cur.nent < (s.getC 2).toNat) && decide (s.core.cur.nent < (s.getC 15).toNat))) = true := by decide +kernel
/-- No level, one level, six levels; a count of 0 and one past 32 bits; a level at its END with iterations left and on its last one. -/
def lvl (trip iter : W32) : Level := { trip := trip, iter := iter, start := 1, stop := 4, ring := true }
theorem test_meets_LoopsComplete :
    (let six := withCore fun c => { c with loops := List.replicate 6 (lvl 2 0) }
     let one := withCore fun c => { c.setC 2 (2 ^ 40) with loops := [lvl 2 0] }
     g.core.loops == [] && g.getC 2 == 0 && decide (one.core.loops.length ≠ 6) && one.getC 2 != 0 && six.core.loops.length == 6 &&
     4 == (lvl 2 0).stop.toNat && decide ((lvl 2 0).iter.toNat + 1 < (lvl 2 0).trip.toNat) && decide ((lvl 2 1).iter.toNat + 1 = (lvl 2 1).trip.toNat)) = true := by
  decide +kernel
theorem test_meets_PhaseControlCompletes :
    (g.isFw = false ∧ g.core.mxu.busy = false ∧ g.lxBusy = false) ∧ (State.reset.isFw = true ∧ (State.reset.fwd State.reset.die).evt = 0) ∧
    (State.reset.fwEvent 4 1).isFw = true ∧ ((State.reset.fwEvent 4 1).fwd 4).evt ≠ 0 ∧ g.dom.st = .none ∧ g.requestSeal.dom.st = .requested ∧
    ({ g with dom := { g.dom with st := .closed } } : State).dom.st ≠ .none ∧
    (withCore fun c => { c with mxu := { c.mxu with chain := true } }).core.mxu.busy = true ∧
    (g.setClu { g.clu with lxs := [⟨0, 0, 0, ⟨0, ⟨false, false, 0, 0, 0, 0, 0, 0, 0⟩, 0⟩, ⟨0, ⟨false, false, 0, 0, 0, 0, 0, 0, 0⟩, 0⟩, 0, 0, 0, [], 0, .dither, false,
      0, 0, 0, 0, []⟩] }).lxBusy = true := by decide +kernel

/-- Context 0, whose page 0 stands in a frame of stack 0 at 0x20_0000, writable and present: a walk of three tables (02 R29). -/
def ctx0 : Ctx :=
  { id := 0, root := 0x8000, rbase := 0x100000, rtlim := 8, mbox := 0, mboxLen := 0x200000, egress := 0x100000, inlog := 0x140000, inlogLen := 0x10000,
    pool := 0x180000, poolLen := 0x40000, sync := Vector.replicate 5 (0, 63), faulted := false, torn := false, inlogUsed := 0, inlogLost := 0,
    egressUsed := 0, egressLost := 0, pkgs := [0], todo := [] }
def pageTables : Memory := [(0x8000, 1), (0x8002, 1), (0x10000, 1), (0x10001, 0x80), (0x10002, 1), (0x18000, 0x23), (0x18002, 0x20)]
/-- The core `g` in context 0, full service, stack 0 in service, the hub holding the lease. -/
def gc : State :=
  { g with fw := g.fw.set 4 { g.fw[4] with leads := true }, mem := { g.mem with bytes := pageTables }, pkg := { g.pkg with ctxs := [ctx0], inService := [0], cfgOk := true, clk := { g.pkg.clk with full := true } } }
/-- The firmware core of the hub with 1 GiB of shared window, whose first byte `c3` names. -/
def fwShared : State :=
  let s := State.reset
  { s with core := s.core.setC 3 (2 ^ 46), pkg := { s.pkg with cfg := { s.pkg.cfg with sharedGib := 1 } } }
/-- A packet of core `who` in the intake. -/
def packet (who : CoreId) : LRec := { bytes := List.replicate 64 0, queue := 0, ctx := 0, from_ := some who, preds := [], node := none }

theorem test_meets_EnqCompletes : gc.ctxOf gc.gang.ctx = some ctx0 ∧ ctx0.torn = false ∧ (gc.disp.intake.filter fun r => r.from_ == some gc.core.id).length < 4 := by
  decide +kernel
theorem test_meets_EnqCompletes_full :
    let s : State := { gc with disp := { gc.disp with intake := List.replicate 4 (packet gc.core.id) } }
    s.ctxOf s.gang.ctx = some ctx0 ∧ 4 ≤ (s.disp.intake.filter fun r => r.from_ == some s.core.id).length := by decide +kernel
theorem test_meets_WaitsComplete_waitb : g.lockstep = false ∧ (g.getFb 3).getLsbD 32 = false ∧ lock.lockstep = true := by decide +kernel
theorem test_meets_WaitsComplete_ended : (withCore fun c => { c with wait := .waita 5 1 9 (some false) }).lockstep = false := by decide +kernel
theorem test_meets_WaitsComplete_waita :
    fwShared.lockstep = false ∧ fwShared.core.wait = .none ∧ fwShared.sharedLine (fwShared.getC 3).toNat = some (2 ^ 40) ∧ fwShared.waitaReplay = none ∧
    fwShared.recalled (2 ^ 40) (fwShared.watchFrom (2 ^ 40)) = false ∧ fwShared.sharedLine (fwShared.getC 4).toNat = none ∧
    ({ fwShared with pkg := { fwShared.pkg with recalls := [(2 ^ 40, 1)] } } : State).recalled (2 ^ 40) (fwShared.watchFrom (2 ^ 40)) = true := by decide +kernel
theorem test_meets_WaitsComplete_replay :
    ({ fwShared with dom := { fwShared.dom with replay := [{ ri := 1, ctx := 0, in_ := .waita 0 0 0 true }] } } : State).waitaReplay = some true := by decide +kernel
theorem test_meets_SoftwareFaultsStop : g.isFw = false ∧ g.die < 5 := by decide +kernel
/-- Both sides of 0x200, TIME, and a chain with flags pending. -/
theorem test_meets_SystemRegistersComplete :
    g.privBad 0x1FF = false ∧ g.privBad 0x203 = false ∧ g.core.mxu.flagsPending = false ∧
    ({ g with gang := { g.gang with code := { g.gang.code with priv := false } } } : State).privBad 0x200 = true ∧
    (withCore fun c => { c with mxu := { c.mxu with chain := true, chainAccs := [1] } }).core.mxu.flagsPending = true ∧ g.core.aflags.toNat < 2 ^ 7 := by decide +kernel

/-! ### The A slot -/

/-- A cluster tile of 32 by 2 FP32 elements under handle 9, rank 0's; an INT8 tile of 128 by 128 under handle 16; a block-format tile under 17. -/
def tile (fmt : BitVec 5) (lvl : Bool) (n0 n1 : Nat) : Tile :=
  { ent := { lvl := lvl, retain := false, fmt := fmt, dims := 0, owner := 0, e0 := BitVec.ofNat 16 (n0 - 1), e1 := BitVec.ofNat 16 (n1 - 1), e2 := 0, e3 := 0 },
    data := [], poison := [], caps := 0, born := 0 }
def withTiles (s : State) (l : List (Nat × Tile)) : State := s.setClu { s.clu with tiles := l }
def gt : State := withTiles gc [(9, tile 0 false 32 2), (12, tile 0 true 64 64), (16, tile 5 false 128 128), (17, tile 10 false 32 4)]
def capOf (s : State) (h : Nat) : Cap := match s.tileCheck h none with | .ok c => c | .error _ => ⟨0, (tile 0 false 1 1).ent, 0⟩

/-- The last element, the one past it, a missing handle, a format out of service, a block format, open and held words. -/
theorem test_meets_TileScalarsComplete :
    gt.elemOff 0 63 = 63 ∧ gt.tileCheck 9 (some 63) = .ok (capOf gt 9) ∧ gt.fmtOk (capOf gt 9).ent.fmt = true ∧
    gt.rangeTrap 9 ((capOf gt 9).ent.wordsOf 63) false = none ∧ gt.rangeTrap 9 [(capOf gt 9).ent.wordOf 63] true = none ∧ isBlock (capOf gt 9).ent.fmt = false ∧
    gt.tileCheck 9 (some 64) = .error 6 ∧ gt.tileCheck 8 (some 0) = .error 7 ∧ isBlock (capOf gt 17).ent.fmt = true ∧
    ({ gt with pkg := { gt.pkg with clk := { gt.pkg.clk with full := false } } } : State).fmtOk 5 = false ∧
    (gt.setCore { gt.core with openR := [⟨9, 0, 1, 3⟩] }).rangeTrap 9 ((capOf gt 9).ent.wordsOf 63) false = some 0 ∧
    ((gt.setCore { gt.core with heldR := [⟨9, 0, 1, 3⟩] }).rangeTrap 9 [(capOf gt 9).ent.wordOf 63] true).isSome = true := by decide +kernel
/-- An aligned address that translates, one that is misaligned, one without a page. -/
theorem test_meets_FarAccessesComplete :
    let s := gc.setCore (((gc.core.setA 1 8).setA 2 9).setA 3 (2 ^ 51))
    s.lockstep = false ∧ s.farAddr 1 0 % 2 ^ 3 = 0 ∧ (s.translate (s.farAddr 1 0) false).1 = some (0x200008, true) ∧
    (s.translate (s.farAddr 1 0) true).1 = some (0x200008, true) ∧ s.farAddr 2 0 % 2 ^ 3 ≠ 0 ∧ (s.translate (s.farAddr 3 0) false).1 = none ∧
    (s.translate (s.farAddr 3 0) true).1 = none ∧ lock.lockstep = true := by decide +kernel

/-- Staging words of a generator over the 64 elements of tile `h` from element `b` on (10 R236). -/
def ps (h b : Nat) : Vector W64 5 := #v[BitVec.ofNat 64 (b + h * 2 ^ 32), BitVec.ofNat 64 (63 + 2 ^ 32), 0, 0, 0]
/-- Port 0 of `gt` staged for tile 9, port 1 past its end, port 2 with a reserved bit, port 8 for tile 12. -/
def gstaged : State :=
  let st (p : Vector W64 5) : Port := { Port.reset with stage := p }
  gt.setCore ((((gt.core.setPort 0 (st (ps 9 0))).setPort 1 (st (ps 9 1))).setPort 2 (st (ps 9 (2 ^ 44)))).setPort 8 (st (ps 12 0)))
def isOk {ε α : Type} : Except ε α → Bool
  | .ok _ => true
  | .error _ => false

theorem test_meets_GeneratorsAndTiles_arm :
    gstaged.armCheck 0 (gstaged.getPort 0).stage = .ok (capOf gt 9) ∧ gstaged.armCheck 8 (gstaged.getPort 8).stage = .ok (capOf gt 12) ∧
    gstaged.armCheck 1 (gstaged.getPort 1).stage = .error 6 ∧ gstaged.armCheck 2 (gstaged.getPort 2).stage = .error 8 ∧
    ((List.range (min (aheadOf (capOf gt 9).ent) (psNV (gstaged.getPort 0).stage))).any fun i =>
      gstaged.openHit 9 (vecWords (gstaged.getPort 0).stage (capOf gt 9).ent i)) = false := by decide +kernel
/-- A free handle with room and without, a handle in use, captured and not. -/
theorem test_meets_GeneratorsAndTiles_tiles :
    let e := allocEnt (gt.getA 1) 0 0 false false 0
    gt.tableView.tile? 5 = none ∧ e.extentsOk = true ∧ e.formatOk = true ∧ gt.tableView.fits e = true ∧
    (gt.setClu { gt.clu with nrows := Vector.replicate 4 0 }).tableView.fits e = false ∧ (gt.tableView.tile? 9).map (·.caps) = some 0 ∧
    ((gt.setClu (gt.clu.capture (capOf gt 9))).tableView.tile? 9).map (·.caps) = some 1 := by decide +kernel

/-! ### The V slots -/

/-- A port armed for tile `h` of `gt` at POS 0, its first vector read. -/
def armed (h : Nat) : Port :=
  { Port.reset with active := ps h 0, armed := true, pos := 0, cap := some (capOf gt h), buf := [(0, Lanes.splat 7, 0)] }
/-- Input port 0 armed for tile 9 and output port 8 for tile 12, and the core cycle that the first pop may use. -/
def gp : State :=
  let s := gt.setCore ((gt.core.setPort 0 (armed 9)).setPort 8 (armed 12))
  s.setGang { s.gang with now := 9 }
def rg (n : BitVec 5) : VSrc := .reg n false

/-- The sources of two-operand, one-operand and three-operand forms read, and register and port destinations take a result. -/
theorem test_meets_VectorIntegers : (gp.sources .v0 [(rg 1, true), (.pop 0, true)]).isSome = true ∧ (gp.sources .v1 [(.bc 2, true)]).isSome = true ∧
    (gp.popped [(rg 1, true), (.pop 0, true)]).dstReady .v0 (.reg 31 false) (Lanes.splat 1) 0 = true ∧
    (gp.popped [(rg 1, true), (.pop 0, true)]).dstReady .v0 (.push 0) (Lanes.splat 1) (BitVec.allOnes 64) = true := by decide +kernel
theorem test_meets_VectorFloats : (gp.sources .v0 [(rg 1, false), (.pop 0, true)]).isSome = true ∧
    (gp.sources .v0 [(.const 1, false), (.peek 0, false), (rg 31, false)]).isSome = true ∧
    (gp.popped [(rg 1, false), (.pop 0, true)]).dstReady .v0 (.push 0) (Lanes.splat 1) 1 = true := by decide +kernel
theorem test_meets_FminFmaxMean : (valOf 0x7FC00000).isNan = true ∧ (valOf 0x3F800000).isNan = false ∧ (valOf 0xBF800000).lt (valOf 0x3F800000) = true ∧
    (gp.sources .v0 [(rg 1, false), (rg 2, false)]).isSome = true ∧ gp.dstReady .v0 (.reg 1 false) (Lanes.splat 0) 0 = true := by decide +kernel
theorem test_meets_SelectsAndCompares : (gp.sources .v1 [(rg 1, true), (rg 2, true), (.pop 0, true)]).isSome = true ∧
    (gp.sources .v0 [(rg 1, false), (.peek 0, false)]).isSome = true := by decide +kernel
theorem test_meets_ReductionsAndScans : (gp.sources .v0 [(.pop 0, true)]).isSome = true ∧ (gp.sources .v0 [(.pop 0, false)]).isSome = true ∧
    (gp.popped [(.pop 0, true)]).dstReady .v0 (.push 0) (Lanes.splat 64) (BitVec.allOnes 64) = true := by decide +kernel
theorem test_meets_ScansAreTrees : (0 : Nat) < 63 ∧ 63 < 64 := by decide
theorem test_meets_VectorMovement : (gp.sources .v0 []).isSome = true ∧ (gp.sources .v0 [(rg 1, true), (.bc 3, true)]).isSome = true ∧
    gp.dstReady .v0 (.push 0) (Lanes.splat 0) 0 = true ∧ (0x8000000000000001 : W64).getLsbD 63 = true := by decide +kernel
theorem test_meets_MaskForms : (gp.sources .v1 [(rg 9, true)]).isSome = true ∧ gp.dstReady .v1 (.reg 0 false) (Lanes.splat 1) 1 = true := by decide +kernel

/-! ### Conversions, ports and formats -/

theorem test_meets_FcvtCompletes : isBlock ((5 : BitVec 4).setWidth 5) = false ∧ isBlock ((13 : BitVec 4).setWidth 5) = true ∧
    (gp.sources .v0 [(.pop 0, false)]).isSome = true ∧ (gp.sources .v0 [(.pop 0, false), (rg 3, true)]).isSome = true ∧
    (gp.popped [(.pop 0, false), (rg 3, true)]).dstReady .v0 (.push 0) (Lanes.splat 0) 1 = true := by decide +kernel
theorem test_meets_ResultsReachDestinations : (gp.getPort 8).cap = some (capOf gt 12) ∧ gp.dstReady .v0 (.push 0) (Lanes.splat 0x3F800000) 1 = true ∧
    okRes (gp.vput .v0 (.push 0) 4 (Lanes.splat 0x3F800000) 1 0) = true := by decide +kernel
/-- A vector that stands ready at the first cycle a pop may use it; a port not armed; an output port with no vector left. -/
theorem test_meets_PortsComplete : let p := gp.getPort 0
    p.cap = some (capOf gt 9) ∧ p.armed = true ∧ p.armIss + (if (capOf gt 9).ent.lvl then 9 else 6) ≤ gp.gang.now ∧ p.pos < psNV p.active ∧
    p.buf.find? (fun b => b.1 == p.pos) = some (p.pos, Lanes.splat 7, 0) ∧ gp.portVec 5 = none ∧ Instr.vu? (.mov ⟨.v0, .reg 0 false, .pop 5, 0⟩) = some .v0 ∧
    (gp.sources .v0 [(rg 1, false), (rg 2, false)]).isSome = true ∧ (gp.getPort 9).cap = none ∧
    psNV ({ armed 12 with pos := 1 } : Port).active ≤ ({ armed 12 with pos := 1 } : Port).pos := by decide +kernel
theorem test_meets_IntegerEncodings : Memory.wf [(0, 0xFF), (2, 1)] = true := by decide
theorem test_meets_Fp32RoundsToItself : (valOf 1).isNan = false ∧ (valOf 0x80000000).isNan = false ∧ (valOf 0xFF800000).isNan = false := by decide +kernel

/-! ### The M slot -/

/-- A BF16 tile of 128 by 128 under handle 18, named by `mp0` and `mp1`; an FP32 tile of 128 by 128 under 20; row indices 0 to 3 in `mp3`. -/
def gm : State :=
  let s := withTiles gc [(18, tile 1 true 128 128), (20, tile 0 true 128 128)]
  s.setCore ((((s.core.setMp 0 (18 * 2 ^ 52)).setMp 1 (18 * 2 ^ 52)).setMp 2 (18 * 2 ^ 52 + 128 * 2 ^ 32)).setMp 3 0x0003000200010000)
def oneRoutine : Routine := match gm.callCheck 0 1 with
  | .ok q => q
  | .error _ => ⟨0, [], 0, Vector.replicate 8 0, [], [], 0, 0, 0, false, 0, 0, none, []⟩
/-- With no routine, with one, with two; a routine without END; a chain with an end to come. -/
theorem test_meets_MatrixCalls : isOk (gm.callCheck 0 1) = true ∧ gm.core.mxu.q = [] ∧
    isOk ((gm.setMxu { gm.core.mxu with q := [oneRoutine] }).callCheck 0 3) = true ∧
    (match (gm.setMxu { gm.core.mxu with q := [oneRoutine, oneRoutine] }).callCheck 0 0 with | .error e => e == (1, 5, 0) | .ok _ => false) = true ∧
    (match (gm.setCore (gm.core.setMp 1 0)).callCheck 0 0 with | .error e => e == (7, 0, 0) | .ok _ => false) = true := by decide +kernel
theorem test_meets_MatrixForms : gm.core.mxu.chain = false ∧ gm.core.mxu.openChain (gm.gang.now + 1) (fun _ => true) = false ∧
    (let m := { gm.core.mxu with chain := true, chainEnd := 40, chainAccs := [2] }
     m.openChain (gm.gang.now + 1) (fun _ => true) = true ∧ m.openChain 40 (· == 2) = true ∧ m.openChain 41 (· == 2) = false ∧ m.chain = true) := by decide +kernel
theorem test_meets_MatrixDrains : let c := capOf gm 20
    gm.tileCheck 20 (some (0 + 16383)) = .ok c ∧ gm.fmtOk c.ent.fmt = true ∧ c.ent.fmt ≠ 14 ∧ (gm.getMp 4).toNat < 2 ^ 32 ∧ baseOk c.ent.fmt 0 = true ∧
    gm.rangeTrap 20 ((List.range (drainWords c.ent.fmt)).map (0 / epw c.ent.fmt + ·) ++ scaleWords c.ent 0 (drainWords c.ent.fmt)) true = none ∧
    gm.tileCheck 20 (some (1 + 16383)) = .error 6 ∧
    ({ gm.core.mxu with chain := true, chainEnd := 40, chainAccs := [2] } : Mxu).openChain (gm.gang.now + 1) (· == 2) = true := by decide +kernel
theorem test_meets_MatrixGathers : let c := capOf gm 18
    let w := gm.getMp 2
    let offs := (List.range 4).map fun i => descBase w + gm.gatherIdx 2 i * descStride w
    gm.tileCheck (descTile w) none = .ok c ∧ (∀ o ∈ offs, o + epw c.ent.fmt ≤ c.ent.count ∧ o % epw c.ent.fmt = 0) ∧ gm.fmtOk c.ent.fmt = true ∧
    (mclass c.ent.fmt).isSome = true ∧ isBlock c.ent.fmt = false ∧ baseOk c.ent.fmt (descBase w) = true ∧
    gm.openHit (descTile w) (offs.map (· / epw c.ent.fmt)) = false ∧ gm.tileCheck (descTile (gm.getMp 5)) none = .error 7 := by decide +kernel

/-! ### The X slot -/

/-- Bytes of the region table at 0x10_0000, of frame records at 0x11_8000, and the page tables: region 1 is a megabyte of FP32 in page 0's frame, region 2 a
megabyte of the shared window. -/
def regionBytes : Memory := pageTables ++
  [(0x100043, 7), (0x100047, 0x80), (0x100052, 0x10), (0x100059, 0x80), (0x10005A, 0x11), (0x100083, 7), (0x100087, 0x80), (0x100092, 0x10),
   (0x100099, 0x81), (0x10009A, 0x11), (0x118000, 0x23), (0x118002, 0x20), (0x118100, 0xC3), (0x118105, 0x40)]
/-- Parameter registers from `xp0` on. -/
def withXp (s : State) (l : List W64) : State := s.setCore ((l.zipIdx).foldl (fun c x => c.setXp (BitVec.ofNat 4 x.2) x.1) s.core)
/-- A block transfer's ends at `xp0` (region 1, tile 12) and a box of 64 elements at `xp8`. -/
def gx : State :=
  let s := withTiles { gc with mem := { gc.mem with bytes := regionBytes } } [(9, tile 0 false 32 2), (12, tile 0 true 64 64), (20, tile 0 true 128 128)]
  withXp s [1, 0, 12 * 2 ^ 52, 0, 0, 0, 0, 0, 0x0001000100010040, 1, 0, 0]
def ldOps : BxOps := ⟨0, 8, .dir .rne, false, false, false, 3, some 2⟩
/-- The ends of `BX.CP` and `EGRESS` (regions 1 and 2) and of `INGEST` (2 and 1), 64 bytes at `xp8`. -/
def gcp : State := withXp gx [1, 0, 1, 4096, 0]
def geg : State := withXp gx [1, 0, 2, 0, 0, 0, 0, 0, 64]
def gin : State := withXp gx [2, 0, 1, 0, 0, 0, 0, 0, 64]
def winOps : WinOps := ⟨0, 8, false, 3, none⟩

theorem test_meets_TransfersAccepted_passes :
    (gx.bxArgs opLd ldOps).reservedOk = true ∧ isOk (gx.ringOf (gx.bxArgs opLd ldOps).ring) = true ∧ isOk (gx.checkEnds (gx.bxArgs opLd ldOps)) = true ∧
    isOk (gx.checkEnds (gx.bxArgs opSt ldOps)) = true ∧ isOk (gcp.checkEnds (gcp.bxArgs opCp ldOps)) = true ∧
    isOk (geg.checkEnds (geg.winArgs opEgress winOps)) = true ∧ isOk (gin.checkEnds (gin.winArgs opIngest winOps)) = true ∧ gx.core.cmds < 256 := by
  decide +kernel
/-- A reserved bit, a ring that is no region, an end that is no region, the 257th command. -/
theorem test_meets_TransfersAccepted_fails :
    ((withXp gx [1, 2 ^ 44]).bxArgs opLd ldOps).reservedOk = false ∧ isOk (gx.ringOf 7) = false ∧ isOk (gx.ringOf 0) = true ∧
    isOk ((withXp gx [7]).checkEnds ((withXp gx [7]).bxArgs opLd ldOps)) = false ∧ 256 ≤ (gx.setCore { gx.core with cmds := 256 }).core.cmds := by decide +kernel
def schedEnt (k : Nat) : SchedEnt :=
  { stage := k, ring := 0, hA := 1, hB := 0, stream := 3, fb := none, rm := some (.dir .rne), sat := false, dig := false, dmw := false, op := opLd, offA := 0,
    endB := 12 * 2 ^ 52, gsx := 0, gsy := 0, gsz := 0, box := #v[0x0001000100010040, 1, 0, 0, 0] }
def schedOf (rank : Nat) : Sched := { rank := rank, ents := [schedEnt 0, schedEnt 0, schedEnt 1], ctr := 0, nxt := 0 }
def gsch (rank cmds : Nat) : State := { gx with core := { gx.core with cmds := cmds }, gang := { gx.gang with scheds := [(2, schedOf rank)] } }
theorem test_meets_TransfersAccepted_schedules :
    (gsch 0 253).gang.scheds.find? (fun x => x.1 == (2 : BitVec 2).toNat) = some ((2 : BitVec 2).toNat, schedOf 0) ∧ (schedOf 0).rank = (gsch 0 253).rank ∧
    ((schedOf 0).ents.takeWhile fun e => decide (e.stage < (schedOf 0).ctr + 1)).length = 2 ∧ (gsch 0 253).core.cmds + 2 + 1 ≤ 256 ∧
    256 < (gsch 0 254).core.cmds + 2 + 1 ∧ (schedOf 1).rank ≠ (gsch 1 0).rank := by decide +kernel
/-- The last variable of the context's range and the one past it; a word of region 1; reserved bits of an offset; an exact accumulator. -/
theorem test_meets_SconceOperationsIssue :
    ((withXp gx [63]).target false 0 0x0A).1.isSome = true ∧ ((withXp gx [64]).target false 0 0x0A).1 = none ∧ ((withXp gx [60]).target false 0 opXadd).1.isSome = true ∧
    ((withXp gx [61]).target false 0 opXadd).1 = none ∧ ((withXp gx [1, 8]).target true 0 0x0A).1.isSome = true ∧ ((withXp gx [1, 2 ^ 44]).target true 0 0x0A).1 = none ∧
    gx.core.cmds < 256 := by decide +kernel
theorem test_meets_WaitsAndRepliesComplete :
    let s := withXp gx [5]
    s.lockstep = false ∧ s.core.sbw = none ∧ s.core.cmds < 256 ∧ s.myCtx = some ctx0 ∧ (s.syncTarget ctx0 (s.getXp 0) false).isSome = true ∧ s.core.cq = [] ∧
    s.syncTarget ctx0 64 false = none ∧ (s.setCore { s.core with sbw := some ⟨7, false, true⟩ }).core.sbw = some ⟨7, false, true⟩ ∧
    lock.lockstep = true := by decide +kernel
/-- Tile 12 to tile 9, 64 elements, no permutation; an LXE with a later command outstanding; missing and short tiles. -/
def glx (a b : Nat) : State := withXp gx [BitVec.ofNat 64 (a * 2 ^ 52), BitVec.ofNat 64 (b * 2 ^ 52), 0x0001000100010040, 0x10001, 0]
theorem test_meets_LayoutCommandCompletes :
    let s := glx 12 9
    let ext := [64, 1, 1, 1, 1, 1]
    let cs := capOf gx 12
    let cd := capOf gx 9
    (dmwOf (s.xpAt 4) ext 6).isSome = true ∧ (s.xpAt 3).toNat < 2 ^ 32 ∧ boxN ext = 64 ∧ descStride (s.getXp 0) = 0 ∧ descStride (s.xpAt 1) = 0 ∧
    s.tileCheck 12 (some (0 + 64 - 1)) = .ok cs ∧ s.tileCheck 9 (some (0 + 64 - 1)) = .ok cd ∧ baseOk cs.ent.fmt 0 = true ∧ baseOk cd.ent.fmt 0 = true ∧
    isBlock cd.ent.fmt = false ∧ s.fmtOk cs.ent.fmt = true ∧ s.rangeTrap cs.h ((rangeWords cs.ent 0 64).1 ++ (rangeWords cs.ent 0 64).2) false = none ∧
    s.rangeTrap cd.h ((rangeWords cd.ent 0 64).1 ++ (rangeWords cd.ent 0 64).2) true = none ∧
    (glx 11 9).tileCheck 11 (some 63) = .error 7 ∧ (glx 12 11).tileCheck 11 (some 63) = .error 7 := by decide +kernel
theorem test_meets_LayoutCommandCompletes_accepts :
    okRes (exec (.lx 0 2 (.dir .rne) false) (glx 12 9)) = true ∧ (nextOr gx (exec (.lx 0 2 (.dir .rne) false) (glx 12 9))).clu.lxs.length = 1 ∧
    (let t := nextOr gx (exec (.lx 0 2 (.dir .rne) false) (glx 12 9))
     (t.clu.lxs.any fun o => !lxAccepts t.clu.lxs o) = true) := by decide +kernel

/-! ### The F slot -/

/-- A gang of four clusters in a row that wraps: links 1 and 3 exist, link 0 does not. Rank 0 sends words of tile 20: 256 in all. -/
def gf (w : W64) : State :=
  let s := withXp gx [w]
  { s with gang := { s.gang with g := 4, code := { s.gang.code with lw := 4, gmax := 16 } } }
def w1 : W64 := BitVec.ofNat 64 (1 * 2 ^ 32 + 254)
theorem test_meets_LinkTransfersRegister :
    (gf w1).gang.linkEnd 0 1 = some ⟨4, 3, 1, 7⟩ ∧ (gf w1).gang.linkEnd 0 3 = some ⟨12, 1, 3, 7⟩ ∧ (gf w1).gang.linkEnd 0 0 = none ∧
    (gf w1).gang.inDir 0 1 = some 67 ∧ (gf w1).gang.inDir 0 0 = none ∧ ((gf w1).getXp 0).toNat < 2 ^ 44 ∧ xferN w1 = 2 ∧ xferWord w1 = 254 ∧
    (gf w1).tileCheckWords 20 (254 + 2 - 1) = .ok (capOf gx 20) ∧ (gf w1).tileCheckWords 20 256 = .error 6 ∧
    (gf w1).gang.busyNow [(txEnd 1, 2, 3)] (gf w1).gang.now = false ∧ (gf w1).core.heldR.length < 16 ∧ (gf w1).core.openR.length < 16 ∧
    (gf w1).openHit 20 [254, 255] = false ∧ (gf w1).rangeTrap 20 [254, 255] true = none ∧ xferWord (2 ^ 32) = 0 ∧ 2 ^ 44 ≤ ((gf (2 ^ 44)).getXp 0).toNat := by decide +kernel
/-- A link already occupied up to the transfer's first frame cycle, and one cycle earlier; full held and open tables; an open word. -/
theorem test_meets_LinkTransfersRegister_refused :
    let busy (b : Nat) : State := { gf w1 with gang := { (gf w1).gang with now := 5, occ := [(txEnd 1, 0, b, 4), (rxEnd 67, 0, b, 4)] } }
    (busy 2).gang.busyNow [(txEnd 1, 2, 3)] 5 = true ∧ (busy 1).gang.busyNow [(txEnd 1, 2, 3)] 5 = false ∧ (busy 2).gang.busyNow [(rxEnd 67, 2, 3)] 5 = true ∧
    16 ≤ ((gf w1).setCore { (gf w1).core with heldR := List.replicate 16 ⟨20, 0, 1, 3⟩ }).core.heldR.length ∧
    ((gf w1).setCore { (gf w1).core with openR := [⟨20, 255, 1, 3⟩] }).openHit 20 [254, 255] = true := by decide +kernel

/-! ### Events of the sequencer -/

def gang (f : Gang → Gang) : State := { g with gang := f g.gang }
def half0 : Half := { Half.empty with entries := [{ bundle := 0, gap := 0, stamp := none, ready := 20, poisoned := false }], done := 0 }
/-- A descriptor that goes on to descriptor 1 or ends, with no request allowed to stop it. -/
def desc (succ : BitVec 10) : Desc := { fetchDesc with succ1 := succ, succ0 := succ, yieldP := false, budget := 5 }
def arrivedAt (d : Desc) : State :=
  let s := { g with core := { g.core with run := .arrived }, gang := { g.gang with t0 := [d, d], roff := 32 } }
  { s with pkg := { s.pkg with clk := { s.pkg.clk with full := true } } }
def slackAt (rst : Nat) (c : Core → Core) : State :=
  { g with core := c { g.core with run := .waitSlack }, gang := { g.gang with code := { g.gang.code with rst := List.replicate 4 (noSeg, rst) } } }

theorem test_meets_PhaseEventsComplete_start :
    (let s := gang fun x => { x with run := .start 0, kind := 2 }
     s.gang.run = .start 0 ∧ 0 ≤ s.gang.now ∧ s.gang.kind = 2) ∧
    (let s := gang fun x => { x with run := .start 0, kind := 1, next := some (false, 0) }
     s.gang.kind ≠ 2 ∧ s.gang.next = some (false, 0)) := by decide +kernel
theorem test_meets_PhaseEventsComplete_cores :
    (let s := withCore fun c => { c with run := .signed, due := 0 }
     s.core.run = .signed ∧ s.core.far = none ∧ s.core.due ≤ s.gang.now) ∧
    (∃ h ∈ (withCore fun c => { c with idle := [half0] }).core.idle, h.done ≤ g.gang.now) ∧
    (let s := slackAt 0 id
     s.core.run = .waitSlack ∧ s.slackSeg ≠ noSeg ∧ (∀ c ∈ s.cluCores, c.run ≠ .timed ∧ c.far = none) ∧ s.cluReceived = true ∧ (s.gang.code.segs[s.slackSeg]?).isSome = true) ∧
    (let s := slackAt noSeg id
     s.core.run = .waitSlack ∧ s.core.far = none ∧ s.slackSeg = noSeg ∧ s.signCause = none) ∧
    (slackAt noSeg fun c => { c with mxu := { c.mxu with chain := true } }).signCause = some 8 ∧ (slackAt noSeg id).isFw = false ∧ (slackAt noSeg id).die < 5 ∧ g.droppable = true := by decide +kernel
theorem test_meets_PhaseEventsComplete_last :
    (let s := arrivedAt (desc 1)
     s.gang.run = .phase ∧ s.allArrived = true ∧ s.gang.cur = some (desc 1) ∧ s.gang.req = Requests.none ∧ s.pkg.clk.pending = none ∧ s.pkg.clk.svcReq = false ∧
     (desc 1).yieldP = false ∧ s.gang.haltReq = false ∧ s.gang.succOf (desc 1).succ0 = some (false, 1) ∧ s.gang.succOf (desc 0x200).succ0 = none) ∧
    (let s := gang fun x => { x with t0 := [desc 1], wd := 20 }
     s.gang.cur = some (desc 1) ∧ s.gang.run = .phase ∧ 4 * (desc 1).budget.toNat ≤ s.gang.wd ∧ s.die < 5) := by decide +kernel

/-! ### Events of the memory system -/

/-- Access `n` of the core in focus on stream 0, with no predecessors. -/
def acc (n : Nat) : Access :=
  { id := n, who := .core g.core.id, die := 0, stream := 0, preds := [], seen := [], rmw := false, fence := none, mask := 0, fb := none, done := true, lost := false, ri := 1,
    vc := [1, 0, 0, 0, 0], ctx := 0 }
def withMem (f : MemSys → MemSys) : State := { gc with mem := f gc.mem }
/-- A read event of access 7 for register `a3`, its value in `v`. -/
def rev (v : Option (List Byte)) : REv := { id := 1, acc := 7, addr := 0x200000, n := 8, dst := .reg g.core.id 3, val := v }
/-- A write event of access 7: two bytes of a line of stack 0. -/
def wev (dies : List Nat) : WEv :=
  { id := 1, acc := 7, src := .bytes [(0x200000, 5), (0x200001, 6)], line := 0x200000, logged := true, home := 0, delivered := dies }

theorem test_meets_WaitEventsComplete :
    (let s := withCore fun c => { c with wait := .waitb 3 false }
     s.core.wait = .waitb 3 false ∧ (s.getFb 3).getLsbD 32 = false) ∧
    (let s := { (withCore fun c => { c with wait := .waita 9 1 0 none }) with pkg := { g.pkg with recalls := [(9, 1)] } }
     s.core.wait = .waita 9 1 0 none ∧ State.recalled s 9 1 = true ∧ 0 ≤ g.gang.now) ∧
    (let s : State := { (withMem fun m => { m with rq := [rev (some [1, 2])] }) with core := { gc.core with far := some 7 } }
     s.core.far = some 7 ∧ s.mem.rq.find? (fun e => e.acc == 7) = some (rev (some [1, 2])) ∧ s.mem.bytes.wf = true) ∧
    (let s : State := { gc with core := { gc.core with far := some 7 } }
     (∀ e ∈ s.mem.rq, e.acc ≠ 7) ∧ (∀ e ∈ s.mem.wq, e.acc ≠ 7)) ∧
    (let s := State.reset.fwEvent 4 1
     (s.setCore { s.core with run := .halted }).isFw = true ∧ (s.fwd s.die).evt ≠ 0) := by decide +kernel
/-- A wait of the due `SB.WAIT` on the variable that `xp0` names, whose GEN is 0. -/
theorem test_meets_WaitEventsComplete_barrier :
    let s0 := gs (word (.sbWait 0 0 false))
    let s : State := { s0 with mem := { s0.mem with accs := [acc 7] }, pkg := gc.pkg, core := { s0.core with sbw := some ⟨7, false, false⟩ } }
    (s.sbWaitHit.map (·.1)) = some ⟨7, false, false⟩ ∧ s.sbWaiters.head? = some s.core.id := by decide +kernel
theorem test_meets_MemoryEventsComplete_apply :
    let s := withMem fun m => { m with wq := [wev []], accs := [acc 7] }
    s.mem.bytes.wf = true ∧ s.mem.wq.find? (fun e => e.id == 1) = some (wev []) ∧ ((wev []).cells.map (·.1)).Nodup ∧ s.canApply (wev []) false = true ∧ (wev []).home < 5 := by
  decide +kernel
theorem test_meets_MemoryEventsComplete_deliver :
    let s := withMem fun m => { m with wlog := [wev [0]], accs := [acc 7] }
    s.mem.bytes.wf = true ∧ s.mem.wlog.find? (fun e => e.id == 1) = some (wev [0]) ∧ (∀ x ∈ s.mem.wlog, x.id = 1 → x = wev [0]) ∧ 4 ∉ (wev [0]).delivered ∧
    s.mem.predsDelivered 7 4 = true ∧ s.mem.clockOk (acc 7) 4 = true := by decide +kernel
/-- A `BX.LD` of access 7 that moves nothing, with its ring and place in its course. -/
def cmd (ring : Option Ring) (st : CmdSt) (recs : List Nat) : Cmd :=
  { id := 7, acc := 7, who := g.core.id, clu := 0, ctx := 0, op := opLd, stream := 0, fb := none, ring := ring, ri := 1, src := .tile (capOf gt 9) 0,
    dst := .tile (capOf gt 12) 0, ext := [0, 1, 1, 1, 1], str := [0, 0, 0, 0], dmw := none, rm := .dir .rne, sat := false, dig := false, data := [], words := [], bad := [], toWrite := [],
    bytes := 0, flags := 0, status := 0, fcode := 0, faddr := 0, frec := gt.cmdRec, inSeq := 0, st := st, recs := recs, names := [] }
theorem test_meets_MemoryEventsComplete_read :
    (let s := withMem fun m => { m with rq := [rev none], accs := [acc 7] }
     s.mem.rq.find? (fun e => e.id == 1) = some (rev none) ∧ s.mem.acc? 7 = some (acc 7) ∧ s.mem.predsDelivered 7 0 = true) ∧
    (let s := withMem fun m => { m with rq := [{ rev none with dst := .cmd 7 }], accs := [acc 7], cmds := [cmd none .run []] }
     s.mem.cmds.find? (fun x => x.id == 7) = some (cmd none .run []) ∧ (cmd none .run []).op ≠ opIngest ∧ s.mem.predsDelivered 7 0 = true) := by decide +kernel
/-- The last read event of a `READ`, and a byte of a page, which is of no reservation. -/
theorem test_meets_MemoryEventsComplete_host :
    (let s := withMem fun m => { m with rq := [{ rev none with dst := .host 7 }], accs := [acc 7] }
     s.mem.rq.find? (fun e => e.id == 1) = some { rev none with dst := .host 7 } ∧ s.mem.acc? 7 = some (acc 7) ∧ s.mem.predsDelivered 7 0 = true ∧ s.barrier = false) ∧
    gc.undoPlace 0x200000 = none ∧ gc.tagPlace 0x200000 = none ∧ gc.snapPlace 0x200000 = none ∧ gc.recordByte 0x200000 = none := by decide +kernel
/-- An operation on variable 5 of die 0, and one on a word of the shared window. -/
def sop (loc home : Nat) (sh : Bool) : SOp :=
  { id := 3, acc := 7, who := g.core.id, gid := 5, op := 0x0A, loc := loc, idx := none, home := home, v := 4, n := 0, np := false, fb := none, rnum := 0, inSeq := 0, shared := sh,
    ri := 1, ready := none }
theorem test_meets_SconceOperationsExecute :
    let s := withMem fun m => { m with ops := [sop (syncAt 0 5) 0 false], accs := [acc 7] }
    s.mem.bytes.wf = true ∧ s.mem.ops.find? (fun o => o.id == 3) = some (sop (syncAt 0 5) 0 false) ∧ s.mem.acc? 7 = some (acc 7) ∧ s.mem.predsDelivered 7 0 = true ∧
    s.dom.st ≠ .closed ∧ s.mem.clockRoom (acc 7) = true ∧ s.undoFullFor (sop (syncAt 0 5) 0 false).places 1 = false ∧ s.inlogFull 0 = false ∧ (∀ p ∈ s.pkg.peers, p.doorbell ≠ syncAt 0 5) ∧ exactOp 0x0A = false ∧
    (acc 7).who ≠ .hub := by decide +kernel

def rep (write : Bool) : Rep :=
  { id := 3, acc := 7, who := g.core.id, gid := 5, idx := none, home := 0, stream := 0, fb := none, write := write, reply := { value := 1, op := 8, fcode := 0, rnum := 2 }, fault := none }
/-- A completion ring of 4 records in page 0's frame, empty. -/
def ring1 : Ring :=
  { end_ := { handle := 1, virt := 0, len := 4096, off := 0, recs := [0x200023], fmt := 6, blen := 32, split := false, far := 0 }, log2n := 2 }
theorem test_meets_CommandsEnd_replies :
    (let s := withMem fun m => { m with reps := [rep true] }
     s.mem.reps.find? (fun r => r.id == 3 && r.write && !isFwId r.who) = some (rep true) ∧ (rep true).who = s.core.id ∧ s.core.cq.length < 64 ∧
     (∀ q ∈ s.mem.reps, q.write = true → q.who = (rep true).who → q.stream = (rep true).stream → q.home = (rep true).home → (rep true).id ≤ q.id) ∧
     (∀ o ∈ s.mem.ops, o.who = (rep true).who → o.home = (rep true).home → (rep true).id ≤ o.id)) ∧
    (withMem fun m => { m with reps := [rep false] }).mem.reps.find? (fun r => r.id == 3 && !r.write && !isFwId r.who) = some (rep false) := by decide +kernel
theorem test_meets_CommandsEnd_commands :
    (let s := withMem fun m => { m with cmds := [cmd none .run []] }
     s.mem.reps.find? (fun r => r.id == 7 && !r.write && !isFwId r.who) = none ∧ s.mem.cmds.find? (fun c => c.id == 7) = some (cmd none .run []) ∧
     s.cmdMoved (cmd none .run []) = true) ∧
    (let s := withMem fun m => { m with cmds := [cmd (some ring1) .record [8, 9]] }
     s.mem.cmds.find? (fun c => c.id == 7) = some (cmd (some ring1) .record [8, 9]) ∧ (∀ x ∈ [8, 9], s.mem.complete x = true)) ∧
    (let s := withMem fun m => { m with cmds := [cmd (some ring1) .run []] }
     s.mem.cmds.find? (fun c => c.id == 7) = some (cmd (some ring1) .run []) ∧ s.cmdMoved (cmd (some ring1) .run []) = true ∧
     s.mem.ringTurn (cmd (some ring1) .run []) ring1 = true ∧
     s.mem.predsDelivered 7 (homeOf (ring1.end_.phys ring1.end_.virt)) = true ∧
     (ring1.end_.natAt s.mem 8 8 + 2 ^ 64 - ring1.end_.natAt s.mem 16 8) % 2 ^ 64 ≠ 2 ^ ring1.log2n ∧
     (let full : MemSys := { s.mem with bytes := s.mem.bytes.write (ring1.end_.phys (ring1.end_.virt + 8)) [4] }
      (ring1.end_.natAt full 8 8 + 2 ^ 64 - ring1.end_.natAt full 16 8) % 2 ^ 64 = 2 ^ ring1.log2n)) := by decide +kernel
theorem test_meets_FenceCompletes : Scope.die ≠ .core ∧ (1 : BitVec 16) ≠ 0 ∧ (Scope.core = .core ∨ (1 : BitVec 16) = 0) := by decide
/-- Fences of each reach whose wait is over; a listed tag; a refresh batch of the last stack. -/
theorem test_meets_CommandsEnd_fences :
    [Scope.cluster, .system].all (fun sc =>
      let f : Access := { acc 7 with fence := some sc, mask := 1, done := false }
      let s := withMem fun m => { m with accs := [f] }
      s.mem.acc? 7 == some f && s.mem.fenceOver f sc) = true := by decide +kernel
theorem test_meets_CommandsEnd_sweep :
    (withMem fun m => m.setTag 0x8000 (some 3) 1).mem.tag (0x200000 / 64) = some 3 ∧ gc.dom.sealed = true ∧
    (let s : State := { gc with pkg := { gc.pkg with postponed := [11] } }
     11 ∈ s.pkg.postponed ∧ 11 ∉ s.pkg.refresh ∧ s.stackIdle 11 = true) := by decide +kernel

/-! ### Events of links, seals and recovery -/

/-- A transfer of `n` vectors of rank `r` that starts at frame cycle 7. -/
def xfer (id r : Nat) (k : FKind) (n : Nat) (buf : List (Nat × List Byte)) (bad : List (Nat × Nat)) : FXfer :=
  { id := id, rank := r, kind := k, start := 7, n := n, word := 0, cap := some (capOf gx 20), buf := buf, bad := bad, matched := true, done := false, iss := 1, seg := 0,
    ent := 0 }
def withXfers (sfc : W32) (l : List FXfer) : State :=
  let s := gf w1
  { s with gang := { s.gang with xfers := l, sfc := sfc } }
/-- A receive of rank 4 on link 3 is fed by the send of rank 0 on link 1 that left seven frame cycles before it, or by nothing. -/
def feed : FXfer := { xfer 1 0 (.send [1]) 2 [] [] with start := 0 }
theorem test_meets_LinkEventsComplete_matching :
    (withXfers 7 [feed, xfer 2 4 (.recv 3) 2 [] []]).gang.mismatches 7 = [] ∧ ((withXfers 7 [xfer 2 4 (.recv 3) 2 [] []]).gang.mismatches 7).length = 1 ∧
    (withXfers 7 []).gang.run = .phase := by decide +kernel
theorem test_meets_LinkEventsComplete_retries :
    (let x := xfer 2 4 (.recv 3) 2 [] []
     (withXfers 7 [x]).gang.xfers.find? (fun x => x.id == 2) = some x ∧ x.bad = [] ∧ x.done = false ∧ 1 < x.n ∧ x.vec 1 = none ∧ x.outs = [] ∧ x.inLink = some 3) ∧
    (let x := xfer 2 4 (.recv 3) 2 [] [(1, 14)]
     let s : State := { withXfers 10 [x] with core := { g.core with run := .arrived } }
     s.gang.xfers.find? (fun x => x.id == 2) = some x ∧ x.start + 1 + 1 < s.gang.sfc.toNat ∧ s.cluTimedEnded x.rank = true) ∧
    (let x := xfer 2 4 (.recv 3) 2 [(0, []), (1, [])] []
     x.matched = true ∧ x.bad = [] ∧ x.done = false ∧ (∀ i, i < x.n → (x.vec i).isSome = true)) := by decide +kernel
def stAt (st : SealSt) : State := { gc with dom := { gc.dom with st := st } }
theorem test_meets_SealEventsComplete :
    gc.dom.sealed = true ∧ ({ gc with dom := { gc.dom with sealed := false } } : State).dom.sealed = false ∧ gc.dom.st = .none ∧ (stAt .requested).dom.st = .requested ∧ (stAt .requested).gang.unarrived = true ∧ (stAt .requested).gang.sealed = false ∧
    ({ stAt .barrier with gang := { gc.gang with sealed := true } } : State).barrierReady = true ∧ (stAt .closed).sweepOk = true ∧
    (let s : State := { stAt .barrier with gang := { gc.gang with sealLeft := some 0 } }
     s.gang.sealLeft = some 0 ∧ s.gang.unarrived = true ∧ s.dom.st = .barrier) ∧ (0xFFFFFFFE : W32) ≠ 0xFFFFFFFF := by decide +kernel
theorem test_meets_SealEventsComplete_read :
    let s : State := { gc with dom := { gc.dom with held := [{ ri := 1, acc := 0, eff := .frame 0x81 0 0 0 0 [] }] } }
    ∃ h ∈ s.dom.held, ∃ a b c d e, h.eff = .frame 0x81 a b c d e := ⟨_, List.mem_singleton.mpr rfl, 0, 0, 0, 0, [], rfl⟩
/-- A peer with one unacknowledged frame, sending and receiving in context 0. -/
def peer : Peer :=
  { id := 77, port := 0, addr := 0, send := 1, recv := 1, doorbell := 0, producer := 8, ctx := 0, nextTx := 3, unacked := [(2, [1, 2])], nextRx := 4, posted := 0,
    lastRx := [], lost := false }
def gpeer : State := { gc with pkg := { gc.pkg with peers := [peer] } }
theorem test_meets_RecoveryEventsComplete :
    gc.dom.sealed = true ∧ gpeer.dom.pkgs.contains 77 = false ∧ gpeer.pkg.peers.find? (fun p => p.id.toNat == 77 && !p.lost) = some peer ∧
    (let s : State := { gc with dom := { gc.dom with pkgs := [0, 5] } }
     s.dom.pkgs.contains 5 = true ∧ 5 ≠ s.pkg.cfg.pkg.toNat) ∧
    gc.undoPlace 0x200000 = none ∧ gc.rolling = false ∧ ({ gc with agenda := [.auto (.rollback [])] } : State).rolling = true ∧
    Memory.wf pageTables = true := by decide +kernel
/-- A line of code-table entry 1 that an expansion of core 0 has read with an error, outside a phase; the line after it. -/
def badCode : State := { withCore fun c => { c with codeBad := [1], codeHit := [1] } with gang := { g.gang with run := .waiting, code := { g.gang.code with idx := 1 } } }
theorem test_meets_RecoveryEventsComplete_code :
    (badCode.allBoxes.findSome? fun b => b.latentIn (2 ^ 32 + 64)) = some badCode.core.id ∧ (badCode.allBoxes.findSome? fun b => b.latentIn (2 ^ 32 + 128)) = none ∧
    badCode.box.holdsCode (2 ^ 32 + 64) = true ∧ (badCode.box.coreNo badCode.core == 0) = true ∧ badCode.box.holdsCode 64 = false := by decide +kernel

/-! ### A page moves (03 R73) -/

theorem byteAt_get {m : MemSys} {a : Nat} (hl : m.wlog = []) (ha : a < 2 ^ 60) : m.byteAt none a = m.bytes.get a := by
  have : isFar a = false := by simp only [isFar, decide_eq_false_iff_not]; omega
  simp [MemSys.byteAt, this, hl]

theorem get_unlisted : ∀ (m : Memory) (a : Nat), (∀ x ∈ m, x.1 ≠ a) → m.get a = Memory.blank
  | [], _, _ => rfl
  | (k, b) :: m, a, h => by
    have hk : a ≠ k := fun e => h (k, b) List.mem_cons_self e.symm
    rw [Memory.get, if_neg hk]; split
    · rfl
    · exact get_unlisted m a fun x hx => h x (List.mem_cons_of_mem _ hx)
/-- Context 0 with one page, between two seals. -/
def gmove : State :=
  { gc with gang := { gc.gang with run := .boundary }, dom := { gc.dom with atSeal := true }, pkg := { gc.pkg with ctxs := [{ ctx0 with rtlim := 1 }] } }
/-- Of each of its three tables only entry 0 holds anything. -/
theorem gmove_entry (base i : Nat) (hb : base = 0x8000 ∨ base = 0x10000 ∨ base = 0x18000) (hi : i < 2048) (h : gmove.mem.natAt none (base + 16 * i) 8 ≠ 0) : i = 0 := by
  by_contra h0
  refine h ?_
  have hz : ∀ j, j < 8 → gmove.mem.byteAt none (base + 16 * i + j) = 0 := fun j hj => by
    rw [byteAt_get rfl (by omega)]
    refine get_unlisted _ _ ?_
    intro x hx
    simp [gmove, gc, pageTables] at hx
    rcases hx with rfl | rfl | rfl | rfl | rfl | rfl | rfl <;> rcases hb with rfl | rfl | rfl <;> simp only [ne_eq] <;> omega
  have h1 := hz 0 (by decide)
  rw [Nat.add_zero] at h1
  simp [MemSys.natAt, MemSys.bytesAt, List.range, List.range.loop, hz, ofBytes, h1]
theorem gmove_tables (base n : Nat) (hb : base = 0x8000 ∨ base = 0x10000 ∨ base = 0x18000) (hn : n ≤ 2048) (t : Nat) (ht : t ∈ gmove.subTables base n) :
    t ∈ gmove.subTables base 1 := by
  simp only [State.subTables, List.mem_filterMap, List.mem_range] at *
  obtain ⟨i, hi, he⟩ := ht
  have : i = 0 := gmove_entry base i hb (by omega) (fun h => by simp [h] at he)
  exact ⟨i, by omega, he⟩
theorem gmove_root (t : Nat) (ht : t ∈ gmove.subTables 0x8000 2048) : t = 0x10000 := by
  have := gmove_tables _ _ (.inl rfl) (by decide) t ht
  rwa [show gmove.subTables 0x8000 1 = [0x10000] by decide +kernel, List.mem_singleton] at this
theorem gmove_leafTables (t : Nat) (ht : t ∈ gmove.leafTables { ctx0 with rtlim := 1 }) : t = 0x18000 := by
  obtain ⟨r, hr, ht⟩ := List.mem_flatMap.mp ht
  rw [gmove_root r hr] at ht
  have := gmove_tables _ _ (.inr (.inl rfl)) (by decide) t ht
  rwa [show gmove.subTables 0x10000 1 = [0x18000] by decide +kernel, List.mem_singleton] at this
theorem gmove_leaves (x : Nat × Nat) (hx : x ∈ gmove.leaves { ctx0 with rtlim := 1 }) : x = (0x18000, 0x200023) := by
  obtain ⟨t, ht, hx⟩ := List.mem_flatMap.mp hx
  rw [gmove_leafTables t ht] at hx
  simp only [List.mem_filterMap, List.mem_range] at hx
  obtain ⟨i, hi, he⟩ := hx
  have h0 : i = 0 := gmove_entry _ i (.inr (.inr rfl)) (by omega) (fun h => by simp [h] at he)
  subst h0
  have : gmove.mem.natAt none (0x18000 + 16 * 0) 8 = 0x200023 := by decide +kernel
  simp [this] at he
  exact he.symm
theorem gmove_frame : gmove.frameUsed 0x400000 = false := by
  have hr : gmove.allRegions { ctx0 with rtlim := 1 } = [] := by decide +kernel
  have hc : gmove.records { ctx0 with rtlim := 1 } = [] := by simp [State.records, State.regions, hr]
  simp only [State.frameUsed, show gmove.pkg.ctxs = [{ ctx0 with rtlim := 1 }] from rfl, List.any_cons, List.any_nil, Bool.or_false, State.ctxMaps, hr, hc]
  simp only [Bool.or_eq_false_iff, List.any_eq_false, Bool.and_eq_false_iff, decide_eq_false_iff_not]
  refine ⟨⟨fun t ht => ?_, fun x hx => ?_⟩, ?_⟩
  · rcases List.mem_cons.mp ht with rfl | ht
    · decide
    · rcases List.mem_append.mp ht with ht | ht
      · rw [gmove_root t ht]; decide
      · rw [gmove_leafTables t ht]; decide
  · rw [gmove_leaves x hx]; decide
  · right; decide
/-- Page 0 of context 0 moves to the next frame. -/
theorem test_meets_RecoveryEventsComplete_page :
    (match gmove.ctxOf (BitVec.ofNat 16 0) with
     | some c => (match gmove.ctxLeaf c (0 * 2 ^ 21) with
        | some e => bits e 5 5 == 1 && gmove.mayMove (leafPcls e) 0x400000 && (gmove.mem.cmds.all fun k => !k.touches (leafFrame e)) && !gmove.mem.opTouches (leafFrame e)
        | none => false)
     | none => false) = true ∧
    gmove.dom.atSeal = true ∧ gmove.barrier = false ∧ gmove.mem.wq = [] ∧ gmove.mem.wlog = [] ∧ gmove.mem.rq = [] ∧ (∀ l ∈ gmove.mem.undo.toList, l = []) ∧
    0x400000 % 2 ^ 21 = 0 := by decide +kernel

/-! ### The dispatcher -/

def setQ (s : State) (f : Queue → Queue) : State := s.setQueue 0 fun q => f { q with v := true, ringOff := 0x10000 }
/-- A code object for one cluster with one entry and no tile, as code-table entry 0, GEN 1, of context 0. -/
def obj1 : CodeObj := { CodeObj.fw with entries := [⟨0, 8⟩], t0 := [fetchDesc], rst := List.replicate 4 (noSeg, noSeg) }
/-- Context 0 with room for a save area, queue 0 in service with one record in its ring at 0x1_0000 of the mailbox. -/
def gq : State :=
  let s := setQ gc fun q => q
  { s with mem := { s.mem with bytes := pageTables ++ [(0x210000, 1)] },
           pkg := { s.pkg with ctxs := [{ ctx0 with poolLen := 0x1200000 }], codes := [⟨0, 1, 0, true, obj1⟩] } }
/-- A record with the words above CODE in `k`. -/
def recOf (h k : Nat) : LRec := { bytes := toBytes 8 h ++ toBytes 56 k, queue := 0, ctx := 0, from_ := none, preds := [], node := none }
/-- ROFF 16, SEALD 1, every other field 0. -/
def fields1 : Nat := 16 * 2 ^ 160 + 2 ^ 128
def launch1 : Launch := gq.newLaunch 0 (recOf 0 fields1) obj1 [] []
def withLaunch (f : Launch → Launch) : State := { gq with disp := { gq.disp with launches := [f launch1] } }
/-- Group 5, fresh, alone on cluster 0. -/
def placed : State := nextOr gq (execGroupPlacement 1 [0] (withLaunch id))

theorem test_meets_DispatcherComplete_records :
    gq.ctxOf (gq.queueOf 0).ctx = some { ctx0 with poolLen := 0x1200000 } ∧ gq.loadVa { ctx0 with poolLen := 0x1200000 } 0x10000 16 = some (toBytes 16 1) ∧
    ofBytes ((toBytes 16 1).take 8) = 1 ∧ ofBytes ((toBytes 16 1).drop 8) = 0 ∧
    (gq.loadVa { ctx0 with poolLen := 0x1200000 } (0x10000 + 64 + 64 * (0 % 2 ^ (gq.queueOf 0).log2n.toNat)) 64).isSome = true ∧ (gq.queueOf 0).v = true ∧
    (gq.queueOf 0).ringOff = 0x10000 ∧ (gq.queueOf 0).fifo = [] ∧ gq.barrier = false ∧ gq.ctxLive (gq.queueOf 0).ctx = true ∧
    (∀ a, gq.ctxPa { ctx0 with poolLen := 0x1200000 } 0x10008 = some a → gq.roomFor [a / 64 * 64] gq.dom.ri = true ∧ gq.mem.lineWaits (a / 64 * 64) = false) ∧
    (gc.queueOf 0).v = false ∧ ({ gq with disp := { gq.disp with intake := [recOf 0 0] } } : State).disp.intake.find? (fun r => r.target == 0) = some (recOf 0 0) ∧
    (gq.queueOf 0).ctx = (recOf 0 0).ctx := by decide +kernel
theorem test_meets_DispatcherComplete_refused :
    let s := setQ gc fun q => { q with fifo := [recOf 5 fields1] }
    (s.queueOf 0).fifo = [recOf 5 fields1] ∧ (s.ctxOf 0).isSome = true ∧ (recOf 5 fields1).isGraph = false ∧ s.headFree 0 = true ∧
    (match s.checkRecord (recOf 5 fields1) ctx0 with | .error st => st == 1 | .ok _ => false) = true := by decide +kernel

theorem ofBytes_toBytes_append : ∀ (n x : Nat) (l : List Byte), x < 2 ^ (8 * n) → ofBytes (toBytes n x ++ l) = x + 2 ^ (8 * n) * ofBytes l
  | 0, x, l, h => by simp [toBytes] at *; omega
  | n + 1, x, l, h => by
    have e : 2 ^ (8 * (n + 1)) = 256 * 2 ^ (8 * n) := by rw [Nat.mul_add, Nat.pow_add]; omega
    have := ofBytes_toBytes_append n (x >>> 8) l (by rw [Nat.shiftRight_eq_div_pow]; omega)
    simp only [toBytes, List.cons_append, ofBytes, BitVec.toNat_ofNat]
    rw [this, e, Nat.shiftRight_eq_div_pow, Nat.mul_assoc]
    omega
theorem bits_above (h k hi lo : Nat) (hh : h < 2 ^ 64) (hl : 64 ≤ lo) : bits (h + 2 ^ 64 * k) hi lo = bits (2 ^ 64 * k) hi lo := by
  obtain ⟨m, rfl⟩ := Nat.exists_eq_add_of_le hl
  simp only [bits, Nat.shiftRight_add]
  congr 2
  simp only [Nat.shiftRight_eq_div_pow]; omega
theorem checkRecord_disp (s : State) (d : Disp) (r : LRec) (c : Ctx) (hd : (({ s with disp := d } : State).queueOf r.target).v = (s.queueOf r.target).v)
    (he : (({ s with disp := d } : State).queueOf r.target).ctx = (s.queueOf r.target).ctx) :
    ({ s with disp := d } : State).checkRecord r c = s.checkRecord r c := by
  have h1 : ({ s with disp := d } : State).vaReadable = s.vaReadable := rfl
  have h2 : ({ s with disp := d } : State).loadVa = s.loadVa := rfl
  have h3 : ({ s with disp := d } : State).schedule = s.schedule := rfl
  have h4 : fieldBad ({ s with disp := d } : State) = fieldBad s := rfl
  simp only [State.checkRecord, hd, he, h1, h2, h3, h4]
theorem checkRecord_setQ (s : State) (l : List LRec) (r : LRec) (c : Ctx) (ht : r.target = 0) :
    (setQ s fun q => { q with fifo := l }).checkRecord r c = (setQ s id).checkRecord r c := by
  refine checkRecord_disp (setQ s id) (setQ s fun q => { q with fifo := l }).disp r c ?_ ?_ <;>
    simp only [ht, setQ, State.setQueue, State.queueOf, rget_rset _ _ _ _ (show 2 ^ 6 ≤ 64 by decide), if_true, id]
/-- A record with the fields of `fields1` above a handle of `obj1` is accepted. -/
theorem checkRecord_accepts (r : LRec) (hc : gq.pkg.codeOf (BitVec.ofNat 64 (bits r.n 63 0)) 0 = some obj1) (hr : r.ctx = 0)
    (ha : ∀ hi lo, 64 ≤ lo → bits r.n hi lo = bits (2 ^ 64 * fields1) hi lo) :
    (setQ gq id).checkRecord r { ctx0 with poolLen := 0x1200000 } = .ok (obj1, List.replicate 8 0, []) := by
  have hp : (setQ gq id).pkg = gq.pkg := rfl
  simp only [State.checkRecord, fieldBad, reservedFields, List.any_cons, List.any_nil, recX, recY, recZ, recRows, LRec.target, hr, hp, hc]
  simp (disch := omega) only [ha]
  decide +kernel
theorem codeHandle_low (b i g c : Nat) : (codeHandle b i g c).toNat % 2 ^ 32 = (g * 2 ^ 16 + i) % 2 ^ 32 := by
  rw [codeHandle, BitVec.toNat_ofNat]
  generalize handleTag b i g c = t
  omega
/-- The handle of `obj1` is opaque; the record that holds it is accepted. -/
theorem test_meets_DispatcherComplete_accepted : ∃ r,
    let s := setQ gq fun q => { q with fifo := [r] }
    (s.queueOf 0).fifo = [r] ∧ (s.ctxOf r.ctx).isSome = true ∧ r.isGraph = false ∧ s.headFree 0 = true ∧
    s.checkRecord r { ctx0 with poolLen := 0x1200000 } = .ok (obj1, List.replicate 8 0, []) := by
  obtain ⟨H, hH⟩ : ∃ H, H = codeHandle 0 0 1 0 := ⟨_, rfl⟩
  have hz : H.toNat % 2 ^ 32 = 2 ^ 16 := by rw [hH]; exact codeHandle_low 0 0 1 0
  have hc : gq.pkg.codeOf (BitVec.ofNat 64 H.toNat) 0 = some obj1 := by
    have h1 : gq.pkg.codes = [⟨0, 1, 0, true, obj1⟩] := rfl
    have h2 : bits H.toNat 15 0 = 0 := by simp only [bits]; omega
    have h3 : gq.pkg.boots = 0 := rfl
    simp only [Pkg.codeOf, BitVec.ofNat_toNat, BitVec.setWidth_eq, h1, h2, h3, List.find?_cons, BEq.rfl, Bool.and_self]
    exact if_pos ⟨trivial, hH⟩
  obtain ⟨h, hh⟩ : ∃ h, h = H.toNat := ⟨_, rfl⟩
  have hs : h < 2 ^ 64 := hh ▸ H.isLt
  rw [← hh] at hz hc
  have hn : (recOf h fields1).n = h + 2 ^ 64 * fields1 := by
    rw [LRec.n, recOf, ofBytes_toBytes_append 8 h _ hs, show ofBytes (toBytes 56 fields1) = fields1 by decide +kernel]
  have hb : bits (recOf h fields1).n 63 0 = h := by rw [hn]; simp only [bits]; omega
  have ha : ∀ hi lo, 64 ≤ lo → bits (recOf h fields1).n hi lo = bits (2 ^ 64 * fields1) hi lo := fun hi lo g => by rw [hn, bits_above h fields1 hi lo hs g]
  refine ⟨recOf h fields1, rfl, rfl, ?_, rfl, ?_⟩
  · rw [LRec.isGraph, hb]; simp only [beq_eq_false_iff_ne]; omega
  · rw [checkRecord_setQ _ _ _ _ (by rw [LRec.target, ha _ _ (by decide)]; decide +kernel)]
    exact checkRecord_accepts _ (by rw [hb]; exact hc) rfl ha
/-- Group 5 in run state `r` of launch 1, the executing group of cluster 0. -/
def grp (r : GangRun) : State :=
  { gq with gang := { gq.gang with run := r, launch := 1, code := obj1, t0 := [fetchDesc] },
            disp := { gq.disp with launches := [launch1], sets := [{ clusters := [0], exec := some 5, sliceStart := 0, groups := [5], hold := false }] } }
/-- Four cores due at a bundle with PP. -/
def quiet : State :=
  let c := fun (c : Core) => { c with run := .timed, cur := { half0 with entries := [{ bundle := 1#384 <<< (Slot.c.base + 63), gap := 0, stamp := none, ready := 0, poisoned := false }] } }
  { g with core := c g.core, cores := g.cores.map c, gang := { g.gang with req := { Requests.none with hard := true } } }
theorem test_meets_DispatcherComplete_launches :
    (let s := withLaunch fun l => { l with waitEn := true, waitOk := false }
     (s.launchOf 1).isSome = true ∧ s.ctxLive launch1.ctx = true ∧
     launch1.waitVal.toNat ≤ s.mem.natAt none (s.syncLoc (bits launch1.waitVar 26 24) (bits launch1.waitVar 23 0)) 8 % 2 ^ 32) ∧
    (let s := withLaunch id
     s.launchOf 1 = some launch1 ∧ (s.savePlace { ctx0 with poolLen := 0x1200000 } (saveSize launch1.g)).isSome = true ∧ s.offers launch1 = true ∧
     s.placeable launch1.code launch1.g [0] = true ∧ s.roomOn [0] (launch1.crows, launch1.nrows.toList) = true ∧ s.ctxOf launch1.ctx ≠ none) ∧
    (let l := { launch1 with ended := 1 }
     (withLaunch fun _ => l).launchOf 1 = some l ∧ l.ended = l.total ∧ l.doneEn = false ∧ l.node = none) := by decide +kernel
theorem test_meets_DispatcherComplete_groups :
    (let s := grp .fresh
     (s.boxOf 5).isSome = true ∧ s.gang.run = .fresh ∧ s.launchOf s.gang.launch = some launch1 ∧ s.gang.code.entries[launch1.entry]? = some ⟨0, 8⟩ ∧
     ((s.setOf 5).map (·.exec)) = some (some 5) ∧ s.dom.st ≠ .closed) ∧
    quiet.hardReady = true ∧
    (let s : State := { grp .evicted with disp := { gq.disp with evicted := [5] } }
     (s.boxOf 5).isSome = true ∧ s.gang.run = .evicted ∧ s.ctxLive s.gang.ctx = true ∧
     (s.disp.evicted.filter fun g => match s.boxOf g with | some x => x.gang.queue == s.gang.queue | none => false).head? = some 5 ∧
     s.placeable s.gang.code s.gang.g [0] = true ∧ s.roomOn [0] s.box.rows = true) ∧
    (let s := setQ gq fun q => { q with fifo := [recOf 0 0] }
     (s.queueOf 0).fifo = [recOf 0 0] ∧ s.ctxOf 0 ≠ none ∧ (recOf 0 0).isGraph = true ∧ s.headFree 0 = true ∧ s.disp.graphs.length < 16 ∧
     s.hostWritesDone = true ∧ (recOf 0 0).preds.all s.mem.complete = true ∧
     (let r := recOf 0 (3 * 2 ^ (240 - 64))
      r.isGraph = true ∧ (0 : BitVec 6).toNat ≠ r.target.toNat)) := by decide +kernel
/-- A job of context 0 while no gang is in its phase. -/
def job (j : Job) : State := { grp .waiting with pkg := { gq.pkg with jobs := [{ id := 3, seq := 0, ctx := 0, tag := 0, job := j }] } }
theorem test_meets_DispatcherComplete_jobs :
    ((job (.invalidate 0 0 64 [5])).jobOf 3).isSome = true ∧ (∀ b ∈ (job (.invalidate 0 0 64 [5])).boxOf 5, b.gang.run ≠ .phase) ∧
    (let s := job (.region 0 1 (toBytes 64 0))
     s.ctxOf 0 ≠ none ∧ s.ctxInPhase 0 = false ∧ s.barrier = false ∧ s.stored 0 = true ∧ s.mem.cmds = [] ∧ s.opNames 0 1 = false ∧
     (Region.ofNat (ofBytes (toBytes 64 0))).v = false ∧ s.roomFor [0x100040] s.dom.ri = true) ∧
    (let img := (List.range 64).map fun i => regionBytes.get (0x100040 + i)
     let s := job (.region 0 1 img)
     let r := Region.ofNat (ofBytes img)
     r.v = true ∧ r.malformed = false ∧ s.pinPages ctx0 r = some [0x200023] ∧ bits 0x200023 5 5 = 1 ∧ leafPcls 0x200023 ≠ 3 ∧
     s.roomFor [0x100040, r.flist] s.dom.ri = true) ∧
    (let s := job (.table 5 true [fetchDesc])
     (s.boxOf 5).isSome = true ∧ s.gang.active ≠ true ∧ s.box.inPhase = false ∧ s.gang.run ≠ .fresh ∧ tableOk s.gang.code [fetchDesc] s.gang.t0 = true) ∧
    (let s := job (.routine 255 (List.replicate 32 7) [63])
     (List.replicate 32 (7 : W64)).length ≤ 32 ∧ (255 : Nat) < 256 ∧ s.clusterInPhase 63 = false) := by decide +kernel

/-! ### The host -/

/-- A command frame of context 0 with argument words `l`, its number expected. -/
def cmdF (l : List W64) : CmdFrame := { seq := 0, ctx := 0, tag := 9, args := l }
/-- What the machine `s` is in when it runs command `op`. -/
def ran (s : State) (op : Byte) (l : List W64) : State := (s.accepted op (cmdF l)).2
/-- The machine `gx` with a peer's connection and its number. -/
def gh : State := { gx with pkg := { gx.pkg with peers := [peer] } }
def readOf (h : Nat) : HostRead := { acc := h, seq := 0, ctx := 0, tag := 9, pieces := [(0x200000, 8)], data := [] }

theorem test_meets_HostFramesComplete :
    gh.pkg.booted = true ∧ gh.host.seq = 0 ∧ gh.ctxOf 0 = some ctx0 ∧ gh.inlogFull 0 = false ∧ gh.barrier = false ∧ gh.host.pendq = [] ∧
    0x10000 + 64 ≤ ctx0.mboxLen ∧ gh.readsHeld < 256 ∧
    (vaPieces (ctx0.mbox + 0x10000) 64).mapM (fun p => (gh.ctxPa ctx0 p.1).map fun a => (a, p.2)) = some [(0x210000, 64)] ∧ isShared (2 ^ 46) = true ∧
    64 * (2 ^ 46 / 64) ∉ gh.mem.owned ∧ gh.pkg.peers.find? (fun p => p.id.toNat == 77 && !p.lost) = some peer ∧ peer.nextRx = 4 := by decide +kernel
/-- The last read event of a `READ`. -/
theorem test_meets_HostFramesComplete_read :
    let e := { rev none with dst := .host 7 }
    let s : State := { withMem fun m => { m with rq := [e], accs := [{ acc 7 with who := .hub, die := 4 }] } with host := { gc.host with reads := [readOf 7] } }
    s.mem.rq.find? (fun e => e.id == 1) = some e ∧ (s.mem.acc? e.acc).isSome = true ∧ s.mem.predsDelivered 7 4 = true ∧ s.barrier = false ∧
    s.host.reads.find? (fun r => r.acc == 7) = some (readOf 7) ∧ (∀ x ∈ s.mem.rq, x.acc = 7 → x.id = 1) := by decide +kernel

/-! ### The driver commands -/

theorem get_listed : ∀ (m : Memory) (lo a : Nat) (x : Byte), Memory.wfFrom lo m = true → (a, x) ∈ m → m.get a = x
  | [], _, _, _, _, h => absurd h List.not_mem_nil
  | (k, b) :: m, lo, a, x, hw, h => by
    simp only [Memory.wfFrom, Bool.and_eq_true] at hw
    rcases List.mem_cons.mp h with h | h
    · cases h; simp [Memory.get]
    · have hlt : k < a := by
        by_contra hn
        have : ∀ (m : Memory) lo, Memory.wfFrom lo m = true → ∀ y ∈ m, lo ≤ y.1 := by
          intro m
          induction m with
          | nil => intro _ _ y hy; cases hy
          | cons y m ih =>
            intro lo hw z hz
            obtain ⟨j, c⟩ := y
            simp only [Memory.wfFrom, Bool.and_eq_true, decide_eq_true_eq] at hw
            rcases List.mem_cons.mp hz with rfl | hz
            · exact hw.1.1
            · have := ih _ hw.2 z hz; have := hw.1.1; omega
        have := this m _ hw.2 _ h
        simp only at this; omega
      rw [Memory.get, if_neg (by omega), if_neg (by omega)]
      exact get_listed m _ a x hw.2 h
/-- Tables of a new context: 4 GiB of unlogged pages from address 0 on, all in frame 0, then one logged page. -/
def newTables : Memory :=
  [(0x8000, 1), (0x8002, 1), (0x10000, 1), (0x10001, 0x80), (0x10002, 1), (0x10010, 1), (0x10011, 0x80), (0x10012, 1), (0x10020, 1), (0x10022, 2)]
    ++ (List.range 1024).map (fun i => (0x18000 + 16 * i, 0x43)) ++ [(0x20000, 0x63)]
def gnew : State := { State.reset with fw := State.reset.fw.set 4 { State.reset.fw[4] with leads := true }, mem := { MemSys.reset with bytes := newTables }, pkg := { Pkg.reset with cfgOk := true, inService := [0] } }
def newArgs : List W64 := [0x8000, 0x100000, 8, 2048, 0, 2 ^ 32, 0]
theorem newTables_wf : Memory.wfFrom 0 newTables = true := by decide +kernel
theorem gnew_leaf (s : State) (hm : s.mem.bytes = newTables) (hl : s.mem.wlog = []) (i : Nat) (hi : i < 1024) : s.mem.natAt none (0x18000 + 16 * i) 8 = 0x43 := by
  have h0 : s.mem.byteAt none (0x18000 + 16 * i) = 0x43 := by
    rw [byteAt_get hl (by omega), hm]
    refine get_listed _ 0 _ _ newTables_wf ?_
    simp only [newTables, List.mem_append, List.mem_map, List.mem_range]
    exact .inl (.inr ⟨i, hi, rfl⟩)
  have hz : ∀ j, 0 < j → j < 8 → s.mem.byteAt none (0x18000 + 16 * i + j) = 0 := fun j hj hj' => by
    rw [byteAt_get hl (by omega), hm]
    refine get_unlisted _ _ ?_
    intro x hx
    simp only [newTables, List.mem_append, List.mem_map, List.mem_range, List.mem_cons, List.not_mem_nil, or_false] at hx
    rcases hx with (hx | ⟨k, hk, rfl⟩) | rfl
    · rcases hx with rfl | rfl | rfl | rfl | rfl | rfl | rfl | rfl | rfl | rfl <;> simp only [ne_eq] <;> omega
    · simp only [ne_eq]; omega
    · simp only [ne_eq]; omega
  simp [MemSys.natAt, MemSys.bytesAt, List.range, List.range.loop, hz, h0, ofBytes]
/-- What the machine is in when it creates the context. -/
def unew : State := ran gnew 1 newArgs
theorem unew_leaf (c : Ctx) (hc : c.root = 0x8000) (i : Nat) (hi : i < 2048) : unew.ctxLeaf c (0 + 2 ^ 21 * i) = some 0x43 := by
  have e1 : unew.mem.natAt none 0x8000 8 = 0x10001 := by decide +kernel
  have e2 : unew.mem.natAt none 0x10000 8 = 0x18001 := by decide +kernel
  have e3 : unew.mem.natAt none 0x10010 8 = 0x18001 := by decide +kernel
  have b1 : bits (0 + 2 ^ 21 * i) 63 52 = 0 := by simp only [bits, Nat.shiftRight_eq_div_pow]; omega
  have b2 : bits (0 + 2 ^ 21 * i) 51 41 = 0 := by simp only [bits, Nat.shiftRight_eq_div_pow]; omega
  have b3 : bits (0 + 2 ^ 21 * i) 40 31 = i / 1024 := by simp only [bits, Nat.shiftRight_eq_div_pow]; omega
  have b4 : bits (0 + 2 ^ 21 * i) 30 21 = i % 1024 := by simp only [bits, Nat.shiftRight_eq_div_pow]; omega
  have e4 : unew.mem.natAt none (0x10000 + 16 * (i / 1024)) 8 = 0x18001 := by
    rcases (by omega : i / 1024 = 0 ∨ i / 1024 = 1) with h | h <;> rw [h]
    · exact e2
    · exact e3
  have e5 := gnew_leaf unew rfl rfl (i % 1024) (Nat.mod_lt _ (by decide))
  have n1 : bits 0x10001 47 15 * 2 ^ 15 = 0x10000 := by decide
  have n2 : bits 0x18001 47 15 * 2 ^ 15 = 0x18000 := by decide
  have n3 : (decide (0x10001 % 2 = 0 ∨ bits 0x10001 14 1 ≠ 0 ∨ bits 0x10001 63 48 ≠ 0)) = false := by decide
  have n4 : (decide (0x18001 % 2 = 0 ∨ bits 0x18001 14 1 ≠ 0 ∨ bits 0x18001 63 48 ≠ 0)) = false := by decide
  simp only [State.ctxLeaf, State.walkFrom, hc, b1, b2, b3, b4, Nat.mul_zero, Nat.add_zero, e1, n1, e4, n2, e5, n3, n4, ne_eq, not_true_eq_false, if_false, Bool.false_eq_true]
  rfl
theorem unew_area (c : Ctx) (hc : c.root = 0x8000) (n : Nat) (hn : n / 2 ^ 21 ≤ 2048) : unew.pagesAre c 0 n (unew.hbmLeaf false) = true := by
  refine List.all_eq_true.mpr fun i hi => ?_
  rw [unew_leaf c hc i (by have := List.mem_range.mp hi; omega)]
  decide +kernel
/-- A context that is not refused: one page of mailbox, an egress area, 1 GiB of input log, no pool. -/
theorem test_meets_CommandsComplete_ctxCreate :
    gnew.takes 1 (cmdF newArgs) = true ∧ unew.pkg.cfgOk = true ∧ createArgsOk (cmdF newArgs) = true ∧ unew.createRefusal (unew.ctxOfArgs (cmdF newArgs)) = none := by
  have hm : unew.pagesAre (unew.ctxOfArgs (cmdF newArgs)) (unew.ctxOfArgs (cmdF newArgs)).mbox (unew.ctxOfArgs (cmdF newArgs)).mboxLen (unew.hbmLeaf true) = true := by
    decide +kernel
  have h1 := unew_area (unew.ctxOfArgs (cmdF newArgs)) rfl (2 ^ 32) (by decide)
  have h2 := unew_area (unew.ctxOfArgs (cmdF newArgs)) rfl (2 ^ 30) (by decide)
  have hp : unew.pagesAre (unew.ctxOfArgs (cmdF newArgs)) (unew.ctxOfArgs (cmdF newArgs)).pool (unew.ctxOfArgs (cmdF newArgs)).poolLen (unew.hbmLeaf true) = true := by
    decide +kernel
  have he : (unew.ctxOfArgs (cmdF newArgs)).egress = 0 := by decide +kernel
  have hi : (unew.ctxOfArgs (cmdF newArgs)).inlog = 0 := by decide +kernel
  have hn : (unew.ctxOfArgs (cmdF newArgs)).inlogLen = 2 ^ 30 := by decide +kernel
  refine ⟨by decide +kernel, by decide +kernel, by decide +kernel, ?_⟩
  simp only [State.createRefusal, hm, he, hi, hn, h1, h2, hp]
  rfl

/-- A sealed object of one segment whose one entry is a NOP bundle, in pieces of 64 bytes. Its records are those of 09 R201, R202 and R205, with one place for records
that are alike; its digests are those of SHA-512 and CRC-32C, computed outside the model. -/
@[irreducible] def image : List Byte :=
  [0x200000001C00000018000000140000001400000010000000000000000000000000400000001000000000011010100000000000002C0000000014F435359,
   0x100,
   0x0,
   0x7B3E8A31D72C8F1746951CE5FA0BA1B514A6E88FF429391C313C7286AD482993E2B5985A4416A7641EB742E8F21941A05996C5FB84D4B2AA86582D6A1302F14E,
   0x0,
   0x500000000000080200000000000000000000000000000000000000000,
   0xFFFFFFFF00000000FFFFFFFF00000000FFFFFFFF00000000FFFFFFFF00000000,
   0x240,
   0x100000100,
   0xAB57E3DD00000000FFFFFFFFFFFFFFFF0000000100000002,
   0xE0000000].flatMap (toBytes 64)
/-- The image in region 1's page. -/
def gobj : State := { gx with mem := { gx.mem with bytes := regionBytes ++ (image.zipIdx.map fun x => (0x200000 + x.2, x.1)).filter fun x => x.2 != 0 } }
/-- A region 3 of 2^44 - 1 bytes, whose frame records lie above everything listed. -/
def gbig : State := { gx with mem := { gx.mem with bytes := Memory.store gx.mem.bytes (((0x1000C3, 7) :: (0x1000C7, 0x80) :: (List.range 5).map fun i => (0x1000D0 + i, 255)) ++ [(0x1000D5, 0x0F), (0x1000DB, 0x40)]) } }
theorem test_meets_CommandsComplete_codeLoad :
    gobj.takes 3 (cmdF [1, 0]) = true ∧ (let u := ran gobj 3 [1, 0]
      u.pkg.cfgOk = true ∧ (u.ctxOf 0).isSome = true ∧ cmdOnly (cmdF [1, 0]) [[(63, 0)], [(43, 0)]] = true ∧
      ((u.regionBytes ctx0 1 0 256).bind fun b => u.regionBytes ctx0 1 0 (max 256 (ofBytes ((b.drop 8).take 8)))) = some image ∧ u.pkg.freeCode.1 ≤ 65535) := by decide +kernel
theorem test_meets_CommandsComplete_image : Obj.refusal image.toArray false = none := by decide +kernel
theorem test_meets_CommandsComplete_memory :
    (gx.takes 2 (cmdF []) = true ∧ (ran gx 2 []).pkg.cfgOk = true ∧ ((ran gx 2 []).ctxOf 0).isSome = true ∧ cmdOnly (cmdF []) [] = true) ∧
    (let l : List W64 := [1, 0x10000]
     gx.takes 5 (cmdF l) = true ∧ cmdOnly (cmdF l) [[(39, 0)], [(29, 0)]] = true ∧ ((ran gx 5 l).loadVa ctx0 0x10000 64).isSome = true) ∧
    (let l : List W64 := [0, 2 ^ 52]
     gx.takes 6 (cmdF l) = true ∧ cmdOnly (cmdF l) [[(51, 0)], [(52, 0)]] = true ∧ cmdArg (cmdF l) 2 ≤ 2 ^ 52) ∧
    (let l : List W64 := [255, 1, 0]
     gx.takes 10 (cmdF l) = true ∧ cmdOnly (cmdF l) [[(7, 0)], [(63, 0)], [(43, 0)]] = true ∧ 6 ≤ cmdArg (cmdF l) 1 ∧ ((ran gx 10 l).regionBytes ctx0 1 0 256).isSome = true) := by
  decide +kernel
theorem test_meets_CommandsComplete_queues :
    (let l : List W64 := [63, 1, 0]
     gx.takes 7 (cmdF l) = true ∧ cmdOnly (cmdF l) [[(5, 0)], [(63, 0)], [(63, 0)]] = true ∧ queueDescOk 1 = true ∧ bits 1 63 48 = ctx0.id.toNat) ∧
    (let l : List W64 := [256, 1]
     gx.takes 8 (cmdF l) = true ∧ cmdOnly (cmdF l) [[(5, 0), (8, 8)], [(1, 0)]] = true ∧ bits 256 8 8 = 1 ∧ bits 256 5 0 = 0 ∧ (ran gx 8 l).gang.ctx = 0 ∧
     (ran gx 8 l).gang.run.executing = true) ∧
    gx.takes 12 (cmdF []) = true ∧
    (gx.takes 13 (cmdF [1]) = true ∧ cmdOnly (cmdF [1]) [[(1, 0)]] = true ∧ (ran gx 13 [1]).pkg.clk.full = true ∧ (ran gx 13 [1]).pkg.cfg.permits 1 = true) ∧
    (let l : List W64 := [77, 0, 1, 1, 63 + 63 * 2 ^ 32]
     gx.takes 15 (cmdF l) = true ∧ cmdOnly (cmdF l) [[(15, 0), (18, 16)], [(47, 0)], [(63, 0)], [(63, 0)], [(26, 0), (58, 32)]] = true ∧
     ctx0.syncOk 63 = true ∧ (ran gx 15 l).ringsOk ctx0 1 1 = true ∧ (∀ p ∈ (ran gx 15 l).pkg.peers, p.ctx = 0)) := by decide +kernel
/-- A group stopped at a `TRAP`, and the record that names it. -/
def gstop : State := nextOr gc (exec (.trap 9) gc)
theorem test_meets_CommandsComplete_resume :
    gstop.takes 9 (cmdF [0]) = true ∧ (let u := ran gstop 9 [0]
      let recs := (u.pkg.faults.toList.flatMap id).filter fun r => r.ctx == 0 && (r.cls == 17 || r.cls == 18) && !r.fwc
      match recs.find? (fun r => r.seq.toNat == 0) with
      | some r => r.resumable && (u.allBoxes.find? fun b => b.gang.run == .stopped && b.gang.ctx == 0 && b.gang.gidx == r.gidx && b.gang.dispNum == r.dispNum).isSome
          && (match u.ctxOf 0 with | some c => !c.faulted | none => false)
      | none => false) = true ∧ cmdOnly (cmdF [0]) [[(31, 0)]] = true := by decide +kernel
/-- Group 5 of launch 1, of queue 0 and TAG 0, and its table 1. -/
def gtab : State := { grp .waiting with mem := gx.mem }
theorem test_meets_CommandsComplete_table : (let l : List W64 := [0, 0, 1, 1, 0]
    gtab.takes 11 (cmdF l) = true ∧ cmdOnly (cmdF l) [[(5, 0), (63, 32)], [(31, 0)], [(0, 0), (15, 8)], [(63, 0)], [(43, 0)]] = true ∧
    ((ran gtab 11 l).tableGroup ctx0 0 0 0).isSome = true ∧ (ran gtab 11 l).regionBytes ctx0 1 0 32 = some (List.replicate 32 0)) := by decide +kernel
/-- The command is taken whatever the handle is. -/
theorem codeUnload_takes (H : W64) : gq.takes 4 (cmdF [H]) = true := by
  have a1 : (gq.accepted 4 (cmdF [H])).1 = true := by rfl
  have a2 : (gq.accepted 4 (cmdF [H])).2.led = true := by
    have h0 : ((gq.accepted 4 (cmdF [H])).2.fwd 4).leads = true := by rfl
    have h1 : ((gq.accepted 4 (cmdF [H])).2.fwd 4).time = 0 := by rfl
    have h2 : ((gq.accepted 4 (cmdF [H])).2.fwd 4).seenAt = 0 := by rfl
    simp only [State.led, List.any_eq_true]
    exact ⟨4, by decide, by rw [h0, FwDie.age, h1, h2]; decide⟩
  have a3 : (cmdF [H]).seq = gq.host.seq := by rfl
  have a4 : gq.inlogFull 0 = false := by decide +kernel
  have a5 : gq.barrier = false := by decide +kernel
  simp only [State.takes, a1, a2, a3, show (cmdF [H]).ctx = 0 from rfl, a4, a5]
  decide +kernel
/-- An object's handle is opaque, and so is the length of a configuration record. -/
theorem test_meets_CommandsComplete_codeUnload : ∃ h : W64, gq.takes 4 (cmdF [h]) = true ∧ (ran gq 4 [h]).pkg.cfgOk = true ∧
    cmdOnly (cmdF [h]) [[(63, 0)]] = true ∧ (ran gq 4 [h]).pkg.codeOf (BitVec.ofNat 64 (cmdArg (cmdF [h]) 1)) 0 = some obj1 := by
  obtain ⟨H, hH⟩ : ∃ H, H = codeHandle 0 0 1 0 := ⟨_, rfl⟩
  have hz : H.toNat % 2 ^ 32 = 2 ^ 16 := by rw [hH]; exact codeHandle_low 0 0 1 0
  have hl := H.isLt
  refine ⟨H, codeUnload_takes H, rfl, ?_, ?_⟩
  · have h1 := Nat.and_two_pow_sub_one_eq_mod H.toNat 64
    rw [Nat.mod_eq_of_lt hl] at h1
    simpa [cmdOnly, cmdF, cmdArg, fieldMask, nth, List.range, List.range.loop] using h1
  · have h1 : (ran gq 4 [H]).pkg.codes = [⟨0, 1, 0, true, obj1⟩] := rfl
    have h2 : bits H.toNat 15 0 = 0 := by simp only [bits]; omega
    have h3 : (ran gq 4 [H]).pkg.boots = 0 := rfl
    have h4 : cmdArg (cmdF [H]) 1 = H.toNat := rfl
    simp only [Pkg.codeOf, h4, BitVec.ofNat_toNat, BitVec.setWidth_eq, h1, h2, h3, List.find?_cons, BEq.rfl, Bool.and_self]
    exact if_pos ⟨trivial, hH⟩
theorem test_meets_CommandsComplete_configWrite : gbig.takes 14 (cmdF [3, 0]) = true ∧ cmdOnly (cmdF [3, 0]) [[(63, 0)], [(43, 0)]] = true ∧
    ∃ l, (ran gbig 14 [3, 0]).regionBytes ctx0 3 0 Config.cfgLength.toNat = some l := by
  refine ⟨by decide +kernel, by decide +kernel, ?_⟩
  have h : ∃ r, (ran gbig 14 [3, 0]).regionOf ctx0 3 .read = some r ∧ r.len = 2 ^ 44 - 1 := by
    have : (((ran gbig 14 [3, 0]).regionOf ctx0 3 .read).map (·.len)) = some (2 ^ 44 - 1) := by decide +kernel
    simpa using this
  obtain ⟨r, hr, hl⟩ := h
  have hn := Config.cfgLength.isLt
  have hr' : (ran gbig 14 [3, 0]).regionOf ctx0 (3 : W64).toNat .read = some r := hr
  have hf : r.flist = 0x40000000 := by
    have h2 : ((ran gbig 14 [3, 0]).regionOf ctx0 3 .read).map (·.flist) = some 0x40000000 := by decide +kernel
    rw [show (3 : Nat) = (3 : W64).toNat from rfl, hr'] at h2
    simpa using h2
  have hb : r.base = 0 := by
    have h2 : ((ran gbig 14 [3, 0]).regionOf ctx0 3 .read).map (·.base) = some 0 := by decide +kernel
    rw [show (3 : Nat) = (3 : W64).toNat from rfl, hr'] at h2
    simpa using h2
  have hm : ∀ x ∈ (ran gbig 14 [3, 0]).mem.bytes, x.1 < 0x40000000 := by decide +kernel
  have hw : (ran gbig 14 [3, 0]).mem.wlog = [] := by rfl
  generalize ran gbig 14 [3, 0] = u at *
  have hrec : ∀ w ∈ u.frameRecs r, w = 0 := by
    intro w hw'
    obtain ⟨i, hi, rfl⟩ := List.mem_map.mp hw'
    have hi := List.mem_range.mp hi
    simp only [Region.pages, hl, hb] at hi
    have hz : ∀ j, j < 8 → u.mem.byteAt none (r.flist + 8 * i + j) = 0 := fun j hj => by
      rw [byteAt_get hw (by omega)]
      exact get_unlisted _ _ fun x hx => by have := hm x hx; omega
    have h1 := hz 0 (by decide)
    rw [Nat.add_zero] at h1
    simp [MemSys.natAt, MemSys.bytesAt, List.range, List.range.loop, hz, ofBytes, h1]
  rw [State.regionBytes, hr']
  generalize Config.cfgLength.toNat = n at *
  rcases Nat.eq_zero_or_pos n with h0 | h0
  · subst h0
    exact ⟨[], by simp [Region.within]⟩
  · have h2 : n ≠ 0 := by omega
    refine ⟨_, (if_neg h2).trans (if_pos ?_)⟩
    simp only [Bool.and_eq_true, List.all_eq_true, Region.within, hl]
    refine ⟨by simp; omega, fun w hw' => ?_⟩
    rw [hrec w (List.drop_subset _ _ (List.take_subset _ _ hw'))]
    decide

/-! ### Firmware, clock and power -/

/-- A core of a firmware gang of die 0, in focus, with the registers `f`. -/
def fwOf (f : FwDie → FwDie) : State :=
  let s := State.reset.focusGang 0
  s.setFwd 0 (f (s.fwd 0))
def withClk (f : ClkSt → ClkSt) : State := { gc with pkg := { gc.pkg with clk := f gc.pkg.clk } }
theorem test_meets_FirmwareComplete_clock :
    State.reset.die = 4 ∧ (fwOf id).die = 0 ∧ (fwOf fun f => { f with timer := 5 }).die < 5 ∧ ((fwOf fun f => { f with timer := 5 }).fwd 0).timer ≠ 0 ∧
    (fwOf id).pkg.cfg.permits (((fwOf id).fwd 0).clkctl.toNat % 4) = true ∧ gc.pkg.clk.full = true ∧
    (withClk fun c => { c with pending := some 2 }).pkg.clk.pending = some 2 ∧
    (let s : State := { State.reset with pkg := { Pkg.reset with clk := { Pkg.reset.clk with svcReq := true } } }
     s.pkg.clk.svcReq = true ∧ s.pkg.clk.full = false ∧ s.allStopped = true) := by decide +kernel
/-- Ten samples of 3,000,000 mW against a limit of 2,600 W. -/
theorem test_meets_FirmwareComplete_power :
    let s := withClk fun c => { c with step := some 0, power := List.replicate 9 3000000 }
    s.pkg.clk.step = some 0 ∧ s.pkg.clk.full = true ∧ (3000000 :: s.pkg.clk.power).length ≥ 10 ∧
    10 * (s.pkg.cfg.powerLimit * 1000) < ((3000000 :: s.pkg.clk.power).take 10).sum ∧ s.pkg.cfg.lower 0 = some 1 := by decide +kernel
theorem test_meets_FirmwareComplete_port :
    (let s := fwOf fun f => { f with stgt := 8 }
     s.core.id = .fw s.die ∧ (s.fwd 0).pend = false ∧ (s.fwTarget (s.fwd 0).stgt false).isSome = true ∧ (s.fwTarget (s.fwd 0).stgt true).isSome = true) ∧
    (fwOf id).fwTarget (2 ^ 63) false = none ∧
    (let x : Rep := { rep true with who := .fw 0 }
     let s : State := { fwOf id with mem := { MemSys.reset with reps := [x] } }
     s.mem.reps.find? (fun x => x.who == .fw s.die && x.write) = some x) ∧ State.reset.privBad 0 = false ∧ State.reset.privBad 0x03F = false := by decide +kernel
/-- A controller out of service, with its lanes as at reset and with a lane mapped twice, and a test of it. -/
theorem test_meets_FirmwareComplete_phy :
    let s := fwOf id
    let good := (List.range 16).map fun i => ((1, 0, i), ({ phys := BitVec.ofNat 5 i, wdly := 0, rdly := 0 } : Lane))
    let f := fun (l : List ((Nat × Nat × Nat) × Lane)) => { s.fwd 0 with physel := 1, lanes := l }
    physChan (f []).physel = some (1, 0) ∧ s.die ≠ 4 ∧ s.phyBusy 1 = false ∧ (f good).mapBad 1 0 = false ∧
    (f (((1, 0, 0), { phys := 18, wdly := 0, rdly := 0 }) :: good.drop 1)).mapBad 1 0 = true ∧ bits (s.fwd 0).patctl.toNat 11 8 ≤ 3 ∧
    bits (s.fwd 0).patctl.toNat 5 4 ≤ 1 ∧ (1 : W32).toNat ≤ bits (0 : W64).toNat 47 16 + 1 ∧ ((5 : BitVec 18) = 0 ↔ (1 : W32) = 0) ∧
    (∀ i, i < 18 → (5 : BitVec 18).getLsbD i = true → i ∈ (f good).mapOf 1 0) := by decide +kernel

/-! ### Frames -/

/-- An action queued in an earlier cycle, and one of this cycle of the owning slot. -/
def oldPend : Pend := { time := 12, iss := 3, own := true, act := .c 1 5 }
def newPend : Pend := { time := 12, iss := 9, own := true, act := .c 1 6 }
theorem test_meets_QueuedWritesFrame :
    let s : State := { (withCore fun c => { c with pend := [oldPend] ++ [newPend] }) with gang := { g.gang with now := 9 } }
    Instr.queued (.cmovi 2 7) = some [.c 2] ∧ (∀ p ∈ s.core.pend, p.iss ≤ s.gang.now) ∧ s.core.pend = [oldPend] ++ [newPend] ∧
    (∀ p ∈ [oldPend], p.iss < s.gang.now ∨ p.own = false) ∧ (∀ p ∈ [newPend], p.iss = s.gang.now ∧ p.own = true) ∧ (∀ p ∈ [oldPend], p.iss ≤ s.gang.now) := by
  decide +kernel
theorem test_meets_PerformedWritesFrame : oldPend.act = .c 1 5 := rfl
theorem test_meets_TrapsHaveNoEffect : g.die < 5 ∧ g.isFw = false ∧ g.gang.alive = true ∧ State.reset.isFw = true ∧ State.reset.die < 5 := by decide +kernel
/-- An entry due with STAMP 5 at frame cycle 0. -/
theorem test_meets_StampsAreChecked :
    let e : Entry := { bundle := 0, gap := 0, stamp := some 5, ready := 0, poisoned := false }
    let s := withCore fun c => { c with cur := { half0 with entries := [e] } }
    s.rank = 0 ∧ s.core.cur.entries[s.core.ent]? = some e ∧ e.stamp = some 5 ∧ (5 : BitVec 12) ≠ s.gang.sfc.setWidth 12 ∧ e.ready ≤ s.gang.now := by decide +kernel
theorem test_meets_StepKeepsMemory : State.reset.mem.bytes.wf = true ∧ okRes (step State.reset) = true := by decide +kernel

/-! ### Further clauses -/

/-- `SIGN` with an idle and with a busy MXU; a bundle of two operations that queue writes; one whose guard is false. -/
theorem test_meets_BundleRunsDecoded_sign :
    (let s := gs (word .sign)
     let b := s.setMxu { s.core.mxu with chain := true }
     let t := nextOr s (exec .sign s)
     !s.isFw && s.signCause == none && t.traps == s.traps && !t.core.hold && t.core.run == .signed && b.signCause == some 8) = true := by decide +kernel
theorem test_meets_BundleRunsDecoded_several :
    (let s := gs (word (.cmovi 2 7) ||| word (.mzero 3))
     match s.core.cur.entries[s.core.ent]? with
     | some e => (s.preTrap e).isNone && (match decodeBundle s.gang.code.priv s.gang.code.fwCore e.bundle with
        | .ok b => b.slots.all (fun x => s.guardTrue x.2.guard && x.2.op.queued.isSome) && b.slots.any (fun x => x.2.op == .cmovi 2 7) && b.slots.any (fun x => x.2.op == .mzero 3)
        | .error _ => false)
     | none => false) = true ∧
    (let s := gs (((encodeBundle1 9 (.cmovi 2 7)).getD 0).toNat)
     match s.core.cur.entries[s.core.ent]? with
     | some e => (match decodeBundle s.gang.code.priv s.gang.code.fwCore e.bundle with
        | .ok b => b.slots.all (fun x => x.2.op == .nop || !s.guardTrue x.2.guard) && b.slots.any (fun x => x.2.op == .cmovi 2 7)
        | .error _ => false)
     | none => false) = true := by decide +kernel
/-- A firmware core whose queue is a context's, and a write of the core. -/
theorem test_meets_EnqCompletes_fw :
    let s : State := { State.reset with pkg := gc.pkg }
    s.isFw = true ∧ s.ctxOf (rget s.disp.queues (BitVec.ofNat 6 (bits (s.getA 3).toNat 53 48))).ctx = some ctx0 ∧ ctx0.torn = false := by decide +kernel
/-- A barrier that holds an operation on variable 64, and not one on variable 63. -/
theorem test_meets_SystemRegistersComplete_held :
    let s : State := { fwOf (fun f => { f with stgt := 64 }) with dom := { State.reset.dom with st := .barrier } }
    let t : State := { fwOf (fun f => { f with stgt := 63 }) with dom := { State.reset.dom with st := .barrier } }
    s.isFw = true ∧ s.fwHeld 0x0A = true ∧ t.fwHeld 0x0A = false ∧ s.fwHeld 0x08 = false ∧ s.privBad 0x223 = false ∧ s.privBad 0x202 = false := by decide +kernel
/-- A context on packages 0, 5 and 7: an address of this package, of package 5 and of package 6. -/
def gfar : State := { gc with pkg := { gc.pkg with ctxs := [{ ctx0 with pkgs := [0, 5, 7] }] } }
theorem test_meets_FarAccessesComplete_parts :
    gfar.isFw = false ∧ (gfar.ctxOf gfar.gang.ctx).isSome = true ∧ gfar.part 8 = .own ∧ gfar.part (5 * 2 ^ 45) = .other 5 ∧ gfar.part (6 * 2 ^ 45) = .outside ∧
    (gfar.farPage 8 true).1 = .ok (0x200008, true) ∧ (gfar.farPage (6 * 2 ^ 45) false).1 = .error 2 ∧ (gfar.farPage (2 ^ 31) false).1 = .error 0 := by decide +kernel
theorem test_meets_FarAccessesComplete_held :
    let s : State := { State.reset with dom := { State.reset.dom with st := .barrier } }
    s.isFw = true ∧ s.barrier = true ∧ s.lockstep = false := by decide +kernel
theorem test_meets_GeneratorsAndTiles_traps :
    ((List.range (min (aheadOf (capOf gt 9).ent) (psNV (gstaged.getPort 0).stage))).any fun i =>
      (gstaged.setCore { gstaged.core with openR := [⟨9, 0, 1, 3⟩] }).openHit 9 (vecWords (gstaged.getPort 0).stage (capOf gt 9).ent i)) = true ∧
    (let e := allocEnt (gt.getA 1) 0x1F 0 false false 0
     e.formatOk = false) ∧ (let e := allocEnt 0x00010000 0 0 false false 0
     e.dims = 0 ∧ e.e1 ≠ 0) := by decide +kernel
theorem test_meets_ResultsReachDestinations_range :
    let s := gp.setCore { gp.core with heldR := [⟨12, 0, 4, 3⟩] }
    let p := s.getPort 8
    (s.rangeTrap 12 (updWords (encodePush p.active (capOf gt 12).ent p.pos (Lanes.splat 1) 1 (s.getE .v0 (psRes p.active))).upd) true).isSome = true := by decide +kernel
/-- Staging words over 64 vectors of tile 12. -/
def ps4 : Vector W64 5 := #v[BitVec.ofNat 64 (12 * 2 ^ 32), BitVec.ofNat 64 (63 + 2 ^ 32), BitVec.ofNat 64 (63 + 64 * 2 ^ 32), 0, 0]
/-- A pop whose read ahead lies in an open range; an output port that is not armed. -/
theorem test_meets_PortsComplete_traps :
    (let s := gp.setCore { (gp.core.setPort 0 { armed 12 with active := ps4 }) with openR := [⟨12, 0, 64, 3⟩] }
     (s.portVec 0).isSome = true ∧ (popsOf [.pop 0]).any s.popOpen = true) ∧
    (gp.getPort 9).cap = none ∧ Instr.vdst? (.iscan ⟨.v0, .push 1, rg 3, 0⟩) = some (.push 1) ∧ (popsOf [rg 3]).any gp.popOpen = false := by decide +kernel
theorem test_meets_MatrixDrains_traps : let c := capOf gm 20
    let w := (List.range (drainWords c.ent.fmt)).map (0 / epw c.ent.fmt + ·) ++ scaleWords c.ent 0 (drainWords c.ent.fmt)
    2 ^ 32 ≤ (gm.getMp 0).toNat ∧ baseOk c.ent.fmt 0 = true ∧ c.ent.fmt ≠ 14 ∧
    ((gm.setCore { gm.core with openR := [⟨20, 1, 1, 3⟩] }).rangeTrap 20 w true) = some 0 := by decide +kernel
/-- Row indices past the tile's end, a descriptor on an FP32 tile, and an open word. -/
theorem test_meets_MatrixGathers_traps :
    (let c := capOf gm 18
     let w := gm.getMp 2
     let bad := gm.setCore (gm.core.setMp 3 0xFFFF000200010000)
     (∃ o ∈ (List.range 4).map (fun i => descBase w + bad.gatherIdx 2 i * descStride w), c.ent.count < o + epw c.ent.fmt) ∧
     (gm.setCore { gm.core with openR := [⟨18, 1, 1, 3⟩] }).openHit 18
       (((List.range 4).map fun i => descBase w + gm.gatherIdx 2 i * descStride w).map (· / epw c.ent.fmt)) = true) ∧
    (let s := gm.setCore (gm.core.setMp 2 (20 * 2 ^ 52 + 128 * 2 ^ 32))
     let w := s.getMp 2
     let c := capOf gm 20
     s.tileCheck (descTile w) none = .ok c ∧ (∀ o ∈ (List.range 4).map (fun i => descBase w + s.gatherIdx 2 i * descStride w), o + epw c.ent.fmt ≤ c.ent.count) ∧
     (∀ o ∈ (List.range 4).map (fun i => descBase w + s.gatherIdx 2 i * descStride w), o % epw c.ent.fmt = 0) = (0 = 0) ∧ (mclass c.ent.fmt).isSome = false) := by decide +kernel
/-- The tables of ranges full, a word past the tile, a second link that does not exist, and a held word under a receive. -/
theorem test_meets_LinkTransfersRegister_more :
    ((gf w1).setCore { (gf w1).core with heldR := [⟨20, 255, 1, 1⟩] }).rangeTrap 20 [254, 255] true ≠ none ∧ (gf w1).gang.inDir 0 3 ≠ none ∧
    16 ≤ ((gf w1).setCore { (gf w1).core with openR := List.replicate 16 ⟨20, 0, 1, 1⟩ }).core.openR.length ∧
    (gf w1).tileCheckWords 11 255 = .error 7 ∧ (gf (BitVec.ofNat 64 (2 ^ 32))).gang.linkEnd 0 3 ≠ none ∧ xferWord (BitVec.ofNat 64 (2 ^ 32 + 1)) ≠ 0 := by decide +kernel
/-- Bytes of a package that is not lost, and of one that is. -/
theorem test_meets_MemoryEventsComplete_far :
    let e : REv := { rev none with addr := farVa 5 0x200000 }
    let s := withMem fun m => { m with rq := [e], accs := [acc 7] }
    s.mem.rq.find? (fun e => e.id == 1) = some e ∧ isFar e.addr = true ∧ s.mem.predsDelivered 7 (homeOf e.addr) = true ∧ homeOf e.addr - 8 ∉ s.dom.lostPkgs ∧
    isFar (rev none).addr = false ∧ (∀ x ∈ (wev []).cells, isFar x.1 = false) := by decide +kernel
theorem test_meets_SconceOperationsExecute_turn :
    (let o := sop (syncAt 0 5) 0 false
     let s := withMem fun m => { m with ops := [o], accs := [acc 7] }
     s.opTurn o = true ∧ s.mem.clockOk (acc 7) 0 = true ∧ o.loc + o.width ≤ 2 ^ 60 ∧ loggedLoc (sop (syncAt 0 64) 0 false) = true ∧ s.undoFullFor (sop (syncAt 0 64) 0 false).places 1 = false) ∧
    (let o := { sop (farVa 5 0x200000) (farHome 5) false with idx := some 1 }
     let s := withMem fun m => { m with ops := [o], accs := [acc 7] }
     s.mem.ops.find? (fun o => o.id == 3) = some o ∧ 8 ≤ o.home ∧ s.opTurn o = true ∧ s.mem.predsDelivered 7 o.home = true ∧ o.home - 8 ∉ s.dom.lostPkgs) := by decide +kernel
/-- A fence of the core in focus that a lost package ends. -/
theorem test_meets_CommandsEnd_lost :
    let f : Access := { acc 7 with fence := some .system, mask := 1, done := false, lost := true }
    let s := withMem fun m => { m with accs := [f] }
    s.mem.acc? 7 = some f ∧ s.mem.fenceOver f .system = true ∧ f.lost = true ∧ f.who = .core s.core.id ∧ s.isFw = false := by decide +kernel
/-- A receive without a sender, and one on another link that a send of rank 4 feeds, at the same frame cycle. -/
theorem test_meets_LinkEventsComplete_mismatch :
    let back := { xfer 3 4 (.send [3]) 2 [] [] with start := 0 }
    let s := withXfers 7 [back, xfer 4 0 (.recv 1) 2 [] [], xfer 2 8 (.recv 3) 2 [] []]
    ((s.gang.mismatches 7).map (·.2.1.id)) = [2] ∧ s.gang.run = .phase := by decide +kernel
/-- A retry whose word the sender of rank 0 holds; one on the path of an `LCHK`. -/
theorem test_meets_LinkEventsComplete_good :
    (let x := xfer 2 4 (.recv 3) 2 [] [(1, 0)]
     let s : State := { withXfers 10 [feed, x] with core := { g.core with run := .arrived } }
     s.gang.xfers.find? (fun x => x.id == 2) = some x ∧ x.start + 1 + 1 < s.gang.sfc.toNat ∧ s.cluTimedEnded x.rank = true ∧ x.vec 1 = none ∧
     (s.heldWord s.gang.xfers.length x 1).isSome = true) ∧
    (let x := xfer 2 0 (.recv 3) 2 [] [(1, 0)]
     let s : State := { withXfers 10 [{ xfer 1 12 (.send [1]) 2 [] [] with start := 0 }, x] with core := { g.core with run := .arrived } }
     x.rank = s.rank ∧ (s.heldWord s.gang.xfers.length x 1).isSome = true ∧ (s.heldPoison s.gang.xfers.length x 1).rank = s.rank ∧
     (s.heldPoison s.gang.xfers.length x 1).clu = s.clu) ∧
    (let x := xfer 2 0 (.lchk 1) 2 [] [(1, 0)]
     let s : State := { withXfers 10 [x] with core := { g.core with run := .arrived } }
     s.gang.xfers.find? (fun x => x.id == 2) = some x ∧ s.cluTimedEnded x.rank = true) ∧
    (2 ∈ gc.dom.planes ∧ ∃ k ∈ gc.dom.planes, k ≠ 2) ∧ planeDie 9 < 5 := by decide +kernel
theorem test_meets_SealEventsComplete_fws :
    ∀ b ∈ ({ stAt .barrier with gang := { gc.gang with sealed := true } } : State).allBoxes, b.gang.unarrived = false ∧ b.fwsToCome = false := by decide +kernel
/-- An `UNSEALED` domain of packages 0 and 5 with an operation and a command that wait for package 5. -/
theorem test_meets_RecoveryEventsComplete_lost :
    let o := { sop (farVa 5 0x200000) (farHome 5) false with idx := some 1 }
    let p : Packet := { ev := 3, acc := 7, who := .core g.core.id, stream := 0, pkg := 5, plane := 0, seq := 0 }
    let s : State := { withMem fun m => { m with ops := [o], cmds := [cmd none .run []], accs := [acc 7], packets := [p] } with
      dom := { gc.dom with sealed := false, pkgs := [0, 5] } }
    s.dom.sealed = false ∧ s.dom.pkgs.contains 5 = true ∧ 5 ≠ s.pkg.cfg.pkg.toNat ∧ o ∈ s.mem.ops ∧ o.home = farHome 5 ∧ isFwId o.who = false ∧
    s.mem.waitsFor 5 7 = true ∧ (cmd none .run []).status = 0 ∧ s.mem.bytes.wf = true := by decide +kernel
theorem test_meets_DispatcherComplete_led :
    gq.led = true ∧ (∀ x ∈ gq.disp.intake, BitVec.ofNat 6 (bits (ofBytes x.bytes) 245 240) ≠ 0) ∧
    (let s := grp .fresh
     ((s.setOf 5).map fun k => s.setReady k 5) = some true) ∧ gx.crosses ctx0 { Region.ofNat 0 with base := 64, len := 64 } = false ∧ gx.partOf ctx0 64 = .own := by decide +kernel
/-- A graph of two nodes, the second after the first, at 0x1_2000 of the mailbox. -/
def ggraph : State :=
  let node (su : List Byte) : List Byte := List.replicate 64 1 ++ su ++ List.replicate (24 - su.length) 0xFF ++ List.replicate 40 0
  let img := toBytes 64 2 ++ node [1, 0] ++ node []
  let s := setQ gq fun q => { q with fifo := [recOf 0 0x12000] }
  { s with mem := { s.mem with bytes := Memory.store s.mem.bytes ((img.zipIdx.map fun x => (0x212000 + x.2, x.1))) } }
theorem test_meets_DispatcherComplete_graph :
    let s := ggraph
    let r := recOf 0 0x12000
    let c := { ctx0 with poolLen := 0x1200000 }
    (s.queueOf 0).fifo = [r] ∧ s.ctxOf r.ctx = some c ∧ c.faulted = false ∧ r.isGraph = true ∧ s.headFree 0 = true ∧ s.hostWritesDone = true ∧
    graphFieldBad r.n = false ∧ bits r.n 191 191 ≠ 1 ∧ (match s.graphImage c (bits r.n 115 64) with | .ok ns => ns.map (·.2) == [[1], []] | .error _ => false) = true ∧
    (s.queueOf r.target).v = true ∧ (s.queueOf r.target).ctx = r.ctx ∧ c.torn = false ∧ (∀ g ∈ s.disp.graphs, g.id ≠ s.disp.nextId) := by decide +kernel
/-- Its failures: a reserved bit, an unmapped image, an image of no node, a queue out of service. -/
theorem test_meets_DispatcherComplete_graph_refused :
    graphFieldBad (recOf 0 (2 ^ 52)).n = true ∧ (match gq.graphImage { ctx0 with poolLen := 0x1200000 } (2 ^ 40) with | .error e => e == 3 | .ok _ => false) = true ∧
    (match gq.graphImage { ctx0 with poolLen := 0x1200000 } 0x13000 with | .error e => e == 6 | .ok _ => false) = true ∧
    (ggraph.queueOf (recOf 0 (0x12000 + 2 ^ (240 - 64))).target).v = false := by decide +kernel
theorem test_meets_HostFramesComplete_edges :
    ((if (0 : BitVec 14) = 0 then [(ctx0.mbox + 0x10000 - (if 0x10000 = ctx0.mboxLen then 1 else 0), 0)] else vaPieces (ctx0.mbox + 0x10000) 0).mapM
      (fun p => (gh.ctxPa ctx0 p.1).map fun a => (a, p.2))) = some [(0x210000, 0)] ∧ isFar (rev none).addr = false ∧ (∀ c, gh.ctxOf peer.ctx = some c → c.todo = []) ∧
    (let s : State := { gh with pkg := { gh.pkg with snoop := [2 ^ 40] } }
     2 ^ 40 ∈ s.pkg.snoop ∧ s.recalled (2 ^ 40) s.mem.nextId = false) := by
  refine ⟨by decide +kernel, by decide +kernel, ?_, by decide +kernel⟩
  intro c h
  have : gh.ctxOf peer.ctx = some ctx0 := by decide +kernel
  rw [this] at h; cases h; rfl
theorem test_meets_FirmwareComplete_writes :
    let s := fwOf fun f => { f with physel := 1 }
    s.privBad 0x3FF = false ∧ s.die ≠ 4 ∧ physelOf (s.fwd 0).physel = some (1, 0, 0) ∧ s.phyBusy 1 = false ∧ (∀ p : BitVec 6, s.fwHeld p = false) ∧
    (0x300 : W64).getLsbD 8 = true ∧ gc.pkg.cfg.permits ((0x103 : W64).toNat % 4) = true ∧ State.reset.die = 4 ∧ (fwOf id).barrier = false := by decide +kernel
/-- A `TRAP` behind an operation of the same bundle. -/
theorem test_meets_TrapsHaveNoEffect_bundle :
    (let s := gs (word (.trap 9) ||| word (.mzero 3))
     match s.entry? with
     | some e => (match s.bundleOf e with
        | some b => (s.preTrap e).isNone && (s.signTrap b.slots).isNone && decide (e.ready ≤ s.gang.now) &&
            (match s.active b.slots with
             | i :: _ => (match exec i s with
                | .next t => t == s.trap .c 17 0 0 9
                | _ => false)
             | [] => false)
        | none => false)
     | none => false) = true := by decide +kernel
end

end Sys2Proof.Tests
end

section
/-! SUPPORT. Results of vector forms: what reading the sources leaves as it was, and when a destination takes its lanes. -/

namespace Sys2Proof.Machine

/-! ### What pops and port claims leave alone -/

@[simp] theorem State.chargeAll_core (s : State) (dt : Nat) (wr : Bool) (c : Cap) (l : List Nat) : (s.chargeAll dt wr c l).core = s.core := by
  rw [State.chargeAll_eq]
@[simp] theorem State.chargeAll_traps (s : State) (dt : Nat) (wr : Bool) (c : Cap) (l : List Nat) : (s.chargeAll dt wr c l).traps = s.traps := by
  rw [State.chargeAll_eq]

@[simp] theorem Core.setPort_vf (c : Core) (n : Nat) (p : Port) (u : VU) : (c.setPort n p).vf u = c.vf u := by
  unfold Core.setPort
  split <;> cases u <;> rfl
@[simp] theorem State.later_vf (s : State) (dt : Nat) (own : Bool) (a : Act) (u : VU) : (s.later dt own a).core.vf u = s.core.vf u := by
  cases u <;> rfl
@[simp] theorem State.flagLater_vf (s : State) (dt : Nat) (f : Fl) (u : VU) : (s.flagLater dt f).core.vf u = s.core.vf u := by
  unfold State.flagLater
  split
  · rfl
  · exact s.later_vf dt true _ u

/-- A pop moves its port and queues actions; it takes no trap and writes no vector, mask or broadcast register (05 R111). -/
theorem State.pop_keeps (s : State) (n : Nat) : (s.pop n).traps = s.traps ∧ ∀ u, (s.pop n).core.vf u = s.core.vf u := by
  unfold State.pop
  dsimp only
  split
  · exact ⟨rfl, fun _ => rfl⟩
  · split <;> simp

theorem State.foldl_pop_keeps : ∀ (l : List Nat) (s : State),
    (l.foldl State.pop s).traps = s.traps ∧ ∀ u, (l.foldl State.pop s).core.vf u = s.core.vf u
  | [], _ => ⟨rfl, fun _ => rfl⟩
  | n :: l, s => by
    obtain ⟨htraps, hvf⟩ := State.foldl_pop_keeps l (s.pop n)
    obtain ⟨htraps', hvf'⟩ := s.pop_keeps n
    exact ⟨htraps.trans htraps', fun u => (hvf u).trans (hvf' u)⟩

@[simp] theorem State.popped_traps (s : State) (l : List (VSrc × Bool)) : (s.popped l).traps = s.traps := (State.foldl_pop_keeps _ s).1
/-- A form reads its mask after its pops; they leave every mask as it was (12 R275). -/
@[simp] theorem State.popped_getM (s : State) (l : List (VSrc × Bool)) (u : VU) (k : BitVec 3) : (s.popped l).getM u k = s.getM u k := by
  unfold State.getM
  rw [show (s.popped l).core.vf u = s.core.vf u from (State.foldl_pop_keeps _ s).2 u]

/-! ### Results of vector forms -/

/-- A destination that is ready takes the result, and no trap is taken (12 R277). -/
theorem State.vput_of_dstReady {s : State} {u : VU} {d : VDst} {x : Lanes} {m : W64} (lat : Nat) (fl : Fl) (h : s.dstReady u d x m = true) :
    ∃ t, s.vput u d lat x m fl = .next t ∧ t.traps = s.traps := by
  cases d with
  | reg n rot => exact ⟨_, s.vput_reg u n rot lat x m fl, by simp⟩
  | push o =>
    unfold State.dstReady at h
    unfold State.vput
    cases hc : (s.getPort (8 + o.toNat)).cap with
    | none => simp [hc] at h
    | some c =>
      simp only [hc, Bool.and_eq_true, Option.isNone_iff_eq_none] at h
      obtain ⟨⟨harmed, hpos⟩, hrange⟩ := h
      simp only [hc, harmed, hpos, hrange, Bool.not_true, Bool.or_self, Bool.false_eq_true, if_false]
      exact ⟨_, rfl, by split <;> simp⟩

/-- A form whose sources can be read goes on, with its ports popped. -/
theorem State.withSrcs_of_sources {s : State} {u : VU} {l : List (VSrc × Bool)} {vs : List Lanes} (k : List Lanes → State → Res)
    (h : s.sources u l = some vs) : s.withSrcs u l k = atomic s (k vs (s.popped l)) := by
  unfold State.sources at h
  obtain ⟨hn, _⟩ | ⟨ws, hs, hopen, _⟩ | ⟨ws, hs, hopen, hk⟩ := s.withSrcs_cases u l k
  · simp [hn] at h
  · simp [hs, hopen] at h
  · simp only [hs, hopen, Bool.false_eq_true, if_false, Option.some.injEq] at h
    rw [hk, ← h]; rfl

/-- Lanes below 64 determine a vector. -/
theorem Lanes.eq_build {x : Lanes} {f : Nat → W32} (h : ∀ j, j < 64 → x.lane j = f j) : x = Lanes.build f := by
  apply Vector.ext
  intro j hj
  have hx := h j hj
  unfold Lanes.lane at hx
  rw [dif_pos hj] at hx
  simp [Lanes.build, hx]

/-- A form that reads its sources and hands the lanes `f` with the flags `fl` to its destination gives that destination those lanes. -/
theorem vecGives_of_withSrcs {i : Instr} {s : State} {u : VU} {d : VDst} {l : List (VSrc × Bool)} {lat : Nat} {m : W64}
    {f : List Lanes → Nat → W32} {fl : List Lanes → Fl} {k : List Lanes → State → Res} (hexec : exec i s = s.withSrcs u l k)
    (hk : ∀ vs, k vs (s.popped l) = (s.popped l).vput u d lat (Lanes.build (f vs)) m (fl vs)) : VecGives i s u d l lat m f fl := by
  intro vs hvs x hx hready
  obtain rfl := Lanes.eq_build hx
  obtain ⟨t, hput, htraps⟩ := State.vput_of_dstReady lat (fl vs) hready
  refine ⟨t, ?_, hput⟩
  rw [hexec, State.withSrcs_of_sources k hvs, hk, hput]
  simp [atomic, htraps]

end Sys2Proof.Machine
end

section
/-! PROOF. Scans are trees over the vector cut off at a lane (04 R101; O27). -/

namespace Sys2Proof.Machine

/-! ### Scans (04 R101, 12 R290) -/

theorem upTo_inclusive (m : W64) (j : Nat) : upTo m j true = fun i => m.getLsbD i && decide (i ≤ j) := by
  funext i
  simp only [upTo, Bool.true_and, Nat.le_iff_lt_or_eq, Bool.decide_or, beq_eq_decide]

theorem upTo_exclusive (m : W64) (j : Nat) : upTo m j false = fun i => m.getLsbD i && decide (i < j) := by
  funext i
  simp only [upTo, Bool.false_and, Bool.or_false]

/-- The lanes below `j` are those up to `j - 1`. -/
theorem upTo_exclusive_eq_pred (m : W64) {j : Nat} (h : 0 < j) : upTo m j false = upTo m (j - 1) true := by
  simp only [upTo_exclusive, upTo_inclusive, Nat.le_sub_one_iff_lt h]

/-- The vector that the tree of lane `j` combines: lanes above `j`, and lanes that the mask leaves out, are the identity. -/
theorem lanesOr_upTo (x : Lanes) (m : W64) (j : Nat) (idt : W32) :
    lanesOr x (upTo m j true) idt = (List.range 64).map fun i => if i ≤ j ∧ m.getLsbD i = true then x.lane i else idt := by
  simp only [lanesOr, upTo_inclusive, Bool.and_eq_true, decide_eq_true_eq, and_comm]

/-- Lanes that raise no flag leave none. -/
theorem orLanes_zero (m : W64) : orLanes (fun _ => 0) m = 0 := by
  simp [orLanes]

/-- Lane `j` of a scan, with its flags: what `f` gives for the lanes up to `j`, or, if exclusive, up to `j - 1` and the identity for lane 0. -/
def scanLane (excl : Bool) (idt : W32) (f : (Nat → Bool) → Lanes → W32 × Fl) (m : W64) (x : Lanes) (j : Nat) : W32 × Fl :=
  if excl then (if j = 0 then (idt, 0) else f (upTo m (j - 1) true) x) else f (upTo m j true) x

/-- `scanLane` in the lane sets that `scan` writes out. -/
theorem scanLane_eq (excl : Bool) (idt : W32) (f : (Nat → Bool) → Lanes → W32 × Fl) (m : W64) (x : Lanes) :
    scanLane excl idt f m x = fun j =>
      if excl then (if j = 0 then (idt, 0) else f (fun i => m.getLsbD i && decide (i < j)) x)
      else f (fun i => m.getLsbD i && decide (i ≤ j)) x := by
  funext j
  unfold scanLane
  cases excl with
  | false => exact congrArg (f · x) (upTo_inclusive m j)
  | true =>
    by_cases hj : j = 0
    · simp [hj]
    · simp [hj, ← upTo_exclusive_eq_pred m (Nat.pos_of_ne_zero hj), upTo_exclusive]

/-- A tree of an operation without flags raises none in any lane of a scan. -/
theorem scanLane_treeOf_flags (excl : Bool) (idt : W32) (op : W32 → W32 → W32) (m : W64) (x : Lanes) (j : Nat) :
    (scanLane excl idt (treeOf op idt) m x j).2 = 0 := by
  unfold scanLane treeOf
  cases excl with
  | false => rfl
  | true => by_cases hj : j = 0 <;> simp [hj]

section
variable {i : Instr} {o : Un} {lat : Nat} {int excl : Bool} {idt : W32} (s : State)

/-- A scan gives lane `j` of its destination, in every lane, what `scanLane` gives under the mask that it reads. -/
theorem vecGives_scan {f : (Nat → Bool) → Lanes → W32 × Fl} (hexec : exec i s = scan o lat int excl idt f s) :
    let lane := fun vs : List Lanes => scanLane excl idt f (s.getM o.u o.m) (nth vs 0 (Lanes.splat 0))
    VecGives i s o.u o.d [(o.x, int)] lat (BitVec.allOnes 64) (fun vs j => (lane vs j).1)
      (fun vs => orLanes (fun j => (lane vs j).2) (BitVec.allOnes 64)) := by
  refine vecGives_of_withSrcs hexec fun vs => ?_
  simp only [State.popped_getM, scanLane_eq]

/-- As `vecGives_scan`, for the tree of an operation without flags. -/
theorem vecGives_scan_treeOf {op : W32 → W32 → W32} (hexec : exec i s = scan o lat int excl idt (treeOf op idt) s) :
    VecGives i s o.u o.d [(o.x, int)] lat (BitVec.allOnes 64)
      (fun vs j => (scanLane excl idt (treeOf op idt) (s.getM o.u o.m) (nth vs 0 (Lanes.splat 0)) j).1) (fun _ => 0) := by
  simpa only [scanLane_treeOf_flags, orLanes_zero] using vecGives_scan s hexec

end

/-- Settles O27: the set of lanes that a scan's lane combines is the mask cut off at that lane, and all four scans go through `scan`. -/
theorem scansAreTrees : Obligations.ScansAreTrees := by
  refine ⟨fun op idt m x j _ => ⟨?_, ?_, ?_, ?_⟩, fun s q => ⟨?_, ?_, ?_, ?_⟩⟩
  · exact congrArg (pairTree op idt) (lanesOr_upTo x m j idt)
  · intro hj
    rw [upTo_exclusive_eq_pred m hj]
  · exact congrArg (fun l => pairTree addF (0, 0) (l.map fun w => (w, 0))) (lanesOr_upTo x m j negZero)
  · intro hj
    rw [upTo_exclusive_eq_pred m hj]
  · exact vecGives_scan_treeOf s (rfl : exec (.iscan q) s = scan q 8 true false 0 (treeOf (· + ·) 0) s)
  · exact vecGives_scan_treeOf s (rfl : exec (.iscanx q) s = scan q 8 true true 0 (treeOf (· + ·) 0) s)
  · exact vecGives_scan s (rfl : exec (.fscan q) s = scan q 18 false false negZero frsumOf s)
  · exact vecGives_scan s (rfl : exec (.fscanx q) s = scan q 18 false true negZero frsumOf s)

end Sys2Proof.Machine
end

section
/-! PROOF. Integer encodes and elements below a byte (04 R79, R80; O33). -/

namespace Sys2Proof.Machine

/-! ### Integer encodes (04 R79) -/

/-- A number in the range of `k + 1` bits in two's complement is read back from its code. -/
theorem signExt_emod_two_pow {k : Nat} {y : Int} (hlo : -2 ^ k ≤ y) (hhi : y < 2 ^ k) :
    signExt (y % (2 ^ (k + 1) : Nat)).toNat (k + 1) = y := by
  have hpow : (2 : Int) ^ (k + 1) = 2 * 2 ^ k := by ring
  have hpowN : 2 ^ (k + 1) = 2 * 2 ^ k := by ring
  have hcast : ((2 ^ k : Nat) : Int) = 2 ^ k := by push_cast; rfl
  have hpos : 0 < 2 ^ k := Nat.two_pow_pos k
  unfold signExt
  simp only [Nat.add_sub_cancel, Nat.shiftRight_eq_div_pow, hpow, hpowN]
  rw [← hcast] at hlo hhi ⊢
  generalize 2 ^ k = p at *
  by_cases hy : 0 ≤ y
  · have hcode : (y % (2 * p : Nat)).toNat = y.toNat := by rw [Int.emod_eq_of_lt hy (by omega)]
    have hsign : y.toNat / p = 0 := Nat.div_eq_of_lt (by omega)
    rw [hcode, hsign, if_neg (by decide), Nat.mod_eq_of_lt (by omega)]
    omega
  · have hcode : (y % (2 * p : Nat)).toNat = (y + (2 * p : Nat)).toNat := by
      rw [← Int.add_emod_right, Int.emod_eq_of_lt (by omega) (by omega)]
    have hsign : (y + (2 * p : Nat)).toNat / p = 1 := Nat.div_eq_of_lt_le (by omega) (by omega)
    rw [hcode, hsign, if_pos (by decide), Nat.mod_eq_of_lt (by omega)]
    omega

/-- What a saturating encode does: the code of the clamped value, and SAT exactly where the clamp changes it. -/
theorem encodeInt_saturates {fmt : BitVec 5} {lo hi : Int} {x : W32} (hle : lo ≤ hi)
    (hcode : ∀ y, lo ≤ y → y ≤ hi → decodeInt fmt (intCode fmt y) = y)
    (henc : encodeInt fmt x = (intCode fmt (clampInt lo hi x.toInt), if clampInt lo hi x.toInt = x.toInt then 0 else fSAT)) :
    decodeInt fmt (encodeInt fmt x).1 = max lo (min hi x.toInt) ∧ ((encodeInt fmt x).2 = fSAT ↔ x.toInt < lo ∨ hi < x.toInt) ∧
      ((encodeInt fmt x).2 = 0 ↔ lo ≤ x.toInt ∧ x.toInt ≤ hi) := by
  have hsat : fSAT ≠ 0 := by decide
  have hfix : clampInt lo hi x.toInt = x.toInt ↔ lo ≤ x.toInt ∧ x.toInt ≤ hi := by unfold clampInt; omega
  rw [henc]
  refine ⟨hcode _ (by unfold clampInt; omega) (by unfold clampInt; omega), ?_, ?_⟩
  · rw [ite_eq_right_iff, hfix]
    constructor
    · intro h
      by_contra hin
      exact hsat (h (by omega)).symm
    · omega
  · rw [ite_eq_left_iff, hfix]
    exact not_imp_comm.trans (forall_prop_of_true hsat)

/-! ### Fields inside one byte (04 R80) -/

/-- The number `old` with the `n` bits from bit `p` up replaced by those of `v`. -/
def replaceBits (old p n v : Nat) : Nat := old % 2 ^ p + v % 2 ^ n * 2 ^ p + old / 2 ^ (p + n) * 2 ^ (p + n)

theorem testBit_replaceBits (old p n v i : Nat) :
    (replaceBits old p n v).testBit i = if p ≤ i ∧ i < p + n then v.testBit (i - p) else old.testBit i := by
  have in_powers : replaceBits old p n v = 2 ^ p * (2 ^ n * (old / 2 ^ (p + n)) + v % 2 ^ n) + old % 2 ^ p := by
    unfold replaceBits; rw [pow_add]; ring
  rw [in_powers, Nat.testBit_two_pow_mul_add _ (Nat.mod_lt _ (Nat.two_pow_pos p))]
  by_cases hlow : i < p
  · have : ¬ (p ≤ i ∧ i < p + n) := by omega
    simp [hlow, this, Nat.testBit_mod_two_pow]
  · rw [if_neg hlow, Nat.testBit_two_pow_mul_add _ (Nat.mod_lt _ (Nat.two_pow_pos n))]
    by_cases hmid : i < p + n
    · have hi : i - p < n := by omega
      have : p ≤ i ∧ i < p + n := by omega
      simp [hi, this, Nat.testBit_mod_two_pow]
    · have hi : ¬ i - p < n := by omega
      have hback : i - p - n + (p + n) = i := by omega
      simp [hi, hmid, Nat.testBit_div_two_pow, hback]

theorem replaceBits_lt {w old p n : Nat} (v : Nat) (hold : old < 2 ^ w) (hfit : p + n ≤ w) : replaceBits old p n v < 2 ^ w := by
  apply Nat.lt_pow_two_of_testBit
  intro i hi
  rw [testBit_replaceBits, if_neg (by omega)]
  exact Nat.testBit_lt_two_pow (hold.trans_le (Nat.pow_le_pow_right (by decide) hi))

section
variable {m : Memory} {o n : Nat}

/-- A field inside one byte spans one byte. -/
theorem fieldBytes_eq_one (hn : 0 < n) (hfit : o % 8 + n ≤ 8) : (o % 8 + n + 7) / 8 = 1 := by omega

theorem Memory.nat_one (m : Memory) (a : Nat) : m.nat a 1 = (m.get a).toNat := by simp [Memory.nat, Memory.read, ofBytes]

/-- A field inside one byte is those bits of the byte. -/
theorem Memory.field_eq_bits (m : Memory) (hn : 0 < n) (hfit : o % 8 + n ≤ 8) :
    m.field o n = (m.get (o / 8)).toNat / 2 ^ (o % 8) % 2 ^ n := by
  rw [Memory.field, fieldBytes_eq_one hn hfit, Memory.nat_one]

theorem Memory.testBit_field (m : Memory) (hn : 0 < n) (hfit : o % 8 + n ≤ 8) (i : Nat) :
    (m.field o n).testBit i = (decide (i < n) && (m.get (o / 8)).toNat.testBit (i + o % 8)) := by
  rw [Memory.field_eq_bits m hn hfit, Nat.testBit_mod_two_pow, Nat.testBit_div_two_pow]

/-- Storing a field inside one byte replaces those bits of the byte, and no other byte. -/
theorem Memory.get_setField (hm : m.wf = true) (hn : 0 < n) (hfit : o % 8 + n ≤ 8) (v a : Nat) :
    ((m.setField o n v).get a).toNat = if a = o / 8 then replaceBits (m.get a).toNat (o % 8) n v else (m.get a).toNat := by
  have hset : m.setField o n v = m.set (o / 8) (BitVec.ofNat 8 (replaceBits (m.get (o / 8)).toNat (o % 8) n v)) := by
    simp only [Memory.setField, fieldBytes_eq_one hn hfit, Memory.nat_one, toBytes, Memory.write, replaceBits]
  rw [hset, Memory.get_set hm]
  split
  · next ha => rw [ha, BitVec.toNat_ofNat, Nat.mod_eq_of_lt (replaceBits_lt v (m.get (o / 8)).isLt hfit)]
  · rfl

/-- A field reads back as stored. -/
theorem Memory.field_setField_same (hm : m.wf = true) (hn : 0 < n) (hfit : o % 8 + n ≤ 8) (v : Nat) :
    (m.setField o n v).field o n = v % 2 ^ n := by
  apply Nat.eq_of_testBit_eq
  intro i
  rw [Memory.testBit_field _ hn hfit, Memory.get_setField hm hn hfit, if_pos rfl, testBit_replaceBits, Nat.testBit_mod_two_pow]
  by_cases hi : i < n
  · rw [if_pos (by omega), Nat.add_sub_cancel]
  · simp [hi]

/-- Storing a field leaves every field without a common bit as it was, in the same byte or in another. -/
theorem Memory.field_setField_disjoint {q k : Nat} (hm : m.wf = true) (hn : 0 < n) (hfit : o % 8 + n ≤ 8) (hk : 0 < k)
    (hfitk : q % 8 + k ≤ 8) (hdisj : o + n ≤ q ∨ q + k ≤ o) (v : Nat) : (m.setField o n v).field q k = m.field q k := by
  apply Nat.eq_of_testBit_eq
  intro i
  rw [Memory.testBit_field _ hk hfitk, Memory.testBit_field _ hk hfitk, Memory.get_setField hm hn hfit]
  by_cases hi : i < k
  · split
    · next hbyte => rw [testBit_replaceBits, if_neg (by omega)]
    · rfl
  · simp [hi]

end

/-- Settles O33: integer encodes saturate, and elements below a byte are fields inside one byte. -/
theorem integerEncodings : Obligations.IntegerEncodings := by
  refine ⟨fun x => ?_, fun m k v hm => ⟨?_, ?_, ?_, fun j hj => ?_, fun j hj => ?_, ?_⟩⟩
  · have hint8 := encodeInt_saturates (fmt := 5) (lo := -128) (hi := 127) (x := x) (by decide)
      (fun y hlo hhi => signExt_emod_two_pow (k := 7) (by omega) (by omega)) rfl
    have huint8 := encodeInt_saturates (fmt := 6) (lo := 0) (hi := 255) (x := x) (by decide)
      (fun y hlo hhi => by show ((y % (2 ^ 8 : Nat)).toNat : Int) = y; omega) rfl
    have hint16 := encodeInt_saturates (fmt := 7) (lo := -32768) (hi := 32767) (x := x) (by decide)
      (fun y hlo hhi => signExt_emod_two_pow (k := 15) (by omega) (by omega)) rfl
    have hint4 := encodeInt_saturates (fmt := 15) (lo := -8) (hi := 7) (x := x) (by decide)
      (fun y hlo hhi => signExt_emod_two_pow (k := 3) (by omega) (by omega)) rfl
    refine ⟨hint8, huint8, hint16, hint4, rfl, rfl, ?_⟩
    by_cases hx : x = 0 <;> simp [encodeInt, hx]
  · rw [Memory.field_eq_bits m (by decide) (by omega), show 4 * k / 8 = k / 2 by omega]
    by_cases hk : k % 2 = 0
    · rw [if_pos hk, show 4 * k % 8 = 0 by omega]; rfl
    · rw [if_neg hk, show 4 * k % 8 = 4 by omega]; rfl
  · exact Memory.field_eq_bits m (by decide) (by omega)
  · exact Memory.field_setField_same hm (by decide) (by omega) v
  · exact Memory.field_setField_disjoint hm (by decide) (by omega) (by decide) (by omega) (by omega) v
  · exact Memory.field_setField_disjoint hm (by decide) (by omega) (by decide) (by omega) (by omega) v
  · exact Memory.field_setField_same hm (by decide) (by omega) v

end Sys2Proof.Machine
end

section
/-! PROOF. A stamp that does not match the frame cycle stops its bundle before any operation (09 R209; O59). -/

namespace Sys2Proof.Machine

section
variable {s : State} {e : Entry} {x : TrapRec}

/-! ### What stops a bundle before its operations -/

/-- The stamp is the first check, whatever the other two would find. -/
theorem State.preTrap_of_stampBad (h : s.stampBad e = true) :
    s.preTrap e = some (s.plainTrap 3 0 (s.gang.sfc.toNat % 4096) ((e.stamp.map (·.toNat)).getD 0) 0) :=
  if_pos h

/-- An entry due that fails a check traps with that check's record; its operations are not reached (10 R240). -/
theorem State.issueBundle_of_preTrap (he : s.entry? = some e) (hx : s.preTrap e = some x) : s.issueBundle = .trap x := by
  simp only [State.issueBundle, he, hx]

/-- A bundle of the rank in focus that traps adds its record, and the ranks after it issue from the state before it (10 R240). -/
theorem issueAll_cons_of_trap {r : Nat} (l : List Nat) (hr : s.rank = r) (he : s.entry? = some e) (hready : e.ready ≤ s.gang.now)
    (hx : s.issueBundle = .trap x) : issueAll (r :: l) s = ((issueAll l s).1, x :: (issueAll l s).2.1, (issueAll l s).2.2) := by
  simp only [issueAll, State.focus_self hr, he, Nat.not_lt.mpr hready, if_false, hx]

/-! ### Stamps (R209) -/

theorem State.stampBad_of_ne {n : BitVec 12} (hstamp : e.stamp = some n) (hne : n ≠ s.gang.sfc.setWidth 12) : s.stampBad e = true := by
  simp only [State.stampBad, hstamp, bne_iff_ne, ne_eq, hne, not_false_eq_true]

end

/-- Settles O59: the stamp is checked before the bundle is decoded, so a mismatch leaves nothing but its record. -/
theorem stampsAreChecked : Obligations.StampsAreChecked := by
  intro s e n r l hrank he hstamp hne
  have htrap := State.issueBundle_of_preTrap he (State.preTrap_of_stampBad (State.stampBad_of_ne hstamp hne))
  exact ⟨_, rfl, rfl, htrap, fun hready => issueAll_cons_of_trap l hrank he hready htrap⟩

end Sys2Proof.Machine
end

section
/-! PROOF. FMIN and FMAX: the order of FP32 values decides, the sign breaks the tie of the zeros (12 R281; O24). -/

namespace Sys2Proof.Machine

/-! ### Two-operand forms (12 R275) -/

section
variable {i : Instr} {o : Bin} {lat : Nat} {intX intY : Bool} (s : State)

/-- A two-operand form gives lane `j` of its destination what its lane function gives for lanes `j` of its sources, with the flags of the lanes
that its mask enables. -/
theorem vecGives_vec2 {f : W32 → W32 → W32 × Fl} (hexec : exec i s = vec2 o lat intX intY f s) :
    VecGives i s o.u o.d [(o.x, intX), (o.y, intY)] lat (s.getM o.u o.m) (fun vs j => (f (srcLane vs 0 j) (srcLane vs 1 j)).1)
      (fun vs => orLanes (fun j => (f (srcLane vs 0 j) (srcLane vs 1 j)).2) (s.getM o.u o.m)) := by
  refine vecGives_of_withSrcs hexec fun vs => ?_
  simp only [State.popped_getM, srcLane]

/-- As `vecGives_vec2`, for a lane function without flags. -/
theorem vecGives_vec2_flagless {f : W32 → W32 → W32} (hexec : exec i s = vec2 o lat intX intY (fun x y => (f x y, 0)) s) :
    VecGives i s o.u o.d [(o.x, intX), (o.y, intY)] lat (s.getM o.u o.m) (fun vs j => f (srcLane vs 0 j) (srcLane vs 1 j)) (fun _ => 0) := by
  simpa only [orLanes_zero] using vecGives_vec2 s hexec

end

/-! ### The order of values -/

theorem diffFin_swap (n₁ : Bool) (m₁ : Nat) (e₁ : Int) (n₂ : Bool) (m₂ : Nat) (e₂ : Int) :
    diffFin n₂ m₂ e₂ n₁ m₁ e₁ = -diffFin n₁ m₁ e₁ n₂ m₂ e₂ := by
  simp only [diffFin, min_comm e₂ e₁, Int.neg_sub]

theorem Val.eqv_comm (a b : Val) : a.eqv b = b.eqv a := by
  cases a with
  | nan => cases b <;> rfl
  | inf p => cases b with
    | inf q => exact Bool.beq_comm
    | _ => rfl
  | fin n₁ m₁ e₁ _ => cases b with
    | fin n₂ m₂ e₂ _ => simp only [Val.eqv, diffFin_swap n₁ m₁ e₁ n₂ m₂ e₂, Int.neg_eq_zero]
    | _ => rfl

/-- Values in strict order are not equal. -/
theorem Val.eqv_eq_false_of_lt {a b : Val} (h : a.lt b = true) : a.eqv b = false := by
  cases a with
  | nan => rfl
  | inf p => cases b with
    | inf q => revert p q; decide
    | _ => rfl
  | fin n₁ m₁ e₁ _ => cases b with
    | fin n₂ m₂ e₂ _ => exact decide_eq_false (of_decide_eq_true h).ne
    | _ => rfl

/-- The strict order holds one way only. -/
theorem Val.lt_eq_false_of_lt {a b : Val} (h : a.lt b = true) : b.lt a = false := by
  cases a with
  | nan => cases h
  | inf p => cases b with
    | inf q => revert p q; decide
    | fin => exact congrArg (!·) h
    | nan => cases h
  | fin n₁ m₁ e₁ _ => cases b with
    | fin n₂ m₂ e₂ _ =>
      have hneg : diffFin n₁ m₁ e₁ n₂ m₂ e₂ < 0 := of_decide_eq_true h
      have hswap := diffFin_swap n₁ m₁ e₁ n₂ m₂ e₂
      exact decide_eq_false (by omega)
    | inf q => exact (Bool.not_eq_true' q).mp h
    | nan => cases h

/-! ### The lane functions of FMIN and FMAX (12 R281) -/

section
variable {x y : W32}

/-- A NaN operand gives the canonical NaN. -/
theorem minMaxLane_of_isNan (h : (valOf x).isNan = true ∨ (valOf y).isNan = true) : minLane x y = nan32 ∧ maxLane x y = nan32 :=
  have hnan : ((valOf x).isNan || (valOf y).isNan) = true := (Bool.or_eq_true _ _).mpr h
  ⟨if_pos hnan, if_pos hnan⟩

variable (hx : (valOf x).isNan = false) (hy : (valOf y).isNan = false)
include hx hy

theorem minLane_of_not_isNan : minLane x y =
    if (valOf x).eqv (valOf y) then (if (valOf x).isNeg then x else y) else if (valOf x).lt (valOf y) then x else y := by
  simp only [minLane, hx, hy, Bool.or_self, Bool.false_eq_true, if_false]

theorem maxLane_of_not_isNan : maxLane x y =
    if (valOf x).eqv (valOf y) then (if (valOf x).isNeg then y else x) else if (valOf x).lt (valOf y) then y else x := by
  simp only [maxLane, hx, hy, Bool.or_self, Bool.false_eq_true, if_false]

/-- The left operand is the lesser. -/
theorem minMaxLane_of_lt (h : (valOf x).lt (valOf y) = true) : minLane x y = x ∧ maxLane x y = y := by
  have hne := Val.eqv_eq_false_of_lt h
  simp [minLane_of_not_isNan hx hy, maxLane_of_not_isNan hx hy, hne, h]

/-- The right operand is the lesser. -/
theorem minMaxLane_of_gt (h : (valOf y).lt (valOf x) = true) : minLane x y = y ∧ maxLane x y = x := by
  have hne := (Val.eqv_comm _ _).trans (Val.eqv_eq_false_of_lt h)
  have hnlt := Val.lt_eq_false_of_lt h
  simp [minLane_of_not_isNan hx hy, maxLane_of_not_isNan hx hy, hne, hnlt]

theorem minLane_eq_or_eq : minLane x y = x ∨ minLane x y = y := by
  rw [minLane_of_not_isNan hx hy]
  split <;> exact ite_eq_or_eq _ _ _

theorem maxLane_eq_or_eq : maxLane x y = x ∨ maxLane x y = y := by
  rw [maxLane_of_not_isNan hx hy]
  split <;> exact (ite_eq_or_eq _ _ _).symm

end

/-- The zeros are equal as values; their sign decides, in either order. -/
theorem minMaxLane_zeros : minLane 0 0x80000000 = 0x80000000 ∧ minLane 0x80000000 0 = 0x80000000 ∧
    maxLane 0 0x80000000 = 0 ∧ maxLane 0x80000000 0 = 0 := by decide

/-- Settles O24: where neither operand is NaN the order of their values decides, and for equal values the sign of the first; both forms go
through `vec2`. -/
theorem fminFmaxMean : Obligations.FminFmaxMean := by
  refine ⟨fun x y => minMaxLane_of_isNan, minMaxLane_zeros, fun x y hx hy => ⟨?_, ?_, ?_, ?_⟩, fun s o => ⟨?_, ?_⟩, fun o => ?_⟩
  · exact minMaxLane_of_lt hx hy
  · exact minMaxLane_of_gt hx hy
  · exact minLane_eq_or_eq hx hy
  · exact maxLane_eq_or_eq hx hy
  · exact vecGives_vec2_flagless s (rfl : exec (.fmin o) s = vec2 o 4 false false (fun x y => (minLane x y, 0)) s)
  · exact vecGives_vec2_flagless s (rfl : exec (.fmax o) s = vec2 o 4 false false (fun x y => (maxLane x y, 0)) s)
  · exact ⟨_, _, _, rfl, rfl, rfl, rfl, rfl, rfl⟩

end Sys2Proof.Machine
end

section
/-! PROOF. The M-slot forms that write a register, an accumulator bit or a micro-op, and those that open and close a chain (13 R312, R313, R316-R319; O36). -/

namespace Sys2Proof.Machine

/-! ### Writes to accumulators and their bits (13 R313, R317) -/

section
variable (s : State) {p : Pend} {k : BitVec 2}

theorem State.doWrite_live {b : Bool} (h : p.act = .live k b) :
    s.doWrite p = s.setMxu { s.core.mxu with live := rset s.core.mxu.live k b } := by
  simp only [State.doWrite, h]

theorem State.doWrite_mzero (h : p.act = .mzero k) :
    s.doWrite p = s.setMxu { s.core.mxu with acc := rset s.core.mxu.acc k zeroAcc } := by
  simp only [State.doWrite, h]

end

theorem zeroAcc_lane (m n : Nat) : Acc.lane zeroAcc m n = 0 := by
  unfold Acc.lane zeroAcc
  split
  · simp only [Vector.getElem_replicate]
  · rfl

/-- Of the four accumulators an `MZERO` zeroes its own, and TYPE stays. -/
theorem State.doWrite_mzero_reads (s : State) {p : Pend} {k : BitVec 2} (h : p.act = .mzero k) :
    (s.doWrite p).core.mxu.typ = s.core.mxu.typ ∧ (∀ m n, Acc.lane (rget (s.doWrite p).core.mxu.acc k) m n = 0) ∧
      ∀ j, j ≠ k → rget (s.doWrite p).core.mxu.acc j = rget s.core.mxu.acc j := by
  rw [s.doWrite_mzero h]
  refine ⟨rfl, fun m n => ?_, fun j hj => ?_⟩
  · rw [State.setMxu_core, rget_rset, if_pos rfl, zeroAcc_lane]
  · rw [State.setMxu_core, rget_rset, if_neg hj]

/-! ### The microprogram store (13 R319) -/

theorem State.doWrite_ucodeW (s : State) {p : Pend} {r : BitVec 8} {i : BitVec 5} {v : W64} (h : p.act = .ucodeW r i v) :
    s.doWrite p = { s with pkg := s.pkg.setUcode s.pkgCore r.toNat i.toNat v } := by
  simp only [State.doWrite, h]

/-- The newest entry for a place of the store is the first found, so it hides what stood there, the library's micro-op too. -/
theorem State.ucodeAt_setUcode_same (s : State) (c r i : Nat) (v : W64) :
    ({ s with pkg := s.pkg.setUcode c r i v } : State).ucodeAt c r i = v := by
  simp only [State.ucodeAt, Pkg.setUcode, List.find?_cons, beq_self_eq_true]

/-! ### Status and chains (13 R312, R316) -/

section
variable {s : State}

theorem exec_mstat_of_closed (mp : BitVec 3) (h : s.core.mxu.openChain (s.gang.now + 1) (fun _ => true) = false) :
    exec (.mstat mp) s = .next (s.later 1 true (.mstat mp)) :=
  if_neg (Bool.eq_false_iff.mp h)

theorem exec_mstat_of_open (mp : BitVec 3) (h : s.core.mxu.openChain (s.gang.now + 1) (fun _ => true) = true) :
    exec (.mstat mp) s = .next (s.trap .m 1 7) :=
  if_pos h

/-- A chain opens with no accumulator of its own yet; the chain before it that has not ended is kept aside. -/
theorem exec_mchb_of_closed (h : s.core.mxu.chain = false) :
    exec .mchb s = .next (s.setMxu { s.core.mxu with
      chain := true, chainNo := s.core.mxu.chainNo + 1, chainEnd := s.gang.now, chainAccs := [],
      oldChains := ((s.core.mxu.chainEnd, s.core.mxu.chainAccs) :: s.core.mxu.oldChains).filter fun x => decide (s.gang.now ≤ x.1) }) :=
  if_neg (Bool.eq_false_iff.mp h)

theorem exec_mchb_of_open (h : s.core.mxu.chain = true) : exec .mchb s = .next (s.trap .m 1 6) :=
  if_pos h

/-- A chain closes; the flags gathered for it stay while a routine of it has not ended, and those of other chains always stay. -/
theorem exec_mche_of_open (h : s.core.mxu.chain = true) :
    exec .mche s = .next (s.setMxu { s.core.mxu with
      chain := false,
      chainFlags := if s.core.mxu.q.any fun x => x.inChain == some s.core.mxu.chainNo then s.core.mxu.chainFlags
        else s.core.mxu.chainFlags.filter (·.1 != s.core.mxu.chainNo) }) :=
  if_neg (by simp [h])

theorem exec_mche_of_closed (h : s.core.mxu.chain = false) : exec .mche s = .next (s.trap .m 1 6) :=
  if_pos (by simp [h])

end

/-- Of the matrix unit only the accumulators, LIVE and TYPE are registers (13 R299). -/
theorem sameRegs_setMxu (s : State) {m : Mxu} (hacc : s.core.mxu.acc = m.acc) (hlive : s.core.mxu.live = m.live) (htyp : s.core.mxu.typ = m.typ) :
    SameRegs s.core (s.setMxu m).core :=
  ⟨rfl, rfl, rfl, rfl, rfl, rfl, rfl, hacc, hlive, htyp, rfl, rfl, rfl, rfl⟩

/-- Settles O36: the forms that never trap queue one action for its cycle; `MSTAT` goes by the chains that have not ended, and the chain forms by
whether one is open. -/
theorem matrixForms : Obligations.MatrixForms := by
  intro s k mp d i r
  refine ⟨rfl, rfl, rfl, rfl, rfl, fun p b hp => ?live, rfl, rfl, fun p hp => ?zero, rfl, fun p v hp => ?ucode, rfl,
    exec_mstat_of_closed mp, exec_mstat_of_open mp, fun hchain => ?opens, exec_mchb_of_open, fun hchain => ?closes, exec_mche_of_closed⟩
  case live => exact s.doWrite_live hp
  case zero => exact ⟨_, rfl, s.doWrite_mzero_reads hp⟩
  case ucode => rw [s.doWrite_ucodeW hp, State.ucodeAt_setUcode_same]
  case opens => exact ⟨_, exec_mchb_of_closed hchain, rfl, rfl, rfl, sameRegs_setMxu s rfl rfl rfl, rfl, rfl, rfl, rfl⟩
  case closes =>
    refine ⟨_, fun x hx => ?_, exec_mche_of_open hchain⟩
    split at hx
    · exact hx
    · exact List.mem_of_mem_filter hx

end Sys2Proof.Machine
end

section
/-! PROOF. Slots decode from their encodings (09 R215-R227; O4-O7). -/

namespace Sys2Proof

/-! ### Fields of a slot -/

/-- A field reads back as the bits that stand in it. -/
theorem fieldAt_eq {w lo k : Nat} {v : BitVec k} (h : w / 2 ^ lo % 2 ^ k = v.toNat) : fieldAt w lo k = v :=
  BitVec.eq_of_toNat_eq (by simpa [fieldAt] using h)

theorem CW.unpack_pack (f : CW) : CW.unpack f.pack = f := by
  obtain ⟨op, cr, imm, aux, sub⟩ := f
  have hop := op.isLt; have hcr := cr.isLt; have himm := imm.isLt; have haux := aux.isLt; have hsub := sub.isLt
  simp only [CW.unpack, CW.pack, CW.mk.injEq]
  refine ⟨?_, ?_, ?_, ?_, ?_⟩ <;> exact fieldAt_eq (by omega)

theorem CW.pack_lt (f : CW) : f.pack < 2 ^ 64 := by
  have hop := f.op.isLt; have hcr := f.cr.isLt; have himm := f.imm.isLt; have haux := f.aux.isLt; have hsub := f.sub.isLt
  unfold CW.pack
  omega

/-! ### Small operands -/

@[simp] theorem ofB1_b1 (b : Bool) : ofB1 (b1 b) = b := by cases b <;> rfl

theorem b1_ofB1 (x : BitVec 1) : b1 (ofB1 x) = x := by
  revert x; decide

theorem b1_lt (b : Bool) : (b1 b).toNat < 2 := (b1 b).isLt

theorem Cond.ofCode_code (c : Cond) : Cond.ofCode c.code = some c := by cases c <;> rfl

theorem FCond.ofCode_code (c : FCond) : FCond.ofCode c.code = c := by cases c <;> rfl

theorem XRnd.ofCode_code (r : XRnd) : XRnd.ofCode r.code = some r := by
  cases r with
  | dir d => cases d <;> rfl
  | dither => rfl

theorem Scope.ofCode_code (s : Scope) : Scope.ofCode s.code = some s := by cases s <;> rfl

theorem Scope.code_le (s : Scope) : s.code.toNat ≤ 5 := by cases s <;> decide

theorem fbOf_code (fb : Option (BitVec 5)) : fbOf (fbCode fb) (fbEn fb) = some fb := by cases fb <;> rfl

/-- A check that holds gives its instruction. -/
theorem need_of_true {ok : Bool} {e : DecErr} {i : Instr} (h : ok = true) : need ok e i = .ok i := if_pos h

theorem given_some {α : Type} {o : Option α} {x : α} {e : DecErr} {k : α → Except DecErr Instr} (h : o = some x) : given o e k = k x := by
  rw [h]; rfl

theorem wfOr_ok {sl : Slot} {r : Except DecErr Instr} {i : Instr} (h : r = .ok i) (hw : i.wf = true) : wfOr sl r = .ok i := by
  subst h
  exact if_pos hw

/-! ### The C slot (09 R224) -/

theorem cpImm_lt (x y : PRef) : (cpImm x y).toNat < 1024 := by
  have hx := x.p.isLt; have hy := y.p.isLt; have hn := b1_lt x.neg; have hm := b1_lt y.neg
  simp [cpImm]; omega

theorem cpA_cpImm (x y : PRef) : cpA (cpImm x y) = x := by
  have hx := x.p.isLt; have hy := y.p.isLt; have hn := b1_lt x.neg; have hm := b1_lt y.neg
  have hneg : fieldAt (cpImm x y).toNat 8 1 = b1 x.neg := fieldAt_eq (by simp [cpImm]; omega)
  have hp : fieldAt (cpImm x y).toNat 0 4 = x.p := fieldAt_eq (by simp [cpImm]; omega)
  rw [cpA, hneg, hp, ofB1_b1]

theorem cpB_cpImm (x y : PRef) : cpB (cpImm x y) = y := by
  have hx := x.p.isLt; have hy := y.p.isLt; have hn := b1_lt x.neg; have hm := b1_lt y.neg
  have hneg : fieldAt (cpImm x y).toNat 9 1 = b1 y.neg := fieldAt_eq (by simp [cpImm]; omega)
  have hp : fieldAt (cpImm x y).toNat 4 4 = y.p := fieldAt_eq (by simp [cpImm]; omega)
  rw [cpB, hneg, hp, ofB1_b1]

theorem cp2_cpImm (d : BitVec 4) (x y : PRef) (op : BitVec 8) (k : BitVec 4 → PRef → PRef → Instr) :
    cp2 ⟨op, d, cpImm x y, 0, 0⟩ k = .ok (k d x y) := by
  simp [cp2, need, cpImm_lt, cpA_cpImm, cpB_cpImm]

theorem cp1_cpImm (d : BitVec 4) (x : PRef) (op : BitVec 8) (k : BitVec 4 → PRef → Instr) :
    cp1 ⟨op, d, cpImm x .zero, 0, 0⟩ k = .ok (k d x) := by
  simp [cp1, need, cpImm_lt, cpA_cpImm, cpB_cpImm]

/-- A number below 2^k is read back from the low bits of a wider field. -/
theorem fieldAt_low {k w : Nat} (x : BitVec k) (h : k ≤ w) : fieldAt (BitVec.ofNat w x.toNat).toNat 0 k = x :=
  fieldAt_eq (by
    have := x.isLt
    have hw : x.toNat < 2 ^ w := lt_of_lt_of_le this (Nat.pow_le_pow_right (by decide) h)
    simp [Nat.mod_eq_of_lt hw, Nat.mod_eq_of_lt this])

theorem crr_ofNat (d s : BitVec 4) (op : BitVec 8) (k : BitVec 4 → BitVec 4 → Instr) : crr ⟨op, d, 0, BitVec.ofNat 10 s.toNat, 0⟩ k = .ok (k d s) := by
  have hs := s.isLt
  refine (need_of_true ?_).trans ?_
  · simp; omega
  · rw [fieldAt_low s (by decide)]

theorem decC_loop {imm : BitVec 32} {e : BitVec 10} {n : BitVec 24} {ring : BitVec 8} (hn : imm.toNat % 2 ^ 24 = n.toNat)
    (hr : imm.toNat / 2 ^ 24 = ring.toNat) (h : n.toNat ≠ 0) : decC ⟨0x05, 0, imm, e, 0⟩ = .ok (.loop n e ring) := by
  have h1 : fieldAt imm.toNat 0 24 = n := fieldAt_eq (by omega)
  have h2 : fieldAt imm.toNat 24 8 = ring := fieldAt_eq (by have := ring.isLt; omega)
  rw [← h1, ← h2]
  exact if_neg (show ¬imm.toNat % 2 ^ 24 = 0 by omega)

theorem decC_loopr {imm : BitVec 32} {s : BitVec 4} {e : BitVec 10} {ring : BitVec 8} (hz : imm.toNat % 2 ^ 24 = 0)
    (hr : imm.toNat / 2 ^ 24 = ring.toNat) : decC ⟨0x06, s, imm, e, 0⟩ = .ok (.loopr s e ring) := by
  have h2 : fieldAt imm.toNat 24 8 = ring := fieldAt_eq (by have := ring.isLt; omega)
  rw [← h2]
  exact need_of_true (by simpa using hz)

/-- A V-slot instruction stands in the slot of its unit. -/
theorem Instr.slot?_of_vu? {i : Instr} {u : VU} (h : i.vu? = some u) : i.slot? = some u.slot := by
  cases i <;> cases h <;> rfl

theorem decC_encC (i : Instr) (hs : i.slot? = some .c) (hv : i.vu? = none) (hw : i.wf = true) : ∃ f, encC i = some f ∧ decC f = .ok i := by
  cases i with
  | nop | ret | sign | yield_ | sealreq | halt => exact ⟨_, rfl, rfl⟩
  | br s | enq s | psave s | pload s | frameCyc s => exact ⟨_, rfl, rfl⟩
  | bri t | call t | brkLoop t => exact ⟨_, rfl, rfl⟩
  | trap k | brk k => exact ⟨_, rfl, rfl⟩
  | sysrd d r | syswr r d => exact ⟨_, rfl, rfl⟩
  | frame d k | cmovi d k | caddi d k => exact ⟨_, rfl, rfl⟩
  | pset d x | pnot d x => exact ⟨_, rfl, cp1_cpImm d x _ _⟩
  | pand d x y | por d x y | pxor d x y => exact ⟨_, rfl, cp2_cpImm d x y _ _⟩
  | cmov d s | cadd d s | csub d s => exact ⟨_, rfl, crr_ofNat d s _ _⟩
  | loop n e ring =>
    have hn : n.toNat ≠ 0 := by simpa [Instr.wf, BitVec.toNat_eq] using hw
    have hn' := n.isLt; have hr := ring.isLt
    refine ⟨_, rfl, decC_loop (n := n) (ring := ring) ?_ ?_ hn⟩ <;> simp <;> omega
  | loopr s e ring =>
    have hr := ring.isLt
    refine ⟨_, rfl, decC_loopr (ring := ring) ?_ ?_⟩ <;> simp; omega
  | waitb fb ph =>
    have hf := fb.isLt; have hb := b1_lt ph
    have h1 : fieldAt (BitVec.ofNat 10 (fb.toNat + (b1 ph).toNat * 32)).toNat 0 5 = fb := fieldAt_eq (by simp; omega)
    have h2 : fieldAt (BitVec.ofNat 10 (fb.toNat + (b1 ph).toNat * 32)).toNat 5 1 = b1 ph := fieldAt_eq (by simp; omega)
    refine ⟨_, rfl, (need_of_true ?_).trans ?_⟩
    · simp; omega
    · rw [h1, h2, ofB1_b1]
  | arrv fb =>
    have hf := fb.isLt
    refine ⟨_, rfl, (need_of_true ?_).trans ?_⟩
    · simp; omega
    · rw [fieldAt_low fb (by decide)]
  | waita p s limit =>
    have hp := p.isLt
    refine ⟨_, rfl, (need_of_true ?_).trans ?_⟩
    · simp; omega
    · rw [fieldAt_low p (by decide)]
  | fence sc mask fb =>
    have hs := sc.code_le; have hm := mask.isLt; have he := (fbEn fb).isLt; have hf := (fbCode fb).isLt
    have h1 : fieldAt (BitVec.ofNat 10 (sc.code.toNat + (fbEn fb).toNat * 8 + (fbCode fb).toNat * 16)).toNat 0 3 = sc.code := fieldAt_eq (by simp; omega)
    have h2 : fieldAt (BitVec.ofNat 10 (sc.code.toNat + (fbEn fb).toNat * 8 + (fbCode fb).toNat * 16)).toNat 3 1 = fbEn fb := fieldAt_eq (by simp; omega)
    have h3 : fieldAt (BitVec.ofNat 10 (sc.code.toNat + (fbEn fb).toNat * 8 + (fbCode fb).toNat * 16)).toNat 4 5 = fbCode fb := fieldAt_eq (by simp; omega)
    refine ⟨_, rfl, (given_some (h1 ▸ sc.ofCode_code)).trans ((given_some (x := fb) (by simp only [h2, h3, fbOf_code])).trans ((need_of_true ?_).trans ?_))⟩
    · simp; omega
    · rw [fieldAt_low mask (by decide)]
  | ccmp c p x y =>
    have hp := p.isLt; have hy := y.isLt
    have h1 : fieldAt (BitVec.ofNat 10 (y.toNat + p.toNat * 64)).toNat 6 4 = p := fieldAt_eq (by simp; omega)
    have h2 : fieldAt (BitVec.ofNat 10 (y.toNat + p.toNat * 64)).toNat 0 4 = y := fieldAt_eq (by simp; omega)
    have h3 : fieldAt (BitVec.ofNat 10 (y.toNat + p.toNat * 64)).toNat 4 2 = 0 := fieldAt_eq (by simp; omega)
    refine ⟨_, rfl, (given_some c.ofCode_code).trans ((need_of_true ?_).trans ?_)⟩
    · rw [h3]; rfl
    · rw [h1, h2]
  | ccmpi c p x k =>
    have hp := p.isLt
    have h1 : fieldAt (BitVec.ofNat 10 (p.toNat * 64)).toNat 6 4 = p := fieldAt_eq (by simp; omega)
    refine ⟨_, rfl, (given_some c.ofCode_code).trans ((need_of_true ?_).trans ?_)⟩
    · simp
    · rw [h1]
  | copyAC d s =>
    have hd := d.isLt
    refine ⟨_, rfl, (need_of_true ?_).trans ?_⟩
    · simp; omega
    · rw [fieldAt_low d (by decide)]
  | _ => first | cases hs | cases hv

/-! ### The A slot (09 R225) -/

theorem AW.unpack_pack (f : AW) : AW.unpack f.pack = f := by
  obtain ⟨op, dst, rest⟩ := f
  have hop := op.isLt; have hd := dst.isLt; have hr := rest.isLt
  simp only [AW.unpack, AW.pack, AW.mk.injEq]
  refine ⟨?_, ?_, ?_⟩ <;> exact fieldAt_eq (by omega)

theorem AW.pack_lt (f : AW) : f.pack < 2 ^ 48 := by
  have hop := f.op.isLt; have hd := f.dst.isLt; have hr := f.rest.isLt
  unfold AW.pack
  omega

@[simp] theorem AR.unpack_pack (r : AR) : AR.unpack r.pack = r := by
  obtain ⟨sa, sb, pd, fn, imm⟩ := r
  have h1 := sa.isLt; have h2 := sb.isLt; have h3 := pd.isLt; have h4 := fn.isLt; have h5 := imm.isLt
  simp only [AR.unpack, AR.pack, AR.mk.injEq, BitVec.toNat_ofNat]
  refine ⟨?_, ?_, ?_, ?_, ?_⟩ <;> exact fieldAt_eq (by omega)

@[simp] theorem AT.unpack_pack (r : AT) : AT.unpack r.pack = r := by
  obtain ⟨tile, idx, imm⟩ := r
  have h1 := tile.isLt; have h2 := idx.isLt; have h3 := imm.isLt
  simp only [AT.unpack, AT.pack, AT.mk.injEq, BitVec.toNat_ofNat]
  refine ⟨?_, ?_, ?_⟩ <;> exact fieldAt_eq (by omega)

@[simp] theorem AM.unpack_pack (r : AM) : AM.unpack r.pack = r := by
  obtain ⟨base, imm, st, size, z⟩ := r
  have h1 := base.isLt; have h2 := imm.isLt; have h3 := st.isLt; have h4 := size.isLt; have h5 := z.isLt
  simp only [AM.unpack, AM.pack, AM.mk.injEq, BitVec.toNat_ofNat]
  refine ⟨?_, ?_, ?_, ?_, ?_⟩ <;> exact fieldAt_eq (by omega)

/-- A field that a wider one holds alone. -/
theorem fieldAt_zeroExtend {k w : Nat} (x : BitVec k) (h : k ≤ w) : fieldAt (x.zeroExtend w).toNat 0 k = x := by
  simpa using fieldAt_low x h

section
variable {f : AW} {x y : BitVec 5}

theorem a3_ok {k : BitVec 5 → BitVec 5 → BitVec 5 → Instr} (h : AR.unpack f.rest = ⟨x, y, 0, 0, 0⟩) : a3 f k = .ok (k f.dst x y) := by
  simp [a3, need, h]

theorem a3u_ok {u : Bool} {k : BitVec 5 → BitVec 5 → BitVec 5 → Bool → Instr} (h : AR.unpack f.rest = ⟨x, y, 0, (b1 u).zeroExtend 5, 0⟩) :
    a3u f k = .ok (k f.dst x y u) := by
  cases u <;> simp [a3u, need, h, b1, fieldAt, ofB1]

theorem a2_ok {k : BitVec 5 → BitVec 5 → Instr} (h : AR.unpack f.rest = ⟨x, 0, 0, 0, 0⟩) : a2 f k = .ok (k f.dst x) := by
  simp [a2, need, h]

theorem aCopy_ok {i : BitVec 5 → Instr} (h : AR.unpack f.rest = ⟨x, 0, 0, 0, 0⟩) : aCopy f i = .ok (i x) := by
  simp [aCopy, need, h]

theorem aImm_ok {imm : BitVec 12} {k : BitVec 5 → BitVec 5 → BitVec 12 → Instr} (h : AR.unpack f.rest = ⟨x, 0, 0, 0, imm⟩) :
    aImm f k = .ok (k f.dst x imm) := by
  simp [aImm, need, h]

theorem aSh_ok {n : BitVec 6} {k : BitVec 5 → BitVec 5 → BitVec 6 → Instr} (h : AR.unpack f.rest = ⟨x, 0, 0, 0, n.zeroExtend 12⟩) :
    aSh f k = .ok (k f.dst x n) := by
  have hn := n.isLt
  have hf := fieldAt_zeroExtend n (w := 12) (by decide)
  refine (need_of_true ?_).trans ?_
  · simp [h]; omega
  · simp only [h, hf]

theorem aFar_ok {sz : BitVec 2} {st : BitVec 4} {off : BitVec 16} {k : BitVec 2 → BitVec 4 → BitVec 5 → BitVec 5 → BitVec 16 → Instr}
    (h : AM.unpack f.rest = ⟨x, off, st, sz, 0⟩) : aFar f k = .ok (k sz st f.dst x off) := by
  simp [aFar, need, h]

end

/-- An instruction of format AR decodes, where the bits that its fields make are taken apart again. -/
theorem decA_of_ar {i : Instr} {op : BitVec 7} {d : BitVec 5} {r : AR} (he : encA i = aw op d r)
    (hd : ∀ rest, AR.unpack rest = r → decA ⟨op, d, rest⟩ = .ok i) : ∃ f, encA i = some f ∧ decA f = .ok i :=
  ⟨_, he, hd _ r.unpack_pack⟩

theorem decA_of_at {i : Instr} {op : BitVec 7} {d : BitVec 5} {r : AT} (he : encA i = some ⟨op, d, r.pack⟩)
    (hd : ∀ rest, AT.unpack rest = r → decA ⟨op, d, rest⟩ = .ok i) : ∃ f, encA i = some f ∧ decA f = .ok i :=
  ⟨_, he, hd _ r.unpack_pack⟩

theorem decA_of_am {i : Instr} {op : BitVec 7} {d : BitVec 5} {r : AM} (he : encA i = some ⟨op, d, r.pack⟩)
    (hd : ∀ rest, AM.unpack rest = r → decA ⟨op, d, rest⟩ = .ok i) : ∃ f, encA i = some f ∧ decA f = .ok i :=
  ⟨_, he, hd _ r.unpack_pack⟩

theorem cmpFn_cond (c : Cond) (d : Option (BitVec 5)) : Cond.ofCode (fieldAt (cmpFn c d).toNat 0 4) = some c := by
  have hc := c.code.isLt
  have h : fieldAt (cmpFn c d).toNat 0 4 = c.code := fieldAt_eq (by cases d <;> simp [cmpFn] <;> omega)
  rw [h, c.ofCode_code]

theorem aCmpDst_cmpFn (c : Cond) (d : Option (BitVec 5)) : aCmpDst (d.getD 0) (cmpFn c d) = some d := by
  have hc := c.code.isLt
  cases d with
  | none => exact (if_pos (by simp [cmpFn]; omega)).trans (if_pos rfl)
  | some r => exact if_neg (by simp [cmpFn]; omega)

/-- Two numbers of six bits side by side in twelve (11 R268). -/
theorem pair6 (lo w1 : BitVec 6) : fieldAt (BitVec.ofNat 12 (lo.toNat + w1.toNat * 64)).toNat 0 6 = lo ∧
    fieldAt (BitVec.ofNat 12 (lo.toNat + w1.toNat * 64)).toNat 6 6 = w1 := by
  have h1 := lo.isLt; have h2 := w1.isLt
  constructor <;> refine fieldAt_eq ?_ <;> simp <;> omega

theorem copyVDst_msk (msk : Bool) (k : BitVec 3) : fieldAt (copyVDst msk k).toNat 4 1 = b1 msk ∧ fieldAt (copyVDst msk k).toNat 3 1 = 0 ∧
    fieldAt (copyVDst msk k).toNat 0 3 = k := by
  have hk := k.isLt; have hm := b1_lt msk
  refine ⟨fieldAt_eq ?_, fieldAt_eq ?_, fieldAt_eq ?_⟩ <;> simp [copyVDst] <;> omega

theorem decA_encA (i : Instr) (hs : i.slot? = some .a) (hv : i.vu? = none) (hw : i.wf = true) : ∃ f, encA i = some f ∧ decA f = .ok i := by
  cases i with
  | add d x y | sub d x y | mul d x y | shl d x y | shr d x y | sar d x y | and_ d x y | or_ d x y | xor_ d x y =>
    exact decA_of_ar rfl fun _ h => a3_ok h
  | mulh d x y u | min_ d x y u | max_ d x y u => exact decA_of_ar rfl fun _ h => a3u_ok h
  | clz d x | popc d x => exact decA_of_ar rfl fun _ h => a2_ok h
  | addi d x k | andi d x k | ori d x k | xori d x k => exact decA_of_ar rfl fun _ h => aImm_ok h
  | shli d x n | shri d x n | sari d x n => exact decA_of_ar rfl fun _ h => aSh_ok h
  | movi d k | movhi d k => exact ⟨_, rfl, rfl⟩
  | fld sz st d b off | fst sz st d b off => exact decA_of_am rfl fun _ h => aFar_ok h
  | cmp c d p x y | cmpi c d p x y =>
    refine decA_of_ar rfl fun rest h => (given_some (x := c) ?_).trans ((given_some (x := d) ?_).trans ((need_of_true ?_).trans ?_)) <;>
      simp only [h, cmpFn_cond, aCmpDst_cmpFn, beq_self_eq_true]
  | sel d p x y => refine decA_of_ar rfl fun _ h => (need_of_true ?_).trans ?_ <;> simp [h]
  | bfx s d x lo w1 =>
    obtain ⟨h1, h2⟩ := pair6 lo w1
    have h3 : fieldAt ((b1 s).zeroExtend 5).toNat 0 1 = b1 s := fieldAt_zeroExtend _ (by decide)
    refine decA_of_ar rfl fun _ h => (need_of_true ?_).trans ?_
    · have := b1_lt s
      simp [h]; omega
    · simp only [h, h1, h2, h3, ofB1_b1]
  | bfi d x lo w1 =>
    obtain ⟨h1, h2⟩ := pair6 lo w1
    refine decA_of_ar rfl fun _ h => (need_of_true ?_).trans ?_
    · simp [h]
    · simp only [h, h1, h2]
  | ldt d t i off | stt d t i off => exact decA_of_at rfl fun rest h => by simp [decA, h]
  | genSet p w s =>
    have hp := p.isLt; have hw' := w.isLt
    have h1 : fieldAt (BitVec.ofNat 12 (p.toNat + w.toNat * 16)).toNat 0 4 = p := fieldAt_eq (by simp; omega)
    have h2 : fieldAt (BitVec.ofNat 12 (p.toNat + w.toNat * 16)).toNat 4 3 = w := fieldAt_eq (by simp; omega)
    refine decA_of_ar rfl fun _ h => wfOr_ok ((need_of_true ?_).trans ?_) hw
    · simp [h]; omega
    · simp only [h, h1, h2]
  | genArm p =>
    have hp := p.isLt
    refine decA_of_ar rfl fun _ h => wfOr_ok ((need_of_true ?_).trans ?_) hw
    · simp [h]; omega
    · simp only [h, fieldAt_low p (show 4 ≤ 12 by decide)]
  | talloc t e q fmt dims lvl retain owner =>
    have h1 := fmt.isLt; have h2 := dims.isLt; have h3 := b1_lt lvl; have h4 := b1_lt retain; have h5 := owner.isLt
    have hn : (BitVec.ofNat 14 (fmt.toNat + dims.toNat * 32 + (b1 lvl).toNat * 128 + (b1 retain).toNat * 256 + owner.toNat * 512)).toNat =
      fmt.toNat + dims.toNat * 32 + (b1 lvl).toNat * 128 + (b1 retain).toNat * 256 + owner.toNat * 512 := by simp; omega
    refine decA_of_at rfl fun _ h => wfOr_ok ((need_of_true ?_).trans ?_) hw
    · simp only [h, hn, decide_eq_true_eq]; omega
    · simp only [h, hn]
      rw [fieldAt_eq (v := fmt), fieldAt_eq (v := dims), fieldAt_eq (v := b1 lvl), fieldAt_eq (v := b1 retain), fieldAt_eq (v := owner), ofB1_b1, ofB1_b1] <;> omega
  | tfree t => refine decA_of_at rfl fun _ h => (need_of_true ?_).trans ?_ <;> simp [h]
  | copyV0 msk k s | copyV1 msk k s =>
    obtain ⟨h1, h2, h3⟩ := copyVDst_msk msk k
    refine decA_of_ar rfl fun _ h => (congrArg (Except.bind · _) (wfOr_ok ((aCopy_ok h).trans ?_) hw)).trans (need_of_true ?_)
    · simp only [h1, h3, ofB1_b1]
    · simp only [h2]; rfl
  | copyM k s | copyX k s | copyC k s =>
    have hk := k.isLt
    have hf := fieldAt_zeroExtend k (w := 5) (by decide)
    refine decA_of_ar rfl fun _ h => (congrArg (Except.bind · _) (aCopy_ok h)).trans ((need_of_true ?_).trans ?_)
    · simp; omega
    · simp only [hf]
  | _ => first | cases hs | cases hv

/-- A C-slot or A-slot instruction stands in no V slot. -/
theorem Instr.vu?_of_slot {i : Instr} {sl : Slot} (hs : i.slot? = some sl) (h0 : sl ≠ .v0) (h1 : sl ≠ .v1) : i.vu? = none := by
  by_contra h
  obtain ⟨u, hu⟩ := Option.ne_none_iff_exists'.mp h
  have h2 := hs.symm.trans (Instr.slot?_of_vu? hu)
  cases u
  · exact h0 (Option.some.inj h2)
  · exact h1 (Option.some.inj h2)

/-- Settles O4: each form's fields read back, format by format. -/
theorem encodeC : Obligations.EncodeC := by
  intro i hs hw
  obtain ⟨f, he, hd⟩ := decC_encC i hs (i.vu?_of_slot hs (by decide) (by decide)) hw
  exact ⟨f.pack, by simp [encodeIn, he], f.pack_lt, by simp [decodeSlot, f.unpack_pack, hd]⟩

/-- Settles O5, as `encodeC`. -/
theorem encodeA : Obligations.EncodeA := by
  intro i hs hw
  obtain ⟨f, he, hd⟩ := decA_encA i hs (i.vu?_of_slot hs (by decide) (by decide)) hw
  exact ⟨f.pack, by simp [encodeIn, he], f.pack_lt, by simp [decodeSlot, f.unpack_pack, hd]⟩

/-! ### The M, X and F slots (09 R227) -/

theorem MW.unpack_pack (f : MW) : MW.unpack f.pack = f := by
  obtain ⟨op, idx, acc, tile, rm, sat, mp, areg, z⟩ := f
  have h1 := op.isLt; have h2 := idx.isLt; have h3 := acc.isLt; have h4 := tile.isLt; have h5 := rm.isLt; have h6 := sat.isLt
  have h7 := mp.isLt; have h8 := areg.isLt; have h9 := z.isLt
  simp only [MW.unpack, MW.pack, MW.mk.injEq]
  refine ⟨?_, ?_, ?_, ?_, ?_, ?_, ?_, ?_, ?_⟩ <;> exact fieldAt_eq (by omega)

theorem MW.pack_lt (f : MW) : f.pack < 2 ^ 48 := by
  have h1 := f.op.isLt; have h2 := f.idx.isLt; have h3 := f.acc.isLt; have h4 := f.tile.isLt; have h5 := f.rm.isLt; have h6 := f.sat.isLt
  have h7 := f.mp.isLt; have h8 := f.areg.isLt; have h9 := f.z.isLt
  unfold MW.pack
  omega

theorem XW.unpack_pack (f : XW) : XW.unpack f.pack = f := by
  obtain ⟨op, xa, xb, st, fb, fben, rm, sat, dig, sub, areg, z⟩ := f
  have h1 := op.isLt; have h2 := xa.isLt; have h3 := xb.isLt; have h4 := st.isLt; have h5 := fb.isLt; have h6 := fben.isLt
  have h7 := rm.isLt; have h8 := sat.isLt; have h9 := dig.isLt; have h10 := sub.isLt; have h11 := areg.isLt; have h12 := z.isLt
  simp only [XW.unpack, XW.pack, XW.mk.injEq]
  refine ⟨?_, ?_, ?_, ?_, ?_, ?_, ?_, ?_, ?_, ?_, ?_, ?_⟩ <;> exact fieldAt_eq (by omega)

theorem XW.pack_lt (f : XW) : f.pack < 2 ^ 48 := by
  have h1 := f.op.isLt; have h2 := f.xa.isLt; have h3 := f.xb.isLt; have h4 := f.st.isLt; have h5 := f.fb.isLt; have h6 := f.fben.isLt
  have h7 := f.rm.isLt; have h8 := f.sat.isLt; have h9 := f.dig.isLt; have h10 := f.sub.isLt; have h11 := f.areg.isLt; have h12 := f.z.isLt
  unfold XW.pack
  omega

theorem FW.unpack_pack (f : FW) : FW.unpack f.pack = f := by
  obtain ⟨op, link, tile, start, xp, z⟩ := f
  have h1 := op.isLt; have h2 := link.isLt; have h3 := tile.isLt; have h4 := start.isLt; have h5 := xp.isLt; have h6 := z.isLt
  simp only [FW.unpack, FW.pack, FW.mk.injEq]
  refine ⟨?_, ?_, ?_, ?_, ?_, ?_⟩ <;> exact fieldAt_eq (by omega)

theorem FW.pack_lt (f : FW) : f.pack < 2 ^ 48 := by
  have h1 := f.op.isLt; have h2 := f.link.isLt; have h3 := f.tile.isLt; have h4 := f.start.isLt; have h5 := f.xp.isLt; have h6 := f.z.isLt
  unfold FW.pack
  omega

theorem decM_encM (i : Instr) (hs : i.slot? = some .m) (hv : i.vu? = none) (hw : i.wf = true) : ∃ f, encM i = some f ∧ decM f = .ok i := by
  cases i with
  | mcall r k => exact ⟨_, rfl, rfl⟩
  | mchb | mche => exact ⟨_, rfl, rfl⟩
  | mzero k | mlive k | mdead k | mstat k => exact ⟨_, rfl, rfl⟩
  | copyAM d mp => exact ⟨_, rfl, rfl⟩
  | mdrain t acc mp rm sat =>
    refine ⟨_, rfl, (given_some rm.ofCode_code).trans ((need_of_true rfl).trans ?_)⟩
    rw [ofB1_b1]
  | mgidx mp n => exact ⟨_, rfl, wfOr_ok (need_of_true (e := .reserved .m) rfl) hw⟩
  | mloaduc r i mp | mreaduc mp r i =>
    have hi := i.isLt
    refine ⟨_, rfl, (need_of_true ?_).trans ?_⟩
    · simp [MW.only]; omega
    · rw [fieldAt_zeroExtend i (by decide)]
  | _ => first | cases hs | cases hv

/-- The two low bits of SUB (14 R350). -/
theorem sub2_bits (g np : Bool) : fieldAt (sub2 g np).toNat 0 1 = b1 g ∧ fieldAt (sub2 g np).toNat 1 1 = b1 np ∧ (sub2 g np).toNat < 4 := by
  revert g np
  decide

theorem decBx_eBx {op : BitVec 6} {f : XW} (o : BxOps) (k : BxOps → Instr) (he : eBx op o = some f) (hw : (k o).wf = true) : decBx f k = .ok (k o) := by
  cases he
  refine (given_some o.rm.ofCode_code).trans ((given_some (fbOf_code o.fb)).trans (wfOr_ok ((need_of_true ?_).trans ?_) hw))
  · cases o.dmw <;> rfl
  · simp only [ofB1_b1, fieldAt_zeroExtend (b1 o.dmw) (show 1 ≤ 4 by decide)]

theorem decAt2_eAt2 {op : BitVec 6} {f : XW} (o : At2) (k : At2 → Instr) (he : eAt2 op o = some f) (hw : (k o).wf = true) : decAt2 f k = .ok (k o) := by
  cases he
  obtain ⟨hg, hnp, hlt⟩ := sub2_bits o.g o.np
  refine (given_some (fbOf_code o.fb)).trans (wfOr_ok ((need_of_true ?_).trans ?_) hw)
  · simpa using hlt
  · simp only [hg, hnp, ofB1_b1]

theorem decAt1_eAt1 {op : BitVec 6} {f : XW} (o : At1) (k : At1 → Instr) (he : eAt1 op o = some f) (hw : (k o).wf = true) : decAt1 f k = .ok (k o) := by
  cases he
  obtain ⟨hg, hnp, hlt⟩ := sub2_bits o.g o.np
  refine (given_some (fbOf_code o.fb)).trans (wfOr_ok ((need_of_true ?_).trans ?_) hw)
  · simpa using hlt
  · simp only [hg, hnp, ofB1_b1]

theorem decWin_eWin {op : BitVec 6} {f : XW} (o : WinOps) (k : WinOps → Instr) (he : eWin op o = some f) (hw : (k o).wf = true) : decWin f k = .ok (k o) := by
  cases he
  refine (given_some (fbOf_code o.fb)).trans (wfOr_ok ((need_of_true rfl).trans ?_) hw)
  simp only [ofB1_b1]

theorem decX_encX (i : Instr) (hs : i.slot? = some .x) (hv : i.vu? = none) (hw : i.wf = true) : ∃ f, encX i = some f ∧ decX f = .ok i := by
  cases i with
  | bxLd o | bxSt o | bxCp o => exact ⟨_, rfl, decBx_eBx o _ rfl hw⟩
  | atLd o | atXrd o | atXclr o | sbArrv o => exact ⟨_, rfl, decAt1_eAt1 o _ rfl hw⟩
  | atSt o | atAdd o | atAnd o | atOr o | atXor o | atMin o | atMax o | atMinu o | atMaxu o | atSwap o | atCas o | atXadd o =>
    exact ⟨_, rfl, decAt2_eAt2 o _ rfl hw⟩
  | ingest o | egress o => exact ⟨_, rfl, decWin_eWin o _ rfl hw⟩
  | bxSch n | csadv n =>
    have hn := n.isLt
    refine ⟨_, rfl, (need_of_true ?_).trans ?_⟩
    · simp [XW.quiet]; omega
    · rw [fieldAt_zeroExtend n (by decide)]
  | lx xa xb rm sat =>
    refine ⟨_, rfl, (given_some rm.ofCode_code).trans (wfOr_ok ((need_of_true rfl).trans ?_) hw)⟩
    rw [ofB1_b1]
  | sbWait st xa gen => cases gen <;> exact ⟨_, rfl, rfl⟩
  | cqPop xa => exact ⟨_, rfl, wfOr_ok (need_of_true (e := .reserved .x) rfl) hw⟩
  | copyAX d k => exact ⟨_, rfl, rfl⟩
  | _ => first | cases hs | cases hv

theorem decF_encF (i : Instr) (hs : i.slot? = some .f) (hv : i.vu? = none) (hw : i.wf = true) : ∃ f, encF i = some f ∧ decF f = .ok i := by
  cases i with
  | send l t xp st | recv l t xp st | mcast l t xp st | lchk l st => exact ⟨_, rfl, wfOr_ok (need_of_true (e := .reserved .f) rfl) hw⟩
  | relay l m xp st =>
    have hm := m.isLt
    refine ⟨_, rfl, wfOr_ok ((need_of_true ?_).trans ?_) hw⟩
    · simp; omega
    · rw [fieldAt_zeroExtend m (by decide)]
  | _ => first | cases hs | cases hv

/-- Settles O7, as `encodeC` for each of the three slots. -/
theorem encodeMXF : Obligations.EncodeMXF := by
  rintro i sl (rfl | rfl | rfl) hs hw
  · obtain ⟨f, he, hd⟩ := decM_encM i hs (i.vu?_of_slot hs (by decide) (by decide)) hw
    exact ⟨f.pack, by simp [encodeIn, he], f.pack_lt, by simp [decodeSlot, f.unpack_pack, hd]⟩
  · obtain ⟨f, he, hd⟩ := decX_encX i hs (i.vu?_of_slot hs (by decide) (by decide)) hw
    exact ⟨f.pack, by simp [encodeIn, he], f.pack_lt, by simp [decodeSlot, f.unpack_pack, hd]⟩
  · obtain ⟨f, he, hd⟩ := decF_encF i hs (i.vu?_of_slot hs (by decide) (by decide)) hw
    exact ⟨f.pack, by simp [encodeIn, he], f.pack_lt, by simp [decodeSlot, f.unpack_pack, hd]⟩

/-! ### The V slots (09 R218, R226) -/

theorem VW.unpack_pack (f : VW) : VW.unpack f.pack = f := by
  obtain ⟨op, dst, sa, sb, sc, mask, mode, rot, mod⟩ := f
  have h1 := op.isLt; have h2 := dst.isLt; have h3 := sa.isLt; have h4 := sb.isLt; have h5 := sc.isLt; have h6 := mask.isLt
  have h7 := mode.isLt; have h8 := rot.isLt; have h9 := mod.isLt
  simp only [VW.unpack, VW.pack, VW.mk.injEq]
  refine ⟨?_, ?_, ?_, ?_, ?_, ?_, ?_, ?_, ?_⟩ <;> exact fieldAt_eq (by omega)

theorem VW.pack_lt (f : VW) : f.pack < 2 ^ 64 := by
  have h1 := f.op.isLt; have h2 := f.dst.isLt; have h3 := f.sa.isLt; have h4 := f.sb.isLt; have h5 := f.sc.isLt; have h6 := f.mask.isLt
  have h7 := f.mode.isLt; have h8 := f.rot.isLt; have h9 := f.mod.isLt
  unfold VW.pack
  omega

/-! The four ROT bits read back. -/

section
variable (d a b c : BitVec 1)

theorem rotBits_d : fieldAt (rotBits d a b c).toNat 3 1 = d := by
  have hd := d.isLt; have ha := a.isLt; have hb := b.isLt; have hc := c.isLt
  refine fieldAt_eq ?_
  simp [rotBits]; omega

theorem rotBits_a : fieldAt (rotBits d a b c).toNat 2 1 = a := by
  have hd := d.isLt; have ha := a.isLt; have hb := b.isLt; have hc := c.isLt
  refine fieldAt_eq ?_
  simp [rotBits]; omega

theorem rotBits_b : fieldAt (rotBits d a b c).toNat 1 1 = b := by
  have hd := d.isLt; have ha := a.isLt; have hb := b.isLt; have hc := c.isLt
  refine fieldAt_eq ?_
  simp [rotBits]; omega

theorem rotBits_c : fieldAt (rotBits d a b c).toNat 0 1 = c := by
  have hd := d.isLt; have ha := a.isLt; have hb := b.isLt; have hc := c.isLt
  refine fieldAt_eq ?_
  simp [rotBits]; omega

end

theorem srcOf_code (x : VSrc) : srcOf x.code x.rotBit = some x := by
  cases x with
  | reg n r =>
    have hn := n.isLt
    have h := fieldAt_low n (w := 6) (by decide)
    simp only [srcOf, VSrc.code, VSrc.rotBit, h, ofB1_b1]
    exact if_pos (by simp; omega)
  | pop k | peek k | bc k | const k => revert k; decide

theorem dstOf_code (x : VDst) : dstOf x.code x.rotBit = some x := by
  cases x with
  | reg n r =>
    have hn := n.isLt
    have h := fieldAt_low n (w := 6) (by decide)
    simp only [dstOf, VDst.code, VDst.rotBit, h, ofB1_b1]
    exact if_pos (by simp; omega)
  | push k => revert k; decide

theorem num3_zeroExtend (k : BitVec 3) : num3 (k.zeroExtend 6) = some k := by
  revert k; decide

theorem dirMode_dm (rm : Dir) : dirMode (dm rm) = some rm := by cases rm <;> rfl

section
variable {u : VU} {f : VW} {op : BitVec 8} {mode : BitVec 8} {mod : BitVec 12}

theorem vUn_eUn (o : Un) {k : Un → Except DecErr Instr} {i : Instr} (he : eUn op o mode mod = some f) (hk : k o = .ok i) : vUn o.u f k = .ok i := by
  cases he
  rw [← hk]
  simp only [vUn, given, VW.rotD, VW.rotA, VW.rotB, VW.rotC, rotBits_d, rotBits_a, rotBits_b, rotBits_c, dstOf_code, srcOf_code]
  rfl

theorem vBin_eBin (o : Bin) {k : Bin → Except DecErr Instr} {i : Instr} (he : eBin op o mode mod = some f) (hk : k o = .ok i) : vBin o.u f k = .ok i := by
  cases he
  rw [← hk]
  simp only [vBin, given, VW.rotD, VW.rotA, VW.rotB, VW.rotC, rotBits_d, rotBits_a, rotBits_b, rotBits_c, dstOf_code, srcOf_code]
  rfl

theorem vTri_eTri (o : Tri) {k : Tri → Except DecErr Instr} {i : Instr} (he : eTri op o mode = some f) (hk : k o = .ok i) : vTri o.u f k = .ok i := by
  cases he
  rw [← hk]
  simp only [vTri, given, VW.rotD, VW.rotA, VW.rotB, VW.rotC, rotBits_d, rotBits_a, rotBits_b, rotBits_c, dstOf_code, srcOf_code]

theorem vCmp_eCmp (o : CmpOps) {k : CmpOps → Except DecErr Instr} {i : Instr} (he : eCmp op o mod = some f) (hk : k o = .ok i) : vCmp o.u f k = .ok i := by
  cases he
  rw [← hk]
  simp only [vCmp, given, VW.rotD, VW.rotA, VW.rotB, VW.rotC, rotBits_d, rotBits_a, rotBits_b, rotBits_c, num3_zeroExtend, srcOf_code]
  rfl

theorem vMsk2_eMsk (o : Msk2) (k : Msk2 → Instr) (he : eMsk op o = some f) (hw : (k o).wf = true) : vMsk2 o.u f k = .ok (k o) := by
  cases he
  exact (given_some (num3_zeroExtend o.d)).trans ((given_some (num3_zeroExtend o.x)).trans ((given_some (num3_zeroExtend o.y)).trans
    (wfOr_ok (need_of_true (e := .reserved o.u.slot) rfl) hw)))

theorem plain_ok {i : Instr} (hmod : f.mod = 0) (hmode : f.mode = 0) : plain u f i = .ok i :=
  need_of_true (by simp [hmod, hmode])

theorem rnd_ok {rm : Dir} {k : Dir → Instr} (hmod : f.mod = 0) (hmode : f.mode = dm rm) : rnd u f k = .ok (k rm) :=
  (given_some (hmode ▸ dirMode_dm rm)).trans (need_of_true (by simp [hmod]))

theorem lane6_ok {n : BitVec 6} {k : BitVec 6 → Instr} (hmod : f.mod = n.zeroExtend 12) (hmode : f.mode = 0) : lane6 u f k = .ok (k n) := by
  have hn := n.isLt
  refine (need_of_true ?_).trans ?_
  · simp [hmod, hmode]; omega
  · rw [hmod, fieldAt_zeroExtend n (by decide)]

end

/-! The forms with one, two and three operands: what stands on the left is the encoded instruction, so that the constructor is read off it. -/

section
variable {op : BitVec 8} {f : VW}

theorem vUn_rnd {k : Un → Dir → Instr} (o : Un) (rm : Dir) (he : eUn op o (dm rm) 0 = some f) : .ok (k o rm) = vUn o.u f fun o' => rnd o.u f (k o') := by
  cases he
  exact (vUn_eUn o rfl (rnd_ok rfl rfl)).symm

theorem vUn_plain {k : Un → Instr} (o : Un) (he : eUn op o 0 0 = some f) : .ok (k o) = vUn o.u f fun o' => plain o.u f (k o') := by
  cases he
  exact (vUn_eUn o rfl (plain_ok rfl rfl)).symm

theorem vUn_lane6 {k : Un → BitVec 6 → Instr} (o : Un) (n : BitVec 6) (he : eUn op o 0 (n.zeroExtend 12) = some f) :
    .ok (k o n) = vUn o.u f fun o' => lane6 o.u f (k o') := by
  cases he
  exact (vUn_eUn o rfl (lane6_ok rfl rfl)).symm

theorem vUn_bit {k : Un → Bool → Instr} (o : Un) (b : Bool) (he : eUn op o 0 ((b1 b).zeroExtend 12) = some f) :
    .ok (k o b) = vUn o.u f fun o' => need (f.mod.toNat < 2 && f.mode == 0) (.reserved o.u.slot) (k o' (ofB1 (fieldAt f.mod.toNat 0 1))) := by
  cases he
  refine (vUn_eUn o rfl ((need_of_true ?_).trans ?_)).symm
  · cases b <;> rfl
  · rw [fieldAt_zeroExtend (b1 b) (show 1 ≤ 12 by decide), ofB1_b1]

theorem vBin_rnd {k : Bin → Dir → Instr} (o : Bin) (rm : Dir) (he : eBin op o (dm rm) 0 = some f) :
    .ok (k o rm) = vBin o.u f fun o' => rnd o.u f (k o') := by
  cases he
  exact (vBin_eBin o rfl (rnd_ok rfl rfl)).symm

theorem vBin_plain {k : Bin → Instr} (o : Bin) (he : eBin op o 0 0 = some f) : .ok (k o) = vBin o.u f fun o' => plain o.u f (k o') := by
  cases he
  exact (vBin_eBin o rfl (plain_ok rfl rfl)).symm

theorem vTri_rnd {k : Tri → Dir → Instr} (o : Tri) (rm : Dir) (he : eTri op o (dm rm) = some f) :
    .ok (k o rm) = vTri o.u f fun o' => rnd o.u f (k o') := by
  cases he
  exact (vTri_eTri o rfl (rnd_ok rfl rfl)).symm

theorem vTri_plain {k : Tri → Instr} (o : Tri) (he : eTri op o 0 = some f) : .ok (k o) = vTri o.u f fun o' => plain o.u f (k o') := by
  cases he
  exact (vTri_eTri o rfl (plain_ok rfl rfl)).symm

end

/-! `FCVT`'s MODE (12 R285). -/

theorem CvtRnd.mode_sat (r : CvtRnd) (sat : Bool) : fieldAt (r.mode sat).toNat 3 1 = b1 sat := by
  cases r with
  | dir d => cases d <;> cases sat <;> rfl
  | dither x => cases sat <;> simp [CvtRnd.mode, b1, fieldAt]
  | feedback k => revert k sat; decide

theorem cvtRnd_mode {f : VW} {r : CvtRnd} {sat : Bool} (hm : f.mode = r.mode sat) (hs : f.sb = r.row) (hr : f.rotB = r.rowRot) : cvtRnd f = some r := by
  unfold cvtRnd
  rw [hm, hs, hr]
  cases r with
  | dir d => cases d <;> cases sat <;> rfl
  | dither x =>
    have hx : srcOf (CvtRnd.dither x).row (CvtRnd.dither x).rowRot = some x := srcOf_code x
    rw [hx]
    cases sat <;> simp [CvtRnd.mode, b1]
  | feedback k =>
    clear hm hs hr
    revert k sat; decide

/-- The format and the integer bit of MOD. -/
theorem cvtMod (tgt : BitVec 4) (isI : Bool) : fieldAt (BitVec.ofNat 12 (tgt.toNat + (b1 isI).toNat * 32)).toNat 4 1 = 0 ∧
    (BitVec.ofNat 12 (tgt.toNat + (b1 isI).toNat * 32)).toNat < 64 ∧ fieldAt (BitVec.ofNat 12 (tgt.toNat + (b1 isI).toNat * 32)).toNat 5 1 = b1 isI ∧
    fieldAt (BitVec.ofNat 12 (tgt.toNat + (b1 isI).toNat * 32)).toNat 0 4 = tgt := by
  revert tgt isI
  decide

theorem decV_encV (i : Instr) (u : VU) (hv : i.vu? = some u) (hw : i.wf = true) : ∃ f, encV i = some f ∧ decV u f = .ok i := by
  cases i with
  | fadd o rm | fsub o rm | fmul o rm | fscale o rm =>
    cases hv
    exact ⟨_, rfl, (vBin_rnd o rm rfl).symm⟩
  | fma o rm | fnma o rm =>
    cases hv
    exact ⟨_, rfl, (vTri_rnd o rm rfl).symm⟩
  | isel o =>
    cases hv
    exact ⟨_, rfl, (vTri_plain o rfl).symm⟩
  | fmin o | fmax o | iadd o | isub o | imul o | imulh o | imulhu o | ishl o | ishr o | isar o | iand o | ior o | ixor o | iandn o | imin o
  | imax o | iminu o | imaxu o | iadds o | isubs o | perm o =>
    cases hv
    exact ⟨_, rfl, (vBin_plain o rfl).symm⟩
  | frcp o rm | frsq o rm | fsqrt o rm | fexp2 o rm | flog2 o rm | ftanh o rm | fround o rm =>
    cases hv
    exact ⟨_, rfl, (vUn_rnd o rm rfl).symm⟩
  | fabs o | fneg o | fclass o | iabs o | iclz o | ipopc o | frsum o | frmax o | frmin o | irsum o | fscan o | fscanx o | iscan o | iscanx o
  | expand o | mov o =>
    cases hv
    exact ⟨_, rfl, (vUn_plain o rfl).symm⟩
  | bcast o n | rotl o n =>
    cases hv
    exact ⟨_, rfl, (vUn_lane6 o n rfl).symm⟩
  | mskand o | mskor o | mskxor o | mskandn o =>
    cases hv
    exact ⟨_, rfl, vMsk2_eMsk o _ rfl hw⟩
  | irmax o uns | irmin o uns =>
    cases hv
    exact ⟨_, rfl, (vUn_bit o uns rfl).symm⟩
  | fcmp c o =>
    cases hv
    refine ⟨_, rfl, ?_⟩
    simp only [decV]
    refine vCmp_eCmp o rfl (wfOr_ok ((need_of_true ?_).trans ?_) hw)
    · cases c <;> rfl
    · rw [fieldAt_zeroExtend c.code (show 3 ≤ 12 by decide), FCond.ofCode_code]
  | icmp c o =>
    cases hv
    have hc : fieldAt (c.code.zeroExtend 12).toNat 0 4 = c.code := fieldAt_zeroExtend _ (by decide)
    refine ⟨_, rfl, ?_⟩
    simp only [decV]
    refine vCmp_eCmp o rfl ((given_some (x := c) ?_).trans (wfOr_ok ((need_of_true ?_).trans rfl) hw))
    · simp only [hc, Cond.ofCode_code]
    · cases c <;> rfl
  | fsel o c =>
    cases hv
    refine ⟨_, rfl, (given_some (num3_zeroExtend c)).trans ?_⟩
    simp only [given, VW.rotD, VW.rotA, VW.rotB, VW.rotC, rotBits_d, rotBits_a, rotBits_b, rotBits_c, dstOf_code, srcOf_code]
    exact need_of_true rfl
  | fcvt o isI tgt r sat =>
    cases hv
    obtain ⟨hz, hlt, hi, ht⟩ := cvtMod tgt isI
    refine ⟨_, rfl, (given_some (x := o.d) ?_).trans ((given_some (x := o.x) ?_).trans
      ((given_some (x := r) ?_).trans (wfOr_ok ((need_of_true ?_).trans ?_) hw)))⟩
    · simp only [VW.rotD, rotBits_d, dstOf_code]
    · simp only [VW.rotA, rotBits_a, srcOf_code]
    · exact cvtRnd_mode (sat := sat) rfl rfl (rotBits_b ..)
    · simp only [VW.rotC, rotBits_c, hz, hlt]; rfl
    · simp only [hi, ht, r.mode_sat, ofB1_b1]
  | compressM v d m | laneid v d m =>
    cases hv
    refine ⟨_, rfl, (given_some (x := d) ?_).trans (need_of_true ?_)⟩
    · simp only [VW.rotD, rotBits_d, dstOf_code]
    · simp only [VW.rotA, VW.rotB, VW.rotC, rotBits_a, rotBits_b, rotBits_c]; rfl
  | compressB v d x y =>
    cases hv
    refine ⟨_, rfl, ?_⟩
    simp only [decV]
    exact vBin_eBin ⟨u, d, x, y, 0⟩ rfl (need_of_true rfl)
  | compressV o =>
    cases hv
    refine ⟨_, rfl, ?_⟩
    simp only [decV]
    exact vUn_eUn o rfl (need_of_true rfl)
  | movb v d x n =>
    cases hv
    have hn := n.isLt
    refine ⟨_, rfl, (given_some (num3_zeroExtend d)).trans ((given_some (x := x) ?_).trans ((need_of_true ?_).trans ?_))⟩
    · simp only [VW.rotA, rotBits_a, srcOf_code]
    · simp [VW.rotD, VW.rotB, VW.rotC, rotBits_d, rotBits_b, rotBits_c]; omega
    · rw [fieldAt_zeroExtend n (by decide)]
  | msknot v d x m =>
    cases hv
    exact ⟨_, rfl, (given_some (num3_zeroExtend d)).trans ((given_some (num3_zeroExtend x)).trans (wfOr_ok (need_of_true (e := .reserved u.slot) rfl) hw))⟩
  | mskfrom v d x m =>
    cases hv
    refine ⟨_, rfl, (given_some (num3_zeroExtend d)).trans ((given_some (x := x) ?_).trans (wfOr_ok (need_of_true (e := .reserved u.slot) ?_) hw))⟩
    · simp only [VW.rotA, rotBits_a, srcOf_code]
    · simp only [VW.rotD, VW.rotB, VW.rotC, rotBits_d, rotBits_b, rotBits_c]; rfl
  | mskto v d x m | mskpopc v d x m =>
    cases hv
    refine ⟨_, rfl, (given_some (x := d) ?_).trans ((given_some (num3_zeroExtend x)).trans (need_of_true ?_))⟩
    · simp only [VW.rotD, rotBits_d, dstOf_code]
    · simp only [VW.rotA, VW.rotB, VW.rotC, rotBits_a, rotBits_b, rotBits_c]; rfl
  | copyAV v d x rot n =>
    cases hv
    have hd := d.isLt; have hx := x.isLt; have hn := n.isLt
    have h1 := fieldAt_zeroExtend d (w := 6) (by decide)
    have h2 := fieldAt_zeroExtend x (w := 6) (by decide)
    have h3 := fieldAt_zeroExtend n (w := 12) (by decide)
    refine ⟨_, rfl, (need_of_true ?_).trans ?_⟩
    · simp [VW.rotD, VW.rotB, VW.rotC, rotBits_d, rotBits_b, rotBits_c]; omega
    · simp only [VW.rotA, rotBits_a, h1, h2, h3, ofB1_b1]
  | mskcopyA v d x =>
    cases hv
    have hd := d.isLt
    refine ⟨_, rfl, (given_some (num3_zeroExtend x)).trans ((need_of_true ?_).trans ?_)⟩
    · simp; omega
    · rw [fieldAt_zeroExtend d (by decide)]
  | _ => cases hv

/-- Settles O6: a form of one, two or three operands reads back its specifiers with their ROT bits; the others field by field. -/
theorem encodeV : Obligations.EncodeV := by
  intro i u hv hw
  obtain ⟨f, he, hd⟩ := decV_encV i u hv hw
  refine ⟨f.pack, ?_, f.pack_lt, ?_⟩
  · cases u <;> simp [encodeIn, VU.slot, hv, he]
  · cases u <;> simp [decodeSlot, VU.slot, f.unpack_pack, hd]

end Sys2Proof
end

section
/-! PROOF. Forms of the V slots that go through `vec1`, `vec2` and `vec3` (12 R275, R280-R288; O22, O23, O25). -/

namespace Sys2Proof.Machine

/-! ### One, two and three operands (12 R275) -/

section
variable {i : Instr} {lat : Nat} {int : Bool} (s : State)

theorem vecGives_vec1 {o : Un} {f : W32 → W32 × Fl} (hexec : exec i s = vec1 o lat int f s) :
    VecGives i s o.u o.d [(o.x, int)] lat (s.getM o.u o.m) (fun vs j => (f (srcLane vs 0 j)).1)
      (fun vs => orLanes (fun j => (f (srcLane vs 0 j)).2) (s.getM o.u o.m)) := by
  refine vecGives_of_withSrcs hexec fun vs => ?_
  simp only [State.popped_getM, srcLane]

/-- As `vecGives_vec1`, for a lane function without flags. -/
theorem vecGives_vec1_flagless {o : Un} {f : W32 → W32} (hexec : exec i s = vec1 o lat int (fun x => (f x, 0)) s) :
    VecGives i s o.u o.d [(o.x, int)] lat (s.getM o.u o.m) (fun vs j => f (srcLane vs 0 j)) (fun _ => 0) := by
  simpa only [orLanes_zero] using vecGives_vec1 s hexec

theorem vecGives_vec3 {o : Tri} {f : W32 → W32 → W32 → W32 × Fl} (hexec : exec i s = vec3 o lat int f s) :
    VecGives i s o.u o.d [(o.x, int), (o.y, int), (o.z, int)] lat (s.getM o.u o.m)
      (fun vs j => (f (srcLane vs 0 j) (srcLane vs 1 j) (srcLane vs 2 j)).1)
      (fun vs => orLanes (fun j => (f (srcLane vs 0 j) (srcLane vs 1 j) (srcLane vs 2 j)).2) (s.getM o.u o.m)) := by
  refine vecGives_of_withSrcs hexec fun vs => ?_
  simp only [State.popped_getM, srcLane]

end

/-- Settles O23: every form is `vec1`, `vec2` or `vec3` of its lane function. -/
theorem vectorFloats : Obligations.VectorFloats := by
  intro s o q z rm
  have fadd := vecGives_vec2 s (show exec (.fadd o rm) s = execFadd o rm s from rfl)
  have fsub := vecGives_vec2 s (show exec (.fsub o rm) s = execFsub o rm s from rfl)
  have fmul := vecGives_vec2 s (show exec (.fmul o rm) s = execFmul o rm s from rfl)
  have fma := vecGives_vec3 s (show exec (.fma z rm) s = execFma z rm s from rfl)
  have fnma := vecGives_vec3 s (show exec (.fnma z rm) s = execFnma z rm s from rfl)
  have fmin := vecGives_vec2 s (show exec (.fmin o) s = execFmin o s from rfl)
  have fmax := vecGives_vec2 s (show exec (.fmax o) s = execFmax o s from rfl)
  have fscale := vecGives_vec2 s (show exec (.fscale o rm) s = execFscale o rm s from rfl)
  have fabs := vecGives_vec1 s (show exec (.fabs q) s = execFabs q s from rfl)
  have fneg := vecGives_vec1 s (show exec (.fneg q) s = execFneg q s from rfl)
  have fclass := vecGives_vec1 s (show exec (.fclass q) s = execFclass q s from rfl)
  have fround := vecGives_vec1 s (show exec (.fround q rm) s = execFround q rm s from rfl)
  have frcp := vecGives_vec1 s (show exec (.frcp q rm) s = execFrcp q rm s from rfl)
  have frsq := vecGives_vec1 s (show exec (.frsq q rm) s = execFrsq q rm s from rfl)
  have fsqrt := vecGives_vec1 s (show exec (.fsqrt q rm) s = execFsqrt q rm s from rfl)
  have fexp2 := vecGives_vec1 s (show exec (.fexp2 q rm) s = execFexp2 q rm s from rfl)
  have flog2 := vecGives_vec1 s (show exec (.flog2 q rm) s = execFlog2 q rm s from rfl)
  have ftanh := vecGives_vec1 s (show exec (.ftanh q rm) s = execFtanh q rm s from rfl)
  exact ⟨fadd, fsub, fmul, fma, fnma, fmin, fmax, fscale, fabs, fneg, fclass, fround, frcp, frsq, fsqrt, fexp2, flog2, ftanh⟩

/-! ### Integer forms (12 R287) -/

theorem toInt_ofInt_of_bounds {k : Int} (h : -2 ^ 31 ≤ k) (h' : k < 2 ^ 31) : (BitVec.ofInt 32 k).toInt = k := by
  rw [BitVec.toInt_ofInt]
  exact Int.bmod_eq_of_le (by omega) (by omega)

theorem clamp32_toInt (k : Int) : (clamp32 k).toInt = max (-2 ^ 31) (min (2 ^ 31 - 1) k) := by
  unfold clamp32 clampInt
  rw [toInt_ofInt_of_bounds] <;> omega

/-- The high half of a signed product. -/
theorem mulh_toInt (x y : W32) : (BitVec.ofInt 32 (x.toInt * y.toInt / 2 ^ 32)).toInt = x.toInt * y.toInt / 2 ^ 32 := by
  have hx : x.toInt < 2 ^ 31 := x.toInt_lt
  have hx' : -2 ^ 31 ≤ x.toInt := x.le_toInt
  have hy : y.toInt < 2 ^ 31 := y.toInt_lt
  have hy' : -2 ^ 31 ≤ y.toInt := y.le_toInt
  have h1 : x.toInt * y.toInt ≤ 2 ^ 62 := by nlinarith
  have h2 : -2 ^ 62 ≤ x.toInt * y.toInt := by nlinarith
  rw [toInt_ofInt_of_bounds] <;> omega

/-- The high half of an unsigned product. -/
theorem mulhu_toNat (x y : W32) : (BitVec.ofNat 32 (x.toNat * y.toNat / 2 ^ 32)).toNat = x.toNat * y.toNat / 2 ^ 32 := by
  have h : x.toNat * y.toNat < 2 ^ 32 * 2 ^ 32 := Nat.mul_lt_mul'' x.isLt y.isLt
  rw [BitVec.toNat_ofNat, Nat.mod_eq_of_lt (Nat.div_lt_of_lt_mul h)]

theorem popCount_eq {w : Nat} (x : BitVec w) : popCount x = ((List.range w).filter fun j => x.getLsbD j).length := by
  have h : ∀ (l : List Nat) (n : Nat), l.foldl (fun n j => if x.getLsbD j then n + 1 else n) n = n + (l.filter fun j => x.getLsbD j).length := by
    intro l
    induction l with
    | nil => simp
    | cons j l ih =>
      intro n
      rw [List.foldl_cons, ih, List.filter_cons]
      split <;> simp; omega
  simpa [popCount] using h (List.range w) 0

theorem leadZeros_le {w : Nat} (x : BitVec w) : leadZeros x ≤ w := by
  unfold leadZeros
  split <;> omega

/-- Where the leading zeros end: the number lies in the bits below them and has the first of these set. -/
theorem leadZeros_spec {w : Nat} (x : BitVec w) : x.toNat < 2 ^ (w - leadZeros x) ∧ (leadZeros x < w → 2 ^ (w - 1 - leadZeros x) ≤ x.toNat) := by
  unfold leadZeros
  split
  · next h => simp [h]
  · next h =>
    have hne : x.toNat ≠ 0 := by simpa [BitVec.toNat_eq] using h
    have hlog : Nat.log2 x.toNat < w := (Nat.log2_lt hne).mpr x.isLt
    have h1 : w - (w - 1 - Nat.log2 x.toNat) = Nat.log2 x.toNat + 1 := by omega
    have h2 : w - 1 - (w - 1 - Nat.log2 x.toNat) = Nat.log2 x.toNat := by omega
    rw [h1, h2]
    exact ⟨Nat.lt_log2_self, fun _ => Nat.log2_self_le hne⟩

section
variable {i : Instr} (s : State)

theorem vecGives_int2 {lat : Nat} {o : Bin} {f : W32 → W32 → W32} (hexec : exec i s = int2 o lat f s) :
    VecGives i s o.u o.d [(o.x, true), (o.y, true)] lat (s.getM o.u o.m) (fun vs j => f (srcLane vs 0 j) (srcLane vs 1 j)) (fun _ => 0) :=
  vecGives_vec2_flagless s hexec

theorem vecGives_int1 {o : Un} {f : W32 → W32} (hexec : exec i s = int1 o f s) :
    VecGives i s o.u o.d [(o.x, true)] 2 (s.getM o.u o.m) (fun vs j => f (srcLane vs 0 j)) (fun _ => 0) :=
  vecGives_vec1_flagless s hexec

end

theorem apply_ite_min {α : Type} (g : W32 → α) [LinearOrder α] (x y : W32) : g (if g x ≤ g y then x else y) = min (g x) (g y) := by
  split
  · next h => rw [min_eq_left h]
  · next h => rw [min_eq_right (le_of_not_ge h)]

theorem apply_ite_max {α : Type} (g : W32 → α) [LinearOrder α] (x y : W32) : g (if g x ≤ g y then y else x) = max (g x) (g y) := by
  split
  · next h => rw [max_eq_right h]
  · next h => rw [max_eq_left (le_of_not_ge h)]

theorem popCount_le {w : Nat} (x : BitVec w) : popCount x ≤ w := by
  rw [popCount_eq]
  simpa using List.length_filter_le (fun j => x.getLsbD j) (List.range w)

/-- Settles O22: every form is `int2` or `int1` of a lane function whose result is the one named. -/
theorem vectorIntegers : Obligations.VectorIntegers := by
  intro s o q
  refine ⟨?add, ?sub, ?mul, ?mulh, ?mulhu, ?shl, ?shr, ?sar, ?and, ?or, ?xor, ?andn, ?min, ?max, ?minu, ?maxu, ?adds, ?subs, ?abs, ?clz, ?popc⟩
  case add =>
    refine ⟨_, fun x y => ?_, vecGives_int2 s (show exec (.iadd o) s = execIadd o s from rfl)⟩
    exact BitVec.toNat_add x y
  case sub =>
    refine ⟨_, fun x y => ?_, vecGives_int2 s (show exec (.isub o) s = execIsub o s from rfl)⟩
    bv_omega
  case mul =>
    refine ⟨_, fun x y => ?_, vecGives_int2 s (show exec (.imul o) s = execImul o s from rfl)⟩
    exact BitVec.toNat_mul x y
  case mulh =>
    refine ⟨_, fun x y => ?_, vecGives_int2 s (show exec (.imulh o) s = execImulh o s from rfl)⟩
    exact mulh_toInt x y
  case mulhu =>
    refine ⟨_, fun x y => ?_, vecGives_int2 s (show exec (.imulhu o) s = execImulhu o s from rfl)⟩
    exact mulhu_toNat x y
  case shl =>
    refine ⟨_, fun x y => ?_, vecGives_int2 s (show exec (.ishl o) s = execIshl o s from rfl)⟩
    beta_reduce
    rw [BitVec.toNat_shiftLeft, Nat.shiftLeft_eq]; rfl
  case shr =>
    refine ⟨_, fun x y => ?_, vecGives_int2 s (show exec (.ishr o) s = execIshr o s from rfl)⟩
    beta_reduce
    rw [BitVec.toNat_ushiftRight, Nat.shiftRight_eq_div_pow]; rfl
  case sar =>
    refine ⟨_, fun x y => ?_, vecGives_int2 s (show exec (.isar o) s = execIsar o s from rfl)⟩
    beta_reduce
    rw [BitVec.toInt_sshiftRight, Int.shiftRight_eq_div_pow]; rfl
  case and =>
    refine ⟨_, fun x y j => ?_, vecGives_int2 s (show exec (.iand o) s = execIand o s from rfl)⟩
    exact BitVec.getLsbD_and
  case or =>
    refine ⟨_, fun x y j => ?_, vecGives_int2 s (show exec (.ior o) s = execIor o s from rfl)⟩
    exact BitVec.getLsbD_or
  case xor =>
    refine ⟨_, fun x y j => ?_, vecGives_int2 s (show exec (.ixor o) s = execIxor o s from rfl)⟩
    exact BitVec.getLsbD_xor
  case andn =>
    refine ⟨_, fun x y j => ?_, vecGives_int2 s (show exec (.iandn o) s = execIandn o s from rfl)⟩
    by_cases hj : j < 32
    · simp [hj]
    · simp [x.getLsbD_of_ge j (by omega)]
  case min =>
    refine ⟨_, fun x y => ?_, vecGives_int2 s (show exec (.imin o) s = execImin o s from rfl)⟩
    exact apply_ite_min BitVec.toInt x y
  case max =>
    refine ⟨_, fun x y => ?_, vecGives_int2 s (show exec (.imax o) s = execImax o s from rfl)⟩
    exact apply_ite_max BitVec.toInt x y
  case minu =>
    refine ⟨_, fun x y => ?_, vecGives_int2 s (show exec (.iminu o) s = execIminu o s from rfl)⟩
    exact apply_ite_min BitVec.toNat x y
  case maxu =>
    refine ⟨_, fun x y => ?_, vecGives_int2 s (show exec (.imaxu o) s = execImaxu o s from rfl)⟩
    exact apply_ite_max BitVec.toNat x y
  case adds =>
    refine ⟨_, fun x y => ?_, vecGives_int2 s (show exec (.iadds o) s = execIadds o s from rfl)⟩
    exact clamp32_toInt _
  case subs =>
    refine ⟨_, fun x y => ?_, vecGives_int2 s (show exec (.isubs o) s = execIsubs o s from rfl)⟩
    exact clamp32_toInt _
  case abs =>
    refine ⟨_, fun x => ?_, vecGives_int1 s (show exec (.iabs q) s = execIabs q s from rfl)⟩
    have hlo : -2 ^ 31 ≤ x.toInt := x.le_toInt
    have hhi : x.toInt < 2 ^ 31 := x.toInt_lt
    beta_reduce
    rw [BitVec.toNat_ofNat, Nat.mod_eq_of_lt (by omega)]
  case clz =>
    refine ⟨_, fun x => ?_, vecGives_int1 s (show exec (.iclz q) s = execIclz q s from rfl)⟩
    obtain ⟨hlt, hge⟩ := leadZeros_spec x
    have hle := leadZeros_le x
    rw [BitVec.toNat_ofNat, Nat.mod_eq_of_lt (show leadZeros x < 2 ^ 32 by omega)]
    exact ⟨hle, hlt, hge⟩
  case popc =>
    refine ⟨_, fun x => ?_, vecGives_int1 s (show exec (.ipopc q) s = execIpopc q s from rfl)⟩
    have hle := popCount_le x
    beta_reduce
    rw [BitVec.toNat_ofNat, Nat.mod_eq_of_lt (show popCount x < 2 ^ 32 by omega), popCount_eq]

end Sys2Proof.Machine
end

section
/-! PROOF. Selects, compares into masks, mask forms (12 R282, R283, R288, R294; O25, O29). -/

namespace Sys2Proof.Machine

/-! ### Masks by their bits -/

/-- The number whose bit `j` below `n` is `f j`. -/
theorem testBit_foldl_pow (f : Nat → Bool) (n : Nat) :
    let k := (List.range n).foldl (fun a j => if f j then a + 2 ^ j else a) 0
    k < 2 ^ n ∧ ∀ j, k.testBit j = (decide (j < n) && f j) := by
  induction n with
  | zero => simp
  | succ n ih =>
    obtain ⟨hlt, hbit⟩ := ih
    rw [List.range_succ, List.foldl_append]
    generalize (List.range n).foldl (fun a j => if f j then a + 2 ^ j else a) 0 = k at hlt hbit
    have hpow : 2 ^ (n + 1) = 2 ^ n + 2 ^ n := by ring
    simp only [List.foldl_cons, List.foldl_nil]
    cases hf : f n with
    | false =>
      refine ⟨by simp; omega, fun j => ?_⟩
      rw [if_neg (by simp), hbit]
      rcases Nat.lt_trichotomy j n with h | h | h
      · simp [h, Nat.lt_succ_of_lt h]
      · simp [h, hf]
      · simp [Nat.not_lt_of_gt h, show ¬ j < n + 1 by omega]
    | true =>
      refine ⟨by simp; omega, fun j => ?_⟩
      rw [if_pos rfl, Nat.add_comm]
      rcases Nat.lt_trichotomy j n with h | h | h
      · rw [Nat.testBit_two_pow_add_gt h, hbit]; simp [h, Nat.lt_succ_of_lt h]
      · rw [h, Nat.testBit_two_pow_add_eq, hbit]; simp [hf]
      · rw [Nat.testBit_lt_two_pow (x := 2 ^ n + k) ((by omega : 2 ^ n + k < 2 ^ (n + 1)).trans_le (Nat.pow_le_pow_right (by decide) h))]
        simp [show ¬ j < n + 1 by omega]

theorem maskOf_getLsbD (f : Nat → Bool) {j : Nat} (hj : j < 64) : (maskOf f).getLsbD j = f j := by
  obtain ⟨_, hbit⟩ := testBit_foldl_pow f 64
  unfold maskOf
  rw [BitVec.getLsbD_ofNat, hbit]
  simp [hj]

theorem eq_maskOf {x : W64} {f : Nat → Bool} (h : ∀ j, j < 64 → x.getLsbD j = f j) : x = maskOf f :=
  BitVec.eq_of_getLsbD_eq fun j hj => (h j hj).trans (maskOf_getLsbD f hj).symm

/-- A form that reads its sources and hands the mask `f` with the flags `fl` to a mask register gives it that mask. -/
theorem maskGives_of_withSrcs {i : Instr} {s : State} {u : VU} {d : BitVec 3} {l : List (VSrc × Bool)} {lat : Nat} {m : W64}
    {f : List Lanes → Nat → Bool} {fl : List Lanes → Fl} {k : List Lanes → State → Res} (hexec : exec i s = s.withSrcs u l k)
    (hk : ∀ vs, k vs (s.popped l) = (s.popped l).mput u d lat (maskOf (f vs)) m (fl vs)) : MaskGives i s u d l lat m f fl := by
  intro vs hvs x hx
  rw [hexec, State.withSrcs_of_sources k hvs, hk, State.mput_eq, eq_maskOf hx]
  simp [atomic]

/-- Settles O25: the selects are lane forms, and the compares hand `maskOf` of their condition to a mask register. -/
theorem selectsAndCompares : Obligations.SelectsAndCompares := by
  intro s o z k c fc ic
  refine ⟨?fsel, ?isel, ?fcmp, ?icmp⟩
  case fsel =>
    refine vecGives_of_withSrcs (show exec (.fsel o c) s = execFsel o c s from rfl) fun vs => ?_
    simp only [State.popped_getM, srcLane]
  case isel =>
    have h := vecGives_vec3 s (show exec (.isel z) s = execIsel z s from rfl)
    simpa only [orLanes_zero, ne_eq, ite_not] using h
  case fcmp =>
    refine maskGives_of_withSrcs (show exec (.fcmp fc k) s = execFcmp fc k s from rfl) fun vs => ?_
    simp only [State.popped_getM, srcLane]
  case icmp =>
    refine maskGives_of_withSrcs (show exec (.icmp ic k) s = execIcmp ic k s from rfl) fun vs => ?_
    simp only [State.popped_getM, srcLane]

/-! ### Forms without vector sources -/

/-- A form without vector sources that hands the lanes `f` to its destination gives it those lanes. -/
theorem vecGives_of_vput {i : Instr} {s : State} {u : VU} {d : VDst} {lat : Nat} {m : W64} {f : Nat → W32}
    (hexec : exec i s = atomic s (s.vput u d lat (Lanes.build f) m 0)) : VecGives i s u d [] lat m (fun _ => f) (fun _ => 0) :=
  vecGives_of_withSrcs (k := fun _ s => s.vput u d lat (Lanes.build f) m 0) hexec fun _ => rfl

theorem Lanes.splat_eq_build (w : W32) : Lanes.splat w = Lanes.build fun _ => w :=
  Lanes.eq_build fun j hj => by simp [Lanes.lane, Lanes.splat, hj]

/-- Settles O29: the mask forms queue one mask write; the others are lane forms without sources. -/
theorem maskForms : Obligations.MaskForms := by
  intro s o u d k x v vd
  refine ⟨rfl, rfl, rfl, rfl, rfl, ?mskfrom, ?mskto, ?mskpopc⟩
  case mskfrom =>
    refine maskGives_of_withSrcs (show exec (.mskfrom u d v k) s = execMskfrom u d v k s from rfl) fun vs => ?_
    simp only [State.popped_getM, srcLane]
  case mskto => exact vecGives_of_vput (show exec (.mskto u vd x k) s = execMskto u vd x k s from rfl)
  case mskpopc =>
    refine vecGives_of_vput ?_
    rw [← Lanes.splat_eq_build, ← popCount_eq]
    rfl

end Sys2Proof.Machine
end

section
/-! PROOF. Reductions, scans and movement of the V slots (12 R289-R293, R295; O26, O28). -/

namespace Sys2Proof.Machine

/-! ### Reductions and scans as forms (12 R289, R290) -/

/-- A reduction gives its one value to every lane. -/
theorem vecGives_reduce {i : Instr} {s : State} {o : Un} {lat : Nat} {int : Bool} {f : (Nat → Bool) → Lanes → W32 × Fl}
    (hexec : exec i s = reduce o lat int f s) :
    let r := fun vs : List Lanes => f (fun j => (s.getM o.u o.m).getLsbD j) (nth vs 0 (Lanes.splat 0))
    VecGives i s o.u o.d [(o.x, int)] lat (BitVec.allOnes 64) (fun vs _ => (r vs).1) (fun vs => (r vs).2) := by
  refine vecGives_of_withSrcs hexec fun vs => ?_
  simp only [State.popped_getM, Lanes.splat_eq_build]

/-- `scanLane` in the lane sets `upTo`. -/
theorem scanLane_upTo (incl : Bool) (idt : W32) (f : (Nat → Bool) → Lanes → W32 × Fl) (m : W64) (x : Lanes) (j : Nat) :
    scanLane (!incl) idt f m x j = if incl = false ∧ j = 0 then (idt, 0) else f (upTo m j incl) x := by
  unfold scanLane
  cases incl with
  | true => rfl
  | false =>
    by_cases hj : j = 0
    · simp [hj]
    · simp [hj, upTo_exclusive_eq_pred m (Nat.pos_of_ne_zero hj)]

theorem vecGives_scan_upTo {i : Instr} {s : State} {o : Un} {lat : Nat} {int : Bool} (incl : Bool) {idt : W32} {f : (Nat → Bool) → Lanes → W32 × Fl}
    (hexec : exec i s = scan o lat int (!incl) idt f s) :
    let lane := fun (vs : List Lanes) (j : Nat) =>
      if incl = false ∧ j = 0 then (idt, (0 : Fl)) else f (upTo (s.getM o.u o.m) j incl) (nth vs 0 (Lanes.splat 0))
    VecGives i s o.u o.d [(o.x, int)] lat (BitVec.allOnes 64) (fun vs j => (lane vs j).1)
      (fun vs => orLanes (fun j => (lane vs j).2) (BitVec.allOnes 64)) := by
  simpa only [scanLane_upTo] using vecGives_scan s hexec

/-! ### Trees (04 R100) -/

section
variable {α : Type} (op : α → α → α)

theorem length_pairUp : ∀ l : List α, (pairUp op l).length = (l.length + 1) / 2
  | [] => by simp [pairUp]
  | [_] => by simp [pairUp]
  | x :: y :: l => by
    have ih := length_pairUp l
    simp only [pairUp, List.length_cons, ih]
    omega

/-- What every level of a tree keeps holds of its one value. -/
theorem pairTree_induction {P : List α → Prop} (hP : ∀ l, P l → P (pairUp op l)) {l : List α} (hlen : l.length = 64) (hl : P l) (d : α) :
    P [pairTree op d l] := by
  have level := hP _ (hP _ (hP _ (hP _ (hP _ (hP _ hl)))))
  unfold pairTree
  generalize hr : pairUp op (pairUp op (pairUp op (pairUp op (pairUp op (pairUp op l))))) = r at level
  have hone : r.length = 1 := by simp [← hr, length_pairUp, hlen]
  obtain ⟨v, rfl⟩ := List.length_eq_one_iff.mp hone
  exact level

end

/-- A level of sums keeps the sum modulo 2^32. -/
theorem sum_pairUp_add : ∀ l : List W32, ((pairUp (· + ·) l).map BitVec.toNat).sum % 2 ^ 32 = (l.map BitVec.toNat).sum % 2 ^ 32
  | [] => rfl
  | [_] => rfl
  | x :: y :: l => by
    have ih := sum_pairUp_add l
    simp only [pairUp, List.map_cons, List.sum_cons, BitVec.toNat_add]
    omega

/-- A level that keeps one of each two neighbours: every entry lies under one that is kept, and only entries are kept. -/
theorem pairUp_selects {op : W32 → W32 → W32} {R : W32 → W32 → Prop} (hrefl : ∀ x, R x x) (hl : ∀ x y, R x (op x y)) (hr : ∀ x y, R y (op x y))
    (hsel : ∀ x y, op x y = x ∨ op x y = y) : ∀ l : List W32, (∀ y ∈ l, ∃ z ∈ pairUp op l, R y z) ∧ ∀ z ∈ pairUp op l, z ∈ l
  | [] => by simp [pairUp]
  | [x] => by simp [pairUp, hrefl]
  | x :: y :: l => by
    obtain ⟨hunder, hmem⟩ := pairUp_selects hrefl hl hr hsel l
    constructor
    · intro w hw
      simp only [pairUp, List.mem_cons] at hw ⊢
      rcases hw with rfl | rfl | hw
      · exact ⟨_, .inl rfl, hl _ _⟩
      · exact ⟨_, .inl rfl, hr _ _⟩
      · obtain ⟨z, hz, hwz⟩ := hunder w hw
        exact ⟨z, .inr hz, hwz⟩
    · intro z hz
      simp only [pairUp, List.mem_cons] at hz ⊢
      rcases hz with rfl | hz
      · exact (hsel x y).imp id .inl
      · exact .inr (.inr (hmem z hz))

/-- The lanes that `on` selects. -/
def selected (on : Nat → Bool) (x : Lanes) : List W32 := ((List.range 64).filter on).map x.lane

theorem mem_lanesOr_of_selected {on : Nat → Bool} {x : Lanes} {idt y : W32} (h : y ∈ selected on x) : y ∈ lanesOr x on idt := by
  simp only [selected, lanesOr, List.mem_map, List.mem_filter] at h ⊢
  obtain ⟨j, ⟨hj, hon⟩, rfl⟩ := h
  exact ⟨j, hj, if_pos hon⟩

theorem eq_or_selected_of_mem_lanesOr {on : Nat → Bool} {x : Lanes} {idt y : W32} (h : y ∈ lanesOr x on idt) : y = idt ∨ y ∈ selected on x := by
  simp only [selected, lanesOr, List.mem_map, List.mem_filter] at h ⊢
  obtain ⟨j, hj, rfl⟩ := h
  cases hon : on j with
  | true => exact .inr ⟨j, ⟨hj, hon⟩, rfl⟩
  | false => exact .inl rfl

theorem length_lanesOr (x : Lanes) (on : Nat → Bool) (idt : W32) : (lanesOr x on idt).length = 64 := by
  simp [lanesOr]

/-- The tree of an operation that keeps the upper of two operands is above every selected lane, and is one of them or the identity. -/
theorem treeOf_selects {op : W32 → W32 → W32} {R : W32 → W32 → Prop} (hrefl : ∀ x, R x x) (htrans : ∀ x y z, R x y → R y z → R x z)
    (hl : ∀ x y, R x (op x y)) (hr : ∀ x y, R y (op x y)) (hsel : ∀ x y, op x y = x ∨ op x y = y) (idt : W32) (on : Nat → Bool) (x : Lanes) :
    (∀ y ∈ selected on x, R y (treeOf op idt on x).1) ∧ ((treeOf op idt on x).1 = idt ∨ (treeOf op idt on x).1 ∈ selected on x) := by
  have key : ∀ v ∈ [pairTree op idt (lanesOr x on idt)], (∀ y ∈ lanesOr x on idt, R y v) ∧ v ∈ lanesOr x on idt := by
    have h := pairTree_induction op (P := fun r => (∀ y ∈ lanesOr x on idt, ∃ z ∈ r, R y z) ∧ ∀ z ∈ r, z ∈ lanesOr x on idt)
      (fun r ⟨hunder, hmem⟩ => by
        obtain ⟨hunder', hmem'⟩ := pairUp_selects hrefl hl hr hsel r
        refine ⟨fun y hy => ?_, fun z hz => hmem z (hmem' z hz)⟩
        obtain ⟨z, hz, hyz⟩ := hunder y hy
        obtain ⟨w, hw, hzw⟩ := hunder' z hz
        exact ⟨w, hw, htrans _ _ _ hyz hzw⟩)
      (length_lanesOr x on idt) ⟨fun y hy => ⟨y, hy, hrefl y⟩, fun _ h => h⟩ idt
    simpa using h
  obtain ⟨hupper, hmem⟩ := key _ (List.mem_singleton_self _)
  exact ⟨fun y hy => hupper y (mem_lanesOr_of_selected hy), eq_or_selected_of_mem_lanesOr hmem⟩

section
variable {α : Type} [LinearOrder α] (g : W32 → α) (idt : W32) (on : Nat → Bool) (x : Lanes)

theorem treeOf_max :
    let v := (treeOf (fun x y : W32 => if g x ≤ g y then y else x) idt on x).1
    (∀ y ∈ selected on x, g y ≤ g v) ∧ (v = idt ∨ v ∈ selected on x) := by
  refine treeOf_selects (R := fun a b => g a ≤ g b) (fun _ => le_rfl) (fun _ _ _ => le_trans) (fun a b => ?_) (fun a b => ?_) (fun a b => ?_) idt on x
  · exact (apply_ite_max g a b).symm ▸ le_max_left _ _
  · exact (apply_ite_max g a b).symm ▸ le_max_right _ _
  · exact (ite_eq_or_eq _ b a).symm

theorem treeOf_min :
    let v := (treeOf (fun x y : W32 => if g x ≤ g y then x else y) idt on x).1
    (∀ y ∈ selected on x, g v ≤ g y) ∧ (v = idt ∨ v ∈ selected on x) := by
  refine treeOf_selects (R := fun a b => g b ≤ g a) (fun _ => le_rfl) (fun _ _ _ h h' => le_trans h' h) (fun a b => ?_) (fun a b => ?_)
    (fun a b => ?_) idt on x
  · exact (apply_ite_min g a b).symm ▸ min_le_left _ _
  · exact (apply_ite_min g a b).symm ▸ min_le_right _ _
  · exact ite_eq_or_eq _ a b

end

/-- Lanes left out count as 0 in a sum. -/
theorem sum_lanesOr_zero (on : Nat → Bool) (x : Lanes) : ((lanesOr x on 0).map BitVec.toNat).sum = ((selected on x).map BitVec.toNat).sum := by
  unfold lanesOr selected
  generalize List.range 64 = l
  induction l with
  | nil => rfl
  | cons j l ih =>
    simp only [List.map_cons, List.sum_cons, ih, List.filter_cons]
    cases on j <;> simp

/-- The tree of sums is the sum of the selected lanes, wrapped. -/
theorem treeOf_add (on : Nat → Bool) (x : Lanes) :
    (treeOf (· + ·) 0 on x).1.toNat = ((selected on x).map BitVec.toNat).sum % 2 ^ 32 := by
  have h := pairTree_induction (· + ·) (P := fun l => (l.map BitVec.toNat).sum % 2 ^ 32 = ((selected on x).map BitVec.toNat).sum % 2 ^ 32)
    (fun l hl => (sum_pairUp_add l).trans hl) (length_lanesOr x on 0) (by rw [sum_lanesOr_zero]) 0
  have hlt := (pairTree (· + ·) 0 (lanesOr x on 0)).isLt
  rwa [List.map_singleton, List.sum_singleton, Nat.mod_eq_of_lt hlt] at h

/-- Settles O26: all reductions go through `reduce` and all scans through `scan`; a level of a tree keeps the sum, and the greatest or least. -/
theorem reductionsAndScans : Obligations.ReductionsAndScans := by
  refine ⟨fun s q uns => ⟨?frsum, ?frmax, ?frmin, ?irsum, ?irmax, ?irmin, ?fscan, ?fscanx, ?iscan, ?iscanx⟩, fun on x => ⟨?_, ?_, ?_, ?_, ?_⟩⟩
  case frsum => exact vecGives_reduce (show exec (.frsum q) s = execFrsum q s from rfl)
  case frmax => exact vecGives_reduce (show exec (.frmax q) s = execFrmax q s from rfl)
  case frmin => exact vecGives_reduce (show exec (.frmin q) s = execFrmin q s from rfl)
  case irsum => exact vecGives_reduce (show exec (.irsum q) s = execIrsum q s from rfl)
  case irmax => exact vecGives_reduce (show exec (.irmax q uns) s = execIrmax q uns s from rfl)
  case irmin => exact vecGives_reduce (show exec (.irmin q uns) s = execIrmin q uns s from rfl)
  case fscan => exact vecGives_scan_upTo true (show exec (.fscan q) s = execFscan q s from rfl)
  case fscanx => exact vecGives_scan_upTo false (show exec (.fscanx q) s = execFscanx q s from rfl)
  case iscan => exact vecGives_scan_upTo true (show exec (.iscan q) s = execIscan q s from rfl)
  case iscanx => exact vecGives_scan_upTo false (show exec (.iscanx q) s = execIscanx q s from rfl)
  · exact treeOf_add on x
  · exact treeOf_max BitVec.toNat 0 on x
  · exact treeOf_min BitVec.toNat 0xFFFFFFFF on x
  · exact treeOf_max BitVec.toInt 0x80000000 on x
  · exact treeOf_min BitVec.toInt 0x7FFFFFFF on x

/-! ### Movement (12 R291-R293) -/

/-- A movement gives lane `j` of its destination lane `f j` of its source. -/
theorem vecGives_moveLanes {i : Instr} {s : State} {o : Un} {f : Nat → Nat} (hexec : exec i s = moveLanes o f s) :
    VecGives i s o.u o.d [(o.x, false)] 2 (s.getM o.u o.m) (fun vs j => srcLane vs 0 (f j)) (fun _ => 0) := by
  refine vecGives_of_withSrcs hexec fun vs => ?_
  simp only [State.popped_getM, srcLane]

/-- The position `j` stands in the list of positions behind those below it. -/
theorem positions_split {n j : Nat} {q : Nat → Bool} (hj : j < n) (hq : q j = true) : ∃ l, positions n q = positions j q ++ j :: l := by
  obtain ⟨k, rfl⟩ : ∃ k, n = j + 1 + k := ⟨n - (j + 1), by omega⟩
  refine ⟨((List.range k).map (j + 1 + ·)).filter q, ?_⟩
  simp only [positions, List.range_add, List.range_succ, List.filter_append, List.filter_cons, hq, if_true, List.append_assoc,
    List.singleton_append]

theorem packLanes_lane (l : List W32) (d : W32) {n : Nat} (hn : n < 64) : (packLanes l d).lane n = nth l n d := by
  simp [packLanes, Lanes.build, Lanes.lane, hn]

theorem length_positions_le (n : Nat) (q : Nat → Bool) : (positions n q).length ≤ n :=
  (List.length_filter_le q (List.range n)).trans_eq List.length_range

/-- Packing the lanes at the positions of a mask and reading the lane behind those below `j` gives back lane `j`. -/
theorem packLanes_positions {q : Nat → Bool} {j : Nat} (x : Lanes) (hj : j < 64) (hq : q j = true) :
    (packLanes ((positions 64 q).map x.lane) 0).lane (positions j q).length = x.lane j := by
  obtain ⟨l, hl⟩ := positions_split hj hq
  rw [packLanes_lane _ _ ((length_positions_le j q).trans_lt hj), hl]
  simp [nth]

/-- Settles O28: every form moves lanes of its sources or of a mask; `EXPAND` reads each lane behind those packed before it. -/
theorem vectorMovement : Obligations.VectorMovement := by
  refine ⟨fun s u d q o k n x y a r rot bd =>
    ⟨?compressM, ?compressB, ?compressV, ?expand, ?perm, ?bcast, ?rotl, ?mov, ?laneid, ?movb, rfl, rfl⟩, fun m x j hj hm => ?_⟩
  case compressM => exact vecGives_of_vput (show exec (.compressM u d k) s = execCompressM u d k s from rfl)
  case compressB =>
    exact vecGives_of_withSrcs (show exec (.compressB u d x y) s = execCompressB u d x y s from rfl) fun vs => rfl
  case compressV =>
    refine vecGives_of_withSrcs (show exec (.compressV q) s = execCompressV q s from rfl) fun vs => ?_
    simp only [State.popped_getM]; rfl
  case expand =>
    refine vecGives_of_withSrcs (show exec (.expand q) s = execExpand q s from rfl) fun vs => ?_
    simp only [State.popped_getM, srcLane, positions]
  case perm =>
    refine vecGives_of_withSrcs (show exec (.perm o) s = execPerm o s from rfl) fun vs => ?_
    simp only [State.popped_getM, srcLane]
  case bcast => exact vecGives_moveLanes (show exec (.bcast q n) s = execBcast q n s from rfl)
  case rotl => exact vecGives_moveLanes (show exec (.rotl q n) s = execRotl q n s from rfl)
  case mov => exact vecGives_moveLanes (show exec (.mov q) s = execMov q s from rfl)
  case laneid => exact vecGives_of_vput (show exec (.laneid u d k) s = execLaneid u d k s from rfl)
  case movb =>
    intro vs hvs
    rw [show exec (.movb u bd x n) s = execMovb u bd x n s from rfl, execMovb, State.withSrcs_of_sources _ hvs]
    simp [atomic, srcLane]
  exact packLanes_positions x hj hm

end Sys2Proof.Machine
end

section
/-! PROOF. Conversions of the V slots (12 R285; O30). -/

namespace Sys2Proof.Machine

/-! ### `FCVT` (12 R285) -/

@[simp] theorem State.popped_getE (s : State) (l : List (VSrc × Bool)) (u : VU) (k : BitVec 2) : (s.popped l).getE u k = s.getE u k := by
  unfold State.getE
  rw [show (s.popped l).core.vf u = s.core.vf u from (State.foldl_pop_keeps _ s).2 u]

/-- The sources of `FCVT`, with the reading of each. -/
def cvtSrcs (o : Un) (isI : Bool) (r : CvtRnd) : List (VSrc × Bool) := (o.x, isI) :: (match r with | .dither x => [(x, true)] | _ => [])

/-- The state `t` with the new residues queued, under FEEDBACK, for the cycle of the result (04 R92). -/
def State.fedBack (s : State) (o : Un) (r : CvtRnd) (lat : Nat) (new : Lanes) (t : State) : State :=
  match r with
  | .feedback e => t.later (s.putAt o.d lat) true (.e o.u e new (s.getM o.u o.m))
  | _ => t

/-- A result whose next state, if it has one, has the new residues queued. -/
def Res.fedBack (res : Res) (s : State) (o : Un) (r : CvtRnd) (lat : Nat) (new : Lanes) : Res :=
  match res with
  | .next t => .next (s.fedBack o r lat new t)
  | res => res

@[simp] theorem State.fedBack_traps (s : State) (o : Un) (r : CvtRnd) (lat : Nat) (new : Lanes) (t : State) :
    (s.fedBack o r lat new t).traps = t.traps := by
  cases r <;> rfl

theorem Res.fedBack_dir (res : Res) (s : State) (o : Un) (d : Dir) (lat : Nat) (new : Lanes) : res.fedBack s o (.dir d) lat new = res := by
  cases res <;> rfl
theorem Res.fedBack_dither (res : Res) (s : State) (o : Un) (x : VSrc) (lat : Nat) (new : Lanes) : res.fedBack s o (.dither x) lat new = res := by
  cases res <;> rfl

/-- The two halves of a vector, as blocks of 32 lanes. -/
theorem halves_eq {α : Type} {j : Nat} (hj : j < 64) (g : Nat → Nat → α) : (if j < 32 then g 0 j else g 1 (j - 32)) = g (j / 32) (j % 32) := by
  split
  · next h => rw [Nat.div_eq_of_lt h, Nat.mod_eq_of_lt h]
  · next h => rw [show j / 32 = 1 by omega, show j % 32 = j - 32 by omega]

theorem Lanes.build_congr {f g : Nat → W32} (h : ∀ j, j < 64 → f j = g j) : Lanes.build f = Lanes.build g :=
  Lanes.eq_build fun j hj => by rw [← h j hj]; simp [Lanes.build, Lanes.lane, hj]

theorem vput_fedBack_congr {s : State} {u : VU} {d : VDst} {lat : Nat} {f f' : Nat → W32} {m : W64} {fl : Fl} {o : Un} {r : CvtRnd} {g g' : Nat → W32}
    (hf : ∀ j, j < 64 → f j = f' j) (hg : ∀ e, r = .feedback e → ∀ j, j < 64 → g j = g' j) :
    (s.vput u d lat (Lanes.build f) m fl).fedBack s o r lat (Lanes.build g) = (s.vput u d lat (Lanes.build f') m fl).fedBack s o r lat (Lanes.build g') := by
  rw [Lanes.build_congr hf]
  cases r with
  | feedback e => rw [Lanes.build_congr (hg e rfl)]
  | dir d => simp only [Res.fedBack_dir]
  | dither x => simp only [Res.fedBack_dither]

/-- The conversion's own choice, by result and mode, is `fedBack`. -/
theorem matchNext_eq_fedBack (res : Res) (s : State) (o : Un) (r : CvtRnd) (lat : Nat) (new : Lanes) :
    (match res, r with
      | .next t, .feedback e => .next (t.later (s.putAt o.d lat) true (.e o.u e new (s.getM o.u o.m)))
      | res, _ => res) = res.fedBack s o r lat new := by
  cases res <;> cases r <;> rfl

section
variable (o : Un) (isI sat : Bool) (tgt : BitVec 4) (r : CvtRnd) (s : State)

/-- The residues that a conversion reads: zero unless under FEEDBACK. -/
def oldResidue : Lanes := match r with | .feedback e => s.getE o.u e | _ => Lanes.splat 0

theorem oldResidue_popped (l : List (VSrc × Bool)) : oldResidue o r (s.popped l) = oldResidue o r s := by
  cases r <;> simp [oldResidue]

/-- The value of lane `j` that a block target encodes. -/
def blockSrc (old : Lanes) (m : W64) (vs : List Lanes) (j : Nat) : Val :=
  if m.getLsbD j then
    (if isI then Val.ofInt (srcLane vs 0 j).toInt
     else match r with | .feedback _ => valOf (feedT (valOf (srcLane vs 0 j)) (old.lane j)).1 | _ => valOf (srcLane vs 0 j))
  else Val.zero false

/-- The value that lane `j` decodes to after the encode of its block. -/
def blockDec (old : Lanes) (m : W64) (vs : List Lanes) (j : Nat) : Val :=
  blockVal (tgt.setWidth 5) (cvtBlock (tgt.setWidth 5) (CvtMode r) (fun j => (srcLane vs 1 j).toNat) sat (blockSrc isI r old m vs) (j / 32)) (j % 32)

/-- The new residue of lane `j` of a conversion to a block target. -/
def blockRes (old : Lanes) (m : W64) (vs : List Lanes) (j : Nat) : W32 :=
  (feedE (valOf (srcLane vs 0 j)) (old.lane j) (feedT (valOf (srcLane vs 0 j)) (old.lane j)).1 (asF32 (blockDec isI sat tgt r old m vs j))).1

theorem exec_fcvt_simple (hb : isBlock (tgt.setWidth 5) = false) (hr : ∀ e, r ≠ .feedback e) :
    exec (.fcvt o isI tgt r sat) s = s.withSrcs o.u (cvtSrcs o isI r) fun vs t =>
      let c := fun j => cvtLane (tgt.setWidth 5) (CvtMode r) (srcLane vs 1 j).toNat j sat isI (srcLane vs 0 j)
      t.vput o.u o.d 4 (Lanes.build fun j => (c j).1) (t.getM o.u o.m) (orLanes (fun j => (c j).2) (t.getM o.u o.m)) := by
  show execFcvt o isI tgt r sat s = _
  unfold execFcvt
  cases r with
  | dir d => simp only [hb, Bool.false_eq_true, if_false]; rfl
  | dither x => simp only [hb, Bool.false_eq_true, if_false]; rfl
  | feedback e => exact absurd rfl (hr e)

theorem exec_fcvt_feedback (hb : isBlock (tgt.setWidth 5) = false) (e : BitVec 2) :
    exec (.fcvt o isI tgt (.feedback e) sat) s = s.withSrcs o.u [(o.x, isI)] fun vs t =>
      let c := fun j => cvtFeed (tgt.setWidth 5) sat (srcLane vs 0 j) ((t.getE o.u e).lane j)
      (t.vput o.u o.d 4 (Lanes.build fun j => (c j).d) (t.getM o.u o.m) (orLanes (fun j => (c j).fl) (t.getM o.u o.m))).fedBack t o (.feedback e) 4
        (Lanes.build fun j => (c j).e) := by
  show execFcvt o isI tgt (.feedback e) sat s = _
  unfold execFcvt
  simp only [hb, Bool.false_eq_true, if_false, if_true]
  congr 1
  funext vs t
  unfold Res.fedBack
  split <;> simp_all [srcLane, State.fedBack]

theorem exec_fcvt_block (hb : isBlock (tgt.setWidth 5) = true) : ∃ k,
    exec (.fcvt o isI tgt r sat) s = s.withSrcs o.u (cvtSrcs o isI r) k ∧ ∀ vs t, ∃ fl,
      let old := oldResidue o r t
      let m := t.getM o.u o.m
      k vs t = (t.vput o.u o.d 6 (Lanes.build fun j => (toF32 .rne (blockDec isI sat tgt r old m vs j)).1) m fl).fedBack
        t o r 6 (Lanes.build (blockRes isI sat tgt r old m vs)) := by
  show ∃ k, execFcvt o isI tgt r sat s = _ ∧ _
  unfold execFcvt
  simp only [hb, if_true]
  refine ⟨_, rfl, fun vs t => ⟨_, (matchNext_eq_fedBack ..).trans (vput_fedBack_congr (fun j hj => ?_) (fun e he j hj => ?_))⟩⟩
  · rw [halves_eq hj (fun b i => blockVal _ (cvtBlock _ _ _ _ _ b) i)]
    cases r <;> rfl
  · rw [halves_eq hj (fun b i => blockVal _ (cvtBlock _ _ _ _ _ b) i)]
    subst he
    rfl

/-- A ready destination takes the result of a form that queues residues with it. -/
theorem gives_of_fedBack {i : Instr} {l : List (VSrc × Bool)} {k : List Lanes → State → Res} {vs : List Lanes} {x : Lanes} {lat : Nat} {fl : Fl}
    {new : Lanes} (hexec : exec i s = s.withSrcs o.u l k) (hvs : s.sources o.u l = some vs)
    (hready : (s.popped l).dstReady o.u o.d x (s.getM o.u o.m) = true)
    (hk : k vs (s.popped l) = ((s.popped l).vput o.u o.d lat x (s.getM o.u o.m) fl).fedBack (s.popped l) o r lat new) :
    ∃ t, exec i s = .next ((s.popped l).fedBack o r lat new t) ∧ VPut (s.popped l) o.u o.d lat x (s.getM o.u o.m) fl t := by
  obtain ⟨t, hput, htraps⟩ := State.vput_of_dstReady lat fl hready
  refine ⟨t, ?_, hput⟩
  rw [hexec, State.withSrcs_of_sources k hvs, hk, hput]
  simp [Res.fedBack, atomic, htraps]

end

/-- Settles O30: a conversion is a lane form, with the residues queued beside the result under FEEDBACK; a block target encodes each half and reads
its lanes back. -/
theorem fcvtCompletes : Obligations.FcvtCompletes := by
  intro s o isI sat tgt r
  refine ⟨fun hb hr => ?simple, fun hb e hr vs hvs => ?feed, fun hb vs hvs => ?block⟩
  case simple =>
    refine vecGives_of_withSrcs (exec_fcvt_simple o isI sat tgt r s hb hr) fun vs => ?_
    simp only [State.popped_getM]
  case feed =>
    subst hr
    intro c x y hxy hready
    have hx := Lanes.eq_build fun j hj => (hxy j hj).1
    have hy := Lanes.eq_build fun j hj => (hxy j hj).2
    obtain ⟨t, hexec, hput⟩ := gives_of_fedBack o (.feedback e) s (new := y) (fl := orLanes (fun j => (c j).fl) (s.getM o.u o.m))
      (exec_fcvt_feedback o isI sat tgt s hb e) hvs hready (by simp only [hx, hy, State.popped_getM, State.popped_getE]; rfl)
    refine ⟨t, ?_, hput⟩
    simpa only [State.fedBack, State.popped_getM] using hexec
  case block =>
    intro old v code dec x hx hready
    obtain ⟨k, hexec, hk⟩ := exec_fcvt_block o isI sat tgt r s hb
    obtain ⟨fl, hfl⟩ := hk vs (s.popped (cvtSrcs o isI r))
    simp only [State.popped_getM, oldResidue_popped] at hfl
    obtain ⟨t, hexec, hput⟩ := gives_of_fedBack o r s hexec hvs (Lanes.eq_build hx ▸ hready) hfl
    refine ⟨t, fl, ?_, Lanes.eq_build hx ▸ hput⟩
    rw [hexec]
    cases r with
    | feedback e => simp only [State.fedBack, State.popped_getM]; rfl
    | dir d => rfl
    | dither x => rfl

end Sys2Proof.Machine
end

section
/-! PROOF. Results in registers and output ports, pops and peeks, and the traps of ports (12 R277, R278; 05 R107-R113; O31, O32). -/

namespace Sys2Proof.Machine

/-! ### Queued flags and port claims -/

/-- `flagLater` changes the queue of timed actions and nothing else. -/
theorem State.flagLater_eq (s : State) (dt : Nat) (f : Fl) :
    s.flagLater dt f = { s with core := { s.core with pend := (s.flagLater dt f).core.pend } } := by
  unfold State.flagLater
  split <;> rfl

theorem State.mem_flagLater (s : State) (dt : Nat) (f : Fl) (q : Pend) :
    q ∈ (s.flagLater dt f).core.pend ↔
      (f ≠ 0 ∧ q = { time := s.gang.now + dt, iss := s.gang.now, own := true, act := .flags f }) ∨ q ∈ s.core.pend := by
  by_cases hf : f = 0
  · subst hf
    rw [State.flagLater_zero]
    tauto
  · rw [State.flagLater_of_ne hf, State.mem_later]
    tauto

@[simp] theorem State.chargeAll_mem (s : State) (dt : Nat) (wr : Bool) (c : Cap) (l : List Nat) : (s.chargeAll dt wr c l).mem = s.mem := by
  rw [State.chargeAll_eq]
@[simp] theorem State.chargeAll_gang (s : State) (dt : Nat) (wr : Bool) (c : Cap) (l : List Nat) : (s.chargeAll dt wr c l).gang = s.gang := by
  rw [State.chargeAll_eq]

/-- The register files see neither ports nor timed actions. -/
theorem sameRegs_setPort (c : Core) (n : Nat) (p : Port) (l : List Pend) : SameRegs c { c.setPort n p with pend := l } := by
  constructor <;> simp

/-- Ports after a write of one and any change of the timed actions. -/
theorem getPort_setPort_pend (s t : State) (i j : Nat) (p : Port) (l : List Pend) (ht : t.core = { s.core.setPort i p with pend := l }) (hi : i < 12) :
    t.getPort j = if j = i then p else s.getPort j := by
  rw [← Core.getPort_setPort s i j p hi]
  unfold State.getPort
  rw [ht]
  rfl

/-- Of the core `c`, only the timed actions have changed. -/
def OnlyPend (c : Core) (s : State) : Prop := ∃ l, s.core = { c with pend := l }

theorem OnlyPend.later {c : Core} {s : State} (h : OnlyPend c s) (dt : Nat) (own : Bool) (a : Act) : OnlyPend c (s.later dt own a) := by
  obtain ⟨l, hl⟩ := h
  exact ⟨_, by rw [State.later_eq, hl]⟩

theorem OnlyPend.flagLater {c : Core} {s : State} (h : OnlyPend c s) (dt : Nat) (f : Fl) : OnlyPend c (s.flagLater dt f) := by
  obtain ⟨l, hl⟩ := h
  exact ⟨_, by rw [State.flagLater_eq, hl]⟩

theorem OnlyPend.chargeAll {c : Core} {s : State} (h : OnlyPend c s) (dt : Nat) (wr : Bool) (k : Cap) (l : List Nat) :
    OnlyPend c (s.chargeAll dt wr k l) := by
  obtain ⟨p, hp⟩ := h
  exact ⟨p, by rw [State.chargeAll_core, hp]⟩

/-! ### Pushes (05 R113, 10 R239) -/

/-- The state after output port `n`, which holds capture `c`, has taken the encode `out` of a result with flags `fl`. -/
def State.afterPush (s : State) (u : VU) (n : Nat) (c : Cap) (out : PushOut) (lat : Nat) (m : W64) (fl : Fl) : State :=
  let p := s.getPort n
  let dt := pushAt c.ent lat
  let s := s.setCore (s.core.setPort n { p with pos := p.pos + 1 })
  let s := s.setClu (s.clu.capture c)
  let s := (s.later dt true (.tile c out.upd)).later dt true (.uncap c)
  let s := (s.flagLater (lat - 1) fl).flagLater dt out.fl
  let s := if psFeed p.active then s.later dt true (.e u (psRes p.active) out.res (m &&& pushLanes p.active p.pos)) else s
  s.chargeAll dt true c (updWords out.upd)

section
variable (s : State) (u : VU) (n : Nat) (c : Cap) (out : PushOut) (lat : Nat) (m : W64) (fl : Fl)

theorem State.afterPush_core :
    OnlyPend (s.core.setPort n { s.getPort n with pos := (s.getPort n).pos + 1 }) (s.afterPush u n c out lat m fl) := by
  have moved : ∀ k, OnlyPend (s.core.setPort n { s.getPort n with pos := (s.getPort n).pos + 1 })
    ((s.setCore (s.core.setPort n { s.getPort n with pos := (s.getPort n).pos + 1 })).setClu k) := fun k => ⟨_, rfl⟩
  unfold State.afterPush
  dsimp only
  split
  · exact (((((moved _).later ..).later ..).flagLater ..).flagLater ..).later .. |>.chargeAll ..
  · exact (((((moved _).later ..).later ..).flagLater ..).flagLater ..).chargeAll ..

theorem State.afterPush_mem : (s.afterPush u n c out lat m fl).mem = s.mem := by
  unfold State.afterPush
  dsimp only
  split <;> simp

theorem State.afterPush_gang : (s.afterPush u n c out lat m fl).gang = s.gang := by
  unfold State.afterPush
  dsimp only
  split <;> simp

/-- The actions that a push queues. -/
theorem State.mem_afterPush (q : Pend) : q ∈ (s.afterPush u n c out lat m fl).core.pend ↔
    let at_ := fun (dt : Nat) (a : Act) => ({ time := s.gang.now + dt, iss := s.gang.now, own := true, act := a } : Pend)
    let dt := pushAt c.ent lat
    (psFeed (s.getPort n).active = true ∧
      q = at_ dt (.e u (psRes (s.getPort n).active) out.res (m &&& pushLanes (s.getPort n).active (s.getPort n).pos))) ∨
    (out.fl ≠ 0 ∧ q = at_ dt (.flags out.fl)) ∨ (fl ≠ 0 ∧ q = at_ (lat - 1) (.flags fl)) ∨ q = at_ dt (.uncap c) ∨ q = at_ dt (.tile c out.upd) ∨
    q ∈ s.core.pend := by
  unfold State.afterPush
  dsimp only
  split
  · next h => simp [State.mem_later, State.mem_flagLater, h]
  · next h => simp [State.mem_later, State.mem_flagLater, h]

end

section
variable (s : State) (u : VU) (o : BitVec 2) (lat : Nat) (x : Lanes) (m : W64) (fl : Fl)

/-- What output port `o` makes of a vector: the encode of the vector at its place in the sequence. -/
def State.pushOut (c : Cap) : PushOut :=
  encodePush (s.getPort (8 + o.toNat)).active c.ent (s.getPort (8 + o.toNat)).pos x m (s.getE u (psRes (s.getPort (8 + o.toNat)).active))

/-- A port without a capture, not armed or past its sequence traps (05 R113). -/
theorem vput_push_unarmed (h : (s.getPort (8 + o.toNat)).cap = none ∨ (s.getPort (8 + o.toNat)).armed = false ∨
    psNV (s.getPort (8 + o.toNat)).active ≤ (s.getPort (8 + o.toNat)).pos) :
    s.vput u (.push o) lat x m fl = .next (s.trap (vuSlot u) 5 0) := by
  unfold State.vput
  dsimp only
  cases hc : (s.getPort (8 + o.toNat)).cap with
  | none => rfl
  | some c =>
    refine if_pos ?_
    rcases h with h | h | h
    · simp [hc] at h
    · simp [h]
    · simp [Nat.not_lt_of_le h]

variable {s} in
/-- An armed port with a vector left takes the vector, unless its words fall in a range that the links hold (15 R367). -/
theorem vput_push_armed {c : Cap} (hc : (s.getPort (8 + o.toNat)).cap = some c) (harmed : (s.getPort (8 + o.toNat)).armed = true)
    (hpos : (s.getPort (8 + o.toNat)).pos < psNV (s.getPort (8 + o.toNat)).active) :
    s.vput u (.push o) lat x m fl =
      match s.rangeTrap c.h (updWords (s.pushOut u o x m c).upd) true with
      | some cause => .next (s.trap (vuSlot u) 9 cause 0 (s.rangeLink c.h (updWords (s.pushOut u o x m c).upd) true))
      | none => .next (s.afterPush u (8 + o.toNat) c (s.pushOut u o x m c) lat m fl) := by
  unfold State.vput
  dsimp only
  split
  · next hnone => simp [hc] at hnone
  · next c' hc' =>
    obtain rfl : c = c' := Option.some.inj (hc.symm.trans hc')
    rw [if_neg (by simp [harmed, hpos])]
    rfl

variable {s} in
theorem dstReady_push_iff {c : Cap} (hc : (s.getPort (8 + o.toNat)).cap = some c) : s.dstReady u (.push o) x m = true ↔
    (s.getPort (8 + o.toNat)).armed = true ∧ (s.getPort (8 + o.toNat)).pos < psNV (s.getPort (8 + o.toNat)).active ∧
      s.rangeTrap c.h (updWords (s.pushOut u o x m c).upd) true = none := by
  unfold State.dstReady
  simp only [hc, Bool.and_eq_true, decide_eq_true_eq, Option.isNone_iff_eq_none, and_assoc]
  rfl

theorem vput_next : ∃ t, s.vput u (.push o) lat x m fl = .next t := by
  by_cases h : (s.getPort (8 + o.toNat)).cap = none ∨ (s.getPort (8 + o.toNat)).armed = false ∨
    psNV (s.getPort (8 + o.toNat)).active ≤ (s.getPort (8 + o.toNat)).pos
  · exact ⟨_, vput_push_unarmed s u o lat x m fl h⟩
  · simp only [not_or, Nat.not_le, Bool.not_eq_false] at h
    obtain ⟨hcap, harmed, hpos⟩ := h
    obtain ⟨c, hc⟩ := Option.ne_none_iff_exists'.mp hcap
    rw [vput_push_armed u o lat x m fl hc harmed hpos]
    split
    · exact ⟨_, rfl⟩
    · exact ⟨_, rfl⟩

end

theorem pushLanes_getLsbD (ps : Vector W64 5) (v : Nat) {j : Nat} (hj : j < 64) : (pushLanes ps v).getLsbD j = decide (64 * v + j < psT ps) := by
  unfold pushLanes
  rw [BitVec.getLsbD_ofNat, Nat.testBit_two_pow_sub_one]
  simp only [hj, decide_true, Bool.true_and, decide_eq_decide]
  omega

/-- Settles O31: `vput` queues a register write, or gives `afterPush` where the port and the ranges allow it. -/
theorem resultsReachDestinations : Obligations.ResultsReachDestinations := by
  intro s u n rot o lat x m fl
  refine ⟨rfl, fun c t hc hready hput => ?_, fun c cause hc harmed hpos hcause => ?_, vput_next s u o lat x m fl⟩
  · obtain ⟨harmed, hpos, hrange⟩ := (dstReady_push_iff u o x m hc).mp hready
    have ht : s.afterPush u (8 + o.toNat) c (s.pushOut u o x m c) lat m fl = t := by
      unfold VPut at hput
      rw [vput_push_armed u o lat x m fl hc harmed hpos, hrange] at hput
      exact Host.Outcome.next.inj hput
    subst ht
    obtain ⟨l, hcore⟩ := s.afterPush_core u (8 + o.toNat) c (s.pushOut u o x m c) lat m fl
    have hport := fun j => getPort_setPort_pend s _ (8 + o.toNat) j _ l hcore (by omega)
    refine ⟨(hport _).trans (if_pos rfl), fun j hj => (hport j).trans (if_neg hj), hcore ▸ sameRegs_setPort .., State.afterPush_mem ..,
      State.afterPush_gang .., ?_, fun hfl => ?_, fun hfl => ?_, fun hfeed => ⟨m &&& pushLanes (s.getPort (8 + o.toNat)).active (s.getPort (8 + o.toNat)).pos,
        fun j hj => ?_, ?_⟩⟩
    · exact (State.mem_afterPush ..).mpr (.inr (.inr (.inr (.inr (.inl rfl)))))
    · exact (State.mem_afterPush ..).mpr (.inr (.inr (.inl ⟨hfl, rfl⟩)))
    · exact (State.mem_afterPush ..).mpr (.inr (.inl ⟨hfl, rfl⟩))
    · rw [BitVec.getLsbD_and, pushLanes_getLsbD _ _ hj]
    · exact (State.mem_afterPush ..).mpr (.inl ⟨hfeed, rfl⟩)
  · rw [vput_push_armed u o lat x m fl hc harmed hpos, show s.rangeTrap c.h (updWords (s.pushOut u o x m c).upd) true = some cause from hcause]
    rfl

end Sys2Proof.Machine
end

section
/-! PROOF. Pops and peeks, and the traps of the V slots' ports (12 R278; 05 R111-R113; O32). -/

namespace Sys2Proof.Machine

/-! ### Pops (05 R111, R112) -/

section
variable {s : State} {n : Nat} {c : Cap}

/-- A pop moves its port on and queues actions. -/
theorem State.pop_core (hc : (s.getPort n).cap = some c) : OnlyPend (s.core.setPort n { s.getPort n with
    pos := (s.getPort n).pos + 1, buf := (s.getPort n).buf.filter (·.1 != (s.getPort n).pos) }) (s.pop n) := by
  have moved : OnlyPend _ (s.setCore (s.core.setPort n { s.getPort n with
    pos := (s.getPort n).pos + 1, buf := (s.getPort n).buf.filter (·.1 != (s.getPort n).pos) })) := ⟨_, rfl⟩
  unfold State.pop
  dsimp only
  split
  · next hnone => simp [hc] at hnone
  · split
    · exact ((moved.flagLater ..).later ..).chargeAll ..
    · exact moved.flagLater ..

theorem State.pop_of_no_cap (hc : (s.getPort n).cap = none) : s.pop n = s := by
  unfold State.pop
  dsimp only
  rw [hc]

@[simp] theorem State.pop_mem (s : State) (n : Nat) : (s.pop n).mem = s.mem := by
  unfold State.pop
  dsimp only
  split
  · rfl
  · split <;> simp

/-- A pop leaves every other port, and the number of its core. -/
theorem State.pop_others (s : State) (n : Nat) (hn : n < 12) : (s.pop n).core.id = s.core.id ∧ ∀ j, j ≠ n → (s.pop n).getPort j = s.getPort j := by
  cases hc : (s.getPort n).cap with
  | none => rw [State.pop_of_no_cap hc]; exact ⟨rfl, fun _ _ => rfl⟩
  | some c =>
    obtain ⟨l, hl⟩ := State.pop_core hc
    exact ⟨by rw [hl]; simp, fun j hj => (getPort_setPort_pend s _ n j _ l hl hn).trans (if_neg hj)⟩

theorem State.foldl_pop_others : ∀ (l : List Nat) (s : State), (∀ n ∈ l, n < 8) →
    (l.foldl State.pop s).core.id = s.core.id ∧ ∀ j, 8 ≤ j → (l.foldl State.pop s).getPort j = s.getPort j
  | [], _, _ => ⟨rfl, fun _ _ => rfl⟩
  | n :: l, s, hl => by
    have hn : n < 8 := hl n List.mem_cons_self
    obtain ⟨hid, hport⟩ := State.foldl_pop_others l (s.pop n) fun k hk => hl k (List.mem_cons_of_mem _ hk)
    obtain ⟨hid', hport'⟩ := s.pop_others n (by omega)
    exact ⟨hid.trans hid', fun j hj => (hport j hj).trans (hport' j (by omega))⟩

theorem popsOf_lt (l : List VSrc) : ∀ n ∈ popsOf l, n < 8 := by
  intro n hn
  simp only [popsOf, List.mem_eraseDups, List.mem_filterMap] at hn
  obtain ⟨x, _, hx⟩ := hn
  cases x <;> simp at hx
  omega

/-- The pops of a form leave the output ports as they were, and the number of the core. -/
theorem State.popped_others (s : State) (l : List (VSrc × Bool)) :
    (s.popped l).core.id = s.core.id ∧ ∀ o : BitVec 2, (s.popped l).getPort (8 + o.toNat) = s.getPort (8 + o.toNat) := by
  obtain ⟨hid, hport⟩ := State.foldl_pop_others (popsOf (l.map (·.1))) s (popsOf_lt _)
  exact ⟨hid, fun o => hport _ (by omega)⟩

/-- A port whose vector has come due gives it. -/
theorem State.portVec_due {x : Lanes} {f : Fl} (hc : (s.getPort n).cap = some c) (harmed : (s.getPort n).armed = true)
    (hdue : (s.getPort n).armIss + (if c.ent.lvl then 9 else 6) ≤ s.gang.now) (hpos : (s.getPort n).pos < psNV (s.getPort n).active)
    (hbuf : (s.getPort n).buf.find? (fun b => b.1 == (s.getPort n).pos) = some ((s.getPort n).pos, x, f)) : s.portVec n = some (x, f) := by
  have hfirst : (s.getPort n).armIss + firstPop c.ent ≤ s.gang.now := hdue
  unfold State.portVec
  simp only [hc, harmed, hfirst, hpos, decide_true, Bool.and_self, if_true, hbuf, Option.map_some]

end

/-! ### Forms that trap (12 R278) -/

/-- Output port `o` is not armed or has no vector left. -/
def State.unarmed (s : State) (o : BitVec 2) : Prop :=
  let p := s.getPort (8 + o.toNat)
  p.cap = none ∨ p.armed = false ∨ psNV p.active ≤ p.pos

/-- PORT_UNARMED of the core in focus in the slot of `u`. -/
def portTrap (s : State) (u : VU) : TrapRec :=
  { who := s.core.id, info := { cls := 5, cause := 0, slots := slotBit (vuSlot u), addr := 0, aux := 0 } }

/-- A form that reads its sources and then pushes: where its output port is not armed, what follows the pops traps. -/
structure Reads (i : Instr) (s : State) (u : VU) (l : List (VSrc × Bool)) (k : List Lanes → State → Res) : Prop where
  exec_eq : exec i s = s.withSrcs u l k
  srcs_eq : l.map (·.1) = i.vsrcs
  unarmed : ∀ o vs t, i.vdst? = some (.push o) → t.unarmed o → ∃ t', k vs t = .next t' ∧ t'.traps = t.traps ++ [portTrap t u]

/-- A form that reads its sources in unit `u`. -/
def VForm (i : Instr) (s : State) (u : VU) : Prop := ∃ l k, Reads i s u l k

section
variable {i : Instr} {s : State} {u : VU}

/-- A form that hands some vector to its destination. -/
theorem VForm.of_vput {d : VDst} {l : List (VSrc × Bool)} {k : List Lanes → State → Res} (hexec : exec i s = s.withSrcs u l k)
    (hsrcs : l.map (·.1) = i.vsrcs) (hdst : i.vdst? = some d) (hk : ∀ vs t, ∃ lat x m fl, k vs t = t.vput u d lat x m fl) : VForm i s u := by
  refine ⟨l, k, hexec, hsrcs, fun o vs t ho hun => ?_⟩
  obtain rfl : d = .push o := Option.some.inj (hdst.symm.trans ho)
  obtain ⟨lat, x, m, fl, hput⟩ := hk vs t
  exact ⟨_, hput.trans (vput_push_unarmed t u o lat x m fl hun), rfl⟩

theorem VForm.no_dst {l : List (VSrc × Bool)} {k : List Lanes → State → Res} (hexec : exec i s = s.withSrcs u l k)
    (hsrcs : l.map (·.1) = i.vsrcs) (hdst : i.vdst? = none) : VForm i s u :=
  ⟨l, k, hexec, hsrcs, fun o vs t ho => by simp [hdst] at ho⟩

theorem VForm.vec1 {o : Un} {lat : Nat} {int : Bool} {f : W32 → W32 × Fl} (hexec : exec i s = vec1 o lat int f s)
    (hsrcs : i.vsrcs = [o.x]) (hdst : i.vdst? = some o.d) : VForm i s o.u :=
  .of_vput hexec hsrcs.symm hdst fun _ _ => ⟨_, _, _, _, rfl⟩
theorem VForm.vec2 {o : Bin} {lat : Nat} {intX intY : Bool} {f : W32 → W32 → W32 × Fl} (hexec : exec i s = vec2 o lat intX intY f s)
    (hsrcs : i.vsrcs = [o.x, o.y]) (hdst : i.vdst? = some o.d) : VForm i s o.u :=
  .of_vput hexec hsrcs.symm hdst fun _ _ => ⟨_, _, _, _, rfl⟩
theorem VForm.vec3 {o : Tri} {lat : Nat} {int : Bool} {f : W32 → W32 → W32 → W32 × Fl} (hexec : exec i s = vec3 o lat int f s)
    (hsrcs : i.vsrcs = [o.x, o.y, o.z]) (hdst : i.vdst? = some o.d) : VForm i s o.u :=
  .of_vput hexec hsrcs.symm hdst fun _ _ => ⟨_, _, _, _, rfl⟩
theorem VForm.int1 {o : Un} {f : W32 → W32} (hexec : exec i s = int1 o f s)
    (hsrcs : i.vsrcs = [o.x]) (hdst : i.vdst? = some o.d) : VForm i s o.u := .vec1 hexec hsrcs hdst
theorem VForm.int2 {o : Bin} {lat : Nat} {f : W32 → W32 → W32} (hexec : exec i s = int2 o lat f s)
    (hsrcs : i.vsrcs = [o.x, o.y]) (hdst : i.vdst? = some o.d) : VForm i s o.u := .vec2 hexec hsrcs hdst
theorem VForm.reduce {o : Un} {lat : Nat} {int : Bool} {f : (Nat → Bool) → Lanes → W32 × Fl} (hexec : exec i s = reduce o lat int f s)
    (hsrcs : i.vsrcs = [o.x]) (hdst : i.vdst? = some o.d) : VForm i s o.u :=
  .of_vput hexec hsrcs.symm hdst fun _ _ => ⟨_, _, _, _, rfl⟩
theorem VForm.scan {o : Un} {lat : Nat} {int excl : Bool} {idt : W32} {f : (Nat → Bool) → Lanes → W32 × Fl}
    (hexec : exec i s = scan o lat int excl idt f s) (hsrcs : i.vsrcs = [o.x]) (hdst : i.vdst? = some o.d) : VForm i s o.u :=
  .of_vput hexec hsrcs.symm hdst fun _ _ => ⟨_, _, _, _, rfl⟩
theorem VForm.moveLanes {o : Un} {f : Nat → Nat} (hexec : exec i s = moveLanes o f s)
    (hsrcs : i.vsrcs = [o.x]) (hdst : i.vdst? = some o.d) : VForm i s o.u :=
  .of_vput hexec hsrcs.symm hdst fun _ _ => ⟨_, _, _, _, rfl⟩
/-- A form without vector sources. -/
theorem VForm.sourceless {d : VDst} {lat : Nat} {x : Lanes} {m : W64} {fl : Fl} (hexec : exec i s = atomic s (s.vput u d lat x m fl))
    (hsrcs : i.vsrcs = []) (hdst : i.vdst? = some d) : VForm i s u :=
  .of_vput (l := []) (k := fun _ t => t.vput u d lat x m fl) hexec hsrcs.symm hdst fun _ _ => ⟨_, _, _, _, rfl⟩

end

theorem fedBack_unarmed {s t : State} {u : VU} {o : BitVec 2} {lat : Nat} {x : Lanes} {m : W64} {fl : Fl} (q : Un) (r : CvtRnd) (new : Lanes)
    (h : s.unarmed o) : ∃ t', (s.vput u (.push o) lat x m fl).fedBack t q r lat new = .next t' ∧ t'.traps = s.traps ++ [portTrap s u] := by
  rw [vput_push_unarmed s u o lat x m fl h]
  exact ⟨_, rfl, State.fedBack_traps ..⟩

theorem VForm.fcvt (o : Un) (isI : Bool) (tgt : BitVec 4) (r : CvtRnd) (sat : Bool) (s : State) : VForm (.fcvt o isI tgt r sat) s o.u := by
  have hsrcs : (cvtSrcs o isI r).map (·.1) = (Instr.fcvt o isI tgt r sat).vsrcs := by cases r <;> rfl
  by_cases hb : isBlock (tgt.setWidth 5) = true
  · obtain ⟨k, hexec, hk⟩ := exec_fcvt_block o isI sat tgt r s hb
    refine ⟨_, k, hexec, hsrcs, fun p vs t hp hun => ?_⟩
    obtain ⟨fl, hfl⟩ := hk vs t
    rw [hfl, show o.d = .push p from Option.some.inj hp]
    exact fedBack_unarmed o r _ hun
  · rw [Bool.not_eq_true] at hb
    by_cases hr : ∃ e, r = .feedback e
    · obtain ⟨e, rfl⟩ := hr
      refine ⟨_, _, exec_fcvt_feedback o isI sat tgt s hb e, hsrcs, fun p vs t hp hun => ?_⟩
      rw [show o.d = .push p from Option.some.inj hp]
      exact fedBack_unarmed o _ _ hun
    · exact .of_vput (exec_fcvt_simple o isI sat tgt r s hb fun e he => hr ⟨e, he⟩) hsrcs rfl fun _ _ => ⟨_, _, _, _, rfl⟩

/-- Every V-slot form reads its sources and hands its result to its destination, or has neither vector sources nor a vector destination. -/
theorem vForm_of_vu {i : Instr} {u : VU} (s : State) (h : i.vu? = some u) : (i.vsrcs = [] ∧ i.vdst? = none) ∨ VForm i s u := by
  cases i <;> cases h
  case fadd o rm => exact .inr (.vec2 (show execFadd o rm s = _ from rfl) rfl rfl)
  case fsub o rm => exact .inr (.vec2 (show execFsub o rm s = _ from rfl) rfl rfl)
  case fmul o rm => exact .inr (.vec2 (show execFmul o rm s = _ from rfl) rfl rfl)
  case fmin o => exact .inr (.vec2 (show execFmin o s = _ from rfl) rfl rfl)
  case fmax o => exact .inr (.vec2 (show execFmax o s = _ from rfl) rfl rfl)
  case fscale o rm => exact .inr (.vec2 (show execFscale o rm s = _ from rfl) rfl rfl)
  case iadd o => exact .inr (.int2 (show execIadd o s = _ from rfl) rfl rfl)
  case isub o => exact .inr (.int2 (show execIsub o s = _ from rfl) rfl rfl)
  case imul o => exact .inr (.int2 (show execImul o s = _ from rfl) rfl rfl)
  case imulh o => exact .inr (.int2 (show execImulh o s = _ from rfl) rfl rfl)
  case imulhu o => exact .inr (.int2 (show execImulhu o s = _ from rfl) rfl rfl)
  case ishl o => exact .inr (.int2 (show execIshl o s = _ from rfl) rfl rfl)
  case ishr o => exact .inr (.int2 (show execIshr o s = _ from rfl) rfl rfl)
  case isar o => exact .inr (.int2 (show execIsar o s = _ from rfl) rfl rfl)
  case iand o => exact .inr (.int2 (show execIand o s = _ from rfl) rfl rfl)
  case ior o => exact .inr (.int2 (show execIor o s = _ from rfl) rfl rfl)
  case ixor o => exact .inr (.int2 (show execIxor o s = _ from rfl) rfl rfl)
  case iandn o => exact .inr (.int2 (show execIandn o s = _ from rfl) rfl rfl)
  case imin o => exact .inr (.int2 (show execImin o s = _ from rfl) rfl rfl)
  case imax o => exact .inr (.int2 (show execImax o s = _ from rfl) rfl rfl)
  case iminu o => exact .inr (.int2 (show execIminu o s = _ from rfl) rfl rfl)
  case imaxu o => exact .inr (.int2 (show execImaxu o s = _ from rfl) rfl rfl)
  case iadds o => exact .inr (.int2 (show execIadds o s = _ from rfl) rfl rfl)
  case isubs o => exact .inr (.int2 (show execIsubs o s = _ from rfl) rfl rfl)
  case fma o rm => exact .inr (.vec3 (show execFma o rm s = _ from rfl) rfl rfl)
  case fnma o rm => exact .inr (.vec3 (show execFnma o rm s = _ from rfl) rfl rfl)
  case isel o => exact .inr (.vec3 (show execIsel o s = _ from rfl) rfl rfl)
  case fabs o => exact .inr (.vec1 (show execFabs o s = _ from rfl) rfl rfl)
  case fneg o => exact .inr (.vec1 (show execFneg o s = _ from rfl) rfl rfl)
  case fclass o => exact .inr (.vec1 (show execFclass o s = _ from rfl) rfl rfl)
  case frcp o rm => exact .inr (.vec1 (show execFrcp o rm s = _ from rfl) rfl rfl)
  case frsq o rm => exact .inr (.vec1 (show execFrsq o rm s = _ from rfl) rfl rfl)
  case fsqrt o rm => exact .inr (.vec1 (show execFsqrt o rm s = _ from rfl) rfl rfl)
  case fexp2 o rm => exact .inr (.vec1 (show execFexp2 o rm s = _ from rfl) rfl rfl)
  case flog2 o rm => exact .inr (.vec1 (show execFlog2 o rm s = _ from rfl) rfl rfl)
  case ftanh o rm => exact .inr (.vec1 (show execFtanh o rm s = _ from rfl) rfl rfl)
  case fround o rm => exact .inr (.vec1 (show execFround o rm s = _ from rfl) rfl rfl)
  case iabs o => exact .inr (.int1 (show execIabs o s = _ from rfl) rfl rfl)
  case iclz o => exact .inr (.int1 (show execIclz o s = _ from rfl) rfl rfl)
  case ipopc o => exact .inr (.int1 (show execIpopc o s = _ from rfl) rfl rfl)
  case frsum o => exact .inr (.reduce (show execFrsum o s = _ from rfl) rfl rfl)
  case frmax o => exact .inr (.reduce (show execFrmax o s = _ from rfl) rfl rfl)
  case frmin o => exact .inr (.reduce (show execFrmin o s = _ from rfl) rfl rfl)
  case irsum o => exact .inr (.reduce (show execIrsum o s = _ from rfl) rfl rfl)
  case irmax o uns => exact .inr (.reduce (show execIrmax o uns s = _ from rfl) rfl rfl)
  case irmin o uns => exact .inr (.reduce (show execIrmin o uns s = _ from rfl) rfl rfl)
  case fscan o => exact .inr (.scan (show execFscan o s = _ from rfl) rfl rfl)
  case fscanx o => exact .inr (.scan (show execFscanx o s = _ from rfl) rfl rfl)
  case iscan o => exact .inr (.scan (show execIscan o s = _ from rfl) rfl rfl)
  case iscanx o => exact .inr (.scan (show execIscanx o s = _ from rfl) rfl rfl)
  case bcast o n => exact .inr (.moveLanes (show execBcast o n s = _ from rfl) rfl rfl)
  case rotl o n => exact .inr (.moveLanes (show execRotl o n s = _ from rfl) rfl rfl)
  case mov o => exact .inr (.moveLanes (show execMov o s = _ from rfl) rfl rfl)
  case fcvt o isI tgt r sat => exact .inr (.fcvt o isI tgt r sat s)
  case fsel o c => exact .inr (.of_vput (show execFsel o c s = _ from rfl) rfl rfl fun _ _ => ⟨_, _, _, _, rfl⟩)
  case perm o => exact .inr (.of_vput (show execPerm o s = _ from rfl) rfl rfl fun _ _ => ⟨_, _, _, _, rfl⟩)
  case expand o => exact .inr (.of_vput (show execExpand o s = _ from rfl) rfl rfl fun _ _ => ⟨_, _, _, _, rfl⟩)
  case compressV o => exact .inr (.of_vput (show execCompressV o s = _ from rfl) rfl rfl fun _ _ => ⟨_, _, _, _, rfl⟩)
  case compressB d x y => exact .inr (.of_vput (show execCompressB u d x y s = _ from rfl) rfl rfl fun _ _ => ⟨_, _, _, _, rfl⟩)
  case compressM d k => exact .inr (.sourceless (show execCompressM u d k s = _ from rfl) rfl rfl)
  case laneid d k => exact .inr (.sourceless (show execLaneid u d k s = _ from rfl) rfl rfl)
  case mskto d x k => exact .inr (.sourceless (show execMskto u d x k s = _ from rfl) rfl rfl)
  case mskpopc d x k => exact .inr (.sourceless (show execMskpopc u d x k s = _ from rfl) rfl rfl)
  case fcmp c o => exact .inr (.no_dst (show execFcmp c o s = _ from rfl) rfl rfl)
  case icmp c o => exact .inr (.no_dst (show execIcmp c o s = _ from rfl) rfl rfl)
  case movb d x n => exact .inr (.no_dst (show execMovb u d x n s = _ from rfl) rfl rfl)
  case mskfrom d x k => exact .inr (.no_dst (show execMskfrom u d x k s = _ from rfl) rfl rfl)
  all_goals exact .inl ⟨rfl, rfl⟩

/-- A source can be read now unless it is a port that has nothing to give. -/
theorem State.src_eq_none_iff (s : State) (u : VU) (x : VSrc) (int : Bool) :
    s.src u x int = none ↔ ∃ n, x.port? = some n ∧ s.portVec n.toNat = none := by
  cases x <;> simp [State.src, VSrc.port?]

theorem mapM_src_eq_none_iff (s : State) (u : VU) (l : List (VSrc × Bool)) :
    l.mapM (fun x => s.src u x.1 x.2) = none ↔ ∃ x ∈ l.map (·.1), ∃ n, x.port? = some n ∧ s.portVec n.toNat = none := by
  induction l with
  | nil => simp
  | cons x l ih =>
    simp only [List.mapM_cons, List.map_cons, List.mem_cons, exists_eq_or_imp]
    rw [← s.src_eq_none_iff u x.1 x.2, ← ih]
    cases s.src u x.1 x.2 <;> cases l.mapM (fun x => s.src u x.1 x.2) <;> simp

section
variable {i : Instr} {s : State} {u : VU}

theorem exec_of_unreadable (hu : i.vu? = some u) (h : ∃ x ∈ i.vsrcs, ∃ n, x.port? = some n ∧ s.portVec n.toNat = none) :
    exec i s = .next (s.trap (vuSlot u) 5 0) := by
  obtain ⟨hnone, _⟩ | ⟨l, k, hexec, hsrcs, _⟩ := vForm_of_vu s hu
  · simp [hnone] at h
  · rw [← hsrcs, ← mapM_src_eq_none_iff s u l] at h
    rw [hexec, State.withSrcs, h]
    rfl

variable (hread : ∀ x ∈ i.vsrcs, ∀ n, x.port? = some n → (s.portVec n.toNat).isSome = true)
include hread

/-- Sources that can all be read give their lanes. -/
theorem mapM_src_of_readable {l : List (VSrc × Bool)} (hl : l.map (·.1) = i.vsrcs) : ∃ vs, l.mapM (fun x => s.src u x.1 x.2) = some vs := by
  rw [← Option.ne_none_iff_exists', ne_eq, mapM_src_eq_none_iff, hl]
  rintro ⟨x, hx, n, hn, hnone⟩
  simpa [hnone] using hread x hx n hn

theorem exec_of_unarmed {o : BitVec 2} (hu : i.vu? = some u) (hdst : i.vdst? = some (.push o)) (hopen : (popsOf i.vsrcs).any s.popOpen = false)
    (h : s.unarmed o) : exec i s = .next (s.trap (vuSlot u) 5 0) := by
  obtain ⟨_, hnone⟩ | ⟨l, k, hexec, hsrcs, hk⟩ := vForm_of_vu s hu
  · simp [hnone] at hdst
  · obtain ⟨vs, hvs⟩ := mapM_src_of_readable (u := u) hread hsrcs
    have hsources : s.sources u l = some vs := by simp [State.sources, hvs, hsrcs, hopen]
    obtain ⟨hid, hport⟩ := s.popped_others l
    obtain ⟨t, ht, htraps⟩ := hk o vs (s.popped l) hdst (by unfold State.unarmed; rw [hport]; exact h)
    rw [hexec, State.withSrcs_of_sources k hsources, ht]
    simp [atomic, htraps, portTrap, hid, State.trap]

theorem exec_of_popOpen (hu : i.vu? = some u) (hopen : (popsOf i.vsrcs).any s.popOpen = true) :
    exec i s = .next (s.trap (vuSlot u) 9 0 0 (s.popLink (popsOf i.vsrcs))) := by
  obtain ⟨hnone, _⟩ | ⟨l, k, hexec, hsrcs, _⟩ := vForm_of_vu s hu
  · simp [hnone, popsOf] at hopen
  · obtain ⟨vs, hvs⟩ := mapM_src_of_readable (u := u) hread hsrcs
    rw [hexec, State.withSrcs, hvs]
    simp only [hsrcs, hopen, if_true]
    rfl

end

theorem popsOf_pop_twice (n : BitVec 3) : popsOf [.pop n, .pop n, .peek n] = [n.toNat] := by
  simp [popsOf, List.eraseDups_cons]

/-- Settles O32: a pop moves its port alone; every V-slot form is a `VForm`, whose sources and port are checked before anything changes. -/
theorem portsComplete : Obligations.PortsComplete := by
  refine ⟨fun s u n c x f int hc harmed hdue hpos hbuf => ?_, fun s i u hu => ⟨exec_of_unreadable hu, fun k hdst hread hopen h => ?_, fun hread hopen => ?_⟩⟩
  · have hvec := State.portVec_due hc harmed hdue hpos hbuf
    obtain ⟨l, hl⟩ := State.pop_core hc
    refine ⟨by simp [State.src, hvec], by simp [State.src, hvec], popsOf_pop_twice n, ?_, hl ▸ sameRegs_setPort .., State.pop_mem ..⟩
    exact (getPort_setPort_pend s _ n.toNat n.toNat _ l hl (by omega)).trans (if_pos rfl)
  · exact exec_of_unarmed hread hu hdst hopen h
  · exact exec_of_popOpen hread hu hopen

end Sys2Proof.Machine
end

section
/-! PROOF. Decoding of written-out words, transfers, loops, predicates and control registers of the C slot (09 R216-R227; 11 R247-R256; O3, O8, O9, O10). -/

namespace Sys2Proof.Machine

/-- Settles O3: each word is decoded. -/
theorem decodeWords : Obligations.DecodeWords := by
  unfold Obligations.DecodeWords
  decide +kernel

/-! ### Transfers and loops (11 R247-R253) -/

theorem branchTo_of_le {s : State} {t : Nat} (h : t ≤ s.core.cur.nent) : branchTo t s = .next (s.take t) := if_neg (Nat.not_lt.mpr h)
theorem branchTo_of_lt {s : State} {t : Nat} (h : s.core.cur.nent < t) : branchTo t s = .next (s.trap .c 1 1) := if_pos h

/-- Settles O8: a transfer is `take`, and a register target is checked before it. -/
theorem transfersComplete : Obligations.TransfersComplete := by
  intro s r t
  refine ⟨rfl, rfl, fun h => ?_, fun h => ?_, fun h => ?_, fun h => ?_⟩
  · exact branchTo_of_le h
  · exact branchTo_of_le h
  · exact branchTo_of_lt h
  · exact branchTo_of_lt h

/-- The state in which a loop entry names its ring: ROTE is set, and ROTC begins at 0 (11 R252). -/
def State.withRing (s : State) (ring : BitVec 8) : State :=
  if ring = 0 then s else s.later 0 true (.rot (BitVec.ofNat 64 ((ring.toNat - 1) * 2 ^ 32)))

theorem State.withRing_loops (s : State) (ring : BitVec 8) : (s.withRing ring).core.loops = s.core.loops ∧ (s.withRing ring).core.ent = s.core.ent := by
  unfold State.withRing
  split <;> exact ⟨rfl, rfl⟩

section
variable {s : State} (n : Nat) (e : BitVec 10) (ring : BitVec 8)

theorem loopEntry_full (h : s.core.loops.length = 6) : loopEntry n e ring s = .next (s.trap .c 1 2) := if_pos h

theorem loopEntry_zero (h : s.core.loops.length ≠ 6) :
    loopEntry 0 e ring s = .next (let u := s.withRing ring; { u with core := { u.core with jump := some (e.toNat + 1) } }) := if_neg h

variable {n} in
theorem loopEntry_pos (h : s.core.loops.length ≠ 6) (hn : n ≠ 0) :
    loopEntry n e ring s = .next (let u := s.withRing ring
      { u with core := { u.core with loops := newLevel n s.core.ent e ring :: s.core.loops } }) := by
  obtain ⟨hloops, hent⟩ := s.withRing_loops ring
  rw [← hloops, ← hent]
  exact (if_neg h).trans (if_neg hn)

end

/-- A count fits a level's trip count. -/
theorem newLevel_eq {n : Nat} (hn : n < 2 ^ 32) (ent : Nat) (e : BitVec 10) (ring : BitVec 8) :
    newLevel n ent e ring = { trip := BitVec.ofNat 32 n, iter := 0, start := BitVec.ofNat 10 (ent + 1), stop := e, ring := ring != 0 } := by
  rw [newLevel, min_eq_left (by omega)]

section
variable (lv : Level) (rest : List Level) (e : Nat)

theorem loopNext_inside (h : e ≠ lv.stop.toNat) : loopNext (lv :: rest) e = (e + 1, lv :: rest, false) := if_neg h

/-- ITER advances below the trip count without wrapping. -/
theorem toNat_iter_succ (h : lv.iter.toNat + 1 ≤ lv.trip.toNat) : (lv.iter + 1).toNat = lv.iter.toNat + 1 := by
  have := lv.trip.isLt
  bv_omega

theorem loopNext_again (h : e = lv.stop.toNat) (hit : lv.iter.toNat + 1 < lv.trip.toNat) :
    loopNext (lv :: rest) e = (lv.start.toNat, { lv with iter := lv.iter + 1 } :: rest, lv.ring) :=
  (if_pos h).trans (if_pos (by rw [toNat_iter_succ lv (by omega)]; exact hit))

theorem loopNext_last (h : e = lv.stop.toNat) (hit : lv.iter.toNat + 1 = lv.trip.toNat) : loopNext (lv :: rest) e = (e + 1, rest, lv.ring) :=
  (if_pos h).trans (if_neg (by rw [toNat_iter_succ lv (by omega)]; omega))

end

theorem execBrkLoop_cons {s : State} {lv : Level} {rest : List Level} (t : BitVec 10) (h : s.core.loops = lv :: rest) :
    execBrkLoop t s = .next ((s.setCore { s.core with
      loops := rest
      jump := some (s.core.ent + 1)
      rotAt := if lv.ring then some (lv.iter + 1) else s.core.rotAt }).take t.toNat) := by
  rw [execBrkLoop, h]
theorem execBrkLoop_nil {s : State} (t : BitVec 10) (h : s.core.loops = []) : execBrkLoop t s = .next (s.trap .c 1 3) := by
  rw [execBrkLoop, h]
  rfl

/-- Settles O9: a loop entry and the bookkeeping after an entry, by their cases. -/
theorem loopsComplete : Obligations.LoopsComplete := by
  refine ⟨fun s n r e t ring => ⟨fun hlen hn => ?_, fun hlen hr => ?_, fun hlen hr => ?_, fun lv rest h => ?_, fun hlen => ⟨?_, ?_⟩, fun h => ?_⟩,
    fun lv rest e => ⟨rfl, loopNext_inside lv rest e, loopNext_again lv rest e, loopNext_last lv rest e⟩⟩
  · have hpos : n.toNat ≠ 0 := fun h => hn (BitVec.eq_of_toNat_eq h)
    have hlt : n.toNat < 2 ^ 24 := n.isLt
    have h := loopEntry_pos (s := s) e ring hlen hpos
    rw [newLevel_eq (by omega)] at h
    exact h
  · have hpos : (s.getC r).toNat ≠ 0 := fun h => hr (BitVec.eq_of_toNat_eq h)
    exact loopEntry_pos e ring hlen hpos
  · show loopEntry (s.getC r).toNat e ring s = _
    rw [hr]
    exact loopEntry_zero e ring hlen
  · exact execBrkLoop_cons t h
  · exact loopEntry_full _ e ring hlen
  · exact loopEntry_full _ e ring hlen
  · exact execBrkLoop_nil t h

/-! ### Predicates and control registers (11 R254-R256) -/

/-- A sum with a sign-extended immediate, modulo 2^64. -/
theorem toNat_add_signExtend (a : W64) (k : W32) : ((a + k.signExtend 64).toNat : Int) = (a.toNat + k.toInt) % 2 ^ 64 := by
  have hk : (k.signExtend 64).toInt = k.toInt := BitVec.toInt_signExtend_of_le (by decide)
  have hcond := BitVec.toInt_eq_toNat_cond (k.signExtend 64)
  have hlt := (k.signExtend 64).isLt
  rw [BitVec.toNat_add, ← hk]
  split at hcond <;> omega

theorem toInt_signExtend_64 (k : W32) : (k.signExtend 64).toInt = k.toInt := BitVec.toInt_signExtend_of_le (by decide)

/-- The predicates as one word: bit 0 is p0, which reads as 1. -/
theorem getLsbD_psave (s : State) (j : Nat) :
    ((s.core.p ||| 1).setWidth 64).getLsbD j = (decide (j < 16) && s.getP (BitVec.ofNat 4 j)) := by
  by_cases hj : j < 16
  · have hmod : j % 2 ^ 4 = j := Nat.mod_eq_of_lt hj
    have hzero : (BitVec.ofNat 4 j == 0#4) = decide (j = 0) := by
      rw [beq_eq_decide, decide_eq_decide, ← BitVec.toNat_inj, BitVec.toNat_ofNat, hmod]
      rfl
    have hone : (1#16).getLsbD j = decide (j = 0) := by simp [BitVec.getLsbD_one]
    have h64 : j < 64 := by omega
    unfold State.getP
    simp only [BitVec.getLsbD_setWidth, BitVec.getLsbD_or, BitVec.toNat_ofNat, hmod, hj, h64, decide_true, Bool.true_and, BitVec.ofNat_eq_ofNat,
      hzero, hone, Bool.or_comm]
  · have hj0 : j ≠ 0 := by omega
    simp [hj, hj0, BitVec.getLsbD_of_ge s.core.p j (Nat.le_of_not_lt hj)]

/-- Bits that two words share. -/
theorem and_ne_zero_iff {w : Nat} (x y : BitVec w) : x &&& y ≠ 0 ↔ ∃ j, x.getLsbD j = true ∧ y.getLsbD j = true := by
  constructor
  · intro h
    by_contra hno
    refine h (BitVec.eq_of_getLsbD_eq fun j _ => ?_)
    by_contra hj
    exact hno ⟨j, by simpa using hj⟩
  · rintro ⟨j, hx, hy⟩ h
    have hj := congrArg (·.getLsbD j) h
    simp [hx, hy] at hj

theorem and_eq_zero_iff {w : Nat} (x y : BitVec w) : x &&& y = 0 ↔ ∀ j, ¬(x.getLsbD j = true ∧ y.getLsbD j = true) := by
  rw [← not_exists, ← and_ne_zero_iff, not_not]

/-- Settles O10: each form queues its result, and each condition is the relation that it names. -/
theorem controlResults : Obligations.ControlResults := by
  refine ⟨fun s d r x y a b k c ad => ⟨rfl, rfl, rfl, rfl, rfl, ⟨_, toInt_signExtend_64 k, rfl⟩, rfl, ⟨_, BitVec.toNat_add .., rfl⟩,
    ⟨_, toNat_add_signExtend _ k, rfl⟩, ⟨_, ?csub, rfl⟩, rfl, ⟨_, toInt_signExtend_64 k, rfl⟩, ⟨_, ?_, ?_, rfl⟩, ?pload, rfl, ⟨_, ?frame, rfl⟩,
    ⟨_, BitVec.toNat_ofNat .., rfl⟩, rfl⟩, fun x y => ?conds⟩
  case csub => bv_omega
  · intro j hj
    rw [getLsbD_psave]
    simp [Nat.not_lt.mpr hj]
  · intro j hj
    rw [getLsbD_psave]
    simp [hj]
  case pload =>
    show Host.Outcome.next (s.laterAll _) = _
    rw [State.laterAll, List.foldl_map]
  case frame =>
    rw [toNat_add_signExtend, BitVec.toNat_setWidth_of_le (by decide)]
  case conds =>
    refine ⟨beq_iff_eq, bne_iff_ne, ?_, ?_, ?_, ?_, ?_, ?_, ?_, ?_, bne_iff_ne.trans (and_ne_zero_iff x y), beq_iff_eq.trans (and_eq_zero_iff x y)⟩
    all_goals exact decide_eq_true_iff

end Sys2Proof.Machine
end

section
/-! PROOF. What taking a trap leaves and records; bundles that trap (10 R240; 17 R395-R402; O15, O58). -/

namespace Sys2Proof.Machine

/-! ### One trap of the core in focus -/

/-- The last record of a die's log is the one just appended (17 R403). -/
theorem State.logFault_getLast (s : State) (r : FaultRec) {d : Nat} (h : d < 5) : ((s.logFault d r).pkg.faults[d]).getLast? = some r := by
  unfold State.logFault
  rw [dif_pos h]
  have hdrop : (s.pkg.faults[d] ++ [r]).length - 4096 ≤ (s.pkg.faults[d]).length := by simp
  simp only [Vector.getElem_set_self, List.drop_append_of_le_length hdrop, List.getLast?_append, List.getLast?_singleton, Option.some_or]

theorem State.logFault_ctxs (s : State) (d : Nat) (r : FaultRec) : (s.logFault d r).pkg.ctxs = s.pkg.ctxs := by
  unfold State.logFault
  split <;> rfl

/-- A firmware core's trap: the record is logged and sent, and the routine ends (18 R421). -/
theorem State.takeTrap_fw {s : State} {t : TrapRec} (hw : s.core.id = t.who) (hf : s.isFw = true) :
    s.takeTrap t =
      (let r := s.faultRec t.info 3
       let u := (s.logFault s.die r).fwEvent s.die 1
       (u.setCore { u.core with run := .idle }).sendOut (Out.frame 0x82 0 0 0 0 r.bytes)) := by
  unfold State.takeTrap
  rw [State.focusId_self hw]
  simp only [hf, if_true]

/-- What every trap leaves as it was (10 R240): of the core only whether it runs, and nothing of the tiles, the memory and the other cores. -/
structure Undisturbed (s t : State) : Prop where
  core : ∃ run, t.core = { s.core with run := run }
  clu : t.clu = s.clu
  clus : t.clus = s.clus
  cores : t.cores = s.cores
  mem : t.mem = s.mem

theorem Undisturbed.id_eq {s t : State} (h : Undisturbed s t) : t.core.id = s.core.id := by
  obtain ⟨run, hcore⟩ := h.core
  rw [hcore]

theorem Undisturbed.sameRegs {s t : State} (h : Undisturbed s t) : SameRegs s.core t.core := by
  obtain ⟨run, hcore⟩ := h.core
  rw [hcore]
  exact ⟨rfl, rfl, rfl, rfl, rfl, rfl, rfl, rfl, rfl, rfl, rfl, rfl, rfl, rfl⟩

section
variable {s : State} {t : TrapRec} (hw : s.core.id = t.who)
include hw

/-- The record of a trap of the core in focus. -/
theorem State.takeTrap_record (hd : s.die < 5) : ((s.takeTrap t).pkg.faults[s.die]).getLast? =
    some (s.faultRec t.info (if s.isFw then 3 else dispOf t.info.cls)) := by
  cases hf : s.isFw with
  | true =>
    rw [State.takeTrap_fw hw hf]
    simp only [State.sendOut, State.setCore_pkg, State.fwEvent_pkg, if_true]
    exact State.logFault_getLast _ _ hd
  | false =>
    rw [State.takeTrap_group hw hf]
    simp only [Bool.false_eq_true, if_false]
    split
    · simp only [State.setGang_pkg, State.fwEvent_pkg, State.notifyFault_pkg]
      exact State.logFault_getLast _ _ hd
    · simp only [State.faultCtx, State.mapGangs_pkg, State.fwEvent_pkg, State.notifyFault_pkg]
      exact State.logFault_getLast _ _ hd

theorem State.takeTrap_undisturbed : Undisturbed s (s.takeTrap t) := by
  cases hf : s.isFw with
  | true =>
    rw [State.takeTrap_fw hw hf]
    exact ⟨⟨.idle, by simp [State.sendOut]⟩, by simp [State.sendOut], by simp [State.sendOut], by simp [State.sendOut], by simp [State.sendOut]⟩
  | false =>
    rw [State.takeTrap_group hw hf]
    dsimp only
    split
    · exact ⟨⟨s.core.run, by simp⟩, by simp, by simp, by simp, by simp⟩
    · exact ⟨⟨s.core.run, by simp⟩, by simp, by simp, by simp, by simp⟩

theorem State.takeTrap_fw_idle (hf : s.isFw = true) : (s.takeTrap t).core.run = .idle ∧ (s.takeTrap t).gang = s.gang := by
  rw [State.takeTrap_fw hw hf]
  exact ⟨rfl, by simp [State.sendOut]⟩

theorem State.takeTrap_group_core (hf : s.isFw = false) : (s.takeTrap t).core = s.core := by
  rw [State.takeTrap_group hw hf]
  dsimp only
  split <;> simp

/-- A class that stops the group (17 R397). -/
theorem State.takeTrap_stops (hf : s.isFw = false) (hcls : dispOf t.info.cls = 0) :
    (s.takeTrap t).gang.run = .stopped ∧ (s.takeTrap t).pkg.ctxs = s.pkg.ctxs := by
  rw [State.takeTrap_group hw hf]
  dsimp only
  rw [if_pos hcls]
  exact ⟨rfl, by simp [State.logFault_ctxs]⟩

/-- A class that faults the context stops its gangs (17 R398). -/
theorem State.takeTrap_faults (hf : s.isFw = false) (hcls : dispOf t.info.cls ≠ 0) (halive : s.gang.alive = true) :
    (s.takeTrap t).gang.run = .faulted ∧ ∀ c ∈ (s.takeTrap t).pkg.ctxs, c.id = s.gang.ctx → c.faulted = true := by
  rw [State.takeTrap_group hw hf]
  dsimp only
  rw [if_neg hcls]
  constructor
  · simp [State.faultCtx, halive]
  · intro c hc hid
    simp only [State.faultCtx, State.mapGangs_pkg, State.fwEvent_pkg, State.fwEvent_gang, State.notifyFault_pkg, State.notifyFault_gang,
      State.logFault_gang, updateAll, List.mem_map] at hc
    obtain ⟨x, _, rfl⟩ := hc
    split
    · rfl
    · next hne =>
      rw [if_neg hne] at hid
      exact absurd (beq_iff_eq.mpr hid) hne

end

/-- A trap of the core in focus is taken, and listed among the traps of the step. -/
theorem State.trap_eq (s : State) (sl : Slot) (cls cause addr aux : Nat) :
    let r : TrapRec := { who := s.core.id, info := { cls := cls, cause := cause, slots := slotBit sl, addr := addr, aux := aux } }
    s.trap sl cls cause addr aux = { s.takeTrap r with traps := s.traps ++ [r] } := by
  intro r
  have hid : (s.takeTrap r).core.id = s.core.id := (State.takeTrap_undisturbed rfl).id_eq
  show ({ (s.takeTrap r).focusId s.core.id with traps := s.traps ++ [r] } : State) = _
  rw [State.focusId_self hid]

theorem dispOf_eq_zero_iff (cls : Nat) : dispOf cls = 0 ↔ cls = 17 ∨ cls = 18 := by
  unfold dispOf
  split
  · next h => simp [h]
  · next h => split <;> simp [h]

/-- Settles O15: a software fault is a trap whose class stops the group. -/
theorem softwareFaultsStop : Obligations.SoftwareFaultsStop := by
  intro s k i cls hi hf hd
  have hexec : exec i s = .next (s.trap .c cls 0 0 k.toNat) := by
    rcases hi with ⟨rfl, rfl⟩ | ⟨rfl, rfl⟩ <;> rfl
  have hcls : cls = 17 ∨ cls = 18 := hi.imp And.right And.right
  have hdisp : dispOf cls = 0 := (dispOf_eq_zero_iff cls).mpr hcls
  have hrec := State.takeTrap_record (s := s)
    (t := { who := s.core.id, info := { cls := cls, cause := 0, slots := slotBit .c, addr := 0, aux := k.toNat } }) rfl hd
  obtain ⟨_, hclu, _, hcores, hmem⟩ := State.takeTrap_undisturbed (s := s)
    (t := { who := s.core.id, info := { cls := cls, cause := 0, slots := slotBit .c, addr := 0, aux := k.toNat } }) rfl
  refine ⟨_, hexec, ?_⟩
  rw [State.trap_eq]
  refine ⟨(State.takeTrap_stops rfl hf hdisp).1, State.takeTrap_group_core rfl hf, hclu, hmem, hcores, ⟨_, rfl⟩, _, hd, hrec, ?_⟩
  exact ⟨rfl, rfl, by simp [State.faultRec], rfl, by simp [State.faultRec, hf, hdisp], by simp [State.faultRec, hf], rfl, rfl⟩

/-! ### Bundles that trap (10 R240) -/

/-- The operations after one that traps are not run. -/
theorem issueSlots_trap {before after : List Instr} {i : Instr} {r : TrapRec} {s u v : State} (hbefore : issueSlots before s = .done u)
    (hexec : exec i u = .next v) (htraps : v.traps = u.traps ++ [r]) : issueSlots (before ++ i :: after) s = .trap r := by
  induction before generalizing s with
  | nil =>
    obtain rfl : s = u := by simpa [issueSlots] using hbefore
    simp [issueSlots, hexec, htraps]
  | cons j before ih =>
    rw [issueSlots] at hbefore
    rw [List.cons_append, issueSlots]
    split
    · next t ht =>
      rw [ht] at hbefore
      dsimp only at hbefore ⊢
      split at hbefore
      · cases hbefore
      · next hdrop =>
        split at hbefore
        · cases hbefore
        · next hhold =>
          simp only [hhold]
          exact ih hbefore
    · next hno =>
      refine ih ?_
      split at hbefore
      · next t ht => exact absurd ht (hno t)
      · exact hbefore

/-- Settles O58: one trap is `takeTrap` of the core in focus; a bundle with an operation that traps gives the trap alone. -/
theorem trapsHaveNoEffect : Obligations.TrapsHaveNoEffect := by
  refine ⟨fun s sl cls cause addr aux hd hlo hhi h14 => ?_,
    fun s u e b before after i sl cls cause addr aux he hpre hb hsign hactive hbefore hexec => ?_⟩
  · let r : TrapRec := { who := s.core.id, info := { cls := cls, cause := cause, slots := slotBit sl, addr := addr, aux := aux } }
    have hund : Undisturbed s (s.takeTrap r) := State.takeTrap_undisturbed rfl
    have hrec : ((s.takeTrap r).pkg.faults[s.die]).getLast? = some (s.faultRec r.info (if s.isFw then 3 else dispOf cls)) :=
      State.takeTrap_record rfl hd
    have hdisp : dispOf cls = if cls = 17 ∨ cls = 18 then 0 else 1 := by
      unfold dispOf
      rw [if_neg (show ¬ cls = 19 by omega)]
    obtain ⟨run, hcore⟩ := hund.core
    intro t
    rw [show t = { s.takeTrap r with traps := s.traps ++ [r] } from State.trap_eq ..]
    refine ⟨hund.sameRegs, by simp [hcore], by simp [hcore], by simp [hcore], by simp [hcore], by simp [hcore], by simp [hcore], hund.clu, hund.clus,
      hund.cores, hund.mem, ⟨r, rfl, rfl, rfl, rfl, rfl⟩, ⟨_, hd, hrec, rfl, rfl, rfl, rfl, rfl, rfl, rfl, rfl, rfl, ?_⟩,
      State.takeTrap_fw_idle rfl, State.takeTrap_group_core rfl, fun hf h17 h18 => State.takeTrap_faults rfl hf fun h0 => ?_,
      fun hf hcls => State.takeTrap_stops rfl hf ((dispOf_eq_zero_iff cls).mpr hcls)⟩
    · rw [hdisp]
      simp only [State.faultRec]
      split <;> [rfl; (split <;> rfl)]
    · exact ((dispOf_eq_zero_iff cls).mp h0).elim h17 h18
  · intro x
    have htraps : (u.trap sl cls cause addr aux).traps = u.traps ++ [x] := by rw [State.trap_eq]
    have hissue : s.issueBundle = .trap x := by
      simp only [State.issueBundle, he, hpre, hb, hsign, hactive, issueSlots_trap hbefore hexec htraps]
    exact ⟨hissue, fun r l hr hready => issueAll_cons_of_trap l hr he hready hissue⟩

end Sys2Proof.Machine
end

section
/-! PROOF. Phase control, pushes of packets and system registers of the C slot (11 R257-R259, R264; O11, O12, O16). -/

namespace Sys2Proof.Machine

/-! ### Sign-off (08 R184, R185) -/

/-- Reads of code count its lines and note those in error; they leave the rest as it was. -/
theorem State.foldl_readCode (l : List Half) (s : State) : ∃ p hit,
    l.foldl (fun s h => s.readCode h.seg) s = { s with pkg := p, core := { s.core with codeHit := hit } } := by
  induction l generalizing s with
  | nil => exact ⟨_, _, rfl⟩
  | cons h l ih =>
    obtain ⟨p, hit, hl⟩ := ih (s.readCode h.seg)
    exact ⟨p, hit, hl⟩

/-- What a sign-off with bit `b` leaves: the core has signed, and nothing of the gang, the tiles, the memory and the other cores has changed. -/
theorem State.signOff_spec (s : State) (b : Option Bool) :
    let t := s.signOff b
    t.core.run = .signed ∧ t.core.offTimed = (s.core.run == .timed) ∧ t.core.bit = b ∧
      t.core.due = (s.gang.signHalves s.core.codeBad s.rank s.gang.now).2 ∧ t.core.loops = [] ∧ SameRegs s.core t.core ∧
      t.gang = s.gang ∧ t.mem = s.mem ∧ t.clu = s.clu ∧ t.cores = s.cores := by
  unfold State.signOff
  obtain ⟨p, hit, h⟩ := State.foldl_readCode (s.gang.signHalves s.core.codeBad s.rank s.gang.now).1 s
  dsimp only
  rw [h]
  exact ⟨rfl, rfl, rfl, rfl, rfl, ⟨rfl, rfl, rfl, rfl, rfl, rfl, rfl, rfl, rfl, rfl, rfl, rfl, rfl, rfl⟩, rfl, rfl, rfl, rfl⟩

section
variable {s : State}

theorem State.signCause_idle (hm : s.core.mxu.busy = false) (hl : s.lxBusy = false) : s.signCause = none := by
  simp [State.signCause, hm, hl]
theorem State.signCause_mxu (hm : s.core.mxu.busy = true) : s.signCause = some 8 := if_pos hm
theorem State.signCause_lx (hm : s.core.mxu.busy = false) (hl : s.lxBusy = true) : s.signCause = some 12 := by
  simp [State.signCause, hm, hl]

theorem execSign_fw (hf : s.isFw = true) : execSign s = .next s := if_pos hf
theorem execSign_none (hf : s.isFw = false) (h : s.signCause = none) : execSign s = .next (s.signOff (some s.pidxBit)) := by
  simp [execSign, hf, h]
theorem execSign_some (hf : s.isFw = false) {c : Nat} (h : s.signCause = some c) : execSign s = .next (s.trap .c 1 c) := by
  simp [execSign, hf, h, raise]
theorem execHalt_none (hf : s.isFw = false) (h : s.signCause = none) :
    execHalt s = .next ((s.signOff none).setGang { (s.signOff none).gang with haltReq := true }) := by
  simp [execHalt, hf, h]
theorem execHalt_some (hf : s.isFw = false) {c : Nat} (h : s.signCause = some c) : execHalt s = .next (s.trap .c 1 c) := by
  simp [execHalt, hf, h, raise]
theorem execHalt_fw (hf : s.isFw = true) :
    execHalt s = .next (if (s.fwd s.die).evt = 0 then s.setCore { s.core with run := .halted } else s) := if_pos hf

/-- A trigger asks for a seal where the core's domain takes it (07 R153, R169). -/
theorem execSealreq_asks (h : s.isFw = false ∨ s.dom.sealed = true) : execSealreq s = .next s.requestSeal := by
  unfold execSealreq
  split
  · next hf =>
    have hs : s.dom.sealed = true := by simpa [hf] using h
    rw [State.pressSeal, if_pos hs]
  · rfl

theorem State.requestSeal_none (h : s.dom.st = .none) : s.requestSeal = { s with dom := { s.dom with st := .requested } } := by
  rw [State.requestSeal, h]
theorem State.requestSeal_requested (h : s.dom.st = .requested) : s.requestSeal = s := by
  rw [State.requestSeal, h]
theorem State.requestSeal_again (h : s.dom.st ≠ .none) (h' : s.dom.st ≠ .requested) : s.requestSeal = { s with dom := { s.dom with again := true } } := by
  unfold State.requestSeal
  split
  · next hn => exact absurd hn h
  · next hr => exact absurd hr h'
  · rfl

end

/-- Settles O11: each form by the kind of core, by what is busy, and by the state of the seal. -/
theorem phaseControlCompletes : Obligations.PhaseControlCompletes := by
  intro s arrive asks
  refine ⟨fun hf hm hl => ?sign, fun hf hm hl => ?halt, fun hf => ⟨execSign_fw hf, if_pos hf⟩, fun hf he => ?idle, fun hf he => ?awake,
    fun hf => if_neg (by simp [hf]), fun ha hn => ?none, fun ha hr => ?requested, fun hf hu => ?unsealed, fun ha hn hr => ?again,
    fun hf hm => ⟨execSign_some hf (State.signCause_mxu hm), execHalt_some hf (State.signCause_mxu hm)⟩,
    fun hf hm hl => ⟨execSign_some hf (State.signCause_lx hm hl), execHalt_some hf (State.signCause_lx hm hl)⟩⟩
  case sign => exact ⟨_, execSign_none hf (State.signCause_idle hm hl), s.signOff_spec _⟩
  case halt =>
    obtain ⟨hrun, _, hbit, hdue, _, hregs, hgang, hmem, hclu, _⟩ := s.signOff_spec none
    refine ⟨_, execHalt_none hf (State.signCause_idle hm hl), hrun, hbit, hdue, hregs, ?_, hmem, hclu⟩
    rw [State.setGang_gang, hgang]
  case idle => exact (execHalt_fw hf).trans (congrArg _ (if_pos he))
  case awake => exact (execHalt_fw hf).trans (congrArg _ (if_neg he))
  case none => exact (execSealreq_asks ha).trans (congrArg _ (State.requestSeal_none hn))
  case requested => exact (execSealreq_asks ha).trans (congrArg _ (State.requestSeal_requested hr))
  case unsealed =>
    show execSealreq s = _
    rw [execSealreq, if_pos hf, State.pressSeal, if_neg (by simp [hu])]
  case again => exact (execSealreq_asks ha).trans (congrArg _ (State.requestSeal_again hn hr))

/-! ### `ENQ` (11 R259) -/

/-- The packet of eight registers. -/
def State.enqBytes (s : State) : List Byte := (List.range 8).flatMap fun i => toBytes 8 (s.getA (BitVec.ofNat 5 i)).toNat

theorem length_toBytes : ∀ n x, (toBytes n x).length = n
  | 0, _ => rfl
  | n + 1, x => by rw [toBytes, List.length_cons, length_toBytes n]

theorem ofBytes_append : ∀ l r : List Byte, ofBytes (l ++ r) = ofBytes l + 256 ^ l.length * ofBytes r
  | [], r => by simp [ofBytes]
  | b :: l, r => by
    rw [List.cons_append, ofBytes, ofBytes, ofBytes_append l r, List.length_cons, pow_succ]
    ring

theorem ofBytes_toBytes : ∀ n x, ofBytes (toBytes n x) = x % 256 ^ n
  | 0, x => by simp [toBytes, ofBytes, Nat.mod_one]
  | n + 1, x => by
    have hmod : x % 256 ^ (n + 1) = x % 256 + 256 * (x / 256 % 256 ^ n) := by rw [pow_succ, Nat.mul_comm (256 ^ n), Nat.mod_mul]
    rw [toBytes, ofBytes, ofBytes_toBytes n, BitVec.toNat_ofNat, hmod, Nat.shiftRight_eq_div_pow]

theorem ofBytes_toBytes_word (x : W64) : ofBytes (toBytes 8 x.toNat) = x.toNat := by
  rw [ofBytes_toBytes]
  exact Nat.mod_eq_of_lt x.isLt

theorem ofBytes_word_append (x : W64) (l : List Byte) : ofBytes (toBytes 8 x.toNat ++ l) = x.toNat + 2 ^ 64 * ofBytes l := by
  rw [ofBytes_append, ofBytes_toBytes_word, length_toBytes]
  rfl

/-- Eight bytes of the packet are one register. -/
theorem State.enqBytes_word (s : State) (i : BitVec 5) (hi : i.toNat < 8) : (s.enqBytes.drop (8 * i.toNat)).take 8 = toBytes 8 (s.getA i).toNat := by
  have chunk : ∀ (f : Nat → List Byte) (_ : ∀ k, (f k).length = 8) (n k : Nat), k < n →
      (((List.range n).flatMap f).drop (8 * k)).take 8 = f k := by
    intro f hf n
    induction n with
    | zero => intro k hk; omega
    | succ n ih =>
      intro k hk
      have hlen : ((List.range n).flatMap f).length = 8 * n := by
        rw [List.length_flatMap]
        simp [hf, Nat.mul_comm]
      rw [List.range_succ, List.flatMap_append, List.flatMap_singleton]
      rcases Nat.lt_or_ge k n with h | h
      · rw [List.drop_append_of_le_length (by omega), List.take_append_of_le_length (by rw [List.length_drop]; omega), ih k h]
      · obtain rfl : k = n := by omega
        rw [List.drop_append, hlen, Nat.sub_self, List.drop_of_length_le hlen.le, List.drop_zero, List.nil_append]
        exact List.take_of_length_le (hf k).le
  rw [State.enqBytes, chunk _ (fun _ => length_toBytes 8 _) 8 i.toNat hi, BitVec.ofNat_toNat, BitVec.setWidth_eq]

theorem State.length_enqBytes (s : State) : s.enqBytes.length = 64 := by
  rw [State.enqBytes, List.length_flatMap]
  simp [length_toBytes]

/-- The queue number in the packet: bits 53 to 48 of `a3`. -/
theorem State.enqBytes_queue (s : State) : fieldAt (ofBytes s.enqBytes) 240 6 = BitVec.ofNat 6 (bits (s.getA 3).toNat 53 48) := by
  have hsplit : s.enqBytes = toBytes 8 (s.getA 0).toNat ++ (toBytes 8 (s.getA 1).toNat ++ (toBytes 8 (s.getA 2).toNat ++ (toBytes 8 (s.getA 3).toNat ++
      (toBytes 8 (s.getA 4).toNat ++ (toBytes 8 (s.getA 5).toNat ++ (toBytes 8 (s.getA 6).toNat ++ (toBytes 8 (s.getA 7).toNat ++ []))))))) := rfl
  rw [hsplit, ofBytes_word_append, ofBytes_word_append, ofBytes_word_append, ofBytes_word_append]
  generalize ofBytes _ = r
  have h0 := (s.getA 0).isLt
  have h1 := (s.getA 1).isLt
  have h2 := (s.getA 2).isLt
  have h3 := (s.getA 3).isLt
  generalize (s.getA 0).toNat = a0 at *
  generalize (s.getA 1).toNat = a1 at *
  generalize (s.getA 2).toNat = a2 at *
  generalize (s.getA 3).toNat = a3 at *
  unfold fieldAt bits
  apply BitVec.eq_of_toNat_eq
  rw [BitVec.toNat_ofNat, BitVec.toNat_ofNat, Nat.shiftRight_eq_div_pow]
  omega

/-- What a packet waits for: accesses with a write not everywhere yet, with an operation that writes to come, or of a command not over (06 R132). -/
theorem mem_writers {m : MemSys} {who : CoreId} {a : Access} (ha : a ∈ m.accs) (hwho : a.who = .core who)
    (h : (∃ e ∈ m.wq ++ m.wlog, e.acc = a.id) ∨ (∃ o ∈ m.ops, o.acc = a.id ∧ o.op ≠ 0x08 ∧ o.op ≠ 0x15) ∨
      (a.done = false ∧ ∃ k ∈ m.cmds, k.acc = a.id)) : a.id ∈ m.writers who := by
  refine List.mem_map.mpr ⟨a, List.mem_filter.mpr ⟨ha, ?_⟩, rfl⟩
  simp only [hwho, beq_self_eq_true, Bool.true_and, Bool.or_eq_true, List.any_eq_true, Bool.and_eq_true, beq_iff_eq, bne_iff_ne, ne_eq,
    Bool.not_eq_true']
  rcases h with ⟨e, he, hacc⟩ | ⟨o, ho, hacc, h8, h15⟩ | ⟨hdone, k, hk, hacc⟩
  · rcases List.mem_append.mp he with he | he
    · exact .inl (.inl (.inl ⟨e, he, hacc⟩))
    · exact .inl (.inl (.inr ⟨e, he, hacc⟩))
  · exact .inl (.inr ⟨o, ho, ⟨hacc, h8⟩, h15⟩)
  · exact .inr ⟨hdone, k, hk, hacc⟩

/-- The context of a packet: the gang's, or on a firmware core that of the queue it names. -/
def State.enqCtx (s : State) : BitVec 16 :=
  if s.isFw then (rget s.disp.queues (BitVec.ofNat 6 (bits (s.getA 3).toNat 53 48))).ctx else s.gang.ctx

/-- The packets of the core in focus in the intake. -/
def State.mine (s : State) : Nat := (s.disp.intake.filter fun r => r.from_ == some s.core.id).length

section
variable {s : State} {c : Ctx} (d : BitVec 4) (hc : s.ctxOf s.enqCtx = some c)
include hc

theorem execEnq_eq :
    execEnq d s =
      (let ok := decide (s.mine < 4) && !c.torn
       let r : LRec := { bytes := s.enqBytes, queue := s.gang.queue, ctx := s.enqCtx, from_ := some s.core.id, preds := s.mem.writers s.core.id, node := none }
       let t : State := if ok then { s with disp := { s.disp with intake := s.disp.intake ++ [r] } } else s
       .next (t.later 63 true (.p d ok))) := by
  have hctx : (if s.isFw then (rget s.disp.queues (fieldAt (ofBytes s.enqBytes) 240 6)).ctx else s.gang.ctx) = s.enqCtx := by
    rw [s.enqBytes_queue]
    rfl
  unfold execEnq
  simp only [show (List.range 8).flatMap (fun i => toBytes 8 (s.getA (BitVec.ofNat 5 i)).toNat) = s.enqBytes from rfl, hctx, hc]
  rfl

end

/-- Settles O12: the packet is accepted or refused as `execEnq_eq` says. -/
theorem enqCompletes : Obligations.EnqCompletes := by
  intro s d c ctx hc mine
  have heq : exec (.enq d) s = _ := execEnq_eq d hc
  constructor
  · intro hmine htorn
    have hok : (decide (s.mine < 4) && !c.torn) = true := by simp [htorn, show s.mine < 4 from hmine]
    rw [hok] at heq
    refine ⟨_, _, heq, rfl, rfl, rfl, s.length_enqBytes, fun i hi => ?_, fun a ha hwho h => mem_writers ha hwho h⟩
    rw [s.enqBytes_word i hi, ofBytes_toBytes_word]
  · intro h
    have hok : (decide (s.mine < 4) && !c.torn) = false := by
      rcases h with h | h
      · simp [Nat.not_lt.mpr (show 4 ≤ s.mine from h)]
      · simp [h]
    rw [hok] at heq
    exact heq

/-! ### System registers (11 R264; 10 R245, R246) -/

theorem State.privBad_iff (s : State) (r : BitVec 10) : s.privBad r = true ↔ 0x200 ≤ r.toNat ∧ s.gang.code.priv = false := by
  simp [State.privBad]

/-- Flags added to a word keep those it has. -/
theorem or_and_eq_of_and_eq {w : Nat} {x f : BitVec w} (b : BitVec w) (h : x &&& f = f) : (x ||| b) &&& f = f := by
  refine BitVec.eq_of_getLsbD_eq fun j _ => ?_
  have hj := congrArg (·.getLsbD j) h
  simp only [BitVec.getLsbD_and, BitVec.getLsbD_or] at hj ⊢
  rw [Bool.and_or_distrib_right, hj]
  cases f.getLsbD j <;> simp

/-- One flag of AFLAGS as it is read while it may still be set: a free choice if it is not. -/
def flagStep (x : W64 × State) (i : Nat) : W64 × State :=
  (if Config.freeBool x.2.draw then x.1 ||| BitVec.ofNat 64 (2 ^ i) else x.1, { x.2 with draw := x.2.draw + 1 })

theorem State.flagsRead_eq (s : State) : s.flagsRead = (List.range 7).foldl flagStep (s.core.aflags, s) := rfl

/-- What holds of the flags read so far: the flags of `s` stand, no bit above the seventh does, and the free counter alone has moved. -/
def FlagsSoFar (s : State) (x : W64 × State) : Prop := (∃ n, x.2 = { s with draw := n }) ∧ x.1 &&& s.core.aflags = s.core.aflags ∧ x.1.toNat < 2 ^ 7

theorem FlagsSoFar.step {s : State} {x : W64 × State} (h : FlagsSoFar s x) {i : Nat} (hi : i < 7) : FlagsSoFar s (flagStep x i) := by
  obtain ⟨⟨n, hn⟩, hand, hlt⟩ := h
  have hpow : 2 ^ i < 2 ^ 7 := Nat.pow_lt_pow_right (by decide) hi
  refine ⟨⟨_, by rw [flagStep, hn]⟩, ?_, ?_⟩
  · unfold flagStep
    split
    · exact or_and_eq_of_and_eq _ hand
    · exact hand
  · unfold flagStep
    split
    · rw [BitVec.toNat_or, BitVec.toNat_ofNat]
      exact Nat.or_lt_two_pow hlt ((Nat.mod_le _ _).trans_lt hpow)
    · exact hlt

theorem FlagsSoFar.foldl {s : State} : ∀ (l : List Nat) (x : W64 × State), (∀ i ∈ l, i < 7) → FlagsSoFar s x → FlagsSoFar s (l.foldl flagStep x)
  | [], _, _, h => h
  | i :: l, _, hl, h => FlagsSoFar.foldl l _ (fun k hk => hl k (List.mem_cons_of_mem _ hk)) (h.step (hl i List.mem_cons_self))

theorem State.flagsRead_spec (s : State) (h : s.core.aflags.toNat < 2 ^ 7) : FlagsSoFar s s.flagsRead := by
  rw [State.flagsRead_eq]
  exact FlagsSoFar.foldl _ _ (fun i hi => List.mem_range.mp hi) ⟨⟨s.draw, rfl⟩, BitVec.and_self, h⟩

section
variable {s : State} (d : BitVec 4)

theorem execSysrd_priv {r : BitVec 10} (h : s.privBad r = true) : execSysrd d r s = .next (s.trap .c 16 0) := if_pos h

theorem execSysrd_flags (h : s.core.mxu.flagsPending = true) :
    execSysrd d 0 s = .next (s.flagsRead.2.later 1 true (.c d s.flagsRead.1)) := by
  have hpriv : s.privBad 0 = false := by simp [State.privBad]
  rw [execSysrd, if_neg (Bool.eq_false_iff.mp hpriv), if_pos ⟨rfl, h⟩]

theorem execSysrd_read {r : BitVec 10} (hp : s.privBad r = false) (hf : r ≠ 0 ∨ s.core.mxu.flagsPending = false) :
    execSysrd d r s = (let t := if r = 0x203 ∨ r = 0x202 then s.advanceTime else s; .next (t.later 1 true (.c d (t.sysRead r.toNat)))) := by
  have hno : ¬ (r = 0 ∧ s.core.mxu.flagsPending = true) := fun ⟨h0, hpend⟩ => hf.elim (absurd h0) (fun h => by simp [h] at hpend)
  rw [execSysrd, if_neg (by simp [hp]), if_neg hno]

end

section
variable {s : State} {r : BitVec 10} (c : BitVec 4) (hp : s.privBad r = false)
include hp

theorem execSyswr_held (hf : s.isFw = true) (hr : r = 0x223) (hh : s.fwHeld ((s.getC c).setWidth 6) = true) :
    execSyswr r c s = .next s.holdBundle := by
  rw [execSyswr, if_neg (by simp [hp]), if_pos (by simp [hf, hr, hh])]

/-- A write that is not held queues the action of its number, if it has one. -/
theorem execSyswr_act (hh : s.isFw = true → r = 0x223 → s.fwHeld ((s.getC c).setWidth 6) = false) :
    execSyswr r c s = .next (match sysAct r.toNat (s.getC c) with | some (dt, a) => s.later dt true a | none => s) := by
  have hno : ¬ (s.isFw && r == 0x223 && s.fwHeld ((s.getC c).setWidth 6)) = true := by
    simp only [Bool.and_eq_true, beq_iff_eq, not_and, Bool.not_eq_true]
    exact fun ⟨hf, hr⟩ => hh hf hr
  rw [execSyswr, if_neg (by simp [hp]), if_neg hno]
  cases sysAct r.toNat (s.getC c) <;> rfl

/-- As `execSyswr_act`, for a number that is not of the firmware Sconce port. -/
theorem execSyswr_low (hr : r.toNat < 0x200) :
    execSyswr r c s = .next (match sysAct r.toNat (s.getC c) with | some (dt, a) => s.later dt true a | none => s) :=
  execSyswr_act c hp fun _ h => absurd (h ▸ hr) (by decide)

end

section
variable {r : Nat} (v : W64)

theorem sysAct_fw (h : 0x200 ≤ r) : sysAct r v = some (1, .fwReg (BitVec.ofNat 10 r) v) := if_pos h
theorem sysAct_fb (h : 0x020 ≤ r) (h' : r < 0x040) : sysAct r v = some (1, .fbSet (BitVec.ofNat 5 (r - 0x020)) v) := by
  rw [sysAct, if_neg (by omega), if_pos ⟨h, h'⟩]
theorem sysAct_stage (h : 0x050 ≤ r) (h' : r < 0x08C) :
    sysAct r v = some (1, .stageSys (BitVec.ofNat 4 ((r - 0x050) / 5)) (BitVec.ofNat 3 ((r - 0x050) % 5)) v) := by
  rw [sysAct, if_neg (by omega), if_neg (by omega), if_pos ⟨h, h'⟩]
theorem sysAct_other (h : r < 0x200) (hfb : ¬(0x020 ≤ r ∧ r < 0x040)) (hst : ¬(0x050 ≤ r ∧ r < 0x08C)) (h0 : r ≠ 0) (h9 : r ≠ 9) : sysAct r v = none := by
  rw [sysAct, if_neg (by omega), if_neg hfb, if_neg hst, if_neg h0, if_neg h9]

end

/-- Settles O16: a read or write that is allowed, by its number. -/
theorem systemRegistersComplete : Obligations.SystemRegistersComplete := by
  refine ⟨fun s d r => ⟨fun hp h202 h203 hf => ?read, fun hpend hlt => ?flags, fun hp => ?time, fun hp => ?timer, execSysrd_priv d, s.privBad_iff r⟩,
    fun s r c => ⟨fun hp => if_pos hp, fun hp => ⟨fun hr => ?clear, fun hr => ?rot, fun hlo hhi => ?fb, fun hlo hhi => ?stage, fun hlo hh => ?fw,
      fun hf hr hh => execSyswr_held c hp hf hr hh, fun h0 h9 hfb hst hlt => ?other⟩⟩⟩
  case read => exact (execSysrd_read d hp hf).trans (by rw [if_neg (not_or.mpr ⟨h203, h202⟩)])
  case flags =>
    obtain ⟨⟨n, hn⟩, hand, hlt'⟩ := s.flagsRead_spec hlt
    exact ⟨_, n, (execSysrd_flags d hpend).trans (by rw [hn]), hand, hlt'⟩
  case time => exact ⟨s.advanceTime, execSysrd_read d hp (.inl (by decide)), rfl, rfl, rfl⟩
  case timer => exact ⟨s.advanceTime, execSysrd_read d hp (.inl (by decide)), rfl, rfl, rfl⟩
  case clear => subst hr; exact execSyswr_low c hp (by decide)
  case rot => subst hr; exact execSyswr_low c hp (by decide)
  case fb => exact (execSyswr_low c hp (by omega)).trans (by rw [sysAct_fb _ hlo hhi])
  case stage => exact (execSyswr_low c hp (by omega)).trans (by rw [sysAct_stage _ hlo hhi])
  case fw =>
    refine (execSyswr_act c hp hh).trans ?_
    rw [sysAct_fw _ hlo, BitVec.ofNat_toNat, BitVec.setWidth_eq]
  case other => exact (execSyswr_low c hp hlt).trans (by rw [sysAct_other _ hlt hfb hst (fun h => h0 (BitVec.eq_of_toNat_eq h)) (fun h => h9 (BitVec.eq_of_toNat_eq h))])

end Sys2Proof.Machine
end

section
/-! PROOF. Scalar arithmetic and compares of the A slot (11 R265-R268; O17, O18). -/

namespace Sys2Proof.Machine

/-! ### Words and integers -/

theorem toInt_ofInt_64 {k : Int} (h : -2 ^ 63 ≤ k) (h' : k < 2 ^ 63) : (BitVec.ofInt 64 k).toInt = k := by
  rw [BitVec.toInt_ofInt]
  exact Int.bmod_eq_of_le (by omega) (by omega)

/-- The high half of an unsigned product. -/
theorem mulHigh_unsigned (x y : W64) : (mulHigh x y true).toNat = x.toNat * y.toNat / 2 ^ 64 := by
  have h : x.toNat * y.toNat < 2 ^ 64 * 2 ^ 64 := Nat.mul_lt_mul'' x.isLt y.isLt
  rw [mulHigh, if_pos rfl, BitVec.toNat_ofNat, Nat.mod_eq_of_lt (Nat.div_lt_of_lt_mul h)]

/-- The high half of a signed product. -/
theorem mulHigh_signed (x y : W64) : (mulHigh x y false).toInt = x.toInt * y.toInt / 2 ^ 64 := by
  have hx : x.toInt < 2 ^ 63 := x.toInt_lt
  have hx' : -2 ^ 63 ≤ x.toInt := x.le_toInt
  have hy : y.toInt < 2 ^ 63 := y.toInt_lt
  have hy' : -2 ^ 63 ≤ y.toInt := y.le_toInt
  have h1 : x.toInt * y.toInt ≤ 2 ^ 126 := by nlinarith
  have h2 : -2 ^ 126 ≤ x.toInt * y.toInt := by nlinarith
  show (BitVec.ofInt 64 (x.toInt * y.toInt / 2 ^ 64)).toInt = _
  rw [toInt_ofInt_64] <;> omega

/-- The lesser and the greater of two words, unsigned or signed. -/
theorem below_min (u : Bool) (x y : W64) :
    let v := if below u y x then y else x
    if u then v.toNat = min x.toNat y.toNat else v.toInt = min x.toInt y.toInt := by
  cases u with
  | true =>
    show (if decide (y.toNat < x.toNat) then y else x).toNat = _
    by_cases h : y.toNat < x.toNat
    · simp [h, min_eq_right h.le]
    · simp [h, min_eq_left (Nat.le_of_not_lt h)]
  | false =>
    show (if decide (y.toInt < x.toInt) then y else x).toInt = _
    by_cases h : y.toInt < x.toInt
    · simp [h, min_eq_right h.le]
    · simp [h, min_eq_left (le_of_not_gt h)]

theorem below_max (u : Bool) (x y : W64) :
    let v := if below u x y then y else x
    if u then v.toNat = max x.toNat y.toNat else v.toInt = max x.toInt y.toInt := by
  cases u with
  | true =>
    show (if decide (x.toNat < y.toNat) then y else x).toNat = _
    by_cases h : x.toNat < y.toNat
    · simp [h, max_eq_right h.le]
    · simp [h, max_eq_left (Nat.le_of_not_lt h)]
  | false =>
    show (if decide (x.toInt < y.toInt) then y else x).toInt = _
    by_cases h : x.toInt < y.toInt
    · simp [h, max_eq_right h.le]
    · simp [h, max_eq_left (le_of_not_gt h)]

theorem toNat_shl (x : W64) (n : Nat) : (x <<< n).toNat = x.toNat * 2 ^ n % 2 ^ 64 := by rw [BitVec.toNat_shiftLeft, Nat.shiftLeft_eq]
theorem toNat_shr (x : W64) (n : Nat) : (x >>> n).toNat = x.toNat / 2 ^ n := by rw [BitVec.toNat_ushiftRight, Nat.shiftRight_eq_div_pow]
theorem toInt_sar (x : W64) (n : Nat) : (x.sshiftRight n).toInt = x.toInt / 2 ^ n := by
  rw [BitVec.toInt_sshiftRight, Int.shiftRight_eq_div_pow]
  rfl

/-! ### Immediates -/

theorem imm12_getLsbD (k : BitVec 12) (j : Nat) : (imm12 k).getLsbD j = (decide (j < 64) && k.getLsbD (min j 11)) := by
  rw [imm12, BitVec.getLsbD_signExtend]
  congr 1
  split
  · next h => rw [min_eq_left (by omega)]
  · next h => rw [min_eq_right (by omega), BitVec.msb_eq_getLsbD_last]

theorem toInt_imm12 (k : BitVec 12) : (imm12 k).toInt = k.toInt := BitVec.toInt_signExtend_of_le (by decide)

/-- A sum with a word read as signed, modulo 2^64. -/
theorem toNat_add_of_toInt (a v : W64) : ((a + v).toNat : Int) = (a.toNat + v.toInt) % 2 ^ 64 := by
  have hcond := BitVec.toInt_eq_toNat_cond v
  have hlt := v.isLt
  rw [BitVec.toNat_add]
  split at hcond <;> omega

/-! ### Bit fields -/

theorem signExt_bounds {v w : Nat} (hw : 0 < w) (hv : v < 2 ^ w) : -2 ^ (w - 1) ≤ signExt v w ∧ signExt v w < 2 ^ (w - 1) := by
  obtain ⟨k, rfl⟩ : ∃ k, w = k + 1 := ⟨w - 1, by omega⟩
  have hpow : 2 ^ (k + 1) = 2 * 2 ^ k := by ring
  have hpowI : (2 : Int) ^ (k + 1) = 2 * 2 ^ k := by ring
  have hcast : ((2 ^ k : Nat) : Int) = 2 ^ k := by push_cast; rfl
  unfold signExt
  simp only [Nat.add_sub_cancel, Nat.shiftRight_eq_div_pow, Nat.mod_eq_of_lt hv, hpowI]
  rw [hpow] at hv
  rw [← hcast]
  generalize 2 ^ k = p at *
  by_cases h : v < p
  · rw [Nat.div_eq_of_lt h, if_neg (by decide)]
    omega
  · rw [show v / p = 1 from Nat.div_eq_of_lt_le (by omega) (by omega), if_pos (by decide)]
    omega

theorem bitField_unsigned (x : W64) (lo : Nat) {w : Nat} (hw : w ≤ 64) : (bitField false x lo w).toNat = x.toNat / 2 ^ lo % 2 ^ w := by
  have hlt : x.toNat / 2 ^ lo % 2 ^ w < 2 ^ 64 := (Nat.mod_lt _ (Nat.two_pow_pos w)).trans_le (Nat.pow_le_pow_right (by decide) hw)
  show (BitVec.ofNat 64 (x.toNat / 2 ^ lo % 2 ^ w)).toNat = _
  rw [BitVec.toNat_ofNat, Nat.mod_eq_of_lt hlt]

theorem bitField_signed (x : W64) (lo : Nat) {w : Nat} (hw0 : 0 < w) (hw : w ≤ 64) :
    (bitField true x lo w).toInt = signExt (x.toNat / 2 ^ lo % 2 ^ w) w := by
  obtain ⟨hlo, hhi⟩ := signExt_bounds hw0 (Nat.mod_lt (x.toNat / 2 ^ lo) (Nat.two_pow_pos w))
  have hpow : (2 : Int) ^ (w - 1) ≤ 2 ^ 63 := pow_le_pow_right₀ (by decide) (by omega)
  show (BitVec.ofInt 64 (signExt (x.toNat / 2 ^ lo % 2 ^ w) w)).toInt = _
  exact toInt_ofInt_64 (by omega) (by omega)

theorem bitInsert_getLsbD (old x : W64) (lo w : Nat) {j : Nat} (hj : j < 64) :
    (bitInsert old x lo w).getLsbD j = if lo ≤ j ∧ j < lo + w then x.getLsbD (j - lo) else old.getLsbD j := by
  have hmask : (BitVec.ofNat 64 ((2 ^ w - 1) * 2 ^ lo)).getLsbD j = decide (lo ≤ j ∧ j < lo + w) := by
    rw [BitVec.getLsbD_ofNat, Nat.testBit_mul_two_pow, Nat.testBit_two_pow_sub_one]
    by_cases h : lo ≤ j
    · simp [hj, h, show j - lo < w ↔ j < lo + w by omega]
    · simp [h]
  unfold bitInsert
  simp only [BitVec.getLsbD_or, BitVec.getLsbD_and, BitVec.getLsbD_not, hmask, hj, decide_true, Bool.true_and]
  by_cases h : lo ≤ j ∧ j < lo + w
  · have hw : j - lo < w := by omega
    rw [BitVec.getLsbD_ofNat, Nat.testBit_mul_two_pow, Nat.testBit_mod_two_pow]
    simp [h, hj, hw, BitVec.getLsbD]
  · simp [h]

/-- Settles O17: each result is that of the integers, field by field. -/
theorem scalarArithmetic : Obligations.ScalarArithmetic := by
  refine ⟨fun s d x y u => ?_, fun s d x k n j31 lo w1 => ?_⟩
  · refine ⟨⟨_, BitVec.toNat_add .., rfl⟩, ⟨_, ?sub, rfl⟩, ⟨_, BitVec.toNat_mul .., rfl⟩, ⟨_, mulHigh_unsigned .., rfl⟩, ⟨_, mulHigh_signed .., rfl⟩,
      ⟨_, toNat_shl .., rfl⟩, ⟨_, toNat_shr .., rfl⟩, ⟨_, toInt_sar .., rfl⟩, ⟨_, fun j => BitVec.getLsbD_and, rfl⟩, ⟨_, fun j => BitVec.getLsbD_or, rfl⟩,
      ⟨_, fun j => BitVec.getLsbD_xor, rfl⟩, ⟨_, below_min .., rfl⟩, ⟨_, below_max .., rfl⟩⟩
    case sub => bv_omega
  · have hw1 : w1.toNat < 64 := w1.isLt
    refine ⟨⟨_, ?addi, rfl⟩, ⟨_, fun j => ?andi, rfl⟩, ⟨_, fun j => ?ori, rfl⟩, ⟨_, fun j => ?xori, rfl⟩, ⟨_, toNat_shl .., rfl⟩, ⟨_, toNat_shr .., rfl⟩,
      ⟨_, toInt_sar .., rfl⟩, ⟨_, BitVec.toInt_signExtend_of_le (by decide), rfl⟩, ⟨_, BitVec.toNat_ofNat .., rfl⟩, ⟨_, ?clz, rfl⟩, ⟨_, ?popc, rfl⟩,
      ⟨_, bitField_unsigned _ _ hw1, rfl⟩, ⟨_, bitField_signed _ _ (Nat.succ_pos _) hw1, rfl⟩, ⟨_, fun j hj => bitInsert_getLsbD _ _ _ _ hj, rfl⟩⟩
    case addi => exact (toNat_add_of_toInt _ _).trans (by rw [toInt_imm12])
    case andi => rw [BitVec.getLsbD_and, imm12_getLsbD]
    case ori => rw [BitVec.getLsbD_or, imm12_getLsbD]
    case xori => rw [BitVec.getLsbD_xor, imm12_getLsbD]
    case clz =>
      obtain ⟨hlt, hge⟩ := leadZeros_spec (s.getA x)
      have hle := leadZeros_le (s.getA x)
      rw [BitVec.toNat_ofNat, Nat.mod_eq_of_lt (show leadZeros (s.getA x) < 2 ^ 64 by omega)]
      exact ⟨hle, hlt, hge⟩
    case popc =>
      have hle := popCount_le (s.getA x)
      beta_reduce
      rw [BitVec.toNat_ofNat, Nat.mod_eq_of_lt (show popCount (s.getA x) < 2 ^ 64 by omega), popCount_eq]

/-- Settles O18: a compare queues its predicate and, where it names a register, the register. -/
theorem scalarCompares : Obligations.ScalarCompares := by
  intro s c p d x y k
  exact ⟨⟨rfl, rfl⟩, ⟨imm12 k, toInt_imm12 k, rfl, rfl⟩, rfl⟩

end Sys2Proof.Machine
end

section
/-! PROOF. Tile scalars, generators, tile allocation and copies of the A slot (11 R269, R271-R273; O19, O21). -/

namespace Sys2Proof.Machine

/-! ### Tile scalars (11 R269) -/

section
variable {s : State} {t : BitVec 12} {k : Nat} {c : Cap}

theorem State.elemCheck_error {cls : Nat} (h : s.tileCheck t.toNat (some k) = .error cls) (wr : Bool) : s.elemCheck t k wr = .error (cls, 0) := by
  rw [State.elemCheck, h]

section
variable (h : s.tileCheck t.toNat (some k) = .ok c)
include h

/-- A tile whose format the form cannot use. -/
theorem State.elemCheck_format (wr : Bool) (hf : s.fmtOk c.ent.fmt = false ∨ wr = true ∧ isBlock c.ent.fmt = true) :
    s.elemCheck t k wr = .error (8, 0) := by
  rw [State.elemCheck, h]
  exact if_pos (by rcases hf with hf | ⟨hw, hb⟩ <;> simp [*])

/-- A tile that passes the table and format checks is left to the ranges. -/
theorem State.elemCheck_range (wr : Bool) (hf : s.fmtOk c.ent.fmt = true) (hb : wr = true → isBlock c.ent.fmt = false) :
    s.elemCheck t k wr = match s.rangeTrap t.toNat (if wr then [c.ent.wordOf k] else c.ent.wordsOf k) wr with
      | some cause => .error (9, cause)
      | none => .ok c := by
  rw [State.elemCheck, h]
  refine if_neg ?_
  cases wr with
  | false => simp [hf]
  | true => simp [hf, hb rfl]

theorem State.elemLink_range (wr : Bool) : s.elemLink t k wr 9 = s.rangeLink t.toNat (if wr then [c.ent.wordOf k] else c.ent.wordsOf k) wr := by
  rw [State.elemLink, h]
  rfl

theorem State.elemLink_format (wr : Bool) : s.elemLink t k wr 8 = 0 := by
  rw [State.elemLink, h]
  rfl

end

theorem State.elemLink_error {cls : Nat} (h : s.tileCheck t.toNat (some k) = .error cls) (wr : Bool) (n : Nat) : s.elemLink t k wr n = 0 := by
  rw [State.elemLink, h]

end

section
variable {s : State} (r : BitVec 5) {t : BitVec 12} {i : BitVec 5} {off : BitVec 14}

/-- A tile scalar whose check fails takes the fault that it names. -/
theorem exec_ldt_error {cls cause : Nat} (h : s.elemCheck t (s.elemOff i off) false = .error (cls, cause)) :
    exec (.ldt r t i off) s = .next (s.trap .a cls cause (tileAddr cls t) (s.elemLink t (s.elemOff i off) false cls)) := by
  show execLdt r t i off s = _
  simp only [execLdt, h]
  rfl

theorem exec_stt_error {cls cause : Nat} (h : s.elemCheck t (s.elemOff i off) true = .error (cls, cause)) :
    exec (.stt r t i off) s = .next (s.trap .a cls cause (tileAddr cls t) (s.elemLink t (s.elemOff i off) true cls)) := by
  show execStt r t i off s = _
  simp only [execStt, h]
  rfl

theorem exec_ldt_ok {c : Cap} (h : s.elemCheck t (s.elemOff i off) false = .ok c) :
    exec (.ldt r t i off) s = (let dt := if c.ent.lvl then 2 else 1
      .next ((s.later dt true (.sampleLdt c (s.elemOff i off) r s.gang.now)).charge dt false c (c.ent.wordOf (s.elemOff i off)))) := by
  show execLdt r t i off s = _
  simp only [execLdt, h]

theorem exec_stt_ok {c : Cap} (h : s.elemCheck t (s.elemOff i off) true = .ok c) :
    exec (.stt r t i off) s = (let k := s.elemOff i off
      let dt := if c.ent.lvl then 10 else 7
      let code := encodeLane c.ent.fmt .rne (k / c.ent.n0) (k % c.ent.n0) false ((s.getA r).setWidth 32)
      .next (((s.later dt true (.tile c [elemUpd c.ent k code.1])).flagLater dt code.2).charge dt true c (c.ent.wordOf k))) := by
  show execStt r t i off s = _
  simp only [execStt, h]
  rfl

end

/-- Settles O19: the checks in their order, then the sample or the write with its claim. -/
theorem tileScalarsComplete : Obligations.TileScalarsComplete := by
  intro s r t i off k
  refine ⟨fun c hc hf hr => ⟨_, exec_ldt_ok r ?ldt, rfl⟩, fun c hc hf hb hr => ⟨_, exec_stt_ok r ?stt, rfl⟩, fun cls h => ⟨?ldtErr, ?sttErr⟩,
    fun c hc => ⟨fun hf => ⟨?ldtFmt, ?sttFmt⟩, fun hb => ?sttBlock, fun cause hf hr => ?ldtRange, fun cause hf hb hr => ?sttRange⟩⟩
  case ldt =>
    rw [State.elemCheck_range hc false hf (fun h => by cases h)]
    rw [if_neg (by decide), hr]
  case stt =>
    rw [State.elemCheck_range hc true hf (fun _ => hb)]
    rw [if_pos rfl, hr]
  case ldtErr => rw [exec_ldt_error r (State.elemCheck_error h false), State.elemLink_error h]; rfl
  case sttErr => rw [exec_stt_error r (State.elemCheck_error h true), State.elemLink_error h]; rfl
  case ldtFmt => rw [exec_ldt_error r (State.elemCheck_format hc false (.inl hf)), State.elemLink_format hc]; rfl
  case sttFmt => rw [exec_stt_error r (State.elemCheck_format hc true (.inl hf)), State.elemLink_format hc]; rfl
  case sttBlock => rw [exec_stt_error r (State.elemCheck_format hc true (.inr ⟨rfl, hb⟩)), State.elemLink_format hc]; rfl
  case ldtRange =>
    have h := State.elemCheck_range hc false hf (fun h => by cases h)
    rw [if_neg (by decide), show s.rangeTrap t.toNat (c.ent.wordsOf k) false = some cause from hr] at h
    rw [exec_ldt_error r h, State.elemLink_range hc]; rfl
  case sttRange =>
    have h := State.elemCheck_range hc true hf (fun _ => hb)
    rw [if_pos rfl, show s.rangeTrap t.toNat [c.ent.wordOf k] true = some cause from hr] at h
    rw [exec_stt_error r h, State.elemLink_range hc]; rfl

/-! ### Generators and tiles (11 R271, R272; 10 R236-R239) -/

/-- The reads that an arm schedules. -/
def State.armReads (s : State) (n : BitVec 4) (arm : Nat) (ps : Vector W64 5) (c : Cap) (vs : List Nat) : State :=
  vs.foldl (fun s i => (s.later (2 + i) true (.samplePort n arm i c (vecWords ps c.ent i))).chargeAll (2 + i) false c (vecWords ps c.ent i)) s

theorem State.armReads_spec (n : BitVec 4) (arm : Nat) (ps : Vector W64 5) (c : Cap) (vs : List Nat) (s : State) :
    let u := s.armReads n arm ps c vs
    OnlyPend s.core u ∧ u.mem = s.mem ∧ u.gang = s.gang ∧ (∀ p ∈ s.core.pend, p ∈ u.core.pend) ∧
      ∀ i ∈ vs, { time := s.gang.now + (2 + i), iss := s.gang.now, own := true, act := .samplePort n arm i c (vecWords ps c.ent i) } ∈ u.core.pend := by
  induction vs generalizing s with
  | nil => exact ⟨⟨_, rfl⟩, rfl, rfl, fun _ h => h, fun i hi => absurd hi List.not_mem_nil⟩
  | cons i vs ih =>
    let t := (s.later (2 + i) true (.samplePort n arm i c (vecWords ps c.ent i))).chargeAll (2 + i) false c (vecWords ps c.ent i)
    have hcore : t.core = (s.later (2 + i) true (.samplePort n arm i c (vecWords ps c.ent i))).core := State.chargeAll_core ..
    have hgang : t.gang = s.gang := State.chargeAll_gang ..
    obtain ⟨⟨l, hl⟩, hmem, hgang', hkeep, hnew⟩ := ih t
    refine ⟨⟨l, hl.trans (by rw [hcore]; rfl)⟩, hmem.trans (State.chargeAll_mem ..), hgang'.trans hgang, fun p hp => ?_, fun j hj => ?_⟩
    · exact hkeep p (by rw [hcore, State.mem_later]; exact .inr hp)
    · rcases List.mem_cons.mp hj with rfl | hj
      · exact hkeep _ (by rw [hcore, State.mem_later]; exact .inl rfl)
      · have h := hnew j hj
        rwa [hgang] at h

/-- The register files see no timed actions. -/
theorem sameRegs_onlyPend {c : Core} {s : State} (h : OnlyPend c s) : SameRegs c s.core := by
  obtain ⟨l, hl⟩ := h
  rw [hl]
  exact ⟨rfl, rfl, rfl, rfl, rfl, rfl, rfl, rfl, rfl, rfl, rfl, rfl, rfl, rfl⟩

/-- The vectors that an arm reads ahead. -/
def armAhead (n : BitVec 4) (c : Cap) (ps : Vector W64 5) : List Nat := if 8 ≤ n.toNat then [] else List.range (min (aheadOf c.ent) (psNV ps))

section
variable {s : State} {n : BitVec 4} {c : Cap} (h : s.armCheck n.toNat (s.getPort n.toNat).stage = .ok c)
include h

theorem exec_genArm_open (ho : ((armAhead n c (s.getPort n.toNat).stage).any fun i => s.openHit c.h (vecWords (s.getPort n.toNat).stage c.ent i)) = true) :
    exec (.genArm n) s = .next (s.trap .a 9 0 0
      (s.rangeLink c.h ((armAhead n c (s.getPort n.toNat).stage).flatMap (vecWords (s.getPort n.toNat).stage c.ent)) false)) := by
  show execGenArm n s = _
  simp only [execGenArm, h]
  exact if_pos ho

theorem exec_genArm_clear (ho : ((armAhead n c (s.getPort n.toNat).stage).any fun i => s.openHit c.h (vecWords (s.getPort n.toNat).stage c.ent i)) = false) :
    exec (.genArm n) s = .next (((s.setClu (s.clu.capture c)).later 0 true (.arm n.toNat (s.getPort n.toNat).stage c)).armReads n
      ((s.getPort n.toNat).arm + 1) (s.getPort n.toNat).stage c (armAhead n c (s.getPort n.toNat).stage)) := by
  show execGenArm n s = _
  simp only [execGenArm, h]
  exact if_neg (Bool.eq_false_iff.mp ho)

end

theorem exec_genArm_error {s : State} {n : BitVec 4} {cls : Nat} (h : s.armCheck n.toNat (s.getPort n.toNat).stage = .error cls) :
    exec (.genArm n) s = .next (s.trap .a cls 0 (tileAddr cls (BitVec.ofNat 12 (psTile (s.getPort n.toNat).stage)))) := by
  show execGenArm n s = _
  simp only [execGenArm, h]
  rfl

section
variable {s : State} {t : BitVec 12} {r q : BitVec 5} {fmt : BitVec 5} {dims : BitVec 2} {lvl retain : Bool} {owner : BitVec 2}

theorem exec_talloc_taken {x : Tile} (h : s.tableView.tile? t.toNat = some x) :
    exec (.talloc t r q fmt dims lvl retain owner) s = .next (s.trap .a 7 0 t.toNat) := by
  show execTalloc t r q fmt dims lvl retain owner s = _
  rw [execTalloc, if_pos (by rw [h]; rfl)]
  rfl

variable (hfree : s.tableView.tile? t.toNat = none)
include hfree

theorem exec_talloc_format (h : (allocEnt (s.getA r) fmt dims lvl retain owner).extentsOk = false ∨
    (allocEnt (s.getA r) fmt dims lvl retain owner).formatOk = false) :
    exec (.talloc t r q fmt dims lvl retain owner) s = .next (s.trap .a 8 0) := by
  show execTalloc t r q fmt dims lvl retain owner s = _
  rw [execTalloc, if_neg (by simp [hfree]), if_pos (by rcases h with h | h <;> simp [h])]
  rfl

theorem exec_talloc_ok (he : (allocEnt (s.getA r) fmt dims lvl retain owner).extentsOk = true)
    (hf : (allocEnt (s.getA r) fmt dims lvl retain owner).formatOk = true) :
    exec (.talloc t r q fmt dims lvl retain owner) s =
      if s.tableView.fits (allocEnt (s.getA r) fmt dims lvl retain owner) then
        .next ((s.later 1 true (.tileNew t.toNat (allocEnt (s.getA r) fmt dims lvl retain owner))).later 1 true (.a q 0))
      else .next (s.later 1 true (.a q 1)) := by
  show execTalloc t r q fmt dims lvl retain owner s = _
  rw [execTalloc, if_neg (by simp [hfree]), if_neg (by simp [he, hf])]
  rfl

end

/-- An extent above DIMS that is not zero. -/
theorem extentsOk_eq_false {e : TileEnt} (h : e.dims = 0 ∧ e.e1 ≠ 0 ∨ e.dims.toNat ≤ 1 ∧ e.e2 ≠ 0 ∨ e.dims.toNat ≤ 2 ∧ e.e3 ≠ 0) : e.extentsOk = false := by
  rw [← Bool.not_eq_true]
  unfold TileEnt.extentsOk
  simp only [Bool.and_eq_true, Bool.or_eq_true, decide_eq_true_eq, beq_iff_eq]
  rintro ⟨⟨h1, h2⟩, h3⟩
  rcases h with ⟨hd, he⟩ | ⟨hd, he⟩ | ⟨hd, he⟩
  · exact h1.elim (fun h => by simp [hd] at h) he
  · exact h2.elim (fun h => by omega) he
  · exact h3.elim (fun h => by omega) he

section
variable {s : State} {t : BitVec 12}

theorem exec_tfree_none (h : s.tableView.tile? t.toNat = none) : exec (.tfree t) s = .next (s.trap .a 7 0 t.toNat) := by
  show execTfree t s = _
  rw [execTfree, h]
  rfl

theorem exec_tfree_some {x : Tile} (h : s.tableView.tile? t.toNat = some x) :
    exec (.tfree t) s = if x.caps ≠ 0 then .next (s.trap .a 7 0 t.toNat) else .next (s.later 1 true (.tileFree t.toNat)) := by
  show execTfree t s = _
  rw [execTfree, h]
  rfl

end

/-- Settles O21: an arm and an allocation by their checks; the other forms queue one action. -/
theorem generatorsAndTiles : Obligations.GeneratorsAndTiles := by
  intro s n w r q t fmt dims lvl retain msk owner k3 k4
  refine ⟨rfl, fun c hc => ⟨exec_genArm_open hc, fun ho => ?arm⟩, fun cls h => ⟨_, exec_genArm_error h⟩,
    ⟨fun hfree he hf => ⟨fun hfit => ?fits, fun hfit => ?full⟩, fun hfree h => ?format, fun x h => exec_talloc_taken h⟩,
    fun x h hc => ?free, fun x h hc => ?captured, exec_tfree_none, rfl, rfl, rfl, rfl, rfl⟩
  case arm =>
    obtain ⟨⟨l, hl⟩, hmem, _, hkeep, hnew⟩ := State.armReads_spec n ((s.getPort n.toNat).arm + 1) (s.getPort n.toNat).stage c
      (armAhead n c (s.getPort n.toNat).stage) ((s.setClu (s.clu.capture c)).later 0 true (.arm n.toNat (s.getPort n.toNat).stage c))
    refine ⟨_, exec_genArm_clear hc ho, sameRegs_onlyPend ⟨l, hl⟩, hmem, hkeep _ ?_, hnew⟩
    exact (State.mem_later ..).mpr (.inl rfl)
  case fits => rw [exec_talloc_ok hfree he hf, if_pos hfit]
  case full => rw [exec_talloc_ok hfree he hf, if_neg (by simp [hfit])]
  case format => exact exec_talloc_format hfree (h.symm.imp extentsOk_eq_false id)
  case free => rw [exec_tfree_some h, if_neg (by simp [hc])]
  case captured => rw [exec_tfree_some h, if_pos hc]

end Sys2Proof.Machine
end

section
/-! PROOF. Far loads and stores of the A slot (11 R270; 02 R27-R34; O20). -/

namespace Sys2Proof.Machine

/-! ### What reads of lines and translations leave (02 R29, R34; 17 R404) -/

/-- `u` is `s` after errors that reads of lines met: counted, or listed to take their turn. -/
def Noted (s u : State) : Prop := u = { s with agenda := u.agenda, draw := u.draw, pkg := { s.pkg with corrected := u.pkg.corrected } }

theorem Noted.refl (s : State) : Noted s s := rfl

theorem Noted.trans {s t u : State} (h : Noted s t) (h' : Noted t u) : Noted s u := by
  unfold Noted at *
  rw [h']
  rw [h]

theorem Noted.correctable_meet (s : State) (a : Nat) (x : Option UeSite) : Noted s ((s.correctable a).meet x) := by
  unfold Noted State.correctable State.meet
  rfl

theorem noteLines_noted (l : List Nat) (s : State) : Noted s (s.noteLines l) := by
  refine List.foldlRecOn (motive := Noted s) l _ (Noted.refl s) fun t ht n _ => ?_
  split
  · exact ht
  · exact ht.trans (Noted.correctable_meet t _ _)

theorem noteWalk_noted (s : State) (root va : Nat) : Noted s (s.noteWalk root va) := noteLines_noted _ s

/-- `u` is `s` after a translation: as `Noted`, with the translation cache filled. -/
def Translated (s u : State) : Prop := ∃ tlb, Noted (s.setClu { s.clu with tlb := tlb }) u

theorem Noted.translated {s u : State} (h : Noted s u) : Translated s u := ⟨s.clu.tlb, h⟩
theorem Translated.refl (s : State) : Translated s s := (Noted.refl s).translated

theorem Noted.choose (s : State) : Noted s s.choose.2 := by
  unfold Noted State.choose
  rfl

theorem Noted.fill {s u : State} (h : Noted s u) (tlb : List (Nat × Nat)) : Translated s (u.setClu { u.clu with tlb := tlb }) := by
  refine ⟨tlb, ?_⟩
  unfold Noted at *
  rw [h]
  rfl

theorem State.leafOf_translated (s : State) (root va : Nat) : Translated s (s.leafOf root va).2 := by
  unfold State.leafOf
  dsimp only
  split
  · split
    · exact Translated.refl s
    · exact (Noted.choose s).translated
  · split
    · next e _ => exact (noteWalk_noted s root va).fill ((va / 2 ^ 21, e) :: (s.noteWalk root va).clu.tlb)
    · dsimp only
      exact (noteWalk_noted s root va).translated

theorem State.translate_translated (s : State) (va : Nat) (w : Bool) : Translated s (s.translate va w).2 := by
  unfold State.translate
  split
  · exact Translated.refl s
  · split
    · exact Translated.refl s
    · split
      · exact Translated.refl s
      · next c hc =>
        have h := s.leafOf_translated c.root va
        split
        · next e u hu => rw [hu] at h; exact h
        · next u hu => rw [hu] at h; exact h

theorem State.farPage_translated (s : State) (va : Nat) (w : Bool) : Translated s (s.farPage va w).2 := by
  unfold State.farPage
  split
  · exact Translated.refl s
  · exact (Noted.choose s).translated
  · have h := s.translate_translated va w
    split
    · next u hu => rw [hu] at h; exact h
    · next x u hu => rw [hu] at h; exact h

/-- A translation leaves the core, the memory, the tiles and the gang. -/
theorem Translated.keeps {s u : State} (h : Translated s u) :
    u.core = s.core ∧ u.mem = s.mem ∧ u.clus = s.clus ∧ u.gang = s.gang ∧ u.dom = s.dom ∧ ∀ k, u.clu.dataOf k = s.clu.dataOf k := by
  obtain ⟨tlb, h⟩ := h
  unfold Noted at h
  rw [h]
  exact ⟨rfl, rfl, rfl, rfl, rfl, fun _ => rfl⟩

/-! ### Pages of far accesses -/

section
variable {s : State} {va : Nat}

theorem State.farPage_outside (h : s.part va = .outside) (w : Bool) : s.farPage va w = (.error 2, s) := by
  rw [State.farPage, h]

theorem State.farPage_own_none (h : s.part va = .own) {w : Bool} (ht : (s.translate va w).1 = none) :
    s.farPage va w = (.error 0, (s.translate va w).2) := by
  rw [State.farPage, h]
  dsimp only
  split
  · next u hu => rw [hu]
  · next x u hu => rw [hu] at ht; cases ht

theorem State.farPage_own_some (h : s.part va = .own) {w : Bool} {x : Nat × Bool} (ht : (s.translate va w).1 = some x) :
    s.farPage va w = (.ok x, (s.translate va w).2) := by
  rw [State.farPage, h]
  dsimp only
  split
  · next u hu => rw [hu] at ht; cases ht
  · next y u hu => rw [hu] at ht ⊢; cases ht; rfl

theorem State.farPage_other {q : Nat} (h : s.part va = .other q) (w : Bool) :
    (s.farPage va w).1 = .ok (farVa q va, false) ∨ (s.farPage va w).1 = .error 0 := by
  rw [State.farPage, h]
  dsimp only
  split
  · exact .inl rfl
  · exact .inr rfl

/-- Where an address of a context lies (15 R372). -/
theorem State.part_eq {c : Ctx} (hf : s.isFw = false) (hc : s.ctxOf s.gang.ctx = some c) : s.part va = s.partOf c va := by
  rw [State.part, if_neg (by simp [hf]), hc]

theorem State.partOf_own_iff (c : Ctx) : s.partOf c va = .own ↔ c.pkgs.length ≤ 1 ∨ bits va 51 45 = s.pkg.cfg.pkg.toNat := by
  unfold State.partOf
  dsimp only
  split
  · next h => exact iff_of_true rfl h
  · next h => exact iff_of_false (by split <;> simp) h

theorem State.partOf_outside_iff (c : Ctx) :
    s.partOf c va = .outside ↔ 1 < c.pkgs.length ∧ bits va 51 45 ≠ s.pkg.cfg.pkg.toNat ∧ bits va 51 45 ∉ c.pkgs := by
  unfold State.partOf
  dsimp only
  split
  · next h =>
    refine iff_of_false (by simp) fun ⟨hlen, hne, _⟩ => ?_
    exact h.elim (fun h => by omega) hne
  · next h =>
    obtain ⟨hlen, hne⟩ := not_or.mp h
    by_cases hm : bits va 51 45 ∈ c.pkgs
    · simp [hm]
    · simp [hm, hne, Nat.not_le.mp hlen]

end

/-! ### Accesses that the core waits for -/

/-- The state after an access of the core in focus on stream `st`, its event added, the core waiting for its return. -/
structure FarIssued (s t : State) (st : BitVec 4) : Prop where
  far : t.core.far = some s.mem.nextId
  frontier : t.frontier st = [s.mem.nextId]
  regs : SameRegs s.core t.core
  bytes : SameBytes s t

section
variable {s u : State} (hu : Translated s u) (st : BitVec 4)
include hu

/-- Adding an event to a new access, with the core waiting for it. -/
theorem farIssued_of_mem {m : MemSys} (hb : m.bytes = u.mem.bytes) (hl : m.wlog = u.mem.wlog) (hf : m.farDraw = u.mem.farDraw) :
    FarIssued s ({ (u.issueAccess st true).2 with mem := m, core := { (u.issueAccess st true).2.core with far := some (u.issueAccess st true).1 } }) st := by
  obtain ⟨hcore, hmem, hclus, hgang, hdom, hdata⟩ := hu.keeps
  obtain ⟨hid, hfront, _, _, _, hcore', hclu', _, _, hclus', _⟩ := u.issueAccess_spec st true
  have hn : u.mem.nextId = s.mem.nextId := by rw [hmem]
  refine ⟨by simp [hid, hn], hn ▸ hfront, ?_, fun d x _ => ?_, fun k x => ?_, ?_⟩
  · rw [hcore', hcore]
    exact ⟨rfl, rfl, rfl, rfl, rfl, rfl, rfl, rfl, rfl, rfl, rfl, rfl, rfl, rfl⟩
  · exact (MemSys.byteAt_congr (by rw [hb, hmem]) (by rw [hl, hmem]) (by rw [hf, hmem]) d x).symm
  · show _ = (((u.issueAccess st true).2.clu.dataOf k).get x)
    rw [hclu', hdata]
  · exact (hclus'.trans hclus).symm

end

section
variable {s : State} (sz : BitVec 2) (st : BitVec 4) (r b : BitVec 5) (off : BitVec 16)

/-- Both forms check the chain and the alignment first. -/
theorem exec_fld_lockstep (h : s.lockstep = true) : exec (.fld sz st r b off) s = .next (s.trap .a 2 1) := if_pos h
theorem exec_fst_lockstep (h : s.lockstep = true) : exec (.fst sz st r b off) s = .next (s.trap .a 2 1) := if_pos h

variable (hl : s.lockstep = false)
include hl

theorem exec_fld_unaligned (ha : s.farAddr b off % 2 ^ sz.toNat ≠ 0) : exec (.fld sz st r b off) s = .next (s.trap .a 11 1 (s.farAddr b off)) :=
  (if_neg (by simp [hl])).trans (if_pos ha)
theorem exec_fst_unaligned (ha : s.farAddr b off % 2 ^ sz.toNat ≠ 0) : exec (.fst sz st r b off) s = .next (s.trap .a 11 1 (s.farAddr b off)) :=
  (if_neg (by simp [hl])).trans (if_pos ha)

variable (ha : s.farAddr b off % 2 ^ sz.toNat = 0)
include ha

theorem exec_fld_error {c : Nat} {u : State} (h : s.farPage (s.farAddr b off) false = (.error c, u)) :
    exec (.fld sz st r b off) s = .next (s.trap .a 11 c (s.farAddr b off)) := by
  show execFld sz st r b off s = _
  simp only [execFld, hl, ha, h, Bool.false_eq_true, if_false, ne_eq, not_true]
  rfl

theorem exec_fst_error {c : Nat} {u : State} (h : s.farPage (s.farAddr b off) true = (.error c, u)) :
    exec (.fst sz st r b off) s = .next (s.trap .a 11 c (s.farAddr b off)) := by
  show execFst sz st r b off s = _
  simp only [execFst, hl, ha, h, Bool.false_eq_true, if_false, ne_eq, not_true]
  rfl

theorem exec_fld_ok {pa : Nat} {lg : Bool} {u : State} (h : s.farPage (s.farAddr b off) false = (.ok (pa, lg), u)) :
    exec (.fld sz st r b off) s = .next (let x := u.issueAccess st true
      let t := x.2.addRead x.1 pa (2 ^ sz.toNat) (.reg x.2.core.id r)
      t.setCore { t.core with far := some x.1 }) := by
  show execFld sz st r b off s = _
  simp only [execFld, hl, ha, h, Bool.false_eq_true, if_false, ne_eq, not_true]

theorem exec_fst_held {pa : Nat} {lg : Bool} {u : State} (h : s.farPage (s.farAddr b off) true = (.ok (pa, lg), u))
    (hheld : (s.isFw && lg && s.barrier) = true) : exec (.fst sz st r b off) s = .next s.holdBundle := by
  show execFst sz st r b off s = _
  simp only [execFst, hl, ha, h, hheld, Bool.false_eq_true, if_false, if_true, ne_eq, not_true]

theorem exec_fst_ok {pa : Nat} {lg : Bool} {u : State} (h : s.farPage (s.farAddr b off) true = (.ok (pa, lg), u))
    (hheld : (s.isFw && lg && s.barrier) = false) : exec (.fst sz st r b off) s = .next (let x := u.issueAccess st true
      let t := x.2.addWrite x.1 (.bytes (cellsAt pa (toBytes (2 ^ sz.toNat) (u.getA r).toNat))) (pa / 64 * 64) lg (homeOf pa)
      t.setCore { t.core with far := some x.1 }) := by
  show execFst sz st r b off s = _
  simp only [execFst, hl, ha, h, hheld, Bool.false_eq_true, if_false, ne_eq, not_true]

end

/-- Settles O20: the checks in their order; an access whose page can be used is issued with its event. -/
theorem farAccessesComplete : Obligations.FarAccessesComplete := by
  intro s sz st r b off va n goes
  refine ⟨?addr, fun h => ⟨exec_fld_lockstep sz st r b off h, exec_fst_lockstep sz st r b off h⟩,
    fun hl ha => ⟨exec_fld_unaligned sz st r b off hl ha, exec_fst_unaligned sz st r b off hl ha⟩, fun ⟨hl, ha⟩ hp => ?outside,
    fun ⟨hl, ha⟩ hp ht => exec_fld_error sz st r b off hl ha (State.farPage_own_none hp ht),
    fun ⟨hl, ha⟩ hp ht => exec_fst_error sz st r b off hl ha (State.farPage_own_none hp ht), fun c hf hc => ?parts,
    fun pa lg u ⟨hl, ha⟩ hu => ?load, fun pa lg u ⟨hl, ha⟩ hu => ⟨fun hf hlg hb => ?held, fun hno => ?store⟩,
    fun w x hp ht => congrArg Prod.fst (State.farPage_own_some hp ht), fun w q hq => State.farPage_other hq w,
    fun w c u ⟨hl, ha⟩ hu => ⟨fun hw => ?_, fun hw => ?_⟩⟩
  case addr =>
    show (((s.getA b + off.signExtend 64).toNat : Nat) : Int) = _
    rw [toNat_add_of_toInt, BitVec.toInt_signExtend_of_le (by decide)]
  case outside =>
    exact ⟨exec_fld_error sz st r b off hl ha (State.farPage_outside hp false), exec_fst_error sz st r b off hl ha (State.farPage_outside hp true)⟩
  case parts =>
    rw [State.part_eq hf hc]
    exact ⟨State.partOf_own_iff c, State.partOf_outside_iff c⟩
  case load =>
    have htr : Translated s u := by have h := s.farPage_translated va false; rwa [hu] at h
    obtain ⟨hcore, hmem, _⟩ := htr.keeps
    obtain ⟨hfar, hfront, hregs, hbytes⟩ := farIssued_of_mem htr st
      (m := ((u.issueAccess st true).2.addRead (u.issueAccess st true).1 pa n (.reg (u.issueAccess st true).2.core.id r)).mem) rfl rfl rfl
    refine ⟨_, exec_fld_ok sz st r b off hl ha hu, hfar, hfront, hregs, hbytes, _, List.mem_append_right _ (List.mem_singleton_self _), ?_, rfl, rfl, ?_, rfl⟩
    · show u.mem.nextId = _
      rw [hmem]
    · show RDst.reg u.core.id r = _
      rw [hcore]
  case held => exact exec_fst_held sz st r b off hl ha hu (by simp [hf, hlg, hb])
  case store =>
    have htr : Translated s u := by have h := s.farPage_translated va true; rwa [hu] at h
    obtain ⟨hcore, hmem, _⟩ := htr.keeps
    have hheld : (s.isFw && lg && s.barrier) = false := by
      rw [← Bool.not_eq_true]
      simpa [and_assoc] using hno
    obtain ⟨hfar, hfront, hregs, hbytes⟩ := farIssued_of_mem htr st
      (m := ((u.issueAccess st true).2.addWrite (u.issueAccess st true).1 (.bytes (cellsAt pa (toBytes n (u.getA r).toNat))) (pa / 64 * 64) lg (homeOf pa)).mem)
      rfl rfl rfl
    refine ⟨_, exec_fst_ok sz st r b off hl ha hu hheld, hfar, hfront, hregs, hbytes, _, List.mem_append_right _ (List.mem_singleton_self _), ?_, rfl, rfl,
      rfl, ?_⟩
    · show u.mem.nextId = _
      rw [hmem]
    · show WSrc.bytes (cellsAt pa (toBytes n (u.getA r).toNat)) = _
      rw [State.getA, hcore]
      rfl
  · subst hw
    exact exec_fld_error sz st r b off hl ha hu
  · subst hw
    exact exec_fst_error sz st r b off hl ha hu

end Sys2Proof.Machine
end

section
/-! PROOF. Waits, arrivals and fences of the C slot (11 R260-R262; O13, O14). -/

namespace Sys2Proof.Machine

/-! ### A logged input leaves the core (07 R162) -/

@[simp] theorem State.pressSeal_core (s : State) : s.pressSeal.core = s.core := by
  unfold State.pressSeal
  split
  · exact s.requestSeal_core
  · rfl

@[simp] theorem State.pressSeal_gang (s : State) : s.pressSeal.gang = s.gang := by
  unfold State.pressSeal
  split
  · exact s.requestSeal_gang
  · rfl

theorem State.logInputAt_core_gang (s : State) (ri : W32) (ctx : BitVec 16) (r : InRec) (len : Nat) :
    (s.logInputAt ri ctx r len).core = s.core ∧ (s.logInputAt ri ctx r len).gang = s.gang := by
  unfold State.logInputAt
  split
  · exact ⟨rfl, rfl⟩
  · dsimp only
    split
    · exact ⟨rfl, rfl⟩
    · split
      · rw [State.pressSeal_core, State.pressSeal_gang]
        exact ⟨rfl, rfl⟩
      · exact ⟨rfl, rfl⟩

/-! ### WAITA (11 R261) -/

/-- The outcome of a `WAITA` ends its wait, is counted, and queues its predicate at issue. -/
theorem State.waitaDone_spec (s : State) (p : BitVec 4) (b : Bool) :
    (s.waitaDone p b).core.wait = .none ∧ (s.waitaDone p b).core.inCnt.waita = s.core.inCnt.waita + 1 ∧
      (s.waitaDone p b).core.pend = (s.later 0 true (.p p b)).core.pend := by
  unfold State.waitaDone
  dsimp only
  split
  · exact ⟨rfl, rfl, rfl⟩
  · obtain ⟨hc, hg⟩ := s.logInputAt_core_gang s.dom.ri s.gang.ctx (.waita s.gang.gidx s.rank s.core.inCnt.waita b) 0
    unfold State.logInput State.later State.setCore
    dsimp only
    rw [hc, hg]
    exact ⟨rfl, rfl, rfl⟩

theorem State.noteShared_noted (s : State) (va : Nat) : Noted s (s.noteShared va) := by
  unfold State.noteShared
  split
  · exact noteWalk_noted s _ va
  · exact Noted.refl s

/-- What notes of errors leave is all that a `WAITA` reads. -/
theorem Noted.wait_reads {s u : State} (h : Noted s u) (line t : Nat) :
    u.waitaReplay = s.waitaReplay ∧ u.recalled line t = s.recalled line t ∧ u.watchFrom line = s.watchFrom line ∧ u.core = s.core ∧
      u.gang = s.gang ∧ u.pkg.snoop = s.pkg.snoop := by
  unfold Noted at h
  rw [h]
  exact ⟨rfl, rfl, rfl, rfl, rfl, rfl⟩

theorem State.snoopAdd_spec (s : State) (n : Nat) :
    (s.snoopAdd n).core = s.core ∧ (s.pkg.snoop.length < 65536 → n ∈ (s.snoopAdd n).pkg.snoop) := by
  unfold State.snoopAdd
  split
  · next h => exact ⟨rfl, fun _ => List.contains_iff_mem.mp h⟩
  · split
    · exact ⟨rfl, fun _ => List.mem_append_right _ (List.mem_singleton.mpr rfl)⟩
    · next h =>
      refine ⟨?_, fun h' => absurd h' h⟩
      split
      · rfl
      · dsimp only
        split <;> rfl

section
variable {s : State} (p r : BitVec 4) (limit : W32) (hl : s.lockstep = false)
include hl

theorem exec_waita_ended {l a b : Nat} {out : Bool} (h : s.core.wait = .waita l a b (some out)) :
    exec (.waita p r limit) s = .next (s.waitaDone p out) := by
  show execWaita p r limit s = _
  simp only [execWaita, hl, h, Bool.false_eq_true, if_false]

theorem exec_waita_unshared (h : s.core.wait = .none) (hs : s.sharedLine (s.getC r).toNat = none) :
    exec (.waita p r limit) s = .next (s.trap .c 11 (s.pageCause (s.getC r).toNat) ((s.getC r).toNat / 64 * 64)) := by
  show execWaita p r limit s = _
  simp only [execWaita, hl, h, hs, Bool.false_eq_true, if_false]
  rfl

/-- A `WAITA` that begins, on the state that its walk leaves. -/
def State.waitaBegin (u : State) (p : BitVec 4) (limit : W32) (line : Nat) : Res :=
  match u.waitaReplay with
  | some b => .next (u.waitaDone p b)
  | none =>
    if u.recalled line (u.watchFrom line) then .next (u.waitaDone p true)
    else if limit = 0 then .next (u.waitaDone p false)
    else .next ((u.snoopAdd line).waitOn (.waita line (u.watchFrom line) (u.gang.now + limit.toNat) none))

theorem exec_waita_begins (h : s.core.wait = .none) {line : Nat} (hs : s.sharedLine (s.getC r).toNat = some line) :
    exec (.waita p r limit) s = (s.noteShared (s.getC r).toNat).waitaBegin p limit line := by
  show execWaita p r limit s = _
  simp only [execWaita, hl, h, hs, Bool.false_eq_true, if_false]
  rfl

end

/-- Settles O13: a wait that has ended gives its outcome; one that begins reads its line, whose walk leaves only notes of errors. -/
theorem waitsComplete : Obligations.WaitsComplete := by
  unfold Obligations.WaitsComplete
  refine ⟨fun s fb ph => ⟨fun hl h => ?_, fun hl h => ?_, fun hl => if_pos hl, rfl⟩, fun s p r limit hl => ⟨s.waitaDone_spec p, ?_, ?_, ?_, ?_⟩⟩
  · exact (if_neg (by simp [hl])).trans (if_pos h)
  · exact (if_neg (by simp [hl])).trans (if_neg h)
  · exact fun l a b out h => exec_waita_ended p r limit hl h
  · intro line h hs hr
    have hn := s.noteShared_noted (s.getC r).toNat
    have hx := exec_waita_begins p r limit hl h hs
    obtain ⟨hr', hrec, hw, hcore, hgang, hsnoop⟩ := hn.wait_reads line (s.watchFrom line)
    generalize s.noteShared (s.getC r).toNat = u at hn hx hr' hrec hw hcore hgang hsnoop
    rw [State.waitaBegin, hr', hr, hw, hrec, hgang] at hx
    refine ⟨u, hn, fun h1 => hx.trans (if_pos h1), fun h1 h2 => hx.trans ((if_neg (by simp [h1])).trans (if_pos h2)), fun h1 h2 => ?_⟩
    obtain ⟨hc, hmem⟩ := u.snoopAdd_spec line
    refine ⟨_, hx.trans ((if_neg (by simp [h1])).trans (if_neg h2)), rfl, rfl, ?_, fun hlen => hmem (by rwa [hsnoop])⟩
    show SameRegs s.core (_ : Core)
    simp only [State.waitOn, State.holdBundle, State.setCore_core, hc, hcore]
    exact ⟨rfl, rfl, rfl, rfl, rfl, rfl, rfl, rfl, rfl, rfl, rfl, rfl, rfl, rfl⟩
  · intro line b h hs hr
    have hn := s.noteShared_noted (s.getC r).toNat
    have hx := exec_waita_begins p r limit hl h hs
    obtain ⟨hr', _⟩ := hn.wait_reads line 0
    generalize s.noteShared (s.getC r).toNat = u at hn hx hr'
    rw [State.waitaBegin, hr', hr] at hx
    exact ⟨u, hn, hx⟩
  · exact fun h hs => exec_waita_unshared p r limit hl h hs

/-! ### FENCE (11 R262) -/

theorem mem_maskStreams (m : BitVec 16) (st : BitVec 4) : st ∈ maskStreams m ↔ m.getLsbD st.toNat = true := by
  simp only [maskStreams, List.mem_map, List.mem_filter, List.mem_range]
  constructor
  · rintro ⟨i, ⟨hi, hb⟩, rfl⟩
    rwa [BitVec.toNat_ofNat, Nat.mod_eq_of_lt hi]
  · exact fun h => ⟨st.toNat, ⟨st.isLt, h⟩, by simp⟩

/-- One number becomes the frontier of every stream of a list; nothing else of the core changes. -/
theorem Core.foldl_setStream (id : Nat) : ∀ (l : List (BitVec 4)) (c : Core), ∃ str, l.foldl (fun c st => c.setStream st [id]) c = { c with streams := str } ∧
    ∀ st : BitVec 4, rget str st = if st ∈ l then [id] else rget c.streams st
  | [], c => ⟨c.streams, rfl, fun st => by simp⟩
  | x :: l, c => by
    obtain ⟨str, he, hr⟩ := Core.foldl_setStream id l (c.setStream x [id])
    refine ⟨str, he, fun st => ?_⟩
    rw [hr, Core.setStream_streams, rget_rset]
    by_cases h : st ∈ l
    · simp [h]
    · simp [h]

/-- The state after a fence is numbered, listed and made the frontier of its streams. -/
def State.fenced (s : State) (sc : Scope) (mask : BitVec 16) (fb : Option (BitVec 5)) : State :=
  let cmd := sc != .core && mask != 0
  let x := s.newAccess (.core s.core.id) s.die 0 ((maskStreams mask).flatMap s.frontier).eraseDups (!cmd)
  let u : State := { x.2 with mem := x.2.mem.updAcc x.1 fun a => { a with fence := some sc, mask := mask, fb := if cmd then fb else none } }
  u.setCore ((maskStreams mask).foldl (fun c st => c.setStream st [x.1]) u.core)

section
variable (s : State) (sc : Scope) (mask : BitVec 16) (fb : Option (BitVec 5))

theorem exec_fence_eq : exec (.fence sc mask fb) s = if sc != .core && mask != 0 then
      .next ((s.fenced sc mask fb).setGang { s.gang with cmdsOut := s.gang.cmdsOut ++ [s.mem.nextId] })
    else match fb with
      | some n => .next ((s.fenced sc mask fb).later 1 true (.fbArrive n))
      | none => .next (s.fenced sc mask fb) := rfl

theorem State.fenced_keeps : (s.fenced sc mask fb).mem.nextId = s.mem.nextId + 1 ∧ (s.fenced sc mask fb).gang = s.gang ∧
    (s.fenced sc mask fb).clu = s.clu ∧ (s.fenced sc mask fb).clus = s.clus ∧ (s.fenced sc mask fb).mem.bytes = s.mem.bytes ∧
    (s.fenced sc mask fb).mem.wlog = s.mem.wlog ∧ (s.fenced sc mask fb).mem.farDraw = s.mem.farDraw :=
  ⟨rfl, rfl, rfl, rfl, rfl, rfl, rfl⟩

theorem State.fenced_core : ∃ str, (s.fenced sc mask fb).core = { s.core with streams := str } ∧
    ∀ st : BitVec 4, rget str st = if mask.getLsbD st.toNat then [s.mem.nextId] else s.frontier st := by
  obtain ⟨str, he, hr⟩ := Core.foldl_setStream s.mem.nextId (maskStreams mask) s.core
  refine ⟨str, he, fun st => ?_⟩
  simp only [hr, mem_maskStreams]
  rfl

theorem State.fenced_access : ∃ a ∈ (s.fenced sc mask fb).mem.accs, a.id = s.mem.nextId ∧ a.fence = some sc ∧ a.mask = mask ∧
    a.done = !(sc != .core && mask != 0) ∧ a.preds = ((maskStreams mask).flatMap s.frontier).eraseDups := by
  obtain ⟨hid, -, -, -, -, -, -, -, -, -, -, a, ha, haid, hp, -, -, -, hd⟩ :=
    s.newAccess_spec (.core s.core.id) s.die 0 ((maskStreams mask).flatMap s.frontier).eraseDups (!(sc != .core && mask != 0))
  exact ⟨_, List.mem_map.mpr ⟨a, ha, if_pos (beq_iff_eq.mpr (haid.trans hid.symm))⟩, haid, rfl, rfl, hd, hp⟩

/-- Either end of a fence leaves the memory, the tiles and the streams of the fenced state. -/
theorem exec_fence_spec : ∃ t, exec (.fence sc mask fb) s = .next t ∧ t.mem = (s.fenced sc mask fb).mem ∧ t.clu = s.clu ∧ t.clus = s.clus ∧
    (∃ pd, t.core = { (s.fenced sc mask fb).core with pend := pd }) ∧
    (sc ≠ .core → mask ≠ 0 → t.gang.cmdsOut = s.gang.cmdsOut ++ [s.mem.nextId] ∧ t.core.pend = s.core.pend) ∧
    (sc = .core ∨ mask = 0 → t.gang = s.gang ∧
      t.core.pend = (match fb with | some n => (s.later 1 true (.fbArrive n)).core.pend | none => s.core.pend)) := by
  obtain ⟨str, hcore, -⟩ := s.fenced_core sc mask fb
  have hpend : (s.fenced sc mask fb).core.pend = s.core.pend := by rw [hcore]
  obtain ⟨-, hgang, -⟩ := s.fenced_keeps sc mask fb
  rw [exec_fence_eq]
  by_cases hc : sc ≠ .core ∧ mask ≠ 0
  · rw [if_pos (by simpa using hc)]
    exact ⟨_, rfl, rfl, rfl, rfl, ⟨_, rfl⟩, fun _ _ => ⟨rfl, hpend⟩, fun h => (h.elim hc.1 hc.2).elim⟩
  · rw [if_neg (by simpa using hc)]
    have hno : ¬(sc ≠ .core ∧ mask ≠ 0) := hc
    cases fb with
    | none => exact ⟨_, rfl, rfl, rfl, rfl, ⟨_, rfl⟩, fun h h' => absurd ⟨h, h'⟩ hno, fun _ => ⟨hgang, hpend⟩⟩
    | some n => exact ⟨_, rfl, rfl, rfl, rfl, ⟨_, rfl⟩, fun h h' => absurd ⟨h, h'⟩ hno, fun _ => ⟨hgang, by simp only [State.later, hgang, hpend]⟩⟩

end

/-- Settles O14: a fence is a new access behind the frontiers it then takes; its scope and mask say when it arrives. -/
theorem fenceCompletes : Obligations.FenceCompletes := by
  unfold Obligations.FenceCompletes
  intro s sc mask fb
  obtain ⟨t, hx, hmem, hclu, hclus, ⟨pd, hpd⟩, hparty, hover⟩ := exec_fence_spec s sc mask fb
  obtain ⟨hnext, -, -, -, hbytes, hwlog, hfar⟩ := s.fenced_keeps sc mask fb
  obtain ⟨str, hcore, hstr⟩ := s.fenced_core sc mask fb
  obtain ⟨a, ha, hid, hfence, hmask, hdone, hpreds⟩ := s.fenced_access sc mask fb
  refine ⟨t, hx, hmem ▸ hnext, ⟨a, hmem ▸ ha, hid, hfence, hmask, ?_, fun x => ?_⟩, fun st => ?_, hparty, hover, ?_, fun d x _ => ?_, fun k x => ?_, ?_⟩
  · rw [hdone, Bool.not_eq_true', Bool.and_eq_false_iff, bne_eq_false_iff_eq, bne_eq_false_iff_eq]
  · rw [hpreds, List.mem_eraseDups, List.mem_flatMap]
    simp only [mem_maskStreams]
  · rw [← hstr st, State.frontier, hpd, hcore]
  · rw [hpd, hcore]
    exact ⟨rfl, rfl, rfl, rfl, rfl, rfl, rfl, rfl, rfl, rfl, rfl, rfl, rfl, rfl⟩
  · rw [hmem]
    exact (MemSys.byteAt_congr hbytes hwlog hfar d x).symm
  · rw [hclu]
  · exact hclus.symm

end Sys2Proof.Machine
end

section
/-! PROOF. The state right after reset (10 R233, R239; 05 R117; 07 R148; 16 R376; O55). -/

namespace Sys2Proof.Machine

/-- Every register of a file at reset holds the same value. -/
theorem rget_replicate {α : Type} {n k : Nat} (x : α) (i : BitVec k) (h : 2 ^ k ≤ n) : rget (Vector.replicate n x) i h = x := by
  unfold rget
  exact Vector.getElem_replicate _

/-- Both vector files of a core at reset. -/
theorem Core.reset_vf (id : CoreId) (u : VU) : (Core.reset id).vf u = VFile.reset := by
  cases u <;> rfl

theorem Acc.lane_zero (m n : Nat) : Acc.lane (Vector.replicate 128 (Vector.replicate 128 0)) m n = 0 := by
  unfold Acc.lane
  split
  · simp
  · rfl

/-- Settles O55: each register file at reset holds one value, and the other parts are as the reset state writes them. -/
theorem resetState : Obligations.ResetState := by
  unfold Obligations.ResetState
  have hvf : ∀ u, State.reset.core.vf u = VFile.reset := Core.reset_vf _
  refine ⟨rfl, rfl, rfl, rfl, fun i => ?_, fun i => rget_replicate _ i _, fun i => rget_replicate _ i _, fun u i j hj => ?_, fun u i hi => ?_, fun u => rfl,
    fun u i => ?_, fun i => rget_replicate _ i _, fun i => rget_replicate _ i _, fun k m n => ?_, fun k => rget_replicate _ k _, rfl, fun i => rget_replicate _ i _,
    fun i hi => ?_, rfl, rfl, rfl, rfl, rfl, fun q => ?_, rfl, rfl, rfl, rfl, rfl⟩
  · revert i
    decide
  · rw [State.getV, hvf]
    exact (congrArg (Lanes.lane · j) (rget_replicate (Lanes.splat 0) i _)).trans (by simp [Lanes.lane, Lanes.splat, hj])
  · rw [State.getM, if_neg (by simpa using hi), hvf]
    exact rget_replicate _ i _
  · rw [State.getB, hvf]
    exact rget_replicate _ i _
  · exact (congrArg (Acc.lane · m n) (rget_replicate _ k _)).trans (Acc.lane_zero m n)
  · have hp : State.reset.getPort i = Port.reset := by
      rw [State.getPort, dif_pos hi]
      exact Vector.getElem_replicate _
    rw [hp]
    exact ⟨rfl, rfl⟩
  · have hq : State.reset.queueOf q = Queue.reset := rget_replicate _ q _
    rw [hq]
    exact ⟨rfl, rfl, rfl⟩

end Sys2Proof.Machine
end

section
/-! PROOF. Frame of the instructions that only queue writes (10 R234, R240; O56). -/

namespace Sys2Proof.Machine

/-- `t` is `s` with actions of this cycle queued, each of which writes one of the destinations `l`. -/
structure Queues (l : List Dest) (s t : State) : Prop where
  only : t = { s with core := { s.core with pend := t.core.pend } }
  old : ∀ p ∈ s.core.pend, p ∈ t.core.pend
  new : ∀ p ∈ t.core.pend, p ∈ s.core.pend ∨ p.iss = s.gang.now ∧ s.gang.now ≤ p.time ∧ ∃ d ∈ l, p.act.dest? = some d

theorem Queues.refl (l : List Dest) (s : State) : Queues l s s := ⟨rfl, fun _ h => h, fun _ h => .inl h⟩

theorem Queues.later {l : List Dest} {s t : State} (h : Queues l s t) {dt : Nat} {own : Bool} {a : Act} {d : Dest} (hd : d ∈ l)
    (ha : a.dest? = some d) : Queues l s (t.later dt own a) := by
  have hg : t.gang = s.gang := by rw [h.only]
  refine ⟨?_, fun p hp => (t.mem_later dt own a p).mpr (.inr (h.old p hp)), fun p hp => ?_⟩
  · obtain ⟨pd, rfl⟩ : ∃ pd, t = { s with core := { s.core with pend := pd } } := ⟨_, h.only⟩
    rfl
  · rcases (t.mem_later dt own a p).mp hp with rfl | hp'
    · exact .inr ⟨congrArg Gang.now hg, Nat.le_trans (Nat.le_of_eq (congrArg Gang.now hg).symm) (Nat.le_add_right ..), d, hd, ha⟩
    · exact h.new p hp'

/-- One queued action that writes the first destination. -/
theorem Queues.one {d : Dest} {l : List Dest} {s : State} {dt : Nat} {own : Bool} {a : Act} (ha : a.dest? = some d) : Queues (d :: l) s (s.later dt own a) :=
  (Queues.refl _ s).later List.mem_cons_self ha

theorem Queues.laterAll {l : List Dest} {s : State} : ∀ (as : List (Nat × Act)) (t : State), Queues l s t → (∀ x ∈ as, ∃ d ∈ l, x.2.dest? = some d) →
    Queues l s (t.laterAll as)
  | [], t, h, _ => h
  | x :: as, t, h, hx => by
    obtain ⟨d, hd, ha⟩ := hx x List.mem_cons_self
    exact Queues.laterAll as _ (h.later hd ha) fun y hy => hx y (List.mem_cons_of_mem _ hy)

/-- Compares write their predicate and, where the form names one, a register. -/
theorem Queues.compareTo (c : Cond) (d : Option (BitVec 5)) (p : BitVec 4) (x y : W64) (s : State) :
    ∃ t, compareTo c d p x y s = .next t ∧ Queues (.p p :: (match d with | some r => [.a r] | none => [])) s t := by
  cases d with
  | none => exact ⟨_, rfl, .one rfl⟩
  | some r => exact ⟨_, rfl, (Queues.one rfl).later (by simp) rfl⟩

theorem Queues.copyToV (u : VU) (msk : Bool) (k : BitVec 3) (r : BitVec 5) (s : State) :
    Queues [if msk then .m u k else .b u k] s (copyToV u msk k r s) := by
  cases msk with
  | true => exact .one rfl
  | false => exact .one rfl

/-- The forms that only queue writes queue them for their destinations. -/
theorem exec_queues {i : Instr} {l : List Dest} (s : State) (h : i.queued = some l) : ∃ t, exec i s = .next t ∧ Queues l s t := by
  cases i <;> cases h
  case nop => exact ⟨s, rfl, .refl _ s⟩
  case pload r =>
    refine ⟨_, rfl, Queues.laterAll _ s (.refl _ s) fun x hx => ?_⟩
    obtain ⟨i, hi, rfl⟩ := List.mem_map.mp hx
    exact ⟨_, List.mem_map.mpr ⟨i, hi, rfl⟩, rfl⟩
  case cmp c d p x y => exact Queues.compareTo c d p _ _ s
  case cmpi c d p x k => exact Queues.compareTo c d p _ _ s
  case copyV0 msk k r => exact ⟨_, rfl, Queues.copyToV .v0 msk k r s⟩
  case copyV1 msk k r => exact ⟨_, rfl, Queues.copyToV .v1 msk k r s⟩
  all_goals exact ⟨_, rfl, .one rfl⟩

/-- An action stands behind those before it and ahead of those that are not. -/
theorem insertPend_between (p : Pend) {m : List Pend} : ∀ {l : List Pend}, (∀ q ∈ l, q.before p = true) → (∀ q ∈ m, q.before p = false) →
    insertPend p (l ++ m) = l ++ p :: m
  | [], _, hm => by
    cases m with
    | nil => rfl
    | cons x m => exact if_neg (by simp [hm x List.mem_cons_self])
  | x :: l, hl, hm => by
    rw [List.cons_append, insertPend, if_pos (hl x List.mem_cons_self), insertPend_between p (fun q hq => hl q (List.mem_cons_of_mem _ hq)) hm,
      List.cons_append]

/-- Settles O56: queued writes are listed with their destinations; among the actions of one cycle the owning slots' newest stands last. -/
theorem queuedWritesFrame : Obligations.QueuedWritesFrame := by
  unfold Obligations.QueuedWritesFrame
  refine ⟨fun i s l h => ?_, fun s dt a h => ?_, fun s dt a l m hlm hl hm hle => ?_⟩
  · obtain ⟨t, hx, ht⟩ := exec_queues s h
    exact ⟨t, hx, ht.only, ht.old, ht.new⟩
  · refine insertPend_last _ _ fun q hq => ?_
    have := h q hq
    simp only [Pend.before, Bool.or_true, Bool.and_true, Bool.or_eq_true, decide_eq_true_eq, beq_iff_eq]
    omega
  · rw [State.later, hlm]
    refine insertPend_between _ (fun q hq => ?_) fun q hq => ?_
    · simp only [Pend.before, Bool.or_false, Bool.or_eq_true, Bool.and_eq_true, Bool.not_eq_true', decide_eq_true_eq, beq_iff_eq]
      rcases Nat.lt_or_eq_of_le (hle q hq) with h | h
      · exact .inl h
      · exact .inr ⟨h, (hl q hq).resolve_left (by omega)⟩
    · obtain ⟨hiss, hown⟩ := hm q hq
      simp [Pend.before, hiss, hown]

end Sys2Proof.Machine
end

section
/-! PROOF. Turns of the agenda and the bundle that is due (08 R184; 10 R240; O1, O2). -/

namespace Sys2Proof.Machine

/-! ### Turns of the agenda -/

/-- The gang that is furthest behind is one of the machine's. -/
theorem State.hasGang_hindmost (s : State) : s.hasGang s.hindmost = true := by
  refine List.foldlRecOn (motive := fun m : Nat × Nat => s.hasGang m.1 = true) s.gangs _ ?_ fun m hm b hb => ?_
  · simp [State.hasGang]
  · split
    · simp only [State.hasGang, Bool.or_eq_true, List.any_eq_true, beq_iff_eq]
      exact .inr ⟨b, hb, rfl⟩
    · exact hm

section
variable {s : State}

theorem State.live_iff : s.live = true ↔ s.pkg.clk.off = false ∧ s.pkg.booted = true := by
  simp [State.live]

theorem State.runGang_of_has {g : Nat} (h : s.hasGang g = true) : s.runGang g = .next (s.focusGang g).cycle := by
  rw [State.runGang, if_pos h]

theorem State.turn_event {i : Instr} {l : List Turn} (h : s.agenda = .event i :: l) (hl : s.live = true) (hi : i.slot? = none) :
    s.turn = exec i { s with agenda := l } := by
  have hlive : ({ s with agenda := l } : State).live = true := hl
  simp only [State.turn, h, hi, hlive, Option.isSome_none, Bool.not_true, Bool.false_and, Bool.or_self, Bool.false_eq_true, if_false]

theorem State.turn_gang {g : Nat} {l : List Turn} (h : s.agenda = .gang g :: l) (hl : s.live = true) :
    s.turn = ({ s with agenda := l } : State).runGang g := by
  have hlive : ({ s with agenda := l } : State).live = true := hl
  simp only [State.turn, h, hlive, if_true]

theorem State.turn_nil (h : s.agenda = []) :
    s.turn = if s.pkg.clk.off then .fault .powerOff else if s.pkg.booted then s.runGang s.hindmost else .fault .notBooted := by
  simp only [State.turn, h]

end

/-- Settles O1: the head of the agenda is run, and with none the gang that is furthest behind, which the machine has. -/
theorem stepRunsTurn : Obligations.StepRunsTurn := by
  unfold Obligations.StepRunsTurn
  intro s s0
  refine ⟨fun i l h hl hi => ?_, fun g l h hl hg => ?_, fun h hoff => ?_, fun h hoff hb => ?_, fun h hl => ?_⟩
  · exact congrArg after (State.turn_event (s := s0) h hl hi)
  · exact congrArg after ((State.turn_gang (s := s0) h hl).trans (State.runGang_of_has hg))
  · exact congrArg after ((State.turn_nil (s := s0) h).trans (if_pos hoff))
  · exact congrArg after ((State.turn_nil (s := s0) h).trans ((if_neg (by simp [s0, hoff])).trans (if_neg (by simp [s0, hb]))))
  · obtain ⟨hoff, hb⟩ := State.live_iff.mp hl
    have hturn : s0.turn = .next (s0.focusGang s0.hindmost).cycle :=
      (State.turn_nil (s := s0) h).trans <| ((if_neg (by simp [s0, hoff])).trans (if_pos hb)).trans (State.runGang_of_has s0.hasGang_hindmost)
    exact congrArg after hturn

/-! ### Instructions that only queue writes, whatever stands in the queue -/

/-- The state with the queue `pd`. -/
def State.withPend (s : State) (pd : List Pend) : State := { s with core := { s.core with pend := pd } }

/-- Several actions queued, each with its cycle and its owner. -/
def State.laters (s : State) (l : List (Nat × Bool × Act)) : State := l.foldl (fun s x => s.later x.1 x.2.1 x.2.2) s

theorem State.laterAll_eq (l : List (Nat × Act)) : ∀ s : State, s.laterAll l = s.laters (l.map fun x => (x.1, true, x.2)) := by
  induction l with
  | nil => exact fun _ => rfl
  | cons x l ih => exact fun s => ih _

/-- The queue after several actions, and that nothing else changes. -/
theorem State.laters_spec (l : List (Nat × Bool × Act)) : ∀ s : State, ∃ pd, s.laters l = s.withPend pd ∧
    ∀ p, p ∈ pd ↔ p ∈ s.core.pend ∨ ∃ x ∈ l, p = { time := s.gang.now + x.1, iss := s.gang.now, own := x.2.1, act := x.2.2 } := by
  induction l with
  | nil => exact fun s => ⟨s.core.pend, rfl, by simp⟩
  | cons x l ih =>
    intro s
    obtain ⟨pd, he, hp⟩ := ih (s.later x.1 x.2.1 x.2.2)
    refine ⟨pd, he, fun p => ?_⟩
    rw [hp, State.mem_later, State.later_gang]
    simp only [List.mem_cons, exists_eq_or_imp]
    tauto

/-- A form that only queues writes queues the same actions whatever stands in the queue. -/
theorem exec_queued_laters {i : Instr} (hi : i.queued.isSome = true) (s : State) (pd : List Pend) :
    ∃ l, exec i s = .next (s.laters l) ∧ exec i (s.withPend pd) = .next ((s.withPend pd).laters l) := by
  cases i <;> cases hi
  case nop => exact ⟨[], rfl, rfl⟩
  case pload r =>
    have h : ∀ u : State, exec (.pload r) u =
        .next (u.laterAll ((List.range 15).map fun i => (0, .p (BitVec.ofNat 4 (i + 1)) ((u.getC r).getLsbD (i + 1))))) := fun u => rfl
    exact ⟨_, (h s).trans (congrArg Host.Outcome.next (State.laterAll_eq _ s)), (h _).trans (congrArg Host.Outcome.next (State.laterAll_eq _ (s.withPend pd)))⟩
  case cmp c d p x y =>
    cases d with
    | none => exact ⟨[(_, _, _)], rfl, rfl⟩
    | some r => exact ⟨[(_, _, _), (_, _, _)], rfl, rfl⟩
  case cmpi c d p x k =>
    cases d with
    | none => exact ⟨[(_, _, _)], rfl, rfl⟩
    | some r => exact ⟨[(_, _, _), (_, _, _)], rfl, rfl⟩
  all_goals exact ⟨[(_, _, _)], rfl, rfl⟩

/-! ### The operations of a bundle, in the order of their slots -/

section
variable {i : Instr} {l : List Instr} {s t : State}

theorem issueSlots_goes (h : exec i s = .next t) (ht : t.traps = s.traps) (hh : t.core.hold = false) : issueSlots (i :: l) s = issueSlots l t := by
  simp only [issueSlots, h, ht, List.drop_length, hh, Bool.false_eq_true, if_false]

theorem issueSlots_held (h : exec i s = .next t) (ht : t.traps = s.traps) (hh : t.core.hold = true) :
    issueSlots (i :: l) s = .held (i :: l.filter s.holds) := by
  simp only [issueSlots, h, ht, List.drop_length, hh, if_true]

theorem issueSlots_traps {r : TrapRec} {m : List TrapRec} (h : exec i s = .next t) (ht : t.traps = s.traps ++ r :: m) : issueSlots (i :: l) s = .trap r := by
  simp only [issueSlots, h, ht, List.drop_left]

/-- Operations that are NOP have no effect. -/
theorem issueSlots_nops (hn : ∀ j ∈ l, j = .nop) (hh : s.core.hold = false) (m : List Instr) : issueSlots (l ++ m) s = issueSlots m s := by
  induction l with
  | nil => rfl
  | cons j l ih =>
    obtain rfl := hn j List.mem_cons_self
    rw [List.cons_append, issueSlots_goes (show exec .nop s = .next s from rfl) rfl hh, ih fun j hj => hn j (List.mem_cons_of_mem _ hj)]

/-- NOPs do not hold their bundle. -/
theorem filter_holds_nops (hn : ∀ j ∈ l, j = .nop) (hh : s.core.hold = false) : l.filter s.holds = [] := by
  refine List.filter_eq_nil_iff.mpr fun j hj => ?_
  obtain rfl := hn j hj
  show ¬(s.traps.length == s.traps.length && s.core.hold) = true
  simp [hh]

end

/-- The operations of a bundle that only queue writes read the state before any of them writes (10 R240). -/
theorem issueSlots_queued {s : State} (hh : s.core.hold = false) : ∀ (l : List Instr) (pd : List Pend), (∀ i ∈ l, i.queued.isSome = true) →
    (∀ p ∈ s.core.pend, p ∈ pd) → ∃ pd', issueSlots l (s.withPend pd) = .done (s.withPend pd') ∧
      ∀ p, p ∈ pd' ↔ p ∈ pd ∨ ∃ i ∈ l, ∃ t, exec i s = .next t ∧ p ∈ t.core.pend
  | [], pd, _, _ => ⟨pd, rfl, by simp⟩
  | i :: l, pd, hl, hpd => by
    obtain ⟨acts, hs, hu⟩ := exec_queued_laters (hl i List.mem_cons_self) s pd
    obtain ⟨p1, he1, hp1⟩ := State.laters_spec acts s
    obtain ⟨p2, he2, hp2⟩ := State.laters_spec acts (s.withPend pd)
    have hp2' : ∀ p, p ∈ p2 ↔ p ∈ pd ∨ p ∈ p1 := fun p => by
      rw [hp1, hp2]
      have := hpd p
      tauto
    obtain ⟨pd', hd, hp⟩ := issueSlots_queued hh l p2 (fun j hj => hl j (List.mem_cons_of_mem _ hj)) fun p h => (hp2' p).mpr (.inl (hpd p h))
    have hhold : (s.withPend p2).core.hold = false := hh
    refine ⟨pd', ?_, fun p => ?_⟩
    · rw [issueSlots_goes (hu.trans (congrArg _ he2)) rfl hhold]
      exact hd
    · rw [hp, hp2']
      simp only [List.mem_cons, exists_eq_or_imp, hs, he1, Host.Outcome.next.injEq, exists_eq_left', State.withPend]
      tauto

/-! ### The bundle due -/

section
variable {s : State} {e : Entry} {b : Bundle} (he : s.core.cur.entries[s.core.ent]? = some e) (hp : s.preTrap e = none)
  (hb : decodeBundle s.gang.code.priv s.gang.code.fwCore e.bundle = .ok b)
include he hp hb

theorem State.issueBundle_of_signTrap {r : TrapRec} (hs : s.signTrap b.slots = some r) : s.issueBundle = .trap r := by
  simp only [State.issueBundle, State.entry?, he, hp, State.bundleOf, hb, hs]

theorem State.issueBundle_of_trap (hs : s.signTrap b.slots = none) {r : TrapRec} (h : issueSlots (s.active b.slots) s = .trap r) : s.issueBundle = .trap r := by
  simp only [State.issueBundle, State.entry?, he, hp, State.bundleOf, hb, hs, h]

theorem State.issueBundle_of_held (hs : s.signTrap b.slots = none) {l : List Instr} (h : issueSlots (s.active b.slots) s = .held l) :
    s.issueBundle = .held l := by
  simp only [State.issueBundle, State.entry?, he, hp, State.bundleOf, hb, hs, h]

theorem State.issueBundle_of_done (hs : s.signTrap b.slots = none) {t : State} (h : issueSlots (s.active b.slots) s = .done t) :
    let t' := t.setCore { t.core with skipC := false, issued := (s.core.seg, s.core.ent) }
    s.issueBundle = .done (if t.core.run == .signed then t'.onSign s.core.loops s.core.ent else t'.onIssue s.fcyc) := by
  simp only [State.issueBundle, State.entry?, he, hp, State.bundleOf, hb, hs, h]
  rfl

end

theorem slots_nodup (b : Bundle) : (b.slots.map (·.1)).Nodup := by
  show [Slot.c, .a, .v0, .v1, .m, .x, .f].Nodup
  decide

theorem State.mem_active {s : State} {l : List (Slot × SlotOp)} {i : Instr} :
    i ∈ s.active l ↔ ∃ x ∈ l, (s.guardTrue x.2.guard = true ∧ ¬(x.1 = .c ∧ s.core.skipC = true)) ∧ x.2.op = i := by
  simp only [State.active, List.mem_map, List.mem_filter, Bool.and_eq_true, Bool.not_eq_true', beq_iff_eq, Bool.eq_false_iff, ne_eq, not_and_or, and_assoc]

/-- Where one operation stands with NOPs, it stands with NOPs among those that run. -/
theorem active_one {s : State} {b : Bundle} {sl : Slot} {g : BitVec 5} {i : Instr} (hi : (sl, ⟨g, i⟩) ∈ b.slots)
    (hn : ∀ x ∈ b.slots, x.1 ≠ sl → x.2.op = .nop) (hg : s.guardTrue g = true) (hc : s.core.skipC = false) :
    ∃ l m, s.active b.slots = l ++ i :: m ∧ (∀ j ∈ l, j = .nop) ∧ ∀ j ∈ m, j = .nop := by
  obtain ⟨l, m, hlm⟩ := List.append_of_mem hi
  have hnd := slots_nodup b
  rw [hlm] at hn hnd
  rw [List.map_append, List.map_cons, List.nodup_middle, List.nodup_cons, ← List.map_append] at hnd
  have hnop : ∀ x ∈ l ++ m, x.2.op = .nop := fun x hx =>
    hn x (by simp only [List.mem_append, List.mem_cons] at hx ⊢; tauto) fun h => hnd.1 (List.mem_map.mpr ⟨x, hx, h⟩)
  have hact : s.active (l ++ (sl, ⟨g, i⟩) :: m) = s.active l ++ i :: s.active m := by
    simp [State.active, hg, hc]
  refine ⟨s.active l, s.active m, hlm ▸ hact, fun j hj => ?_, fun j hj => ?_⟩
  · obtain ⟨x, hx, _, rfl⟩ := State.mem_active.mp hj
    exact hnop x (List.mem_append_left _ hx)
  · obtain ⟨x, hx, _, rfl⟩ := State.mem_active.mp hj
    exact hnop x (List.mem_append_right _ hx)

/-! ### Sign-offs (17 R396) -/

section
variable {s : State} {l : List (Slot × SlotOp)}

theorem State.signTrap_none (h : s.isFw = true ∨ ∀ i ∈ s.active l, isSign i = false) : s.signTrap l = none := by
  refine if_pos ?_
  rcases h with h | h
  · rw [h]
    rfl
  · have : (s.active l).any isSign = false := List.any_eq_false.mpr fun i hi => by simp [h i hi]
    rw [this]
    simp

/-- A bundle that signs off, with no operation that makes a unit busy, traps as the sign-off alone does. -/
theorem State.signTrap_alone (hf : s.isFw = false) (hs : ∃ i ∈ s.active l, isSign i = true) (hb : ∀ i ∈ s.active l, busyCause i = none) :
    s.signTrap l = s.signCause.map fun k => s.plainTrap 1 k 0 0 1 := by
  have hany : (s.active l).any isSign = true := List.any_eq_true.mpr hs
  have hby : (s.active l).filterMap busyCause = [] := List.filterMap_eq_nil_iff.mpr hb
  simp only [State.signTrap, State.signCause, hf, hany, hby, Bool.not_true, Bool.or_self, Bool.false_eq_true, if_false, List.contains_nil, Bool.or_false]
  split
  · rfl
  · split <;> rfl

end

theorem isSign_iff {i : Instr} : isSign i = true ↔ i = .sign ∨ i = .halt := by
  constructor
  · intro h
    unfold isSign at h
    split at h
    · exact .inl rfl
    · exact .inr rfl
    · cases h
  · rintro (rfl | rfl) <;> rfl

theorem busyCause_of_isSign {i : Instr} (h : isSign i = true) : busyCause i = none := by
  rcases isSign_iff.mp h with rfl | rfl <;> rfl

theorem isSign_of_queued {i : Instr} (h : i.queued.isSome = true) : isSign i = false := by
  refine Bool.eq_false_iff.mpr fun hs => ?_
  rcases isSign_iff.mp hs with rfl | rfl <;> cases h

/-! ### Ranks in order (10 R240) -/

section
variable {s : State} {r : Nat} {l : List Nat} {e : Entry} (he : (s.focus r).entry? = some e) (hr : e.ready ≤ (s.focus r).gang.now)
include he hr

theorem issueAll_cons_done {t : State} (h : (s.focus r).issueBundle = .done t) : issueAll (r :: l) s = issueAll l t := by
  simp only [issueAll, he, Nat.not_lt.mpr hr, if_false, h]

theorem issueAll_cons_trap {x : TrapRec} (h : (s.focus r).issueBundle = .trap x) :
    issueAll (r :: l) s = ((issueAll l s).1, x :: (issueAll l s).2.1, (issueAll l s).2.2) := by
  simp only [issueAll, he, Nat.not_lt.mpr hr, if_false, h]

theorem issueAll_cons_held {is : List Instr} (h : (s.focus r).issueBundle = .held is) :
    issueAll (r :: l) s = ((issueAll l s).1, (issueAll l s).2.1, is.map (fun i => (r, i)) ++ (issueAll l s).2.2) := by
  simp only [issueAll, he, Nat.not_lt.mpr hr, if_false, h]

end

/-- Settles O2: among NOPs the one operation decides; queued operations read one state; the ranks pass on what issues. -/
theorem bundleRunsDecoded : Obligations.BundleRunsDecoded := by
  unfold Obligations.BundleRunsDecoded
  refine ⟨fun s e b sl g i he hp hb hi hn hg hc hh => ?_, fun s e b he hp hb hh hrun => ?_, fun s r l e he hr => ?_⟩
  · obtain ⟨l, m, hact, hl, hm⟩ := active_one hi hn hg hc
    have hmem : ∀ j, j ∈ s.active b.slots → j = i ∨ j = .nop := fun j hj => by
      rw [hact, List.mem_append, List.mem_cons] at hj
      rcases hj with hj | hj | hj
      · exact .inr (hl j hj)
      · exact .inl hj
      · exact .inr (hm j hj)
    have hsign : (s.isFw = false ∧ (i = .sign ∨ i = .halt)) → s.signTrap b.slots = s.signCause.map fun k => s.plainTrap 1 k 0 0 1 := fun ⟨hf, h⟩ => by
      have hs := isSign_iff.mpr h
      refine State.signTrap_alone hf ⟨i, by rw [hact]; simp, hs⟩ fun j hj => ?_
      rcases hmem j hj with rfl | rfl
      · exact busyCause_of_isSign hs
      · rfl
    refine ⟨fun k hends hk => ?_, fun hends => ?_⟩
    · exact State.issueBundle_of_signTrap he hp hb (by rw [hsign hends, hk]; rfl)
    · have hnone : s.signTrap b.slots = none := by
        by_cases h : s.isFw = false ∧ (i = .sign ∨ i = .halt)
        · rw [hsign h, hends h]
          rfl
        · refine State.signTrap_none ((not_and_or.mp h).imp (by simp) fun h j hj => ?_)
          rcases hmem j hj with rfl | rfl
          · exact Bool.eq_false_iff.mpr fun hs => h (isSign_iff.mp hs)
          · rfl
      refine ⟨fun t hx ht hhold => ?_, fun t r m' hx ht => ?_, fun t hx ht hhold => ?_⟩
      · have hgo : issueSlots (s.active b.slots) s = .done t := by
          rw [hact, issueSlots_nops hl hh, issueSlots_goes hx ht hhold]
          exact (congrArg (issueSlots · t) (List.append_nil m).symm).trans (issueSlots_nops hm hhold [])
        have hdone := State.issueBundle_of_done he hp hb hnone hgo
        refine ⟨fun h => hdone.trans (congrArg _ (if_neg (by simpa using h))), fun h => hdone.trans (congrArg _ (if_pos (by simpa using h)))⟩
      · refine State.issueBundle_of_trap he hp hb hnone ?_
        rw [hact, issueSlots_nops hl hh, issueSlots_traps hx ht]
      · refine State.issueBundle_of_held he hp hb hnone ?_
        rw [hact, issueSlots_nops hl hh, issueSlots_held hx ht hhold, filter_holds_nops hm hh]
  · intro runs
    have hdone : ∀ {t : State}, (∀ i ∈ s.active b.slots, isSign i = false) → issueSlots (s.active b.slots) s = .done t → t.core.run = s.core.run →
        s.issueBundle = .done ((t.setCore { t.core with skipC := false, issued := (s.core.seg, s.core.ent) }).onIssue s.fcyc) := fun hs h hr =>
      (State.issueBundle_of_done he hp hb (State.signTrap_none (.inr hs)) h).trans (congrArg _ (if_neg (by simpa [hr] using hrun)))
    refine ⟨fun h => ?_, fun h => ?_⟩
    · have hnop : ∀ i ∈ s.active b.slots, i = .nop := fun i hi => by
        obtain ⟨x, hx, hr, rfl⟩ := State.mem_active.mp hi
        exact (h x hx).resolve_right fun hno => hno hr
      refine hdone (fun i hi => by rw [hnop i hi]; rfl) ?_ rfl
      exact (congrArg (issueSlots · s) (List.append_nil _).symm).trans (issueSlots_nops hnop hh [])
    · have hq : ∀ i ∈ s.active b.slots, i.queued.isSome = true := fun i hi => by
        obtain ⟨x, hx, hr, rfl⟩ := State.mem_active.mp hi
        exact h x hx hr
      obtain ⟨pd, hgo, hpd⟩ := issueSlots_queued hh (s.active b.slots) s.core.pend hq fun p h => h
      refine ⟨s.withPend pd, hdone (fun i hi => isSign_of_queued (hq i hi)) hgo rfl, rfl, fun p => (hpd p).trans (or_congr_right ?_)⟩
      constructor
      · rintro ⟨i, hi, hx⟩
        obtain ⟨x, hxm, hr, rfl⟩ := State.mem_active.mp hi
        exact ⟨x, hxm, hr, hx⟩
      · rintro ⟨x, hxm, hr, hx⟩
        exact ⟨_, State.mem_active.mpr ⟨x, hxm, hr, rfl⟩, hx⟩
  · exact ⟨fun t h => issueAll_cons_done he hr h, fun x h => issueAll_cons_trap he hr h, fun is h => issueAll_cons_held he hr h⟩

end Sys2Proof.Machine
end

section
/-! PROOF. The events that end waits (11 R260, R261, R270; 14 R354; 18 R421; O44). -/

namespace Sys2Proof.Machine

/-! ### SB.WAIT (14 R354) -/

/-- The memory once the read event of a wait has returned the awaited value: its access is over, with what it has seen. -/
def State.waitedMem (s : State) (w : SbWait) (a : Access) (k : Target) : MemSys :=
  s.mem.updAcc w.acc fun x => { x with done := true, seen := (x.seen ++ s.mem.writersOf (some a.die) k.loc 8).eraseDups }

section
variable {s : State} {w : SbWait} {a : Access} {k : Target} (h : s.sbWaitHit = some (w, a, k))
include h

theorem State.sbWaitEnd_noted :
    Noted { s with core := { s.core with sbw := some { w with out := true } }, mem := s.waitedMem w a k } s.sbWaitEnd := by
  rw [State.sbWaitEnd, h]
  exact noteLines_noted _ _

theorem State.sbWaitEnd_spec : s.sbWaitEnd.core = { s.core with sbw := some { w with out := true } } ∧ s.sbWaitEnd.mem = s.waitedMem w a k ∧
    s.sbWaitEnd.clu = s.clu ∧ s.sbWaitEnd.clus = s.clus := by
  have hn := s.sbWaitEnd_noted h
  unfold Noted at hn
  rw [hn]
  exact ⟨rfl, rfl, rfl, rfl⟩

/-- The first core that waits is the one in focus, and its wait can end. -/
theorem exec_sbWaitSatisfied_self (hw : s.sbWaiters.head? = some s.core.id) : exec .sbWaitSatisfied s = .next s.sbWaitEnd := by
  have hfind : (s.sbWaiters.find? fun c => (s.focusId c).sbWaitHit.isSome) = some s.core.id := by
    obtain ⟨l, hl⟩ := List.head?_eq_some_iff.mp hw
    rw [hl, List.find?_cons_of_pos]
    rw [State.focusId_self rfl, h]
    rfl
  have hat : s.at_ s.core.id State.sbWaitEnd = s.sbWaitEnd := by
    rw [State.at_, State.focusId_self rfl, if_pos rfl]
    exact State.focusId_self (by rw [(s.sbWaitEnd_spec h).1])
  show execSbWaitSatisfied s = _
  simp only [execSbWaitSatisfied, hfind, hat]

end

/-! ### Far accesses (11 R270) -/

section
variable {s : State} {acc : Nat} (hf : s.core.far = some acc)
include hf

theorem exec_farAccessReturn_load {e : REv} {v : List Byte} {x : CoreId} {d : BitVec 5} (he : s.mem.rq.find? (fun e => e.acc == acc) = some e) (hv : e.val = some v)
    (hd : e.dst = .reg x d) : exec .farAccessReturn s = .next { s with
      core := { s.core.setA d (BitVec.ofNat 64 (ofBytes v)) with far := none }
      mem := ({ s.mem with rq := s.mem.rq.filter (·.id != e.id) } : MemSys).settle } := by
  show execFarAccessReturn s = _
  simp only [execFarAccessReturn, hf, he, hv, hd]
  rfl

theorem exec_farAccessReturn_store (hr : ∀ e ∈ s.mem.rq, e.acc ≠ acc) (hw : ∀ e ∈ s.mem.wq, e.acc ≠ acc) :
    exec .farAccessReturn s = .next { s with core := { s.core with far := none } } := by
  have hfind : s.mem.rq.find? (fun e => e.acc == acc) = none := List.find?_eq_none.mpr fun e he => by simpa using hr e he
  have hall : s.mem.wq.all (·.acc != acc) = true := List.all_eq_true.mpr fun e he => by simpa using hw e he
  show execFarAccessReturn s = _
  simp only [execFarAccessReturn, hf, hfind]
  exact congrArg Host.Outcome.next (if_pos hall)

end

theorem event_of_true {ok : Bool} (h : ok = true) (s : State) (k : State → State) : event ok s k = .next (k s) := by
  rw [event, if_pos h]

/-- Settles O44: each wait ends by its own condition, and only the wait changes but for a load's register. -/
theorem waitEventsComplete : Obligations.WaitEventsComplete := by
  unfold Obligations.WaitEventsComplete
  intro s fb ph line since lim acc
  refine ⟨fun hw h => ?_, fun hw h => ?_, fun hw h => ?_, fun e v x d hf he hv hd hwf => ?_, exec_farAccessReturn_store, fun a gen k hw hh hc => ?_, fun hf hr he => ?_⟩
  · show execWaitbSatisfied s = _
    simp only [execWaitbSatisfied, hw]
    exact event_of_true (beq_iff_eq.mpr h) _ _
  · show execWaitaRecall s = _
    simp only [execWaitaRecall, hw]
    exact event_of_true h _ _
  · show execWaitaLimitExpiry s = _
    simp only [execWaitaLimitExpiry, hw]
    exact event_of_true (decide_eq_true h) _ _
  · refine ⟨_, exec_farAccessReturn_load hf he hv hd, rfl, ?_, fun j hj => ?_, rfl, rfl, rfl, fun k y hk => ?_, fun _ _ => rfl, rfl⟩
    · exact (congrArg BitVec.toNat ((rget_rset _ d d _ (by decide)).trans (if_pos rfl))).trans (BitVec.toNat_ofNat ..)
    · exact (rget_rset _ d j _ (by decide)).trans (if_neg hj)
    · exact (MemSys.settle_byteAt (m := { s.mem with rq := s.mem.rq.filter (·.id != e.id) }) hwf k hk y).symm
  · obtain ⟨hcore, hmem, hclu, hclus⟩ := s.sbWaitEnd_spec hh
    refine ⟨_, exec_sbWaitSatisfied_self hh hc, by rw [hcore], ?_, fun d y _ => ?_, fun _ _ => by rw [hclu], hclus.symm⟩
    · rw [hcore]
      exact ⟨rfl, rfl, rfl, rfl, rfl, rfl, rfl, rfl, rfl, rfl, rfl, rfl, rfl, rfl⟩
    · rw [hmem]
      exact MemSys.byteAt_congr rfl rfl rfl d y
  · show execFwHaltWake s = _
    rw [execFwHaltWake]
    exact event_of_true (by simpa [hf, hr] using he) _ _

end Sys2Proof.Machine
end

section
/-! PROOF. Rounding an FP32 value to FP32 (04 R77, R89, R95; O34). -/

namespace Sys2Proof.Machine

/-- A count of whole units rounds to itself, exactly. -/
theorem roundAt_exact (md : RMode) (row col : Nat) (neg : Bool) (m : Nat) (e : Int) : roundAt md row col neg m e false e = (m, false) := by
  simp [roundAt, goesUp]

theorem modeOf_ne_dith (d : Dir) : (modeOf d == RMode.dith) = false := by
  cases d <;> rfl

/-- A value of at most 24 bits whose unit is the format's, within its range, is its own rounding. -/
theorem roundTo_exact {md : RMode} (hmd : (md == .dith) = false) (neg : Bool) {m : Nat} {e : Int} (hm : m ≠ 0)
    (hq : unitOf fp32 (e + (Nat.log2 m : Int)) = e) (ho : fp32.over m e = false) : roundTo fp32 md 0 0 false (.fin neg m e false) = (fp32.pack neg m e, 0) := by
  simp only [roundTo, hm, false_and, if_false, hmd, Bool.false_and, Bool.false_eq_true, hq, roundAt_exact, ho]

/-- Below the greatest finite magnitude nothing overflows. -/
theorem fp32_not_over {m : Nat} {e : Int} (hm : m < 2 ^ 24) (he : e ≤ 104) : fp32.over m e = false := by
  have hpow : 1 ≤ 2 ^ (104 - e).toNat := Nat.one_le_two_pow
  have hle : m ≤ (2 ^ 24 - 1) * 2 ^ (104 - e).toNat := Nat.le_trans (Nat.le_pred_of_lt hm) (Nat.le_mul_of_pos_right _ hpow)
  simp only [FloatFmt.over, diffFin, align, fp32, min_eq_left he, sub_self, Int.toNat_zero, pow_zero, mul_one, Bool.false_eq_true, if_false,
    decide_eq_false_iff_not]
  have : (m : Int) ≤ ((2 ^ 24 - 1) * 2 ^ (104 - e).toNat : Nat) := by exact_mod_cast hle
  omega

/-- The sign's part of an FP32 code. -/
def fp32Sign (neg : Bool) : Nat := if neg then 2 ^ 31 else 0

theorem fp32_pack_subnormal (neg : Bool) {m : Nat} (hm : m < 2 ^ 23) : fp32.pack neg m (-149) = fp32Sign neg + m := by
  by_cases h0 : m = 0
  · simp [FloatFmt.pack, h0, fp32, fp32Sign]
  · have hne : m ≠ 2 ^ 24 := by omega
    simp only [FloatFmt.pack, fp32, h0, hne, if_false, pow_zero, Nat.div_one, Nat.reduceSub, hm, if_true, fp32Sign]

theorem fp32_pack_normal (neg : Bool) {ex man : Nat} (hman : man < 2 ^ 23) (hex : 1 ≤ ex) :
    fp32.pack neg (2 ^ 23 + man) ((ex : Int) - 150) = fp32Sign neg + ex * 2 ^ 23 + man := by
  have h0 : 2 ^ 23 + man ≠ 0 := by omega
  have hne : 2 ^ 23 + man ≠ 2 ^ 24 := by omega
  have hlt : ¬2 ^ 23 + man < 2 ^ 23 := by omega
  have he : ((ex : Int) - 150 + ((0 : Nat) : Int) + ((24 : Nat) : Int) - 1 + ((127 : Nat) : Int)).toNat = ex := by omega
  simp only [FloatFmt.pack, fp32, h0, hne, if_false, pow_zero, Nat.div_one, Nat.reduceSub, hlt, he, Nat.add_sub_cancel_left, fp32Sign]

/-- An FP32 code is its sign, its exponent and its fraction. -/
theorem fp32_parts (x : Nat) (hx : x < 2 ^ 32) : x = fp32Sign (x / 2 ^ 31 % 2 == 1) + x / 2 ^ 23 % 2 ^ 8 * 2 ^ 23 + x % 2 ^ 23 := by
  have hs : fp32Sign (x / 2 ^ 31 % 2 == 1) = x / 2 ^ 31 * 2 ^ 31 := by
    rcases (by omega : x / 2 ^ 31 = 0 ∨ x / 2 ^ 31 = 1) with h | h <;> rw [h] <;> rfl
  rw [hs]
  omega

/-- The value of an FP32 code, by its exponent (04 R77). -/
theorem fp32_decode (x : Nat) : fp32.decode x = if x / 2 ^ 23 % 2 ^ 8 = 0 then .fin (x / 2 ^ 31 % 2 == 1) (x % 2 ^ 23) (-149) false
    else if x / 2 ^ 23 % 2 ^ 8 = 255 then (if x % 2 ^ 23 = 0 then .inf (x / 2 ^ 31 % 2 == 1) else .nan)
    else .fin (x / 2 ^ 31 % 2 == 1) (2 ^ 23 + x % 2 ^ 23) (((x / 2 ^ 23 % 2 ^ 8 : Nat) : Int) - 150) false := by
  have hexp : ((x / 2 ^ 23 % 2 ^ 8 : Nat) : Int) - ((127 : Nat) : Int) - ((24 : Nat) : Int) + 1 = ((x / 2 ^ 23 % 2 ^ 8 : Nat) : Int) - 150 := by omega
  have hf : fp32 ≠ e4m3 ∧ fp32 ≠ e2m1 := by decide
  rw [FloatFmt.decode]
  simp only [hf.1, hf.2, and_false, if_false, ne_eq, not_false_eq_true, and_true]
  show (if _ then _ else if _ then _ else Val.fin _ _ (((x / 2 ^ 23 % 2 ^ 8 : Nat) : Int) - ((127 : Nat) : Int) - ((24 : Nat) : Int) + 1) false) = _
  rw [hexp]
  rfl

/-- The rounding of a value that is not a NaN packs the code it came from. -/
theorem roundTo_decode {x : Nat} (hx : x < 2 ^ 32) {md : RMode} (hmd : (md == .dith) = false) (hn : (fp32.decode x).isNan = false) :
    roundTo fp32 md 0 0 false (fp32.decode x) = (x, 0) := by
  have hparts := fp32_parts x hx
  rw [fp32_decode] at hn ⊢
  generalize (x / 2 ^ 31 % 2 == 1) = neg at *
  have hman : x % 2 ^ 23 < 2 ^ 23 := Nat.mod_lt _ (by decide)
  have hex : x / 2 ^ 23 % 2 ^ 8 < 2 ^ 8 := Nat.mod_lt _ (by decide)
  generalize x % 2 ^ 23 = man at *
  generalize x / 2 ^ 23 % 2 ^ 8 = ex at *
  by_cases h0 : ex = 0
  · rw [if_pos h0]
    by_cases hm : man = 0
    · have hz : roundTo fp32 md 0 0 false (.fin neg man (-149) false) = (fp32Sign neg, 0) := by
        rw [roundTo, if_pos ⟨hm, rfl⟩]
        rfl
      rw [hz, hparts, hm, h0]
      simp
    · have hlog : Nat.log2 man ≤ 22 := Nat.le_of_lt_succ ((Nat.log2_lt hm).mpr hman)
      have hq : unitOf fp32 (-149 + (Nat.log2 man : Int)) = -149 := by
        show max (_ - ((24 : Nat) : Int) + 1) (-149) = -149
        omega
      rw [roundTo_exact hmd neg hm hq (fp32_not_over (by omega) (by omega)), fp32_pack_subnormal neg hman, hparts, h0]
      simp
  · rw [if_neg h0] at hn ⊢
    by_cases h1 : ex = 255
    · rw [if_pos h1] at hn ⊢
      by_cases hm : man = 0
      · have hi : roundTo fp32 md 0 0 false (.inf neg) = (fp32Sign neg + 255 * 2 ^ 23, 0) := rfl
        rw [if_pos hm, hi, hparts, hm, h1]
        simp
      · rw [if_neg hm] at hn
        cases hn
    · rw [if_neg h1]
      have hlog : Nat.log2 (2 ^ 23 + man) = 23 := (Nat.log2_eq_iff (by omega)).mpr ⟨by omega, by omega⟩
      have hq : unitOf fp32 ((ex : Int) - 150 + (Nat.log2 (2 ^ 23 + man) : Int)) = (ex : Int) - 150 := by
        rw [hlog]
        show max (_ - ((24 : Nat) : Int) + 1) (-149) = _
        omega
      rw [roundTo_exact hmd neg (by omega) hq (fp32_not_over (by omega) (by omega)), fp32_pack_normal neg hman (by omega), hparts]

/-- Settles O34: the unit of an FP32 value is its own, so rounding it is exact and packs it again. -/
theorem fp32RoundsToItself : Obligations.Fp32RoundsToItself := by
  intro w d hn
  have h := roundTo_decode w.isLt (modeOf_ne_dith d) hn
  show (BitVec.ofNat 32 (roundTo fp32 (modeOf d) 0 0 false (fp32.decode w.toNat)).1, (roundTo fp32 (modeOf d) 0 0 false (fp32.decode w.toNat)).2) = _
  rw [h, BitVec.ofNat_toNat, BitVec.setWidth_eq]

end Sys2Proof.Machine
end

section
/-! PROOF. The matrix unit's routines, drains and gathers (13 R306-R315; O35, O37). -/

namespace Sys2Proof.Machine

/-- What an accepted routine is (13 R306, R309, R311). -/
structure CallOk (s : State) (r : BitVec 8) (k : BitVec 2) (q : Routine) : Prop where
  room : s.core.mxu.q.length < 2
  args : q.args = s.core.mp
  acc : q.acc = k
  iss : q.iss = s.gang.now
  set1 : q.set1 = s.core.mxu.nextSet
  id : q.id = s.core.mxu.nextId
  ops : cutEnd ((List.range 32).map fun i => s.ucodeAt s.pkgCore r.toNat i) = some q.ops
  ok : routineOk q.ops = true
  start : q.s = match s.core.mxu.q.reverse with | x :: _ => max (s.gang.now + 11) (x.e + 1) | [] => s.gang.now + 11
  last : ∃ c, q.e = q.s + (q.ops.map (uCycles c)).sum - 1

theorem State.callCheck_ok {s : State} {r : BitVec 8} {k : BitVec 2} {q : Routine} (h : s.callCheck r k = .ok q) : CallOk s r k q := by
  unfold State.callCheck at h
  split at h
  · cases h
  · next ops hops =>
    split at h
    · cases h
    · next hok =>
      extract_lets m ent os0 capOf fmtOf ga tr sp bF aF cls macs base st at h
      clear_value cls
      split at h
      · cases h
      · next hlen =>
        split at h
        · cases h
        · split at h
          · cases h
          · extract_lets os typAfter bad fs d at h
            split at h
            · cases h
            · split at h
              · cases h
              · split at h
                · cases h
                · obtain rfl := Except.ok.inj h
                  exact ⟨Nat.lt_of_not_le hlen, rfl, rfl, rfl, rfl, rfl, hops, by simpa using hok, rfl, _, rfl⟩

/-! ### Captures and claims leave the tiles' bytes (03 R61; 02 R45) -/

theorem find_insertTile (h j : Nat) (t : Tile) : ∀ l : List (Nat × Tile),
    ((insertTile h t l).find? (·.1 == j)).map (·.2) = if j = h then some t else (l.find? (·.1 == j)).map (·.2)
  | [] => by
    by_cases hj : h = j
    · simp [insertTile, hj]
    · simp [insertTile, hj, Ne.symm hj]
  | (k, u) :: l => by
    have ih := find_insertTile h j t l
    unfold insertTile
    by_cases hj : j = h
    · subst hj
      rw [if_pos rfl] at ih ⊢
      split
      · simp
      · split
        · simp
        · next hne => rw [List.find?_cons_of_neg (by simpa using Ne.symm hne), ih]
    · rw [if_neg hj] at ih ⊢
      have hj' : ¬h = j := Ne.symm hj
      split
      · simp [hj']
      · split
        · next heq => simp [← heq, hj']
        · by_cases hk : k = j
          · simp [hk]
          · rw [List.find?_cons_of_neg (by simpa using hk), List.find?_cons_of_neg (by simpa using hk), ih]

theorem Cluster.tile?_setTile (c : Cluster) (h j : Nat) (t : Tile) : (c.setTile h t).tile? j = if j = h then some t else c.tile? j :=
  find_insertTile h j t c.tiles

/-- The bytes of a captured tile: of the one in the table, else of the one freed since. -/
theorem Cluster.dataOf_eq (c : Cluster) (k : Cap) : c.dataOf k =
    ((((c.tile? k.h).filter (·.born == k.born)).map (·.data)).or ((c.freed.find? (·.2.born == k.born)).map (·.2.data))).getD [] := by
  unfold Cluster.dataOf Cluster.capTile?
  cases (c.tile? k.h).filter (·.born == k.born) with
  | some t => rfl
  | none => cases c.freed.find? (·.2.born == k.born) <;> rfl

/-- A change of a captured tile that leaves its bytes and its birth leaves what every capture reads. -/
theorem Cluster.dataOf_onCap (c : Cluster) (k j : Cap) (f : Tile → Tile) (hf : ∀ t, (f t).data = t.data ∧ (f t).born = t.born) :
    (c.onCap k f).dataOf j = c.dataOf j := by
  unfold Cluster.onCap
  split
  · next t ht =>
    obtain ⟨ht, -⟩ := Option.filter_eq_some_iff.mp ht
    unfold Cluster.dataOf Cluster.capTile?
    rw [Cluster.tile?_setTile]
    by_cases hj : j.h = k.h
    · rw [if_pos hj, hj, ht, Option.filter_some, Option.filter_some, (hf t).2]
      by_cases hb : (t.born == j.born) = true
      · simp [hb, (hf t).1]
      · simp only [hb, Bool.false_eq_true, if_false]
        rfl
    · rw [if_neg hj]
      rfl
  · have hupd : ∀ x : Nat × Tile, ((if x.2.born == k.born then (x.1, f x.2) else x).2.data, (if x.2.born == k.born then (x.1, f x.2) else x).2.born) =
        (x.2.data, x.2.born) := fun x => by
      split
      · rw [(hf x.2).1, (hf x.2).2]
      · rfl
    have hfind : ((updateAll (fun x => x.2.born == k.born) (fun x => (x.1, f x.2)) c.freed).find? (·.2.born == j.born)).map (·.2.data) =
        (c.freed.find? (·.2.born == j.born)).map (·.2.data) := by
      rw [updateAll, List.find?_map, Option.map_map]
      have hp : ((fun x : Nat × Tile => x.2.born == j.born) ∘ fun x => if x.2.born == k.born then (x.1, f x.2) else x) = fun x => x.2.born == j.born :=
        funext fun x => congrArg (· == j.born) (Prod.ext_iff.mp (hupd x)).2
      rw [hp]
      exact congrArg (Option.map · _) (funext fun x => (Prod.ext_iff.mp (hupd x)).1)
    rw [Cluster.dataOf_eq, Cluster.dataOf_eq]
    exact congrArg (fun x => ((((c.tile? j.h).filter (·.born == j.born)).map (·.data)).or x).getD []) hfind

theorem Cluster.dataOf_capture (c : Cluster) (k j : Cap) : (c.capture k).dataOf j = c.dataOf j :=
  Cluster.dataOf_onCap c k j (fun t => { t with caps := t.caps + 1 }) fun _ => ⟨rfl, rfl⟩

/-- What an issue that takes captures and bank ports may change: the timed actions, of which none goes, and the cluster but for its tiles' bytes. -/
structure Occupies (s t : State) : Prop where
  only : t = { s with core := { s.core with pend := t.core.pend }, clu := t.clu }
  old : ∀ p ∈ s.core.pend, p ∈ t.core.pend
  data : ∀ j, t.clu.dataOf j = s.clu.dataOf j

namespace Occupies

theorem refl (s : State) : Occupies s s := ⟨rfl, fun _ h => h, fun _ => rfl⟩

variable {s t : State} (h : Occupies s t)
include h

theorem gang : t.gang = s.gang := by rw [h.only]
theorem mem : t.mem = s.mem := by rw [h.only]
theorem clus : t.clus = s.clus := by rw [h.only]
theorem core : t.core = { s.core with pend := t.core.pend } := by
  conv_lhs => rw [h.only]

theorem later (dt : Nat) (own : Bool) (a : Act) : Occupies s (t.later dt own a) := by
  refine ⟨?_, fun p hp => (State.mem_later ..).mpr (.inr (h.old p hp)), h.data⟩
  obtain ⟨pd, k, rfl⟩ : ∃ pd k, t = { s with core := { s.core with pend := pd }, clu := k } := ⟨_, _, h.only⟩
  rfl

/-- A change of the cluster in focus that leaves the bytes of its tiles. -/
theorem setClu {k : Cluster} (hk : ∀ j, k.dataOf j = t.clu.dataOf j) : Occupies s (t.setClu k) := by
  refine ⟨?_, h.old, fun j => (hk j).trans (h.data j)⟩
  obtain ⟨pd, k', rfl⟩ : ∃ pd k, t = { s with core := { s.core with pend := pd }, clu := k } := ⟨_, _, h.only⟩
  rfl

theorem capture (c : Cap) : Occupies s (t.setClu (t.clu.capture c)) := h.setClu fun j => Cluster.dataOf_capture _ c j

theorem captures (l : List Cap) : Occupies s (t.setClu (l.foldl Cluster.capture t.clu)) := by
  refine h.setClu fun j => List.foldlRecOn (motive := fun k : Cluster => k.dataOf j = t.clu.dataOf j) l _ rfl fun k hk c _ => ?_
  exact (Cluster.dataOf_capture k c j).trans hk

theorem charge (dt : Nat) (wr : Bool) (c : Cap) (w : Nat) : Occupies s (t.charge dt wr c w) :=
  h.setClu (k := { t.clu with charges := (t.charge dt wr c w).clu.charges }) fun _ => rfl

theorem chargeAll (dt : Nat) (wr : Bool) (c : Cap) (l : List Nat) : Occupies s (t.chargeAll dt wr c l) :=
  List.foldlRecOn (motive := Occupies s) l _ h fun _ hu w _ => hu.charge dt wr c w

/-- The queued action stands in the queue. -/
theorem mem_later (dt : Nat) (own : Bool) (a : Act) : { time := s.gang.now + dt, iss := s.gang.now, own := own, act := a } ∈ (t.later dt own a).core.pend :=
  (State.mem_later ..).mpr (.inl (by rw [h.gang]))

theorem sameRegs : SameRegs s.core t.core := by
  rw [h.core]
  exact ⟨rfl, rfl, rfl, rfl, rfl, rfl, rfl, rfl, rfl, rfl, rfl, rfl, rfl, rfl⟩

theorem sameBytes : SameBytes s t := ⟨fun _ _ _ => by rw [h.mem], fun j _ => by rw [h.data j], h.clus.symm⟩

end Occupies

/-! ### MCALL (13 R306-R311) -/

section
variable {s : State} {r : BitVec 8} {k : BitVec 2}

/-- The matrix unit after a routine is accepted. -/
def State.mxuCalled (s : State) (k : BitVec 2) (q : Routine) : Mxu :=
  let m := s.core.mxu
  { m with q := m.q ++ [q], nextId := m.nextId + 1, nextSet := !m.nextSet,
           chainEnd := if m.chain then max m.chainEnd q.e else m.chainEnd,
           chainAccs := if m.chain then (m.chainAccs ++ (q.ops.filter fun u => decide (5 ≤ uOp u)).map fun u => uAcc u k).eraseDups else m.chainAccs }

theorem exec_mcall_ok {q : Routine} (h : s.callCheck r k = .ok q) : ∃ t, exec (.mcall r k) s = .next t ∧ Occupies (s.setMxu (s.mxuCalled k q)) t ∧
    { time := s.gang.now + (q.e - s.gang.now), iss := s.gang.now, own := true, act := .mxEnd q.id } ∈ t.core.pend := by
  have hcaps := (Occupies.refl (s.setMxu (s.mxuCalled k q))).captures q.caps
  have hfetch := List.foldlRecOn (motive := Occupies (s.setMxu (s.mxuCalled k q))) q.fetches (fun s f => s.charge f.t false f.cap f.word) hcaps
    fun u hu f _ => hu.charge f.t false f.cap f.word
  have hten := List.foldlRecOn (motive := Occupies (s.setMxu (s.mxuCalled k q))) (List.range 10) (fun s t => s.later (t + 1) true (.mxFetch q.id (t + 1))) hfetch
    fun u hu t _ => hu.later (t + 1) true _
  obtain ⟨u, hu, hx⟩ : ∃ u, Occupies (s.setMxu (s.mxuCalled k q)) u ∧ execMcall r k s = .next (u.later (q.e - u.gang.now) true (.mxEnd q.id)) := by
    rw [execMcall, h]
    refine ⟨_, ?_, rfl⟩
    split
    · exact hten.later _ _ _
    · exact hten
  have hmem := hu.mem_later (q.e - u.gang.now) true (.mxEnd q.id)
  rw [hu.gang] at hmem hx
  exact ⟨_, hx, hu.later _ _ _, hmem⟩

theorem exec_mcall_error {cls cause x : Nat} (h : s.callCheck r k = .error (cls, cause, x)) :
    exec (.mcall r k) s = .next (s.trap .m cls cause (if cls = 9 then 0 else x) (if cls = 9 then x else 0)) := by
  show execMcall r k s = _
  rw [execMcall, h]
  rfl

end

/-- Settles O35: an accepted routine is the one its check describes; issue takes captures and bank ports and queues its cycles. -/
theorem matrixCalls : Obligations.MatrixCalls := by
  unfold Obligations.MatrixCalls
  refine fun s r k => ⟨fun q h => ?_, fun cls cause x h => exec_mcall_error h⟩
  have hc := State.callCheck_ok h
  have hstart : s.gang.now + 11 ≤ q.s := by
    rw [hc.start]
    split <;> omega
  refine ⟨hc.room, hc.args, hc.acc, hc.iss, hc.set1, hc.ops, hc.ok, fun hq => ?_, fun x l hq => ?_, ?_, ?_⟩
  · rw [hc.start, hq]
    rfl
  · rw [hc.start, hq, List.reverse_append]
    rfl
  · obtain ⟨c, hlast⟩ := hc.last
    exact ⟨c, by omega⟩
  · obtain ⟨t, hx, ht, hend⟩ := exec_mcall_ok h
    refine ⟨t, hx, by rw [ht.core]; rfl, by rw [ht.core]; rfl, hend, ?_, ⟨ht.sameBytes.glob, ht.sameBytes.tile, ht.sameBytes.others⟩, ht.mem, ht.gang⟩
    rw [ht.core]
    exact ⟨rfl, rfl, rfl, rfl, rfl, rfl, rfl, rfl, rfl, rfl, rfl, rfl, rfl, rfl⟩

/-! ### MDRAIN (13 R314) -/

theorem descBase_eq (w : W64) : descBase w = w.toNat % 2 ^ 32 := by
  simp [descBase, bits]

theorem bits_high_eq_zero (w : W64) : bits w.toNat 63 32 = 0 ↔ w.toNat < 2 ^ 32 := by
  have h := w.isLt
  simp only [bits, Nat.shiftRight_eq_div_pow, Nat.reduceSub, Nat.reduceAdd]
  omega

/-- The format, the descriptor and the base of a drain are allowed. -/
theorem drainFmt_iff {s : State} {mp : BitVec 3} {fmt : BitVec 5} :
    (!s.fmtOk fmt || fmt == 14 || bits (s.getMp mp).toNat 63 32 != 0 || !baseOk fmt (descBase (s.getMp mp))) = false ↔
      s.fmtOk fmt = true ∧ fmt ≠ 14 ∧ (s.getMp mp).toNat < 2 ^ 32 ∧ baseOk fmt (descBase (s.getMp mp)) = true := by
  rw [← bits_high_eq_zero]
  simp only [Bool.or_eq_false_iff, Bool.not_eq_false', beq_eq_false_iff_ne, bne_eq_false_iff_eq, and_assoc]

/-- The words that a drain to base `b` of a tile writes: its elements and their scales. -/
def drainRange (e : TileEnt) (b : Nat) : List Nat := (List.range (drainWords e.fmt)).map (b / epw e.fmt + ·) ++ scaleWords e b (drainWords e.fmt)

section
variable {s : State} {h : BitVec 12} {k : BitVec 2} {mp : BitVec 3} {rm : XRnd} {sat : Bool} {c : Cap}

theorem exec_mdrain_error {cls : Nat} (ht : s.tileCheck h.toNat (some (descBase (s.getMp mp) + 16383)) = .error cls) :
    exec (.mdrain h k mp rm sat) s = .next (s.trap .m cls 0 h.toNat) := by
  show execMdrain h k mp rm sat s = _
  simp only [execMdrain, ht]
  rfl

variable (ht : s.tileCheck h.toNat (some (descBase (s.getMp mp) + 16383)) = .ok c)
include ht

theorem exec_mdrain_format (hf : (!s.fmtOk c.ent.fmt || c.ent.fmt == 14 || bits (s.getMp mp).toNat 63 32 != 0 || !baseOk c.ent.fmt (descBase (s.getMp mp))) = true) :
    exec (.mdrain h k mp rm sat) s = .next (s.trap .m 8 0) := by
  show execMdrain h k mp rm sat s = _
  simp only [execMdrain, ht, hf, if_true]
  rfl

variable (hf : (!s.fmtOk c.ent.fmt || c.ent.fmt == 14 || bits (s.getMp mp).toNat 63 32 != 0 || !baseOk c.ent.fmt (descBase (s.getMp mp))) = false)
include hf

theorem exec_mdrain_range {cause : Nat} (hr : s.rangeTrap h.toNat (drainRange c.ent (descBase (s.getMp mp))) true = some cause) :
    exec (.mdrain h k mp rm sat) s = .next (s.trap .m 9 cause 0 (s.rangeLink h.toNat (drainRange c.ent (descBase (s.getMp mp))) true)) := by
  rw [drainRange] at hr ⊢
  show execMdrain h k mp rm sat s = _
  simp only [execMdrain, ht, hf, Bool.false_eq_true, if_false, hr]
  rfl

variable (hr : s.rangeTrap h.toNat (drainRange c.ent (descBase (s.getMp mp))) true = none)
include hr

theorem exec_mdrain_chain (hc : s.core.mxu.openChain (s.gang.now + 1) (· == k) = true) : exec (.mdrain h k mp rm sat) s = .next (s.trap .m 1 7) := by
  rw [drainRange] at hr
  show execMdrain h k mp rm sat s = _
  simp only [execMdrain, ht, hf, Bool.false_eq_true, if_false, hr, hc, if_true]
  rfl

/-- The matrix unit with a drain more. -/
def State.mxuDrained (s : State) (dr : Drain) : Mxu := { s.core.mxu with drains := s.core.mxu.drains ++ [dr], nextId := s.core.mxu.nextId + 1 }

theorem exec_mdrain_ok (hc : s.core.mxu.openChain (s.gang.now + 1) (· == k) = false) :
    let dr : Drain := { id := s.core.mxu.nextId, iss := s.gang.now, acc := k, cap := c, base := descBase (s.getMp mp), rm := rm, sat := sat }
    ∃ t, exec (.mdrain h k mp rm sat) s = .next t ∧ Occupies (s.setMxu (s.mxuDrained dr)) t ∧
      { time := s.gang.now + 1, iss := s.gang.now, own := true, act := .drainSample dr.id } ∈ t.core.pend := by
  intro dr
  rw [drainRange] at hr
  have hcap := (Occupies.refl (s.setMxu (s.mxuDrained dr))).capture c
  obtain ⟨u, hu, hx⟩ : ∃ u, Occupies (s.setMxu (s.mxuDrained dr)) u ∧ ∃ n, execMdrain h k mp rm sat s =
      .next ((u.later 1 true (.drainSample dr.id)).later n true (.drainEnd dr.id)) := by
    simp only [execMdrain, ht, hf, Bool.false_eq_true, if_false, hr, hc]
    refine ⟨_, ?_, _, rfl⟩
    exact (List.foldlRecOn (motive := Occupies (s.setMxu (s.mxuDrained dr))) _ _ hcap fun u hu i _ => hu.charge _ true c _).chargeAll _ true c _
  obtain ⟨n, hx⟩ := hx
  exact ⟨_, hx, (hu.later _ _ _).later _ _ _, State.mem_later .. |>.mpr (.inr (hu.mem_later 1 true (.drainSample dr.id)))⟩

end

/-! ### MGIDX (13 R315) -/

/-- The offsets that a gather of `n` rows names. -/
def State.gatherOffs (s : State) (mp : BitVec 3) (n : BitVec 8) : List Nat :=
  (List.range n.toNat).map fun i => descBase (s.getMp mp) + s.gatherIdx mp i * descStride (s.getMp mp)

/-- The format of a gather's tile, its base and the offsets are allowed. -/
def State.gatherFmtOk (s : State) (mp : BitVec 3) (n : BitVec 8) (fmt : BitVec 5) : Prop :=
  s.fmtOk fmt = true ∧ (mclass fmt).isSome = true ∧ isBlock fmt = false ∧ baseOk fmt (descBase (s.getMp mp)) = true ∧ ∀ o ∈ s.gatherOffs mp n, o % epw fmt = 0

section
variable {s : State} {mp : BitVec 3} {n : BitVec 8} {c : Cap}

theorem exec_mgidx_error {cls : Nat} (ht : s.tileCheck (descTile (s.getMp mp)) none = .error cls) :
    exec (.mgidx mp n) s = .next (s.trap .m cls 0 (descTile (s.getMp mp))) := by
  show execMgidx mp n s = _
  simp only [execMgidx, ht]
  rfl

variable (ht : s.tileCheck (descTile (s.getMp mp)) none = .ok c)
include ht

theorem exec_mgidx_bounds (hb : ∃ o ∈ s.gatherOffs mp n, c.ent.count < o + epw c.ent.fmt) :
    exec (.mgidx mp n) s = .next (s.trap .m 6 0 (descTile (s.getMp mp))) := by
  have h : (s.gatherOffs mp n).any (fun o => decide (c.ent.count < o + epw c.ent.fmt)) = true := by simpa using hb
  rw [State.gatherOffs] at h
  show execMgidx mp n s = _
  simp only [execMgidx, ht, h, if_true]
  rfl

variable (hb : ∀ o ∈ s.gatherOffs mp n, o + epw c.ent.fmt ≤ c.ent.count)
include hb

/-- Past the bounds: the format, then open ranges, then the gather itself. -/
theorem exec_mgidx_inside : execMgidx mp n s =
    if !s.fmtOk c.ent.fmt || (mclass c.ent.fmt).isNone || isBlock c.ent.fmt || !baseOk c.ent.fmt (descBase (s.getMp mp)) ||
        (s.gatherOffs mp n).any (fun o => o % epw c.ent.fmt != 0) then .next (s.trap .m 8 0)
    else
      let ws := (s.gatherOffs mp n).map (· / epw c.ent.fmt)
      if s.openHit (descTile (s.getMp mp)) ws then .next (s.trap .m 9 0 0 (s.rangeLink (descTile (s.getMp mp)) ws false))
      else
        let m := s.core.mxu
        let g : Gather := { id := m.nextId, cap := c, words := ws, rows := [] }
        let s := s.setMxu { m with gathers := m.gathers ++ [g], nextId := m.nextId + 1 }
        let s := s.setClu (s.clu.capture c)
        let bankOf := fun i => c.ent.bank c.h (nth ws i 0)
        let s := (List.range n.toNat).foldl (fun s i =>
          let q := ((List.range i).filter fun j => bankOf j == bankOf i).length
          (s.later (2 + q / 2) true (.gatherRead g.id i)).charge (2 + q / 2) false c (nth ws i 0)) s
        .next (s.later 10 true (.gatherSet g.id)) := by
  have h : (s.gatherOffs mp n).any (fun o => decide (c.ent.count < o + epw c.ent.fmt)) = false := by simpa using hb
  rw [State.gatherOffs] at h ⊢
  simp only [execMgidx, ht, h, Bool.false_eq_true, if_false]
  rfl

omit ht hb in
theorem State.gatherFmtOk_iff : s.gatherFmtOk mp n c.ent.fmt ↔
    (!s.fmtOk c.ent.fmt || (mclass c.ent.fmt).isNone || isBlock c.ent.fmt || !baseOk c.ent.fmt (descBase (s.getMp mp)) ||
        (s.gatherOffs mp n).any (fun o => o % epw c.ent.fmt != 0)) = false := by
  simp only [State.gatherFmtOk, Bool.or_eq_false_iff, Bool.not_eq_false', List.any_eq_false, bne_iff_ne, ne_eq, not_not, Option.isSome_iff_ne_none,
    Option.isNone_eq_false_iff, and_assoc]

theorem exec_mgidx_format (hf : ¬s.gatherFmtOk mp n c.ent.fmt) : exec (.mgidx mp n) s = .next (s.trap .m 8 0) := by
  rw [State.gatherFmtOk_iff] at hf
  exact (exec_mgidx_inside ht hb).trans (if_pos (eq_true_of_ne_false hf))

variable (hf : s.gatherFmtOk mp n c.ent.fmt)
include hf

theorem exec_mgidx_open (ho : s.openHit (descTile (s.getMp mp)) ((s.gatherOffs mp n).map (· / epw c.ent.fmt)) = true) :
    exec (.mgidx mp n) s = .next (s.trap .m 9 0 0 (s.rangeLink (descTile (s.getMp mp)) ((s.gatherOffs mp n).map (· / epw c.ent.fmt)) false)) := by
  rw [State.gatherFmtOk_iff] at hf
  exact (exec_mgidx_inside ht hb).trans ((if_neg (by rw [hf]; decide)).trans (if_pos ho))

/-- The matrix unit with a gather more. -/
def State.mxuGathered (s : State) (g : Gather) : Mxu := { s.core.mxu with gathers := s.core.mxu.gathers ++ [g], nextId := s.core.mxu.nextId + 1 }

theorem exec_mgidx_ok (ho : s.openHit (descTile (s.getMp mp)) ((s.gatherOffs mp n).map (· / epw c.ent.fmt)) = false) :
    let g : Gather := { id := s.core.mxu.nextId, cap := c, words := (s.gatherOffs mp n).map (· / epw c.ent.fmt), rows := [] }
    ∃ t, exec (.mgidx mp n) s = .next t ∧ Occupies (s.setMxu (s.mxuGathered g)) t ∧
      { time := s.gang.now + 10, iss := s.gang.now, own := true, act := .gatherSet g.id } ∈ t.core.pend := by
  intro g
  rw [State.gatherFmtOk_iff] at hf
  have hcap := (Occupies.refl (s.setMxu (s.mxuGathered g))).capture c
  obtain ⟨u, hu, hx⟩ : ∃ u, Occupies (s.setMxu (s.mxuGathered g)) u ∧ execMgidx mp n s = .next (u.later 10 true (.gatherSet g.id)) := by
    rw [exec_mgidx_inside ht hb, if_neg (by rw [hf]; decide)]
    refine ⟨_, ?_, if_neg (by rw [ho]; decide)⟩
    exact List.foldlRecOn (motive := Occupies (s.setMxu (s.mxuGathered g))) _ _ hcap fun u hu i _ => (hu.later _ true _).charge _ false c _
  exact ⟨_, hx, hu.later _ _ _, hu.mem_later 10 true (.gatherSet g.id)⟩

end

/-- What an issue takes after the matrix unit has changed in its lists alone leaves registers and bytes. -/
theorem Occupies.of_setMxu {s t : State} {m : Mxu} (h : Occupies (s.setMxu m) t) (hacc : s.core.mxu.acc = m.acc) (hlive : s.core.mxu.live = m.live)
    (htyp : s.core.mxu.typ = m.typ) : SameRegs s.core t.core ∧ SameBytes s t ∧ t.mem = s.mem ∧ t.gang = s.gang := by
  refine ⟨?_, ⟨h.sameBytes.glob, h.sameBytes.tile, h.sameBytes.others⟩, h.mem, h.gang⟩
  rw [h.core]
  exact ⟨rfl, rfl, rfl, rfl, rfl, rfl, rfl, hacc, hlive, htyp, rfl, rfl, rfl, rfl⟩

/-- Settles O37: the checks in their order, and past them a drain or a gather joins its list and queues its cycles. -/
theorem matrixDrainsGathers : Obligations.MatrixDrainsGathers := by
  unfold Obligations.MatrixDrainsGathers
  intro s h k mp rm sat n base
  have hbase : base = descBase (s.getMp mp) := (descBase_eq _).symm
  clear_value base
  subst hbase
  refine ⟨fun c ht hf h14 hw hb hr => ⟨fun hc => ?_, fun hc => ?_⟩, fun c ht => ⟨fun hf => ?_, fun cause hf h14 hw hb hr => ?_⟩, fun cls ht => exec_mdrain_error ht,
    fun c ht hoffs hf hm hbl hb ho => ?_, fun c ht => ⟨fun hb => exec_mgidx_bounds ht hb, fun hb hf => exec_mgidx_format ht hb hf,
      fun hb hf ho => exec_mgidx_open ht hb hf ho⟩, fun cls ht => exec_mgidx_error ht⟩
  · obtain ⟨t, hx, ho, hm⟩ := exec_mdrain_ok (rm := rm) (sat := sat) ht (drainFmt_iff.mpr ⟨hf, h14, hw, hb⟩) hr hc
    exact ⟨t, _, hx, by rw [ho.core]; rfl, rfl, hm, ho.of_setMxu rfl rfl rfl⟩
  · exact exec_mdrain_chain ht (drainFmt_iff.mpr ⟨hf, h14, hw, hb⟩) hr hc
  · refine exec_mdrain_format ht (eq_true_of_ne_false fun hno => ?_)
    obtain ⟨hok, h14, hw, hb⟩ := drainFmt_iff.mp hno
    rcases hf with hf | hf | hf | hf
    · exact Bool.false_ne_true (hf.symm.trans hok)
    · exact h14 hf
    · exact absurd hw (Nat.not_lt.mpr hf)
    · exact Bool.false_ne_true (hf.symm.trans hb)
  · exact exec_mdrain_range ht (drainFmt_iff.mpr ⟨hf, h14, hw, hb⟩) hr
  · obtain ⟨t, hx, hoc, hmem⟩ := exec_mgidx_ok ht (fun o h => (hoffs o h).1) ⟨hf, hm, hbl, hb, fun o h => (hoffs o h).2⟩ ho
    exact ⟨t, _, hx, by rw [hoc.core]; rfl, rfl, rfl, hmem, hoc.of_setMxu rfl rfl rfl⟩

end Sys2Proof.Machine
end

section
/-! PROOF. Block transfers and copy schedules are accepted (14 R324, R325, R337-R341, R355, R356; O38). -/

namespace Sys2Proof.Machine

/-! ### Events that an acceptance adds -/

/-- Events and captures are added; the core, the gang but for the stacks that its commands touch, the commands and every byte stay. -/
structure Adds (s t : State) : Prop where
  core : t.core = s.core
  gang : t.gang = { s.gang with ctlsOut := t.gang.ctlsOut }
  clus : t.clus = s.clus
  bytes : t.mem.bytes = s.mem.bytes
  wlog : t.mem.wlog = s.mem.wlog
  farDraw : t.mem.farDraw = s.mem.farDraw
  cmds : t.mem.cmds = s.mem.cmds
  data : ∀ j, t.clu.dataOf j = s.clu.dataOf j

namespace Adds

theorem refl (s : State) : Adds s s := ⟨rfl, rfl, rfl, rfl, rfl, rfl, rfl, fun _ => rfl⟩

theorem of_noted {s t : State} (h : Noted s t) : Adds s t := by
  unfold Noted at h
  rw [h]
  exact ⟨rfl, rfl, rfl, rfl, rfl, rfl, rfl, fun _ => rfl⟩

variable {s t : State} (h : Adds s t)
include h

theorem touch (l : List Nat) : Adds s (t.touch l) :=
  ⟨h.core, by rw [State.touch, State.setGang_gang]; conv_lhs => rw [h.gang], h.clus, h.bytes, h.wlog, h.farDraw, h.cmds, h.data⟩

theorem addRead (acc addr n : Nat) (d : RDst) : Adds s (t.addRead acc addr n d) :=
  ⟨h.core, h.gang, h.clus, h.bytes, h.wlog, h.farDraw, h.cmds, h.data⟩

theorem addWrite (acc : Nat) (src : WSrc) (line : Nat) (lg : Bool) (home : Nat) : Adds s (t.addWrite acc src line lg home) :=
  ⟨h.core, h.gang, h.clus, h.bytes, h.wlog, h.farDraw, h.cmds, h.data⟩

theorem captures (l : List Cap) : Adds s (t.setClu (l.foldl Cluster.capture t.clu)) := by
  refine ⟨h.core, h.gang, h.clus, h.bytes, h.wlog, h.farDraw, h.cmds, fun j => ?_⟩
  refine Eq.trans ?_ (h.data j)
  exact List.foldlRecOn (motive := fun k : Cluster => k.dataOf j = t.clu.dataOf j) l _ rfl fun k hk c _ => (Cluster.dataOf_capture k c j).trans hk

end Adds

/-! ### Acceptance (14 R324) -/

/-- The checks of a command in their order: reserved bits, its ring, its ends. -/
def State.acceptEnds (s : State) (a : BxArgs) : Except Bad Ends :=
  if !a.reservedOk then .error (8, 0) else
    match s.ringOf a.ring with
    | .error b => .error b
    | .ok _ => s.checkEnds a

/-- The state once the access of a command has been issued. -/
structure AccessIssued (s : State) (st : BitVec 4) (u : State) : Prop where
  core : ∃ n, u.core = { s.core.setStream st [s.mem.nextId] with inCnt := n }
  gang : u.gang = s.gang
  clus : u.clus = s.clus
  bytes : u.mem.bytes = s.mem.bytes
  wlog : u.mem.wlog = s.mem.wlog
  farDraw : u.mem.farDraw = s.mem.farDraw
  cmds : u.mem.cmds = s.mem.cmds
  data : ∀ j, u.clu.dataOf j = s.clu.dataOf j

/-- The state once a command is accepted: what it names, its outcome of the checks, its access and its place among the phase's parties. -/
structure Accepted (s : State) (a : BxArgs) (c : Cmd) (t : State) : Prop where
  cmds : t.mem.cmds = s.mem.cmds ++ [c]
  id : c.id = s.mem.nextId
  op : c.op = a.op
  stream : c.stream = a.stream
  fb : c.fb = a.fb
  who : c.who = s.core.id
  empty : c.data = []
  core : ∃ n, t.core = { s.core.setStream a.stream [s.mem.nextId] with inCnt := n }
  gang : t.gang = { s.gang with cmdsOut := s.gang.cmdsOut ++ [s.mem.nextId], ctlsOut := t.gang.ctlsOut }
  clus : t.clus = s.clus
  bytes : t.mem.bytes = s.mem.bytes
  wlog : t.mem.wlog = s.mem.wlog
  farDraw : t.mem.farDraw = s.mem.farDraw
  data : ∀ j, t.clu.dataOf j = s.clu.dataOf j
  fails : ∀ b, s.acceptEnds a = .error b → c.status = 1 ∧ c.fcode = b.1 ∧ c.faddr = b.2
  passes : ∀ e, s.acceptEnds a = .ok e → c.status = 0 ∧ c.src = e.src ∧ c.dst = e.dst

/-- A command that joins the list with its events, and the phase's parties, is accepted. -/
theorem AccessIssued.accepted {s u t : State} {a : BxArgs} (hu : AccessIssued s a.stream u) {c : Cmd}
    (ht : Adds { u with mem := { u.mem with cmds := u.mem.cmds ++ [c] } } t)
    (hc : c.id = s.mem.nextId ∧ c.op = a.op ∧ c.stream = a.stream ∧ c.fb = a.fb ∧ c.who = u.core.id ∧ c.data = [])
    (hf : ∀ b, s.acceptEnds a = .error b → c.status = 1 ∧ c.fcode = b.1 ∧ c.faddr = b.2)
    (hp : ∀ e, s.acceptEnds a = .ok e → c.status = 0 ∧ c.src = e.src ∧ c.dst = e.dst) :
    Accepted s a c (t.setGang { t.gang with cmdsOut := t.gang.cmdsOut ++ [s.mem.nextId] }) := by
  obtain ⟨hid, hop, hst, hfb, hwho, hdata⟩ := hc
  obtain ⟨n, hcore⟩ := hu.core
  have hwho' : c.who = s.core.id := hwho.trans (by rw [hcore]; rfl)
  have hg := ht.gang
  rw [show ({ u with mem := { u.mem with cmds := u.mem.cmds ++ [c] } } : State).gang = s.gang from hu.gang] at hg
  refine ⟨ht.cmds.trans (congrArg (· ++ [c]) hu.cmds), hid, hop, hst, hfb, hwho', hdata, ⟨n, ht.core.trans hcore⟩, ?_, ht.clus.trans hu.clus, ht.bytes.trans hu.bytes,
    ht.wlog.trans hu.wlog, ht.farDraw.trans hu.farDraw, fun j => (ht.data j).trans (hu.data j), hf, hp⟩
  rw [State.setGang_gang, hg]

theorem Noted.keeps {s u : State} (h : Noted s u) : u.core = s.core ∧ u.gang = s.gang ∧ u.clus = s.clus ∧ u.mem = s.mem ∧ u.clu = s.clu := by
  unfold Noted at h
  rw [h]
  exact ⟨rfl, rfl, rfl, rfl, rfl⟩

theorem State.issueAccess_farDraw (s : State) (st : BitVec 4) (done : Bool) :
    (s.issueAccess st done).2.mem.farDraw = s.mem.farDraw ∧ (s.issueAccess st done).2.mem.cmds = s.mem.cmds := ⟨rfl, rfl⟩

theorem State.accept_spec (s : State) (a : BxArgs) : ∃ c, Accepted s a c (s.accept a) := by
  unfold State.accept
  extract_lets ends ring frec s1 n inSeq core cnt s2 nowhere sends
  have hends : s.acceptEnds a = ends := rfl
  obtain ⟨hcore, hgang, hclus, hmem, hclu⟩ : s1.core = s.core ∧ s1.gang = s.gang ∧ s1.clus = s.clus ∧ s1.mem = s.mem ∧ s1.clu = s.clu :=
    (noteLines_noted (s.argLines a) s).keeps
  have hs2 : (∃ n, s2.core = { s.core with inCnt := n }) ∧ s2.gang = s.gang ∧ s2.clus = s.clus ∧ s2.mem = s.mem ∧ s2.clu = s.clu := by
    rw [← hcore]
    by_cases hi : (a.op == opIngest) = true
    · rw [show s2 = _ from if_pos hi]
      exact ⟨⟨_, rfl⟩, hgang, hclus, hmem, hclu⟩
    · rw [show s2 = s1 from if_neg hi]
      exact ⟨⟨_, rfl⟩, hgang, hclus, hmem, hclu⟩
  clear_value s2 ends sends
  obtain ⟨⟨n2, hcore⟩, hgang, hclus, hmem, hclu⟩ := hs2
  have hacc := s2.issueAccess_farDraw a.stream (!sends)
  obtain ⟨hid, -, -, hb, hw, hc, hk, hg, -, hks, -⟩ := s2.issueAccess_spec a.stream (!sends)
  rcases hi : s2.issueAccess a.stream (!sends) with ⟨id, u⟩
  rw [hi] at hid hb hw hc hk hg hks hacc
  rw [hmem] at hid hb hw hc hacc
  obtain rfl : id = s.mem.nextId := hid
  have hu : AccessIssued s a.stream u :=
    ⟨⟨n2, hc.trans (by rw [hcore]; rfl)⟩, hg.trans hgang, hks.trans hclus, hb, hw, hacc.1, hacc.2, fun j => by rw [hk, hclu]⟩
  dsimp -zeta only
  extract_lets c0 party mem0
  cases ends with
  | error b =>
    exact ⟨_, hu.accepted (.refl _) ⟨rfl, rfl, rfl, rfl, rfl, rfl⟩ (fun b' h => by cases hends.symm.trans h; exact ⟨rfl, rfl, rfl⟩)
      fun e h => by cases hends.symm.trans h⟩
  | ok e =>
    dsimp -zeta only
    extract_lets c1 m out c v caps v1 v2 v3
    have h1 : Adds v v1 := (Adds.refl v).captures caps
    have h2 : Adds v v2 := by
      unfold v2
      split
      · exact List.foldlRecOn (motive := Adds v) _ _ (h1.touch _) fun t ht l _ => ht.addRead _ l 64 _
      · exact h1
    have h3 : Adds v v3 := by
      unfold v3
      split
      · split
        · exact h2.addWrite ..
        · split
          · exact h2
          · exact List.foldlRecOn (motive := Adds v) _ _ (h2.touch _) fun t ht l _ => ht.addWrite ..
      · exact h2
    exact ⟨c, hu.accepted h3 ⟨rfl, rfl, rfl, rfl, rfl, rfl⟩ (fun b h => by cases hends.symm.trans h)
      fun e' h => by cases hends.symm.trans h; exact ⟨rfl, rfl, rfl⟩⟩

/-- One more command of the phase counted. -/
def State.counts (s : State) (n : Nat) : State := s.setCore { s.core with cmds := s.core.cmds + n }

theorem counted_trap {n : Nat} {s : State} (h : 256 < s.core.cmds + n) (k : State → Res) : counted n s k = .next (s.trap .x 1 9) := if_pos h
theorem counted_goes {n : Nat} {s : State} (h : s.core.cmds + n ≤ 256) (k : State → Res) : counted n s k = k (s.counts n) := if_neg (by omega)

/-- The checks read no count. -/
theorem State.acceptEnds_counts (s : State) (n : Nat) (a : BxArgs) : (s.counts n).acceptEnds a = s.acceptEnds a := rfl

/-- What an accepted command leaves of registers and bytes. -/
theorem Accepted.same {s t : State} {a : BxArgs} {c : Cmd} (h : Accepted s a c t) : SameRegs s.core t.core ∧ t.core.pend = s.core.pend ∧ SameBytes s t := by
  obtain ⟨n, hcore⟩ := h.core
  refine ⟨?_, by rw [hcore]; rfl, fun d x _ => (MemSys.byteAt_congr h.bytes h.wlog h.farDraw d x).symm, fun j _ => by rw [h.data j], h.clus.symm⟩
  rw [hcore]
  exact ⟨rfl, rfl, rfl, rfl, rfl, rfl, rfl, rfl, rfl, rfl, rfl, rfl, rfl, rfl⟩

/-! ### Which checks a command passes -/

section
variable {s : State} {a : BxArgs}

theorem State.acceptEnds_reserved (h : a.reservedOk = false) : s.acceptEnds a = .error (8, 0) := if_pos (by simp [h])
theorem State.acceptEnds_ring (h : a.reservedOk = true) {b : Bad} (hr : s.ringOf a.ring = .error b) : s.acceptEnds a = .error b := by
  simp only [State.acceptEnds, h, Bool.not_true, Bool.false_eq_true, if_false, hr]
theorem State.acceptEnds_ends (h : a.reservedOk = true) {r : Option Ring} (hr : s.ringOf a.ring = .ok r) : s.acceptEnds a = s.checkEnds a := by
  simp only [State.acceptEnds, h, Bool.not_true, Bool.false_eq_true, if_false, hr]

end

/-- A form that is one counted command. -/
theorem exec_one_command {s : State} {i : Instr} {a : BxArgs} {k : State → Res} (hx : exec i s = counted 1 s k)
    (hk : k (s.counts 1) = .next ((s.counts 1).accept a)) :
    (256 ≤ s.core.cmds → exec i s = .next (s.trap .x 1 9)) ∧
    (s.core.cmds < 256 → ∃ (t : State) (c : Cmd), exec i s = .next t ∧ t.mem.cmds = s.mem.cmds ++ [c] ∧ c.id = s.mem.nextId ∧ c.op = a.op ∧ c.stream = a.stream ∧
      c.fb = a.fb ∧ c.who = s.core.id ∧ c.data = [] ∧ t.core.cmds = s.core.cmds + 1 ∧ t.frontier a.stream = [s.mem.nextId] ∧
      t.gang.cmdsOut = s.gang.cmdsOut ++ [s.mem.nextId] ∧ SameRegs s.core t.core ∧ t.core.pend = s.core.pend ∧ SameBytes s t ∧
      (a.reservedOk = false → c.status = 1 ∧ c.fcode = 8) ∧
      (∀ b, a.reservedOk = true → s.ringOf a.ring = .error b → c.status = 1 ∧ c.fcode = b.1 ∧ c.faddr = b.2) ∧
      (∀ r b, a.reservedOk = true → s.ringOf a.ring = .ok r → s.checkEnds a = .error b → c.status = 1 ∧ c.fcode = b.1 ∧ c.faddr = b.2) ∧
      (∀ r e, a.reservedOk = true → s.ringOf a.ring = .ok r → s.checkEnds a = .ok e → c.status = 0 ∧ c.src = e.src ∧ c.dst = e.dst)) := by
  refine ⟨fun h => hx.trans (counted_trap (by omega) _), fun h => ?_⟩
  obtain ⟨c, hc⟩ := (s.counts 1).accept_spec a
  obtain ⟨n, hcore⟩ := hc.core
  obtain ⟨hregs, hpend, hbytes⟩ := hc.same
  refine ⟨_, c, (hx.trans (counted_goes (by omega) _)).trans hk, hc.cmds, hc.id, hc.op, hc.stream, hc.fb, hc.who, hc.empty, by rw [hcore]; rfl, ?_, by rw [hc.gang]; rfl,
    ⟨hregs.1, hregs.2, hregs.3, hregs.4, hregs.5, hregs.6, hregs.7, hregs.8, hregs.9, hregs.10, hregs.11, hregs.12, hregs.13, hregs.14⟩, hpend,
    ⟨hbytes.1, hbytes.2, hbytes.3⟩, fun hr => ?_, fun b hr hb => ?_, fun r b hr hb he => ?_, fun r e hr hb he => ?_⟩
  · rw [State.frontier, hcore]
    exact (rget_rset _ a.stream a.stream _ (by decide)).trans (if_pos rfl)
  · obtain ⟨h1, h2, -⟩ := hc.fails _ ((s.acceptEnds_counts 1 a).trans (State.acceptEnds_reserved hr))
    exact ⟨h1, h2⟩
  · exact hc.fails _ ((s.acceptEnds_counts 1 a).trans (State.acceptEnds_ring hr hb))
  · exact hc.fails _ ((s.acceptEnds_counts 1 a).trans ((State.acceptEnds_ends hr hb).trans he))
  · exact hc.passes _ ((s.acceptEnds_counts 1 a).trans ((State.acceptEnds_ends hr hb).trans he))

/-! ### Copy schedules (14 R338-R341) -/

theorem sameRegs_trans {x y z : Core} (h : SameRegs x y) (h' : SameRegs y z) : SameRegs x z :=
  ⟨h.c.trans h'.c, h.p.trans h'.p, h.a.trans h'.a, h.v0.trans h'.v0, h.v1.trans h'.v1, h.mp.trans h'.mp, h.xp.trans h'.xp, h.acc.trans h'.acc,
    h.live.trans h'.live, h.typ.trans h'.typ, h.aflags.trans h'.aflags, h.fb.trans h'.fb, h.rote.trans h'.rote, h.rotc.trans h'.rotc⟩

theorem sameRegs_refl (x : Core) : SameRegs x x := ⟨rfl, rfl, rfl, rfl, rfl, rfl, rfl, rfl, rfl, rfl, rfl, rfl, rfl, rfl⟩

theorem sameBytes_trans {s t u : State} (h : SameBytes s t) (h' : SameBytes t u) : SameBytes s u :=
  ⟨fun d x hd => (h.glob d x hd).trans (h'.glob d x hd), fun k x => (h.tile k x).trans (h'.tile k x), h.others.trans h'.others⟩

theorem sameBytes_refl (s : State) : SameBytes s s := ⟨fun _ _ _ => rfl, fun _ _ => rfl, rfl⟩

/-- What the release of `n` entries leaves and counts. -/
structure Released (n : Nat) (s t : State) : Prop where
  cmds : t.mem.cmds.length = s.mem.cmds.length + n
  out : t.gang.cmdsOut.length = s.gang.cmdsOut.length + n
  scheds : t.gang.scheds = s.gang.scheds
  count : t.core.cmds = s.core.cmds
  regs : SameRegs s.core t.core
  bytes : SameBytes s t

theorem Released.accept {n : Nat} {s t : State} (h : Released n s t) (a : BxArgs) : Released (n + 1) s (t.accept a) := by
  obtain ⟨c, hc⟩ := t.accept_spec a
  obtain ⟨m, hcore⟩ := hc.core
  obtain ⟨hregs, -, hbytes⟩ := hc.same
  refine ⟨?_, ?_, ?_, (by rw [hcore]; rfl : (t.accept a).core.cmds = t.core.cmds).trans h.count, sameRegs_trans h.regs hregs, sameBytes_trans h.bytes hbytes⟩
  · rw [hc.cmds, List.length_append, h.cmds]
    rfl
  · rw [hc.gang, List.length_append, h.out]
    rfl
  · rw [hc.gang]
    exact h.scheds

theorem released_foldl (s : State) : ∀ (l : List SchedEnt) (n : Nat) (t : State), Released n s t →
    Released (n + l.length) s (l.foldl (fun s e => s.accept (e.args s.gang.gidx)) t)
  | [], _, _, h => h
  | e :: l, n, t, h => by
    have := released_foldl s l (n + 1) _ (h.accept (e.args t.gang.gidx))
    rwa [List.length_cons, Nat.add_comm l.length, ← Nat.add_assoc]

theorem find_updateAll (n : Nat) (sc : Sched) (f : Nat × Sched → Nat × Sched) (hf : ∀ x, (f x).1 = x.1) (l : List (Nat × Sched))
    (h : l.find? (fun x => x.1 == n) = some (n, sc)) : (updateAll (·.1 == n) f l).find? (fun x => x.1 == n) = some (f (n, sc)) := by
  have hp : ((fun x : Nat × Sched => x.1 == n) ∘ fun x => if (x.1 == n) = true then f x else x) = fun x => x.1 == n := funext fun x => by
    show ((if (x.1 == n) = true then f x else x).1 == n) = _
    split
    · rw [hf]
    · rfl
  rw [updateAll, List.find?_map, hp, h]
  simp

section
variable {s : State} {n : BitVec 2} {sc : Sched} (hs : s.gang.scheds.find? (fun x => x.1 == n.toNat) = some (n.toNat, sc))
include hs

theorem releaseFrom_spec (sc' : Sched) (hn : sc'.nxt = sc.nxt) (l : List SchedEnt) (h : s.core.cmds + l.length + 1 ≤ 256) :
    ∃ t : State, releaseFrom n.toNat sc' l s = .next t ∧
      t.core.cmds = s.core.cmds + l.length + 1 ∧ t.mem.cmds.length = s.mem.cmds.length + l.length ∧ t.gang.cmdsOut.length = s.gang.cmdsOut.length + l.length ∧
      t.gang.scheds.find? (fun x => x.1 == n.toNat) = some (n.toNat, { sc' with nxt := sc.nxt + l.length }) ∧ SameRegs s.core t.core ∧ SameBytes s t := by
  have h0 : Released 0 (s.counts (l.length + 1)) (s.counts (l.length + 1)) := ⟨rfl, rfl, rfl, rfl, sameRegs_refl _, sameBytes_refl _⟩
  have hr := released_foldl _ l 0 _ h0
  rw [Nat.zero_add] at hr
  refine ⟨_, counted_goes (by omega) _, hr.count, hr.cmds, hr.out, ?_, ?_, ?_⟩
  · rw [State.setGang_gang]
    refine (find_updateAll n.toNat sc (fun x => (x.1, { sc' with nxt := sc'.nxt + l.length })) (fun _ => rfl) _ ((congrArg _ hr.scheds).trans hs)).trans ?_
    rw [hn]
  · exact sameRegs_trans (y := (s.counts (l.length + 1)).core) ⟨rfl, rfl, rfl, rfl, rfl, rfl, rfl, rfl, rfl, rfl, rfl, rfl, rfl, rfl⟩ hr.regs
  · exact sameBytes_trans (t := s.counts (l.length + 1)) ⟨fun _ _ _ => rfl, fun _ _ => rfl, rfl⟩ ⟨hr.bytes.1, hr.bytes.2, hr.bytes.3⟩

theorem withSched_own (hr : sc.rank = s.rank) (k : Sched → Res) : withSched n s k = k sc := by
  simp only [withSched, hs, hr, if_true]

theorem withSched_other (hr : sc.rank ≠ s.rank) (k : Sched → Res) : withSched n s k = .next (s.trap .x 1 10) := by
  simp only [withSched, hs, hr, if_false]
  rfl

end

/-- Settles O38: an accepted command joins the list with its access; a schedule releases its entries as such commands. -/
theorem transfersAccepted : Obligations.TransfersAccepted := by
  unfold Obligations.TransfersAccepted
  refine ⟨fun s o w => ?_, fun s n sc hs => ?_⟩
  · intro takes
    have one : ∀ (i : Instr) (a : State → BxArgs), exec i s = counted 1 s (fun s => .next (s.accept (a s))) → a (s.counts 1) = a s → takes i (a s).op (a s).stream (a s).fb (a s) :=
      fun i a hx ha => exec_one_command hx (by rw [ha])
    exact ⟨one (.bxLd o) (·.bxArgs opLd o) rfl rfl, one (.bxSt o) (·.bxArgs opSt o) rfl rfl, one (.bxCp o) (·.bxArgs opCp o) rfl rfl,
      one (.ingest w) (·.winArgs opIngest w) rfl rfl, one (.egress w) (·.winArgs opEgress w) rfl rfl⟩
  · intro one due gives
    refine ⟨fun hr => ⟨fun h => ?_, fun h => ?_, fun h => ?_, fun h => ?_⟩, fun hr => ⟨withSched_other hs hr _, withSched_other hs hr _⟩⟩
    · obtain ⟨t, hx, ht⟩ := releaseFrom_spec hs sc rfl one h
      exact ⟨t, (withSched_own hs hr _).trans hx, ht⟩
    · obtain ⟨t, hx, ht⟩ := releaseFrom_spec hs { sc with ctr := sc.ctr + 1 } rfl due h
      exact ⟨t, (withSched_own hs hr _).trans hx, ht⟩
    · exact (withSched_own hs hr _).trans (counted_trap (by omega) _)
    · exact (withSched_own hs hr _).trans (counted_trap (by omega) _)

end Sys2Proof.Machine
end

section
/-! PROOF. The Sconce operations, waits and replies of the X slot (14 R350-R354, R357; O39, O40). -/

namespace Sys2Proof.Machine

/-! ### Sconce operations (14 R350, R353) -/

/-- What an operation's issue finds before its access: registers and bytes as they were, the reply number counted on, perhaps the count of its inputs too. -/
structure SconceReady (s u : State) : Prop where
  core : ∃ n, u.core = { s.core with cmds := s.core.cmds + 1, rnum := s.core.rnum + 1, inCnt := n }
  gang : u.gang = s.gang
  clus : u.clus = s.clus
  mem : u.mem = s.mem
  clu : u.clu = s.clu

theorem SconceReady.of_noted {s u : State} {l : List Nat} {g : Bool}
    (h : u = if g then ((s.counts 1).setCore { (s.counts 1).core with rnum := s.core.rnum + 1 }).noteLines l
      else (s.counts 1).setCore { (s.counts 1).core with rnum := s.core.rnum + 1 }) : SconceReady s u := by
  have hk : Noted ((s.counts 1).setCore { (s.counts 1).core with rnum := s.core.rnum + 1 }) u := by
    rw [h]
    split
    · exact noteLines_noted _ _
    · exact .refl _
  obtain ⟨hcore, hgang, hclus, hmem, hclu⟩ := hk.keeps
  exact ⟨⟨_, hcore⟩, hgang, hclus, hmem, hclu⟩

/-- The state once the operation's access is its stream's newest and a party of the phase. -/
structure SconceIssued (s : State) (st : BitVec 4) (t : State) : Prop where
  rnum : t.core.rnum = s.core.rnum + 1
  cmds : t.core.cmds = s.core.cmds + 1
  frontier : t.frontier st = [s.mem.nextId]
  out : t.gang.cmdsOut = s.gang.cmdsOut ++ [s.mem.nextId]
  regs : SameRegs s.core t.core
  bytes : SameBytes s t

/-- The access of an operation that is ready, whatever joins the lists of memory with it. -/
theorem SconceReady.issued {s u v : State} (h : SconceReady s u) (st : BitVec 4) {m : MemSys} (hb : m.bytes = u.mem.bytes) (hl : m.wlog = u.mem.wlog)
    (hf : m.farDraw = u.mem.farDraw) {g : Gang} (hg : g.cmdsOut = u.gang.cmdsOut ++ [u.mem.nextId])
    (hv : v.core = (u.issueAccess st true).2.core ∧ v.clu = u.clu ∧ v.clus = u.clus ∧ v.mem = m ∧ v.gang = g) : SconceIssued s st v := by
  obtain ⟨hcore, hclu, hclus, hmem, hgang⟩ := hv
  obtain ⟨n, hu⟩ := h.core
  obtain ⟨-, -, -, -, -, hc, -⟩ := u.issueAccess_spec st true
  rw [hc, hu, h.mem] at hcore
  refine ⟨by rw [hcore]; rfl, by rw [hcore]; rfl, ?_, by rw [hgang, hg, h.gang, h.mem], ?_, fun d x _ => ?_, fun j _ => by rw [hclu, h.clu], (hclus.trans h.clus).symm⟩
  · rw [State.frontier, hcore]
    exact (rget_rset _ st st _ (by decide)).trans (if_pos rfl)
  · rw [hcore]
    exact ⟨rfl, rfl, rfl, rfl, rfl, rfl, rfl, rfl, rfl, rfl, rfl, rfl, rfl, rfl⟩
  · rw [hmem]
    exact (MemSys.byteAt_congr (hb.trans (by rw [h.mem])) (hl.trans (by rw [h.mem])) (hf.trans (by rw [h.mem])) d x).symm

/-- The reserved bits of a region offset (14 R350). -/
theorem bits_from_44 (w : W64) : bits w.toNat 63 44 ≠ 0 ↔ 2 ^ 44 ≤ w.toNat := by
  have h := w.isLt
  simp only [bits, Nat.shiftRight_eq_div_pow, Nat.reduceSub, Nat.reduceAdd]
  omega

section
variable {s : State} {op : BitVec 6} {g np : Bool} {st xa : BitVec 4} {v n : W64} {fb : Option (BitVec 5)} (hc : s.core.cmds < 256)
include hc

theorem issueSconce_target {tg : Target} {obj : Nat} (ht : s.target g xa op = (some tg, obj)) :
    ∃ (t : State) (e : SOp), issueSconce op g np st xa v n fb s = .next t ∧ t.mem.ops = s.mem.ops ++ [e] ∧
      e.id = s.mem.nextId ∧ e.op = op ∧ e.loc = tg.loc ∧ e.home = tg.home ∧ e.v = v ∧ e.n = n ∧ e.np = np ∧ e.fb = fb ∧ e.rnum = s.core.rnum ∧ SconceIssued s st t := by
  have ht' : (s.counts 1).target g xa op = (some tg, obj) := ht
  rw [issueSconce, counted_goes (by omega), ht']
  dsimp -zeta only
  extract_lets rnum c0 s1 s2 k inSeq c2 cnt u v1 o m1 v gang
  have h2 : SconceReady s s2 := .of_noted rfl
  have hu : SconceReady s u := by
    unfold u
    split
    · obtain ⟨n, hn⟩ := h2.core
      exact ⟨⟨_, (congrArg (fun x : Core => { x with inCnt := { cnt with atom := rset k st (inSeq + 1) } }) hn)⟩, h2.gang, h2.clus, h2.mem, h2.clu⟩
    · exact h2
  have hid : (u.issueAccess st true).1 = s.mem.nextId := (u.issueAccess_spec st true).1.trans (by rw [hu.mem])
  obtain ⟨-, -, -, hb, hl, -, hclu, hgang, -, hclus, -⟩ := u.issueAccess_spec st true
  refine ⟨_, o, rfl, ?_, hid, rfl, rfl, rfl, rfl, rfl, rfl, rfl, rfl, ?_⟩
  · show u.mem.ops ++ [o] = _
    rw [hu.mem]
  · refine hu.issued st (m := v.mem) hb hl rfl (g := _) ?_ ⟨rfl, hclu, hclus, rfl, rfl⟩
    exact rfl

theorem issueSconce_fails {obj : Nat} (ht : s.target g xa op = (none, obj)) :
    ∃ (t : State) (r : Rep), issueSconce op g np st xa v n fb s = .next t ∧ t.mem.reps = s.mem.reps ++ [r] ∧ t.mem.ops = s.mem.ops ∧
      r.reply.value = 0 ∧ r.reply.op = op ∧ r.reply.rnum = s.core.rnum ∧ r.fb = fb ∧ r.write = !np ∧ r.fault.isSome = true ∧
      r.reply.fcode = (if g = true ∧ 2 ^ 44 ≤ (s.xpAt (xa.toNat + 1)).toNat then 8 else 12) ∧ SconceIssued s st t := by
  have ht' : (s.counts 1).target g xa op = (none, obj) := ht
  rw [issueSconce, counted_goes (by omega), ht']
  dsimp -zeta only
  extract_lets rnum frec isFormat home c0 s1 u cls r m1 v gang
  have hu : SconceReady s u := .of_noted rfl
  obtain ⟨-, -, -, hb, hl, -, hclu, hgang, -, hclus, -⟩ := u.issueAccess_spec st true
  refine ⟨_, r, rfl, ?_, ?_, rfl, rfl, rfl, rfl, rfl, rfl, ?_, ?_⟩
  · show u.mem.reps ++ [r] = _
    rw [hu.mem]
  · show u.mem.ops = _
    rw [hu.mem]
  · have hf : (isFormat = true) ↔ g = true ∧ 2 ^ 44 ≤ (s.xpAt (xa.toNat + 1)).toNat := by
      rw [← bits_from_44]
      exact Bool.and_eq_true_iff.trans (and_congr_right fun _ => bne_iff_ne)
    show BitVec.ofNat 16 (if isFormat = true then 8 else 12) = _
    by_cases h : isFormat = true
    · rw [if_pos h, if_pos (hf.mp h)]
      rfl
    · rw [if_neg h, if_neg fun h' => h (hf.mpr h')]
      rfl
  · refine hu.issued st (m := v.mem) hb hl rfl (g := _) ?_ ⟨rfl, hclu, hclus, rfl, rfl⟩
    exact rfl

end

/-- Settles O39: the sixteen operations issue alike, each with its opcode and operands. -/
theorem sconceOperationsIssue : Obligations.SconceOperationsIssue := by
  unfold Obligations.SconceOperationsIssue
  intro s o q takes one two
  have issue : ∀ (i : Instr) (op : BitVec 6) (g np : Bool) (st xa : BitVec 4) (v n : W64) (fb : Option (BitVec 5)),
      exec i s = issueSconce op g np st xa v n fb s → takes i op g np st xa v n fb := fun i op g np st xa v n fb hx => by
    refine ⟨fun h => hx.trans (counted_trap (by omega) _), fun h => ⟨fun tg obj ht => ?_, fun obj ht => ?_⟩⟩
    · obtain ⟨t, e, he, hops, hid, hop, hloc, hhome, hv, hn, hnp, hfb, hrnum, hi⟩ := issueSconce_target (np := np) (st := st) (v := v) (n := n) (fb := fb) h ht
      exact ⟨t, e, hx.trans he, hops, hid, hop, hloc, hhome, hv, hn, hnp, hfb, hrnum, hi.rnum, hi.cmds, hi.frontier, hi.out, hi.regs, hi.bytes⟩
    · obtain ⟨t, r, he, hreps, hops, hv, hop, hrnum, hfb, hw, hf, hcode, hi⟩ := issueSconce_fails (np := np) (st := st) (v := v) (n := n) (fb := fb) h ht
      exact ⟨t, r, hx.trans he, hreps, hops, hv, hop, hrnum, hfb, hw, hf, hcode, hi.rnum, hi.frontier, hi.regs, hi.bytes⟩
  exact ⟨issue (.atLd o) _ _ _ _ _ _ _ _ rfl, issue (.atSt q) _ _ _ _ _ _ _ _ rfl, issue (.atAdd q) _ _ _ _ _ _ _ _ rfl, issue (.atAnd q) _ _ _ _ _ _ _ _ rfl,
    issue (.atOr q) _ _ _ _ _ _ _ _ rfl, issue (.atXor q) _ _ _ _ _ _ _ _ rfl, issue (.atMin q) _ _ _ _ _ _ _ _ rfl, issue (.atMax q) _ _ _ _ _ _ _ _ rfl,
    issue (.atMinu q) _ _ _ _ _ _ _ _ rfl, issue (.atMaxu q) _ _ _ _ _ _ _ _ rfl, issue (.atSwap q) _ _ _ _ _ _ _ _ rfl, issue (.atCas q) _ _ _ _ _ _ _ _ rfl,
    issue (.atXadd q) _ _ _ _ _ _ _ _ rfl, issue (.atXrd o) _ _ _ _ _ _ _ _ rfl, issue (.atXclr o) _ _ _ _ _ _ _ _ rfl, issue (.sbArrv o) _ _ _ _ _ _ _ _ rfl⟩

/-! ### SB.WAIT (14 R354) -/

section
variable {s : State} {st xa : BitVec 4} {gen : Bool}

theorem exec_sbWait_lockstep (h : s.lockstep = true) : exec (.sbWait st xa gen) s = .next (s.trap .x 2 1) := if_pos h

variable (hl : s.lockstep = false)
include hl

theorem exec_sbWait_over {w : SbWait} (hw : s.core.sbw = some w) (ho : w.out = true) (hc : s.core.cmds < 256) :
    exec (.sbWait st xa gen) s = .next { s with core := { s.core with cmds := s.core.cmds + 1, sbw := none } } := by
  show execSbWait st xa gen s = _
  simp only [execSbWait, hl, hw, ho, Bool.false_eq_true, if_false, if_true]
  exact counted_goes (by omega) _

/-- A wait that begins, by whether its target passes its checks. -/
theorem exec_sbWait_new (hw : s.core.sbw = none) (hc : s.core.cmds < 256) {c : Ctx} (hm : s.myCtx = some c) :
    exec (.sbWait st xa gen) s = .next (match s.syncTarget c (s.getXp xa) false with
      | none => (s.counts 1).cmdFault s.gang.ctx { (s.counts 1).cmdRec with cls := 12, addr := s.getXp xa }
      | some _ => ((s.issueAccess st false).2.setCore { (s.issueAccess st false).2.core with
          sbw := some { acc := (s.issueAccess st false).1, gen := gen, out := false } }).holdBundle) := by
  show execSbWait st xa gen s = _
  simp only [execSbWait, hl, hw, Bool.false_eq_true, if_false]
  rw [counted_goes (by omega)]
  show (match (s.myCtx.bind fun c => s.syncTarget c (s.getXp xa) false) with
    | none => Host.Outcome.next _
    | some _ => _) = _
  rw [hm, Option.bind_some]
  cases s.syncTarget c (s.getXp xa) false <;> rfl

end

@[simp] theorem State.cmdFault_core (s : State) (c : BitVec 16) (f : FaultRec) : (s.cmdFault c f).core = s.core := by
  simp [State.cmdFault]

/-- The context of a command's fault is faulted. -/
theorem State.cmdFault_faulted (s : State) (c : BitVec 16) (f : FaultRec) : ∀ k ∈ (s.cmdFault c f).pkg.ctxs, k.id = c → k.faulted = true := by
  intro k hk hid
  obtain ⟨x, -, rfl⟩ := List.mem_map.mp hk
  by_cases h : (x.id == c) = true
  · rw [if_pos h]
  · rw [if_neg h] at hid
    exact absurd (beq_iff_eq.mpr hid) h

/-! ### CQ.POP (14 R353) -/

theorem Reply.status_toNat (r : Reply) : r.status.toNat = 2 ^ 63 + r.op.toNat * 2 ^ 50 + r.fcode.toNat * 2 ^ 32 + r.rnum.toNat := by
  have ho := r.op.isLt
  have hf := r.fcode.isLt
  have hr := r.rnum.isLt
  rw [Reply.status, BitVec.toNat_ofNat]
  omega

theorem Reply.status_valid (r : Reply) : r.status.getLsbD 63 = true ∧ r.status.toNat % 2 ^ 32 = r.rnum.toNat % 2 ^ 32 := by
  have ht := r.status_toNat
  have hlt := r.status.isLt
  refine ⟨?_, by omega⟩
  rw [← BitVec.testBit_toNat, Nat.testBit_eq_decide_div_mod_eq]
  exact decide_eq_true (by omega)

/-- Settles O40: a wait is over, begins or faults; `CQ.POP` gives the oldest reply with its status. -/
theorem waitsAndRepliesComplete : Obligations.WaitsAndRepliesComplete := by
  unfold Obligations.WaitsAndRepliesComplete
  intro s st xa k gen d
  refine ⟨fun w hl hw ho hc => exec_sbWait_over hl hw ho hc, fun c tg hl hw hc hm ht => ?_, fun c hl hw hc hm ht => ?_, exec_sbWait_lockstep, fun h => ?_, fun r l h => ?_, rfl⟩
  · have hx := exec_sbWait_new (st := st) (xa := xa) (gen := gen) hl hw hc hm
    rw [ht] at hx
    obtain ⟨hid, hfront, -, hb, hwl, hcore, hclu, -, -, hclus, -⟩ := s.issueAccess_spec st false
    refine ⟨_, hx, ?_, rfl, hfront, ?_, fun d x _ => (MemSys.byteAt_congr hb hwl rfl d x).symm, fun j _ => ?_, hclus.symm⟩
    · show some _ = some _
      rw [hid]
    · show SameRegs s.core (_ : Core)
      simp only [State.holdBundle, State.setCore_core, hcore]
      exact ⟨rfl, rfl, rfl, rfl, rfl, rfl, rfl, rfl, rfl, rfl, rfl, rfl, rfl, rfl⟩
    · exact congrArg (fun k : Cluster => (k.dataOf j).get _) hclu.symm
  · have hx := exec_sbWait_new (st := st) (xa := xa) (gen := gen) hl hw hc hm
    rw [ht] at hx
    refine ⟨_, hx, State.cmdFault_faulted _ _ _, ?_⟩
    rw [State.cmdFault_core]
    exact ⟨rfl, rfl, rfl, rfl, rfl, rfl, rfl, rfl, rfl, rfl, rfl, rfl, rfl, rfl⟩
  · show execCqPop xa s = _
    simp only [execCqPop, h]
  · obtain ⟨h63, hmod⟩ := r.status_valid
    refine ⟨r.status, h63, hmod, ?_⟩
    show execCqPop xa s = _
    simp only [execCqPop, h]
    rfl

end Sys2Proof.Machine
end

section
/-! PROOF. The F slot registers its transfers (15 R360-R366; O42). -/

namespace Sys2Proof.Machine

/-! ### A transfer starts (15 R363) -/

/-- Claims of frame cycles change the list of claims alone. -/
theorem chargeFrames_eq (wr : Bool) (c : Cap) (df wd : Nat → Nat) (l : List Nat) (s : State) :
    ∃ k : Cluster, l.foldl (fun s v => s.chargeFrame (df v) wr c (wd v)) s = s.setClu k ∧ ∀ j, k.dataOf j = s.clu.dataOf j := by
  refine List.foldlRecOn (motive := fun t : State => ∃ k : Cluster, t = s.setClu k ∧ ∀ j, k.dataOf j = s.clu.dataOf j) l _ ⟨s.clu, rfl, fun _ => rfl⟩ ?_
  rintro t ⟨k, rfl, hk⟩ v -
  exact ⟨_, rfl, hk⟩

/-- A transfer registered: its place in the gang, the links' occupancy, the ranges; registers and bytes as they were. -/
structure Starts (s t : State) (k : FKind) (at_ n word : Nat) (cap : Option Cap) (occ : Occ) (held opens : List Range) : Prop where
  xfer : ∃ x : FXfer, t.gang.xfers = s.gang.xfers ++ [x] ∧ x.kind = k ∧ x.start = at_ ∧ x.n = n ∧ x.word = word ∧ x.cap = cap ∧ x.rank = s.rank ∧
    x.matched = false ∧ x.done = false
  occ : t.gang.occ = s.gang.occ ++ occ.map (fun y => (y.1, y.2.1, y.2.2, s.gang.now))
  core : t.core = { s.core with heldR := held, openR := opens }
  data : ∀ j, t.clu.dataOf j = s.clu.dataOf j
  clus : t.clus = s.clus
  mem : t.mem = s.mem

theorem State.startXfer_starts (s : State) (k : FKind) (at_ n word : Nat) (cap : Option Cap) (o : Occ) :
    Starts s (s.startXfer k at_ n word cap o) k at_ n word cap o s.core.heldR s.core.openR := by
  cases cap with
  | none => exact ⟨⟨_, rfl, rfl, rfl, rfl, rfl, rfl, rfl, rfl, rfl⟩, rfl, rfl, fun _ => rfl, rfl, rfl⟩
  | some c => exact ⟨⟨_, rfl, rfl, rfl, rfl, rfl, rfl, rfl, rfl, rfl⟩, rfl, rfl, Cluster.dataOf_capture s.clu c, rfl, rfl⟩

section
variable {s t : State} {k : FKind} {at_ n word : Nat} {cap : Option Cap} {occ : Occ} {held opens : List Range} (h : Starts s t k at_ n word cap occ held opens)
include h

/-- Ranges and claims that a started transfer takes. -/
theorem Starts.ranges (held' opens' : List Range) {c : Core} (hc : c = { t.core with heldR := held', openR := opens' }) :
    Starts s (t.setCore c) k at_ n word cap occ held' opens' :=
  ⟨h.xfer, h.occ, by rw [State.setCore_core, hc, h.core], h.data, h.clus, h.mem⟩

theorem Starts.chargeFrames (wr : Bool) (c : Cap) (df wd : Nat → Nat) (l : List Nat) :
    Starts s (l.foldl (fun s v => s.chargeFrame (df v) wr c (wd v)) t) k at_ n word cap occ held opens := by
  obtain ⟨k', he, hk⟩ := chargeFrames_eq wr c df wd l t
  rw [he]
  exact ⟨h.xfer, h.occ, h.core, fun j => (hk j).trans (h.data j), h.clus, h.mem⟩

/-- All that a started transfer changes and keeps. -/
theorem Starts.spec : ∃ x : FXfer, t.gang.xfers = s.gang.xfers ++ [x] ∧ x.kind = k ∧ x.start = at_ ∧ x.n = n ∧ x.word = word ∧ x.cap = cap ∧ x.rank = s.rank ∧
    x.matched = false ∧ x.done = false ∧ t.gang.occ = s.gang.occ ++ occ.map (fun y => (y.1, y.2.1, y.2.2, s.gang.now)) ∧ t.core.heldR = held ∧
    t.core.openR = opens ∧ SameRegs s.core t.core ∧ t.core.pend = s.core.pend ∧ SameBytes s t ∧ t.mem = s.mem := by
  obtain ⟨x, hx, hk, hs, hn, hw, hc, hr, hm, hd⟩ := h.xfer
  refine ⟨x, hx, hk, hs, hn, hw, hc, hr, hm, hd, h.occ, by rw [h.core], by rw [h.core], ?_, by rw [h.core], ⟨fun d y _ => by rw [h.mem], fun j _ => by rw [h.data], h.clus.symm⟩,
    h.mem⟩
  rw [h.core]
  exact ⟨rfl, rfl, rfl, rfl, rfl, rfl, rfl, rfl, rfl, rfl, rfl, rfl, rfl, rfl⟩

end

/-! ### SEND and MCAST (15 R360, R362) -/

section
variable {s : State} {ls : List (BitVec 4)} {h : BitVec 12} {xp : BitVec 4} {start : BitVec 12}

theorem State.txCheck_reserved (hw : bits (s.getXp xp).toNat 63 44 ≠ 0) : s.txCheck ls h xp start = .error (8, 0, 0, 0) := if_pos hw

variable (hw : bits (s.getXp xp).toNat 63 44 = 0)
include hw

theorem State.txCheck_links (hk : ∃ k ∈ ls, s.gang.linkEnd s.rank k.toNat = none) : s.txCheck ls h xp start = .error (9, 2, 0, (ls.headD 0).toNat) := by
  obtain ⟨k, hk, he⟩ := hk
  refine (if_neg (by simpa using hw)).trans (if_pos ?_)
  exact List.any_eq_true.mpr ⟨_, List.mem_map.mpr ⟨k, hk, rfl⟩, by rw [he]; rfl⟩

variable (hk : ∀ k ∈ ls, s.gang.linkEnd s.rank k.toNat ≠ none)
include hk

theorem State.txCheck_linked : s.txCheck ls h xp start = match s.tileCheckWords h.toNat (xferWord (s.getXp xp) + xferN (s.getXp xp) - 1) with
    | .error cls => .error (cls, 0, h.toNat, 0)
    | .ok c => .ok (c, (ls.map fun l => s.gang.linkEnd s.rank l.toNat).filterMap fun e => e.map fun e =>
        (txEnd e.out, s.gang.sfc.toNat + start.toNat, s.gang.sfc.toNat + start.toNat + xferN (s.getXp xp) - 1)) := by
  refine (if_neg (by simpa using hw)).trans (if_neg ?_)
  simpa [Option.isNone_iff_eq_none] using hk

end

section
variable {s : State} {ls : List (BitVec 4)} {h : BitVec 12} {xp : BitVec 4} {start : BitVec 12}

theorem transmit_error {cls cause x y : Nat} (ht : s.txCheck ls h xp start = .error (cls, cause, x, y)) : transmit ls h xp start s = .next (s.trap .f cls cause x y) := by
  simp only [transmit, ht]
  rfl

variable {c : Cap} {o : Occ} (ht : s.txCheck ls h xp start = .ok (c, o))
include ht

theorem transmit_busy (hb : s.gang.busyNow o s.gang.now = true) : transmit ls h xp start s = .next (s.trap .f 9 3 0 (ls.headD 0).toNat) := by
  simp only [transmit, ht, hb, if_true]
  rfl

variable (hb : s.gang.busyNow o s.gang.now = false)
include hb

theorem transmit_full (hl : 16 ≤ s.core.heldR.length) : transmit ls h xp start s = .next (s.trap .f 9 1 0 (ls.headD 0).toNat) := by
  simp only [transmit, ht, hb, hl, Bool.false_eq_true, if_false, if_true]
  rfl

variable (hl : s.core.heldR.length < 16)
include hl

theorem transmit_open (ho : s.openHit h.toNat ((List.range (xferN (s.getXp xp))).map (xferWord (s.getXp xp) + ·)) = true) :
    transmit ls h xp start s = .next (s.trap .f 9 0 0 (ls.headD 0).toNat) := by
  simp only [transmit, ht, hb, Nat.not_le.mpr hl, ho, Bool.false_eq_true, if_false, if_true]
  rfl

theorem transmit_starts (ho : s.openHit h.toNat ((List.range (xferN (s.getXp xp))).map (xferWord (s.getXp xp) + ·)) = false) :
    ∃ t, transmit ls h xp start s = .next t ∧ Starts s t (.send ls) (s.gang.sfc.toNat + start.toNat) (xferN (s.getXp xp)) (xferWord (s.getXp xp)) (some c) o
      (s.core.heldR ++ [{ tile := h, word := xferWord (s.getXp xp), count := xferN (s.getXp xp), link := (ls.headD 0).toNat }]) s.core.openR := by
  simp only [transmit, ht, hb, Nat.not_le.mpr hl, ho, Bool.false_eq_true, if_false]
  exact ⟨_, rfl, ((s.startXfer_starts _ _ _ _ (some c) o).ranges _ _ rfl).chargeFrames false c _ _ _⟩

end

/-- The links of a transfer that exist, with their far ends. -/
theorem State.txCheck_ok {s : State} {ls : List (BitVec 4)} {h : BitVec 12} {xp : BitVec 4} {start : BitVec 12} (hw : bits (s.getXp xp).toNat 63 44 = 0)
    {ends : List LinkEnd} (he : ls.map (fun l => s.gang.linkEnd s.rank l.toNat) = ends.map some) {c : Cap}
    (ht : s.tileCheckWords h.toNat (xferWord (s.getXp xp) + xferN (s.getXp xp) - 1) = .ok c) :
    s.txCheck ls h xp start = .ok (c, ends.map fun e => (txEnd e.out, s.gang.sfc.toNat + start.toNat, s.gang.sfc.toNat + start.toNat + xferN (s.getXp xp) - 1)) := by
  have hk : ∀ k ∈ ls, s.gang.linkEnd s.rank k.toNat ≠ none := fun k hk hn => by
    have hmem := List.mem_map_of_mem (f := fun l : BitVec 4 => s.gang.linkEnd s.rank l.toNat) hk
    rw [he, hn] at hmem
    obtain ⟨x, -, hx⟩ := List.mem_map.mp hmem
    cases hx
  rw [State.txCheck_linked hw hk, ht, he, List.filterMap_map]
  dsimp only
  exact congrArg (fun o => Except.ok (c, o)) (congrFun List.filterMap_eq_map' ends)

/-! ### RECV (15 R361) -/

section
variable {s : State} {l : BitVec 4} {h : BitVec 12} {xp : BitVec 4} {start : BitVec 12}

theorem exec_recv_error {cls cause x y : Nat} (hx : s.rxCheck l h xp start = .error (cls, cause, x, y)) : exec (.recv l h xp start) s = .next (s.trap .f cls cause x y) := by
  show execRecv l h xp start s = _
  simp only [execRecv, hx]
  rfl

theorem State.rxCheck_reserved (hw : bits (s.getXp xp).toNat 63 44 ≠ 0) : s.rxCheck l h xp start = .error (8, 0, 0, 0) := if_pos hw

variable (hw : bits (s.getXp xp).toNat 63 44 = 0)
include hw

theorem State.rxCheck_linkless (hd : s.gang.inDir s.rank l.toNat = none) : s.rxCheck l h xp start = .error (9, 2, 0, l.toNat) := by
  simp only [State.rxCheck, hw, ne_eq, not_true, if_false, hd]

variable {dir : Nat} (hd : s.gang.inDir s.rank l.toNat = some dir)
include hd

theorem State.rxCheck_tile {cls : Nat} (ht : s.tileCheckWords h.toNat (xferWord (s.getXp xp) + xferN (s.getXp xp) - 1) = .error cls) :
    s.rxCheck l h xp start = .error (cls, 0, h.toNat, 0) := by
  simp only [State.rxCheck, hw, ne_eq, not_true, if_false, hd, ht]

theorem State.rxCheck_ok {c : Cap} (ht : s.tileCheckWords h.toNat (xferWord (s.getXp xp) + xferN (s.getXp xp) - 1) = .ok c) :
    s.rxCheck l h xp start =
      .ok (c, [(rxEnd dir, s.gang.sfc.toNat + start.toNat, s.gang.sfc.toNat + start.toNat + xferN (s.getXp xp) - 1)]) := by
  simp only [State.rxCheck, hw, ne_eq, not_true, if_false, hd, ht]

end

section
variable {s : State} {l : BitVec 4} {h : BitVec 12} {xp : BitVec 4} {start : BitVec 12} {c : Cap} {o : Occ} (hx : s.rxCheck l h xp start = .ok (c, o))
include hx

theorem exec_recv_busy (hb : s.gang.busyNow o s.gang.now = true) : exec (.recv l h xp start) s = .next (s.trap .f 9 3 0 l.toNat) := by
  show execRecv l h xp start s = _
  simp only [execRecv, hx, hb, if_true]
  rfl

variable (hb : s.gang.busyNow o s.gang.now = false)
include hb

theorem exec_recv_full (hl : 16 ≤ s.core.openR.length) : exec (.recv l h xp start) s = .next (s.trap .f 9 1 0 l.toNat) := by
  show execRecv l h xp start s = _
  simp only [execRecv, hx, hb, hl, Bool.false_eq_true, if_false, if_true]
  rfl

variable (hl : s.core.openR.length < 16)
include hl

theorem exec_recv_range {cause : Nat} (hr : s.rangeTrap h.toNat ((List.range (xferN (s.getXp xp))).map (xferWord (s.getXp xp) + ·)) true = some cause) :
    exec (.recv l h xp start) s = .next (s.trap .f 9 cause 0 l.toNat) := by
  show execRecv l h xp start s = _
  simp only [execRecv, hx, hb, Nat.not_le.mpr hl, hr, Bool.false_eq_true, if_false]
  rfl

theorem exec_recv_starts (hr : s.rangeTrap h.toNat ((List.range (xferN (s.getXp xp))).map (xferWord (s.getXp xp) + ·)) true = none) :
    ∃ t, exec (.recv l h xp start) s = .next t ∧ Starts s t (.recv l) (s.gang.sfc.toNat + start.toNat) (xferN (s.getXp xp)) (xferWord (s.getXp xp)) (some c) o
      s.core.heldR (s.core.openR ++ [{ tile := h, word := xferWord (s.getXp xp), count := xferN (s.getXp xp), link := l.toNat }]) := by
  show ∃ t, execRecv l h xp start s = .next t ∧ _
  simp only [execRecv, hx, hb, Nat.not_le.mpr hl, hr, Bool.false_eq_true, if_false]
  exact ⟨_, rfl, ((s.startXfer_starts _ _ _ _ (some c) o).ranges _ _ rfl).chargeFrames true c _ _ _⟩

end

/-! ### RELAY and LCHK (15 R361, R366) -/

section
variable {s : State} {l m : BitVec 4} {xp : BitVec 4} {start : BitVec 12}

theorem exec_relay_error {cls cause x y : Nat} (hx : s.relayCheck l m xp start = .error (cls, cause, x, y)) : exec (.relay l m xp start) s = .next (s.trap .f cls cause x y) := by
  show execRelay l m xp start s = _
  simp only [execRelay, hx]
  rfl

theorem exec_relay_busy {o : Occ} (hx : s.relayCheck l m xp start = .ok o) (hb : s.gang.busyNow o s.gang.now = true) :
    exec (.relay l m xp start) s = .next (s.trap .f 9 3 0 l.toNat) := by
  show execRelay l m xp start s = _
  simp only [execRelay, hx, hb, if_true]
  rfl

theorem exec_relay_starts {o : Occ} (hx : s.relayCheck l m xp start = .ok o) (hb : s.gang.busyNow o s.gang.now = false) :
    ∃ t, exec (.relay l m xp start) s = .next t ∧
      Starts s t (.relay l m) (s.gang.sfc.toNat + start.toNat) (xferN (s.getXp xp)) 0 none o s.core.heldR s.core.openR := by
  show ∃ t, execRelay l m xp start s = .next t ∧ _
  simp only [execRelay, hx, hb, Bool.false_eq_true, if_false]
  exact ⟨_, rfl, s.startXfer_starts _ _ _ _ none o⟩

theorem State.relayCheck_reserved (hw : bits (s.getXp xp).toNat 63 44 ≠ 0 ∨ xferWord (s.getXp xp) ≠ 0) : s.relayCheck l m xp start = .error (8, 0, 0, 0) := if_pos hw

/-- Past the reserved bits, the links decide. -/
theorem State.relayCheck_eq (hw : bits (s.getXp xp).toNat 63 44 = 0) (h0 : xferWord (s.getXp xp) = 0) : s.relayCheck l m xp start =
    match s.gang.inDir s.rank l.toNat, s.gang.linkEnd s.rank m.toNat with
    | none, _ => .error (9, 2, 0, l.toNat)
    | some _, none => .error (9, 2, 0, m.toNat)
    | some dir, some e => .ok [(rxEnd dir, s.gang.sfc.toNat + start.toNat, s.gang.sfc.toNat + start.toNat + xferN (s.getXp xp) - 1),
        (txEnd e.out, s.gang.sfc.toNat + start.toNat + 1, s.gang.sfc.toNat + start.toNat + xferN (s.getXp xp))] :=
  if_neg (by simp [hw, h0])

theorem exec_lchk_error {cls cause x y : Nat} (hx : s.lchkCheck l start = .error (cls, cause, x, y)) : exec (.lchk l start) s = .next (s.trap .f cls cause x y) := by
  show execLchk l start s = _
  simp only [execLchk, hx]
  rfl

theorem exec_lchk_busy {o : Occ} (hx : s.lchkCheck l start = .ok o) (hb : s.gang.busyNow o s.gang.now = true) :
    exec (.lchk l start) s = .next (s.trap .f 9 3 0 l.toNat) := by
  show execLchk l start s = _
  simp only [execLchk, hx, hb, if_true]
  rfl

theorem exec_lchk_starts {o : Occ} (hx : s.lchkCheck l start = .ok o) (hb : s.gang.busyNow o s.gang.now = false) :
    ∃ t, exec (.lchk l start) s = .next t ∧ Starts s t (.lchk l) (s.gang.sfc.toNat + start.toNat) 1 0 none o s.core.heldR s.core.openR := by
  show ∃ t, execLchk l start s = .next t ∧ _
  simp only [execLchk, hx, hb, Bool.false_eq_true, if_false]
  exact ⟨_, rfl, s.startXfer_starts _ _ _ _ none o⟩

theorem State.lchkCheck_ok {dir : Nat} {e : LinkEnd} (hd : s.gang.inDir s.rank l.toNat = some dir) (he : s.gang.linkEnd s.rank l.toNat = some e) :
    s.lchkCheck l start = .ok [(rxEnd dir, s.gang.sfc.toNat + start.toNat, s.gang.sfc.toNat + start.toNat),
      (txEnd e.out, s.gang.sfc.toNat + start.toNat, s.gang.sfc.toNat + start.toNat)] := by
  simp only [State.lchkCheck, hd, he]

theorem State.lchkCheck_linkless (h : s.gang.inDir s.rank l.toNat = none ∨ s.gang.linkEnd s.rank l.toNat = none) :
    s.lchkCheck l start = .error (9, 2, 0, l.toNat) := by
  rcases h with h | h
  · simp only [State.lchkCheck, h]
  · cases hd : s.gang.inDir s.rank l.toNat <;> simp only [State.lchkCheck, h, hd]

end

/-- The two forms of a transmit. -/
theorem exec_transmit {s : State} {i : Instr} {ls : List (BitVec 4)} {l : BitVec 4} {h : BitVec 12} {xp : BitVec 4} {start : BitVec 12}
    (hi : i = .send l h xp start ∧ ls = [l] ∨
      (∃ mask : BitVec 4, i = .mcast mask h xp start ∧ ls = ((List.range 4).filter fun i => mask.getLsbD i).map (BitVec.ofNat 4))) :
    exec i s = transmit ls h xp start s := by
  rcases hi with ⟨rfl, rfl⟩ | ⟨mask, rfl, rfl⟩ <;> rfl

/-- Settles O42: the checks of each form in their order, and past them a transfer that starts. -/
theorem linkTransfersRegister : Obligations.LinkTransfersRegister := by
  unfold Obligations.LinkTransfersRegister
  intro s l m h xp start e e' dir c w n at_ words starts sends
  have hlow : bits w.toNat 63 44 = 0 ↔ w.toNat < 2 ^ 44 := not_iff_not.mp ((bits_from_44 w).trans (by omega))
  have hhigh : bits w.toNat 63 44 ≠ 0 ↔ 2 ^ 44 ≤ w.toNat := bits_from_44 w
  have hstarts : ∀ {i : Instr} {k : FKind} {n word : Nat} {cap : Option Cap} {occ : Occ} {held opens : Bool} {link : Nat},
      (∃ t, exec i s = .next t ∧ Starts s t k at_ n word cap occ
        (if held then s.core.heldR ++ [{ tile := h, word := word, count := n, link := link }] else s.core.heldR)
        (if opens then s.core.openR ++ [{ tile := h, word := word, count := n, link := link }] else s.core.openR)) →
      starts i k n word cap occ held opens link := fun ⟨t, hx, ht⟩ => by
    obtain ⟨x, hx'⟩ := ht.spec
    exact ⟨t, x, hx, hx'⟩
  refine ⟨fun i ls ends hi he hw ht => ?_, fun i ls hi => ⟨fun hw => ?_, fun hw hk => ?_, fun cls hw hk ht => ?_⟩, fun hw hd ht => ?_, fun hw h0 hd hm => ?_,
    fun hd he => ?_, fun hw => ?_, fun hw h0 hd => ?_, fun hw h0 hd hm => ?_, fun hno => ?_, fun hw => ?_, fun hw hd => ?_, fun cls hw hd ht => ?_⟩
  · have hc := State.txCheck_ok (start := start) (hlow.mpr hw) he ht
    refine ⟨fun hb => ?_, fun hb hl => ?_, fun hb hl ho => ?_, fun hb hl ho => ?_⟩ 
    · exact (exec_transmit hi).trans (transmit_busy hc hb)
    · exact (exec_transmit hi).trans (transmit_full hc hb hl)
    · exact (exec_transmit hi).trans (transmit_open hc hb hl ho)
    · obtain ⟨t, hx, hs⟩ := transmit_starts hc hb hl ho
      exact hstarts ⟨t, (exec_transmit hi).trans hx, hs⟩
  · exact (exec_transmit hi).trans (transmit_error (State.txCheck_reserved (hhigh.mpr hw)))
  · exact (exec_transmit hi).trans (transmit_error (State.txCheck_links (hlow.mpr hw) hk))
  · have hc := State.txCheck_linked (h := h) (start := start) (hlow.mpr hw) hk
    rw [ht] at hc
    exact (exec_transmit hi).trans (transmit_error hc)
  · have hc := State.rxCheck_ok (start := start) (hlow.mpr hw) hd ht
    exact ⟨fun hb => exec_recv_busy hc hb, fun hb hl hr => hstarts (exec_recv_starts hc hb hl hr), fun hb hl => exec_recv_full hc hb hl,
      fun cause hb hl hr => exec_recv_range hc hb hl hr⟩
  · have hc := State.relayCheck_eq (l := l) (m := m) (start := start) (hlow.mpr hw) h0
    rw [hd, hm] at hc
    exact ⟨fun hb => exec_relay_busy hc hb, fun hb => hstarts (exec_relay_starts hc hb)⟩
  · have hc := State.lchkCheck_ok (start := start) hd he
    exact ⟨fun hb => exec_lchk_busy hc hb, fun hb => hstarts (exec_lchk_starts hc hb)⟩
  · exact exec_relay_error (State.relayCheck_reserved (hw.imp_left hhigh.mpr))
  · have hc := State.relayCheck_eq (l := l) (m := m) (start := start) (hlow.mpr hw) h0
    rw [hd] at hc
    exact exec_relay_error hc
  · have hc := State.relayCheck_eq (l := l) (m := m) (start := start) (hlow.mpr hw) h0
    rw [hd, hm] at hc
    exact exec_relay_error hc
  · exact exec_lchk_error (State.lchkCheck_linkless hno)
  · exact exec_recv_error (State.rxCheck_reserved (hhigh.mpr hw))
  · exact exec_recv_error (State.rxCheck_linkless (hlow.mpr hw) hd)
  · exact exec_recv_error (State.rxCheck_tile (hlow.mpr hw) hd ht)

end Sys2Proof.Machine
end

section
/-! PROOF. The events of a phase: start, expansion, chains, sign-off, dropped frame cycles, the last arrival, the watchdog (08 R184-R197; O43). -/

namespace Sys2Proof.Machine

/-! ### Steps over the cores of a gang -/

/-- What work on single cores leaves: the gang's own state and memory. -/
structure CoresOnly (s t : State) : Prop where
  gang : t.gang = s.gang
  mem : t.mem = s.mem

theorem CoresOnly.refl (s : State) : CoresOnly s s := ⟨rfl, rfl⟩
theorem CoresOnly.trans {s t u : State} (h : CoresOnly s t) (h' : CoresOnly t u) : CoresOnly s u := ⟨h'.gang.trans h.gang, h'.mem.trans h.mem⟩
theorem CoresOnly.focus (s : State) (r : Nat) : CoresOnly s (s.focus r) :=
  have h := State.focus_rest s r
  ⟨h.2.1, h.1⟩
theorem CoresOnly.ite {p : Prop} [Decidable p] {s t u : State} (ht : CoresOnly s t) (hu : CoresOnly s u) : CoresOnly s (if p then t else u) := by
  split
  · exact ht
  · exact hu
theorem CoresOnly.setCore (s : State) (c : Core) : CoresOnly s (s.setCore c) := ⟨rfl, rfl⟩

theorem CoresOnly.foldl {f : State → Nat → State} (hf : ∀ s r, CoresOnly s (f s r)) (l : List Nat) (s : State) : CoresOnly s (l.foldl f s) :=
  List.foldlRecOn (motive := CoresOnly s) l f (.refl s) fun _ ht r _ => ht.trans (hf _ r)

theorem CoresOnly.forRanks {f : State → State} (hf : ∀ s, CoresOnly s (f s)) (s : State) : CoresOnly s (s.forRanks f) :=
  (CoresOnly.foldl (fun t r => (CoresOnly.focus t r).trans (hf _)) _ s).trans (.focus _ _)

theorem CoresOnly.readCode (s : State) (seg : Nat) : CoresOnly s (s.readCode seg) := ⟨rfl, rfl⟩
theorem CoresOnly.startCore (s : State) : CoresOnly s s.startCore := by
  unfold State.startCore
  extract_lets g seg timed half t c c'
  have ht : CoresOnly s t := .ite (.readCode s seg) (.refl s)
  clear_value t half
  cases half with
  | some h => exact ht.trans (.setCore _ _)
  | none => exact ht.trans (.setCore _ _)

theorem CoresOnly.selectSucc (s : State) : CoresOnly s s.selectSucc :=
  (CoresOnly.ite (.refl s) (.readCode s _)).trans (.setCore _ _)
theorem CoresOnly.endSegment (s : State) (c : Nat) : CoresOnly s (s.endSegment c) := by
  unfold State.endSegment
  extract_lets t
  have ht : CoresOnly s t := .ite (.selectSucc s) (.refl s)
  clear_value t
  split
  · exact ht.trans (.setCore _ _)
  · exact ht.trans (.setCore _ _)
theorem CoresOnly.onIssue (s : State) (f : Nat) : CoresOnly s (s.onIssue f) := by
  unfold State.onIssue
  extract_lets e h t _ go
  have ht : CoresOnly s t := .ite (.selectSucc s) (.refl s)
  clear_value t
  split
  next sq loops adv _ =>
  extract_lets rotc u c
  have hu : CoresOnly s u := ht.trans (.setCore _ _)
  have hgo : ∀ v sq c, CoresOnly v (go v sq c) := fun v sq c => .ite (.endSegment v c) (.setCore _ _)
  clear_value go u
  split
  · split
    · exact (hu.trans (.setCore _ _)).trans (hgo _ _ _)
    · exact hu.trans (hgo _ _ _)
  · exact hu.trans (hgo _ _ _)

/-! ### Start and resumption -/

section
variable {s : State}

theorem exec_phaseStart {t0 : Nat} (hrun : s.gang.run = .start t0) (h : t0 ≤ s.gang.now) : exec .phaseStart s = .next s.beginPhase := by
  show execPhaseStart s = _
  unfold execPhaseStart
  rw [hrun]
  exact event_of_true (decide_eq_true h) _ _

theorem State.beginPhase_resumes (hk : s.gang.kind = 2) :
    s.beginPhase = { s with gang := { s.gang with run := .phase, kind := 1, yieldAt := false, drain := 0 }, dom := { s.dom with atSeal := false } } :=
  if_pos hk

/-- SFC 0 of the next phase: the gang's state is the successor's before its cores begin their chains. -/
theorem State.beginPhase_starts (hk : s.gang.kind ≠ 2) {tb : Bool} {ix : BitVec 8} (hn : s.gang.next = some (tb, ix)) :
    ∃ t : State, s.beginPhase = t.forRanks State.startCore ∧
      t.gang.run = .phase ∧ t.gang.sfc = 0 ∧ t.gang.wd = 0 ∧ t.gang.active = tb ∧ t.gang.desc = ix ∧ t.gang.next = none ∧ t.gang.cmdsOut = [] ∧
      t.gang.xfers = [] ∧ t.gang.now = s.gang.now ∧ t.mem = s.mem := by
  unfold State.beginPhase
  extract_lets g _ u v
  rw [if_neg hk, hn]
  exact ⟨_, rfl, rfl, rfl, rfl, rfl, rfl, rfl, rfl, rfl, rfl, rfl⟩

/-! ### Chains of a core -/

theorem exec_coreArrival (hrun : s.core.run = .signed) (hfar : s.core.far = none) (hdue : s.core.due ≤ s.gang.now) :
    exec .coreArrival s = .next { s with core := { s.core with run := .arrived } } :=
  event_of_true (ok := s.core.run == .signed && s.core.far.isNone && decide (s.core.due ≤ s.gang.now)) (by simp [hrun, hfar, hdue]) s
    fun s => s.setCore { s.core with run := .arrived }

/-- The entries of a half, those of one that is done ready by now. -/
def Half.readyAt (h : Half) (now : Nat) : Half :=
  if h.done ≤ now then { h with entries := h.entries.map fun e => { e with ready := min e.ready now } } else h

theorem Half.readyAt_done (h : Half) (now : Nat) : (h.readyAt now).done = h.done := by
  unfold Half.readyAt
  split <;> rfl
theorem Half.ready_of_readyAt {h : Half} {now : Nat} (hd : (h.readyAt now).done ≤ now) {e : Entry} (he : e ∈ (h.readyAt now).entries) : e.ready ≤ now := by
  rw [Half.readyAt_done] at hd
  rw [Half.readyAt, if_pos hd] at he
  obtain ⟨x, _, rfl⟩ := List.mem_map.mp he
  exact Nat.min_le_right _ _

theorem exec_segmentExpansionDone (h : ∃ h ∈ s.core.idle, h.done ≤ s.gang.now) : exec .segmentExpansionDone s =
    .next (s.setCore { s.core with idle := s.core.idle.map fun h => h.readyAt s.gang.now }) := by
  obtain ⟨x, hx, hd⟩ := h
  have hany : s.core.idle.any (fun h => decide (h.done ≤ s.gang.now)) = true := List.any_eq_true.mpr ⟨x, hx, decide_eq_true hd⟩
  exact event_of_true hany s fun s => s.setCore { s.core with idle := s.core.idle.map fun h => h.readyAt s.gang.now }

/-- The half that a core holds of its slack segment, if any. -/
def State.heldSlack (s : State) : Option Half :=
  if s.core.cur.seg = s.slackSeg ∧ s.core.ent = 0 ∧ s.core.cur.entries ≠ [] then some s.core.cur else s.core.idle.find? (·.seg == s.slackSeg)

theorem State.heldSlack_seg {h : Half} (hh : s.heldSlack = some h) : h.seg = s.slackSeg := by
  unfold State.heldSlack at hh
  split at hh
  next hc =>
    obtain rfl := Option.some.inj hh
    exact hc.1
  next =>
    have hb : (h.seg == s.slackSeg) = true := List.find?_some (p := fun h : Half => h.seg == s.slackSeg) hh
    exact beq_iff_eq.mp hb

theorem CodeObj.expand_some {o : CodeObj} {seg : Nat} {g : Segment} (hg : o.segs[seg]? = some g) (bad : List Nat) (r s0 : Nat) :
    ∃ h, o.expand bad r seg s0 = some h ∧ h.seg = seg := by
  unfold CodeObj.expand
  rw [hg]
  exact ⟨_, rfl, rfl⟩

/-- The slack chain begins with the half held, or with the one expanded now. -/
theorem exec_slackChainStart (hrun : s.core.run = .waitSlack) (hseg : s.slackSeg ≠ noSeg) (hclu : ∀ c ∈ s.cluCores, c.run ≠ .timed ∧ c.far = none)
    (hrec : s.cluReceived = true) {g : Segment} (hg : s.gang.code.segs[s.slackSeg]? = some g) : ∃ t : State, exec .slackChainStart s = .next t ∧
      t.core.run = .slack ∧ t.core.seg = s.slackSeg ∧ t.core.ent = 0 ∧ t.core.loops = [] ∧ t.core.due = s.gang.now + t.core.cur.gap 0 ∧
      SameRegs s.core t.core ∧ t.mem = s.mem := by
  have hall : s.cluCores.all (fun c => c.run != .timed && c.far.isNone) = true := List.all_eq_true.mpr fun c hc => by
    obtain ⟨hr, hf⟩ := hclu c hc
    simp [hr, hf]
  have hok : (s.core.run == .waitSlack && s.slackSeg != noSeg && s.cluCores.all (fun c => c.run != .timed && c.far.isNone) && s.cluReceived) = true := by
    simp [hrun, hseg, hall, hrec]
  rw [show exec .slackChainStart s = execSlackChainStart s from rfl, execSlackChainStart, event_of_true hok]
  refine ⟨_, rfl, ?_⟩
  extract_lets held half u
  have hheld : held = s.heldSlack := rfl
  have hu : u = s.readCode s.slackSeg ∨ u = s := ite_eq_or_eq _ _ _
  clear_value held u
  obtain ⟨h, hhalf, hs⟩ : ∃ h, half = some h ∧ h.seg = s.slackSeg := by
    subst hheld
    dsimp only [half]
    cases hheld : s.heldSlack with
    | some h => exact ⟨h, rfl, State.heldSlack_seg hheld⟩
    | none => exact CodeObj.expand_some hg s.core.codeBad s.rank s.gang.now
  clear_value half
  subst hhalf
  obtain rfl | rfl := hu <;>
    exact ⟨rfl, hs, rfl, rfl, rfl, ⟨rfl, rfl, rfl, rfl, rfl, rfl, rfl, rfl, rfl, rfl, rfl, rfl, rfl, rfl⟩, rfl⟩

/-! ### A core that abstains -/

theorem exec_implicitSignOff (hrun : s.core.run = .waitSlack) (hfar : s.core.far = none) (hseg : s.slackSeg = noSeg) :
    exec .implicitSignOff s = .next s.abstain :=
  event_of_true (ok := s.core.run == .waitSlack && s.core.far.isNone && s.slackSeg == noSeg) (by simp [hrun, hfar, hseg]) s State.abstain

theorem State.at_setCore_pkg (s : State) (who : CoreId) (f : State → Core) : (s.at_ who fun s => s.setCore (f s)).pkg = s.pkg := by
  unfold State.at_
  extract_lets t
  obtain ⟨_, _, hpkg, _⟩ := State.focusId_rest s who
  split
  · exact (State.focusId_rest _ _).2.2.1.trans hpkg
  · rfl

/-- The core in focus as it stood at the last bundle it issued. -/
def State.atIssued (s : State) : State := s.setCore { s.core with seg := s.core.issued.1, ent := s.core.issued.2 }

theorem State.abstain_trap_pkg {c : Nat} (h : s.signCause = some c) : s.abstain.pkg =
    (s.atIssued.takeTrap { who := s.core.id, info := { cls := 1, cause := c, slots := slotBit .c, addr := 0, aux := 0 } }).pkg := by
  unfold State.abstain
  rw [h]
  dsimp only
  rw [State.at_setCore_pkg, State.trap_eq]
  rfl

/-- The record of a sign-off that is not allowed names the bundle issued last. -/
theorem State.abstain_record {c : Nat} (h : s.signCause = some c) (hd : s.die < 5) : ∃ r : FaultRec,
    (s.abstain.pkg.faults[s.die]).getLast? = some r ∧ r.cls = 1 ∧ r.cause = BitVec.ofNat 8 c ∧
      r.segment = BitVec.ofNat 32 s.core.issued.1 ∧ r.entry = BitVec.ofNat 11 s.core.issued.2 := by
  rw [State.abstain_trap_pkg h]
  exact ⟨_, State.takeTrap_record (s := s.atIssued) rfl hd, rfl, rfl, rfl, rfl⟩

/-! ### Dropped frame cycles -/

theorem exec_droppedFrameCycle (h : s.droppable = true) : ∃ t : State, exec .droppedFrameCycle s = .next t ∧ t.gang.sfc = s.gang.sfc + 1 ∧
    t.gang.now = s.gang.now ∧ t.gang.drops = s.gang.drops + 1 ∧ t.mem = s.mem := by
  refine ⟨_, event_of_true h s State.dropFrame, ?_⟩
  have hmis : s.gang.mismatches s.gang.sfc.toNat = [] := by
    unfold State.droppable at h
    simpa using (Bool.and_eq_true_iff.mp h).2
  have hlink : execLinkMatching s = .next (s.setGang (s.gang.matched s.gang.sfc.toNat)) := by
    unfold execLinkMatching
    dsimp only
    rw [hmis]
  unfold State.dropFrame
  rw [hlink]
  extract_lets f u v
  obtain ⟨hgang, hmem⟩ : CoresOnly u v := CoresOnly.foldl (fun t r =>
    (((CoresOnly.focus t r).trans (.setCore _ _)).trans (.onIssue _ f)).trans (.focus _ _)) _ u
  clear_value v
  show (v.gang.nextFrame).sfc = _ ∧ (v.gang.nextFrame).now = _ ∧ v.gang.drops + 1 = _ ∧ v.mem = _
  rw [hgang, hmem]
  exact ⟨rfl, rfl, rfl, rfl⟩

/-! ### The last arrival -/

/-- The state at the boundary, with the successor resolved and requests latched. -/
def State.resolved (s : State) (d : Desc) (next : Option (Bool × BitVec 8)) (latched : Requests) : State :=
  let p := next.getD (s.gang.active, s.gang.desc)
  (s.setGang { s.gang with active := p.1, desc := p.2, next := next, latched := latched, yieldAt := d.yieldP, kind := 1, run := .boundary,
                           haltReq := false }).leftPhase s.gang.gid

/-- The requests that a boundary of descriptor `d` latches (08 R189). -/
def State.latches (s : State) (d : Desc) : Requests :=
  { sealReq := s.gang.req.sealReq && d.sealOk, soft := s.gang.req.soft && d.yieldP, hard := s.gang.req.hard, evict := s.gang.req.evict,
    freq := s.pkg.clk.pending.isSome && d.yieldP, svc := s.pkg.clk.svcReq && !s.pkg.clk.full }

theorem State.resolve_eq {d : Desc} (hcur : s.gang.cur = some d) : s.resolve =
    (s.resolved d (if s.gang.haltReq then none else s.gang.succOf (if s.gangPredicate d then d.succ1 else d.succ0)) (s.latches d)).serve := by
  unfold State.resolve
  dsimp only
  rw [hcur]
  rfl

theorem State.latches_none {d : Desc} (hreq : s.gang.req = Requests.none) (hclk : s.pkg.clk.pending = none) (hsvc : s.pkg.clk.svcReq = false) :
    s.latches d = Requests.none := by
  simp [State.latches, hreq, hclk, hsvc, Requests.none]

theorem exec_lastArrival {d : Desc} (hrun : s.gang.run = .phase) (harr : s.allArrived = true) (hcur : s.gang.cur = some d)
    (hreq : s.gang.req = Requests.none) (hclk : s.pkg.clk.pending = none) (hsvc : s.pkg.clk.svcReq = false) (hhalt : s.gang.haltReq = false) :
    exec .lastArrival s = .next (s.resolved d (s.gang.succOf (if s.gangPredicate d then d.succ1 else d.succ0)) Requests.none).serve := by
  refine (event_of_true (ok := s.gang.run == .phase && s.allArrived) (by simp [hrun, harr]) s State.resolve).trans ?_
  rw [State.resolve_eq hcur, State.latches_none hreq hclk hsvc, hhalt]
  rfl

/-- With nothing latched the successor starts one restart offset later. -/
theorem State.serve_resolved {d : Desc} (hy : d.yieldP = false) (p : Bool × BitVec 8) :
    let t := s.resolved d (some p) Requests.none
    t.serve = t.setGang { t.gang with run := .start (s.gang.now + s.gang.roff) } := by
  unfold State.serve State.resolved
  rw [hy]
  rfl

theorem State.serve_ends {d : Desc} : (s.resolved d none Requests.none).serve = (s.resolved d none Requests.none).endGroup s.gang.gid false := rfl

/-! ### The watchdog -/

theorem exec_phaseHang {d : Desc} (hcur : s.gang.cur = some d) (hrun : s.gang.run = .phase) (hwd : 4 * d.budget.toNat ≤ s.gang.wd) (hd : s.die < 5) :
    ∃ (t : State) (r : FaultRec), exec .phaseHang s = .next t ∧ t.gang.run = .faulted ∧ (t.pkg.faults[s.die]).getLast? = some r ∧
      r.cls = 10 ∧ r.cause = BitVec.ofNat 8 s.hangCause ∧ r.aux = BitVec.ofNat 32 d.budget.toNat ∧ r.disp = 1 := by
  rw [show exec .phaseHang s = execPhaseHang s from rfl, execPhaseHang, hcur]
  dsimp only
  rw [event_of_true (by simp [hrun, hwd])]
  refine ⟨_, s.faultRec { cls := 10, cause := s.hangCause, slots := 0, addr := s.gang.wd % 2 ^ 34, aux := d.budget.toNat } 1, rfl, ?_, ?_, rfl, rfl, rfl, rfl⟩
  · simp [State.faultCtx, Gang.alive, hrun]
  · simp only [State.faultCtx, State.mapGangs_pkg, State.fwEvent_pkg, State.notifyFault_pkg]
    exact State.logFault_getLast _ _ hd

end

/-- Settles O43: each event's continuation is followed on what its statement speaks of; work on the cores leaves the gang and the memory. -/
theorem phaseEventsComplete : Obligations.PhaseEventsComplete := by
  intro s t0 tb ix d
  refine ⟨?_, ?_, ?_, ?_, ?_, ?_, ?_, ?_, ?_, ?_⟩
  · intro hrun hnow hkind
    rw [exec_phaseStart hrun hnow, State.beginPhase_resumes hkind]
  · intro hrun hnow hkind hnext
    obtain ⟨u, hu, hrun', hsfc, hwd, hactive, hdesc, hnext', hcmds, hxfers, hnow', hmem'⟩ := State.beginPhase_starts hkind hnext
    obtain ⟨hgang, hmem⟩ := CoresOnly.forRanks CoresOnly.startCore u
    refine ⟨_, by rw [exec_phaseStart hrun hnow, hu], ?_⟩
    rw [hgang, hmem]
    exact ⟨hrun', hsfc, hwd, hactive, hdesc, hnext', hcmds, hxfers, hnow', hmem'⟩
  · exact exec_coreArrival
  · intro h
    refine ⟨_, exec_segmentExpansionDone h, List.length_map _, ?_, ⟨rfl, rfl, rfl, rfl, rfl, rfl, rfl, rfl, rfl, rfl, rfl, rfl, rfl, rfl⟩, rfl⟩
    intro x hx hd e he
    obtain ⟨y, _, rfl⟩ := List.mem_map.mp hx
    exact Half.ready_of_readyAt hd he
  · rintro hrun hseg hclu hrec ⟨g, hg⟩
    exact exec_slackChainStart hrun hseg hclu hrec hg
  · intro hrun hfar hseg hcause
    have h : s.abstain = s.signOff none := by
      unfold State.abstain
      rw [hcause]
    obtain ⟨hsigned, _, hbit, _, _, hregs, hgang, hmem, _, _⟩ := State.signOff_spec s none
    exact ⟨_, by rw [exec_implicitSignOff hrun hfar hseg, h], hsigned, hbit, hregs, hmem, hgang⟩
  · intro c hrun hfar hseg hcause _ hd
    obtain ⟨r, hr⟩ := State.abstain_record hcause hd
    exact ⟨_, r, hd, exec_implicitSignOff hrun hfar hseg, hr⟩
  · exact exec_droppedFrameCycle
  · intro hrun harr hcur hreq hclk hsvc hy hhalt
    have h := exec_lastArrival hrun harr hcur hreq hclk hsvc hhalt
    constructor
    · intro p hp
      rw [hp, State.serve_resolved hy] at h
      exact ⟨_, h, rfl, rfl, rfl, rfl, rfl, rfl⟩
    · intro hp
      rw [hp] at h
      exact ⟨_, h, rfl, rfl, rfl⟩
  · intro hcur hrun hwd hd
    obtain ⟨t, r, h⟩ := exec_phaseHang hcur hrun hwd hd
    exact ⟨t, r, hd, h⟩

end Sys2Proof.Machine
end

section
/-! PROOF. Write events, deliveries and read events of global memory (06 R124-R129; 17 R406; O45). -/

namespace Sys2Proof.Machine

/-! ### What accounting leaves -/

/-- Clocks, undo entries, seal requests, notes and records are kept aside: the cores, tiles and gangs stay, and of memory its bytes, the log of writes and
everything under way. -/
structure Aside (s t : State) : Prop where
  core : t.core = s.core
  clu : t.clu = s.clu
  gang : t.gang = s.gang
  cores : t.cores = s.cores
  clus : t.clus = s.clus
  gangs : t.gangs = s.gangs
  bytes : t.mem.bytes = s.mem.bytes
  wlog : t.mem.wlog = s.mem.wlog
  farDraw : t.mem.farDraw = s.mem.farDraw
  wq : t.mem.wq = s.mem.wq
  rq : t.mem.rq = s.mem.rq
  cmds : t.mem.cmds = s.mem.cmds
  ops : t.mem.ops = s.mem.ops
  reps : t.mem.reps = s.mem.reps
  owned : t.mem.owned = s.mem.owned
  poison : t.mem.poison = s.mem.poison
  peers : t.pkg.peers = s.pkg.peers

namespace Aside

theorem refl (s : State) : Aside s s := ⟨rfl, rfl, rfl, rfl, rfl, rfl, rfl, rfl, rfl, rfl, rfl, rfl, rfl, rfl, rfl, rfl, rfl⟩

theorem trans {s t u : State} (h : Aside s t) (h' : Aside t u) : Aside s u :=
  ⟨h'.core.trans h.core, h'.clu.trans h.clu, h'.gang.trans h.gang, h'.cores.trans h.cores, h'.clus.trans h.clus, h'.gangs.trans h.gangs,
    h'.bytes.trans h.bytes, h'.wlog.trans h.wlog, h'.farDraw.trans h.farDraw, h'.wq.trans h.wq, h'.rq.trans h.rq, h'.cmds.trans h.cmds,
    h'.ops.trans h.ops, h'.reps.trans h.reps, h'.owned.trans h.owned, h'.poison.trans h.poison, h'.peers.trans h.peers⟩

theorem ite {p : Prop} [Decidable p] {s t u : State} (ht : Aside s t) (hu : Aside s u) : Aside s (if p then t else u) := by
  split
  · exact ht
  · exact hu

theorem foldl {α : Type} {f : State → α → State} (hf : ∀ s x, Aside s (f s x)) (l : List α) (s : State) : Aside s (l.foldl f s) :=
  List.foldlRecOn (motive := Aside s) l f (.refl s) fun _ ht x _ => ht.trans (hf _ x)

theorem of_noted {s t : State} (h : Noted s t) : Aside s t := by
  unfold Noted at h
  rw [h]
  constructor <;> rfl

theorem requestSeal (s : State) : Aside s s.requestSeal := by
  unfold State.requestSeal
  split <;> constructor <;> rfl

theorem pressSeal (s : State) : Aside s s.pressSeal := .ite (.requestSeal s) (.refl s)

theorem setCtx (s : State) (c : Ctx) : Aside s (s.setCtx c) := by constructor <;> rfl

theorem stamp (s : State) (acc : Nat) : Aside s (s.stamp acc) := by
  unfold State.stamp
  split
  · exact .refl s
  · split
    · exact .refl s
    · split
      · extract_lets k v _ m t
        have ht : Aside s t := by constructor <;> rfl
        exact .ite (ht.trans (.requestSeal t)) ht
      · exact .refl s

/-- Undo entries, variables' bits and tags are all that changes of memory. -/
theorem of_logs {s : State} {m : MemSys} (h : ∃ un sb tg sw, m = { s.mem with undo := un, syncBit := sb, tags := tg, swept := sw }) :
    Aside s { s with mem := m } := by
  obtain ⟨un, sb, tg, sw, rfl⟩ := h
  constructor <;> rfl

theorem logOld (s : State) (a : Nat) (ri : W32) : Aside s (s.logOld a ri) := by
  unfold State.logOld
  split
  · exact .refl s
  · extract_lets k sram at_ u _ m m' t
    obtain ⟨un, hm⟩ : ∃ un, m = { s.mem with undo := un } := by
      dsimp only [m]
      split
      · exact ⟨_, rfl⟩
      · exact ⟨s.mem.undo, rfl⟩
    have ht : Aside s t := of_logs (by
      show ∃ un sb tg sw, (if sram then { m with syncBit := _ } else m.setTag _ _ _ : MemSys) = _
      rw [hm]
      split
      · exact ⟨un, _, _, _, rfl⟩
      · exact ⟨un, _, _, _, rfl⟩)
    exact .ite (ht.trans (.requestSeal t)) ht

theorem pokeByte (s : State) (c : Host.Cell) : Aside s (s.pokeByte c) := by
  unfold State.pokeByte
  split
  · split
    · constructor <;> rfl
    · exact .refl s
  · constructor <;> rfl
  · split
    · constructor <;> rfl
    · exact .refl s

theorem foldl_logOld (l : List Nat) (ri : W32) (s : State) : Aside s (l.foldl (fun s a => s.logOld a ri) s) := foldl (fun s a => .logOld s a ri) l s
theorem foldl_pokeByte (l : List Host.Cell) (s : State) : Aside s (l.foldl State.pokeByte s) := foldl .pokeByte l s

theorem soon (s : State) (a : Auto) : Aside s (s.soon a) := by constructor <;> rfl

end Aside

theorem Aside.sameBytes {s t : State} (h : Aside s t) : SameBytes s t :=
  ⟨fun d x _ => (MemSys.byteAt_congr h.bytes h.wlog h.farDraw d x).symm, fun k x => by rw [h.clu], h.clus.symm⟩

theorem Aside.sameRegs {s t : State} (h : Aside s t) : SameRegs s.core t.core := by
  rw [h.core]
  exact sameRegs_refl _

/-- What is found by a property that an update keeps is found updated. -/
theorem find?_updateAll {α : Type} {p : α → Bool} {f : α → α} (hf : ∀ x, p x = true → p (f x) = true) (l : List α) :
    (updateAll p f l).find? p = (l.find? p).map f := by
  induction l with
  | nil => rfl
  | cons x l ih =>
    have h : updateAll p f (x :: l) = (if p x then f x else x) :: updateAll p f l := rfl
    rw [h]
    cases hx : p x with
    | true => rw [List.find?_cons_of_pos hx, if_pos rfl, List.find?_cons_of_pos (hf x hx)]; rfl
    | false => rw [if_neg Bool.false_ne_true, List.find?_cons_of_neg (by simp [hx]), List.find?_cons_of_neg (by simp [hx]), ih]

/-! ### Reads of a log with one more write -/

theorem MemSys.hear_clk (m : MemSys) (acc d : Nat) : ∃ c, m.hear acc d = { m with clk := c } := by
  unfold MemSys.hear
  split
  · exact ⟨_, rfl⟩
  · split
    · dsimp only
      split <;> exact ⟨_, rfl⟩
    · exact ⟨_, rfl⟩

section
variable {m n : MemSys} {e : WEv} {d : Option Nat} {a : Nat} (hl : n.wlog = m.wlog ++ [e])
include hl

/-- The newest write is read where it is seen. -/
theorem MemSys.byteAt_append_seen (hs : e.sees d a = true) (hfar : isFar a = false) {c : Host.Cell} (hc : e.cells.find? (fun c => c.1 == a) = some c) :
    n.byteAt d a = c.2 := by
  rw [MemSys.byteAt_eq, hfar, hl, List.reverse_append, List.reverse_singleton, List.singleton_append, List.find?_cons_of_pos hs]
  simp [pickByte, hc]

/-- Where it is not, reads are as before. -/
theorem MemSys.byteAt_append_unseen (hb : n.bytes = m.bytes) (hf : n.farDraw = m.farDraw) (hs : e.sees d a = false) : n.byteAt d a = m.byteAt d a := by
  rw [MemSys.byteAt_eq, MemSys.byteAt_eq, hf, hb, hl, List.reverse_append, List.reverse_singleton, List.singleton_append,
    List.find?_cons_of_neg (by rw [hs]; exact Bool.false_ne_true)]

end

theorem WEv.sees_false_of_cells {e : WEv} {a : Nat} (h : ∀ x ∈ e.cells, x.1 ≠ a) (d : Option Nat) : e.sees d a = false := by
  unfold WEv.sees
  rw [List.any_eq_false.mpr fun x hx => by simpa using h x hx, Bool.and_false]

/-- A cell whose address no other one names is the one found. -/
theorem find_cell_of_nodup {l : List Host.Cell} (h : (l.map (·.1)).Nodup) {x : Host.Cell} (hx : x ∈ l) : l.find? (fun c => c.1 == x.1) = some x := by
  obtain ⟨y, hy⟩ := Option.isSome_iff_exists.mp (List.find?_isSome.mpr ⟨x, hx, beq_self_eq_true x.1⟩ : (l.find? (fun c => c.1 == x.1)).isSome = true)
  have hyx : y.1 = x.1 := by simpa using List.find?_some hy
  rw [hy, List.inj_on_of_nodup_map h (List.mem_of_find?_eq_some hy) hx hyx]

/-! ### A write is applied at its home (06 R124) -/

/-- The place in coherence order that a write event takes as it is applied. -/
def WEv.applied (e : WEv) (cells : List Host.Cell) : WEv := { e with src := .bytes cells, delivered := [e.home] }

/-- One more event in the log of writes; the bytes and everything under way stay. -/
structure Appends (m n : MemSys) (e : WEv) : Prop where
  wlog : n.wlog = m.wlog ++ [e]
  bytes : n.bytes = m.bytes
  farDraw : n.farDraw = m.farDraw
  wq : n.wq = m.wq
  rq : n.rq = m.rq
  cmds : n.cmds = m.cmds
  ops : n.ops = m.ops
  reps : n.reps = m.reps

namespace Appends

variable {m n : MemSys} {e : WEv} (h : Appends m n e)
include h

theorem settle_wf (hwf : m.bytes.wf = true) : n.settle.bytes.wf = true := MemSys.settle_wf (by rw [h.bytes]; exact hwf)

theorem settle_seen (hwf : m.bytes.wf = true) {d : Option Nat} (hd : ∀ k, d = some k → k < 5) {a : Nat} (hs : e.sees d a = true) (hfar : isFar a = false)
    {c : Host.Cell} (hc : e.cells.find? (fun c => c.1 == a) = some c) : n.settle.byteAt d a = c.2 := by
  rw [MemSys.settle_byteAt (by rw [h.bytes]; exact hwf) d hd]
  exact MemSys.byteAt_append_seen h.wlog hs hfar hc

theorem settle_unseen (hwf : m.bytes.wf = true) {d : Option Nat} (hd : ∀ k, d = some k → k < 5) {a : Nat} (hs : e.sees d a = false) :
    n.settle.byteAt d a = m.byteAt d a := by
  rw [MemSys.settle_byteAt (by rw [h.bytes]; exact hwf) d hd]
  exact MemSys.byteAt_append_unseen h.wlog h.bytes h.farDraw hs

end Appends

/-- Beside clocks, undo entries and poison, an applied write is one more event of the log, which settles. -/
theorem State.applyWrite_spec (s : State) {e : WEv} (hh : e.home < 8) (cells : List Host.Cell) (ri : W32) : ∃ (u : State) (m : MemSys), Aside s u ∧
    s.applyWrite e cells ri = { u with mem := m.settle } ∧ Appends s.mem m (e.applied cells) := by
  unfold State.applyWrite
  rw [if_neg (Nat.not_le.mpr hh)]
  extract_lets u v whole m m'
  have hu : Aside s u := .stamp s e.acc
  have hv : Aside u v := .ite (.ite (.refl u) (.foldl_logOld _ ri u)) (.foldl_pokeByte cells u)
  have hs := hu.trans hv
  obtain ⟨clk, hm⟩ : ∃ c, m = { v.mem with clk := c } := v.mem.hear_clk e.acc e.home
  refine ⟨v, m', hs, rfl, ?_⟩
  dsimp only [m']
  rw [hm]
  exact ⟨congrArg (· ++ [e.applied cells]) hs.wlog, hs.bytes, hs.farDraw, hs.wq, hs.rq, hs.cmds, hs.ops, hs.reps⟩

section
variable {s : State} (hwf : memWf s) {e : WEv} (hh : e.home < 5) (cells : List Host.Cell) (ri : W32)
include hwf hh

theorem State.applyWrite_wf : memWf (s.applyWrite e cells ri) := by
  obtain ⟨u, m, _, h, happ⟩ := s.applyWrite_spec (Nat.lt_trans hh (by decide)) cells ri
  rw [h]
  exact happ.settle_wf hwf

theorem State.applyWrite_seen {d : Option Nat} (hd : d = none ∨ d = some e.home) (hnd : (cells.map (·.1)).Nodup) {x : Host.Cell} (hx : x ∈ cells)
    (hfar : isFar x.1 = false) : (s.applyWrite e cells ri).mem.byteAt d x.1 = x.2 := by
  obtain ⟨u, m, _, h, happ⟩ := s.applyWrite_spec (Nat.lt_trans hh (by decide)) cells ri
  have hany : cells.any (fun c => c.1 == x.1) = true := List.any_eq_true.mpr ⟨x, hx, beq_self_eq_true _⟩
  rw [h]
  obtain rfl | rfl := hd
  · exact happ.settle_seen hwf (by simp) (by simpa [WEv.sees, WEv.applied, WEv.cells] using hany) hfar (find_cell_of_nodup hnd hx)
  · exact happ.settle_seen hwf (by simpa using hh) (by simpa [WEv.sees, WEv.applied, WEv.cells] using hany) hfar (find_cell_of_nodup hnd hx)

theorem State.applyWrite_unseen {d : Option Nat} (hd : ∀ k, d = some k → k < 5) {a : Nat} (hs : (e.applied cells).sees d a = false) :
    (s.applyWrite e cells ri).mem.byteAt d a = s.mem.byteAt d a := by
  obtain ⟨u, m, _, h, happ⟩ := s.applyWrite_spec (Nat.lt_trans hh (by decide)) cells ri
  rw [h]
  exact happ.settle_unseen hwf hd hs

end

/-! ### The write event of given bytes -/

section
variable {s : State} {id : Nat} {e : WEv} {l : List Host.Cell}

/-- The state without the write event. -/
def State.takeWrite (s : State) (id : Nat) : State := { s with mem := { s.mem with wq := s.mem.wq.filter (·.id != id) } }

theorem exec_writeEventApply_bytes (he : s.mem.wq.find? (fun e => e.id == id) = some e) (hsrc : e.src = .bytes l) (hcan : s.canApply e l.isEmpty = true) :
    ∃ (t : State), exec (.writeEventApply id) s = .next t ∧ ∃ ri : W32,
      t = (s.takeWrite id).applyWrite e l ri ∨ ∃ a, t = ((s.takeWrite id).applyWrite e l ri).soon a := by
  rw [show exec (.writeEventApply id) s = execWriteEventApply id s from rfl, execWriteEventApply, he]
  dsimp only
  rw [hsrc]
  dsimp only
  rw [event_of_true hcan]
  refine ⟨_, rfl, match s.mem.acc? e.acc with | some a => a.ri | none => s.dom.ri, ?_⟩
  split
  · exact .inr ⟨_, rfl⟩
  · exact .inl rfl

end

/-! ### Delivery (06 R124, R127, R129) -/

/-- The event delivered at one more die. -/
def WEv.deliver (e : WEv) (id die : Nat) : WEv := if e.id == id then { e with delivered := die :: e.delivered } else e

theorem WEv.deliver_cells (e : WEv) (id die : Nat) : (e.deliver id die).cells = e.cells := by
  unfold WEv.deliver
  split <;> rfl

theorem WEv.deliver_contains (e : WEv) (id die k : Nat) :
    (e.deliver id die).delivered.contains k = ((e.id == id && k == die) || e.delivered.contains k) := by
  unfold WEv.deliver
  cases h : e.id == id <;> simp [Bool.beq_eq_decide_eq]

theorem WEv.deliver_sees (e : WEv) (id die k a : Nat) : (e.deliver id die).sees (some k) a =
    (((e.id == id && k == die) || e.delivered.contains k) && e.cells.any fun c => c.1 == a) := by
  unfold WEv.sees
  dsimp only
  rw [WEv.deliver_contains, WEv.deliver_cells]

theorem pickByte_map {f : WEv → WEv} (hf : ∀ e, (f e).cells = e.cells) (o : Option WEv) (b : Memory) (a : Nat) : pickByte (o.map f) b a = pickByte o b a := by
  cases o with
  | none => rfl
  | some e => simp [pickByte, hf]

/-- A log changed in who has its events reads alike where the same events are seen. -/
theorem MemSys.byteAt_map {m n : MemSys} {f : WEv → WEv} (hf : ∀ e, (f e).cells = e.cells) (hl : n.wlog = m.wlog.map f) (hb : n.bytes = m.bytes)
    (hd : n.farDraw = m.farDraw) {d d' : Option Nat} {a : Nat} (hs : ∀ e ∈ m.wlog, (f e).sees d a = e.sees d' a) : n.byteAt d a = m.byteAt d' a := by
  have hfind : n.wlog.reverse.find? (WEv.sees d a) = (m.wlog.reverse.find? (WEv.sees d' a)).map f := by
    rw [hl, ← List.map_reverse, List.find?_map]
    congr 1
    exact List.find?_congr fun e he => hs e (List.mem_reverse.mp he)
  rw [MemSys.byteAt_eq, MemSys.byteAt_eq, hfind, pickByte_map hf, hb, hd]

section
variable {s : State} {id die : Nat} {e : WEv}

/-- The memory after a delivery, before it settles. -/
theorem exec_writeEventDelivery (he : s.mem.wlog.find? (fun e => e.id == id) = some e) (hdie : die < 5) (hnot : die ∉ e.delivered)
    (hpred : s.mem.predsDelivered e.acc die = true) (hclk : ∀ a, s.mem.acc? e.acc = some a → s.mem.clockOk a die = true) :
    ∃ m : MemSys, exec (.writeEventDelivery id die) s = .next { s with mem := m.settle } ∧ m.wlog = s.mem.wlog.map (WEv.deliver · id die) ∧
      m.bytes = s.mem.bytes ∧ m.farDraw = s.mem.farDraw := by
  obtain ⟨clk, hm⟩ := s.mem.hear_clk e.acc die
  rw [show exec (.writeEventDelivery id die) s = execWriteEventDelivery id die s from rfl, execWriteEventDelivery, he]
  dsimp only
  rw [event_of_true ?ok, hm]
  case ok =>
    cases ha : s.mem.acc? e.acc with
    | none => simpa [hpred, hdie] using hnot
    | some a => simpa [hpred, hdie, hclk a ha] using hnot
  exact ⟨_, rfl, rfl, rfl, rfl⟩

end

/-! ### Read events (06 R124, R125) -/

namespace Aside

theorem meet (s : State) (u : Option UeSite) : Aside s (s.meet u) := by constructor <;> rfl
theorem correctable (s : State) (a : Nat) : Aside s (s.correctable a) := by constructor <;> rfl
theorem noteLines (s : State) (l : List Nat) : Aside s (s.noteLines l) := .of_noted (noteLines_noted l s)
theorem sendOut (s : State) (o : Out) : Aside s (s.sendOut o) := by constructor <;> rfl
theorem emit (s : State) (acc : Nat) (o : Out) : Aside s (s.emit acc o) := by
  unfold State.emit
  split
  · constructor <;> rfl
  · exact .sendOut s o
theorem logInputAt (s : State) (ri : W32) (ctx : BitVec 16) (r : InRec) (len : Nat) : Aside s (s.logInputAt ri ctx r len) := by
  unfold State.logInputAt
  split
  · exact .refl s
  · extract_lets _ t
    have ht : Aside s t := by constructor <;> rfl
    split
    · exact ht
    · extract_lets c' u
      have hu : Aside t u := .setCtx t c'
      exact ht.trans (.ite (hu.trans (.pressSeal u)) hu)

theorem snoopAdd (s : State) (n : Nat) : Aside s (s.snoopAdd n) := by
  unfold State.snoopAdd
  split
  · exact .refl s
  · split
    · constructor <;> rfl
    · split
      · exact .refl s
      · dsimp only
        split <;> constructor <;> rfl

end Aside

/-- Acting on a core leaves of memory what the action leaves. -/
theorem State.at_mem (s : State) (who : CoreId) (k : State → State) : (s.at_ who k).mem = s.mem ∨ ∃ u : State, u.mem = s.mem ∧ (s.at_ who k).mem = (k u).mem := by
  unfold State.at_
  extract_lets t
  split
  · exact .inr ⟨t, (State.focusId_rest s who).1, (State.focusId_rest _ _).1⟩
  · exact .inl rfl

theorem State.at_rq {k : State → State} (hk : ∀ u, (k u).mem.rq = u.mem.rq) (s : State) (who : CoreId) : (s.at_ who k).mem.rq = s.mem.rq := by
  obtain h | ⟨u, hu, h⟩ := s.at_mem who k
  · rw [h]
  · rw [h, hk, hu]

theorem State.chooseWords_mem (s : State) (all : Bool) (ws : List Nat) : (s.chooseWords all ws).2.mem = s.mem := by
  unfold State.chooseWords
  split
  · rfl
  · exact List.foldlRecOn (motive := fun x : List Nat × State => x.2.mem = s.mem) ws _ rfl fun x hx w _ => hx

theorem State.cmdTile_rq (s : State) (id : Nat) (all : Bool) : (s.cmdTile id all).mem.rq = s.mem.rq := by
  unfold State.cmdTile
  split
  · rfl
  · split
    · rfl
    · rw [State.at_rq]
      · exact congrArg MemSys.rq (s.chooseWords_mem all _)
      · intro u
        dsimp only
        split
        · rfl
        · show (if _ then _ else _ : State).mem.rq = _
          split <;> rfl

/-- A READ that is answered leaves the core in focus, and no read event of it is left behind. -/
theorem State.hostReadDone_spec (s : State) (h : Nat) : (s.hostReadDone h).core = s.core ∧ (s.hostReadDone h).mem.rq = s.mem.rq := by
  unfold State.hostReadDone
  split
  · exact ⟨rfl, rfl⟩
  · split
    · exact ⟨rfl, rfl⟩
    · extract_lets _ t
      have ht := Aside.emit t 0
      rw [(ht _).core, (ht _).rq]
      exact ⟨rfl, rfl⟩

/-- No event of the number is left in a list that has lost it. -/
theorem id_not_mem_filter (l : List REv) (id : Nat) : ∀ x ∈ l.filter (·.id != id), x.id ≠ id := fun x hx => by
  simpa using (List.mem_filter.mp hx).2

section
variable {s : State} {e : REv} {a : Access} (hv : e.val = none)
  (hpred : s.mem.predsDelivered e.acc (if isFar e.addr then homeOf e.addr else a.die) = true) (hlost : isFar e.addr = true → homeOf e.addr - 8 ∉ s.dom.lostPkgs)
include hv hpred hlost

/-- The conditions of a read event that has its predecessors. -/
theorem readReady : (e.val.isNone && s.mem.predsDelivered e.acc (if isFar e.addr then homeOf e.addr else a.die) &&
    !(isFar e.addr && s.dom.lostPkgs.contains (homeOf e.addr - 8))) = true := by
  rw [hv, hpred]
  cases hf : isFar e.addr with
  | false => rfl
  | true => simpa using hlost hf

variable {id : Nat} (he : s.mem.rq.find? (fun e => e.id == id) = some e) (ha : s.mem.acc? e.acc = some a)
include he ha

theorem exec_readEventPerform_reg {x : CoreId} {d : BitVec 5} (hdst : e.dst = .reg x d) : ∃ (t : State) (e' : REv), exec (.readEventPerform id) s = .next t ∧
    t.mem.rq.find? (fun e => e.id == id) = some e' ∧ e'.val = some (s.loadBytes a.die e.addr e.n) ∧ SameRegs s.core t.core ∧ SameBytes s t := by
  rw [show exec (.readEventPerform id) s = execReadEventPerform id s from rfl, execReadEventPerform, he]
  dsimp -zeta only
  rw [ha]
  dsimp -zeta only
  extract_lets far ready
  have hready : ready = true := readReady hv hpred hlost
  rw [hdst]
  dsimp -zeta only
  rw [event_of_true hready]
  refine ⟨_, { e with val := some (s.loadBytes a.die e.addr e.n) }, rfl, ?_⟩
  extract_lets seen v m u
  have hu : Aside u (u.noteLines [e.addr / 64]) := .noteLines u _
  have hfind : m.rq.find? (fun e => e.id == id) = some e := he
  refine ⟨?_, rfl, ?_, ?_⟩
  · rw [hu.rq]
    refine (find?_updateAll (p := fun x : REv => x.id == id) (f := fun x : REv => { x with val := some v }) (fun _ h => h) m.rq).trans ?_
    rw [hfind]
    rfl
  · rw [hu.core]
    exact sameRegs_refl _
  · exact sameBytes_trans (t := u) ⟨fun _ _ _ => rfl, fun _ _ => rfl, rfl⟩ hu.sameBytes

theorem exec_readEventPerform_cmd {c : Nat} {cm : Cmd} (hdst : e.dst = .cmd c) (hc : s.mem.cmds.find? (fun x => x.id == c) = some cm)
    (hlog : cm.op ≠ opIngest ∨ s.inlogFull cm.ctx = false) : ∃ t : State, exec (.readEventPerform id) s = .next t ∧ ∀ x ∈ t.mem.rq, x.id ≠ id := by
  rw [show exec (.readEventPerform id) s = execReadEventPerform id s from rfl, execReadEventPerform, he]
  dsimp -zeta only
  rw [ha]
  dsimp -zeta only
  extract_lets far ready
  have hready : ready = true := readReady hv hpred hlost
  rw [hdst]
  dsimp -zeta only
  rw [hc]
  dsimp -zeta only
  extract_lets replay
  rw [event_of_true ?ok]
  case ok =>
    rw [hready]
    obtain h | h := hlog <;> simp [h]
  refine ⟨_, rfl, ?_⟩
  extract_lets seen v bad fails m m' u s1 s2 since s3 s4
  rw [State.cmdTile_rq]
  have h3 : s3.mem.rq = s1.mem.rq := by
    dsimp only [s3]
    split
    · rfl
    · exact ((Aside.snoopAdd s2 _).trans (.logInputAt _ _ _ _ _)).rq
  have h4 : s4.mem.rq = s1.mem.rq := by
    dsimp only [s4]
    split
    · rw [State.at_rq]
      · exact h3
      · intro _
        rfl
    · rfl
  rw [h4]
  exact id_not_mem_filter _ id

theorem exec_readEventPerform_host {h : Nat} (hdst : e.dst = .host h) (hb : s.barrier = false) : ∃ t : State, exec (.readEventPerform id) s = .next t ∧
    (∀ x ∈ t.mem.rq, x.id ≠ id) ∧ SameRegs s.core t.core := by
  rw [show exec (.readEventPerform id) s = execReadEventPerform id s from rfl, execReadEventPerform, he]
  dsimp -zeta only
  rw [ha]
  dsimp -zeta only
  extract_lets far ready
  have hready : ready = true := readReady hv hpred hlost
  rw [hdst]
  dsimp -zeta only
  rw [event_of_true (by rw [hready, hb]; rfl)]
  refine ⟨_, rfl, ?_, ?_⟩
  · rw [(State.hostReadDone_spec _ h).2, (Aside.noteLines _ _).rq]
    exact id_not_mem_filter _ id
  · rw [(State.hostReadDone_spec _ h).1, (Aside.noteLines _ _).core]
    exact sameRegs_refl _

end

/-- Settles O45: an applied write is one more event of the log, a delivery changes only who has it, and a read event takes what its die sees. -/
theorem memoryEventsComplete : Obligations.MemoryEventsComplete := by
  refine ⟨?_, ?_, ?_, ?_⟩
  · intro s id e l hwf he hsrc hnd hfar hcan hhome
    obtain ⟨t, ht, ri, heq⟩ := exec_writeEventApply_bytes he hsrc hcan
    have hwf' : memWf (s.takeWrite id) := hwf
    obtain ⟨u, m, hu, happ, hm⟩ := (s.takeWrite id).applyWrite_spec (Nat.lt_trans hhome (by decide)) l ri
    have hwq : ((s.takeWrite id).applyWrite e l ri).mem.wq = s.mem.wq.filter (fun x => x.id != id) := by rw [happ]; exact hm.wq
    have hseen := fun (d : Option Nat) (hd : d = none ∨ d = some e.home) (x : Host.Cell) (hx : x ∈ l) =>
      State.applyWrite_seen hwf' hhome l ri hd hnd hx (hfar x hx)
    have hunseen := fun (d : Option Nat) (hd : ∀ k, d = some k → k < 5) (a : Nat) => State.applyWrite_unseen hwf' hhome l ri (d := d) hd (a := a)
    have key : memWf t ∧ t.mem = ((s.takeWrite id).applyWrite e l ri).mem ∧ t.core = s.core ∧ t.gang = s.gang := by
      have hcore : ((s.takeWrite id).applyWrite e l ri).core = s.core := by rw [happ]; exact hu.core
      have hgang : ((s.takeWrite id).applyWrite e l ri).gang = s.gang := by rw [happ]; exact hu.gang
      obtain rfl | ⟨a, rfl⟩ := heq
      · exact ⟨State.applyWrite_wf hwf' hhome l ri, rfl, hcore, hgang⟩
      · exact ⟨State.applyWrite_wf hwf' hhome l ri, rfl, hcore, hgang⟩
    obtain ⟨hwft, hmem, hcore, hgang⟩ := key
    refine ⟨t, ht, hwft, ?_⟩
    rw [hmem, hcore]
    refine ⟨hwq, fun x hx => ⟨hseen none (.inl rfl) x hx, hseen _ (.inr rfl) x hx⟩, ?_, ?_, sameRegs_refl _, hgang⟩
    · intro d a hd ha
      exact hunseen d hd a (WEv.sees_false_of_cells (e := e.applied l) ha d)
    · intro d a hd hne
      exact hunseen (some d) (by simpa using hd) a (by simp [WEv.sees, WEv.applied, hne])
  · intro s id die e hwf he huniq hdie hnot hpred hclk
    obtain ⟨m, hm, hwlog, hbytes, hdraw⟩ := exec_writeEventDelivery he hdie hnot hpred hclk
    have hwf' : m.bytes.wf = true := by rw [hbytes]; exact hwf
    have hread := fun {d d' : Option Nat} {a : Nat} => MemSys.byteAt_map (d := d) (d' := d') (a := a) (fun e => WEv.deliver_cells e id die) hwlog hbytes hdraw
    refine ⟨_, hm, MemSys.settle_wf hwf', ?_, ?_, ?_, ?_⟩
    · intro a
      dsimp only
      rw [MemSys.settle_byteAt hwf' none (by simp)]
      exact hread fun x _ => by simp [WEv.sees, WEv.deliver_cells]
    · intro k a hk hne
      dsimp only
      rw [MemSys.settle_byteAt hwf' _ (by simpa using hk)]
      exact hread fun x _ => by rw [WEv.deliver_sees]; simp [WEv.sees, beq_false_of_ne hne]
    · intro a ha
      dsimp only
      rw [MemSys.settle_byteAt hwf' _ (by simpa using hdie)]
      refine hread fun x hx => ?_
      by_cases hid : x.id = id
      · obtain rfl := huniq x hx hid
        rw [WEv.sees_false_of_cells ha, WEv.sees_false_of_cells (by rwa [WEv.deliver_cells])]
      · simp [WEv.sees, WEv.deliver, hid]
    · intro a _ hothers
      dsimp only
      rw [MemSys.settle_byteAt hwf' _ (by simpa using hdie)]
      refine hread fun x hx => ?_
      by_cases hid : x.id = id
      · rw [WEv.deliver_sees]
        simp [WEv.sees, hid]
      · rw [WEv.sees_false_of_cells (hothers x hx hid), WEv.sees_false_of_cells (by rw [WEv.deliver_cells]; exact hothers x hx hid)]
  · intro s id e a he ha hv hpred hlost
    exact ⟨fun x d => exec_readEventPerform_reg hv hpred hlost he ha, fun c cm => exec_readEventPerform_cmd hv hpred hlost he ha,
      fun h => exec_readEventPerform_host hv hpred hlost he ha⟩
  · intro s d a hu ht hs hr
    unfold State.loadByte
    have hsnap : s.snapByte a = none := by simp [State.snapByte, hs]
    rw [hu, ht]
    simp [hsnap, hr]

end Sys2Proof.Machine
end

section
/-! PROOF. Sconce operations execute with their word operations (06 R137, R138; 14 R352, R353; O46). -/

namespace Sys2Proof.Machine

/-! ### Word operations (06 R137) -/

theorem wordOp_bits (w v n : W64) :
    (∃ x : W64, (∀ j, x.getLsbD j = (w.getLsbD j && v.getLsbD j)) ∧ wordOp 0x0B w v n = (x, w)) ∧
    (∃ x : W64, (∀ j, x.getLsbD j = (w.getLsbD j || v.getLsbD j)) ∧ wordOp 0x0C w v n = (x, w)) ∧
    (∃ x : W64, (∀ j, x.getLsbD j = (w.getLsbD j != v.getLsbD j)) ∧ wordOp 0x0D w v n = (x, w)) :=
  ⟨⟨w &&& v, fun _ => BitVec.getLsbD_and, rfl⟩, ⟨w ||| v, fun _ => BitVec.getLsbD_or, rfl⟩, ⟨w ^^^ v, fun _ => BitVec.getLsbD_xor, rfl⟩⟩

theorem wordOp_extremes (w v n : W64) :
    (∃ x : W64, x.toInt = min w.toInt v.toInt ∧ wordOp 0x0E w v n = (x, w)) ∧ (∃ x : W64, x.toInt = max w.toInt v.toInt ∧ wordOp 0x0F w v n = (x, w)) ∧
    (∃ x : W64, x.toNat = min w.toNat v.toNat ∧ wordOp 0x10 w v n = (x, w)) ∧ (∃ x : W64, x.toNat = max w.toNat v.toNat ∧ wordOp 0x11 w v n = (x, w)) := by
  refine ⟨⟨_, ?_, rfl⟩, ⟨_, ?_, rfl⟩, ⟨_, ?_, rfl⟩, ⟨_, ?_, rfl⟩⟩ <;> split <;> omega

/-! ### What an operation keeps on its way -/

theorem MemSys.putNow_spec (m : MemSys) (a : Nat) (l : List Byte) : ∃ n e, m.putNow a l = n.settle ∧ Appends m n e :=
  ⟨_, _, rfl, rfl, rfl, rfl, rfl, rfl, rfl, rfl, rfl⟩
theorem MemSys.putWindow_spec (m : MemSys) (acc a : Nat) (l : List Byte) : ∃ n e, m.putWindow acc a l = n.settle ∧ Appends m n e :=
  ⟨_, _, rfl, rfl, rfl, rfl, rfl, rfl, rfl, rfl, rfl⟩

/-- The operations under way stay, and canonical memory stays canonical. -/
structure OpsKept (s t : State) : Prop where
  ops : t.mem.ops = s.mem.ops
  wf : memWf s → memWf t
  peers : t.pkg.peers = s.pkg.peers

namespace OpsKept

theorem refl (s : State) : OpsKept s s := ⟨rfl, fun h => h, rfl⟩
theorem trans {s t u : State} (h : OpsKept s t) (h' : OpsKept t u) : OpsKept s u := ⟨h'.ops.trans h.ops, fun hwf => h'.wf (h.wf hwf), h'.peers.trans h.peers⟩
theorem ite {p : Prop} [Decidable p] {s t u : State} (ht : OpsKept s t) (hu : OpsKept s u) : OpsKept s (if p then t else u) := by
  split
  · exact ht
  · exact hu
theorem of_aside {s t : State} (h : Aside s t) : OpsKept s t := ⟨h.ops, fun hwf => by unfold memWf; rw [h.bytes]; exact hwf, h.peers⟩
/-- One more event of the log, which settles. -/
theorem of_settle {s t : State} {m : MemSys} (hm : t.mem = m.settle) (hops : m.ops = s.mem.ops) (hb : m.bytes = s.mem.bytes) (hp : t.pkg.peers = s.pkg.peers) : OpsKept s t := by
  refine ⟨?_, fun hwf => ?_, hp⟩
  · rw [hm]
    exact hops
  · unfold memWf
    rw [hm]
    exact MemSys.settle_wf (by rw [hb]; exact hwf)

theorem own (s : State) (line : Nat) : OpsKept s (s.own line) := by
  unfold State.own
  split
  · exact .refl s
  · extract_lets _ m
    obtain ⟨n, e, h, happ⟩ := MemSys.putNow_spec { s.mem with owned := line :: s.mem.owned } (shadow line) (s.mem.bytesAt none line 64)
    exact (of_settle (s := s) (t := { s with mem := m }) h happ.ops happ.bytes rfl).trans (of_aside (.snoopAdd _ _))

theorem emitOut_writeBack (s : State) (acc line : Nat) (l : List Byte) : OpsKept s (s.emitOut acc (.writeBack line l)) := by
  unfold State.emitOut
  split
  · exact of_aside (.emit s acc _)
  · show OpsKept s ((s.writeBack acc line l).sendOut _)
    unfold State.writeBack
    extract_lets more
    obtain ⟨n, e, h, happ⟩ := MemSys.putWindow_spec { s.mem with owned := if more then s.mem.owned else s.mem.owned.filter (· != line) } acc line l
    exact of_settle h happ.ops happ.bytes rfl

theorem applyNow (s : State) (acc : Nat) {home : Nat} (hh : home < 5) (cells : List Host.Cell) (line : Nat) (lg : Bool) (ri : W32) :
    OpsKept s (s.applyNow acc home cells line lg ri) := by
  unfold State.applyNow
  extract_lets e
  obtain ⟨u, m, hu, h, happ⟩ := State.applyWrite_spec { s with mem := { s.mem with nextId := s.mem.nextId + 1 } } (e := e) (Nat.lt_trans hh (by decide)) cells ri
  rw [h]
  exact of_settle rfl happ.ops happ.bytes hu.peers

end OpsKept

theorem State.doorbell_none {s : State} {loc : Nat} (h : ∀ p ∈ s.pkg.peers, p.doorbell ≠ loc) (acc : Nat) (old add : W64) : s.doorbell acc loc old add = s := by
  have hfind : s.pkg.peers.find? (fun p => p.doorbell == loc && !p.lost) = none := List.find?_eq_none.mpr fun p hp => by simp [h p hp]
  unfold State.doorbell
  rw [hfind]

/-! ### An operation at its home -/

section
variable {s : State} {id : Nat} {o : SOp} {a : Access} (ho : s.mem.ops.find? (fun o => o.id == id) = some o) (ha : s.mem.acc? o.acc = some a)
include ho ha

/-- The operation leaves, and its reply is on its way. -/
def State.opOut (s : State) (o : SOp) (a : Access) (id : Nat) (reply : W64) : State :=
  let t : State := { s with mem := { s.mem with ops := s.mem.ops.filter (·.id != id),
                                                reps := if a.who == .hub then s.mem.reps else s.mem.reps ++ [o.rep a.stream reply 0 none] } }
  if a.who == .hub then { t with mem := t.mem.settle } else t

omit ho ha in
theorem SOp.apply_word (hexact : exactOp o.op = false) (old : Nat) :
    o.apply old = ((wordOp o.op (BitVec.ofNat 64 old) o.v o.n).1.toNat, (wordOp o.op (BitVec.ofNat 64 old) o.v o.n).2) := by
  simp only [exactOp, Bool.or_eq_false_iff] at hexact
  obtain ⟨⟨hadd, hrd⟩, hclr⟩ := hexact
  simp [SOp.apply, hadd, hrd, hclr]

/-- The word of memory that an operation finds. -/
def State.opWord (s : State) (o : SOp) : W64 := BitVec.ofNat 64 (s.mem.natAt none o.loc 8)

theorem exec_sconceOperationExecute_here (hhome : o.home < 5) (hcan : s.opCan o = true) (hturn : s.opTurn o = true) (hbell : ∀ p ∈ s.pkg.peers, p.doorbell ≠ o.loc) :
    ∃ (u : State) (reply : W64), exec (.sconceOperationExecute id) s = .next (u.opOut o a id reply) ∧ OpsKept s u ∧
      (o.shared = false → exactOp o.op = false → reply = (wordOp o.op (s.opWord o) o.v o.n).2 ∧ ∃ (v : State) (line : Nat), Aside s v ∧
        u = if writesWord o.op (s.opWord o) o.v then
            v.applyNow o.acc o.home (cellsAt o.loc (toBytes 8 (wordOp o.op (s.opWord o) o.v o.n).1.toNat)) line (loggedLoc o) o.ri else v) := by
  rw [show exec (.sconceOperationExecute id) s = execSconceOperationExecute id s from rfl, execSconceOperationExecute, ho]
  dsimp -zeta only
  rw [ha]
  dsimp -zeta only
  extract_lets n gidx line loc out
  rw [event_of_true (by rw [hcan, hturn]; rfl), if_neg (by omega)]
  extract_lets held seen s1 old replay old' s2 s3 w s4 s5 s6 s7
  have h1 : OpsKept s s1 := .ite (.own s line) (.refl s)
  have h2 : OpsKept s1 s2 := .ite (.of_aside (.logInputAt _ _ _ _ _)) (.refl s1)
  have h3 : OpsKept s2 s3 := .ite (.refl s2) (.of_aside (.noteLines s2 _))
  have h4 : OpsKept s3 s4 := ⟨rfl, fun h => h, rfl⟩
  have h5 : OpsKept s4 s5 := .ite (.applyNow s4 _ hhome _ _ _ _) (.refl s4)
  have h6 : OpsKept s5 s6 := .ite (.emitOut_writeBack s5 _ _ _) (.refl s5)
  have hs := ((((h1.trans h2).trans h3).trans h4).trans h5).trans h6
  have hpeers : s7.pkg.peers = s.pkg.peers := by
    refine Eq.trans ?_ hs.peers
    show (if _ then _ else _ : State).pkg.peers = _
    split <;> rfl
  refine ⟨s6, (o.apply old').2, ?_, hs, fun hshared hexact => ?_⟩
  · rw [State.doorbell_none (by rwa [hpeers])]
    exact congrArg _ (ite_self _)
  · have hn : n = 8 := by simp [n, SOp.width, hexact]
    have hloc : loc = o.loc := by simp [loc, hshared]
    have hs1 : s1 = s := by simp [s1, hshared]
    have hs2 : s2 = s1 := by simp [s2, hshared]
    have hs6 : s6 = s5 := by simp [s6, hshared]
    have hreplay : replay = none := by simp [replay, hshared]
    have hold : old' = s.mem.natAt none o.loc 8 := by
      dsimp only [old', old]
      rw [hreplay, hs1, hloc, hn]
    have hw : w = s.opWord o := congrArg (BitVec.ofNat 64) hold
    have h3 : Aside s s3 := by
      rw [← hs1, ← hs2]
      exact .ite (.refl s2) (.noteLines s2 _)
    have h4 : Aside s3 s4 := by constructor <;> rfl
    have happly : o.apply old' = _ := SOp.apply_word hexact old'
    refine ⟨?_, s4, if isSram loc then loc else loc / 64 * 64, h3.trans h4, ?_⟩
    · rw [happly]
      exact congrArg (fun x => (wordOp o.op x o.v o.n).2) hw
    · rw [hs6]
      dsimp only [s5]
      rw [happly, show BitVec.ofNat 64 old' = s.opWord o from hw, hw, hloc, hn]

/-- An operation of another package writes nothing here, and is answered. -/
theorem exec_sconceOperationExecute_far (hhome : 8 ≤ o.home) (hcan : s.opCan o = true) (hturn : s.opTurn o = true) :
    ∃ reply, exec (.sconceOperationExecute id) s = .next (State.opOut { s with mem := s.mem.acked id } o a id reply) := by
  rw [show exec (.sconceOperationExecute id) s = execSconceOperationExecute id s from rfl, execSconceOperationExecute, ho]
  dsimp -zeta only
  rw [ha]
  dsimp -zeta only
  extract_lets n gidx line loc out
  rw [event_of_true (by rw [hcan, hturn]; rfl), if_pos hhome]
  exact ⟨_, rfl⟩

end

/-! ### What is read of an operation's word -/

theorem cellsAt_map_fst (a : Nat) (l : List Byte) : (cellsAt a l).map (·.1) = (List.range l.length).map (a + ·) := by
  apply List.ext_getElem
  · simp [cellsAt]
  · intro i h h'
    simp [cellsAt]

theorem cellsAt_nodup (a : Nat) (l : List Byte) : ((cellsAt a l).map (·.1)).Nodup := by
  rw [cellsAt_map_fst]
  exact List.Nodup.map (fun _ _ h => Nat.add_left_cancel h) List.nodup_range

theorem mem_cellsAt_iff {a : Nat} {l : List Byte} {x : Host.Cell} : x ∈ cellsAt a l ↔ ∃ i, ∃ h : i < l.length, x = (a + i, l[i]) := by
  simp [cellsAt, List.mem_mapIdx, eq_comm]

section
variable {v : State} (hwf : memWf v) (acc : Nat) {home : Nat} (hh : home < 5) (loc line : Nat) (l : List Byte) (lg : Bool) (ri : W32)
include hwf hh

/-- The bytes stored at once at a home read as stored, others as before. -/
theorem State.applyNow_reads (hfar : loc + l.length ≤ 2 ^ 60) :
    (v.applyNow acc home (cellsAt loc l) line lg ri).mem.bytesAt none loc l.length = l ∧
    ∀ x, (x < loc ∨ loc + l.length ≤ x) → (v.applyNow acc home (cellsAt loc l) line lg ri).mem.byteAt none x = v.mem.byteAt none x := by
  unfold State.applyNow
  extract_lets e
  have hwf' : memWf { v with mem := { v.mem with nextId := v.mem.nextId + 1 } } := hwf
  constructor
  · apply List.ext_getElem
    · simp [MemSys.bytesAt]
    · intro i h h'
      have hx := State.applyWrite_seen hwf' (e := e) hh (cellsAt loc l) ri (.inl rfl) (cellsAt_nodup loc l) (mem_cellsAt_iff.mpr ⟨i, h', rfl⟩)
        (by simp [isFar]; omega)
      simpa [MemSys.bytesAt] using hx
  · intro x hx
    refine (State.applyWrite_unseen hwf' (e := e) hh (cellsAt loc l) ri (d := none) (by simp) (a := x) (WEv.sees_false_of_cells ?_ none)).trans rfl
    intro c hc
    obtain ⟨i, hi, rfl⟩ := mem_cellsAt_iff.mp hc
    dsimp only
    omega

end

/-- An operation that leaves changes no byte. -/
theorem State.opOut_byteAt {s : State} (hwf : memWf s) (o : SOp) (a : Access) (id : Nat) (reply : W64) (x : Nat) :
    (s.opOut o a id reply).mem.byteAt none x = s.mem.byteAt none x := by
  unfold State.opOut
  extract_lets t
  split
  · exact MemSys.settle_byteAt (m := t) hwf none (by simp) x
  · rfl

theorem State.opOut_natAt {s : State} (hwf : memWf s) (o : SOp) (a : Access) (id : Nat) (reply : W64) (x n : Nat) :
    (s.opOut o a id reply).mem.natAt none x n = s.mem.natAt none x n := by
  simp only [MemSys.natAt, MemSys.bytesAt, State.opOut_byteAt hwf]

theorem ofBytes_lt : ∀ l : List Byte, ofBytes l < 256 ^ l.length
  | [] => by decide
  | b :: l => by
    have h := ofBytes_lt l
    have hb := b.isLt
    simp only [ofBytes, List.length_cons, Nat.pow_succ]
    omega

theorem MemSys.natAt_lt (m : MemSys) (d : Option Nat) (a n : Nat) : m.natAt d a n < 256 ^ n := by
  have h := ofBytes_lt (m.bytesAt d a n)
  rwa [MemSys.bytesAt, List.length_map, List.length_range] at h

theorem State.opWord_toNat (s : State) (o : SOp) : (s.opWord o).toNat = s.mem.natAt none o.loc 8 := by
  have h := s.mem.natAt_lt none o.loc 8
  rw [State.opWord, BitVec.toNat_ofNat]
  exact Nat.mod_eq_of_lt (Nat.lt_of_lt_of_eq h (by norm_num))

theorem State.opOut_wf {s : State} (hwf : memWf s) (o : SOp) (a : Access) (id : Nat) (reply : W64) : memWf (s.opOut o a id reply) := by
  unfold State.opOut
  extract_lets t
  split
  · exact MemSys.settle_wf (m := t) hwf
  · exact hwf

theorem State.opOut_ops (s : State) (o : SOp) (a : Access) (id : Nat) (reply : W64) : (s.opOut o a id reply).mem.ops = s.mem.ops.filter (fun x => x.id != id) := by
  unfold State.opOut
  extract_lets t
  split <;> rfl

theorem State.opOut_reply (s : State) (o : SOp) {a : Access} (ha : a.who ≠ .hub) (id : Nat) (reply : W64) :
    o.rep a.stream reply 0 none ∈ (s.opOut o a id reply).mem.reps := by
  simp [State.opOut, ha]


/-- Settles O46: an operation at its home is one write of its word at most, whose reads are those of an applied write; the word operations are read off `wordOp`. -/
theorem sconceOperationsExecute : Obligations.SconceOperationsExecute := by
  refine ⟨?_, ?_, ?_⟩
  · intro s id o a hwf ho ha hhome hfar hturn hopen hpred hwrites hshared hbell
    have hcan : s.opCan o = true := by
      unfold State.opCan
      rw [ha]
      dsimp only
      rw [hpred, if_neg (by omega)]
      cases hw : (o.op != opAtLd && o.op != opXrd) with
      | false => cases hs : o.shared <;> simp_all
      | true =>
        simp only [Bool.and_eq_true, bne_iff_ne] at hw
        obtain ⟨hroom, hclk, hundo⟩ := hwrites hw.1 hw.2
        cases hl : loggedLoc o <;> cases hs : o.shared <;> simp_all
    obtain ⟨u, reply, hx, hu, hword⟩ := exec_sconceOperationExecute_here ho ha hhome hcan hturn hbell
    refine ⟨_, hx, ?_, State.opOut_wf (hu.wf hwf) o a id reply, ?_⟩
    · rw [State.opOut_ops, hu.ops]
    · intro hns hexact
      obtain ⟨rfl, v, line, hv, rfl⟩ := hword hns hexact
      have hvwf : memWf v := (OpsKept.of_aside hv).wf hwf
      have hvb : ∀ x, v.mem.byteAt none x = s.mem.byteAt none x := MemSys.byteAt_congr hv.bytes hv.wlog hv.farDraw none
      have huwf := hu.wf hwf
      have hwidth : o.width = 8 := by simp [SOp.width, hexact]
      have hlen := length_toBytes 8 (wordOp o.op (s.opWord o) o.v o.n).1.toNat
      intro old res
      refine ⟨?_, ?_, fun hhub => ⟨_, State.opOut_reply _ o hhub id _, rfl, rfl, rfl, rfl⟩⟩
      · rw [State.opOut_natAt huwf]
        show _ = (if writesWord o.op (s.opWord o) o.v then (wordOp o.op (s.opWord o) o.v o.n).1 else s.opWord o).toNat
        split
        · have hread := (State.applyNow_reads hvwf o.acc hhome o.loc line _ (loggedLoc o) o.ri (by rw [hlen]; omega)).1
          rw [hlen] at hread
          exact (congrArg ofBytes hread).trans (ofBytes_toBytes_word _)
        · rw [State.opWord_toNat]
          simp only [MemSys.natAt, MemSys.bytesAt, hvb]
      · intro x hx
        rw [State.opOut_byteAt huwf, ← hvb]
        split
        · exact (State.applyNow_reads hvwf o.acc hhome o.loc line _ _ o.ri (by rw [hlen]; omega)).2 x (by rwa [hlen])
        · rfl
  · intro s id o a ho ha hhome hturn hopen hpred hlost hhub
    have hcan : s.opCan o = true := by
      simp [State.opCan, ha, hopen, hpred, hhome, hlost]
    obtain ⟨reply, hx⟩ := exec_sconceOperationExecute_far ho ha hhome hcan hturn
    have hout : State.opOut { s with mem := s.mem.acked id } o a id reply = _ := if_neg (by simp [hhub])
    rw [hout] at hx
    exact ⟨_, hx, rfl, rfl, rfl, ⟨o.rep a.stream reply 0 none, by simp [hhub], rfl, rfl, rfl, rfl⟩, rfl, rfl⟩
  · intro w v n
    obtain ⟨hand, hor, hxor⟩ := wordOp_bits w v n
    obtain ⟨hmin, hmax, humin, humax⟩ := wordOp_extremes w v n
    exact ⟨rfl, rfl, ⟨w + v, BitVec.toNat_add w v, rfl⟩, hand, hor, hxor, hmin, hmax, humin, humax, rfl, rfl⟩

end Sys2Proof.Machine
end

section
/-! PROOF. Replies, commands, records, fences, the tag sweep and refresh come to their ends (06 R131; 14 R324-R336, R353; 07 R150; 03 R66; O47). -/

namespace Sys2Proof.Machine

/-! ### Which commands are under way -/

/-- Number and core of a command. -/
def Cmd.name (c : Cmd) : Nat × CoreId := (c.id, c.who)

/-- The same commands are under way, whatever has come of them. -/
def SameCmds (s t : State) : Prop := t.mem.cmds.map Cmd.name = s.mem.cmds.map Cmd.name

theorem MemSys.updCmd_find {m : MemSys} {id : Nat} {c : Cmd} {f : Cmd → Cmd} (hf : ∀ c, (f c).id = c.id)
    (hc : m.cmds.find? (fun c => c.id == id) = some c) : (m.updCmd id f).cmds.find? (fun c => c.id == id) = some (f c) :=
  (find?_updateAll (p := fun c : Cmd => c.id == id) (fun x h => by rwa [hf]) m.cmds).trans (by rw [hc]; rfl)

theorem MemSys.updAcc_updCmd_find {m : MemSys} {a id : Nat} {c : Cmd} {g : Access → Access} {f : Cmd → Cmd} (hf : ∀ c, (f c).id = c.id)
    (hc : m.cmds.find? (fun c => c.id == id) = some c) : ((m.updAcc a g).updCmd id f).cmds.find? (fun c => c.id == id) = some (f c) :=
  MemSys.updCmd_find (m := m.updAcc a g) hf hc

namespace SameCmds

theorem refl (s : State) : SameCmds s s := rfl
theorem trans {s t u : State} (h : SameCmds s t) (h' : SameCmds t u) : SameCmds s u := Eq.trans h' h
theorem of_cmds {s t : State} (h : t.mem.cmds = s.mem.cmds) : SameCmds s t := congrArg (List.map Cmd.name) h
theorem of_aside {s t : State} (h : Aside s t) : SameCmds s t := of_cmds h.cmds
theorem ite {p : Prop} [Decidable p] {s t u : State} (ht : SameCmds s t) (hu : SameCmds s u) : SameCmds s (if p then t else u) := by
  split
  · exact ht
  · exact hu
theorem foldl {α : Type} {f : State → α → State} (hf : ∀ s x, SameCmds s (f s x)) (l : List α) (s : State) : SameCmds s (l.foldl f s) :=
  List.foldlRecOn (motive := SameCmds s) l f (.refl s) fun _ ht x _ => ht.trans (hf _ x)

theorem updCmd {s t : State} {id : Nat} {f : Cmd → Cmd} (hf : ∀ c, (f c).name = c.name) (h : t.mem.cmds = (s.mem.updCmd id f).cmds) : SameCmds s t := by
  unfold SameCmds
  rw [h]
  simp only [MemSys.updCmd, updateAll, List.map_map]
  refine List.map_congr_left fun c _ => ?_
  dsimp only [Function.comp_apply]
  split
  · exact hf c
  · rfl

/-- A command found before is found after, with its core. -/
theorem find {s t : State} (h : SameCmds s t) {id : Nat} {c : Cmd} (hc : s.mem.cmds.find? (fun c => c.id == id) = some c) :
    ∃ c', t.mem.cmds.find? (fun c => c.id == id) = some c' ∧ c'.id = id ∧ c'.who = c.who := by
  have hname : ∀ l : List Cmd, (l.map Cmd.name).find? (fun x => x.1 == id) = (l.find? (fun c => c.id == id)).map Cmd.name := fun l => List.find?_map
  have hfind := hname t.mem.cmds
  rw [h, hname, hc] at hfind
  obtain ⟨c', hc', hn⟩ := Option.map_eq_some_iff.mp hfind.symm
  refine ⟨c', hc', ?_, congrArg Prod.snd hn⟩
  simpa using List.find?_some hc'

theorem at_ {k : State → State} (hk : ∀ u, SameCmds u (k u)) (s : State) (who : CoreId) : SameCmds s (s.at_ who k) := by
  obtain h | ⟨u, hu, h⟩ := s.at_mem who k
  · exact of_cmds (by rw [h])
  · refine trans (t := u) (of_cmds (by rw [hu])) ?_
    exact (hk u).trans (of_cmds (by rw [h]))

theorem cmdTile (s : State) (id : Nat) (all : Bool) : SameCmds s (s.cmdTile id all) := by
  unfold State.cmdTile
  split
  · exact refl s
  · split
    · exact refl s
    · refine trans (t := (s.chooseWords all _).2) (of_cmds (by rw [State.chooseWords_mem])) (at_ (fun u => ?_) _ _)
      split
      · exact refl u
      · exact updCmd (fun c => by rfl) (congrArg (fun m : MemSys => (m.updCmd id _).cmds) (by split <;> rfl : (_ : State).mem = u.mem))

theorem poisonDest (s : State) (c : Cmd) : SameCmds s (s.poisonDest c) := by
  unfold State.poisonDest
  split
  · exact refl s
  · split
    · exact refl s
    · refine at_ (fun u => ?_) s _
      rfl

theorem emitOut_egress (s : State) (acc a : Nat) (l : List Byte) : SameCmds s (s.emitOut acc (.egress a l)) := by
  unfold State.emitOut
  split
  · exact of_aside (.emit s acc _)
  · unfold State.release
    dsimp only
    split
    · exact refl s
    · obtain ⟨n, e, h, happ⟩ := MemSys.putWindow_spec s.mem acc a l
      exact of_cmds ((congrArg MemSys.cmds h).trans happ.cmds)

end SameCmds

namespace Aside

theorem takeEgress (s : State) (ctx : BitVec 16) (n : Nat) : Aside s (s.takeEgress ctx n) := by
  unfold State.takeEgress
  split
  · exact .refl s
  · split
    · exact .refl s
    · exact .ite ((setCtx s _).trans (.requestSeal _)) (.setCtx s _)

end Aside

namespace SameCmds

theorem cmdEgress (s : State) (c : Cmd) : SameCmds s (s.cmdEgress c) := by
  unfold State.cmdEgress
  split
  · split
    · split
      · exact refl s
      · extract_lets t u v
        have ht : SameCmds s t := of_aside (.stamp s _)
        have hu : SameCmds t u := .ite (.refl t) (.foldl (fun w l => emitOut_egress w _ _ _) _ t)
        have hv : SameCmds u v := .refl u
        exact ((ht.trans hu).trans hv).trans (of_aside (.takeEgress v _ _))
    · exact refl s
  · exact refl s

/-- What a command does as it ends leaves the same commands. -/
theorem ending (s : State) (c : Cmd) (id : Nat) : SameCmds s (((s.cmdEgress c).cmdTile id true).poisonDest c) :=
  ((cmdEgress s c).trans (cmdTile _ _ _)).trans (poisonDest _ _)

theorem regionWrite (s : State) (c : Cmd) (e : GEnd) (o : Nat) (l : List Byte) (preds : List Nat) : SameCmds s (s.regionWrite c e o l preds).2 := by
  unfold State.regionWrite
  dsimp only
  refine Eq.trans (SameCmds.foldl (fun u ln => ?_) _ _) ?_
  · rfl
  · rfl

theorem of_regionWrite {s t : State} {c : Cmd} {e : GEnd} {o : Nat} {l : List Byte} {preds : List Nat} {a : Nat}
    (h : s.regionWrite c e o l preds = (a, t)) : SameCmds s t := by
  have hs := regionWrite s c e o l preds
  rwa [h] at hs

end SameCmds

/-! ### Signing off -/

theorem State.arriveAt_rest (s : State) (who : CoreId) (fb : Option (BitVec 5)) : (s.arriveAt who fb).mem = s.mem ∧ (s.arriveAt who fb).pkg = s.pkg := by
  unfold State.arriveAt
  split
  · exact ⟨rfl, rfl⟩
  · next n =>
    extract_lets t
    obtain ⟨hmem, _, hpkg, _⟩ := State.focusId_rest s who
    split
    · obtain ⟨hmem', _, hpkg', _⟩ := State.focusId_rest (t.setCore (t.core.setFb n (fbArrive (rget t.core.fb n)))) s.core.id
      exact ⟨hmem'.trans hmem, hpkg'.trans hpkg⟩
    · exact ⟨rfl, rfl⟩

/-- Acting on the core in focus is acting. -/
theorem State.at_self {s : State} {who : CoreId} {k : State → State} (h : s.core.id = who) (hk : (k s).core.id = s.core.id) : s.at_ who k = k s := by
  unfold State.at_
  rw [State.focusId_self h]
  dsimp only
  rw [if_pos h, State.focusId_self hk]

theorem State.cmdFault_mem (s : State) (c : BitVec 16) (f : FaultRec) : (s.cmdFault c f).mem = s.mem := by simp [State.cmdFault]
theorem State.reportLost_mem (s : State) (f : FaultRec) : (s.reportLost f).mem = s.mem := by simp [State.reportLost]
theorem State.signOffCmd_rest (s : State) (g id : Nat) : (s.signOffCmd g id).mem = s.mem ∧ (s.signOffCmd g id).pkg = s.pkg := ⟨rfl, rfl⟩

/-- No gang of the number waits for a command that has signed off. -/
theorem State.signOffCmd_boxes (s : State) (g id : Nat) : ∀ b ∈ (s.signOffCmd g id).allBoxes, b.gang.gid = g → id ∉ b.gang.cmdsOut := by
  have hgang : ∀ x : Gang, (if x.gid == g then { x with cmdsOut := x.cmdsOut.filter (· != id) } else x).gid = g →
      id ∉ (if x.gid == g then { x with cmdsOut := x.cmdsOut.filter (· != id) } else x).cmdsOut := by
    intro x
    split
    · simp
    · next h => exact fun hx => absurd (beq_iff_eq.mpr hx) h
  intro b hb
  obtain rfl | hb := List.mem_cons.mp hb
  · exact hgang s.gang
  · obtain ⟨x, _, rfl⟩ := List.mem_map.mp hb
    exact hgang x.gang

/-! ### Replies (06 R138, 14 R353) -/

section
variable {s : State} {id : Nat} {r : Rep}

theorem exec_replyWrite (hr : s.mem.reps.find? (fun r => r.id == id && r.write && !isFwId r.who) = some r) (hwho : r.who = s.core.id) (hroom : s.core.cq.length < 64)
    (hfirst : ∀ q ∈ s.mem.reps, q.write = true → q.who = r.who → q.stream = r.stream → q.home = r.home → r.id ≤ q.id)
    (holder : ∀ o ∈ s.mem.ops, o.who = r.who → o.home = r.home → r.id ≤ o.id) : ∃ t : State, exec (.replyWrite id) s = .next t ∧
      t.core.cq = s.core.cq ++ [r.reply] ∧ SameRegs s.core t.core ∧ SameBytes s t := by
  rw [show exec (.replyWrite id) s = execReplyWrite id s from rfl, execReplyWrite, hr]
  dsimp -zeta only
  extract_lets first olderOps t here room ctx dead done
  have ht : t = s := State.focusId_self hwho.symm
  have hhere : here = true := by simp [here, ht, hwho]
  have hroom' : room = true := by simp [room, ht, hroom]
  have hdead : dead = false := by simp [dead, hhere, hroom']
  have hf : first = true := by
    simp only [first, List.all_eq_true]
    intro q hq
    have hle := hfirst q hq
    grind
  have ho : olderOps = true := by
    simp only [olderOps, List.all_eq_true]
    intro o ho
    have hle := holder o ho
    grind
  rw [event_of_true (by rw [hf, ho, hroom', Bool.or_true]; rfl), if_neg (by simp [hdead])]
  rw [State.at_self hwho.symm rfl]
  exact ⟨_, rfl, rfl, ⟨rfl, rfl, rfl, rfl, rfl, rfl, rfl, rfl, rfl, rfl, rfl, rfl, rfl, rfl⟩, ⟨fun _ _ _ => rfl, fun _ _ => rfl, rfl⟩⟩

/-- A reply that is not written into a queue leaves, and its operation signs off. -/
theorem exec_commandComplete_reply (hr : s.mem.reps.find? (fun r => r.id == id && !r.write && !isFwId r.who) = some r) :
    ∃ t : State, exec (.commandComplete id) s = .next t ∧ ∀ q ∈ t.mem.reps, q.id ≠ id := by
  rw [show exec (.commandComplete id) s = execCommandComplete id s from rfl, execCommandComplete, hr]
  dsimp -zeta only
  extract_lets _ t u v
  refine ⟨_, rfl, ?_⟩
  have hu : u.mem = t.mem := (State.arriveAt_rest t r.who r.fb).1
  have hv : v.mem = t.mem := by
    refine Eq.trans ?_ hu
    dsimp only [v]
    split
    · split
      · exact State.reportLost_mem u _
      · exact State.cmdFault_mem u _ _
    · rfl
  rw [(State.signOffCmd_rest v _ _).1, hv]
  intro q hq
  have hq' : q ∈ s.mem.reps.filter (·.id != id) := hq
  simpa using (List.mem_filter.mp hq').2

end

/-! ### Commands (14 R324, R333-R335) -/

section
variable {s : State} {c : Cmd}

/-- A command that has moved everything does not wait for room in the egress area. -/
theorem State.egressFull_of_moved (h : s.cmdMoved c = true) : s.egressFull c = false := by
  unfold State.cmdMoved at h
  cases hs : c.sends with
  | false => simp [State.egressFull, hs]
  | true =>
    rw [Bool.or_eq_true] at h
    obtain h | h := h
    · simp only [Bool.and_eq_true, beq_iff_eq] at h
      simp [State.egressFull, h.1]
    · simp only [hs, if_true, Bool.and_eq_true, Bool.not_eq_true'] at h
      exact h.2.1.1.1

theorem State.dropCmd_spec (c : Cmd) : (∀ k ∈ (s.dropCmd c).mem.cmds, k.id ≠ c.id) ∧
    ∀ b ∈ (s.dropCmd c).allBoxes, b.gang.gid = gangOf c.who → c.id ∉ b.gang.cmdsOut := by
  unfold State.dropCmd
  extract_lets caps u m
  refine ⟨fun k hk => ?_, State.signOffCmd_boxes _ _ _⟩
  have hk' : k ∈ m.cmds.filter (·.id != c.id) := hk
  simpa using (List.mem_filter.mp hk').2

variable {id : Nat} (hc : s.mem.cmds.find? (fun c => c.id == id) = some c)
include hc

/-- A command that is ready leaves the machine and signs off. -/
theorem exec_commandComplete_cmd (hr : s.mem.reps.find? (fun r => r.id == id && !r.write && !isFwId r.who) = none)
    (hready : c.st = .run ∧ c.ring = none ∧ s.cmdMoved c = true ∨ c.st = .record ∧ ∀ x ∈ c.recs, s.mem.complete x = true) :
    ∃ t : State, exec (.commandComplete id) s = .next t ∧ (∀ k ∈ t.mem.cmds, k.id ≠ id) ∧
      ∀ b ∈ t.allBoxes, b.gang.gid = gangOf c.who → id ∉ b.gang.cmdsOut := by
  have hfull : (c.st == .run && s.egressFull c) = false := by
    obtain ⟨_, _, hmoved⟩ | ⟨hst, _⟩ := hready
    · simp [State.egressFull_of_moved hmoved]
    · simp [hst]
  rw [show exec (.commandComplete id) s = execCommandComplete id s from rfl, execCommandComplete, hr]
  dsimp -zeta only
  rw [hc]
  dsimp -zeta only
  extract_lets ready
  have hok : ready = true := by
    obtain ⟨hst, hring, hmoved⟩ | ⟨hst, hrecs⟩ := hready
    · simp [ready, hst, hring, hmoved]
    · simpa [ready, hst] using hrecs
  rw [hfull, if_neg Bool.false_ne_true, event_of_true hok]
  refine ⟨_, rfl, ?_⟩
  extract_lets u c' v _ w site
  obtain ⟨k, hk, hkid, hkwho⟩ := (SameCmds.ending s c id).find hc
  have hc' : c' = k := congrArg (·.getD c) hk
  obtain ⟨hcmds, hboxes⟩ := State.dropCmd_spec (s := w) c'
  rw [hc', hkid] at hcmds
  rw [hc', hkid, hkwho] at hboxes
  rw [hc']
  exact ⟨hcmds, hboxes⟩

/-- The ring has no place for a record. -/
def State.ringFull (s : State) (r : Ring) : Bool :=
  decide ((r.end_.natAt s.mem 8 8 + 2 ^ 64 - r.end_.natAt s.mem 16 8) % 2 ^ 64 = 2 ^ r.log2n)

/-- The command moves what it has left, and its record and the ring's new PROD are queued. -/
def State.writeRecord (s : State) (id : Nat) (c : Cmd) (r : Ring) : Res :=
  let at_ := r.end_.phys r.end_.virt
  let prod := r.end_.natAt s.mem 8 8
  let s := ((s.cmdEgress c).cmdTile id true).poisonDest c
  let c := (s.mem.cmds.find? (·.id == id)).getD c
  let seen := s.mem.writersOf (some (homeOf at_)) (at_ + 8) 16
  let t := s.focusId c.who
  let rec_ := c.record prod r.log2n (c.digest s.mem t.clu)
  let (a, s) := s.regionWrite c r.end_ (64 + 32 * (prod % 2 ^ r.log2n)) rec_ [c.acc]
  let (b, s) := s.regionWrite c r.end_ 8 (toBytes 8 (prod + 1)) [a]
  let s := s.noteLines (linesOf at_ 24)
  .next { s with mem := (s.mem.updAcc a fun x => { x with seen := seen }).updCmd id fun c => { c with st := .record, recs := [a, b] } }

theorem execCompletionRecordWrite_eq : execCompletionRecordWrite id s = match c.ring, c.st with
    | some r, .run =>
      if s.egressFull c then .next s.requestSeal
      else if !s.cmdMoved c || !s.mem.ringTurn c r || !s.mem.predsDelivered c.acc (homeOf (r.end_.phys r.end_.virt)) then .next s
      else if s.ringFull r then .next (if s.ctxFaulted c.ctx then s.dropCmd c else s)
      else s.writeRecord id c r
    | _, _ => .next s := by
  unfold execCompletionRecordWrite
  rw [hc]
  rfl

theorem exec_completionRecordWrite {r : Ring} (hring : c.ring = some r) (hst : c.st = .run) (hmoved : s.cmdMoved c = true)
    (hturn : s.mem.ringTurn c r = true) (hpred : s.mem.predsDelivered c.acc (homeOf (r.end_.phys r.end_.virt)) = true) :
    exec (.completionRecordWrite id) s =
      if s.ringFull r then .next (if s.ctxFaulted c.ctx then s.dropCmd c else s) else s.writeRecord id c r := by
  have hgo : (!s.cmdMoved c || !s.mem.ringTurn c r || !s.mem.predsDelivered c.acc (homeOf (r.end_.phys r.end_.virt))) = false := by
    simp [hmoved, hturn, hpred]
  refine (execCompletionRecordWrite_eq hc).trans ?_
  rw [hring, hst]
  exact (if_neg (by simp [State.egressFull_of_moved hmoved])).trans (if_neg (by simp [hgo]))

theorem State.writeRecord_cmd (r : Ring) : ∃ t c', s.writeRecord id c r = .next t ∧ t.mem.cmds.find? (fun c => c.id == id) = some c' ∧ c'.st = .record ∧
    c'.recs.length = 2 := by
  unfold State.writeRecord
  extract_lets at_ prod u c' seen t rec_
  have hu : SameCmds s u := .ending s c id
  split
  next a v hx =>
  split
  next b w hy =>
  have hv : SameCmds u v := SameCmds.of_regionWrite hx
  have hw : SameCmds v w := SameCmds.of_regionWrite hy
  extract_lets x
  have hx : SameCmds w x := .of_aside (.noteLines w (linesOf at_ 24))
  obtain ⟨k, hk, _, _⟩ := (((hu.trans hv).trans hw).trans hx).find hc
  exact ⟨_, _, rfl, MemSys.updAcc_updCmd_find (fun _ => rfl) hk, rfl, rfl⟩

end

/-! ### Fences (06 R131) -/

section
variable {s : State} {id : Nat} {f : Access} {sc : Scope} (hf : s.mem.acc? id = some f) (hsc : f.fence = some sc) (hdone : f.done = false)
  (hover : s.mem.fenceOver f sc = true)

/-- The state once a fence's wait is over. -/
def State.fenceEnded (s : State) (id : Nat) : State := { s with mem := (s.mem.updAcc id fun a => { a with done := true }).settle }

/-- The record of a fence that waited for a lost package is the last of its die's log. -/
theorem State.reportLost_record (s : State) (r : FaultRec) (hd : (if r.fwc then r.core.toNat else r.core.toNat / 64) < 5) :
    ∃ r' : FaultRec, ((s.reportLost r).pkg.faults[if r.fwc then r.core.toNat else r.core.toNat / 64]).getLast? = some r' ∧ r'.cls = 19 ∧ r'.disp = 3 := by
  refine ⟨{ r with cls := 19, disp := 3, seq := s.pkg.faultSeq, tstamp := BitVec.ofNat 64 s.pkg.cycle, ri := s.dom.ri }, ?_, rfl, rfl⟩
  simp only [State.reportLost, State.fwEvent_pkg, State.notifyFault_pkg]
  exact State.logFault_getLast _ _ hd

include hf hsc hdone hover

theorem exec_fenceWaitEnd : exec (.fenceWaitEnd id) s = .next (match f.who with
    | .core c => ((if f.lost then (s.fenceEnded id).reportLost ((s.fenceEnded id).lostRec f) else s.fenceEnded id).arriveAt c f.fb).signOffCmd (gangOf c) id
    | .hub => if f.lost then (s.fenceEnded id).reportLost ((s.fenceEnded id).lostRec f) else s.fenceEnded id) := by
  rw [show exec (.fenceWaitEnd id) s = execFenceWaitEnd id s from rfl, execFenceWaitEnd, hf]
  dsimp -zeta only
  rw [hsc, hdone]
  exact event_of_true hover _ _

end

/-! ### Tags and refresh (07 R150; 03 R66) -/

theorem exec_tagSweepVisit {s : State} {line : Nat} {b : Byte} (hsealed : s.dom.sealed = true) (htag : s.mem.tag (line / 64) = some b) :
    ∃ t : State, exec (.tagSweepVisit line) s = .next t ∧
      t.mem.tag (line / 64) = some (if 128 ≤ (s.dom.ri.toNat % 256 + 256 - b.toNat) % 256 then BitVec.ofNat 8 ((s.dom.ri.toNat + 128) % 256) else b) ∧
      t.mem.bytes = s.mem.bytes ∧ t.mem.wlog = s.mem.wlog ∧ t.core = s.core := by
  rw [show exec (.tagSweepVisit line) s = execTagSweepVisit line s from rfl, execTagSweepVisit]
  rw [htag]
  dsimp -zeta only
  rw [event_of_true hsealed]
  refine ⟨_, rfl, ?_⟩
  extract_lets cur d t'
  refine ⟨?_, rfl, rfl, rfl⟩
  obtain ⟨x, hx, _⟩ := Option.map_eq_some_iff.mp htag
  have hfind := find?_updateAll (p := fun x : Nat × Byte => x.1 == line / 64) (f := fun _ => (line / 64, t')) (fun _ _ => beq_self_eq_true _) s.mem.tags
  rw [hx] at hfind
  have ht' : t' = if 128 ≤ (s.dom.ri.toNat % 256 + 256 - b.toNat) % 256 then BitVec.ofNat 8 ((s.dom.ri.toNat + 128) % 256) else b := by
    dsimp only [t', d, cur]
    rw [Nat.mod_add_mod]
  exact (congrArg (Option.map Prod.snd) hfind).trans (congrArg some ht')

section
variable {s : State} {stack : Nat}

/-- The batch begins. -/
def State.issueBatch (s : State) (stack : Nat) : State :=
  { s with pkg := { s.pkg with postponed := s.pkg.postponed.filter (· != stack), refresh := stack :: s.pkg.refresh } }

theorem exec_refreshBatchIssue (hp : stack ∈ s.pkg.postponed) (hr : stack ∉ s.pkg.refresh) : exec (.refreshBatchIssue stack) s =
    .next (if s.stackIdle stack then s.issueBatch stack else if s.choose.1 then s.choose.2.issueBatch stack else s.choose.2) :=
  event_of_true (ok := s.pkg.postponed.contains stack && !s.pkg.refresh.contains stack) (by simp [hp, hr]) s
    fun s => if s.stackIdle stack then s.issueBatch stack else if s.choose.1 then s.choose.2.issueBatch stack else s.choose.2

theorem not_mem_issueBatch (s : State) (stack : Nat) : stack ∉ (s.issueBatch stack).pkg.postponed := by
  simp [State.issueBatch]

end

/-- Settles O47: what a command does as it ends leaves the same commands under way, of which it is then taken out; marks of a sign-off leave every gang. -/
theorem commandsEnd : Obligations.CommandsEnd := by
  refine ⟨fun s id => ⟨?_, ?_, ?_, ?_, ?_⟩, fun s line stack b => ⟨?_, ?_, ?_⟩⟩
  · intro r hr hwho hroom hfirst holder
    exact exec_replyWrite hr hwho hroom hfirst holder
  · intro r hr
    exact exec_commandComplete_reply hr
  · intro c hr hc hready
    exact exec_commandComplete_cmd hc hr hready
  · intro c r hc hring hst hmoved hturn hpred
    have hx := exec_completionRecordWrite hc hring hst hmoved hturn hpred
    intro room
    refine ⟨fun hroom => ?_, fun hroom hctx => ?_⟩
    · rw [hx, show s.ringFull r = false from decide_eq_false hroom, if_neg Bool.false_ne_true]
      obtain ⟨t, c', ht, h⟩ := State.writeRecord_cmd hc r
      exact ⟨t, c', ht, h⟩
    · rw [hx, show s.ringFull r = true from decide_eq_true (not_not.mp hroom), if_pos rfl, hctx, if_neg Bool.false_ne_true]
  · intro f sc hf hsc hdone hover
    refine ⟨_, exec_fenceWaitEnd hf hsc hdone hover, ?_, ?_⟩
    · intro c hwho
      rw [hwho]
      exact State.signOffCmd_boxes _ _ _
    · intro hlost hwho hfw
      rw [hwho, hlost]
      have hrec : (s.fenceEnded id).lostRec f = (s.fenceEnded id).faultRec { cls := 19, cause := 0, slots := 0, addr := 0, aux := 0 } 3 := by
        unfold State.lostRec
        rw [hwho]
        exact congrArg (fun u : State => u.faultRec _ 3) (State.focusId_self (s := s.fenceEnded id) rfl)
      have hpkg := (State.arriveAt_rest ((s.fenceEnded id).reportLost ((s.fenceEnded id).lostRec f)) s.core.id f.fb).2
      have hfwc : ((s.fenceEnded id).lostRec f).fwc = false := by
        rw [hrec]
        exact hfw
      have hd : (if ((s.fenceEnded id).lostRec f).fwc then ((s.fenceEnded id).lostRec f).core.toNat else ((s.fenceEnded id).lostRec f).core.toNat / 64) < 5 := by
        rw [hfwc, if_neg Bool.false_ne_true]
        omega
      obtain ⟨r, hr, hcls, hdisp⟩ := State.reportLost_record (s.fenceEnded id) ((s.fenceEnded id).lostRec f) hd
      exact ⟨_, hd, r, by rw [← hr, ← hpkg]; rfl, hcls, hdisp⟩
  · exact exec_tagSweepVisit
  · intro hp hr
    refine ⟨_, exec_refreshBatchIssue hp hr, ?_⟩
    have hno := not_mem_issueBatch
    cases hs : s.stackIdle stack with
    | true => exact ⟨rfl, rfl, .inl ⟨rfl, hno s stack⟩, fun _ => rfl⟩
    | false =>
      cases hch : s.choose.1 with
      | true => exact ⟨rfl, rfl, .inl ⟨rfl, hno s stack⟩, fun h => absurd h Bool.false_ne_true⟩
      | false => exact ⟨rfl, rfl, .inr ⟨rfl, rfl⟩, fun h => absurd h Bool.false_ne_true⟩
  · refine ⟨_, rfl, by simp, fun k hk => by simp [hk], rfl, rfl⟩

end Sys2Proof.Machine
end

section
/-! PROOF. Links: matching, retries, arrival, failures of links and planes (15 R363-R370, R375; O48). -/

namespace Sys2Proof.Machine

/-! ### Matching -/

/-- What matching makes of a transfer. -/
def Gang.matchXfer (g : Gang) (f : Nat) (x : FXfer) : FXfer :=
  match x.kind with
  | .lchk l => (match g.linkEnd x.rank l.toNat with | some e => if x.start + e.lat = f then { x with matched := true } else x | none => x)
  | .send _ => x
  | _ => if x.start = f then { x with matched := true } else x

theorem Gang.matched_xfers (g : Gang) (f : Nat) : (g.matched f).xfers = g.xfers.map (g.matchXfer f) := rfl

/-- Matching changes nothing but the mark. -/
theorem Gang.matchXfer_mark (g : Gang) (f : Nat) (x : FXfer) : g.matchXfer f x = { x with matched := (g.matchXfer f x).matched } := by
  unfold Gang.matchXfer
  split
  · split
    · split <;> rfl
    · rfl
  · rfl
  · split <;> rfl

theorem Gang.matchXfer_id (g : Gang) (f : Nat) (x : FXfer) : (g.matchXfer f x).id = x.id := by rw [Gang.matchXfer_mark]

theorem Gang.matched_ids (g : Gang) (f : Nat) : (g.matched f).xfers.map (·.id) = g.xfers.map (·.id) := by
  rw [Gang.matched_xfers, List.map_map]
  exact List.map_congr_left fun x _ => g.matchXfer_id f x

/-- A transfer that starts now: a transmit stays as it was, a receive or a relay is matched. -/
theorem Gang.matchXfer_start (g : Gang) {f : Nat} {x : FXfer} (hs : x.start = f) :
    match x.kind with | .send _ => g.matchXfer f x = x | .lchk _ => True | _ => g.matchXfer f x = { x with matched := true } := by
  obtain ⟨id, rank, kind, _⟩ := x
  cases kind with
  | send ls => rfl
  | lchk l => trivial
  | recv l => exact if_pos hs
  | relay l m => exact if_pos hs

theorem Gang.matchXfer_matched (g : Gang) {f : Nat} {x : FXfer} (hs : (g.matchXfer f x).start = f) :
    match (g.matchXfer f x).kind with | .send _ => True | .lchk _ => True | _ => (g.matchXfer f x).matched = true := by
  have hm := g.matchXfer_start (f := f) (x := x) (by rw [Gang.matchXfer_mark] at hs; exact hs)
  have hk : (g.matchXfer f x).kind = x.kind := by rw [Gang.matchXfer_mark]
  rw [hk]
  obtain ⟨id, rank, kind, _⟩ := x
  cases kind with
  | send ls => trivial
  | lchk l => trivial
  | recv l => exact congrArg FXfer.matched hm
  | relay l m => exact congrArg FXfer.matched hm

/-- After a stop a mismatched transfer stays as it was. -/
theorem Gang.drainMatch_xfers (g : Gang) (f : Nat) : (g.drainMatch f).xfers =
    g.xfers.map fun x => if ((g.mismatches f).map (·.2.1.id)).contains x.id then x else g.matchXfer f x := by
  unfold Gang.drainMatch
  dsimp only
  rw [Gang.matched_xfers, List.zip_map_right, List.zip_eq_zipWith]
  simp [List.zipWith_self]

/-- The record, the notification and the event bit of a fault leave the gang and memory. -/
theorem CoresOnly.record (s : State) (d : Nat) (r : FaultRec) (b : Nat) : CoresOnly s (((s.logFault d r).notifyFault r).fwEvent d b) :=
  ⟨by simp, by simp⟩

theorem State.faultCtx_gang (s : State) : (s.faultCtx s.gang.ctx).gang.xfers = s.gang.xfers ∧ (s.gang.alive = true → (s.faultCtx s.gang.ctx).gang.run = .faulted) := by
  simp only [State.faultCtx, State.mapGangs, beq_self_eq_true, Bool.true_and]
  refine ⟨by split <;> rfl, fun h => by rw [if_pos h]⟩

theorem exec_linkMatching_ok {s : State} (h : s.gang.mismatches s.gang.sfc.toNat = []) :
    exec .linkMatching s = .next (s.setGang (s.gang.matched s.gang.sfc.toNat)) := by
  show execLinkMatching s = _
  unfold execLinkMatching
  dsimp only
  rw [h]

/-- A mismatch faults the context; the gang's transfers are those of the drain. -/
theorem exec_linkMatching_mismatch {s : State} (h : s.gang.mismatches s.gang.sfc.toNat ≠ []) (hrun : s.gang.run = .phase) :
    ∃ t : State, exec .linkMatching s = .next t ∧ t.gang.run = .faulted ∧ t.mem = s.mem ∧
      t.gang.xfers = (s.gang.drainMatch s.gang.sfc.toNat).xfers := by
  show ∃ t : State, execLinkMatching s = .next t ∧ _
  unfold execLinkMatching
  dsimp only
  split
  next h0 => exact absurd h0 h
  next l =>
  refine ⟨_, rfl, ?_⟩
  generalize hs1 : List.foldl _ s (s.gang.mismatches s.gang.sfc.toNat) = s1
  have hk : CoresOnly s s1 := by
    rw [← hs1]
    exact List.foldlRecOn (motive := CoresOnly s) _ _ (.refl s) fun _ ht _ _ => ht.trans (.record ..)
  have hctx : (s1.setGang (s1.gang.drainMatch s.gang.sfc.toNat)).gang.ctx = s.gang.ctx := by rw [← hk.gang]; rfl
  have hf := State.faultCtx_gang (s1.setGang (s1.gang.drainMatch s.gang.sfc.toNat))
  rw [hctx] at hf
  refine ⟨hf.2 ?_, hk.mem, by rw [hf.1, ← hk.gang]; rfl⟩
  show s1.gang.alive = true
  rw [hk.gang, Gang.alive, hrun]

/-! ### Retries -/

theorem Gang.updXfer_find {g : Gang} {id : Nat} {f : FXfer → FXfer} (hf : ∀ x, (f x).id = x.id) {x : FXfer} (h : g.xfers.find? (fun x => x.id == id) = some x) :
    (g.updXfer id f).xfers.find? (fun x => x.id == id) = some (f x) := by
  have := find?_updateAll (p := fun x : FXfer => x.id == id) (f := f) (fun y hy => by rw [hf]; exact hy) g.xfers
  rw [Gang.updXfer, this, h]
  rfl

theorem FXfer.vec_none {x : FXfer} {v : Nat} (h : x.vec v = none) : x.buf.find? (·.1 == v) = none := Option.map_eq_none_iff.mp h

theorem mem_insertAuto (a : Auto) (l : List Turn) : Turn.auto a ∈ insertAuto a l := by
  induction l with
  | nil => exact List.mem_cons_self
  | cons t l ih =>
    cases t with
    | auto b => exact List.mem_cons_of_mem _ ih
    | _ => exact List.mem_cons_self

section
variable {s : State} {id v : Nat} {x : FXfer} (hx : s.gang.xfers.find? (fun x => x.id == id) = some x)
include hx

theorem exec_linkRetry_fails (hbad : x.bad = []) (hdone : x.done = false) (hv : v < x.n) (hvec : x.vec v = none) (houts : x.outs = []) :
    exec (.linkRetry id v false) s = .next (s.setGang (s.gang.updXfer id fun x => { x with bad := x.bad ++ [(v, 0)] })) := by
  show execLinkRetry id v false s = _
  unfold execLinkRetry
  rw [hx]
  dsimp only
  rw [show x.bad.find? (fun b => b.1 == v) = none by rw [hbad]; rfl]
  exact event_of_true (by simp [hdone, hv, hvec, houts]) s fun s => s.setGang (s.gang.updXfer id fun x => { x with bad := x.bad ++ [(v, 0)] })

/-- One more failed transmission of a vector. -/
def FXfer.failAgain (v : Nat) (x : FXfer) : FXfer := { x with bad := updateAll (fun b => b.1 == v) (fun b => (b.1, b.2 + 1)) x.bad }
/-- A vector received free of error. -/
def FXfer.heal (v : Nat) (x : FXfer) : FXfer := { x with bad := x.bad.filter (·.1 != v) }
def FXfer.keep (v : Nat) (b : List Byte) (x : FXfer) : FXfer := { x with buf := x.buf ++ [(v, b)] }

variable {n : Nat} {l : List (Nat × Nat)} (hbad : x.bad = (v, n) :: l) (hlate : x.start + v + 1 < s.gang.sfc.toNat) (hend : s.cluTimedEnded x.rank = true)
include hbad hlate hend

theorem exec_linkRetry_again : exec (.linkRetry id v false) s =
    .next (if 14 ≤ n then (s.setGang (s.gang.updXfer id (FXfer.failAgain v))).soon (.linkFailure id) else s.setGang (s.gang.updXfer id (FXfer.failAgain v))) := by
  show execLinkRetry id v false s = _
  unfold execLinkRetry
  rw [hx]
  dsimp only
  rw [show x.bad.find? (fun b => b.1 == v) = some (v, n) by rw [hbad]; simp]
  simp [hlate, hend]
  rfl

theorem exec_linkRetry_heals_check {k : BitVec 4} (hk : x.kind = .lchk k) :
    exec (.linkRetry id v true) s = .next (s.setGang (s.gang.updXfer id (FXfer.heal v))) := by
  show execLinkRetry id v true s = _
  unfold execLinkRetry
  rw [hx]
  dsimp only
  rw [show x.bad.find? (fun b => b.1 == v) = some (v, n) by rw [hbad]; simp]
  simp [hlate, hend, hk]
  rfl

/-- A retry free of error stores the word that the sender holds, a receiver's tile with it. -/
theorem exec_linkRetry_heals (hk : ∀ k, x.kind ≠ .lchk k) {b : List Byte} (hw : s.heldWord (s.gang.xfers.length) x v = some b) :
    exec (.linkRetry id v true) s =
      let u := s.heldPoison s.gang.xfers.length x v
      let t := match x.kind, x.cap with | .recv _, some c => u.storeWord x.rank c (x.word + v) b | _, _ => u
      .next (t.setGang ((t.gang.updXfer id (FXfer.keep v b)).updXfer id (FXfer.heal v))) := by
  show execLinkRetry id v true s = _
  unfold execLinkRetry
  rw [hx]
  dsimp only
  rw [show x.bad.find? (fun b => b.1 == v) = some (v, n) by rw [hbad]; simp]
  dsimp only
  rw [if_neg (by simp [hlate, hend]), if_pos rfl]
  split
  next k hlk => exact absurd hlk (hk k)
  rw [hw]
  rfl

end

theorem CoresOnly.notePoison (s : State) (c : Cap) (ws : List Nat) : CoresOnly s (s.notePoison c ws) := by
  unfold State.notePoison
  extract_lets t
  have ht : CoresOnly s t := ⟨rfl, rfl⟩
  split
  · exact .ite (ht.trans ⟨rfl, rfl⟩) ht
  · exact ht
theorem CoresOnly.heldPoison (n : Nat) (x : FXfer) (v : Nat) (s : State) : CoresOnly s (s.heldPoison n x v) := by
  induction n generalizing x with
  | zero => exact .refl s
  | succ n ih =>
    unfold State.heldPoison
    split
    · exact .refl s
    · split
      · exact ((CoresOnly.focus ..).trans (.notePoison ..)).trans (.focus ..)
      · exact ih _
theorem CoresOnly.setClu (s : State) (k : Cluster) : CoresOnly s (s.setClu k) := ⟨rfl, rfl⟩
theorem CoresOnly.storeWord (s : State) (r : Nat) (c : Cap) (w : Nat) (b : List Byte) : CoresOnly s (s.storeWord r c w b) :=
  ((CoresOnly.focus s r).trans (.setClu _ _)).trans (.focus ..)

theorem State.storeWord_here {s : State} {r : Nat} (h : s.rank = r) (c : Cap) (w : Nat) (b : List Byte) : (s.storeWord r c w b).clu =
    s.clu.onCap c fun k => { k with data := k.data.store (cellsAt (256 * w) b), poison := k.poison.filter (fun u => u / 32 != w) } := by
  unfold State.storeWord
  rw [State.focus_self h]
  exact congrArg State.clu (State.focus_self rfl)

/-! ### Arrival -/

/-- Ending one transfer leaves another ended. -/
theorem Gang.updXfer_done {g : Gang} {id i : Nat} (h : ∃ y, g.xfers.find? (fun x => x.id == id) = some y ∧ y.done = true) :
    ∃ y, (g.updXfer i fun y => { y with done := true }).xfers.find? (fun x => x.id == id) = some y ∧ y.done = true := by
  obtain ⟨y, hy, hd⟩ := h
  refine ⟨if y.id == i then { y with done := true } else y, ?_, by split <;> simp [hd]⟩
  unfold Gang.updXfer updateAll
  dsimp only
  rw [List.find?_map]
  have hp : ((fun x : FXfer => x.id == id) ∘ fun x : FXfer => if x.id == i then { x with done := true } else x) = fun x => x.id == id := by
    funext z
    simp only [Function.comp]
    split <;> rfl
  rw [hp, hy]
  rfl

theorem exec_linkInterfaceArrival {s : State} {id : Nat} {x : FXfer} (hx : s.gang.xfers.find? (fun x => x.id == id) = some x) {l : BitVec 4} (hk : x.kind = .recv l)
    (hm : x.matched = true) (hbad : x.bad = []) (hdone : x.done = false) (hall : ∀ i, i < x.n → (x.vec i).isSome = true) {k : Cap} (hcap : x.cap = some k) :
    ∃ t : State, exec (.linkInterfaceArrival id) s = .next t ∧ (∃ y, t.gang.xfers.find? (fun x => x.id == id) = some y ∧ y.done = true) ∧ t.mem = s.mem := by
  show ∃ t : State, execLinkInterfaceArrival id s = .next t ∧ _
  unfold execLinkInterfaceArrival
  rw [hx]
  dsimp -zeta only
  extract_lets full
  have hfull : (full && !x.done) = true := by simpa [full, hk, hm, hbad, hdone] using hall
  rw [event_of_true hfull, hcap]
  extract_lets t u
  have ht : CoresOnly s t := ((CoresOnly.focus s x.rank).trans (.setClu _ _)).trans (.focus ..)
  have hu : ∃ y, u.gang.xfers.find? (fun x => x.id == id) = some y ∧ y.done = true :=
    ⟨{ x with done := true }, Gang.updXfer_find (g := t.gang) (f := fun x => { x with done := true }) (fun _ => rfl) (by rw [ht.gang]; exact hx), rfl⟩
  have humem : u.mem = s.mem := ht.mem
  clear_value t u
  refine ⟨_, rfl, List.foldlRecOn (motive := fun w : State => (∃ y, w.gang.xfers.find? (fun x => x.id == id) = some y ∧ y.done = true) ∧ w.mem = s.mem)
    _ _ ⟨hu, humem⟩ fun w hw y _ => ?_⟩
  split
  · split
    · have hr : CoresOnly w (((w.focus y.rank).setClu ((w.focus y.rank).clu.release ‹Cap›)).focus w.rank) :=
        ((CoresOnly.focus w y.rank).trans (.setClu _ _)).trans (.focus ..)
      exact ⟨Gang.updXfer_done hw.1, hr.mem.trans hw.2⟩
    · exact hw
  · exact hw

/-! ### Failures -/

theorem exec_linkFailure {s : State} {id : Nat} {x : FXfer} (hx : s.gang.xfers.find? (fun x => x.id == id) = some x) {l : Nat} (hl : x.inLink = some l) :
    exec (.linkFailure id) s = .next (s.soon (.dataUe (.link s.gang.gid (16 * x.rank + l)))) := by
  show execLinkFailure id s = _
  unfold execLinkFailure
  rw [hx]
  dsimp only
  rw [hl]

/-- A number below the length of a list that is not empty picks an entry of it. -/
theorem nth_mem {l : List Nat} (h : l ≠ []) (n : Nat) : nth l (n % max 1 l.length) 0 ∈ l := by
  have hlen : 0 < l.length := List.length_pos_iff.mpr h
  have hlt : n % max 1 l.length < l.length := by
    rw [Nat.max_eq_right hlen]
    exact Nat.mod_lt _ hlen
  simp [nth, List.getElem?_eq_getElem hlt]

/-- A packet of a failed plane goes on one of those left. -/
def Packet.resent (v : Nat) (left : List Nat) (p : Packet) : Packet := if p.plane = v then { p with plane := nth left (p.seq % max 1 left.length) 0 } else p

theorem Packet.resent_plane {v : Nat} {left : List Nat} (h : left ≠ []) (hv : v ∉ left) (p : Packet) : (p.resent v left).plane ≠ v := by
  unfold Packet.resent
  split
  · exact fun he => hv (he ▸ nth_mem h p.seq)
  · assumption

theorem exec_planeFailure (v : Nat) (s : State) : exec (.planeFailure v) s =
    .next (({ s with dom := { s.dom with planes := s.dom.planes.filter (· != v) },
                     mem := { s.mem with packets := s.mem.packets.map (Packet.resent v (s.dom.planes.filter (· != v))) } } : State).fwEvent (planeDie v) 6) := rfl

/-- Settles O48: the events of links and planes. -/
theorem linkEventsComplete : Obligations.LinkEventsComplete := by
  intro s id v x
  refine ⟨fun h => ⟨_, exec_linkMatching_ok h, Gang.matched_ids .., fun y hy hs => ?_, rfl, rfl⟩, fun h hrun => ?_, fun hx => ⟨?_, ?_, ?_, ?_, ?_, ?_⟩, ?_⟩
  · obtain ⟨x, _, rfl⟩ := List.mem_map.mp hy
    exact Gang.matchXfer_matched _ hs
  · obtain ⟨t, he, hf, hm, hxf⟩ := exec_linkMatching_mismatch h hrun
    rw [Gang.drainMatch_xfers] at hxf
    refine ⟨t, he, hf, hm, fun x hx hb => ?_, fun x hx hb hs => ?_⟩
    · rw [hxf]
      exact List.mem_map.mpr ⟨x, hx, if_pos (List.contains_iff_mem.mpr hb)⟩
    · have hmem : s.gang.matchXfer s.gang.sfc.toNat x ∈ t.gang.xfers := by
        rw [hxf]
        exact List.mem_map.mpr ⟨x, hx, if_neg fun hc => hb (List.contains_iff_mem.mp hc)⟩
      have hk := s.gang.matchXfer_start hs
      obtain ⟨id, rank, kind, _⟩ := x
      cases kind with
      | send ls => exact hk ▸ hmem
      | lchk l => trivial
      | recv l => exact hk ▸ hmem
      | relay l m => exact hk ▸ hmem
  · intro hbad hdone hv hvec houts
    exact ⟨_, { x with bad := x.bad ++ [(v, 0)] }, exec_linkRetry_fails hx hbad hdone hv hvec houts, Gang.updXfer_find (by intro; rfl) hx, by rw [hbad]; rfl, rfl, rfl⟩
  · intro n l hbad hlate hend
    refine ⟨_, x.failAgain v, exec_linkRetry_again hx hbad hlate hend, ?_, ?_, fun hn => ?_, ?_⟩
    · rw [← Gang.updXfer_find (g := s.gang) (f := FXfer.failAgain v) (fun _ => rfl) hx]
      split <;> rfl
    · simp [FXfer.failAgain, hbad, updateAll]
    · rw [if_pos hn]
      exact mem_insertAuto ..
    · split <;> rfl
  · intro n l b hbad hlate hend hk hw hvec
    rw [exec_linkRetry_heals hx hbad hlate hend hk hw]
    extract_lets u t
    have hu : CoresOnly s u := .heldPoison ..
    have ht : CoresOnly s t := by
      unfold t
      split
      · exact hu.trans (.storeWord ..)
      · exact hu
    refine ⟨_, (x.keep v b).heal v, rfl, ?_, rfl, ?_, ht.mem, fun j c hj hc hr hur huc => ?_⟩
    · rw [← ht.gang] at hx
      exact Gang.updXfer_find (by intro; rfl) (Gang.updXfer_find (by intro; rfl) hx)
    · simp [FXfer.vec, FXfer.heal, FXfer.keep, List.find?_append, FXfer.vec_none hvec]
    · have hstore : t = u.storeWord x.rank c (x.word + v) b := by
        unfold t
        rw [hj, hc]
      show t.clu = _
      rw [hstore, State.storeWord_here (hur.trans hr), huc]
  · intro n l k hbad hlate hend hk
    exact ⟨_, x.heal v, exec_linkRetry_heals_check hx hbad hlate hend hk, Gang.updXfer_find (by intro; rfl) hx, rfl, sameRegs_refl _, rfl⟩
  · intro l k hk hm hbad hdone hall hcap
    obtain ⟨t, he, ⟨y, hy, hd⟩, hmem⟩ := exec_linkInterfaceArrival hx hk hm hbad hdone hall hcap
    exact ⟨t, y, he, hy, hd, hmem⟩
  · intro l hl
    exact ⟨_, exec_linkFailure hx hl, mem_insertAuto .., rfl, rfl, rfl⟩
  · refine ⟨_, exec_planeFailure v s, by simp, fun k hk => by simp [hk], fun hd => ?_, by simp, fun i => ?_, fun _ ⟨k, hk, hne⟩ p hp => ?_, by simp⟩
    · simp [State.fwd, State.fwEvent, hd]
    · simp only [State.fwEvent_mem, List.getElem?_map, Option.map_map]
      congr 1
      funext p
      simp only [Function.comp, Packet.resent]
      split <;> rfl
    · simp only [State.fwEvent_mem, List.mem_map] at hp
      obtain ⟨q, _, rfl⟩ := hp
      have hmem : k ∈ s.dom.planes.filter (· != v) := List.mem_filter.mpr ⟨hk, by simp [hne]⟩
      exact Packet.resent_plane (List.ne_nil_of_mem hmem) (by simp) q

end Sys2Proof.Machine
end

section
/-! PROOF. The events of a seal: requests, the start, the barrier, the commit, the bounds (07 R148-R169; O49). -/

namespace Sys2Proof.Machine

theorem event_of_false {ok : Bool} (h : ok = false) (s : State) (k : State → State) : event ok s k = .next s := by rw [event, if_neg (by simp [h])]

/-- What a request does to the protocol: it begins one where none is under way, and makes another follow where one is. -/
theorem State.requestSeal_asks (s : State) : ∃ (st : SealSt) (again : Bool), s.requestSeal = { s with dom := { s.dom with st := st, again := again } } ∧
    (s.dom.st = .none → st = .requested ∧ again = s.dom.again) ∧ (s.dom.st = .requested → st = .requested ∧ again = s.dom.again) ∧
    (s.dom.st = .barrier ∨ s.dom.st = .closed → st = s.dom.st ∧ again = true) := by
  by_cases h0 : s.dom.st = .none
  · exact ⟨_, _, State.requestSeal_none h0, by simp [h0], by simp [h0], by simp [h0]⟩
  · by_cases h1 : s.dom.st = .requested
    · exact ⟨_, _, State.requestSeal_requested h1, by simp [h0], by simp [h1], by simp [h1]⟩
    · exact ⟨_, _, State.requestSeal_again h0 h1, by simp [h0], by simp [h1], by simp⟩

/-! ### The start -/

/-- A gang that has not arrived hears of the seal. -/
def Gang.heard (g : Gang) (s : State) : Gang := if g.unarrived then g.hearSeal s else g

theorem Gang.heard_req {g : Gang} {s : State} (hst : s.dom.st = .barrier) (h : (g.heard s).unarrived = true) : (g.heard s).req.sealReq = true := by
  unfold Gang.heard at h ⊢
  split
  next hu =>
    have hs : g.sealed = false := by simpa [Gang.unarrived] using (Bool.and_eq_true_iff.mp hu).2
    rw [Gang.hearSeal, if_pos (by simp [hst, hs])]
  next hu =>
    rw [if_neg hu] at h
    exact absurd h hu

theorem State.fwEvent_rest (s : State) (d b : Nat) : ∃ f, s.fwEvent d b = { s with fw := f } := by
  unfold State.fwEvent
  split
  · exact ⟨_, rfl⟩
  · exact ⟨s.fw, rfl⟩

/-- The registers of a die that is told of an event. -/
theorem State.fwd_fwEvent (s : State) {d : Nat} (hd : d < 5) (b : Nat) :
    (s.fwEvent d b).fwd d = { s.fwd d with evt := (s.fwd d).evt ||| BitVec.ofNat 64 (2 ^ b) } := by
  simp [State.fwEvent, State.fwd, hd]
theorem State.fwd_fwEvent_ne (s : State) {d k : Nat} (hk : k ≠ d) (b : Nat) : (s.fwEvent d b).fwd k = s.fwd k := by
  unfold State.fwEvent State.fwd
  split
  · split
    · exact Vector.getElem_set_ne ‹d < 5› ‹k < 5› (Ne.symm hk)
    · rfl
  · rfl

theorem getLsbD_or_two_pow (v : W64) {b : Nat} (hb : b < 64) : (v ||| BitVec.ofNat 64 (2 ^ b)).getLsbD b = true := by
  rw [BitVec.getLsbD_or, BitVec.getLsbD_ofNat, Nat.testBit_two_pow_self, decide_eq_true hb]
  simp

/-- A die that is told has the bit, and every die keeps the bits it had. -/
theorem State.fwEvent_told (s : State) {d k b : Nat} (hb : b < 64) (hd : d < 5) (hk : (s.fwd k).evt.getLsbD b = true ∨ k = d) :
    ((s.fwEvent d b).fwd k).evt.getLsbD b = true := by
  by_cases hkd : k = d
  · subst hkd
    rw [State.fwd_fwEvent s hd]
    exact getLsbD_or_two_pow _ hb
  · rw [State.fwd_fwEvent_ne s hkd]
    exact hk.resolve_right hkd

/-- The dies of a list are told of event `b`. -/
def State.tell (s : State) (b : Nat) (l : List Nat) : State := l.foldl (fun s d => s.fwEvent d b) s

theorem State.tell_rest (s : State) (b : Nat) (l : List Nat) : ∃ f, s.tell b l = { s with fw := f } :=
  List.foldlRecOn (motive := fun t : State => ∃ f, t = { s with fw := f }) l _ ⟨s.fw, rfl⟩ fun t ⟨f, ht⟩ d _ => by
    obtain ⟨g, hg⟩ := t.fwEvent_rest d b
    exact ⟨g, by rw [hg, ht]⟩

theorem State.tell_told {l : List Nat} {b : Nat} (hb : b < 64) (hl : ∀ d ∈ l, d < 5) {s : State} {k : Nat} (hk : (s.fwd k).evt.getLsbD b = true ∨ k ∈ l) :
    ((s.tell b l).fwd k).evt.getLsbD b = true := by
  induction l generalizing s with
  | nil => exact hk.resolve_right List.not_mem_nil
  | cons d l ih =>
    refine ih (fun x hx => hl x (List.mem_cons_of_mem _ hx)) ?_
    by_cases h : k ∈ l
    · exact .inr h
    · exact .inl (s.fwEvent_told hb (hl d List.mem_cons_self) (hk.imp_right fun hm => (List.mem_cons.mp hm).resolve_right h))

theorem State.tell_all (s : State) {b : Nat} (hb : b < 64) {d : Nat} (hd : d < 5) : ((s.tell b [0, 1, 2, 3, 4]).fwd d).evt.getLsbD b = true :=
  State.tell_told hb (by decide) (.inr (by simp; omega))

theorem exec_sealStart {s : State} (h : s.dom.st = .requested) :
    ∃ t : State, exec .sealStart s = .next t ∧ t.dom.st = .barrier ∧ t.dom.again = false ∧ t.core = s.core ∧ t.mem = s.mem ∧ (∀ d < 5, (t.fwd d).evt.getLsbD 2 = true) ∧
      (∀ b ∈ t.allBoxes, b.gang.unarrived = true → b.gang.req.sealReq = true) := by
  have he : exec .sealStart s = _ := event_of_true (ok := s.dom.st == .requested) (by simp [h]) s fun s =>
    let s : State := { s with dom := { s.dom with st := .barrier, again := false } }
    (s.mapGangs fun g => g.heard s).tell 2 [0, 1, 2, 3, 4]
  refine ⟨_, he, ?_⟩
  extract_lets _ u
  obtain ⟨f, hf⟩ := (u.mapGangs fun g => g.heard u).tell_rest 2 [0, 1, 2, 3, 4]
  have htold : ∀ d < 5, (((u.mapGangs fun g => g.heard u).tell 2 [0, 1, 2, 3, 4]).fwd d).evt.getLsbD 2 = true :=
    fun d hd => State.tell_all _ (by decide) hd
  rw [hf] at htold ⊢
  refine ⟨rfl, rfl, rfl, rfl, htold, fun b hb hu => ?_⟩
  rcases List.mem_cons.mp hb with rfl | hb
  · exact Gang.heard_req (g := u.gang) (s := u) rfl hu
  · obtain ⟨c, _, rfl⟩ := List.mem_map.mp hb
    exact Gang.heard_req (g := c.gang) (s := u) rfl hu

/-! ### The commit -/

/-- What the commit keeps where no effect is held. -/
structure Unreleased (s t : State) : Prop where
  core : t.core = s.core
  mem : t.mem = s.mem
  dom : t.dom = s.dom
  boxes : t.allBoxes = s.allBoxes
  peers : t.pkg.peers = s.pkg.peers
  disp : t.disp = s.disp
  host : t.host = s.host

namespace Unreleased

theorem refl (s : State) : Unreleased s s := by constructor <;> rfl
theorem trans {s t u : State} (h : Unreleased s t) (h' : Unreleased t u) : Unreleased s u :=
  ⟨h'.core.trans h.core, h'.mem.trans h.mem, h'.dom.trans h.dom, h'.boxes.trans h.boxes, h'.peers.trans h.peers, h'.disp.trans h.disp, h'.host.trans h.host⟩
theorem foldl {α : Type} {P : State → Prop} {f : State → α → State} (hf : ∀ s x, P s → Unreleased s (f s x)) (hP : ∀ s t, Unreleased s t → P s → P t)
    (l : List α) (s : State) (h : P s) : Unreleased s (l.foldl f s) :=
  List.foldlRecOn (motive := Unreleased s) l f (.refl s) fun _ ht x _ => ht.trans (hf _ x (hP _ _ ht h))
theorem readArea (s : State) (c : Ctx) (va n : Nat) : Unreleased s (s.readArea c va n) := by
  refine foldl (P := fun _ => True) (fun s _ _ => ?_) (fun _ _ _ _ => trivial) _ s trivial
  split
  · constructor <;> rfl
  · exact .refl s
theorem recountEgress (s : State) : Unreleased s s.recountEgress := by constructor <;> rfl
theorem setCtx (s : State) (c : Ctx) : Unreleased s (s.setCtx c) := by constructor <;> rfl

theorem sendOne {s : State} (h : s.pkg.peers = []) (acc : Nat) (q : BitVec 16) (i : Nat) : Unreleased s (s.sendOne acc q i) := by
  rw [State.sendOne, h]
  exact .refl s
theorem noPeers {s t : State} (ht : Unreleased s t) (h : s.pkg.peers = []) : t.pkg.peers = [] := ht.peers.trans h
theorem sendTodo {s : State} (h : s.pkg.peers = []) (c : BitVec 16) : Unreleased s (s.sendTodo c) := by
  unfold State.sendTodo
  split
  · exact .refl s
  · exact (setCtx _ _).trans (foldl (fun _ _ hp => sendOne hp ..) (fun _ _ ht => ht.noPeers) _ _ h)

theorem releaseHeld {s : State} (hheld : s.dom.held = []) (hp : s.pkg.peers = []) (n : W32) : Unreleased s (s.releaseHeld n) := by
  unfold State.releaseHeld
  extract_lets mine _ u v w
  have hdom : ({ s.dom with held := s.dom.held.filter (·.ri != n) } : Domain) = s.dom := by
    rw [show s.dom.held.filter (·.ri != n) = s.dom.held by rw [hheld]; rfl]
  have hu : Unreleased s u := ⟨rfl, rfl, hdom, rfl, rfl, rfl, rfl⟩
  have hv : Unreleased u v := foldl (P := fun _ => True) (fun _ _ _ => readArea ..) (fun _ _ _ _ => trivial) _ u trivial
  have hmine : mine = [] := by simp [mine, hheld]
  have hw : Unreleased v w := by
    unfold w
    rw [hmine]
    exact recountEgress v
  have hsw := (hu.trans hv).trans hw
  exact hsw.trans (foldl (fun _ _ h => sendTodo h _) (fun _ _ ht => ht.noPeers) _ _ (hsw.noPeers hp))

end Unreleased

theorem State.resumeSealed_none {s : State} (h : ∀ b ∈ s.allBoxes, b.gang.sealed = false) :
    s.resumeSealed = let r := s.mapGangs fun g => { g with sealed := false, sealLeft := none, req := { g.req with sealReq := false } }; r := by
  unfold State.resumeSealed
  extract_lets ids t
  have hids : ids = [] := by
    simp only [ids, List.map_eq_nil_iff, List.filter_eq_nil_iff]
    exact fun b hb => by simp [h b hb]
  rw [hids]
  rfl

/-- The snapshot leaves all but its own slots, and what was poked of the slot that it takes. -/
structure Snapped (s t : State) : Prop where
  core : t.core = s.core
  mem : t.mem = s.mem
  ri : t.dom.ri = s.dom.ri
  sealed : t.dom.sealed = s.dom.sealed
  again : t.dom.again = s.dom.again
  held : t.dom.held = s.dom.held
  boxes : t.allBoxes = s.allBoxes
  peers : t.pkg.peers = s.pkg.peers
  disp : t.disp = s.disp
  host : t.host = s.host

theorem State.takeSnapshot_snapped (s : State) : Snapped s s.takeSnapshot := by
  unfold State.takeSnapshot
  split
  · constructor <;> rfl
  · extract_lets n d newer
    cases hd : d.slotB with
    | true => constructor <;> rfl
    | false => constructor <;> rfl

theorem State.commitSeal_spec {s : State} (hq : s.host.pendq = []) (hheld : s.dom.held = []) (hp : s.pkg.peers = []) (hl : s.disp.launches = [])
    (hb : ∀ b ∈ s.allBoxes, b.gang.sealed = false) :
    s.commitSeal.dom.ri = (if s.dom.sealed then nextRi s.dom.ri else s.dom.ri) ∧ s.commitSeal.dom.st = (if s.dom.again then .requested else .none) ∧
      (∀ l ∈ s.commitSeal.mem.undo.toList, l = []) ∧ s.commitSeal.mem.syncBit = [] ∧ s.commitSeal.mem.bytes = s.mem.bytes ∧ s.commitSeal.core = s.core := by
  unfold State.commitSeal
  extract_lets n p _ m _ u
  have hs : Snapped s p := s.takeSnapshot_snapped
  clear_value p
  have hheld' : (u.freeInputs n).relabel.dom.held = [] := hs.held.trans hheld
  have hp' : (u.freeInputs n).relabel.pkg.peers = [] := hs.peers.trans hp
  have hw := Unreleased.releaseHeld hheld' hp' n
  generalize (u.freeInputs n).relabel.releaseHeld n = w at hw
  have hboxes : w.allBoxes = s.allBoxes := hw.boxes.trans hs.boxes
  have hlaunch : w.disp.launches = [] := (congrArg Disp.launches (hw.disp.trans hs.disp)).trans hl
  have hpend : w.host.pendq = [] := (congrArg HostIf.pendq (hw.host.trans hs.host)).trans hq
  rw [State.resumeSealed_none (by rw [hboxes]; exact hb)]
  extract_lets r
  have hr : r.rearm = r := by rw [State.rearm, show r.disp.launches = [] from hlaunch]; rfl
  rw [hr, State.performPending, show r.host.pendq = [] from hpend]
  show w.dom.ri = _ ∧ w.dom.st = _ ∧ (∀ l ∈ w.mem.undo.toList, l = []) ∧ w.mem.syncBit = [] ∧ w.mem.bytes = _ ∧ w.core = _
  rw [hw.dom, hw.mem, hw.core]
  refine ⟨?_, ?_, ?_, rfl, (congrArg MemSys.bytes hs.mem :), hs.core⟩
  · rw [← hs.sealed]
    rfl
  · rw [← hs.again]
    rfl
  · intro l hl
    exact (Vector.mem_replicate.mp (Vector.mem_toList_iff.mp hl)).2

/-! ### The obligation -/

/-- Settles O49: the events of a seal. -/
theorem sealEventsComplete : Obligations.SealEventsComplete := by
  intro s asked
  have hask (i : Instr) (h : exec i s = .next s.requestSeal) : asked i := by
    obtain ⟨st, again, he, hk⟩ := s.requestSeal_asks
    exact ⟨st, again, h.trans (by rw [he]), hk⟩
  refine ⟨fun hs => ⟨hask _ ?_, hask _ ?_⟩, fun hs hh => hask _ ?_, fun hs => ⟨?_, ?_, ?_⟩, exec_sealStart, fun hst hb hq => ?_, fun hst hsw => ?_,
    fun hst hsw hq hheld hp hl hb => ⟨_, ?_, State.commitSeal_spec hq hheld hp hl hb⟩, fun hl hu => ?_, fun hst => ?_, rfl, fun r hr => ?_⟩
  · exact congrArg Host.Outcome.next (if_pos hs)
  · exact event_of_true hs s _
  · obtain ⟨h, hm, a, b, c, d, e, he⟩ := hh
    refine event_of_true ?_ s _
    rw [hs, Bool.true_and]
    exact List.any_eq_true.mpr ⟨h, hm, by rw [he]; rfl⟩
  · exact congrArg Host.Outcome.next (if_neg (by simp [hs]))
  · exact event_of_false hs s _
  · exact event_of_false (by rw [hs, Bool.false_and]) s _
  · refine event_of_true ?_ s fun s => { s with dom := { s.dom with st := .closed } }
    have hall : s.barrierReady = true := by
      rw [State.barrierReady, hq, Bool.and_true]
      exact List.all_eq_true.mpr fun b hm => by simp [hb b hm]
    rw [hst, hall]
    rfl
  · refine event_of_true (ok := s.dom.st == .closed && s.sweepOk) ?_ s State.commitSeal
    simp [hst, hsw]
  · refine event_of_true (ok := s.dom.st == .closed && s.sweepOk) ?_ s State.commitSeal
    simp [hst, hsw]
  · refine event_of_true (ok := s.gang.sealLeft == some 0 && s.gang.unarrived) ?_ s fun s => s.sealTimeout s.gang.gid
    simp [hl, hu]
  · refine event_of_true (ok := s.dom.st == .barrier) ?_ s fun s =>
      ((s.allBoxes.filter fun b => b.gang.unarrived || (b.gang.sealed && !s.stored b.gang.ctx)).map (·.gang.gid)).foldl State.sealTimeout s
    rw [hst]
    rfl
  · rw [nextRi, if_neg hr]
    bv_omega

end Sys2Proof.Machine
end

section
/-! PROOF. Frames and links of the host: WRITE and READ, NAK, snoops, lost ports, peers (18 R413-R420; O52). -/

namespace Sys2Proof.Machine

/-! ### A request that is taken (18 R413, R414) -/

/-- The record of a taken request: the core, the gang, memory and all but the number and the frames of the host port stay. -/
structure Taken (s t : State) (ack : Out) : Prop where
  core : t.core = s.core
  clu : t.clu = s.clu
  clus : t.clus = s.clus
  mem : t.mem = s.mem
  seq : t.host.seq = s.host.seq + 1
  reads : t.host.reads = s.host.reads
  pendq : t.host.pendq = s.host.pendq
  ack : ack ∈ t.host.sent
  peers : t.pkg.peers = s.pkg.peers
  ctxs : ∀ id c, s.ctxOf id = some c → ∃ n, t.ctxOf id = some { c with inlogUsed := n }

theorem Taken.sameBytes {s t : State} {ack : Out} (h : Taken s t ack) : SameBytes s t :=
  ⟨fun _ _ _ => by rw [h.mem], fun _ _ => by rw [h.clu], h.clus.symm⟩

/-- What the log of an input leaves. -/
structure Logged (s t : State) : Prop where
  core : t.core = s.core
  clu : t.clu = s.clu
  clus : t.clus = s.clus
  gang : t.gang = s.gang
  mem : t.mem = s.mem
  host : t.host = s.host
  peers : t.pkg.peers = s.pkg.peers
  barrier : t.barrier = s.barrier
  ctxs : ∀ id c, s.ctxOf id = some c → ∃ n, t.ctxOf id = some { c with inlogUsed := n }

theorem Logged.refl (s : State) : Logged s s := ⟨rfl, rfl, rfl, rfl, rfl, rfl, rfl, rfl, fun _ c h => ⟨c.inlogUsed, h⟩⟩
theorem Logged.trans {s t u : State} (h : Logged s t) (h' : Logged t u) : Logged s u :=
  ⟨h'.core.trans h.core, h'.clu.trans h.clu, h'.clus.trans h.clus, h'.gang.trans h.gang, h'.mem.trans h.mem, h'.host.trans h.host, h'.peers.trans h.peers,
    h'.barrier.trans h.barrier, fun id c hc => by
      obtain ⟨n, hn⟩ := h.ctxs id c hc
      obtain ⟨k, hk⟩ := h'.ctxs id _ hn
      exact ⟨k, hk⟩⟩

/-- A seal that is requested is not yet a barrier. -/
theorem State.requestSeal_barrier (s : State) : s.requestSeal.barrier = s.barrier := by
  unfold State.requestSeal State.barrier
  split
  next h => rw [h]; rfl
  next h => rfl
  next h => rfl

theorem Logged.pressSeal (s : State) : Logged s s.pressSeal := by
  unfold State.pressSeal
  split
  · exact ⟨by simp, by simp, by simp, by simp, by simp, by simp, by simp, s.requestSeal_barrier, fun id c h => ⟨c.inlogUsed, by
      rw [State.ctxOf, State.requestSeal_pkg]
      exact h⟩⟩
  · exact .refl s

theorem State.ctxOf_id {s : State} {id : BitVec 16} {c : Ctx} (h : s.ctxOf id = some c) : c.id = id := by
  simpa using List.find?_some h

/-- A context whose record is replaced is found as replaced. -/
theorem State.ctxOf_setCtx {s : State} {id : BitVec 16} {c : Ctx} (hc : s.ctxOf id = some c) {d : Ctx} (hd : d.id = c.id) : (s.setCtx d).ctxOf id = some d := by
  have hid := State.ctxOf_id hc
  have := find?_updateAll (p := fun x : Ctx => x.id == id) (f := fun _ => d) (fun _ _ => by simp [hd, hid]) s.pkg.ctxs
  rw [State.ctxOf, State.setCtx, hd, hid, this]
  show Option.map _ (s.ctxOf id) = _
  rw [hc]
  rfl

/-- Another one is found as it was. -/
theorem State.ctxOf_setCtx_ne {s : State} {id : BitVec 16} {d : Ctx} (hd : d.id ≠ id) : (s.setCtx d).ctxOf id = s.ctxOf id := by
  unfold State.ctxOf State.setCtx updateAll
  dsimp only
  induction s.pkg.ctxs with
  | nil => rfl
  | cons x l ih =>
    rw [List.map_cons]
    by_cases hx : x.id = d.id
    · rw [if_pos (beq_iff_eq.mpr hx), List.find?_cons_of_neg (by simpa using hd), List.find?_cons_of_neg (by rw [hx]; simpa using hd), ih]
    · rw [if_neg (by simpa using hx)]
      by_cases hi : x.id = id
      · rw [List.find?_cons_of_pos (by simpa using hi), List.find?_cons_of_pos (by simpa using hi)]
      · rw [List.find?_cons_of_neg (by simpa using hi), List.find?_cons_of_neg (by simpa using hi), ih]

theorem Logged.logInputAt (s : State) (ri : W32) (ctx : BitVec 16) (r : InRec) (len : Nat) : Logged s (s.logInputAt ri ctx r len) := by
  unfold State.logInputAt
  split
  · exact .refl s
  · extract_lets _ t
    have ht : Logged s t := ⟨rfl, rfl, rfl, rfl, rfl, rfl, rfl, rfl, fun _ c h => ⟨c.inlogUsed, h⟩⟩
    split
    · exact ht
    next c hc =>
      extract_lets c' u
      have hu : Logged t u := ⟨rfl, rfl, rfl, rfl, rfl, rfl, rfl, rfl, fun id d hd => by
        by_cases hid : id = ctx
        · subst hid
          obtain rfl : c = d := Option.some.inj (hc.symm.trans hd)
          exact ⟨c'.inlogUsed, State.ctxOf_setCtx hc rfl⟩
        · exact ⟨d.inlogUsed, (State.ctxOf_setCtx_ne (by rw [show c'.id = c.id from rfl, State.ctxOf_id hc]; exact Ne.symm hid)).trans hd⟩⟩
      split
      · exact (ht.trans hu).trans (.pressSeal u)
      · exact ht.trans hu

theorem State.request_taken {s : State} {seq : W32} {ctx : BitVec 16} {tag : W64} {bad flow : Bool} {r : InRec} {len : Nat} {run : State → State}
    (hb : s.pkg.booted = true) (hseq : seq = s.host.seq) (hbad : bad = false) (hflow : flow = false) (hr : ∀ op f, r ≠ .command op f)
    (hbar : s.barrier = false) (hq : s.host.pendq = []) :
    ∃ u, s.request seq ctx tag bad flow r len run = run u ∧ Taken s u (.frame 0x84 0 seq ctx tag []) := by
  unfold State.request
  rw [hb, hbad, hflow, if_neg (by simp), if_neg (by simp [hseq]), if_neg (by simp), if_neg (by simp)]
  extract_lets ri _ t u v
  have ht : Logged t (t.logInputAt ri ctx r len) := .logInputAt ..
  have hv : v = u := by
    unfold v
    split
    · exact absurd rfl (hr _ _)
    · rfl
  have hbu : u.barrier = false := ht.barrier.trans hbar
  have hqu : u.host.pendq = [] := (congrArg HostIf.pendq ht.host).trans hq
  rw [hv, hbu, hqu]
  refine ⟨u, rfl, ht.core, ht.clu, ht.clus, ht.mem, (congrArg HostIf.seq ht.host :), (congrArg HostIf.reads ht.host :), (congrArg HostIf.pendq ht.host :), ?_, ht.peers, ht.ctxs⟩
  exact List.mem_append_right _ List.mem_cons_self

/-! ### The hub's accesses -/

/-- Events of an access are queued; nothing else changes but numbers, the accesses and the packets on their way. -/
structure HubQueues (s t : State) (id : Nat) : Prop where
  core : t.core = s.core
  clu : t.clu = s.clu
  clus : t.clus = s.clus
  host : t.host = s.host
  pkg : t.pkg = s.pkg
  bytes : t.mem.bytes = s.mem.bytes
  wlog : t.mem.wlog = s.mem.wlog
  farDraw : t.mem.farDraw = s.mem.farDraw
  wq : ∀ e ∈ t.mem.wq, e ∈ s.mem.wq ∨ e.acc = id
  rq : ∀ e ∈ s.mem.rq, e ∈ t.mem.rq

namespace HubQueues
variable {s t u : State} {id : Nat}

theorem refl (s : State) (id : Nat) : HubQueues s s id := ⟨rfl, rfl, rfl, rfl, rfl, rfl, rfl, rfl, fun _ h => .inl h, fun _ h => h⟩
theorem trans (h : HubQueues s t id) (h' : HubQueues t u id) : HubQueues s u id :=
  ⟨h'.core.trans h.core, h'.clu.trans h.clu, h'.clus.trans h.clus, h'.host.trans h.host, h'.pkg.trans h.pkg, h'.bytes.trans h.bytes, h'.wlog.trans h.wlog,
    h'.farDraw.trans h.farDraw, fun e he => (h'.wq e he).elim (h.wq e) .inr, fun e he => h'.rq e (h.rq e he)⟩
theorem foldl {α : Type} {f : State → α → State} (hf : ∀ s x, HubQueues s (f s x) id) (l : List α) (s : State) : HubQueues s (l.foldl f s) id :=
  List.foldlRecOn (motive := fun t => HubQueues s t id) l f (.refl s id) fun _ ht x _ => ht.trans (hf _ x)
theorem addWrite (s : State) (src : WSrc) (line : Nat) (lg : Bool) (home : Nat) : HubQueues s (s.addWrite id src line lg home) id :=
  ⟨rfl, rfl, rfl, rfl, rfl, rfl, rfl, rfl, fun e he => (List.mem_append.mp he).imp_right fun h => by rw [List.mem_singleton.mp h], fun _ h => h⟩
theorem addRead (s : State) (a n : Nat) (d : RDst) : HubQueues s (s.addRead id a n d) id :=
  ⟨rfl, rfl, rfl, rfl, rfl, rfl, rfl, rfl, fun _ he => .inl he, fun _ h => List.mem_append_left _ h⟩

theorem sameBytes (h : HubQueues s t id) : SameBytes s t :=
  ⟨fun d x _ => by rw [MemSys.byteAt_eq, MemSys.byteAt_eq, h.bytes, h.wlog, h.farDraw], fun _ _ => by rw [h.clu], h.clus.symm⟩
theorem sameRegs (h : HubQueues s t id) : SameRegs s.core t.core := by
  rw [h.core]
  exact sameRegs_refl _

theorem hubAccess (s : State) (ctx : BitVec 16) (preds : List Nat) (lines : List (Nat × List Host.Cell)) :
    (s.hubAccess ctx preds lines).1 = s.mem.nextId ∧ HubQueues s (s.hubAccess ctx preds lines).2 s.mem.nextId := by
  refine ⟨rfl, ?_⟩
  have ht : HubQueues s ({ (s.newAccess .hub 4 0 preds true).2 with mem := (s.newAccess .hub 4 0 preds true).2.mem.updAcc s.mem.nextId fun a => { a with ctx := ctx } } : State)
      s.mem.nextId := ⟨rfl, rfl, rfl, rfl, rfl, rfl, rfl, rfl, fun _ h => .inl h, fun _ h => h⟩
  exact ht.trans (foldl (fun s x => addWrite s ..) lines _)

end HubQueues

/-! ### WRITE and READ (18 R415) -/

theorem State.hostWrite_queued {s : State} {seq : W32} {ctx : BitVec 16} {tag : W64} {off : Nat} {data : List Byte} {ben : List Bool} {c : Ctx}
    (hc : s.ctxOf ctx = some c) (hoff : 0x10000 ≤ off) (hfit : off + data.length ≤ c.mboxLen) :
    HubQueues s (s.hostWrite seq ctx tag off data ben) s.mem.nextId ∧ (s.hostWrite seq ctx tag off data ben).mem.hubLast = [s.mem.nextId] := by
  unfold State.hostWrite
  rw [hc]
  dsimp only
  rw [if_neg (by omega)]
  obtain ⟨_, h⟩ := HubQueues.hubAccess s ctx s.mem.hubLast (s.writeLines c off data ben)
  exact ⟨⟨h.core, h.clu, h.clus, h.host, h.pkg, h.bytes, h.wlog, h.farDraw, h.wq, h.rq⟩, rfl⟩

/-- The pieces that a READ asks for, one for each line. -/
def Ctx.readPieces (c : Ctx) (off len : Nat) : List (Nat × Nat) :=
  if len = 0 then [(c.mbox + off - (if off = c.mboxLen then 1 else 0), 0)] else vaPieces (c.mbox + off) len
def State.readAddrs (s : State) (c : Ctx) (off len : Nat) : Option (List (Nat × Nat)) :=
  (c.readPieces off len).mapM fun p => (s.ctxPa c p.1).map fun a => (a, p.2)

theorem Ctx.readPieces_ne_nil (c : Ctx) (off len : Nat) : c.readPieces off len ≠ [] := by
  unfold Ctx.readPieces
  split
  · exact List.cons_ne_nil _ _
  next h =>
    cases len with
    | zero => exact absurd rfl h
    | succ n => exact List.cons_ne_nil _ _

theorem State.readAddrs_ne_nil {s : State} {c : Ctx} {off len : Nat} {l : List (Nat × Nat)} (h : s.readAddrs c off len = some l) : l ≠ [] := by
  unfold State.readAddrs at h
  rintro rfl
  have hn := c.readPieces_ne_nil off len
  cases hp : c.readPieces off len with
  | nil => exact hn hp
  | cons p ps =>
    rw [hp] at h
    simp [List.mapM_cons, Option.bind_eq_some_iff] at h

/-- What a context's pages are depends on memory and its root alone. -/
theorem State.ctxPa_logged {s t : State} (hm : t.mem = s.mem) (c : Ctx) (n va : Nat) : t.ctxPa { c with inlogUsed := n } va = s.ctxPa c va := by
  unfold State.ctxPa State.ctxLeaf State.walkFrom
  rw [hm]

theorem foldl_addRead_mem {l : List (Nat × Nat)} {id : Nat} {d : RDst} {s : State} {p : Nat × Nat} (hp : p ∈ l) :
    ∃ e ∈ (l.foldl (fun s p => s.addRead id p.1 p.2 d) s).mem.rq, e.acc = id ∧ e.addr = p.1 ∧ e.n = p.2 ∧ e.dst = d ∧ e.val = none := by
  induction l generalizing s with
  | nil => exact absurd hp List.not_mem_nil
  | cons q l ih =>
    rcases List.mem_cons.mp hp with rfl | hp
    · exact ⟨_, (HubQueues.foldl (fun s p => .addRead s p.1 p.2 d) l _).rq _ (List.mem_append_right _ List.mem_cons_self), rfl, rfl, rfl, rfl, rfl⟩
    · exact ih hp

theorem State.hostReadDone_waits {s : State} {h : Nat} (hr : ∃ e ∈ s.mem.rq, e.acc = h) : s.hostReadDone h = s := by
  obtain ⟨e, he, hacc⟩ := hr
  unfold State.hostReadDone
  split
  · rfl
  · exact if_pos (List.any_eq_true.mpr ⟨e, he, by simp [hacc]⟩)

theorem State.hostRead_queued {s : State} {seq : W32} {ctx : BitVec 16} {tag : W64} {off len : Nat} {c : Ctx} {l : List (Nat × Nat)}
    (hc : s.ctxOf ctx = some c) (hfit : off + len ≤ c.mboxLen) (hl : s.readAddrs c off len = some l) :
    ∃ (t : State) (r : HostRead), s.hostRead seq ctx tag off len = t ∧ t.core = s.core ∧ SameBytes s t ∧ t.host.seq = s.host.seq ∧ t.host.sent = s.host.sent ∧
      t.mem.hubLast = [s.mem.nextId] ∧ t.host.reads = s.host.reads ++ [r] ∧ r.acc = s.mem.nextId ∧ r.seq = seq ∧ r.tag = tag ∧ r.pieces = l ∧
      ∀ p ∈ l, ∃ e ∈ t.mem.rq, e.acc = s.mem.nextId ∧ e.addr = p.1 ∧ e.n = p.2 ∧ e.dst = .host s.mem.nextId ∧ e.val = none := by
  have hne := State.readAddrs_ne_nil hl
  unfold State.readAddrs Ctx.readPieces at hl
  unfold State.hostRead
  rw [hc]
  dsimp -zeta only
  rw [if_neg (by omega), hl]
  dsimp -zeta only
  obtain ⟨hid, hq⟩ := HubQueues.hubAccess s ctx s.mem.hubLast []
  generalize s.hubAccess ctx s.mem.hubLast [] = x at hid hq
  obtain ⟨id, u⟩ := x
  obtain rfl : id = s.mem.nextId := hid
  dsimp -zeta only
  have hv := hq.trans (HubQueues.foldl (f := fun t p => t.addRead s.mem.nextId p.1 p.2 (.host s.mem.nextId)) (fun t p => .addRead t p.1 p.2 (.host _)) l u)
  have hr : ∀ p ∈ l, _ := fun p hp => foldl_addRead_mem (id := s.mem.nextId) (d := .host s.mem.nextId) (s := u) hp
  generalize l.foldl (fun t p => t.addRead s.mem.nextId p.1 p.2 (.host s.mem.nextId)) u = v at hv hr
  obtain ⟨p, hp⟩ := List.exists_mem_of_ne_nil l hne
  obtain ⟨e, he, hacc, _⟩ := hr p hp
  exact ⟨_, { acc := s.mem.nextId, seq := seq, ctx := ctx, tag := tag, pieces := l, data := [] }, State.hostReadDone_waits ⟨e, he, hacc⟩, hv.core,
    ⟨hv.sameBytes.glob, hv.sameBytes.tile, hv.sameBytes.others⟩, (congrArg HostIf.seq hv.host :), (congrArg HostIf.sent hv.host :), rfl,
    congrArg (HostIf.reads · ++ _) hv.host, rfl, rfl, rfl, rfl, hr⟩

/-! ### The answer of a READ (18 R415, 07 R160) -/

/-- A READ without further read events is answered: its frame leaves, or is held in a sealed domain. -/
theorem State.hostReadDone_answers {s : State} {h : Nat} {r : HostRead} (hr : s.host.reads.find? (fun r => r.acc == h) = some r) (hq : ∀ x ∈ s.mem.rq, x.acc ≠ h)
    {o : Out} (ho : o = Out.frame 0x81 0 r.seq r.ctx r.tag (r.pieces.flatMap fun p => r.data.read p.1 p.2)) :
    (∀ x ∈ (s.hostReadDone h).host.reads, x.acc ≠ h) ∧ (memWf s → SameBytes s (s.hostReadDone h)) ∧
      (s.dom.sealed = false → o ∈ (s.hostReadDone h).host.sent) ∧ (s.dom.sealed = true → ∃ x ∈ (s.hostReadDone h).dom.held, x.eff = o) := by
  have hany : s.mem.rq.any (fun x => x.acc == h) = false := List.any_eq_false.mpr fun x hx => by simpa using hq x hx
  unfold State.hostReadDone
  rw [hr]
  dsimp -zeta only
  rw [hany, if_neg Bool.false_ne_true]
  extract_lets _ t
  have hreads : ∀ x ∈ t.host.reads, x.acc ≠ h := fun x hx => by simpa using (List.mem_filter.mp hx).2
  have hbytes : memWf s → SameBytes s t := fun hwf => ⟨fun d x hd => (MemSys.settle_byteAt hwf d hd x).symm, fun _ _ => rfl, rfl⟩
  have hsealed : t.dom.sealed = s.dom.sealed := rfl
  clear_value t
  rw [← ho]
  refine ⟨?_, fun hwf => sameBytes_trans (hbytes hwf) (Aside.emit t 0 o).sameBytes, fun hs => ?_, fun hs => ?_⟩
  · unfold State.emit
    split <;> exact hreads
  · rw [State.emit, hsealed, hs]
    exact List.mem_append_right _ List.mem_cons_self
  · rw [State.emit, hsealed, hs]
    exact ⟨_, List.mem_append_right _ List.mem_cons_self, rfl⟩

/-! ### Snoops and ports (18 R418, R419) -/

/-- A snoop of a filtered line is recorded for the cores that watch it; another changes nothing yet. -/
def State.snooped (s : State) (n : Nat) : State :=
  if s.pkg.snoop.contains n then ({ s with pkg := { s.pkg with snoop := s.pkg.snoop.filter (· != n) } } : State).recall n else s

theorem State.snooped_spec (s : State) (n : Nat) : n ∉ (s.snooped n).pkg.snoop ∧ (s.snooped n).core = s.core ∧
    (s.snooped n).mem = { s.mem with nextId := (s.snooped n).mem.nextId } ∧
    (n ∈ s.pkg.snoop → s.recalled n s.mem.nextId = false → (s.snooped n).recalled n s.mem.nextId = true ∧ ∀ k, (s.snooped n).mem.nextId ≤ k → (s.snooped n).recalled n k = false) := by
  unfold State.snooped
  by_cases hn : n ∈ s.pkg.snoop
  · rw [if_pos (List.contains_iff_mem.mpr hn)]
    refine ⟨by simp [State.recall], rfl, rfl, fun _ hr => ⟨by simp [State.recall, State.recalled], fun k hk => ?_⟩⟩
    simp only [State.recall, State.recalled, List.any_cons, Bool.or_eq_false_iff] at hr hk ⊢
    refine ⟨by simp; omega, List.any_eq_false.mpr fun x hx => ?_⟩
    have := List.any_eq_false.mp hr x hx
    simp at this ⊢
    omega
  · rw [if_neg (by simpa using hn)]
    exact ⟨hn, rfl, rfl, fun h => absurd h hn⟩

/-- What the host writes is what every later read sees. -/
theorem MemSys.putNow_byteAt {m : MemSys} (hwf : m.bytes.wf = true) {a : Nat} {l : List Byte} {i : Nat} (hi : i < l.length) (hfar : isFar (a + i) = false) :
    (m.putNow a l).byteAt none (a + i) = nth l i 0 := by
  obtain ⟨n, e, he, happ, hcells⟩ : ∃ n e, m.putNow a l = n.settle ∧ Appends m n e ∧ e.cells = cellsAt a l := by
    refine ⟨_, _, rfl, ⟨rfl, rfl, rfl, rfl, rfl, rfl, rfl, rfl⟩, ?_⟩
    rfl
  have hmem : (a + i, l[i]) ∈ cellsAt a l := mem_cellsAt_iff.mpr ⟨i, hi, rfl⟩
  have hseen : e.sees none (a + i) = true := by
    rw [WEv.sees, hcells, Bool.true_and]
    exact List.any_eq_true.mpr ⟨_, hmem, beq_self_eq_true _⟩
  rw [he, happ.settle_seen hwf (fun k h => by cases h) hseen hfar (by rw [hcells]; exact find_cell_of_nodup (cellsAt_nodup a l) hmem)]
  simp [nth, List.getElem?_eq_getElem hi]

theorem isFar_of_isShared {line i : Nat} (h : isShared line = true) (hi : i < 64) : isFar (64 * (line / 64) + i) = false := by
  have hlt : line < 2 ^ 46 + 2 ^ 40 := of_decide_eq_true (Bool.and_eq_true_iff.mp h).2
  exact decide_eq_false (by omega)

section
variable {s : State} {line : Nat} (hs : isShared line = true) (ho : 64 * (line / 64) ∉ s.mem.owned)
include hs ho

theorem exec_snoop_none : exec (.backInvalidateSnoop line none) s = .next (s.snooped (line / 64)) :=
  event_of_true (by simp [hs, ho]) s fun s => s.snooped (line / 64)

theorem exec_snoop_some (l : List Byte) : exec (.backInvalidateSnoop line (some l)) s =
    let t := s.snooped (line / 64)
    let m := t.mem.putNow (64 * (line / 64)) (l.take 64)
    .next { t with mem := if 64 ≤ l.length then { m with poison := m.poison.filter (· != line / 64) } else m } :=
  event_of_true (by simp [hs, ho]) s fun s =>
    let t := s.snooped (line / 64)
    let m := t.mem.putNow (64 * (line / 64)) (l.take 64)
    { t with mem := if 64 ≤ l.length then { m with poison := m.poison.filter (· != line / 64) } else m }

theorem exec_snoop (w : Option (List Byte)) : ∃ t : State, exec (.backInvalidateSnoop line w) s = .next t ∧ line / 64 ∉ t.pkg.snoop ∧ t.core = s.core ∧
    (w = none → t.mem = { s.mem with nextId := t.mem.nextId }) ∧
    (line / 64 ∈ s.pkg.snoop → s.recalled (line / 64) s.mem.nextId = false → t.recalled (line / 64) s.mem.nextId = true ∧ t.recalled (line / 64) t.mem.nextId = false) ∧
    (∀ l i, w = some l → memWf s → i < 64 → i < l.length → t.mem.byteAt none (64 * (line / 64) + i) = nth l i 0) := by
  obtain ⟨hsn, hcore, hmem, hrec⟩ := s.snooped_spec (line / 64)
  cases w with
  | none =>
    exact ⟨_, exec_snoop_none hs ho, hsn, hcore, fun _ => hmem, fun hin hr => ⟨(hrec hin hr).1, (hrec hin hr).2 _ (Nat.le_refl _)⟩, fun l i h => by cases h⟩
  | some l =>
    refine ⟨_, exec_snoop_some hs ho l, ?_⟩
    generalize s.snooped (line / 64) = u at hsn hcore hmem hrec
    refine ⟨hsn, hcore, fun h => (by cases h), fun hin hr => ⟨(hrec hin hr).1, (hrec hin hr).2 _ ?_⟩, fun k i hk hwf hi hik => ?_⟩
    · dsimp only
      split <;> exact Nat.le_succ _
    · obtain rfl := Option.some.inj hk
      have hwfu : u.mem.bytes.wf = true := by
        rw [hmem]
        exact hwf
      have hb := MemSys.putNow_byteAt hwfu (l := l.take 64) (a := 64 * (line / 64)) (i := i) (by rw [List.length_take]; omega) (isFar_of_isShared hs hi)
      have hn : nth (l.take 64) i 0 = nth l i 0 := by simp [nth, hi]
      rw [hn] at hb
      dsimp only
      split <;> exact hb

end

/-! ### Peers (18 R420) -/

theorem State.updPeer_mem {s : State} {q : BitVec 16} {f : Peer → Peer} {x : Peer} (h : x ∈ (s.updPeer q f).pkg.peers) :
    ∃ y ∈ s.pkg.peers, x = if y.id == q then f y else y := by
  obtain ⟨y, hy, rfl⟩ := List.mem_map.mp h
  exact ⟨y, hy, rfl⟩

/-- A payload that lands sends nothing, and no peer's next number changes. -/
structure Lands (s t : State) : Prop where
  host : t.host = s.host
  peers : ∀ x ∈ t.pkg.peers, ∃ y ∈ s.pkg.peers, y.id = x.id ∧ x.nextRx = y.nextRx

theorem State.landReceive_lands (s : State) (q : Nat) (data : List Byte) : Lands s (s.landReceive q data) := by
  have hrefl : Lands s s := ⟨rfl, fun x hx => ⟨x, hx, rfl, rfl⟩⟩
  unfold State.landReceive
  split
  · exact hrefl
  split
  · exact hrefl
  split
  · exact hrefl
  next p hp _ c hc _ r hr =>
  extract_lets recs off t cells lines
  have ht : Noted s t := noteLines_noted ..
  have hhost : t.host = s.host := by
    unfold Noted at ht
    rw [ht]
  have hpeers : t.pkg.peers = s.pkg.peers := by
    unfold Noted at ht
    rw [ht]
  clear_value t
  have hq := (HubQueues.hubAccess t c.id p.lastRx (lines.map fun l => (l, cells.filter fun x => x.1 / 64 * 64 == l))).2
  refine ⟨hq.host.trans hhost, fun x hx => ?_⟩
  obtain ⟨y, hy, rfl⟩ := State.updPeer_mem hx
  have hy' : y ∈ s.pkg.peers := by
    rw [← hpeers, ← hq.pkg]
    exact hy
  exact ⟨y, hy', by split <;> rfl, by split <;> rfl⟩

theorem exec_scaleOutReceive {s : State} {peer : Nat} {seq : W32} {data : List Byte} {p : Peer} (hp : s.pkg.peers.find? (fun p => p.id.toNat == peer && !p.lost) = some p)
    (hseq : seq = p.nextRx) (hlen : data.length ≤ 8192) (hb : s.barrier = false) (hl : s.inlogFull p.ctx = false) :
    ∃ t : State, exec (.scaleOutReceive peer seq data) s = .next t ∧
        Out.scaleOut peer (seq + 1) [] ∈ t.host.sent ∧ (∀ x ∈ t.pkg.peers, x.id = p.id → ∃ y ∈ s.pkg.peers, y.id = p.id ∧ x.nextRx = y.nextRx + 1) := by
  show ∃ t : State, execScaleOutReceive peer seq data s = .next t ∧ _
  unfold execScaleOutReceive
  rw [hp]
  dsimp -zeta only
  rw [if_neg (by simp [hb, hl]; omega), if_pos hseq]
  extract_lets u v
  have hu : Logged s u := .logInputAt ..
  have hv := State.landReceive_lands v peer data
  refine ⟨_, rfl, ?_, fun x hx hid => ?_⟩
  · rw [hv.host, hseq]
    exact List.mem_append_right _ List.mem_cons_self
  · obtain ⟨y, hy, hyx, hrx⟩ := hv.peers x hx
    obtain ⟨z, hz, rfl⟩ := State.updPeer_mem hy
    rw [hu.peers] at hz
    by_cases hzp : z.id = p.id
    · rw [if_pos (beq_iff_eq.mpr hzp)] at hrx
      exact ⟨z, hz, hzp, hrx⟩
    · rw [if_neg (by simpa using hzp)] at hyx
      exact absurd (hyx.trans hid) hzp

/-- What is sent again follows what was sent before. -/
theorem foldl_sendOut {α : Type} (f : α → Out) (l : List α) (s : State) :
    l.foldl (fun s x => s.sendOut (f x)) s = { s with host := { s.host with sent := s.host.sent ++ l.map f } } := by
  induction l generalizing s with
  | nil => simp
  | cons x l ih =>
    rw [List.foldl_cons, ih]
    simp [State.sendOut]

theorem exec_scaleOutRetransmit {s : State} {peer : Nat} {p : Peer} (hp : s.pkg.peers.find? (fun p => p.id.toNat == peer && !p.lost) = some p) :
    exec (.scaleOutRetransmit peer) s = .next { s with host := { s.host with sent := s.host.sent ++ p.unacked.map fun x => Out.scaleOut peer x.1 x.2 } } := by
  show execScaleOutRetransmit peer s = _
  unfold execScaleOutRetransmit
  rw [hp]
  exact congrArg Host.Outcome.next (foldl_sendOut (fun x => Out.scaleOut peer x.1 x.2) p.unacked s)

theorem exec_scaleOutAcknowledgement {s : State} {peer : Nat} {seq : W32} {p : Peer} (hp : s.pkg.peers.find? (fun p => p.id.toNat == peer && !p.lost) = some p)
    (htodo : ∀ c, s.ctxOf p.ctx = some c → c.todo = []) :
    ∃ t : State, exec (.scaleOutAcknowledgement peer seq) s = .next t ∧
        (∀ x ∈ t.pkg.peers, x.id = p.id → ∀ f ∈ x.unacked, f.1 = seq ∨ 2 ^ 31 ≤ (seq - f.1).toNat) ∧ t.core = s.core ∧ t.mem = s.mem := by
  show ∃ t : State, execScaleOutAcknowledgement peer seq s = .next t ∧ _
  unfold execScaleOutAcknowledgement
  rw [hp]
  dsimp -zeta only
  extract_lets got n u
  refine ⟨_, rfl, ?_⟩
  have hfree : ∃ v : State, (u.freeEgress p.ctx n).sendTodo p.ctx = v ∧ v.pkg.peers = u.pkg.peers ∧ v.core = s.core ∧ v.mem = s.mem := by
    refine ⟨_, rfl, ?_⟩
    unfold State.freeEgress
    cases hc : u.ctxOf p.ctx with
    | none =>
      dsimp only
      rw [State.sendTodo, hc]
      exact ⟨rfl, rfl, rfl⟩
    | some c =>
      dsimp only
      rw [State.sendTodo, State.ctxOf_setCtx (d := { c with egressUsed := c.egressUsed - n }) hc rfl]
      dsimp only
      rw [htodo c hc]
      exact ⟨rfl, rfl, rfl⟩
  obtain ⟨v, hv, hpeers, hcore, hmem⟩ := hfree
  rw [hv]
  refine ⟨fun x hx hid f hf => ?_, hcore, hmem⟩
  rw [hpeers] at hx
  obtain ⟨y, hy, rfl⟩ := State.updPeer_mem hx
  by_cases hyp : y.id = p.id
  · rw [if_pos (beq_iff_eq.mpr hyp)] at hf
    have hg : got f = false := by simpa using (List.mem_filter.mp hf).2
    have hnot := of_decide_eq_false hg
    by_cases hfs : f.1 = seq
    · exact .inl hfs
    · exact .inr (Nat.not_lt.mp fun hlt => hnot ⟨hfs, hlt⟩)
  · rw [if_neg (by simpa using hyp)] at hid
    exact absurd hid hyp

/-! ### The obligation -/

section
variable {s : State} {seq : W32} {ctx : BitVec 16} {tag : W64} {off : BitVec 30} {c : Ctx} (hb : s.pkg.booted = true)
include hb

theorem exec_write_taken {data : List Byte} (hseq : seq = s.host.seq) (hc : s.ctxOf ctx = some c) (hlen : data.length ≤ 8192) (hfull : s.inlogFull ctx = false)
    (hbar : s.barrier = false) (hq : s.host.pendq = []) (hoff : 0x10000 ≤ off.toNat) (hfit : off.toNat + data.length ≤ c.mboxLen) :
    ∃ t : State, exec (.write seq ctx tag off data none) s = .next t ∧ t.host.seq = s.host.seq + 1 ∧
        Out.frame 0x84 0 seq ctx tag [] ∈ t.host.sent ∧ t.mem.hubLast = [s.mem.nextId] ∧ (∀ e ∈ t.mem.wq, e ∈ s.mem.wq ∨ e.acc = s.mem.nextId) ∧
        SameRegs s.core t.core ∧ SameBytes s t := by
  show ∃ t : State, execWrite seq ctx tag off data none s = .next t ∧ _
  unfold execWrite
  extract_lets n en
  rw [if_neg (by simp [frameBytes, n]; omega)]
  obtain ⟨u, hu, ht⟩ := State.request_taken (tag := tag) (bad := decide (8192 < n) || ((none : Option (List Bool)).isSome && decide (8128 < n)) || (s.ctxOf ctx).isNone)
    (flow := s.inlogFull ctx) (r := .hostWrite seq ctx tag off.toNat data en) (len := 64 + n) (run := fun s => s.hostWrite seq ctx tag off.toNat data en)
    hb hseq (by simp [hc, n, hlen]) hfull (fun _ _ => by simp) hbar hq
  rw [hu]
  obtain ⟨k, hk⟩ := ht.ctxs ctx c hc
  obtain ⟨hw, hlast⟩ := State.hostWrite_queued (seq := seq) (tag := tag) (ben := en) hk hoff hfit
  rw [ht.mem] at hw hlast
  refine ⟨_, rfl, ?_, ?_, hlast, fun e he => ?_, ?_, sameBytes_trans ht.sameBytes hw.sameBytes⟩
  · rw [hw.host, ht.seq]
  · rw [hw.host]
    exact ht.ack
  · rw [← ht.mem]
    exact hw.wq e he |>.imp_right fun h => by rw [h, ht.mem]
  · rw [hw.core, ht.core]
    exact sameRegs_refl _

theorem exec_read_taken {len : BitVec 14} {l : List (Nat × Nat)} (hseq : seq = s.host.seq) (hc : s.ctxOf ctx = some c) (hlen : len.toNat ≤ 8192)
    (hfull : s.inlogFull ctx = false) (hheld : s.readsHeld < 256) (hbar : s.barrier = false) (hq : s.host.pendq = []) (hfit : off.toNat + len.toNat ≤ c.mboxLen)
    (hl : s.readAddrs c off.toNat len.toNat = some l) :
    ∃ (t : State) (r : HostRead), exec (.read seq ctx tag off len) s = .next t ∧ t.host.seq = s.host.seq + 1 ∧ Out.frame 0x84 0 seq ctx tag [] ∈ t.host.sent ∧
        t.mem.hubLast = [s.mem.nextId] ∧ t.host.reads = s.host.reads ++ [r] ∧ r.acc = s.mem.nextId ∧ r.seq = seq ∧ r.tag = tag ∧ r.pieces = l ∧
        (∀ p ∈ l, ∃ e ∈ t.mem.rq, e.acc = s.mem.nextId ∧ e.addr = p.1 ∧ e.n = p.2 ∧ e.dst = .host s.mem.nextId ∧ e.val = none) ∧ SameRegs s.core t.core ∧ SameBytes s t := by
  show ∃ (t : State) (r : HostRead), execRead seq ctx tag off len s = .next t ∧ _
  unfold execRead
  obtain ⟨u, hu, ht⟩ := State.request_taken (tag := tag) (bad := decide (8192 < len.toNat) || (s.ctxOf ctx).isNone) (flow := s.inlogFull ctx || decide (256 ≤ s.readsHeld))
    (r := .hostRead seq ctx tag off.toNat len.toNat) (len := 64) (run := fun s => s.hostRead seq ctx tag off.toNat len.toNat)
    hb hseq (by simp [hc, hlen]) (by simp [hfull, hheld]) (fun _ _ => by simp) hbar hq
  rw [hu]
  obtain ⟨k, hk⟩ := ht.ctxs ctx c hc
  have hlu : u.readAddrs { c with inlogUsed := k } off.toNat len.toNat = some l := by
    rw [← hl]
    simp only [State.readAddrs, State.ctxPa_logged ht.mem]
    rfl
  obtain ⟨t, r, he, hcore, hbytes, hs, hsent, hlast, hreads, hacc, hrs, hrt, hrp, hrq⟩ := State.hostRead_queued (seq := seq) (tag := tag) hk hfit hlu
  rw [ht.mem] at hlast hacc hrq
  refine ⟨t, r, congrArg _ he, hs.trans ht.seq, by rw [hsent]; exact ht.ack, hlast, by rw [hreads, ht.reads], hacc, hrs, hrt, hrp, hrq, ?_, sameBytes_trans ht.sameBytes hbytes⟩
  rw [hcore, ht.core]
  exact sameRegs_refl _

end

/-- The read event of a READ that performs last: what it reads is part of the answer. -/
theorem exec_readEventPerform_answers {s : State} {id : Nat} {e : REv} {h : Nat} {a : Access} {r : HostRead} (he : s.mem.rq.find? (fun e => e.id == id) = some e)
    (ha : s.mem.acc? e.acc = some a) (hdst : e.dst = .host h) (hval : e.val = none) (hfar : isFar e.addr = false) (hpred : s.mem.predsDelivered e.acc a.die = true)
    (hb : s.barrier = false) (hr : s.host.reads.find? (fun r => r.acc == h) = some r) (hq : ∀ x ∈ s.mem.rq, x.acc = h → x.id = id)
    {o : Out} (ho : o = Out.frame 0x81 0 r.seq r.ctx r.tag (r.pieces.flatMap fun p => (r.data.store (cellsAt e.addr (s.mem.bytesAt (some a.die) e.addr e.n))).read p.1 p.2)) :
    ∃ t : State, exec (.readEventPerform id) s = .next t ∧ (∀ x ∈ t.host.reads, x.acc ≠ h) ∧ (memWf s → SameBytes s t) ∧
      (s.dom.sealed = false → o ∈ t.host.sent) ∧ (s.dom.sealed = true → ∃ x ∈ t.dom.held, x.eff = o) := by
  rw [show exec (.readEventPerform id) s = execReadEventPerform id s from rfl, execReadEventPerform, he]
  dsimp -zeta only
  rw [ha]
  dsimp -zeta only
  extract_lets far ready
  have hready : ready = true := readReady hval (by rw [hfar]; exact hpred) (fun h => by rw [hfar] at h; cases h)
  rw [hdst]
  dsimp -zeta only
  rw [event_of_true (by rw [hready, hb]; rfl)]
  refine ⟨_, rfl, ?_⟩
  extract_lets seen m v _ u
  have hu : Noted u (u.noteLines [e.addr / 64]) := noteLines_noted ..
  generalize u.noteLines [e.addr / 64] = w at hu
  have hfind : w.host.reads.find? (fun r => r.acc == h) = some { r with data := r.data.store v } := by
    have := find?_updateAll (p := fun r : HostRead => r.acc == h) (f := fun r => { r with data := r.data.store v }) (fun _ h => h) s.host.reads
    unfold Noted at hu
    rw [hu]
    exact this.trans (by rw [hr]; rfl)
  have hnone : ∀ x ∈ w.mem.rq, x.acc ≠ h := fun x hx hacc => by
    unfold Noted at hu
    rw [hu] at hx
    obtain ⟨hm, hne⟩ := List.mem_filter.mp hx
    exact absurd (hq x hm hacc) (by simpa using hne)
  obtain ⟨hreads, hbytes, hsent, hheld⟩ := State.hostReadDone_answers hfind hnone ho
  have hsu : SameBytes s u := ⟨fun _ _ _ => rfl, fun _ _ => rfl, rfl⟩
  have hsb : SameBytes s w := sameBytes_trans hsu (Aside.of_noted hu).sameBytes
  have hwf : memWf s → memWf w := fun hs => by
    unfold Noted at hu
    rw [hu]
    exact hs
  have hsealed : w.dom.sealed = s.dom.sealed := by
    unfold Noted at hu
    rw [hu]
  rw [hsealed] at hsent hheld
  exact ⟨hreads, fun hs => sameBytes_trans hsb (hbytes (hwf hs)), hsent, hheld⟩


/-- Settles O52: frames and links of the host. -/
theorem hostFramesComplete : Obligations.HostFramesComplete := by
  intro s seq ctx tag off data len c hb
  refine ⟨fun hseq hc hlen hfull hbar hq hoff hfit => exec_write_taken hb hseq hc hlen hfull hbar hq hoff hfit, ?_, ?_, ?_,
    fun line w hs ho => exec_snoop hs ho w, fun port hp => ?_, fun peer p hp => ⟨fun hseq hlen hbar hl => exec_scaleOutReceive hp hseq hlen hbar hl,
      exec_scaleOutRetransmit hp, fun htodo => exec_scaleOutAcknowledgement hp htodo⟩⟩
  · intro l hseq hc hlen hfull hheld hbar hq hfit hl
    exact exec_read_taken hb hseq hc hlen hfull hheld hbar hq hfit (by
      rw [← hl, State.readAddrs, Ctx.readPieces]
      simp only [BitVec.toNat_eq]
      rfl)
  · intro id e h a r he ha hdst hval hfar hpred hbar hr hq
    exact exec_readEventPerform_answers he ha hdst hval hfar hpred hbar hr hq rfl
  · intro hseq hlen
    constructor
    · show execWrite seq ctx tag off data none s = _
      unfold execWrite
      extract_lets n en
      rw [if_neg (by simp [frameBytes, n]; omega), State.request, if_neg (by simp [hb]), if_pos hseq]
      rfl
    · show execRead seq ctx tag off len s = _
      rw [execRead, State.request, if_neg (by simp [hb]), if_pos hseq]
      rfl
  · refine ⟨_, event_of_true (ok := decide (port < 4)) (decide_eq_true hp) s fun s => { s with mem := { s.mem with lostPorts := (port :: s.mem.lostPorts).eraseDups } }, ?_, rfl, rfl⟩
    exact List.mem_eraseDups.mpr List.mem_cons_self

end Sys2Proof.Machine
end

section
/-! PROOF. What arbitration, boundaries and save areas leave: clock, service and the canonical form of memory (16 R385-R390, 08 R187-R190). -/

namespace Sys2Proof.Machine

/-! ### Arbitration -/

/-- Arbitration changes the sets, the queues' ranks and the state of gangs; cores, tiles, memory and the rest of the dispatcher stay. -/
structure Arbitrates (s t : State) : Prop where
  core : t.core = s.core
  clu : t.clu = s.clu
  clus : t.clus = s.clus
  mem : t.mem = s.mem
  dom : t.dom = s.dom
  host : t.host = s.host
  fw : t.fw = s.fw
  pkg : t.pkg = s.pkg
  intake : t.disp.intake = s.disp.intake
  launches : t.disp.launches = s.disp.launches
  graphs : t.disp.graphs = s.disp.graphs
  evicted : t.disp.evicted = s.disp.evicted
  nextId : t.disp.nextId = s.disp.nextId
  nextGid : t.disp.nextGid = s.disp.nextGid

namespace Arbitrates

theorem refl (s : State) : Arbitrates s s := by constructor <;> rfl
theorem trans {s t u : State} (h : Arbitrates s t) (h' : Arbitrates t u) : Arbitrates s u :=
  ⟨h'.core.trans h.core, h'.clu.trans h.clu, h'.clus.trans h.clus, h'.mem.trans h.mem, h'.dom.trans h.dom, h'.host.trans h.host, h'.fw.trans h.fw, h'.pkg.trans h.pkg,
    h'.intake.trans h.intake, h'.launches.trans h.launches, h'.graphs.trans h.graphs, h'.evicted.trans h.evicted, h'.nextId.trans h.nextId, h'.nextGid.trans h.nextGid⟩
theorem foldl {α : Type} {f : State → α → State} (hf : ∀ s x, Arbitrates s (f s x)) (l : List α) (s : State) : Arbitrates s (l.foldl f s) :=
  List.foldlRecOn (motive := Arbitrates s) l f (.refl s) fun _ ht x _ => ht.trans (hf _ x)

theorem onGang (s : State) (g : Nat) (f : Gang → Gang) : Arbitrates s (s.onGang g f) := by
  unfold State.onGang State.onBox
  split <;> constructor <;> rfl
theorem updSet (s : State) (cs : CluSet) (f : CluSet → CluSet) : Arbitrates s (s.updSet cs f) := by constructor <;> rfl
theorem setQueue (s : State) (q : BitVec 6) (f : Queue → Queue) : Arbitrates s (s.setQueue q f) := by constructor <;> rfl

theorem pick (s : State) (cs : CluSet) (now : Nat) : Arbitrates s (s.pick cs now).2 := by
  unfold State.pick
  extract_lets gs c slice fits f
  split
  · exact refl s
  · split
    next f' t hft =>
    have ht : Arbitrates s t := by
      revert hft
      split
      · rintro ⟨⟩
        exact updSet ..
      · rintro ⟨⟩
        exact refl s
    split
    · exact ht
    · extract_lets qs u v w
      have hu : Arbitrates t u := foldl (fun s q => setQueue s q _) _ t
      have hv : Arbitrates u v := setQueue ..
      have hw : Arbitrates v w := foldl (fun s g => onGang s _ _) _ v
      have h := ((ht.trans hu).trans hv).trans hw
      have hlast := onGang w ‹Gang›.gid fun x => { x with lastRun := now }
      exact h.trans hlast

theorem arbitrate (s : State) (cs : CluSet) (now : Nat) : Arbitrates s (s.arbitrate cs now) := by
  have hp := pick s cs now
  unfold State.arbitrate
  generalize s.pick cs now = x at hp
  obtain ⟨p, t⟩ := x
  dsimp -zeta only
  split
  · exact hp.trans (updSet ..)
  next g =>
    extract_lets u v
    have hu : Arbitrates t u := updSet ..
    have hv : Arbitrates u v := foldl (fun s k => onGang s _ _) _ u
    have h := (hp.trans hu).trans hv
    split
    · exact h.trans (onGang ..)
    · exact h

theorem arbitrateIdle (s : State) (l : List Nat) (now : Nat) : Arbitrates s (s.arbitrateIdle l now) := by
  unfold State.arbitrateIdle
  split
  · split
    · exact arbitrate ..
    · exact refl s
  · exact refl s

theorem freeSets (s : State) : Arbitrates s s.freeSets := foldl (fun s _ => (updSet s _ _).trans (arbitrateIdle ..)) _ s

end Arbitrates

/-! ### Boundaries -/

/-- Memory stays canonical, and the clock and the stacks in service stay as they are. -/
structure Steady (s t : State) : Prop where
  wf : memWf s → memWf t
  clk : t.pkg.clk = s.pkg.clk
  inService : t.pkg.inService = s.pkg.inService

namespace Steady

theorem refl (s : State) : Steady s s := ⟨fun h => h, rfl, rfl⟩
theorem trans {s t u : State} (h : Steady s t) (h' : Steady t u) : Steady s u := ⟨fun hs => h'.wf (h.wf hs), h'.clk.trans h.clk, h'.inService.trans h.inService⟩
theorem ite {p : Prop} [Decidable p] {s t u : State} (ht : Steady s t) (hu : Steady s u) : Steady s (if p then t else u) := by
  split
  · exact ht
  · exact hu
theorem foldl {α : Type} {f : State → α → State} (hf : ∀ s x, Steady s (f s x)) (l : List α) (s : State) : Steady s (l.foldl f s) :=
  List.foldlRecOn (motive := Steady s) l f (.refl s) fun _ ht x _ => ht.trans (hf _ x)

/-- Where memory's bytes and the package's clock and service are literally the same. -/
theorem of_same {s t : State} (hm : t.mem.bytes = s.mem.bytes) (hc : t.pkg.clk = s.pkg.clk) (hi : t.pkg.inService = s.pkg.inService) : Steady s t :=
  ⟨fun h => by rw [memWf, hm]; exact h, hc, hi⟩
theorem of_pkg {s t : State} (hm : t.mem.bytes = s.mem.bytes) (hp : t.pkg = s.pkg) : Steady s t := of_same hm (by rw [hp]) (by rw [hp])
theorem of_arbitrates {s t : State} (h : Arbitrates s t) : Steady s t := of_pkg (by rw [h.mem]) h.pkg
theorem of_noted {s t : State} (h : Noted s t) : Steady s t := by
  unfold Noted at h
  rw [h]
  exact ⟨fun h => h, rfl, rfl⟩

theorem focus (s : State) (r : Nat) : Steady s (s.focus r) := by
  obtain ⟨hm, _, _, _, hp, _⟩ := s.focus_rest r
  exact of_pkg (congrArg MemSys.bytes hm) hp
theorem focusGang (s : State) (g : Nat) : Steady s (s.focusGang g) := by
  obtain ⟨hm, _, hp, _⟩ := s.focusGang_rest g
  exact of_pkg (congrArg MemSys.bytes hm) hp
theorem focusId (s : State) (who : CoreId) : Steady s (s.focusId who) := by
  obtain ⟨hm, _, hp, _⟩ := s.focusId_rest who
  exact of_pkg (congrArg MemSys.bytes hm) hp

theorem requestSeal (s : State) : Steady s s.requestSeal := of_pkg (by simp) (by simp)
theorem emit (s : State) (acc : Nat) (o : Out) : Steady s (s.emit acc o) := by
  unfold State.emit
  exact ite ⟨fun h => h, rfl, rfl⟩ ⟨fun h => h, rfl, rfl⟩
theorem fwEvent (s : State) (d b : Nat) : Steady s (s.fwEvent d b) := of_pkg (by simp) (by simp)
theorem notifyFault (s : State) (r : FaultRec) : Steady s (s.notifyFault r) := of_pkg (by simp) (by simp)
theorem logFault (s : State) (d : Nat) (r : FaultRec) : Steady s (s.logFault d r) := by
  unfold State.logFault
  split
  · exact ⟨fun h => h, rfl, rfl⟩
  · exact refl s
/-- A fault record with its notification and its event bit. -/
theorem record (s : State) (d d' b : Nat) (r : FaultRec) : Steady s (((s.logFault d r).notifyFault r).fwEvent d' b) :=
  ((logFault s d r).trans (notifyFault _ r)).trans (fwEvent ..)

/-! #### Stores of agents of the package -/

theorem logOld (s : State) (a : Nat) (ri : W32) : Steady s (s.logOld a ri) := by
  refine of_pkg (Aside.logOld s a ri).bytes ?_
  unfold State.logOld
  split
  · rfl
  · extract_lets k sram at_ u _ m m' t
    split
    · exact State.requestSeal_pkg ..
    · rfl
theorem addWrite (s : State) (acc : Nat) (src : WSrc) (line : Nat) (lg : Bool) (home : Nat) : Steady s (s.addWrite acc src line lg home) := ⟨fun h => h, rfl, rfl⟩
theorem soon (s : State) (a : Auto) : Steady s (s.soon a) := ⟨fun h => h, rfl, rfl⟩

/-- A settled write appended to a log over the same bytes. -/
theorem putNow {s : State} {m : MemSys} (hm : m.bytes = s.mem.bytes) (a : Nat) (l : List Byte) : Steady s { s with mem := m.putNow a l } := by
  obtain ⟨n, e, h, happ⟩ := MemSys.putNow_spec m a l
  refine ⟨fun hwf => ?_, rfl, rfl⟩
  show (m.putNow a l).bytes.wf = true
  rw [h]
  exact happ.settle_wf (by rw [hm]; exact hwf)

theorem storeLine (s : State) (ctx : BitVec 16) (pa : Nat) (l : List Byte) (lg : Bool) : Steady s (s.storeLine ctx pa l lg) := by
  unfold State.storeLine
  extract_lets line bad t _ m u
  split
  · exact refl s
  · split
    · have h : Steady s { (s.newAccess .hub 4 0 [] true).2 with mem := (s.newAccess .hub 4 0 [] true).2.mem.updAcc s.mem.nextId fun a => { a with ctx := ctx } } :=
        ⟨fun h => h, rfl, rfl⟩
      exact h.trans (addWrite ..)
    · have ht : Steady s t := ite (logOld ..) (refl s)
      have hm : m.bytes = t.mem.bytes := by
        unfold m
        split <;> rfl
      have hu : Steady t u := putNow hm pa l
      exact ite ((ht.trans hu).trans (soon ..)) (ht.trans hu)

/-- Stores of the pieces of a list of bytes, each given its part. -/
theorem foldl_pair {α β : Type} {f : State × β → α → State × β} (hf : ∀ x a, Steady x.1 (f x a).1) (l : List α) (x : State × β) : Steady x.1 (l.foldl f x).1 :=
  List.foldlRecOn (motive := fun y => Steady x.1 y.1) l f (.refl x.1) fun _ hy a _ => hy.trans (hf _ a)
theorem storeVa (s : State) (c : Ctx) (va : Nat) (l : List Byte) (lg : Bool) : Steady s (s.storeVa c va l lg) := by
  refine foldl_pair (fun x p => ?_) (vaPieces va l.length) (s, l)
  dsimp only
  split
  · exact storeLine ..
  · exact refl _
theorem storePa (s : State) (c : Ctx) (pa : Nat) (l : List Byte) (lg : Bool) : Steady s (s.storePa c pa l lg) :=
  foldl_pair (fun x p => storeLine x.1 c.id p.1 _ lg) (vaPieces pa l.length) (s, l)
theorem writeSave (s : State) (b : GangBox) : Steady s (s.writeSave b) := by
  unfold State.writeSave
  split
  · exact refl s
  next c _ =>
    extract_lets put t u
    have hput : ∀ s x, Steady s (put s x) := fun s x => storeVa ..
    have ht : Steady s t := foldl hput _ s
    have hu : Steady t u := foldl (fun s k => foldl (fun s x => hput s _) _ s) _ t
    exact ite ((ht.trans hu).trans (foldl (fun s k => foldl (fun s x => hput s _) _ s) _ u)) (ht.trans hu)
theorem writeCaps (s : State) (c : Ctx) : Steady s (s.writeCaps c) := storeVa ..

/-! #### Ends and boundaries of groups -/

theorem setGang (s : State) (g : Gang) : Steady s (s.setGang g) := ⟨fun h => h, rfl, rfl⟩
theorem mapCores (s : State) (f : Core → Core) : Steady s (s.mapCores f) := ⟨fun h => h, rfl, rfl⟩
theorem mapGangs (s : State) (f : Gang → Gang) : Steady s (s.mapGangs f) := ⟨fun h => h, rfl, rfl⟩
theorem choose (s : State) : Steady s s.choose.2 := ⟨fun h => h, rfl, rfl⟩

theorem wornOut (s : State) (b : GangBox) : Steady s (s.wornOut b) := by
  refine foldl (fun s c => ?_) _ s
  extract_lets banks lines sites
  refine foldl (fun s x => ?_) _ s
  have hc := choose s
  generalize s.choose = y at hc
  obtain ⟨hit, t⟩ := y
  refine hc.trans (ite ?_ (refl t))
  exact (record t _ _ _ _).trans ⟨fun h => h, rfl, rfl⟩

theorem leaveSet (s : State) (g : Nat) : Steady s (s.leaveSet g) := by
  unfold State.leaveSet
  split
  · exact refl s
  · exact ⟨fun h => h, rfl, rfl⟩
theorem leftPhase (s : State) (g : Nat) : Steady s (s.leftPhase g) := ⟨fun h => h, rfl, rfl⟩
theorem dropGang (s : State) (g : Nat) : Steady s (s.dropGang g) := by
  unfold State.dropGang
  extract_lets t
  have ht : Steady s t := ite (focusGang ..) (refl s)
  exact ht.trans ⟨fun h => h, rfl, rfl⟩

theorem endGroup (s : State) (g : Nat) (cut : Bool) : Steady s (s.endGroup g cut) := by
  unfold State.endGroup
  split
  · exact refl s
  next b _ =>
    extract_lets cs now id t _ u v w x
    have ht : Steady s t := ((wornOut s b).trans (leaveSet _ g)).trans ⟨fun h => h, rfl, rfl⟩
    have hv : Steady u v := dropGang u g
    have hx : Steady w x := by
      unfold x
      split
      · exact ite (soon ..) (refl w)
      · exact refl w
    have h : Steady s x := ((ht.trans (u := u) ⟨fun h => h, rfl, rfl⟩).trans hv).trans (Steady.trans (t := w) ⟨fun h => h, rfl, rfl⟩ hx)
    clear_value cs x
    cases cs with
    | some c => exact h.trans (of_arbitrates (.arbitrateIdle ..))
    | none => exact h

theorem copyPoison (s : State) (all : Bool) : Steady s (s.copyPoison all) := by
  unfold State.copyPoison
  split
  · exact soon ..
  · exact refl s
theorem sealStop (s : State) : Steady s s.sealStop := by
  unfold State.sealStop
  extract_lets t u _ _ v
  have ht : Steady s t := ite (copyPoison ..) (refl s)
  have hv : Steady s v := (ht.trans (mapCores t _)).trans (setGang u _)
  exact ite (hv.trans (writeSave ..)) hv
theorem abandonWaits (s : State) (b : GangBox) : Steady s (s.abandonWaits b) := by
  refine foldl (fun s c => ?_) _ s
  split
  · exact ⟨fun h => h, rfl, rfl⟩
  · exact refl s

theorem landPreempt (s : State) : Steady s s.landPreempt := by
  unfold State.landPreempt
  extract_lets g evict hold _ r t u
  have ht : Steady s t := ((setGang s _).trans (abandonWaits r r.box)).trans (mapCores ..)
  have hsave : Steady t t.saveFocus := writeSave t t.box
  have hu : Steady s u := ht.trans (ite (hsave.trans (copyPoison ..)) hsave)
  split
  · exact hu
  · extract_lets v w
    have hv : Steady s v := hu.trans (of_arbitrates (.updSet ..))
    have hw : Steady s w := hv.trans (ite ((leaveSet v g.gid).trans ⟨fun h => h, rfl, rfl⟩) (refl v))
    exact hw.trans (of_arbitrates (.arbitrateIdle ..))

theorem serve (s : State) : Steady s s.serve := by
  unfold State.serve
  extract_lets g l ends
  have hstop : ∀ g, Steady s (s.setGang g) := setGang s
  split
  · exact ite (landPreempt s) (setGang ..)
  split
  · exact ite (sealStop s) (setGang ..)
  split
  · exact endGroup ..
  split
  · exact ite (landPreempt s) (setGang ..)
  split
  · exact setGang ..
  split
  · split
    · exact (setGang s _).trans (of_arbitrates (.arbitrate ..))
    · exact setGang ..
  · exact setGang ..

theorem serveGang (s : State) (gid : Nat) (f : Requests → Requests) : Steady s (s.serveGang gid f) := by
  unfold State.serveGang
  split
  · exact refl s
  · split
    · extract_lets t
      have ht : Steady s t := focusGang ..
      exact ((ht.trans (setGang t _)).trans (serve _)).trans (focusGang ..)
    · exact refl s
theorem serveAll (s : State) (f : Requests → Requests) : Steady s (s.serveAll f) := by
  unfold State.serveAll
  extract_lets t
  exact (mapGangs s _).trans (foldl (fun s g => serveGang s g f) _ t)
theorem freeSets (s : State) : Steady s s.freeSets := of_arbitrates (.freeSets s)

end Steady

end Sys2Proof.Machine
end

section
/-! PROOF. Firmware registers and ports, clock, power, service, training and reset (18 R421-R435; O54). -/

namespace Sys2Proof.Machine

/-! ### The registers of a die -/

section
variable (s : State) {d : Nat} (f : FwDie)

theorem State.fwd_setFwd (hd : d < 5) : (s.setFwd d f).fwd d = f := by simp [State.fwd, State.setFwd, hd]
theorem State.fwd_setFwd_ne {k : Nat} (hk : k ≠ d) : (s.setFwd d f).fwd k = s.fwd k := by
  unfold State.fwd State.setFwd
  split
  · split
    · exact Vector.getElem_set_ne ‹d < 5› ‹k < 5› (Ne.symm hk)
    · rfl
  · rfl

end

/-- Only the registers of die `d` change. -/
structure OfDie (s t : State) (d : Nat) : Prop where
  core : t.core = s.core
  mem : t.mem = s.mem
  others : ∀ k, k ≠ d → t.fwd k = s.fwd k

theorem OfDie.setFwd (s : State) (d : Nat) (f : FwDie) : OfDie s (s.setFwd d f) d := ⟨by simp, by simp, fun _ hk => s.fwd_setFwd_ne f hk⟩
theorem OfDie.refl (s : State) (d : Nat) : OfDie s s d := ⟨rfl, rfl, fun _ _ => rfl⟩
theorem OfDie.trans {s t u : State} {d : Nat} (h : OfDie s t d) (h' : OfDie t u d) : OfDie s u d :=
  ⟨h'.core.trans h.core, h'.mem.trans h.mem, fun k hk => (h'.others k hk).trans (h.others k hk)⟩

section
variable {s : State} (hd : s.die < 5)
include hd

/-! ### FWTIMER (18 R422) -/

theorem exec_fwTimer (us : W64) : ∃ t : State, exec (.fwTimer us) s = .next t ∧ (t.fwd s.die).timer = us ∧ OfDie s t s.die :=
  ⟨_, rfl, by rw [State.fwd_setFwd _ _ hd], .setFwd ..⟩

theorem exec_fwTimerExpiry (h : (s.fwd s.die).timer ≠ 0) : ∃ t : State, exec .fwTimerExpiry s = .next t ∧ (t.fwd s.die).timer = 0 ∧
    (t.fwd s.die).evt.getLsbD 3 = true ∧ t.core = s.core ∧ t.mem = s.mem := by
  refine ⟨_, event_of_true (ok := (s.fwd s.die).timer != 0) (by simpa using h) s fun u =>
    let v := u.timeFrom ((s.fwd s.die).timerAt + 1000 * (s.fwd s.die).timer)
    (v.setFwd v.die { v.fwd v.die with timer := 0 }).fwEvent v.die 3, ?_⟩
  extract_lets v
  have hv : v.die = s.die := rfl
  rw [hv, State.fwd_fwEvent _ hd, State.fwd_setFwd _ _ hd]
  exact ⟨rfl, getLsbD_or_two_pow _ (by decide), by simp [v, State.timeFrom], by simp [v, State.timeFrom]⟩

end

/-! ### The clock (18 R430, R431) -/

section
variable {s : State}

theorem setWidth_toNat_mod (v : W64) : (v.setWidth 2).toNat = v.toNat % 4 := by simp

theorem execClkctlReq_eq (hp : s.pkg.cfg.permits ((s.fwd s.die).clkctl.toNat % 4) = true) (hf : s.pkg.clk.full = true) :
    execClkctlReq s = .next (s.setClk { s.pkg.clk with pending := some ((s.fwd s.die).clkctl.setWidth 2) }) := by
  show Host.Outcome.next _ = _
  rw [setWidth_toNat_mod, if_pos hp, State.requestStep, if_pos hf]

theorem exec_clkctlReq (hp : s.pkg.cfg.permits ((s.fwd s.die).clkctl.toNat % 4) = true) (hf : s.pkg.clk.full = true) :
    ∃ t : State, exec .clkctlReq s = .next t ∧ t.pkg.clk.pending = some ((s.fwd s.die).clkctl.setWidth 2) ∧ t.core = s.core :=
  ⟨_, execClkctlReq_eq hp hf, rfl, rfl⟩

theorem State.cancelChange_spec (s : State) : s.cancelChange.pkg.clk = { s.pkg.clk with pending := none } := by
  unfold State.cancelChange
  split
  next h => rw [← h]
  next k h => exact ((Steady.serveAll _ _).trans (.freeSets _)).clk

theorem exec_frequencyChange {k : BitVec 2} (h : s.pkg.clk.pending = some k) (hst : s.allStopped = true) :
    ∃ t : State, exec .frequencyChange s = .next t ∧ t.pkg.clk = { s.pkg.clk with step := some k, pending := none } := by
  show ∃ t : State, execFrequencyChange s = .next t ∧ _
  unfold execFrequencyChange
  rw [h]
  dsimp only
  rw [event_of_true hst]
  exact ⟨_, rfl, ((Steady.serveAll _ _).trans (.freeSets _)).clk⟩

/-! ### Full service (18 R427-R429) -/

theorem exec_fullServiceTransition (hreq : s.pkg.clk.svcReq = true) (hfull : s.pkg.clk.full = false) (hst : s.allStopped = true) (hb : s.barrier = false) :
    ∃ t : State, exec .fullServiceTransition s = .next t ∧ t.pkg.clk.full = true ∧ t.pkg.clk.svcReq = true ∧ t.pkg.clk.step = some 0 ∧ t.pkg.inService = s.trained := by
  show ∃ t : State, execFullServiceTransition s = .next t ∧ _
  unfold execFullServiceTransition
  rw [event_of_true (by simp [hreq, hfull, hst, hb])]
  refine ⟨_, rfl, ?_⟩
  extract_lets _ _ t u v
  have hu : Steady t u := .foldl (fun s k => .record ..) _ t
  have hv : Steady u v := .foldl (fun s c => (Steady.writeCaps s c).trans (.emit ..)) _ u
  have h := ((hu.trans hv).trans (.serveAll v fun r => { r with svc := false })).trans (.freeSets _)
  rw [h.clk, h.inService]
  exact ⟨rfl, hreq, rfl, rfl⟩

theorem mem_trained_iff (s : State) (j : Nat) : j ∈ s.trained ↔ j < 12 ∧ (j ∈ s.pkg.inService ∨ ∀ c < 160, (s.fwd (j / 3)).channelOk (j % 3) c = true) := by
  simp [State.trained]

/-! ### Power (18 R435) -/

theorem exec_powerSample (mw : Nat) : ∃ t : State, exec (.powerSample mw) s = .next t ∧ t.pkg.clk.power = (mw :: s.pkg.clk.power).take 10 ∧
      (∀ c j, s.pkg.clk.step = some c → s.pkg.clk.full = true → (mw :: s.pkg.clk.power).length ≥ 10 →
        10 * (s.pkg.cfg.powerLimit * 1000) < ((mw :: s.pkg.clk.power).take 10).sum → s.pkg.cfg.lower c.toNat = some j → t.pkg.clk.pending = some (BitVec.ofNat 2 j)) ∧
      t.core = s.core ∧ t.mem = s.mem := by
  show ∃ t : State, execPowerSample mw s = .next t ∧ _
  unfold execPowerSample
  extract_lets k l sum full limit under t ask
  have hask : ∀ o, (ask o).pkg.clk.power = l ∧ (ask o).core = s.core ∧ (ask o).mem = s.mem ∧
      (∀ j, o = some j → s.pkg.clk.full = true → (ask o).pkg.clk.pending = some (BitVec.ofNat 2 j)) := by
    intro o
    cases o with
    | none => exact ⟨rfl, rfl, rfl, fun j h => by cases h⟩
    | some j =>
      rw [show ask (some j) = t.requestStep (BitVec.ofNat 2 j) from rfl, State.requestStep]
      split
      next h => exact ⟨rfl, rfl, rfl, fun i hi _ => by rw [Option.some.inj hi]; rfl⟩
      next h => exact ⟨rfl, rfl, rfl, fun i _ hf => absurd hf h⟩
  clear_value ask
  cases hstep : k.step with
  | none => exact ⟨t, rfl, rfl, fun c j h => (by cases h), rfl, rfl⟩
  | some st =>
    dsimp only
    by_cases hover : full && decide (10 * limit < sum)
    · rw [if_pos hover]
      obtain ⟨hp, hc, hm, hpend⟩ := hask (s.pkg.cfg.lower st.toNat)
      refine ⟨_, rfl, hp, fun c j hc hf _ _ hj => hpend j ?_ hf, hc, hm⟩
      rw [Option.some.inj hc]
      exact hj
    · rw [if_neg hover]
      have hnot : (mw :: s.pkg.clk.power).length ≥ 10 → 10 * (s.pkg.cfg.powerLimit * 1000) < ((mw :: s.pkg.clk.power).take 10).sum → False := fun hl hs => by
        refine hover ?_
        have hfull : full = true := by
          simp only [full, l, List.length_take, beq_iff_eq]
          exact Nat.min_eq_left hl
        rw [hfull, Bool.true_and]
        exact decide_eq_true hs
      split
      · obtain ⟨hp, hc, hm, _⟩ := hask (s.pkg.cfg.higher st.toNat)
        exact ⟨_, rfl, hp, fun c j _ _ hl hs => (hnot hl hs).elim, hc, hm⟩
      · exact ⟨t, rfl, rfl, fun c j _ _ hl hs => (hnot hl hs).elim, rfl, rfl⟩

theorem exec_thermalLimit (hf : s.pkg.clk.full = true) : ∃ t : State, exec .thermalLimit s = .next t ∧ t.pkg.clk.pending = some 3 ∧
    (∀ d, d < 5 → (t.fwd d).evt.getLsbD 5 = true) ∧ t.core = s.core := by
  have he : exec .thermalLimit s = .next ((s.setClk { s.pkg.clk with pending := some 3 }).tell 5 [0, 1, 2, 3, 4]) := by
    show Host.Outcome.next ((s.requestStep 3).tell 5 [0, 1, 2, 3, 4]) = _
    rw [State.requestStep, if_pos hf]
  obtain ⟨f, ht⟩ := (s.setClk { s.pkg.clk with pending := some 3 }).tell_rest 5 [0, 1, 2, 3, 4]
  refine ⟨_, he, by rw [ht]; rfl, fun d hd => State.tell_all _ (by decide) hd, by rw [ht]; rfl⟩

end

theorem exec_svcFull {s : State} (h : s.die = 4) : exec .svcFull s = .next (s.setClk { s.pkg.clk with svcReq := true }) :=
  event_of_true (ok := s.die == 4) (by simp [h]) s fun s => s.setClk { s.pkg.clk with svcReq := true }

/-! ### The firmware Sconce port (18 R423) -/

section
variable {s : State}

theorem State.fwTarget_setFwd (d : Nat) (f : FwDie) (x : W64) (e : Bool) : (s.setFwd d f).fwTarget x e = s.fwTarget x e := by
  unfold State.setFwd
  split
  · rfl
  · rfl

/-- The state once the port has taken an operation. -/
def State.portBusy (s : State) : State :=
  s.setFwd s.die { s.fwd s.die with stat := BitVec.ofNat 64 (2 ^ 62), rnum := (s.fwd s.die).rnum + 1 }

theorem State.portBusy_fwd (hd : s.die < 5) : (s.portBusy.fwd s.die).pend = true ∧ (s.portBusy.fwd s.die).rnum = (s.fwd s.die).rnum + 1 := by
  rw [State.portBusy, State.fwd_setFwd _ _ hd]
  exact ⟨by simp [FwDie.pend], rfl⟩

theorem State.portBusy_core (s : State) : s.portBusy.core = s.core := by simp [State.portBusy]
theorem State.portBusy_mem (s : State) : s.portBusy.mem = s.mem := by simp [State.portBusy]

/-- The access of the port's operation becomes the newest of its stream. -/
def State.portAccess (s : State) (st : BitVec 4) : State := (s.portBusy.issueAccess st true).2

theorem State.portAccess_core (s : State) (st : BitVec 4) : (s.portAccess st).core = s.core.setStream st [s.mem.nextId] := by
  show s.portBusy.core.setStream st [s.portBusy.mem.nextId] = _
  rw [s.portBusy_core, s.portBusy_mem]
theorem State.portAccess_fwd (s : State) (st : BitVec 4) (d : Nat) : (s.portAccess st).fwd d = s.portBusy.fwd d := rfl
theorem State.portAccess_ops (s : State) (st : BitVec 4) : (s.portAccess st).mem.ops = s.mem.ops := by
  show s.portBusy.mem.ops = _
  rw [s.portBusy_mem]
theorem State.portAccess_reps (s : State) (st : BitVec 4) : (s.portAccess st).mem.reps = s.mem.reps := by
  show s.portBusy.mem.reps = _
  rw [s.portBusy_mem]
theorem State.portAccess_frontier (s : State) (st : BitVec 4) : (s.portAccess st).frontier st = [s.mem.nextId] := by
  rw [State.frontier, s.portAccess_core]
  exact (rget_rset _ st st _ (by decide)).trans (if_pos rfl)

variable (hid : s.core.id = .fw s.die) (op : BitVec 6) (st : BitVec 4)
include hid

theorem State.fwIssue_target {tg : Target} (htg : s.fwTarget (s.fwd s.die).stgt (exactOp op) = some tg) : ∃ (m : MemSys) (o : SOp),
    s.fwIssue op st = { s.portAccess st with mem := m } ∧ m.ops = s.mem.ops ++ [o] ∧ o.op = op ∧ o.v = (s.fwd s.die).sv ∧ o.n = (s.fwd s.die).sn ∧ o.loc = tg.loc ∧
      o.home = tg.home := by
  rw [State.fwIssue, State.at_self hid]
  · extract_lets u
    rw [show u.fwTarget _ _ = some tg from (State.fwTarget_setFwd ..).trans htg]
    exact ⟨_, _, rfl, congrArg (· ++ _) (s.portAccess_ops st), rfl, rfl, rfl, rfl, rfl⟩
  · extract_lets u
    rw [show u.fwTarget _ _ = some tg from (State.fwTarget_setFwd ..).trans htg]
    show (s.portAccess st).core.id = s.core.id
    rw [s.portAccess_core]
    rfl

theorem State.fwIssue_none (htg : s.fwTarget (s.fwd s.die).stgt (exactOp op) = none) : ∃ x : Rep,
    s.fwIssue op st = { s.portAccess st with mem := { (s.portAccess st).mem with reps := (s.portAccess st).mem.reps ++ [x] } } ∧ x.reply.fcode = 12 := by
  rw [State.fwIssue, State.at_self hid]
  · extract_lets u
    rw [show u.fwTarget _ _ = none from (State.fwTarget_setFwd ..).trans htg]
    exact ⟨_, rfl, rfl⟩
  · extract_lets u
    rw [show u.fwTarget _ _ = none from (State.fwTarget_setFwd ..).trans htg]
    show (s.portAccess st).core.id = s.core.id
    rw [s.portAccess_core]
    rfl

end

/-- The instruction is the port's form of the operation on stream `st`. -/
def PortForm (st : BitVec 4) (i : Instr) (op : BitVec 6) : Prop :=
  (∀ s, exec i s = fws op st s) ∧ 0x08 ≤ op.toNat ∧ (op.toNat ≤ 0x16 ∨ op.toNat = 0x18)

theorem portForm_of_mem {st : BitVec 4} {i : Instr} {op : BitVec 6} (h : (i, op) ∈
    [(.fwsAtLd st, 0x08), (.fwsAtSt st, 0x09), (.fwsAtAdd st, 0x0A), (.fwsAtAnd st, 0x0B), (.fwsAtOr st, 0x0C), (.fwsAtXor st, 0x0D), (.fwsAtMin st, 0x0E),
      (.fwsAtMax st, 0x0F), (.fwsAtMinu st, 0x10), (.fwsAtMaxu st, 0x11), (.fwsAtSwap st, 0x12), (.fwsAtCas st, 0x13), (.fwsAtXadd st, 0x14), (.fwsAtXrd st, 0x15),
      (.fwsAtXclr st, 0x16), ((.fwsSbArrv st, 0x18) : Instr × BitVec 6)]) : PortForm st i op := by
  simp only [List.mem_cons, List.not_mem_nil, or_false, Prod.mk.injEq] at h
  rcases h with ⟨rfl, rfl⟩ | ⟨rfl, rfl⟩ | ⟨rfl, rfl⟩ | ⟨rfl, rfl⟩ | ⟨rfl, rfl⟩ | ⟨rfl, rfl⟩ | ⟨rfl, rfl⟩ | ⟨rfl, rfl⟩ | ⟨rfl, rfl⟩ | ⟨rfl, rfl⟩ | ⟨rfl, rfl⟩ | ⟨rfl, rfl⟩ |
    ⟨rfl, rfl⟩ | ⟨rfl, rfl⟩ | ⟨rfl, rfl⟩ | ⟨rfl, rfl⟩ <;> exact ⟨fun _ => rfl, by decide, by decide⟩

section
variable {s : State} {st : BitVec 4} {i : Instr} {op : BitVec 6} (h : PortForm st i op) (hp : (s.fwd s.die).pend = false) (hh : s.fwHeld op = false)
include h hp hh

theorem PortForm.issues : exec i s = .next (s.fwIssue op st) := by
  rw [h.1, fws, event_of_true (by simp [hp, hh])]

variable (hd : s.die < 5) (hid : s.core.id = .fw s.die)
include hd hid

theorem PortForm.accepted {tg : Target} (htg : s.fwTarget (s.fwd s.die).stgt (exactOp op) = some tg) : ∃ t : State, exec i s = .next t ∧ ∃ o, t.mem.ops = s.mem.ops ++ [o] ∧
    o.op = op ∧ o.v = (s.fwd s.die).sv ∧ o.n = (s.fwd s.die).sn ∧ o.loc = tg.loc ∧ o.home = tg.home ∧ (t.fwd s.die).pend = true ∧
    (t.fwd s.die).rnum = (s.fwd s.die).rnum + 1 ∧ t.frontier st = [s.mem.nextId] := by
  obtain ⟨m, o, ht, hops, hop, hv, hn, hloc, hhome⟩ := State.fwIssue_target hid op st htg
  obtain ⟨hpend, hrnum⟩ := State.portBusy_fwd hd
  refine ⟨_, h.issues hp hh, o, ?_, hop, hv, hn, hloc, hhome, ?_, ?_, ?_⟩
  · rw [ht, hops]
  · rw [ht]
    exact hpend
  · rw [ht]
    exact hrnum
  · rw [ht]
    exact s.portAccess_frontier st

theorem PortForm.refused (htg : s.fwTarget (s.fwd s.die).stgt (exactOp op) = none) : ∃ t : State, exec i s = .next t ∧ ∃ x, t.mem.reps = s.mem.reps ++ [x] ∧
    x.reply.fcode = 12 ∧ (t.fwd s.die).pend = true := by
  obtain ⟨x, ht, hx⟩ := State.fwIssue_none hid op st htg
  refine ⟨_, h.issues hp hh, x, ?_, hx, ?_⟩
  · rw [ht]
    exact congrArg (· ++ [x]) (s.portAccess_reps st)
  · rw [ht]
    exact (State.portBusy_fwd hd).1

end

/-- Bit 63 of a status word of the port. -/
theorem getLsbD_63_ofNat {n : Nat} (h : n < 2 ^ 63) : (BitVec.ofNat 64 (2 ^ 63 + n)).getLsbD 63 = true := by
  rw [BitVec.getLsbD_ofNat, Nat.testBit_two_pow_add_eq, Nat.testBit_lt_two_pow h]
  rfl

theorem Reply.status_done (r : Reply) : r.status.getLsbD 63 = true := by
  rw [Reply.status, Nat.add_assoc, Nat.add_assoc]
  refine getLsbD_63_ofNat ?_
  have h1 := r.op.isLt
  have h2 := r.fcode.isLt
  have h3 := r.rnum.isLt
  omega

theorem exec_fwsReply {s : State} (hd : s.die < 5) {x : Rep} (hx : s.mem.reps.find? (fun x => x.who == .fw s.die && x.write) = some x) :
    ∃ t : State, exec .fwsReply s = .next t ∧ (t.fwd s.die).reply = x.reply.value ∧ (t.fwd s.die).stat.getLsbD 63 = true ∧
      (t.fwd s.die).pend = x.reply.status.getLsbD 62 ∧ t.core = s.core := by
  show ∃ t : State, execFwsReply s = .next t ∧ _
  unfold execFwsReply
  extract_lets d
  have hx : s.mem.reps.find? (fun r => r.who == .fw d && r.write) = some x := hx
  rw [hx]
  refine ⟨_, rfl, ?_⟩
  rw [State.fwd_setFwd _ _ hd]
  exact ⟨rfl, Reply.status_done _, rfl, by simp⟩

/-! ### Training (18 R425) -/

section
variable {s : State} {ctl pch : Nat} (hc : physChan (s.fwd s.die).physel = some (ctl, pch)) (h4 : s.die ≠ 4) (hb : s.phyBusy ctl = false)
include hc h4 hb

theorem exec_patctlApply : exec .patctlApply s = .next (if (s.fwd s.die).mapBad ctl pch then s.setFwd s.die { s.fwd s.die with patres := (s.fwd s.die).patres ||| BitVec.ofNat 64 (2 ^ 62) }
    else s.setFwd s.die { s.fwd s.die with
      maps := ((List.range 16).map fun i => ((ctl, pch, i), ((s.fwd s.die).lane (ctl, pch, i)).phys)) ++ (s.fwd s.die).maps.filter (fun x => x.1.1 != ctl || x.1.2.1 != pch)
      patres := (s.fwd s.die).patres &&& ~~~(BitVec.ofNat 64 (2 ^ 62)) }) := by
  show execPatctlApply s = _
  unfold execPatctlApply
  extract_lets f
  have hc : physChan f.physel = some (ctl, pch) := hc
  rw [hc]
  exact event_of_true (by simp [h4, hb]) ..

theorem exec_patctlStart (hpat : bits (s.fwd s.die).patctl.toNat 11 8 ≤ 3) (hdir : bits (s.fwd s.die).patctl.toNat 5 4 ≤ 1) : exec .patctlStart s =
    .next (s.setFwd s.die { s.fwd s.die with
      patres := (s.fwd s.die).patres &&& ~~~(BitVec.ofNat 64 (2 ^ 63))
      test := some { ctl := ctl, pch := pch, patctl := (s.fwd s.die).patctl, map := (s.fwd s.die).mapOf ctl pch, delays := (s.fwd s.die).delaysOf ctl pch } }) := by
  show execPatctlStart s = _
  unfold execPatctlStart
  extract_lets f
  have hc : physChan f.physel = some (ctl, pch) := hc
  rw [hc]
  have hok : ¬(3 < bits (s.fwd s.die).patctl.toNat 11 8 ∨ 1 < bits (s.fwd s.die).patctl.toNat 5 4) := by omega
  exact (event_of_true (by simp [h4, hb]) ..).trans (congrArg Host.Outcome.next (if_neg hok))

variable (hd : s.die < 5)
include hd

theorem exec_patctlApply_bad (hbad : (s.fwd s.die).mapBad ctl pch = true) : ∃ t : State, exec .patctlApply s = .next t ∧
    (t.fwd s.die).patres.getLsbD 62 = true ∧ (t.fwd s.die).maps = (s.fwd s.die).maps := by
  refine ⟨_, exec_patctlApply hc h4 hb, ?_⟩
  rw [if_pos hbad, State.fwd_setFwd _ _ hd]
  exact ⟨getLsbD_or_two_pow _ (by decide), rfl⟩

theorem exec_patctlApply_good (hbad : (s.fwd s.die).mapBad ctl pch = false) : ∃ t : State, exec .patctlApply s = .next t ∧
    (t.fwd s.die).patres.getLsbD 62 = false ∧ ∀ i, i < 16 → ((ctl, pch, i), ((s.fwd s.die).lane (ctl, pch, i)).phys) ∈ (t.fwd s.die).maps := by
  refine ⟨_, exec_patctlApply hc h4 hb, ?_⟩
  rw [if_neg (by simp [hbad]), State.fwd_setFwd _ _ hd]
  exact ⟨by simp, fun i hi => List.mem_append_left _ (List.mem_map_of_mem (List.mem_range.2 hi))⟩

theorem exec_patctlStart_good (hpat : bits (s.fwd s.die).patctl.toNat 11 8 ≤ 3) (hdir : bits (s.fwd s.die).patctl.toNat 5 4 ≤ 1) : ∃ t : State, exec .patctlStart s = .next t ∧
    (t.fwd s.die).patres.getLsbD 63 = false ∧ (t.fwd s.die).test =
      some { ctl := ctl, pch := pch, patctl := (s.fwd s.die).patctl, map := (s.fwd s.die).mapOf ctl pch, delays := (s.fwd s.die).delaysOf ctl pch } := by
  refine ⟨_, exec_patctlStart hc h4 hb hpat hdir, ?_⟩
  rw [State.fwd_setFwd _ _ hd]
  exact ⟨by simp, rfl⟩

end

theorem exec_patternTestDone {s : State} {lerr : BitVec 18} {n : W32} (hd : s.die < 5) {x : PatTest} (hx : (s.fwd s.die).test = some x)
    (hn : n.toNat ≤ bits x.patctl.toNat 47 16 + 1) (h0 : lerr = 0 ↔ n = 0) (hl : ∀ i, i < 18 → lerr.getLsbD i = true → i ∈ x.map) :
    ∃ t : State, exec (.patternTestDone lerr n) s = .next t ∧ (t.fwd s.die).test = none ∧
      (t.fwd s.die).patres.getLsbD 63 = true ∧ (t.fwd s.die).tests = (s.fwd s.die).tests ++ [(x, lerr)] ∧
      (∀ i, i < 18 → lerr.getLsbD i = true → (x.ctl, x.pch, i) ∈ (t.fwd s.die).fails) := by
  have hzero : ((lerr == 0) == (n == 0)) = true := by
    rw [beq_iff_eq, Bool.eq_iff_iff, beq_iff_eq, beq_iff_eq]
    exact h0
  have hlanes : ((List.range 18).all fun i => !lerr.getLsbD i || x.map.contains i) = true := by
    rw [List.all_eq_true]
    intro i hi
    cases hbit : lerr.getLsbD i with
    | false => rfl
    | true => exact List.contains_iff_mem.2 (hl i (List.mem_range.1 hi) hbit)
  show ∃ t : State, execPatternTestDone lerr n s = .next t ∧ _
  unfold execPatternTestDone
  extract_lets f
  have hx : f.test = some x := hx
  rw [hx]
  refine ⟨_, event_of_true (by rw [hzero, hlanes, decide_eq_true hn]; rfl) .., ?_⟩
  dsimp only
  rw [State.fwd_setFwd _ _ hd]
  refine ⟨rfl, ?_, rfl, fun i hi hb => List.mem_append_left _ (List.mem_map.2 ⟨i, List.mem_filter.2 ⟨List.mem_range.2 hi, hb⟩, rfl⟩)⟩
  rw [Nat.add_assoc, Nat.add_assoc]
  refine getLsbD_63_ofNat ?_
  have h1 := lerr.isLt
  have h2 := n.isLt
  have h3 : bits f.patres.toNat 62 62 < 2 := Nat.mod_lt _ (by decide)
  omega

end Sys2Proof.Machine
end

section
/-! PROOF. Writes of single registers, and the cold reset (10 R245, R246; 18 R422-R425, R427, R432, R434; O54). -/

namespace Sys2Proof.Machine

theorem fieldAt_bits (n lo k : Nat) (hk : 0 < k) : (fieldAt n lo k : BitVec k) = BitVec.ofNat k (bits n (lo + k - 1) lo) := by
  have hw : lo + k - 1 - lo + 1 = k := by omega
  apply BitVec.eq_of_toNat_eq
  rw [fieldAt, bits, hw, Nat.shiftRight_eq_div_pow, BitVec.toNat_ofNat, BitVec.toNat_ofNat, Nat.mod_mod]

/-! ### A register written on its own -/

section
variable {s : State} {r : BitVec 10} (hp : s.privBad r = false) (v : W64)
include hp

theorem exec_registerWrite : exec (.registerWrite r v) s = .next (s.regWrite r.toNat v) := by
  rw [show exec (.registerWrite r v) s = execRegisterWrite r v s from rfl, execRegisterWrite, event_of_true (by simp [hp])]

/-- A write to a register that has an action performs it. -/
theorem exec_registerWrite_act {dt : Nat} {a : Act} (h : sysAct r.toNat v = some (dt, a)) :
    exec (.registerWrite r v) s = .next (s.doWrite { time := s.gang.now, iss := s.gang.now, own := true, act := a }) := by
  rw [exec_registerWrite hp, State.regWrite, h]

theorem exec_registerWrite_flags (hr : r = 0) : ∃ t : State, exec (.registerWrite r v) s = .next t ∧ t.core.aflags = s.core.aflags &&& ~~~v ∧ t.mem = s.mem := by
  subst hr
  exact ⟨_, exec_registerWrite_act hp v rfl, rfl, rfl⟩

theorem exec_registerWrite_rot (hr : r = 9) : ∃ t : State, exec (.registerWrite r v) s = .next t ∧ t.core.rotc = v.setWidth 32 ∧
    t.core.rote = (if bits v.toNat 38 32 = 127 then none else some (BitVec.ofNat 7 (bits v.toNat 38 32))) ∧ t.mem = s.mem := by
  subst hr
  refine ⟨_, exec_registerWrite_act hp v rfl, rfl, ?_, rfl⟩
  have hlt : bits v.toNat 38 32 < 2 ^ 7 := Nat.mod_lt _ (by decide)
  have hiff : (BitVec.ofNat 7 (bits v.toNat 38 32) = 0x7F) ↔ bits v.toNat 38 32 = 127 := by
    rw [← BitVec.toNat_inj, BitVec.toNat_ofNat, Nat.mod_eq_of_lt hlt]
    rfl
  show (if (fieldAt v.toNat 32 7 : BitVec 7) = 0x7F then none else some (fieldAt v.toNat 32 7)) = _
  rw [fieldAt_bits _ 32 7 (by decide)]
  exact if_congr hiff rfl rfl

theorem exec_registerWrite_fb (hlo : 0x020 ≤ r.toNat) (hhi : r.toNat < 0x040) : ∃ t : State, exec (.registerWrite r v) s = .next t ∧
    t.getFb (BitVec.ofNat 5 (r.toNat - 0x020)) = v &&& 0x1FFFFFFFF ∧ t.mem = s.mem :=
  ⟨_, exec_registerWrite_act hp v (sysAct_fb v hlo hhi), (rget_rset ..).trans (if_pos rfl), rfl⟩

theorem exec_registerWrite_stage (hlo : 0x050 ≤ r.toNat) (hhi : r.toNat < 0x08C) : ∃ t : State, exec (.registerWrite r v) s = .next t ∧
    (∀ j, (h : j < 5) → (t.getPort ((r.toNat - 0x050) / 5)).stage[j] = if j = (r.toNat - 0x050) % 5 then v else (s.getPort ((r.toNat - 0x050) / 5)).stage[j]) ∧
    (t.getPort ((r.toNat - 0x050) / 5)).armed = (s.getPort ((r.toNat - 0x050) / 5)).armed ∧ (∀ m, m ≠ (r.toNat - 0x050) / 5 → t.getPort m = s.getPort m) ∧ t.mem = s.mem := by
  have hport : (BitVec.ofNat 4 ((r.toNat - 0x050) / 5)).toNat = (r.toNat - 0x050) / 5 := by
    rw [BitVec.toNat_ofNat]
    omega
  have hword : (BitVec.ofNat 3 ((r.toNat - 0x050) % 5)).toNat = (r.toNat - 0x050) % 5 := by
    rw [BitVec.toNat_ofNat]
    omega
  have h12 : (r.toNat - 0x050) / 5 < 12 := by omega
  have h5 : (r.toNat - 0x050) % 5 < 5 := Nat.mod_lt _ (by decide)
  refine ⟨_, exec_registerWrite_act hp v (sysAct_stage v hlo hhi), ?_⟩
  show (∀ j, (h : j < 5) → ((s.stageWrite _ _ v).getPort _).stage[j] = _) ∧ ((s.stageWrite _ _ v).getPort _).armed = _ ∧ (∀ m, _ → (s.stageWrite _ _ v).getPort m = _) ∧ (s.stageWrite _ _ v).mem = _
  generalize (r.toNat - 0x050) / 5 = n at *
  generalize (r.toNat - 0x050) % 5 = k at *
  simp only [State.stageWrite, hport, hword, dif_pos h5, Core.getPort_setPort _ _ _ _ h12]
  refine ⟨fun j hj => ?_, rfl, fun m hm => if_neg hm, rfl⟩
  simp only [if_true, Vector.getElem_set, eq_comm (a := k)]

/-! ### Privileged registers -/

theorem exec_registerWrite_fw (hr : 0x200 ≤ r.toNat) : exec (.registerWrite r v) s = .next (s.fwWrite r v) := by
  rw [exec_registerWrite_act hp v (sysAct_fw v hr)]
  show Host.Outcome.next (s.fwWrite (BitVec.ofNat 10 r.toNat) v) = _
  rw [BitVec.ofNat_toNat, BitVec.setWidth_eq]

end

/-- Registers of a die that are only stored. -/
theorem exec_registerWrite_store {s : State} {r : BitVec 10} (hp : s.privBad r = false) {v : W64} (hd : s.die < 5) (hr : 0x200 ≤ r.toNat) {f : FwDie}
    (h : s.fwWrite r v = s.setFwd s.die f) {P : FwDie → Prop} (hf : P f) : ∃ t : State, exec (.registerWrite r v) s = .next t ∧ P (t.fwd s.die) ∧ OfDie s t s.die := by
  refine ⟨_, exec_registerWrite_fw hp v hr, ?_, ?_⟩
  · rw [h, State.fwd_setFwd _ _ hd]
    exact hf
  · rw [h]
    exact .setFwd ..

theorem OfDie.keeps {s t : State} {d : Nat} (h : OfDie s t d) : t.core = s.core ∧ t.mem = s.mem ∧ ∀ k, k ≠ d → t.fwd k = s.fwd k := ⟨h.core, h.mem, h.others⟩

/-! ### CLKCTL and SVC (18 R422, R430) -/

/-- CLKCTL keeps the step asked for and the two bits that stay set. -/
theorem clkctl_step (v c : Nat) : (BitVec.ofNat 64 (v % 4 + ((v ||| c) &&& 0x300))).toNat % 4 = v % 4 := by
  rw [BitVec.toNat_ofNat, Nat.mod_mod_of_dvd _ (by decide), Nat.add_mod, Nat.mod_mod, show (4 : Nat) = 2 ^ 2 from rfl, Nat.and_mod_two_pow]
  simp

section
variable {s : State} {v : W64}

/-- The state with CLKCTL stored. -/
def State.storeClkctl (s : State) (v : W64) : State :=
  s.setFwd s.die { s.fwd s.die with clkctl := BitVec.ofNat 64 (v.toNat % 4 + ((v.toNat ||| (s.fwd s.die).clkctl.toNat) &&& 0x300)) }

theorem State.storeClkctl_die (s : State) (v : W64) : (s.storeClkctl v).die = s.die := by
  unfold State.storeClkctl State.setFwd
  split
  · rfl
  · rfl
theorem State.storeClkctl_clkctl (s : State) (v : W64) (hd : s.die < 5) : ((s.storeClkctl v).fwd s.die).clkctl.toNat % 4 = v.toNat % 4 := by
  rw [State.storeClkctl, State.fwd_setFwd _ _ hd]
  exact clkctl_step ..

theorem State.fwWrite_clkctl_store (h8 : v.getLsbD 8 = false) (h9 : v.getLsbD 9 = false) : s.fwWrite 0x210 v = s.storeClkctl v := by
  show (if v.getLsbD 9 then Res.orElse (if v.getLsbD 8 then _ else s.storeClkctl v) _ else if v.getLsbD 8 then _ else s.storeClkctl v) = _
  rw [h8, h9]
  rfl

theorem State.fwWrite_clkctl_request (hd : s.die < 5) (h8 : v.getLsbD 8 = true) (h9 : v.getLsbD 9 = false) (hf : s.pkg.clk.full = true)
    (hperm : s.pkg.cfg.permits (v.toNat % 4) = true) :
    s.fwWrite 0x210 v = (s.storeClkctl v).setClk { s.pkg.clk with pending := some (v.setWidth 2) } := by
  have hdie := s.storeClkctl_die v
  have hpkg : (s.storeClkctl v).pkg = s.pkg := by simp [State.storeClkctl]
  have hctl := s.storeClkctl_clkctl v hd
  have hw : ((s.storeClkctl v).fwd s.die).clkctl.setWidth 2 = v.setWidth 2 := by
    apply BitVec.eq_of_toNat_eq
    rw [setWidth_toNat_mod, setWidth_toNat_mod, hctl]
  show (if v.getLsbD 9 then Res.orElse (if v.getLsbD 8 then Res.orElse (s.storeClkctl v) (execClkctlReq (s.storeClkctl v)) else s.storeClkctl v) _
    else if v.getLsbD 8 then Res.orElse (s.storeClkctl v) (execClkctlReq (s.storeClkctl v)) else s.storeClkctl v) = _
  rw [h8, h9, execClkctlReq_eq (by rw [hdie, hpkg, hctl]; exact hperm) (by rw [hpkg]; exact hf), hdie, hpkg, hw]
  rfl

theorem State.fwWrite_clkctl_cancel (h9 : v.getLsbD 9 = true) : (s.fwWrite 0x210 v).pkg.clk.pending = none := by
  show (if v.getLsbD 9 then Res.orElse _ (execClkctlCancel (if v.getLsbD 8 then _ else s.storeClkctl v)) else _ : State).pkg.clk.pending = none
  rw [if_pos h9]
  show (State.cancelChange _).pkg.clk.pending = none
  rw [State.cancelChange_spec]

theorem State.fwWrite_svc (h4 : s.die = 4) (h0 : v.getLsbD 0 = true) : s.fwWrite 0x211 v = s.setClk { s.pkg.clk with svcReq := true } := by
  show (if v.getLsbD 0 then Res.orElse s (execSvcFull s) else s) = _
  rw [if_pos h0, show execSvcFull s = _ from exec_svcFull h4]
  rfl

theorem State.fwWrite_svc_none (h : s.die ≠ 4 ∨ v.getLsbD 0 = false) : s.fwWrite 0x211 v = s := by
  show (if v.getLsbD 0 then Res.orElse s (execSvcFull s) else s) = s
  split
  next h0 =>
    rw [execSvcFull, event_of_false (beq_eq_false_iff_ne.2 (h.resolve_right (by simp [h0])))]
    rfl
  next => rfl

/-! ### FWSCMD (18 R423) -/

theorem State.fwWrite_port_busy (h : (s.fwd s.die).pend = true) : s.fwWrite 0x223 v = s := if_pos h

/-- The word names no operation of the port. -/
def noPortOp (v : W64) : Prop := 2 ^ 10 ≤ v.toNat ∨ v.toNat % 64 < 0x08 ∨ v.toNat % 64 = 0x17 ∨ 0x18 < v.toNat % 64

theorem noPortOp_iff (v : W64) : noPortOp v ↔
    (bits v.toNat 63 10 ≠ 0 ∨ (!decide ((0x08 ≤ (v.setWidth 6).toNat ∧ (v.setWidth 6).toNat ≤ 0x16) ∨ v.setWidth 6 = 0x18)) = true) := by
  have h := v.isLt
  have h18 : (v.setWidth 6 = 0x18) ↔ v.toNat % 64 = 24 := by
    rw [← BitVec.toNat_inj, BitVec.toNat_setWidth]
    rfl
  simp only [h18, noPortOp, bits, Nat.shiftRight_eq_div_pow, BitVec.toNat_setWidth, Bool.not_eq_true', decide_eq_false_iff_not, Nat.reducePow, Nat.reduceSub, Nat.reduceAdd]
  omega

theorem State.fwWrite_port_bad (h : (s.fwd s.die).pend = false) (hv : noPortOp v) :
    s.fwWrite 0x223 v = s.setFwd s.die { s.fwd s.die with stat := BitVec.ofNat 64 (2 ^ 63 + 8 * 2 ^ 32) } :=
  (if_neg (by simp [h])).trans (if_pos ((noPortOp_iff v).1 hv))

theorem State.fwWrite_port {op : BitVec 6} {st : BitVec 4} (h : (s.fwd s.die).pend = false) (hlo : 0x08 ≤ op.toNat) (hhi : op.toNat ≤ 0x16 ∨ op.toNat = 0x18)
    (hv : v = (st ++ op).setWidth 64) : s.fwWrite 0x223 v = s.fwIssue op st := by
  have h1 := st.isLt
  have h2 := op.isLt
  have hn : v.toNat = st.toNat * 64 + op.toNat := by
    rw [hv, BitVec.toNat_setWidth, BitVec.toNat_append, ← Nat.shiftLeft_add_eq_or_of_lt op.isLt, Nat.shiftLeft_eq]
    exact Nat.mod_eq_of_lt (by omega)
  have hop : v.setWidth 6 = op := by
    apply BitVec.eq_of_toNat_eq
    rw [BitVec.toNat_setWidth, hn]
    omega
  have hst : (fieldAt v.toNat 6 4 : BitVec 4) = st := by
    apply BitVec.eq_of_toNat_eq
    rw [fieldAt, BitVec.toNat_ofNat, hn]
    omega
  have hok : ¬noPortOp v := by
    rw [noPortOp, hn]
    omega
  show s.fwsWrite v = _
  rw [State.fwsWrite, if_neg (by simp [h]), if_neg fun hc => hok ((noPortOp_iff v).2 hc), hop, hst]

/-! ### PHYSEL, PHYLANE, PATCTL (18 R425) -/

theorem State.fwWrite_hub {r : BitVec 10} (h4 : s.die = 4) (hlo : 0x240 ≤ r.toNat) (hhi : r.toNat ≤ 0x242) : s.fwWrite r v = s := by
  obtain rfl | rfl | rfl : r = 0x240 ∨ r = 0x241 ∨ r = 0x242 := by bv_omega
  · exact if_pos h4
  · exact if_pos h4
  · exact if_pos (.inl h4)

theorem State.fwWrite_physel (h4 : s.die ≠ 4) : s.fwWrite 0x240 v = s.setFwd s.die { s.fwd s.die with physel := v &&& 0x1FFF03 } := if_neg h4

/-- A lane's registers as PHYLANE stores them. -/
def storedLane (f : FwDie) (k : Nat × Nat × Nat) (v : W64) : Lane :=
  { phys := if k.2.2 < 16 then BitVec.ofNat 5 (bits v.toNat 20 16) else (f.lane k).phys, wdly := BitVec.ofNat 7 (bits v.toNat 14 8), rdly := BitVec.ofNat 7 (bits v.toNat 6 0) }

theorem State.fwWrite_phylane (h4 : s.die ≠ 4) {k : Nat × Nat × Nat} (hk : physelOf (s.fwd s.die).physel = some k) (hb : s.phyBusy k.1 = false) :
    s.fwWrite 0x241 v = s.setFwd s.die { s.fwd s.die with lanes := (k, storedLane (s.fwd s.die) k v) :: (s.fwd s.die).lanes.filter (·.1 != k) } := by
  show (if s.die = 4 then s else s.phylaneWrite v) = _
  rw [if_neg h4, State.phylaneWrite]
  extract_lets f
  rw [show physelOf f.physel = some k from hk]
  dsimp only
  rw [hb, fieldAt_bits _ 16 5 (by decide), fieldAt_bits _ 8 7 (by decide), fieldAt_bits _ 0 7 (by decide)]
  rfl

theorem FwDie.lane_cons (f : FwDie) (k : Nat × Nat × Nat) (x : Lane) : FwDie.lane { f with lanes := (k, x) :: f.lanes.filter (·.1 != k) } k = x := by
  unfold FwDie.lane
  rw [List.find?_cons_of_pos (by simp)]
theorem FwDie.lane_cons_ne (f : FwDie) {k l : Nat × Nat × Nat} (x : Lane) (h : l ≠ k) :
    FwDie.lane { f with lanes := (k, x) :: f.lanes.filter (·.1 != k) } l = f.lane l := by
  unfold FwDie.lane
  have hfind : (f.lanes.filter (·.1 != k)).find? (·.1 == l) = f.lanes.find? (·.1 == l) := by
    rw [List.find?_filter]
    refine List.find?_congr fun y _ => ?_
    by_cases hy : y.1 = l
    · simp [hy, h]
    · simp [hy]
  rw [List.find?_cons_of_neg (by simpa using Ne.symm h), hfind]

theorem State.fwWrite_patctl (h4 : s.die ≠ 4) (hb : ∀ c p, physChan (s.fwd s.die).physel = some (c, p) → s.phyBusy c = false) (h0 : v.getLsbD 0 = false)
    (h1 : v.getLsbD 1 = false) : s.fwWrite 0x242 v = s.setFwd s.die { s.fwd s.die with
      patctl := BitVec.ofNat 64 (bits v.toNat 47 16 * 2 ^ 16 + bits v.toNat 11 8 * 2 ^ 8 + bits v.toNat 5 4 * 2 ^ 4 + (v.toNat % 4 ||| (s.fwd s.die).patctl.toNat % 4)) } := by
  have hgo : (match physChan (s.fwd s.die).physel with | some (c, _) => !s.phyBusy c | none => true) = true := by
    split
    next c p h => rw [hb c p h]; rfl
    next => rfl
  show s.patctlWrite v = _
  rw [State.patctlWrite, if_neg (not_or.2 ⟨h4, by rw [Bool.not_eq_true', Bool.not_eq_false]; exact hgo⟩), h0, h1]
  rfl

/-- The fields that PATCTL stores. -/
theorem patctl_fields (x a b c d : Nat) (hx : x = a * 2 ^ 16 + b * 2 ^ 8 + c * 2 ^ 4 + d) (ha : a < 2 ^ 32) (hb : b < 2 ^ 4) (hc : c < 2 ^ 2) (hd : d < 2 ^ 2) :
    bits (BitVec.ofNat 64 x).toNat 47 16 = a ∧ bits (BitVec.ofNat 64 x).toNat 11 8 = b ∧ bits (BitVec.ofNat 64 x).toNat 5 4 = c := by
  simp only [bits, Nat.shiftRight_eq_div_pow, BitVec.toNat_ofNat, Nat.reducePow, Nat.reduceSub, Nat.reduceAdd]
  omega

end

/-! ### Cold reset (18 R427, R432, R434) -/

theorem Memory.wfFrom_filter (q : Nat → Bool) {lo : Nat} : ∀ {m : Memory}, Memory.wfFrom lo m = true → Memory.wfFrom lo (m.filter fun c => q c.1) = true
  | [], _ => rfl
  | (k, b) :: m, h => by
    obtain ⟨⟨hlo, hb⟩, hm⟩ : (lo ≤ k ∧ (b != Memory.blank) = true) ∧ Memory.wfFrom (k + 1) m = true := by simpa [Memory.wfFrom] using h
    have ih := Memory.wfFrom_filter q hm
    rw [List.filter_cons]
    split
    · simp only [Memory.wfFrom, decide_eq_true hlo, hb, ih, Bool.and_self]
    · exact Memory.wfFrom_mono (by omega) ih

theorem Memory.wf_filter (q : Nat → Bool) {m : Memory} (h : m.wf = true) : Memory.wf (m.filter fun c => q c.1) = true := Memory.wfFrom_filter q h

/-- A byte whose address stays reads as before. -/
theorem Memory.get_filter {q : Nat → Bool} {a : Nat} (hq : q a = true) {lo : Nat} : ∀ {m : Memory}, Memory.wfFrom lo m = true →
    Memory.get (m.filter fun c => q c.1) a = m.get a
  | [], _ => rfl
  | (k, b) :: m, h => by
    obtain ⟨-, hm⟩ : (lo ≤ k ∧ (b != Memory.blank) = true) ∧ Memory.wfFrom (k + 1) m = true := by simpa [Memory.wfFrom] using h
    have ih := Memory.get_filter hq hm
    rw [List.filter_cons]
    split
    · simp only [Memory.get, ih]
    next hk =>
      have hne : a ≠ k := fun e => hk (e ▸ hq)
      rw [ih, Memory.get, if_neg hne]
      split
      next hlt => exact Memory.get_of_lt hm (by omega)
      next => rfl

/-- Where nothing is on the way, the bytes written in a row read as the number they encode. -/
theorem MemSys.natAt_write {m : MemSys} {b : Memory} {a n x : Nat} (hb : b.wf = true) (hm : m.bytes = b.write a (toBytes n x)) (hl : m.wlog = [])
    (hfar : ∀ i < n, isFar (a + i) = false) (hx : x < 256 ^ n) : m.natAt none a n = x := by
  have hbytes : m.bytesAt none a n = toBytes n x := by
    refine List.ext_getElem (by simp [MemSys.bytesAt, length_toBytes]) fun i h _ => ?_
    have hi : i < n := by simpa [MemSys.bytesAt] using h
    have hin : a ≤ a + i ∧ a + i < a + (toBytes n x).length := by rw [length_toBytes]; omega
    simp only [MemSys.bytesAt, List.getElem_map, List.getElem_range]
    rw [MemSys.byteAt, hfar i hi, hl, hm, Memory.get_write _ _ _ hb, if_pos hin, Nat.add_sub_cancel_left]
    simp [length_toBytes, hi]
  rw [MemSys.natAt, hbytes, ofBytes_toBytes, Nat.mod_eq_of_lt hx]

/-- The lease word lies outside the shared window and in this package. -/
theorem lease_place {i : Nat} (hi : i < 8) : isShared (syncAt 4 0 + i) = false ∧ isFar (syncAt 4 0 + i) = false := by
  have hplace : syncAt 4 0 = 2 ^ 50 + 2 ^ 20 := rfl
  rw [isShared, isFar, hplace, sharedBase]
  exact ⟨Bool.and_eq_false_iff.2 (.inr (decide_eq_false (by omega))), decide_eq_false (by omega)⟩

/-- The lease word that the hub's core takes at a boot. -/
def bootLease : Nat := 2 ^ 32 + 2 ^ 8 + 4

theorem exec_coldReset (s : State) (ok cfg : Bool) : ∃ t : State, exec (.coldReset ok cfg) s = .next t ∧ t.pkg.booted = (ok && s.svnOk) ∧ t.core = State.reset.core ∧
    t.gang = State.reset.gang ∧ t.disp = State.reset.disp ∧ t.pkg.flash = s.pkg.flash ∧ t.host.sent = s.host.sent ∧ t.host.seq = 0 ∧
    t.pkg.cfgOk = (ok && s.svnOk && (cfg && s.recordOurs)) ∧ t.pkg.cfg = s.cfgAfterReset (cfg && s.recordOurs) ∧ t.dom.sealed = t.pkg.cfg.sealedMode ∧
    t.fw = (if ok && s.svnOk then State.reset.fw.set 4 { State.reset.fw[4] with leads := true, word := BitVec.ofNat 64 bootLease } else State.reset.fw) ∧
    t.mem.wlog = [] ∧ t.mem.bytes = (if ok && s.svnOk then Memory.write (s.mem.bytes.filter fun x => isShared x.1) (syncAt 4 0) (toBytes 8 bootLease)
      else s.mem.bytes.filter fun x => isShared x.1) :=
  ⟨_, rfl, rfl, rfl, rfl, rfl, rfl, rfl, rfl, rfl, rfl, rfl, rfl, rfl, rfl⟩

theorem led_of_boot {t : State} {b : Bool} (h : t.fw = (if b then State.reset.fw.set 4 { State.reset.fw[4] with leads := true, word := BitVec.ofNat 64 bootLease } else State.reset.fw)) :
    t.led = b := by
  unfold State.led State.fwd
  rw [h]
  cases b
  · rfl
  · rfl

theorem resetBytes_shared {m : Memory} (hm : m.wf = true) (b : Bool) {a : Nat} (ha : isShared a = true) :
    Memory.get (if b then Memory.write (m.filter fun x => isShared x.1) (syncAt 4 0) (toBytes 8 bootLease) else m.filter fun x => isShared x.1) a = m.get a := by
  have hkept := Memory.get_filter ha hm
  cases b with
  | false => exact hkept
  | true =>
    have hout : ¬(syncAt 4 0 ≤ a ∧ a < syncAt 4 0 + (toBytes 8 bootLease).length) := by
      rintro ⟨hlo, hhi⟩
      rw [length_toBytes] at hhi
      have := (lease_place (i := a - syncAt 4 0) (by omega)).1
      rw [Nat.add_sub_cancel' hlo, ha] at this
      cases this
    rw [if_pos rfl, Memory.get_write _ _ _ (Memory.wf_filter _ hm), if_neg hout]
    exact hkept

/-- What a write to CLKCTL asks for (18 R430). -/
theorem exec_registerWrite_clkctl {s : State} {v : W64} (hd : s.die < 5) (hp : s.privBad 0x210 = false) :
    (v.getLsbD 8 = false → v.getLsbD 9 = false → ∃ t : State, exec (.registerWrite 0x210 v) s = .next t ∧ (t.fwd s.die).clkctl.toNat % 4 = v.toNat % 4 ∧ t.pkg = s.pkg ∧ OfDie s t s.die) ∧
    (v.getLsbD 8 = true → v.getLsbD 9 = false → s.pkg.clk.full = true → s.pkg.cfg.permits (v.toNat % 4) = true → ∃ t : State, exec (.registerWrite 0x210 v) s = .next t ∧
      t.pkg.clk.pending = some (v.setWidth 2) ∧ OfDie s t s.die) ∧
    (v.getLsbD 9 = true → ∃ t : State, exec (.registerWrite 0x210 v) s = .next t ∧ t.pkg.clk.pending = none) := by
  have hw := exec_registerWrite_fw hp v (by decide)
  refine ⟨fun h8 h9 => ⟨_, hw, ?_⟩, fun h8 h9 hf hperm => ⟨_, hw, ?_⟩, fun h9 => ⟨_, hw, State.fwWrite_clkctl_cancel h9⟩⟩
  · rw [State.fwWrite_clkctl_store h8 h9]
    exact ⟨s.storeClkctl_clkctl v hd, by simp [State.storeClkctl], .setFwd ..⟩
  · rw [State.fwWrite_clkctl_request hd h8 h9 hf hperm]
    exact ⟨rfl, .trans (.setFwd ..) ⟨rfl, rfl, fun _ _ => rfl⟩⟩

/-- What a write to PHYLANE and to PATCTL stores (18 R425). -/
theorem exec_registerWrite_phylane {s : State} {v : W64} (hd : s.die < 5) (hp : s.privBad 0x241 = false) (h4 : s.die ≠ 4) {k : Nat × Nat × Nat}
    (hk : physelOf (s.fwd s.die).physel = some k) (hb : s.phyBusy k.1 = false) : ∃ t : State, exec (.registerWrite 0x241 v) s = .next t ∧
      ((t.fwd s.die).lane k = storedLane (s.fwd s.die) k v ∧ ∀ l, l ≠ k → (t.fwd s.die).lane l = (s.fwd s.die).lane l) ∧ OfDie s t s.die :=
  exec_registerWrite_store hp hd (by decide) (State.fwWrite_phylane h4 hk hb) (P := fun g => g.lane k = storedLane (s.fwd s.die) k v ∧ ∀ l, l ≠ k → g.lane l = (s.fwd s.die).lane l)
    ⟨FwDie.lane_cons .., fun _ hl => FwDie.lane_cons_ne _ _ hl⟩

theorem exec_registerWrite_patctl {s : State} {v : W64} (hd : s.die < 5) (hp : s.privBad 0x242 = false) (h4 : s.die ≠ 4)
    (hb : ∀ c p, physChan (s.fwd s.die).physel = some (c, p) → s.phyBusy c = false) (h0 : v.getLsbD 0 = false) (h1 : v.getLsbD 1 = false) :
    ∃ t : State, exec (.registerWrite 0x242 v) s = .next t ∧ (bits (t.fwd s.die).patctl.toNat 47 16 = bits v.toNat 47 16 ∧
      bits (t.fwd s.die).patctl.toNat 11 8 = bits v.toNat 11 8 ∧ bits (t.fwd s.die).patctl.toNat 5 4 = bits v.toNat 5 4) ∧ OfDie s t s.die :=
  exec_registerWrite_store hp hd (by decide) (State.fwWrite_patctl h4 hb h0 h1)
    (P := fun g => bits g.patctl.toNat 47 16 = _ ∧ bits g.patctl.toNat 11 8 = _ ∧ bits g.patctl.toNat 5 4 = _)
    (patctl_fields _ _ _ _ _ rfl (Nat.mod_lt _ (by decide)) (Nat.mod_lt _ (by decide)) (Nat.mod_lt _ (by decide))
      (Nat.or_lt_two_pow (Nat.mod_lt _ (by decide)) (Nat.mod_lt _ (by decide))))

theorem refusedStat : (BitVec.ofNat 64 (2 ^ 63 + 8 * 2 ^ 32)).getLsbD 63 = true ∧ bits (BitVec.ofNat 64 (2 ^ 63 + 8 * 2 ^ 32)).toNat 47 32 = 8 ∧
    (BitVec.ofNat 64 (2 ^ 63 + 8 * 2 ^ 32)).getLsbD 62 = false := by decide

/-- What a refused write of FWSCMD leaves in FWSSTAT (18 R423). -/
theorem exec_registerWrite_port_bad {s : State} {v : W64} (hd : s.die < 5) (hp : s.privBad 0x223 = false) (hpend : (s.fwd s.die).pend = false) (hv : noPortOp v) :
    ∃ t : State, exec (.registerWrite 0x223 v) s = .next t ∧
      ((t.fwd s.die).stat.getLsbD 63 = true ∧ bits (t.fwd s.die).stat.toNat 47 32 = 8 ∧ (t.fwd s.die).pend = false) ∧ OfDie s t s.die :=
  exec_registerWrite_store hp hd (by decide) (State.fwWrite_port_bad hpend hv) (P := fun g => g.stat.getLsbD 63 = true ∧ bits g.stat.toNat 47 32 = 8 ∧ g.pend = false)
    refusedStat

/-- Settles O54: each register, port, limit and request by its own lemma; the reset keeps the shared window and writes the lease. -/
theorem firmwareComplete : Obligations.FirmwareComplete := by
  intro s us v mw ctl pch k st lerr n r hd
  extract_lets f next ports
  refine ⟨?timer, exec_fwTimerExpiry hd, exec_clkctlReq, fun hpend => ⟨?cancel, ?timeout, fun hst => ?change⟩, fun h4 => ⟨_, exec_svcFull h4, rfl, rfl, rfl⟩,
    exec_fullServiceTransition, mem_trained_iff s, exec_powerSample mw, exec_thermalLimit, ⟨_, rfl, rfl, rfl, rfl⟩, fun i op hi hid hp hh => ?port, fun x => exec_fwsReply hd,
    fun hc h4 hb => ⟨exec_patctlApply_bad hc h4 hb hd, exec_patctlApply_good hc h4 hb hd, exec_patctlStart_good hc h4 hb hd⟩, fun x => exec_patternTestDone hd,
    fun hp => ?registers, fun ok cfg => ?reset⟩
  case timer =>
    obtain ⟨t, ht, htimer, hrest⟩ := exec_fwTimer hd us
    exact ⟨t, ht, htimer, hrest.others, hrest.core, hrest.mem⟩
  case cancel => exact ⟨_, rfl, by rw [State.cancelChange_spec], by rw [State.cancelChange_spec]⟩
  case timeout => exact ⟨_, rfl, by rw [State.cancelChange_spec], by rw [State.cancelChange_spec]⟩
  case change =>
    obtain ⟨t, ht, hclk⟩ := exec_frequencyChange hpend hst
    exact ⟨t, ht, by rw [hclk], by rw [hclk]⟩
  case port =>
    have hform : PortForm st i op := portForm_of_mem hi
    exact ⟨fun tg => hform.accepted hp hh hd hid, hform.refused hp hh hd hid⟩
  case registers =>
    refine ⟨exec_registerWrite_flags hp v, exec_registerWrite_rot hp v, exec_registerWrite_fb hp v, exec_registerWrite_stage hp v, ?evt, ?timerReg, ?ctlStore, ?ctlRequest,
      ?ctlCancel, ?svc, ?svcNone, ?tgt, ?val, ?num, ?busy, ?bad, ?issue, fun h4 hlo hhi => ?hub, ?physel, fun lane => ?phylane, ?patctl⟩
    case hub => rw [exec_registerWrite_fw hp v (by omega), State.fwWrite_hub h4 hlo hhi]
    all_goals rintro rfl
    case evt =>
      obtain ⟨t, ht, hevt, hrest⟩ := exec_registerWrite_store hp hd (by decide) rfl (P := fun g => g.evt = f.evt &&& ~~~v) rfl
      exact ⟨t, ht, hevt, hrest.keeps⟩
    case timerReg =>
      obtain ⟨t, ht, htimer, hrest⟩ := exec_registerWrite_store hp hd (by decide) rfl (P := fun g => g.timer = v) rfl
      exact ⟨t, ht, htimer, hrest.keeps⟩
    case ctlStore =>
      intro h8 h9
      obtain ⟨t, ht, hctl, hpkg, hrest⟩ := (exec_registerWrite_clkctl hd hp).1 h8 h9
      exact ⟨t, ht, hctl, hpkg, hrest.keeps⟩
    case ctlRequest =>
      intro h8 h9 hf hperm
      obtain ⟨t, ht, hpend, hrest⟩ := (exec_registerWrite_clkctl hd hp).2.1 h8 h9 hf hperm
      exact ⟨t, ht, hpend, hrest.keeps⟩
    case ctlCancel => exact (exec_registerWrite_clkctl hd hp).2.2
    case svc =>
      intro h4 h0
      refine ⟨_, exec_registerWrite_fw hp v (by decide), ?_⟩
      rw [State.fwWrite_svc h4 h0]
      exact ⟨rfl, rfl, rfl, fun _ _ => rfl⟩
    case svcNone =>
      intro h
      rw [exec_registerWrite_fw hp v (by decide), State.fwWrite_svc_none h]
    case tgt =>
      obtain ⟨t, ht, hval, hrest⟩ := exec_registerWrite_store hp hd (by decide) rfl (P := fun g => g.stgt = v) rfl
      exact ⟨t, ht, hval, hrest.keeps⟩
    case val =>
      obtain ⟨t, ht, hval, hrest⟩ := exec_registerWrite_store hp hd (by decide) rfl (P := fun g => g.sv = v) rfl
      exact ⟨t, ht, hval, hrest.keeps⟩
    case num =>
      obtain ⟨t, ht, hval, hrest⟩ := exec_registerWrite_store hp hd (by decide) rfl (P := fun g => g.sn = v) rfl
      exact ⟨t, ht, hval, hrest.keeps⟩
    case busy =>
      intro hpend
      rw [exec_registerWrite_fw hp v (by decide), State.fwWrite_port_busy hpend]
    case bad =>
      intro hpend hv
      obtain ⟨t, ht, ⟨hdone, hcode, hfree⟩, hrest⟩ := exec_registerWrite_port_bad hd hp hpend hv
      exact ⟨t, ht, hdone, hcode, hfree, hrest.keeps⟩
    case issue =>
      intro hpend hheld i op hi hv
      obtain hform : PortForm st i op := portForm_of_mem hi
      rw [exec_registerWrite_fw hp v (by decide), State.fwWrite_port hpend hform.2.1 hform.2.2 hv, hform.issues hpend (hheld op)]
    case physel =>
      intro h4
      obtain ⟨t, ht, hsel, hrest⟩ := exec_registerWrite_store hp hd (by decide) (State.fwWrite_physel h4) (P := fun g => g.physel = v &&& 0x1FFF03) rfl
      exact ⟨t, ht, hsel, hrest.keeps⟩
    case phylane =>
      intro h4 hk hb
      obtain ⟨t, ht, ⟨hlane, hothers⟩, hrest⟩ := exec_registerWrite_phylane (v := v) hd hp h4 hk hb
      exact ⟨t, ht, hlane, hothers, hrest.keeps⟩
    case patctl =>
      intro h4 hb h0 h1
      obtain ⟨t, ht, ⟨hn, hpat, hdir⟩, hrest⟩ := exec_registerWrite_patctl hd hp h4 hb h0 h1
      exact ⟨t, ht, hn, hpat, hdir, hrest.keeps⟩
  case reset =>
    obtain ⟨t, ht, hbooted, hcore, hgang, hdisp, hflash, hsent, hseq, hcfgOk, hcfg, hsealed, hfw, hlog, hbytes⟩ := exec_coldReset s ok cfg
    refine ⟨t, ht, hbooted, hcore, hgang, hdisp, hflash, hsent, hseq, hcfgOk, hcfg, hsealed, led_of_boot hfw, fun hwf => ⟨fun a ha => ?_, fun hok hsvn => ?_⟩⟩
    · rw [hbytes]
      exact resetBytes_shared hwf _ ha
    · rw [hok, hsvn] at hbytes
      exact MemSys.natAt_write (Memory.wf_filter _ hwf) hbytes hlog (fun i hi => (lease_place hi).2) (by decide)

end Sys2Proof.Machine
end

section
/-! PROOF. The driver commands (18 R417, R431-R434, R450; 09 R199-R203; 16 R376, R387, R393; 17 R400; O53). -/

namespace Sys2Proof.Machine

/-! ### Stores of agents of the package change memory, the seal's requests and the agenda only -/

def StoresOnly (s t : State) : Prop := t = { s with mem := t.mem, dom := t.dom, agenda := t.agenda }

namespace StoresOnly
variable {s t u : State}

theorem refl (s : State) : StoresOnly s s := rfl
theorem trans (h : StoresOnly s t) (h' : StoresOnly t u) : StoresOnly s u := by
  unfold StoresOnly at *
  rw [h', h]

theorem requestSeal (s : State) : StoresOnly s s.requestSeal := by
  obtain ⟨st, again, h, -⟩ := s.requestSeal_asks
  rw [h]
  rfl
theorem logOld (s : State) (a : Nat) (ri : W32) : StoresOnly s (s.logOld a ri) := by
  unfold State.logOld
  split
  · exact refl s
  · extract_lets k sram at_ u _ m m' t
    have ht : StoresOnly s t := rfl
    split
    · exact ht.trans (requestSeal t)
    · exact ht
theorem storeLine (s : State) (ctx : BitVec 16) (pa : Nat) (l : List Byte) (lg : Bool) : StoresOnly s (s.storeLine ctx pa l lg) := by
  unfold State.storeLine
  extract_lets line bad t _ m u
  split
  · exact refl s
  · split
    · unfold StoresOnly
      rfl
    · have ht : StoresOnly s t := by
        unfold t
        split
        · exact logOld ..
        · exact refl s
      have hu : StoresOnly s u := ht.trans (rfl : StoresOnly t u)
      split
      · exact hu.trans (rfl : StoresOnly u (u.soon _))
      · exact hu
theorem storeVa (s : State) (c : Ctx) (va : Nat) (l : List Byte) (lg : Bool) : StoresOnly s (s.storeVa c va l lg) := by
  refine List.foldlRecOn (motive := fun y : State × List Byte => StoresOnly s y.1) (vaPieces va l.length) _ (.refl s) fun y hy p _ => ?_
  dsimp only
  split
  · exact hy.trans (storeLine ..)
  · exact hy

end StoresOnly

/-! ### A command that is taken runs (18 R413, R414, R417) -/

/-- The state once a command's frame has been logged, acknowledged and told to the leader. -/
def State.heard (s : State) (op : Byte) (f : CmdFrame) : State :=
  let t := (({ s with host := { s.host with seq := s.host.seq + 1 } } : State).logInputAt s.dom.ri f.ctx (.command op f) 64).answer 0x84 0 f.seq f.ctx f.tag
  t.fwEvent t.leader 0

section
variable {s : State} {op : Byte} {f : CmdFrame} (h : s.takes op f = true)
include h

theorem hostCommand_heard : hostCommand op f s = .next ((s.heard op f).runCommand op f) := by
  simp only [State.takes, Bool.and_eq_true, beq_iff_eq, Bool.not_eq_true', List.isEmpty_iff] at h
  obtain ⟨⟨⟨⟨⟨⟨hboot, hseq⟩, hfull⟩, hbar⟩, hq⟩, -⟩, -⟩ := h
  unfold hostCommand State.request
  rw [hboot, hfull, if_neg (by simp), if_neg (by simp [hseq]), if_neg (by simp), if_neg (by simp)]
  extract_lets ri _ t u v
  have hri : ri = s.dom.ri := if_neg (by simp [hbar])
  have ht := Logged.logInputAt t ri f.ctx (.command op f) 64
  have hv : v = s.heard op f := by
    unfold v u t
    rw [hri]
    rfl
  have hbv : v.barrier = false := by
    show State.barrier (u.fwEvent u.leader 0) = false
    rw [State.barrier, State.fwEvent_dom]
    exact ht.barrier.trans hbar
  have hqv : v.host.pendq = [] := by
    show (u.fwEvent u.leader 0).host.pendq = []
    rw [State.fwEvent_host]
    exact (congrArg HostIf.pendq ht.host).trans hq
  rw [hbv, hqv, hv]
  rfl

/-- Where the leader has the lease and no earlier write of the host waits, the command is performed. -/
theorem hostCommand_runs {k : State → State} (hk : ∀ u : State, ¬(!u.flushHub.1 || !u.flushHub.2.led) = true → u.runCommand op f = k u.flushHub.2) :
    hostCommand op f s = .next (k (s.accepted op f).2) := by
  have hgo := h
  simp only [State.takes, Bool.and_eq_true] at hgo
  obtain ⟨⟨-, hflush⟩, hled⟩ := hgo
  rw [hostCommand_heard h, hk]
  · rfl
  · show ¬(!(s.accepted op f).1 || !(s.accepted op f).2.led) = true
    rw [hflush, hled]
    exact Bool.false_ne_true

end

/-- The checks that every command of a context passes. -/
theorem State.command_passes {s : State} {f : CmdFrame} {fields : List (List (Nat × Nat))} {range : Ctx → Bool} {k : Ctx → State → State} {c : Ctx} (hok : s.pkg.cfgOk = true)
    (hc : s.ctxOf f.ctx = some c) (hf : cmdOnly f fields = true) (hr : range c = true) : s.command f fields range k = k c s := by
  rw [State.command, if_neg (by simp [hok]), hc]
  exact if_pos (by rw [hf, hr]; rfl)

section
variable {s : State} {f : CmdFrame} {c : Ctx} (hok : s.pkg.cfgOk = true)
include hok

theorem State.ctxCreate_answers (hargs : createArgsOk f = true) (href : s.createRefusal (s.ctxOfArgs f) = none) : ∃ v : State,
    s.ctxCreate f = v.reply f 0 [(s.ctxOfArgs f).id.toNat] ∧ v.pkg.ctxs = s.pkg.ctxs ++ [s.ctxOfArgs f] := by
  refine ⟨s.addCtx (s.ctxOfArgs f), ?_, ?_⟩
  · rw [State.ctxCreate, if_neg (by simp [hok]), if_neg (by simp [hargs])]
    extract_lets c
    rw [show s.createRefusal c = none from href]
  · have h : StoresOnly _ (s.addCtx (s.ctxOfArgs f)) := .storeVa ..
    rw [h]

variable (hc : s.ctxOf f.ctx = some c)
include hc

theorem State.ctxDestroy_ends (hf : cmdOnly f [] = true) : s.ctxDestroy f = (s.tearDown f c true).reap := State.command_passes hok hc hf rfl

/-- The object that a code load reads. -/
def State.codeSource (s : State) (c : Ctx) (f : CmdFrame) : Option (List Byte) :=
  (s.regionBytes c (BitVec.ofNat 64 (cmdArg f 1)) (cmdArg f 2) 256).bind fun b =>
    s.regionBytes c (BitVec.ofNat 64 (cmdArg f 1)) (cmdArg f 2) (max 256 (ofBytes ((b.drop 8).take 8)))

omit hok hc in
theorem noteRegion_noted (s : State) (c : Ctx) (h : W64) (off n : Nat) : Noted s (s.noteRegion c h off n) := by
  unfold State.noteRegion
  split
  · exact .refl s
  · exact noteLines_noted ..

omit hok hc in
theorem Noted.pkg {s u : State} (h : Noted s u) : u.pkg = { s.pkg with corrected := u.pkg.corrected } := by
  unfold Noted at h
  rw [h]

theorem State.codeLoad_answers {l : List Byte} (hf : cmdOnly f [[(63, 0)], [(43, 0)]] = true) (hsrc : s.codeSource c f = some l) (href : Obj.refusal l.toArray false = none)
    (hfree : s.pkg.freeCode.1 ≤ 65535) : ∃ (v : State) (e : CodeEnt), s.codeLoad f = v.reply f 0 [(codeHandle s.pkg.boots e.index e.gen.toNat c.id.toNat).toNat] ∧
      e ∈ v.pkg.codes ∧ e.live = true ∧ e.owner = c.id ∧ e.index = s.pkg.freeCode.1 := by
  have hpkg := (noteRegion_noted s c (BitVec.ofNat 64 (cmdArg f 1)) (cmdArg f 2) l.length).pkg
  rw [State.codeLoad, State.command_passes hok hc hf rfl]
  extract_lets h src
  rw [show src = some l from hsrc]
  dsimp only
  rw [href]
  dsimp only
  generalize s.noteRegion c h (cmdArg f 2) l.length = u at hpkg ⊢
  have hboots : u.pkg.boots = s.pkg.boots := by rw [hpkg]
  have hcode : u.pkg.freeCode = s.pkg.freeCode := by
    rw [hpkg]
    rfl
  rw [hcode, hboots, if_neg (by omega)]
  exact ⟨_, { index := s.pkg.freeCode.1, gen := s.pkg.freeCode.2, owner := c.id, live := true, obj := Obj.code l.toArray s.pkg.freeCode.1 }, rfl, List.mem_cons_self, rfl, rfl, rfl⟩

theorem State.codeUnload_answers {o : CodeObj} (hf : cmdOnly f [[(63, 0)]] = true) (ho : s.pkg.codeOf (BitVec.ofNat 64 (cmdArg f 1)) c.id = some o) : ∃ v : State,
    s.codeUnload f = v.reply f 0 [] ∧ ∀ k ∈ v.pkg.codes, k.index = bits (BitVec.ofNat 64 (cmdArg f 1)).toNat 15 0 → k.live = false := by
  rw [State.codeUnload, State.command_passes hok hc hf rfl]
  extract_lets h
  rw [show s.pkg.codeOf h c.id = some o from ho]
  refine ⟨_, rfl, fun k hk hi => ?_⟩
  obtain ⟨x, -, rfl⟩ := List.mem_map.1 hk
  split at hi
  next hx => rw [if_pos hx]
  next hx => exact absurd (beq_iff_eq.2 hi) hx

theorem State.regionSet_ends {img : List Byte} (hf : cmdOnly f [[(39, 0)], [(29, 0)]] = true) (h1 : 1 ≤ cmdArg f 1) (hlim : cmdArg f 1 < c.rtlim) (hal : cmdArg f 2 % 64 = 0)
    (hcap : 0x10000 ≤ cmdArg f 2) (hfit : cmdArg f 2 + 64 ≤ c.mboxLen) (himg : s.loadVa c (c.mbox + cmdArg f 2) 64 = some img) :
    s.regionSet f = (s.noteVa c (c.mbox + cmdArg f 2) 64).addAndTry f (.region c.id (cmdArg f 1) img) := by
  rw [State.regionSet, State.command_passes hok hc hf (by simp [h1, hlim, hal, hcap, hfit]), himg]

theorem State.invalidate_ends (hf : cmdOnly f [[(51, 0)], [(52, 0)]] = true) (hlo : 1 ≤ cmdArg f 2) (hhi : cmdArg f 2 ≤ 2 ^ 52) :
    s.invalidate f = s.addAndTry f (.invalidate c.id (cmdArg f 1) (cmdArg f 2) ((s.allBoxes.filter fun b => b.gang.ctx == c.id && b.inPhase).map (·.gang.gid))) :=
  State.command_passes hok hc hf (by rw [decide_eq_true hlo, decide_eq_true hhi]; rfl)

theorem State.routineSet_ends {l : List Byte} (hf : cmdOnly f [[(7, 0)], [(63, 0)], [(43, 0)]] = true) (h6 : 6 ≤ cmdArg f 1)
    (hl : s.regionBytes c (BitVec.ofNat 64 (cmdArg f 2)) (cmdArg f 3) 256 = some l) : s.routineSet f =
      (s.noteRegion c (BitVec.ofNat 64 (cmdArg f 2)) (cmdArg f 3) 256).addAndTry f (.routine (cmdArg f 1) ((List.range 32).map fun i => argWord l i) (List.range 64)) := by
  rw [State.routineSet, State.command_passes hok hc hf (decide_eq_true h6), hl]

theorem State.tableSet_ends {l : List Byte} {g : Nat} (hf : cmdOnly f [[(5, 0), (63, 32)], [(31, 0)], [(0, 0), (15, 8)], [(63, 0)], [(43, 0)]] = true)
    (hg : s.tableGroup c (BitVec.ofNat 6 (bits (cmdArg f 1) 5 0)) (bits (cmdArg f 1) 63 32) (cmdArg f 2) = some g)
    (hl : s.regionBytes c (BitVec.ofNat 64 (cmdArg f 4)) (cmdArg f 5) (32 * (bits (cmdArg f 3) 15 8 + 1)) = some l)
    (hraw : ∀ d ∈ (List.range (bits (cmdArg f 3) 15 8 + 1)).map fun i => ofBytes ((l.drop (32 * i)).take 32), bits d 145 0 = 0) : s.tableSet f =
      (s.noteRegion c (BitVec.ofNat 64 (cmdArg f 4)) (cmdArg f 5) (32 * (bits (cmdArg f 3) 15 8 + 1))).addAndTry f (.table g (bits (cmdArg f 3) 0 0 == 1)
        (((List.range (bits (cmdArg f 3) 15 8 + 1)).map fun i => ofBytes ((l.drop (32 * i)).take 32)).map descOf)) := by
  rw [State.tableSet, State.command_passes hok hc hf rfl]
  extract_lets n
  rw [hg]
  dsimp -zeta only
  rw [show s.regionBytes c _ _ (32 * n) = some l from hl]
  refine if_neg ?_
  rw [List.any_eq_true]
  rintro ⟨d, hd, hbad⟩
  exact bne_iff_ne.1 hbad (hraw d hd)

omit hok hc in
theorem State.queueOf_setQueue (s : State) (q r : BitVec 6) (g : Queue → Queue) : (s.setQueue q g).queueOf r = if r = q then g (s.queueOf q) else s.queueOf r :=
  rget_rset _ _ _ _ (by decide)

theorem State.queueSet_answers {d : Nat} (hd : d = cmdArg f 2 + cmdArg f 3 * 2 ^ 64) (hf : cmdOnly f [[(5, 0)], [(63, 0)], [(63, 0)]] = true) (hok' : queueDescOk d = true)
    (hctx : bits d 63 48 = c.id.toNat) : ∃ v : State, s.queueSet f = v.reply f 0 [] ∧
      v.queueOf (BitVec.ofNat 6 (cmdArg f 1)) = (s.queueOf (BitVec.ofNat 6 (cmdArg f 1))).configured d ∧
      (∀ q, q ≠ BitVec.ofNat 6 (cmdArg f 1) → v.queueOf q = s.queueOf q) ∧ v.core = s.core ∧ v.mem = s.mem := by
  subst hd
  refine ⟨s.setQueue (BitVec.ofNat 6 (cmdArg f 1)) fun q => q.configured _, ?_, (State.queueOf_setQueue ..).trans (if_pos rfl),
    fun q hq => (State.queueOf_setQueue ..).trans (if_neg hq), rfl, rfl⟩
  rw [State.queueSet]
  exact (State.command_passes hok hc hf hok').trans (if_neg (by rw [hctx]; exact fun h => h rfl))

omit hok hc in
/-- What a pre-emption request sets in a gang that executes and that it is of. -/
theorem State.askPreempt_gang {p : Gang → Bool} (hp : p s.gang = true) (hrun : s.gang.run.executing = true) (hard evict : Bool) :
    (hard = true → (s.askPreempt p hard evict).gang.req.hard = true) ∧ (hard = false → (s.askPreempt p hard evict).gang.req.soft = true) := by
  have hg : (s.askPreempt p hard evict).gang =
      { s.gang with req := { s.gang.req with hard := s.gang.req.hard || hard, soft := s.gang.req.soft || !hard, evict := s.gang.req.evict || evict } } :=
    if_pos (by rw [hp, hrun]; rfl)
  rw [hg]
  exact ⟨fun h => by simp [h], fun h => by simp [h]⟩

theorem State.preempt_answers (hf : cmdOnly f [[(5, 0), (8, 8)], [(1, 0)]] = true) (hw : bits (cmdArg f 1) 8 8 = 1) (hq : bits (cmdArg f 1) 5 0 = 0) : ∃ v : State,
    s.preempt f = v.reply f 0 [] ∧
      (s.gang.ctx = c.id → s.gang.run.executing = true → (bits (cmdArg f 2) 0 0 = 1 → v.gang.req.hard = true) ∧ (bits (cmdArg f 2) 0 0 = 0 → v.gang.req.soft = true)) ∧
      v.core = s.core ∧ v.mem = s.mem := by
  rw [State.preempt, State.command_passes hok hc hf (by simp [hq]), if_neg (by simp [hw])]
  refine ⟨_, rfl, fun hctx hrun => ?_, rfl, rfl⟩
  obtain ⟨hhard, hsoft⟩ := State.askPreempt_gang (s := s) (p := fun g => g.ctx == c.id && (bits (cmdArg f 1) 8 8 == 1 || g.queue == BitVec.ofNat 6 (bits (cmdArg f 1) 5 0)))
    (by simp [hctx, hw]) hrun (bits (cmdArg f 2) 0 0 == 1) (bits (cmdArg f 2) 1 1 == 1)
  exact ⟨fun h => hhard (beq_iff_eq.2 h), fun h => hsoft (by rw [h]; rfl)⟩

/-- The records of software stops of a context. -/
def State.stopRecs (s : State) (c : Ctx) : List FaultRec := (s.pkg.faults.toList.flatMap id).filter fun r => r.ctx == c.id && (r.cls == 17 || r.cls == 18) && !r.fwc

theorem State.resume_ends {r : FaultRec} {b : GangBox} (hf : cmdOnly f [[(31, 0)]] = true) (hr : (s.stopRecs c).find? (fun r => r.seq.toNat == cmdArg f 1) = some r)
    (hb : s.allBoxes.find? (fun b => b.gang.run == .stopped && b.gang.ctx == c.id && b.gang.gidx == r.gidx && b.gang.dispNum == r.dispNum) = some b)
    (hres : r.resumable = true) (hflt : c.faulted = false) : s.resume f = s.addAndTry f (.resume b.gang.gid
      (((s.stopRecs c).filter fun x => x.gidx == r.gidx && x.dispNum == r.dispNum && x.tstamp == r.tstamp).map (·.rank.toNat))) := by
  rw [State.resume, State.command_passes hok hc hf rfl]
  extract_lets recs
  rw [show recs.find? (fun r => r.seq.toNat == cmdArg f 1) = some r from hr]
  dsimp -zeta only
  rw [hb]
  exact if_neg (by rw [hres, hflt]; exact Bool.false_ne_true)

theorem State.freq_answers (hf : cmdOnly f [[(1, 0)]] = true) (hfull : s.pkg.clk.full = true) (hperm : s.pkg.cfg.permits (cmdArg f 1) = true) :
    ∃ v : State, s.freq f = v.reply f 0 [] ∧ v.pkg.clk.pending = some (BitVec.ofNat 2 (cmdArg f 1)) ∧ v.core = s.core ∧ v.mem = s.mem := by
  refine ⟨s.setClk { s.pkg.clk with pending := some (BitVec.ofNat 2 (cmdArg f 1)) }, ?_, rfl, rfl, rfl⟩
  rw [State.freq, State.command_passes hok hc hf rfl, if_neg (by simp [hfull]), if_neg (by simp [hperm]), State.requestStep, if_pos hfull]

/-- The record of a connection that a context sets up. -/
theorem State.peerSet_answers (hf : cmdOnly f [[(15, 0), (18, 16)], [(47, 0)], [(63, 0)], [(63, 0)], [(26, 0), (58, 32)]] = true) (hdoor : c.syncOk (bits (cmdArg f 5) 26 0) = true)
    (hprod : c.syncOk (bits (cmdArg f 5) 58 32) = true) (hrings : s.ringsOk c (cmdArg f 3) (cmdArg f 4) = true) (hown : ∀ p ∈ s.pkg.peers, p.ctx = c.id) : ∃ (v : State) (p : Peer),
      s.peerSet f = v.reply f 0 [] ∧ p ∈ v.pkg.peers ∧ p.id = BitVec.ofNat 16 (bits (cmdArg f 1) 15 0) ∧ p.ctx = c.id ∧ p.send = BitVec.ofNat 64 (cmdArg f 3) ∧
      p.recv = BitVec.ofNat 64 (cmdArg f 4) ∧ p.lost = false ∧ v.core = s.core ∧ v.mem = s.mem := by
  rw [State.peerSet, State.command_passes hok hc hf (by rw [hdoor, hprod]; rfl)]
  extract_lets q old base p u
  obtain ⟨hcore, -, -, hmem, -⟩ := (noteLines_noted (s.regionLines c (cmdArg f 3) ++ s.regionLines c (cmdArg f 4)).eraseDups s).keeps
  have hold : ∀ x, old = some x → x.ctx = c.id ∧ x.id = q := fun x hx => ⟨hown x (List.mem_of_find?_eq_some hx), by simpa using List.find?_some hx⟩
  have hbase : base.ctx = c.id ∧ base.id = q := by
    unfold base
    cases h : old with
    | none => exact ⟨rfl, rfl⟩
    | some x => exact hold x h
  rw [hrings, if_neg ?_]
  · exact ⟨_, p, rfl, List.mem_append_right _ List.mem_cons_self, hbase.2, hbase.1, rfl, rfl, rfl, hcore, hmem⟩
  · intro hbad
    cases ho : old with
    | none =>
      rw [ho] at hbad
      exact Bool.false_ne_true hbad
    | some x =>
      rw [ho] at hbad
      exact bne_iff_ne.1 hbad (hold x ho).1

omit hok in
theorem State.configWrite_answers {l : List Byte} (hf : cmdOnly f [[(63, 0)], [(43, 0)]] = true)
    (hl : s.regionBytes c (BitVec.ofNat 64 (cmdArg f 1)) (cmdArg f 2) Config.cfgLength.toNat = some l) : ∃ v : State,
      s.configWrite f = v.reply f 0 [] ∧ v.pkg.flash = some l ∧ v.pkg.cfg = s.pkg.cfg ∧ v.core = s.core ∧ v.mem = s.mem := by
  have hnote := noteRegion_noted s c (BitVec.ofNat 64 (cmdArg f 1)) (cmdArg f 2) Config.cfgLength.toNat
  obtain ⟨hcore, -, -, hmem, -⟩ := hnote.keeps
  rw [State.configWrite, hc]
  dsimp only
  rw [if_neg (by simp [hf]), hl]
  exact ⟨_, rfl, rfl, (congrArg Pkg.cfg hnote.pkg :), hcore, hmem⟩

end

/-! ### ATTEST (18 R432, R433) -/

/-- What a note of lines in error does not change of the body that is signed. -/
theorem Noted.attestBody {s u : State} (h : Noted s u) (f : CmdFrame) : u.attestBody f = s.attestBody f := by
  unfold Noted at h
  rw [h]
  rfl

/-- The answer to ATTEST. -/
def State.attestation (s : State) (f : CmdFrame) : Out :=
  .frame 0x83 0 f.seq f.ctx f.tag (s.attestBody f ++ Config.signEd edKey (s.attestBody f) ++ Config.signMl mlKey (s.attestBody f))

theorem State.attest_none {s : State} {f : CmdFrame} (hc : s.ctxOf f.ctx = none) : s.attest f = s.sendOut (s.attestation f) := by
  rw [State.attest, hc]
  rfl
theorem State.attest_some {s : State} {f : CmdFrame} {c : Ctx} (hc : s.ctxOf f.ctx = some c) : s.attest f = (s.noteVa c (c.mbox + 0x10000) 8).sendOut (s.attestation f) := by
  have hnote : Noted s (s.noteVa c (c.mbox + 0x10000) 8) := noteLines_noted ..
  rw [State.attest, hc]
  dsimp only
  rw [hnote.attestBody]
  rfl

/-- Settles O53: a command that is taken runs in the accepted state, and each operation by its own lemma. -/
theorem commandsComplete : Obligations.CommandsComplete := by
  intro s f
  extract_lets run
  refine ⟨fun h hok ha hr => ?create, fun h c hok hc hf => ?destroy, fun h c l hok hc hf hl hr hfree => ?load, fun h c o hok hc hf ho => ?unload,
    fun h c img hok hc hf h1 hlim hal hcap hfit himg => ?region, fun h c hok hc hf hlo hhi => ?inval, fun h c => ?queue, fun h c hok hc hf hw hq => ?preempt,
    fun h c r b hok hc hf => ?resume, fun h c l hok hc hf h6 hl => ?routine, fun h c g l hok hc hf hg hl => ?table, fun h => ?attest, fun h c hok hc hf hfull hperm => ?freq,
    fun h c l hc hf hl => ?config, fun h c hok hc hf hdoor hprod hrings hown => ?peer⟩
  case create =>
    obtain ⟨v, hv, hctxs⟩ := State.ctxCreate_answers hok ha hr
    exact ⟨v, (hostCommand_runs h (k := fun u => u.ctxCreate f) fun _ hn => if_neg hn).trans (by rw [hv]; rfl), hctxs⟩
  case destroy => exact (hostCommand_runs h (k := fun u => u.ctxDestroy f) fun _ hn => if_neg hn).trans (congrArg Host.Outcome.next (State.ctxDestroy_ends hok hc hf))
  case load =>
    obtain ⟨v, e, hv, he, hlive, hown, hix⟩ := State.codeLoad_answers hok hc hf hl hr hfree
    exact ⟨v, e, (hostCommand_runs h (k := fun u => u.codeLoad f) fun _ hn => if_neg hn).trans (congrArg Host.Outcome.next hv), he, hlive, hown, hix⟩
  case unload =>
    obtain ⟨v, hv, hdead⟩ := State.codeUnload_answers hok hc hf ho
    exact ⟨v, (hostCommand_runs h (k := fun u => u.codeUnload f) fun _ hn => if_neg hn).trans (congrArg Host.Outcome.next hv), hdead⟩
  case region =>
    exact (hostCommand_runs h (k := fun u => u.regionSet f) fun _ hn => if_neg hn).trans (congrArg Host.Outcome.next (State.regionSet_ends hok hc hf h1 hlim hal hcap hfit himg))
  case inval => exact (hostCommand_runs h (k := fun u => u.invalidate f) fun _ hn => if_neg hn).trans (congrArg Host.Outcome.next (State.invalidate_ends hok hc hf hlo hhi))
  case queue =>
    intro hok hc hf hd hctx
    obtain ⟨v, hv, hrest⟩ := State.queueSet_answers hok hc rfl hf hd hctx
    exact ⟨v, (hostCommand_runs h (k := fun u => u.queueSet f) fun _ hn => if_neg hn).trans (congrArg Host.Outcome.next hv), hrest⟩
  case preempt =>
    obtain ⟨v, hv, hrest⟩ := State.preempt_answers hok hc hf hw hq
    exact ⟨v, (hostCommand_runs h (k := fun u => u.preempt f) fun _ hn => if_neg hn).trans (congrArg Host.Outcome.next hv), hrest⟩
  case resume =>
    intro recs hr hb hres hflt
    exact (hostCommand_runs h (k := fun u => u.resume f) fun _ hn => if_neg hn).trans (congrArg Host.Outcome.next (State.resume_ends hok hc hf hr hb hres hflt))
  case routine =>
    exact (hostCommand_runs h (k := fun u => u.routineSet f) fun _ hn => if_neg hn).trans (congrArg Host.Outcome.next (State.routineSet_ends hok hc hf h6 hl))
  case table =>
    intro raw hraw
    exact (hostCommand_runs h (k := fun u => u.tableSet f) fun _ hn => if_neg hn).trans (congrArg Host.Outcome.next (State.tableSet_ends hok hc hf hg hl hraw))
  case attest =>
    have hrun := hostCommand_runs h (k := fun u => u.attest f) fun _ hn => if_neg hn
    exact ⟨fun hc => hrun.trans (congrArg Host.Outcome.next (State.attest_none hc)), fun c hc => hrun.trans (congrArg Host.Outcome.next (State.attest_some hc))⟩
  case freq =>
    obtain ⟨v, hv, hrest⟩ := State.freq_answers hok hc hf hfull hperm
    exact ⟨v, (hostCommand_runs h (k := fun u => u.freq f) fun _ hn => if_neg hn).trans (congrArg Host.Outcome.next hv), hrest⟩
  case config =>
    obtain ⟨v, hv, hrest⟩ := State.configWrite_answers hc hf hl
    exact ⟨v, (hostCommand_runs h (k := fun u => u.configWrite f) fun _ hn => if_neg hn).trans (congrArg Host.Outcome.next hv), hrest⟩
  case peer =>
    obtain ⟨v, p, hv, hrest⟩ := State.peerSet_answers hok hc hf hdoor hprod hrings hown
    exact ⟨v, p, (hostCommand_runs h (k := fun u => u.peerSet f) fun _ hn => if_neg hn).trans (congrArg Host.Outcome.next hv), hrest⟩

end Sys2Proof.Machine
end

section
/-! PROOF. The dispatcher: records, launches, graphs, placement, starts and ends, and the pending changes (16 R376-R392; 02 R34-R40; 08 R183; 13 R321; O51). -/

namespace Sys2Proof.Machine

/-! ### Queues, launches and reports -/

/-- A report leaves as a frame or waits for the seal. -/
theorem State.report_rest (s : State) (q : BitVec 6) (ctx : BitVec 16) (tag : W32) (st : Nat) : (s.report q ctx tag st).disp = s.disp ∧ (s.report q ctx tag st).core = s.core ∧
    (s.report q ctx tag st).mem = s.mem := by
  unfold State.report State.emit
  dsimp only
  split
  · split
    · exact ⟨rfl, rfl, rfl⟩
    · exact ⟨rfl, rfl, rfl⟩
  · exact ⟨rfl, rfl, rfl⟩

theorem State.signalVar_rest (s : State) (ctx : BitVec 16) (x : Nat) (preds : List Nat) : (s.signalVar ctx x preds).disp = s.disp := rfl

theorem State.launchOf_updLaunch {s : State} {id : Nat} {l : Launch} (h : s.launchOf id = some l) {f : Launch → Launch} (hf : ∀ l, (f l).id = l.id) :
    (s.updLaunch id f).launchOf id = some (f l) := by
  have := find?_updateAll (p := fun x : Launch => x.id == id) (f := f) (fun x hx => by rw [hf]; exact hx) s.disp.launches
  rw [State.launchOf, State.updLaunch, this]
  show Option.map f (s.launchOf id) = _
  rw [h]
  rfl

theorem Noted.disp {s u : State} (h : Noted s u) : u.disp = s.disp := by
  unfold Noted at h
  rw [h]
theorem StoresOnly.disp {s u : State} (h : StoresOnly s u) : u.disp = s.disp := by
  unfold StoresOnly at h
  rw [h]
theorem StoresOnly.core {s u : State} (h : StoresOnly s u) : u.core = s.core := by
  unfold StoresOnly at h
  rw [h]

theorem State.queueOf_push (s : State) (q : BitVec 6) (r : LRec) : ((s.pushFifo q r).queueOf q).fifo = (s.queueOf q).fifo ++ [r] := by
  rw [State.pushFifo, State.queueOf_setQueue, if_pos rfl]
theorem State.queueOf_pop {s : State} {q : BitVec 6} {r : LRec} {l : List LRec} (h : (s.queueOf q).fifo = r :: l) : ((s.popFifo q).queueOf q).fifo = l := by
  rw [State.popFifo, State.queueOf_setQueue, if_pos rfl, h]
  rfl
theorem State.queueOf_disp {s t : State} (h : t.disp = s.disp) (q : BitVec 6) : t.queueOf q = s.queueOf q := by rw [State.queueOf, State.queueOf, h]

/-! ### Records (16 R377-R379) -/

/-- The state once a ring's record has joined its queue and HEAD is stored. -/
theorem State.takeRing_spec {s u : State} (h : Noted s u) (q : BitVec 6) (r : LRec) (c : Ctx) (va : Nat) (l : List Byte) :
    (((u.pushFifo q r).storeVa c va l true).queueOf q).fifo = (s.queueOf q).fifo ++ [r] ∧ SameRegs s.core ((u.pushFifo q r).storeVa c va l true).core := by
  have hs : StoresOnly (u.pushFifo q r) ((u.pushFifo q r).storeVa c va l true) := .storeVa ..
  have hcore : (u.pushFifo q r).core = s.core := h.keeps.1
  rw [State.queueOf_disp hs.disp, State.queueOf_push, State.queueOf_disp h.disp, hs.core, hcore]
  exact ⟨rfl, sameRegs_refl _⟩

section
variable {s : State} {q : BitVec 6}

theorem exec_hostRingTake {c : Ctx} {h b : List Byte} (hc : s.ctxOf (s.queueOf q).ctx = some c) (hh : s.loadVa c (c.mbox + (s.queueOf q).ringOff.toNat) 16 = some h)
    (hb : s.loadVa c (c.mbox + (s.queueOf q).ringOff.toNat + 64 + 64 * (ofBytes (h.drop 8) % 2 ^ (s.queueOf q).log2n.toNat)) 64 = some b) (hv : (s.queueOf q).v = true)
    (hring : (s.queueOf q).ringOff ≠ 0xFFFFFFFF) (hlen : (s.queueOf q).fifo.length < 64) (hne : ofBytes (h.drop 8) < ofBytes (h.take 8)) (hbar : s.barrier = false)
    (hlive : s.ctxLive (s.queueOf q).ctx = true) (hin : ∀ x ∈ s.disp.intake, BitVec.ofNat 6 (bits (ofBytes x.bytes) 245 240) ≠ q)
    (hroom : ∀ a, s.ctxPa c (c.mbox + (s.queueOf q).ringOff.toNat + 8) = some a → s.roomFor [a / 64 * 64] s.dom.ri = true ∧ s.mem.lineWaits (a / 64 * 64) = false) :
    ∃ (t : State) (r : LRec), exec (.hostRingTake q) s = .next t ∧ (t.queueOf q).fifo = (s.queueOf q).fifo ++ [r] ∧ r.bytes = b ∧ r.queue = q ∧
      r.ctx = (s.queueOf q).ctx ∧ SameRegs s.core t.core := by
  have hall : (s.disp.intake.all fun r => BitVec.ofNat 6 (bits (ofBytes r.bytes) 245 240) != q) = true := List.all_eq_true.2 fun x hx => bne_iff_ne.2 (hin x hx)
  have hring' : ((s.queueOf q).ringOff != 0xFFFFFFFF) = true := bne_iff_ne.2 hring
  show ∃ (t : State) (r : LRec), execHostRingTake q s = .next t ∧ _
  unfold execHostRingTake
  extract_lets u
  rw [show s.ctxOf u.ctx = some c from hc]
  dsimp -zeta only
  extract_lets at_ full
  rw [show s.loadVa c at_ 16 = some h from hh]
  dsimp -zeta only
  extract_lets tail head
  rw [show s.loadVa c (at_ + 64 + 64 * (head % 2 ^ u.log2n.toNat)) 64 = some b from hb]
  have hfull : full = false := by
    unfold full
    split
    next a ha =>
      obtain ⟨h1, h2⟩ := hroom a ha
      rw [h1, h2]
      rfl
    next => rfl
  have hok : (!full && u.v && u.ringOff != 0xFFFFFFFF && decide (u.fifo.length < 64) && decide (head < tail) && !s.barrier && s.ctxLive u.ctx
      && s.disp.intake.all fun r => BitVec.ofNat 6 (bits (ofBytes r.bytes) 245 240) != q) = true := by
    rw [hfull, show u.v = true from hv, show (u.ringOff != 0xFFFFFFFF) = true from hring', decide_eq_true (show u.fifo.length < 64 from hlen),
      decide_eq_true (show head < tail from hne), hbar, show s.ctxLive u.ctx = true from hlive, hall]
    rfl
  have hnote : Noted s ((s.noteVa c at_ 16).noteVa c (at_ + 64 + 64 * (head % 2 ^ u.log2n.toNat)) 64) := Noted.trans (noteLines_noted ..) (noteLines_noted ..)
  obtain ⟨hfifo, hregs⟩ := State.takeRing_spec hnote q { bytes := b, queue := q, ctx := u.ctx, from_ := none, preds := [], node := none } c (at_ + 8) (toBytes 8 (head + 1))
  exact ⟨_, _, event_of_true hok .., hfifo, rfl, rfl, rfl, hregs⟩

theorem exec_intakeToFifo {r : LRec} (hr : s.disp.intake.find? (fun r => r.target == q) = some r) (hv : (s.queueOf q).v = true) (hctx : (s.queueOf q).ctx = r.ctx)
    (hlen : (s.queueOf q).fifo.length < 64) : ∃ t : State, exec (.intakeToFifo q) s = .next t ∧ (t.queueOf q).fifo = (s.queueOf q).fifo ++ [{ r with queue := q }] ∧
      t.disp.intake = s.disp.intake.erase r ∧ t.core = s.core ∧ t.mem = s.mem := by
  show ∃ t : State, execIntakeToFifo q s = .next t ∧ _
  unfold execIntakeToFifo
  rw [hr]
  dsimp -zeta only
  extract_lets u rest out
  rw [if_neg (by simp [show u.v = true from hv, show u.ctx = r.ctx from hctx]), event_of_true (decide_eq_true (show u.fifo.length < 64 from hlen))]
  exact ⟨_, rfl, State.queueOf_push .., rfl, rfl, rfl⟩

theorem exec_intakeToFifo_refused {r : LRec} (hr : s.disp.intake.find? (fun r => r.target == q) = some r) (h : (s.queueOf q).v = false ∨ (s.queueOf q).ctx ≠ r.ctx) :
    exec (.intakeToFifo q) s = .next (({ s with disp := { s.disp with intake := s.disp.intake.erase r } } : State).report q r.ctx r.tag 7) := by
  show execIntakeToFifo q s = _
  unfold execIntakeToFifo
  rw [hr]
  exact if_pos (by simpa using h)

/-! ### Launches (16 R381-R383) -/

theorem noteRecord_noted (s : State) (r : LRec) (c : Ctx) : Noted s (s.noteRecord r c) := by
  unfold State.noteRecord
  extract_lets n
  split
  · exact .refl s
  next o _ =>
    extract_lets argb args
    refine List.foldlRecOn (motive := Noted s) _ _ (noteLines_noted ..) fun t ht k _ => ?_
    extract_lets sel h off
    split
    · exact ht
    · exact ht.trans (noteRegion_noted ..)

section
variable {r : LRec} {l : List LRec} {c : Ctx} (hq : (s.queueOf q).fifo = r :: l) (hc : s.ctxOf r.ctx = some c) (hflt : c.faulted = false)
include hq hc hflt

section
variable (hg : r.isGraph = false) (hfree : s.headFree q = true)
include hg hfree

theorem exec_launchCheck_accepted {o : CodeObj} {a : List Byte} {sc : List (Nat × Sched)} (hres : s.checkRecord r c = .ok (o, a, sc)) : ∃ (t : State) (x : Launch),
    exec (.launchCheck q) s = .next t ∧ (t.queueOf q).fifo = l ∧ t.disp.launches = s.disp.launches ++ [x] ∧ x.id = s.disp.nextId ∧ x.queue = q ∧ x.ctx = r.ctx ∧
    x.tag = r.tag ∧ x.code = o ∧ x.args = a ∧ x.nextDisp = 0 := by
  have hnote := noteRecord_noted s r c
  show ∃ (t : State) (x : Launch), execLaunchCheck q s = .next t ∧ _
  unfold execLaunchCheck
  rw [hq]
  dsimp -zeta only
  rw [hc]
  refine ⟨_, s.newLaunch q r o a sc, event_of_true (by rw [hflt, hg, hfree]; rfl) .., ?_⟩
  have hfifo : (((s.noteRecord r c).popFifo q).queueOf q).fifo = l := State.queueOf_pop (by rw [State.queueOf_disp hnote.disp]; exact hq)
  have hjoin : (s.noteRecord r c).disp.launches ++ [s.newLaunch q r o a sc] = s.disp.launches ++ [s.newLaunch q r o a sc] := by rw [hnote.disp]
  rw [hres]
  exact ⟨hfifo, hjoin, rfl, rfl, rfl, rfl, rfl, rfl, rfl⟩

theorem exec_launchCheck_refused {st : Nat} (hres : s.checkRecord r c = .error st) : ∃ u : State, exec (.launchCheck q) s = .next (u.report q r.ctx r.tag st) ∧
    (u.queueOf q).fifo = l ∧ u.disp.launches = s.disp.launches ∧ u.core = s.core ∧ u.mem = s.mem := by
  have hnote : Noted s (if decide (6 ≤ st) then s.noteRecord r c else s) := by
    split
    · exact noteRecord_noted s r c
    · exact .refl s
  show ∃ u : State, execLaunchCheck q s = _ ∧ _
  unfold execLaunchCheck
  rw [hq]
  dsimp -zeta only
  rw [hc]
  refine ⟨(if decide (6 ≤ st) then s.noteRecord r c else s).popFifo q, (event_of_true (by rw [hflt, hg, hfree]; rfl) ..).trans ?_, ?_, ?_, hnote.keeps.1, hnote.keeps.2.2.2.1⟩
  · rw [hres]
  · exact State.queueOf_pop (by rw [State.queueOf_disp hnote.disp]; exact hq)
  · exact (congrArg Disp.launches hnote.disp :)

end

end

end

/-! ### Graph replays (16 R391, R392) -/

theorem noteGraph_noted (s : State) (c : Ctx) (va : Nat) : Noted s (s.noteGraph c va) := by
  unfold State.noteGraph
  split
  · exact .refl s
  · exact noteLines_noted ..

/-- The replay that a graph packet begins, before its first nodes are released. -/
def newGraph (id : Nat) (q : BitVec 6) (r : LRec) (ns : List (List Byte × List Nat)) : Graph :=
  { id := id, queue := q, ctx := r.ctx, tag := r.tag, doneEn := bits r.n 191 191 == 1, doneVar := bits r.n 410 384, node := r.node, nodes := ns,
    released := [], ended := [], preds := [] }

/-- The nodes that no node names as a successor. -/
def firstNodes (ns : List (List Byte × List Nat)) : List Nat :=
  (List.range ns.length).filter fun i => !([] : List Nat).contains i && (ns.zipIdx).all fun x => !x.1.2.contains i || ([] : List Nat).contains x.2

theorem mem_firstNodes (ns : List (List Byte × List Nat)) (i : Nat) : i ∈ firstNodes ns ↔ i < ns.length ∧ ∀ x ∈ ns, i ∉ x.2 := by
  unfold firstNodes
  rw [List.mem_filter, List.mem_range]
  refine and_congr_right fun _ => ?_
  simp only [List.contains_eq_mem, List.not_mem_nil, decide_false, Bool.not_false, Bool.or_false, Bool.true_and, List.all_eq_true, Bool.not_eq_true', decide_eq_false_iff_not]
  constructor
  · intro h x hx
    obtain ⟨k, hk, rfl⟩ := List.getElem_of_mem hx
    exact h (ns[k], k) (List.mk_mem_zipIdx_iff_getElem?.2 (List.getElem?_eq_getElem hk))
  · intro h x hx
    exact h x.1 (List.fst_mem_of_mem_zipIdx hx)

/-- The record of a released node. -/
def nodeRec (g : Graph) (i : Nat) : LRec :=
  { bytes := (nth g.nodes i ([], [])).1, queue := g.queue, ctx := g.ctx, from_ := none,
    preds := ((g.nodes.zipIdx).filter fun x => x.1.2.contains i).flatMap fun x => (g.preds.filter (·.1 == x.2)).flatMap (·.2), node := some (g.id, i) }

/-- The first release of a replay that has just joined. -/
theorem State.releaseNodes_new {t : State} {q : BitVec 6} {r : LRec} {ns : List (List Byte × List Nat)} {id : Nat} (hnew : ∀ x ∈ t.disp.graphs, x.id ≠ id) (n : Nat) :
    ({ t with disp := { t.disp with graphs := t.disp.graphs ++ [newGraph id q r ns], nextId := n } } : State).releaseNodes id =
      { t with disp := { t.disp with graphs := t.disp.graphs ++ [{ newGraph id q r ns with released := firstNodes ns }], nextId := n,
                                     intake := t.disp.intake ++ (firstNodes ns).map (nodeRec (newGraph id q r ns)) } } := by
  have hself : ((newGraph id q r ns).id == id) = true := beq_iff_eq.2 rfl
  have hfind : (t.disp.graphs ++ [newGraph id q r ns]).find? (·.id == id) = some (newGraph id q r ns) := by
    rw [List.find?_append, List.find?_eq_none.2 (fun x hx => by simpa using hnew x hx), Option.none_or, List.find?_cons_of_pos (p := fun x : Graph => x.id == id) hself]
  have hupd : updateAll (fun x : Graph => x.id == id) (fun x => { x with released := x.released ++ firstNodes ns }) (t.disp.graphs ++ [newGraph id q r ns]) =
      t.disp.graphs ++ [{ newGraph id q r ns with released := firstNodes ns }] := by
    rw [updateAll, List.map_append, List.map_singleton, if_pos hself]
    refine congrArg (· ++ _) ((List.map_congr_left fun x hx => ?_).trans (List.map_id _))
    rw [if_neg (by simpa using hnew x hx)]
    rfl
  unfold State.releaseNodes
  rw [hfind]
  exact congrArg (fun gs => ({ t with disp := { t.disp with graphs := gs, nextId := n, intake := t.disp.intake ++ (firstNodes ns).map (nodeRec (newGraph id q r ns)) } } : State)) hupd

/-- The packet's fields pass R381. -/
def graphGood (r : LRec) (c : Ctx) : Prop := graphFieldBad r.n = false ∧ (bits r.n 191 191 = 1 → c.syncOk (bits r.n 410 384) = true)

/-- The status with which a graph packet is reported, or 0. -/
def State.graphStatus (s : State) (r : LRec) (c : Ctx) : Nat :=
  if graphFieldBad r.n || (bits r.n 191 191 == 1 && !c.syncOk (bits r.n 410 384)) then 2
  else match s.graphImage c (bits r.n 115 64) with
    | .error 3 => 3
    | .error _ => 6
    | .ok _ => if !(s.queueOf r.target).v || (s.queueOf r.target).ctx != r.ctx then 7 else if c.torn then 8 else 0

section
variable {s : State} {r : LRec} {c : Ctx}

theorem State.graphStatus_bad (h : ¬graphGood r c) : s.graphStatus r c = 2 := by
  refine if_pos ?_
  simp only [graphGood, not_and_or, Classical.not_imp, Bool.not_eq_false, Bool.not_eq_true] at h
  simpa using h

theorem State.graphStatus_good (h : graphGood r c) : s.graphStatus r c = match s.graphImage c (bits r.n 115 64) with
    | .error 3 => 3
    | .error _ => 6
    | .ok _ => if !(s.queueOf r.target).v || (s.queueOf r.target).ctx != r.ctx then 7 else if c.torn then 8 else 0 := by
  obtain ⟨hfields, hdone⟩ := h
  refine if_neg ?_
  rw [hfields, Bool.false_or, Bool.and_eq_true, beq_iff_eq, Bool.not_eq_true']
  rintro ⟨h1, h2⟩
  rw [hdone h1] at h2
  cases h2

section
variable {q : BitVec 6} {l : List LRec} (hq : (s.queueOf q).fifo = r :: l) (hc : s.ctxOf r.ctx = some c) (hflt : c.faulted = false) (hg : r.isGraph = true)
  (hfree : s.headFree q = true) (hroom : s.disp.graphs.length < 16) (hdone : s.hostWritesDone = true) (hpreds : r.preds.all s.mem.complete = true)
include hq hc hflt hg hfree hroom hdone hpreds

theorem exec_graphReplayStart_refused {st : Nat} (hst : s.graphStatus r c = st + 1) :
    exec (.graphReplayStart q) s = .next (((s.noteGraph c (bits r.n 115 64)).popFifo q).report q r.ctx r.tag (st + 1)) := by
  show execGraphReplayStart q s = _
  unfold execGraphReplayStart
  rw [hq]
  dsimp -zeta only
  rw [hc]
  refine (event_of_true (by rw [hflt, hg, hfree, decide_eq_true hroom, hdone, hpreds]; rfl) ..).trans ?_
  extract_lets n t u img st'
  rw [show st' = st + 1 from hst]
  clear_value st' img
  cases img with
  | error e => rfl
  | ok ns => rfl

theorem exec_graphReplayStart_next {ns : List (List Byte × List Nat)} (hst : s.graphStatus r c = 0) (himg : s.graphImage c (bits r.n 115 64) = .ok ns) :
    exec (.graphReplayStart q) s = .next (({ (s.noteGraph c (bits r.n 115 64)).popFifo q with
      disp := { ((s.noteGraph c (bits r.n 115 64)).popFifo q).disp with
        graphs := ((s.noteGraph c (bits r.n 115 64)).popFifo q).disp.graphs ++ [newGraph ((s.noteGraph c (bits r.n 115 64)).popFifo q).disp.nextId q r ns]
        nextId := ((s.noteGraph c (bits r.n 115 64)).popFifo q).disp.nextId + 1 } } : State).releaseNodes ((s.noteGraph c (bits r.n 115 64)).popFifo q).disp.nextId) := by
  show execGraphReplayStart q s = _
  unfold execGraphReplayStart
  rw [hq]
  dsimp -zeta only
  rw [hc]
  refine (event_of_true (by rw [hflt, hg, hfree, decide_eq_true hroom, hdone, hpreds]; rfl) ..).trans ?_
  extract_lets n t u img st'
  rw [show st' = 0 from hst, show img = .ok ns from himg]
  rfl

theorem exec_graphReplayStart_accepted {ns : List (List Byte × List Nat)} (hst : s.graphStatus r c = 0) (himg : s.graphImage c (bits r.n 115 64) = .ok ns)
    (hnew : ∀ x ∈ s.disp.graphs, x.id ≠ s.disp.nextId) : ∃ t : State, exec (.graphReplayStart q) s = .next t ∧ (t.queueOf q).fifo = l ∧
      t.disp.graphs = s.disp.graphs ++ [{ newGraph s.disp.nextId q r ns with released := firstNodes ns }] ∧ t.disp.nextId = s.disp.nextId + 1 ∧
      t.disp.intake = s.disp.intake ++ (firstNodes ns).map (nodeRec (newGraph s.disp.nextId q r ns)) ∧ t.disp.launches = s.disp.launches ∧ t.core = s.core ∧ t.mem = s.mem := by
  have hnote := noteGraph_noted s c (bits r.n 115 64)
  obtain ⟨hcore, -, -, hmem, -⟩ := hnote.keeps
  have hdisp := hnote.disp
  have hpop : ((((s.noteGraph c (bits r.n 115 64)).popFifo q)).queueOf q).fifo = l := State.queueOf_pop (by rw [State.queueOf_disp hdisp]; exact hq)
  have hrest : ((s.noteGraph c (bits r.n 115 64)).popFifo q).disp.graphs = s.disp.graphs ∧ ((s.noteGraph c (bits r.n 115 64)).popFifo q).disp.nextId = s.disp.nextId ∧
      ((s.noteGraph c (bits r.n 115 64)).popFifo q).disp.intake = s.disp.intake ∧ ((s.noteGraph c (bits r.n 115 64)).popFifo q).disp.launches = s.disp.launches :=
    ⟨(congrArg Disp.graphs hdisp :), (congrArg Disp.nextId hdisp :), (congrArg Disp.intake hdisp :), (congrArg Disp.launches hdisp :)⟩
  obtain ⟨hgraphs, hid, hintake, hlaunches⟩ := hrest
  have hrel := State.releaseNodes_new (t := (s.noteGraph c (bits r.n 115 64)).popFifo q) (q := q) (r := r) (ns := ns) (id := s.disp.nextId) (by rw [hgraphs]; exact hnew) (s.disp.nextId + 1)
  have hexec := exec_graphReplayStart_next hq hc hflt hg hfree hroom hdone hpreds hst himg
  rw [hid, hrel, hgraphs, hintake] at hexec
  exact ⟨_, hexec, hpop, rfl, rfl, rfl, hlaunches, hcore, hmem⟩

end

end

end Sys2Proof.Machine
end

section
/-! PROOF. Placement, starts, ends and evictions of groups (16 R383-R390; O51). -/

namespace Sys2Proof.Machine

/-! ### The ends of launches and of replays (16 R383, R391) -/

theorem State.releaseNodes_launches (s : State) (id : Nat) : (s.releaseNodes id).disp.launches = s.disp.launches := by
  unfold State.releaseNodes
  split
  · rfl
  · rfl

theorem State.endNode_launches (s : State) (id i : Nat) (accs : List Nat) : (s.endNode id i accs).disp.launches = s.disp.launches := by
  unfold State.endNode
  extract_lets _ t
  split
  · rfl
  next g _ =>
    split
    · exact (t.releaseNodes_launches id).trans rfl
    · extract_lets u
      rw [(State.report_rest ..).1]
      unfold u
      split
      · rfl
      · rfl

theorem State.endNodes_launches : ∀ (k : Nat) (s : State) (id i : Nat) (accs : List Nat), (State.endNodes k s id i accs).disp.launches = s.disp.launches
  | 0, _, _, _, _ => rfl
  | k + 1, s, id, i, accs => by
    unfold State.endNodes
    extract_lets g t
    split
    · exact (State.endNodes_launches k t ..).trans (s.endNode_launches ..)
    · exact s.endNode_launches ..

section
variable {s : State} {id : Nat} {l : Launch} (hl : s.launchOf id = some l)
include hl

theorem exec_waitvarLoad (hen : l.waitEn = true) (hno : l.waitOk = false) (hlive : s.ctxLive l.ctx = true)
    (hv : l.waitVal.toNat ≤ s.mem.natAt none (s.syncLoc (bits l.waitVar 26 24) (bits l.waitVar 23 0)) 8 % 2 ^ 32) : ∃ (t : State) (x : Launch),
      exec (.waitvarLoad id) s = .next t ∧ t.launchOf id = some x ∧ x.waitOk = true ∧ t.mem = s.mem ∧ t.core = s.core := by
  have hnote := noteLines_noted [s.syncLoc (bits l.waitVar 26 24) (bits l.waitVar 23 0) / 64] s
  obtain ⟨hcore, -, -, hmem, -⟩ := hnote.keeps
  have hl' : (s.noteLines [s.syncLoc (bits l.waitVar 26 24) (bits l.waitVar 23 0) / 64]).launchOf id = some l := by
    rw [State.launchOf, hnote.disp]
    exact hl
  show ∃ (t : State) (x : Launch), execWaitvarLoad id s = .next t ∧ _
  unfold execWaitvarLoad
  rw [hl]
  exact ⟨_, _, event_of_true (by rw [hen, hno, hlive, decide_eq_true hv]; rfl) .., State.launchOf_updLaunch hl' (by intro; rfl), rfl, hmem, hcore⟩

section
variable (hend : l.ended = l.total) (hst : s.dom.st ≠ .closed)
include hend hst

/-- The state once the launch has left the list and what it signals is on its way. -/
def State.endLaunch (s : State) (id : Nat) (l : Launch) : State :=
  let t : State := { s with disp := { s.disp with launches := s.disp.launches.filter (·.id != id) } }
  if l.doneEn && !l.cut then t.signalVar l.ctx l.doneVar (s.mem.accsOf l.gids) else t

theorem exec_launchEnd : exec (.launchEnd id) s = .next (match l.node with
    | some (g, i) => State.endNodes (((s.endLaunch id l).report l.queue l.ctx l.tag (if l.cut then 8 else 0)).disp.graphs.length + 1)
        ((s.endLaunch id l).report l.queue l.ctx l.tag (if l.cut then 8 else 0)) g i (s.mem.accsOf l.gids)
    | none => (s.endLaunch id l).report l.queue l.ctx l.tag (if l.cut then 8 else 0)) := by
  show execLaunchEnd id s = _
  unfold execLaunchEnd
  rw [hl]
  refine (event_of_true (by rw [hend]; simpa using hst) ..).trans ?_
  rfl

theorem exec_launchEnd_plain (hdone : l.doneEn = false) (hnode : l.node = none) : exec (.launchEnd id) s =
    .next (({ s with disp := { s.disp with launches := s.disp.launches.filter (fun x => x.id != id) } } : State).report l.queue l.ctx l.tag (if l.cut then 8 else 0)) := by
  rw [exec_launchEnd hl hend hst, hnode]
  dsimp only
  rw [State.endLaunch, hdone]
  rfl

theorem exec_launchEnd_gone : ∃ t : State, exec (.launchEnd id) s = .next t ∧ t.launchOf id = none := by
  refine ⟨_, exec_launchEnd hl hend hst, ?_⟩
  have hkept : (s.endLaunch id l).disp.launches = s.disp.launches.filter (·.id != id) := by
    unfold State.endLaunch
    split
    · rfl
    · rfl
  have hrep := congrArg Disp.launches ((s.endLaunch id l).report_rest l.queue l.ctx l.tag (if l.cut then 8 else 0)).1
  have hnone : (s.disp.launches.filter (·.id != id)).find? (·.id == id) = none := List.find?_eq_none.2 fun x hx => by simpa using List.of_mem_filter hx
  split
  · rw [State.launchOf, State.endNodes_launches, hrep, hkept]
    exact hnone
  · rw [State.launchOf, hrep, hkept]
    exact hnone

end

/-! ### Placement (16 R384) -/

omit hl in
theorem State.joinSet_launches (s : State) (g : Nat) (l : List Nat) (now : Nat) : (s.joinSet g l now).disp.launches = s.disp.launches ∧
    (s.joinSet g l now).disp.nextGid = s.disp.nextGid ∧ (s.joinSet g l now).disp.evicted = s.disp.evicted := by
  unfold State.joinSet
  split
  · exact ⟨rfl, rfl, rfl⟩
  · exact ⟨rfl, rfl, rfl⟩

theorem exec_groupPlacement {c : Ctx} {area : Nat} {cs : List Nat} (hc : s.ctxOf l.ctx = some c) (harea : s.savePlace c (saveSize l.g) = some area) (hled : s.led = true)
    (hoff : s.offers l = true) (hplace : s.placeable l.code l.g cs = true) (hroom : s.roomOn cs (l.crows, l.nrows.toList) = true) : ∃ t : State,
      exec (.groupPlacement id cs) s = .next t ∧ t.disp.nextGid = s.disp.nextGid + 1 ∧ ∃ x, t.launchOf id = some x ∧ x.nextDisp = l.nextDisp + 1 ∧ s.disp.nextGid ∈ x.gids := by
  show ∃ t : State, execGroupPlacement id cs s = .next t ∧ _
  unfold execGroupPlacement
  rw [hl]
  dsimp -zeta only
  rw [hc]
  dsimp -zeta only
  rw [harea]
  refine ⟨_, event_of_true (by rw [hled, hoff, hplace, hroom]; rfl) .., ?_⟩
  extract_lets _ g b t _ u
  have hx : t.launchOf id = some { l with nextDisp := l.nextDisp + 1, gids := l.gids ++ [g.gid] } := State.launchOf_updLaunch hl (by intro; rfl)
  have hjoin := u.joinSet_launches g.gid cs u.pkg.cycle
  have harb := Arbitrates.arbitrateIdle (u.joinSet g.gid cs u.pkg.cycle) cs u.pkg.cycle
  refine ⟨harb.nextGid.trans hjoin.2.1, { l with nextDisp := l.nextDisp + 1, gids := l.gids ++ [g.gid] }, ?_, rfl, List.mem_append_right _ List.mem_cons_self⟩
  rw [State.launchOf, harb.launches, hjoin.1]
  exact hx

end

/-! ### Starts, hard pre-emption and resumption (16 R386-R390) -/

section
variable {s : State}

theorem exec_groupStart {gid : Nat} {b : GangBox} {k : CluSet} {e : EntryPt} {l : Launch} (hb : s.boxOf gid = some b) (hrun : b.gang.run = .fresh)
    (hl : s.launchOf b.gang.launch = some l) (he : b.gang.code.entries[l.entry]? = some e) (hk : s.setOf gid = some k) (hexec : k.exec = some gid)
    (hready : s.setReady k gid = true) (hst : s.dom.st ≠ .closed) :
    let begun := fun (b : GangBox) => ({ b with gang := { b.gang with now := s.setNow k } } : GangBox).started e.first
    exec (.groupStart gid) s = .next ((s.onBox gid fun b => { begun b with gang := (begun b).gang.hearSeal s }).readHalves gid) := by
  intro begun
  show execGroupStart gid s = _
  unfold execGroupStart
  rw [hb]
  dsimp -zeta only
  rw [hl]
  dsimp -zeta only
  extract_lets entry
  rw [show b.gang.code.entries[entry]? = some e from he]
  refine (event_of_true (by simp [hrun, hk, hexec, hready, hst]) ..).trans ?_
  extract_lets t
  rw [show t = s.setNow k from by unfold t; rw [hk]]

theorem exec_hardPreemption (h : s.hardReady = true) : ∃ u : State, exec .hardPreemption s = .next u.serve ∧ u.gang.run = .boundary ∧ u.gang.kind = 2 ∧
    u.gang.latched.hard = true ∧ u.gang.latched.soft = false ∧ u.core = s.core ∧ u.mem = s.mem :=
  ⟨_, event_of_true h s fun s => ((s.setGang { s.gang with run := .boundary, kind := 2, latched := { Requests.none with hard := true, evict := s.gang.req.evict }, yieldAt := false }).leftPhase
    s.gang.gid).serve, rfl, rfl, rfl, rfl, rfl, rfl⟩

theorem exec_groupResume {gid : Nat} {b : GangBox} {cs : List Nat} (hb : s.boxOf gid = some b) (hrun : b.gang.run = .evicted) (hled : s.led = true) (hlive : s.ctxLive b.gang.ctx = true)
    (hhead : (s.disp.evicted.filter fun g => match s.boxOf g with | some x => x.gang.queue == b.gang.queue | none => false).head? = some gid)
    (hplace : s.placeable b.gang.code b.gang.g cs = true) (hroom : s.roomOn cs b.rows = true) : ∃ t : State, exec (.groupResume gid cs) s = .next t ∧ gid ∉ t.disp.evicted := by
  show ∃ t : State, execGroupResume gid cs s = .next t ∧ _
  unfold execGroupResume
  rw [hb]
  refine ⟨_, event_of_true ?_ .., ?_⟩
  · simp only [Bool.and_eq_true]
    exact ⟨⟨⟨⟨⟨hled, beq_iff_eq.2 hrun⟩, beq_iff_eq.2 hhead⟩, hlive⟩, hplace⟩, hroom⟩
  · extract_lets place t _ u
    rw [(Arbitrates.arbitrateIdle ..).evicted, (u.joinSet_launches ..).2.2]
    exact fun h => by simpa using List.of_mem_filter h

end

end Sys2Proof.Machine
end

section
/-! PROOF. The pending changes of the leading firmware core, and the dispatcher's events together (02 R34, R37, R40; 08 R183; 13 R321; 16 R376-R392; O51). -/

namespace Sys2Proof.Machine

theorem State.jobOf_dropJob (s : State) (id : Nat) : (s.dropJob id).jobOf id = none :=
  List.find?_eq_none.2 fun x hx => by simpa using List.of_mem_filter hx

/-! ### Gangs and boxes -/

theorem State.boxOf_onGang {s : State} {g : Nat} {b : GangBox} (h : s.boxOf g = some b) {f : Gang → Gang} (hf : ∀ x, (f x).gid = x.gid) :
    (s.onGang g f).boxOf g = some { b with gang := f b.gang } := by
  unfold State.boxOf State.allBoxes at *
  unfold State.onGang State.onBox
  by_cases hg : s.gang.gid = g
  · rw [if_pos hg]
    rw [List.find?_cons_of_pos (p := fun x : GangBox => x.gang.gid == g) (beq_iff_eq.2 hg)] at h
    rw [← Option.some.inj h]
    exact List.find?_cons_of_pos (beq_iff_eq.2 ((hf _).trans hg))
  · rw [if_neg hg]
    rw [List.find?_cons_of_neg (p := fun x : GangBox => x.gang.gid == g) (fun e => hg (beq_iff_eq.1 e))] at h
    refine (List.find?_cons_of_neg (p := fun x : GangBox => x.gang.gid == g) (fun e => hg (beq_iff_eq.1 e))).trans ?_
    have := find?_updateAll (p := fun b : GangBox => b.gang.gid == g) (f := fun b => { b with gang := f b.gang }) (fun x hx => by simpa [hf] using hx) s.gangs
    rw [h] at this
    exact this

/-! ### Invalidations (02 R34) -/

section
variable {s : State} {id : Nat} {j : JobRec} (hj : s.jobOf id = some j) (hled : s.led = true)
include hj

section
include hled

theorem exec_invalidationComplete {c : BitVec 16} {va n : Nat} {w : List Nat} (hjob : j.job = .invalidate c va n w)
    (hw : ∀ g ∈ w, ∀ b, s.boxOf g = some b → b.gang.run ≠ .phase) :
    exec (.invalidationComplete id) s = .next (((s.clearTlb c va n).dropJob id).respond j.seq j.ctx j.tag 0 []) := by
  show execInvalidationComplete id s = _
  unfold execInvalidationComplete
  rw [hj]
  dsimp only
  rw [hjob]
  refine event_of_true ?_ ..
  rw [hled, Bool.true_and, List.all_eq_true]
  intro g hg
  split
  next b hb => exact bne_iff_ne.2 (hw g hg b hb)
  next => rfl

omit hj hled in
theorem State.clearTlb_focus {c : BitVec 16} (hc : s.gang.ctx = c) (va n : Nat) : ∀ e ∈ (s.clearTlb c va n).clu.tlb, 2 ^ 21 * (e.1 + 1) ≤ va ∨ va + n ≤ 2 ^ 21 * e.1 := by
  have hclu : (s.clearTlb c va n).clu.tlb = s.clu.tlb.filter fun e => decide (2 ^ 21 * (e.1 + 1) ≤ va) || decide (va + n ≤ 2 ^ 21 * e.1) := by
    unfold State.clearTlb
    extract_lets out f
    show (f s.box).clu.tlb = _
    have hf : f s.box = { s.box with clu := out s.box.clu, clus := s.box.clus.map out } := if_pos (beq_iff_eq.2 hc)
    rw [hf]
    rfl
  intro e he
  rw [hclu] at he
  simpa using List.of_mem_filter he

/-! ### Region changes (02 R37, R40) -/

omit hj hled in
theorem StoresOnly.storePa (s : State) (c : Ctx) (pa : Nat) (l : List Byte) (lg : Bool) : StoresOnly s (s.storePa c pa l lg) :=
  List.foldlRecOn (motive := fun y : State × List Byte => StoresOnly s y.1) (vaPieces pa l.length) _ (.refl s) fun _ hy _ _ => hy.trans (storeLine ..)

omit hj hled in
/-- The stores of a region change touch nothing but memory, the seal's requests and the agenda. -/
theorem StoresOnly.putRegion (s : State) (c : Ctx) (ix gen e : Nat) (es : List Nat) : StoresOnly s (s.putRegion c ix gen e es) :=
  List.foldlRecOn (motive := StoresOnly s) es.zipIdx _ (storePa ..) fun _ ht _ _ => ht.trans (storePa ..)

omit hj hled in
theorem State.jobOf_putRegion (s : State) (id : Nat) (c : Ctx) (ix gen e : Nat) (es : List Nat) : ((s.dropJob id).putRegion c ix gen e es).jobOf id = none := by
  rw [State.jobOf, StoresOnly.putRegion]
  exact s.jobOf_dropJob id

omit hj hled in
/-- A job that leaves the list changes no check of a region. -/
theorem State.partOf_dropJob (s : State) (id : Nat) (c : Ctx) (va : Nat) : (s.dropJob id).partOf c va = s.partOf c va := rfl

omit hj hled in
theorem State.crosses_dropJob (s : State) (id : Nat) (c : Ctx) (r : Region) : (s.dropJob id).crosses c r = s.crosses c r := by
  unfold State.crosses
  rw [State.partOf_dropJob]

omit hj hled in
theorem State.pinPages_dropJob (s : State) (id : Nat) (c : Ctx) (r : Region) : (s.dropJob id).pinPages c r = s.pinPages c r := by
  have hleaf : ∀ a, (s.dropJob id).ctxLeaf c a = s.ctxLeaf c a := fun _ => rfl
  have hmap : ∀ a b, (s.dropJob id).mappable a b = s.mappable a b := fun _ _ => rfl
  unfold State.pinPages
  simp only [hleaf, hmap]

/-- The lines that a region change writes. -/
def Region.lines (r : Region) : List Nat := if r.v then (List.range r.pages).map fun i => (r.flist + 8 * i) / 64 * 64 else []

omit hj hled in
theorem State.regionFree_of {c : Ctx} {ix : Nat} {r : Region} (hph : s.ctxInPhase c.id = false) (hbar : s.barrier = false)
    (hcmds : ∀ k ∈ s.mem.cmds, k.ctx = c.id → k.names.contains ix = false) (hops : s.opNames c.id ix = false)
    (hroom : s.roomFor ((c.rbase + 64 * ix) :: r.lines) s.dom.ri = true) : s.regionFree c ix r = true := by
  have hall : (s.mem.cmds.all fun k => k.ctx != c.id || !k.names.contains ix) = true := List.all_eq_true.2 fun k hk => by
    by_cases hctx : k.ctx = c.id
    · rw [hcmds k hk hctx, Bool.not_false, Bool.or_true]
    · rw [bne_iff_ne.2 hctx, Bool.true_or]
  rw [State.regionFree]
  simp only [Bool.and_eq_true, Bool.not_eq_true']
  exact ⟨⟨⟨⟨hph, hbar⟩, hroom⟩, hall⟩, hops⟩

section
variable {cx : BitVec 16} {ix : Nat} {img : List Byte} {c : Ctx} (hjob : j.job = .region cx ix img) (hc : s.ctxOf j.ctx = some c)
  (hfree : s.regionFree c ix (Region.ofNat (ofBytes img)) = true)
include hjob hc hfree

/-- An image without V clears its entry, whose generation goes up. -/
theorem exec_regionChangeApply_clear (hv : (Region.ofNat (ofBytes img)).v = false) : ∃ u : State, exec (.regionChangeApply id) s =
    .next (u.respond j.seq j.ctx j.tag 0 [((Region.ofNat (s.regionEntry c ix)).gen + 1) % 2 ^ 24 * 2 ^ 40 + ix]) ∧ u.jobOf id = none := by
  show ∃ u : State, execRegionChangeApply id s = _ ∧ _
  unfold execRegionChangeApply
  rw [hj]
  dsimp only
  rw [hjob, hc]
  refine ⟨(s.dropJob id).putRegion c ix (((Region.ofNat (s.regionEntry c ix)).gen + 1) % 2 ^ 24)
    (s.regionEntry c ix - if (Region.ofNat (s.regionEntry c ix)).v then 2 ^ 63 else 0) [], (event_of_true (by rw [hled]; exact hfree) ..).trans ?_, State.jobOf_putRegion ..⟩
  rw [hv]
  rfl

theorem exec_regionChangeApply_set {es : List Nat} (hv : (Region.ofNat (ofBytes img)).v = true) (hform : (Region.ofNat (ofBytes img)).malformed = false)
    (hcross : s.crosses c (Region.ofNat (ofBytes img)) = false) (hown : s.partOf c (Region.ofNat (ofBytes img)).base = .own)
    (hpin : s.pinPages c (Region.ofNat (ofBytes img)) = some es) (hlog : ∀ e ∈ es, bits e 5 5 = 1 ∧ leafPcls e ≠ 3) : ∃ u : State, exec (.regionChangeApply id) s =
      .next (u.respond j.seq j.ctx j.tag 0 [(Region.ofNat (s.regionEntry c ix)).gen * 2 ^ 40 + ix]) ∧ u.jobOf id = none := by
  have hlogged : ¬(es.any fun e => bits e 5 5 == 0) = true := by
    rw [List.any_eq_true]
    rintro ⟨e, he, h0⟩
    rw [(hlog e he).1] at h0
    cases h0
  have hclass : ¬(es.any fun e => leafPcls e == 3) = true := by
    rw [List.any_eq_true]
    rintro ⟨e, he, h3⟩
    exact (hlog e he).2 (beq_iff_eq.1 h3)
  show ∃ u : State, execRegionChangeApply id s = _ ∧ _
  unfold execRegionChangeApply
  rw [hj]
  dsimp only
  rw [hjob, hc]
  refine ⟨(s.dropJob id).putRegion c ix (Region.ofNat (s.regionEntry c ix)).gen (ofBytes img) es, (event_of_true (by rw [hled]; exact hfree) ..).trans ?_, State.jobOf_putRegion ..⟩
  have hcross' : (s.dropJob id).crosses c (Region.ofNat (ofBytes img)) = false := (s.crosses_dropJob id c _).trans hcross
  have hown' : (s.dropJob id).partOf c (Region.ofNat (ofBytes img)).base = .own := (s.partOf_dropJob id c _).trans hown
  have hpin' : (s.dropJob id).pinPages c (Region.ofNat (ofBytes img)) = some es := (s.pinPages_dropJob id c _).trans hpin
  rw [hv, hform, hcross', hown', if_neg (by decide), if_neg (by decide), if_neg (by decide), if_pos rfl, hpin']
  dsimp -zeta only
  rw [if_neg hlogged, if_neg hclass]

end

end

/-! ### Tables and routines (08 R183, 13 R321) -/

theorem exec_tableReplacementApply (hled : s.led = true) {gid : Nat} {t1 : Bool} {ds : List Desc} {b : GangBox} (hjob : j.job = .table gid t1 ds) (hb : s.boxOf gid = some b)
    (hact : b.gang.active ≠ t1) (hph : b.inPhase = false) (hrun : b.gang.run ≠ .fresh) (hok : tableOk b.gang.code ds (if t1 then b.gang.t0 else b.gang.t1) = true) :
    exec (.tableReplacementApply id) s = .next (((s.dropJob id).onGang gid fun g => if t1 then { g with t1 := ds } else { g with t0 := ds }).respond j.seq j.ctx j.tag 0 []) := by
  show execTableReplacementApply id s = _
  unfold execTableReplacementApply
  rw [hj]
  dsimp only
  rw [hjob]
  dsimp only
  rw [hb]
  refine (event_of_true (by simp [hled, hact, hph, hrun]) ..).trans (congrArg Host.Outcome.next (if_pos hok))

end

/-! The micro-op store. -/

/-- A micro-op of a package's store. -/
def Pkg.holds (p : Pkg) (k : Nat) (w : W64) : Prop := p.uc.find? (·.1 == k) = some (k, w)

theorem Pkg.holds_setUcode (p : Pkg) (core r i : Nat) (w : W64) : (p.setUcode core r i w).holds (core * 8192 + r * 32 + i) w :=
  List.find?_cons_of_pos (p := fun x : Nat × W64 => x.1 == core * 8192 + r * 32 + i) (beq_iff_eq.2 rfl)

theorem Pkg.holds_setUcode_of {p : Pkg} {k core r i : Nat} {w v : W64} (h : p.holds k w) (hv : core * 8192 + r * 32 + i = k → v = w) : (p.setUcode core r i v).holds k w := by
  by_cases hk : core * 8192 + r * 32 + i = k
  · subst hk
    rw [hv rfl]
    exact p.holds_setUcode ..
  · refine (List.find?_cons_of_neg (p := fun x : Nat × W64 => x.1 == k) (fun e => hk (beq_iff_eq.1 e))).trans ?_
    rw [List.find?_filter]
    refine (List.find?_congr fun x _ => ?_).trans h
    by_cases hx : x.1 = k
    · simp [hx, Ne.symm hk]
    · simp [hx]

theorem State.ucodeAt_of_holds {s : State} {core r i : Nat} {w : W64} (h : s.pkg.holds (core * 8192 + r * 32 + i) w) : s.ucodeAt core r i = w := by
  rw [State.ucodeAt, h]

/-- A fold reaches what one of its steps brings about and every step keeps. -/
theorem foldl_reaches {α β : Type} {P : β → Prop} {f : β → α → β} {l : List α} {x : α} (hx : x ∈ l) (hreach : ∀ b, P (f b x)) (hkeep : ∀ b, ∀ y ∈ l, P b → P (f b y)) (b : β) :
    P (l.foldl f b) := by
  obtain ⟨l₁, l₂, rfl⟩ := List.append_of_mem hx
  rw [List.foldl_append, List.foldl_cons]
  exact List.foldlRecOn (motive := P) l₂ f (hreach _) fun b hb y hy => hkeep b y (List.mem_append_right _ (List.mem_cons_of_mem _ hy)) hb

/-- The store once a routine has been written into the four cores of each listed cluster. -/
def Pkg.putRoutine (p : Pkg) (ix : Nat) (ops : List W64) (l : List Nat) : Pkg :=
  l.foldl (fun p k => (List.range 4).foldl (fun p q => (ops.zipIdx).foldl (fun p u => p.setUcode (4 * k + q) ix u.2 u.1) p) p) p

theorem Pkg.holds_putRoutine {ops : List W64} (hops : ops.length ≤ 32) {ix : Nat} (hix : ix < 256) {l : List Nat} {k c i : Nat} (hk : k ∈ l) (hc : c < 4) (hi : i < ops.length) (p : Pkg) :
    (p.putRoutine ix ops l).holds ((4 * k + c) * 8192 + ix * 32 + i) (nth ops i 0) := by
  have hitem : (ops[i], i) ∈ ops.zipIdx := List.mk_mem_zipIdx_iff_getElem?.2 (List.getElem?_eq_getElem hi)
  have hnth : nth ops i 0 = ops[i] := by simp [nth, hi]
  have hstep : ∀ (p : Pkg) (k' q : Nat), ∀ u ∈ ops.zipIdx, q < 4 → p.holds ((4 * k + c) * 8192 + ix * 32 + i) (nth ops i 0) →
      (p.setUcode (4 * k' + q) ix u.2 u.1).holds ((4 * k + c) * 8192 + ix * 32 + i) (nth ops i 0) := by
    intro p k' q u hu hq h
    refine Pkg.holds_setUcode_of h fun he => ?_
    have hget := List.mk_mem_zipIdx_iff_getElem?.1 hu
    have hlt : u.2 < ops.length := (List.getElem?_eq_some_iff.1 hget).1
    have hsame : u.2 = i := by
      have hbound := hix
      omega
    rw [hsame, List.getElem?_eq_getElem hi] at hget
    rw [hnth, Option.some.inj hget]
  have hcore : ∀ (p : Pkg) (k' q : Nat), q < 4 → p.holds ((4 * k + c) * 8192 + ix * 32 + i) (nth ops i 0) →
      ((ops.zipIdx).foldl (fun p u => p.setUcode (4 * k' + q) ix u.2 u.1) p).holds ((4 * k + c) * 8192 + ix * 32 + i) (nth ops i 0) := fun p k' q hq h =>
    List.foldlRecOn (motive := fun p : Pkg => p.holds _ _) ops.zipIdx _ h fun p hp u hu => hstep p k' q u hu hq hp
  refine foldl_reaches (P := fun p : Pkg => p.holds _ _) hk (fun p => foldl_reaches (P := fun p : Pkg => p.holds _ _) (List.mem_range.2 hc) (fun p =>
    foldl_reaches (P := fun p : Pkg => p.holds _ _) hitem (fun p => ?_) (fun p u hu => hstep p k c u hu hc) p) (fun p q hq => hcore p k q (List.mem_range.1 hq)) p) (fun p k' _ h => ?_) p
  · rw [hnth]
    exact p.holds_setUcode ..
  · exact List.foldlRecOn (motive := fun p : Pkg => p.holds _ _) (List.range 4) _ h fun p hp q hq => hcore p k' q (List.mem_range.1 hq) hp

theorem State.respond_rest (s : State) (seq : W32) (ctx : BitVec 16) (tag : W64) (st : W16) (ws : List Nat) : (s.respond seq ctx tag st ws).mem = s.mem ∧
    (s.respond seq ctx tag st ws).gang = s.gang ∧ (s.respond seq ctx tag st ws).pkg = s.pkg := by
  unfold State.respond State.emit
  split
  · exact ⟨rfl, rfl, rfl⟩
  · exact ⟨rfl, rfl, rfl⟩

theorem exec_routineInstall {s : State} {id : Nat} {j : JobRec} (hj : s.jobOf id = some j) (hled : s.led = true) {ix : Nat} {ops : List W64} {l : List Nat}
    (hjob : j.job = .routine ix ops l) (hops : ops.length ≤ 32) (hix : ix < 256) : ∃ t : State, exec (.routineInstall id) s = .next t ∧ t.mem = s.mem ∧ t.gang = s.gang ∧
      (∀ k ∈ l, k < 64 → s.clusterInPhase k = false → ∀ c i, c < 4 → i < ops.length → t.ucodeAt (4 * k + c) ix i = nth ops i 0) := by
  show ∃ t : State, execRoutineInstall id s = .next t ∧ _
  unfold execRoutineInstall
  rw [hj]
  dsimp -zeta only
  rw [hjob]
  dsimp -zeta only
  extract_lets now left p t
  have hput : ∀ k ∈ l, s.clusterInPhase k = false → ∀ c i, c < 4 → i < ops.length → p.holds ((4 * k + c) * 8192 + ix * 32 + i) (nth ops i 0) := fun k hk hph c i hc hi =>
    s.pkg.holds_putRoutine hops hix (List.mem_filter.2 ⟨hk, by rw [hled, hph]; rfl⟩) hc hi
  split
  · exact ⟨_, rfl, (State.respond_rest ..).1, (State.respond_rest ..).2.1, fun k hk _ hph c i hc hi => State.ucodeAt_of_holds (by
      rw [(State.respond_rest ..).2.2]
      exact hput k hk hph c i hc hi)⟩
  · exact ⟨_, rfl, rfl, rfl, fun k hk _ hph c i hc hi => State.ucodeAt_of_holds (hput k hk hph c i hc hi)⟩

/-- Settles O51: records, launches and graphs, placement, starts and ends, and pending changes, each by its own lemma. -/
theorem dispatcherComplete : Obligations.DispatcherComplete := by
  refine ⟨fun s q id gid cs => ⟨fun c h b hc hh => ?ring, fun r => exec_intakeToFifo, fun r => exec_intakeToFifo_refused, fun r l c hq hc hflt hg hfree => ?check,
    fun l => exec_waitvarLoad, fun l c area hl hc harea hled hoff hplace hroom => exec_groupPlacement hl hc harea hled hoff hplace hroom,
    fun b k e l hb hrun hl he hk hexec hready hst => exec_groupStart hb hrun hl he hk hexec hready hst,
    fun l hl hend hst hdone hnode => exec_launchEnd_plain hl hend hst hdone hnode, fun l hl hend hst => exec_launchEnd_gone hl hend hst, exec_hardPreemption,
    fun r l c hq hc hflt hg hfree hroom hdone hpreds => ?graph, fun b hb hrun hled hlive hhead hplace hroom => exec_groupResume hb hrun hled hlive hhead hplace hroom⟩,
    fun s id j hj hled => ⟨fun c va n w hjob hw => ?inval, fun cx ix img c hjob hc hph hbar hcmds hops => ?region, fun gid t1 ds b hjob hb hact hph hrun hok => ?table,
      fun ix ops l hjob hops hix => exec_routineInstall hj hled hjob hops hix⟩⟩
  case ring =>
    intro tail head hb hv hring hlen hne hbar hlive hin hroom
    exact exec_hostRingTake hc hh hb hv hring hlen hne hbar hlive hin hroom
  case check => exact ⟨fun o a sc => exec_launchCheck_accepted hq hc hflt hg hfree, fun st => exec_launchCheck_refused hq hc hflt hg hfree⟩
  case graph =>
    intro img good served refused
    have href := fun (n : Nat) => exec_graphReplayStart_refused hq hc hflt hg hfree hroom hdone hpreds (st := n)
    refine ⟨fun ns hgood himg hserved htorn hnew => ?accepted, fun hbad => href 1 (State.graphStatus_bad hbad), fun hgood himg => href 2 ?_, fun hgood himg => href 5 ?_,
      fun ns hgood himg => ⟨fun hno => href 6 ?_, fun hserved htorn => href 7 ?_⟩⟩
    case accepted =>
      have hst : s.graphStatus r c = 0 := by
        rw [State.graphStatus_good hgood, show s.graphImage c (bits r.n 115 64) = .ok ns from himg]
        simp [hserved.1, hserved.2, htorn]
      obtain ⟨t, ht, hfifo, hgraphs, hid, hintake, hlaunches, hcore, hmem⟩ := exec_graphReplayStart_accepted hq hc hflt hg hfree hroom hdone hpreds hst himg hnew
      refine ⟨t, _, _, ht, hfifo, hgraphs, hid, rfl, rfl, rfl, rfl, rfl, rfl, mem_firstNodes ns, hintake, ?_, fun x hx => ?_, hlaunches, hcore, hmem⟩
      · rw [List.map_map]
        rfl
      · obtain ⟨i, -, rfl⟩ := List.mem_map.1 hx
        exact ⟨rfl, rfl, i, rfl, rfl⟩
    · rw [State.graphStatus_good hgood, show s.graphImage c (bits r.n 115 64) = .error 3 from himg]
      rfl
    · rw [State.graphStatus_good hgood, show s.graphImage c (bits r.n 115 64) = .error 6 from himg]
      rfl
    · rw [State.graphStatus_good hgood, show s.graphImage c (bits r.n 115 64) = .ok ns from himg]
      refine if_pos ?_
      by_cases hv : (s.queueOf r.target).v = true
      · simpa [hv] using fun hctx => hno ⟨hv, hctx⟩
      · simp [hv]
    · rw [State.graphStatus_good hgood, show s.graphImage c (bits r.n 115 64) = .ok ns from himg]
      simp [hserved.1, hserved.2, htorn]
  case inval => exact ⟨_, exec_invalidationComplete hj hled hjob hw, State.jobOf_dropJob .., fun hctx => State.clearTlb_focus hctx va n, rfl⟩
  case region =>
    intro r old answers
    refine ⟨fun hv hroom => ?_, fun es hv hform hcross hown hpin hlog hroom => ?_⟩
    · have hlines : r.lines = [] := by rw [Region.lines, hv]; rfl
      exact exec_regionChangeApply_clear hj hled hjob hc (State.regionFree_of hph hbar hcmds hops (by rw [hlines]; exact hroom)) hv
    · have hlines : r.lines = (List.range r.pages).map fun i => (r.flist + 8 * i) / 64 * 64 := by rw [Region.lines, hv]; rfl
      exact exec_regionChangeApply_set hj hled hjob hc (State.regionFree_of hph hbar hcmds hops (by rw [hlines]; exact hroom)) hv hform hcross hown hpin hlog
  case table =>
    refine ⟨_, exec_tableReplacementApply hj hled hjob hb hact hph hrun hok, _, State.boxOf_onGang (s := s.dropJob id) hb (fun x => by split <;> rfl), ?_, ?_⟩
    · cases t1 <;> rfl
    · cases t1 <;> rfl

end Sys2Proof.Machine
end

section
/-! PROOF. What a step keeps of the memory's canonical form: the rules of the state's own operations (02 R28, R29; 06 R124; O60). -/

namespace Sys2Proof.Machine

/-- An outcome that is a state is one with canonical memory. -/
def Res.Wf : Res → Prop
  | .next t => memWf t
  | _ => True
/-- A bundle that issues leaves canonical memory. -/
def Issued.Wf : Issued → Prop
  | .done t => memWf t
  | _ => True

theorem memWf.ite {c : Prop} {inst : Decidable c} {s t : State} (hs : memWf s) (ht : memWf t) : memWf (if c then s else t) := by
  split
  · exact hs
  · exact ht
theorem memWf.dite {c : Prop} {inst : Decidable c} {s : c → State} {t : ¬c → State} (hs : ∀ h, memWf (s h)) (ht : ∀ h, memWf (t h)) :
    memWf (if h : c then s h else t h) := by
  split
  · exact hs _
  · exact ht _
theorem memWf.foldl {α : Type} {f : State → α → State} {l : List α} {s : State} (hf : ∀ s x, memWf s → memWf (f s x)) (h : memWf s) :
    memWf (l.foldl f s) := List.foldlRecOn (motive := memWf) l f h fun _ ht x _ => hf _ x ht
theorem memWf.foldl_snd {α β : Type} {f : β × State → α → β × State} {l : List α} {x : β × State} (hf : ∀ x a, memWf x.2 → memWf (f x a).2)
    (h : memWf x.2) : memWf (l.foldl f x).2 := List.foldlRecOn (motive := fun y => memWf y.2) l f h fun _ hy a _ => hf _ a hy
theorem memWf.foldl_fst {α β : Type} {f : State × β → α → State × β} {l : List α} {x : State × β} (hf : ∀ x a, memWf x.1 → memWf (f x a).1)
    (h : memWf x.1) : memWf (l.foldl f x).1 := List.foldlRecOn (motive := fun y => memWf y.1) l f h fun _ hy a _ => hf _ a hy
theorem MemSys.foldl_wf {α : Type} {f : MemSys → α → MemSys} {l : List α} {m : MemSys} (hf : ∀ m x, m.bytes.wf = true → (f m x).bytes.wf = true)
    (h : m.bytes.wf = true) : (l.foldl f m).bytes.wf = true := List.foldlRecOn (motive := fun m => m.bytes.wf = true) l f h fun _ hm x _ => hf _ x hm
theorem Res.Wf.ite {c : Prop} {inst : Decidable c} {r q : Res} (hr : r.Wf) (hq : q.Wf) : (if c then r else q).Wf := by
  split
  · exact hr
  · exact hq
theorem Issued.Wf.ite {c : Prop} {inst : Decidable c} {r q : Issued} (hr : r.Wf) (hq : q.Wf) : (if c then r else q).Wf := by
  split
  · exact hr
  · exact hq
theorem Res.Wf.of_next {r : Res} {t : State} (h : r.Wf) (e : r = .next t) : memWf t := by
  subst e
  exact h
theorem event_wf {ok : Bool} {s : State} {k : State → State} (h : memWf s) (hk : memWf (k s)) : (event ok s k).Wf := memWf.ite hk h
theorem Res.orElse_memWf {s : State} {r : Res} (h : memWf s) (hr : r.Wf) : memWf (Res.orElse s r) := by
  unfold Res.orElse
  split
  · exact hr
  · exact h
theorem memWf.of_bytes {s t : State} (h : memWf s) (e : t.mem.bytes = s.mem.bytes) : memWf t := by
  unfold memWf at *
  rw [e]
  exact h
/-! What is no memory may change: stated over a variable state, so that no check looks into the value written. -/
theorem memWf.pkg {s : State} {p : Pkg} (h : memWf s) : memWf { s with pkg := p } := h
theorem memWf.mem {s : State} {m : MemSys} (h : m.bytes.wf = true) : memWf { s with mem := m } := h
theorem MemSys.updAcc_wf {m : MemSys} {id : Nat} {f : Access → Access} (h : m.bytes.wf = true) : (m.updAcc id f).bytes.wf = true := h
theorem MemSys.updCmd_wf {m : MemSys} {id : Nat} {f : Cmd → Cmd} (h : m.bytes.wf = true) : (m.updCmd id f).bytes.wf = true := h
theorem memWf.dom {s : State} {d : Domain} (h : memWf s) : memWf { s with dom := d } := h
theorem memWf.disp {s : State} {d : Disp} (h : memWf s) : memWf { s with disp := d } := h
/-- The state of a pair that a function gives. -/
theorem memWf.of_snd {α : Type} {p : α × State} {a : α} {t : State} (h : memWf p.2) (e : p = (a, t)) : memWf t := by
  subst e
  exact h
theorem memWf.of_fst {α : Type} {p : State × α} {a : α} {t : State} (h : memWf p.1) (e : p = (t, a)) : memWf t := by
  subst e
  exact h

end Sys2Proof.Machine
end

section
/-! PROOF. What a step keeps of the memory's canonical form: the instructions and what they share (06; 09-15; O60). -/

namespace Sys2Proof.Machine

/-! ### Registers, traps and timed writes -/

theorem State.setCore_memWf {s : State} {c : Core} (h : memWf s) : memWf (s.setCore c) := h
theorem State.setClu_memWf {s : State} {c : Cluster} (h : memWf s) : memWf (s.setClu c) := h
theorem State.setGang_memWf {s : State} {g : Gang} (h : memWf s) : memWf (s.setGang g) := h
theorem State.later_memWf {s : State} {dt : Nat} {own : Bool} {b : Act} (h : memWf s) : memWf (s.later dt own b) := h
theorem State.laterAll_memWf {s : State} {l : List (Nat × Act)} (h : memWf s) : memWf (s.laterAll l) :=
  memWf.foldl (fun _ _ ht => State.later_memWf ht) h
theorem State.setBox_memWf {s : State} {b : GangBox} (h : memWf s) : memWf (s.setBox b) := h
theorem State.forRanks_memWf {s : State} {f : State → State} (h : memWf s) (hf : ∀ s, memWf s → memWf (f s)) : memWf (s.forRanks f) :=
  (Steady.focus ..).wf (memWf.foldl (fun _ _ ht => hf _ ((Steady.focus ..).wf ht)) h)
theorem State.mapGangs_memWf {s : State} {f : Gang → Gang} (h : memWf s) : memWf (s.mapGangs f) := h
theorem State.setCtx_memWf {s : State} {c : Ctx} (h : memWf s) : memWf (s.setCtx c) := h
theorem State.soon_memWf {s : State} {b : Auto} (h : memWf s) : memWf (s.soon b) := h
theorem State.meet_memWf {s : State} {u : Option UeSite} (h : memWf s) : memWf (s.meet u) := h
theorem State.sendOut_memWf {s : State} {o : Out} (h : memWf s) : memWf (s.sendOut o) := h
theorem State.faultCtx_memWf {s : State} {c : BitVec 16} (h : memWf s) : memWf (s.faultCtx c) := h
theorem State.takeTrap_memWf {s : State} {t : TrapRec} (h : memWf s) : memWf (s.takeTrap t) := by
  unfold State.takeTrap
  extract_lets u r v _ d r' w x
  have hu : memWf u := (Steady.focusId ..).wf h
  have hv : memWf v := (Steady.fwEvent ..).wf ((Steady.logFault ..).wf hu)
  have hx : memWf x := (Steady.fwEvent ..).wf ((Steady.notifyFault ..).wf ((Steady.logFault ..).wf hu))
  clear_value v x
  exact memWf.ite (State.sendOut_memWf (State.setCore_memWf hv)) (memWf.ite (State.setGang_memWf hx) (State.faultCtx_memWf hx))
theorem State.takeTraps_memWf {s : State} {l : List TrapRec} (h : memWf s) : memWf (s.takeTraps l) :=
  (Steady.focusId ..).wf (memWf.foldl (fun _ _ ht => State.takeTrap_memWf ht) h)
theorem State.trap_memWf {s : State} {sl : Slot} {cls cause : Nat} {addr aux : optParam Nat 0} (h : memWf s) :
    memWf (s.trap sl cls cause addr aux) := State.takeTraps_memWf h
theorem raise_wf {sl : Slot} {cls cause addr aux : Nat} {s : State} (h : memWf s) : Res.Wf (raise sl cls cause addr aux s) := State.trap_memWf h
theorem State.returnFromStop_memWf {s : State} {trapped : List Nat} (h : memWf s) : memWf (s.returnFromStop trapped) := h
theorem atomic_wf {s0 : State} {z : Res} (h : memWf s0) (hz : z.Wf) : Res.Wf (atomic s0 z) := by
  cases z with
  | next t => exact Res.Wf.ite hz (State.takeTraps_memWf h)
  | fault _ => exact trivial
  | refused _ => exact trivial
theorem overrunWait_wf {sl : Slot} {s : State} (h : memWf s) : Res.Wf (overrunWait sl s) := raise_wf h
theorem State.holdBundle_memWf {s : State} (h : memWf s) : memWf s.holdBundle := h

/-! ### Ports of the tile banks -/

theorem State.charge_memWf {s : State} {dt : Nat} {wr : Bool} {c : Cap} {w : Nat} (h : memWf s) : memWf (s.charge dt wr c w) := h
theorem State.chargeAll_memWf {s : State} {dt : Nat} {wr : Bool} {c : Cap} {l : List Nat} (h : memWf s) : memWf (s.chargeAll dt wr c l) :=
  memWf.foldl (fun _ _ ht => State.charge_memWf ht) h
theorem State.countReads_memWf {s : State} {phys : Nat} {c : Cap} {ws : List Nat} (h : memWf s) : memWf (s.countReads phys c ws) := h

/-! ### Flags -/

theorem State.flagLater_memWf {s : State} {dt : Nat} {f : Fl} (h : memWf s) : memWf (s.flagLater dt f) := memWf.ite h (State.later_memWf h)

/-! ### Operands and results of V-slot forms -/

theorem State.pop_memWf {s : State} {n : Nat} (h : memWf s) : memWf (s.pop n) := by
  unfold State.pop
  dsimp only
  split
  · exact h
  · exact memWf.ite (State.chargeAll_memWf (State.later_memWf (State.flagLater_memWf (State.setCore_memWf h)))) (State.flagLater_memWf
      (State.setCore_memWf h))
theorem State.withSrcs_wf {s : State} {u : VU} {l : List (VSrc × Bool)} {k : List Lanes → State → Res} (h : memWf s)
    (hk : ∀ x0 s, memWf s → (k x0 s).Wf) :
    Res.Wf (s.withSrcs u l k) := by
  unfold State.withSrcs
  split
  · exact raise_wf h
  · exact Res.Wf.ite (raise_wf h) (atomic_wf h (hk _ _ (memWf.foldl (fun _ _ ht => State.pop_memWf ht) h)))
theorem State.vput_wf {s : State} {u : VU} {d : VDst} {lat : Nat} {b : Lanes} {m : W64} {fl : Fl} (h : memWf s) :
    Res.Wf (s.vput u d lat b m fl) := by
  unfold State.vput
  split
  · exact State.flagLater_memWf (State.later_memWf h)
  · next o =>
    extract_lets n p t
    split
    · exact raise_wf h
    · refine Res.Wf.ite (raise_wf h) ?_
      extract_lets out ws dt v w x y
      split
      · exact raise_wf h
      · have hx : memWf x := State.flagLater_memWf (State.flagLater_memWf (State.later_memWf (State.later_memWf (State.setClu_memWf (State.setCore_memWf h)))))
        exact State.chargeAll_memWf (memWf.ite (State.later_memWf hx) hx)
theorem State.mput_wf {s : State} {u : VU} {d : BitVec 3} {lat : Nat} {b m : W64} {fl : Fl} (h : memWf s) : Res.Wf (s.mput u d lat b m fl) :=
  State.flagLater_memWf (State.later_memWf h)

/-! ### Accesses, writes and reads of global memory -/

theorem State.recall_memWf {s : State} {n : Nat} (h : memWf s) : memWf (s.recall n) := h
theorem State.snoopAdd_memWf {s : State} {n : Nat} (h : memWf s) : memWf (s.snoopAdd n) := by
  refine memWf.ite h (memWf.ite h ?_)
  split
  · exact h
  · exact memWf.ite (State.recall_memWf h) h
theorem State.correctable_memWf {s : State} {b : Nat} (h : memWf s) : memWf (s.correctable b) := h
theorem State.noteLines_memWf {s : State} {l : List Nat} (h : memWf s) : memWf (s.noteLines l) :=
  memWf.foldl (fun _ _ ht => memWf.ite ht (State.meet_memWf (State.correctable_memWf ht))) h
theorem State.noteWalk_memWf {s : State} {root va : Nat} (h : memWf s) : memWf (s.noteWalk root va) := State.noteLines_memWf h
theorem State.leafOf_memWf {s : State} {root va : Nat} (h : memWf s) : memWf (s.leafOf root va).2 := by
  unfold State.leafOf
  extract_lets vpn new t
  have ht : memWf t := State.noteWalk_memWf h
  split
  · split
    · exact h
    · exact (Steady.choose ..).wf h
  · clear_value new t
    cases new with
    | none => exact ht
    | some e => exact State.setClu_memWf ht
theorem State.translate_memWf {s : State} {va : Nat} {isWrite : Bool} (h : memWf s) : memWf (s.translate va isWrite).2 := by
  unfold State.translate
  split
  · exact h
  · split
    · exact h
    · split
      · exact h
      · next c _ =>
        have ht : memWf (s.leafOf c.root va).2 := State.leafOf_memWf h
        split
        · exact memWf.of_snd ht ‹_›
        · exact memWf.of_snd ht ‹_›
theorem State.pressSeal_memWf {s : State} (h : memWf s) : memWf s.pressSeal := memWf.ite ((Steady.requestSeal ..).wf h) h
theorem State.takeEgress_memWf {s : State} {ctx : BitVec 16} {n : Nat} (h : memWf s) : memWf (s.takeEgress ctx n) := by
  unfold State.takeEgress
  split
  · exact h
  · exact memWf.ite h (memWf.ite ((Steady.requestSeal ..).wf (State.setCtx_memWf h)) (State.setCtx_memWf h))
theorem State.freeEgress_memWf {s : State} {ctx : BitVec 16} {n : Nat} (h : memWf s) : memWf (s.freeEgress ctx n) := by
  unfold State.freeEgress
  split
  · exact h
  · exact State.setCtx_memWf h
theorem State.recountEgress_memWf {s : State} (h : memWf s) : memWf s.recountEgress := h
theorem State.stamp_memWf {s : State} {acc : Nat} (h : memWf s) : memWf (s.stamp acc) := by
  unfold State.stamp
  split
  · exact h
  · exact memWf.ite h (memWf.dite (fun _ => memWf.ite ((Steady.requestSeal ..).wf h) h) (fun _ => h))
theorem MemSys.hear_wf {m : MemSys} {acc d : Nat} (h : m.bytes.wf = true) : (m.hear acc d).bytes.wf = true := by
  unfold MemSys.hear
  dsimp only
  split
  · exact h
  · split
    · split
      · exact h
      · exact h
    · exact h
theorem MemSys.putNow_wf {m : MemSys} {b : Nat} {l : List Byte} (h : m.bytes.wf = true) : (m.putNow b l).bytes.wf = true := MemSys.settle_wf h
theorem MemSys.putWindow_wf {m : MemSys} {acc b : Nat} {l : List Byte} (h : m.bytes.wf = true) : (m.putWindow acc b l).bytes.wf = true :=
  MemSys.settle_wf h
theorem State.addWrite_memWf {s : State} {acc : Nat} {src : WSrc} {line : Nat} {logged : Bool} {home : Nat} (h : memWf s) :
    memWf (s.addWrite acc src line logged home) := h
theorem State.addRead_memWf {s : State} {acc addr n : Nat} {dst : RDst} (h : memWf s) : memWf (s.addRead acc addr n dst) := h
theorem MemSys.setTag_wf {m : MemSys} {n : Nat} {t : Option Byte} {ri : W32} (h : m.bytes.wf = true) : (m.setTag n t ri).bytes.wf = true := by
  unfold MemSys.setTag
  dsimp only
  split
  · exact h
  · exact h
theorem State.pokeByte_memWf {s : State} {c : Host.Cell} (h : memWf s) : memWf (s.pokeByte c) := by
  unfold State.pokeByte
  split
  · exact memWf.dite (fun _ => h) (fun _ => h)
  · exact MemSys.setTag_wf h
  · exact memWf.ite h h
theorem State.applyWrite_memWf {s : State} {e : WEv} {cells : List Host.Cell} {ri : W32} (h : memWf s) : memWf (s.applyWrite e cells ri) :=
  memWf.ite (MemSys.settle_wf h) (MemSys.settle_wf (MemSys.hear_wf (memWf.ite (memWf.ite (State.stamp_memWf h) (memWf.foldl (fun _ _ ht =>
    (Steady.logOld ..).wf ht) (State.stamp_memWf h))) (memWf.foldl (fun _ _ ht => State.pokeByte_memWf ht) (State.stamp_memWf h)))))
theorem State.arriveAt_memWf {s : State} {who : CoreId} {fb : Option (BitVec 5)} (h : memWf s) : memWf (s.arriveAt who fb) := by
  unfold State.arriveAt
  split
  · exact h
  · exact memWf.ite ((Steady.focusId ..).wf (State.setCore_memWf ((Steady.focusId ..).wf h))) h
theorem State.touch_memWf {s : State} {l : List Nat} (h : memWf s) : memWf (s.touch l) := h
theorem State.signOffCmd_memWf {s : State} {g id : Nat} (h : memWf s) : memWf (s.signOffCmd g id) := h

/-! ### The sequencer -/

theorem State.readCode_memWf {s : State} {seg : Nat} (h : memWf s) : memWf (s.readCode seg) := h
theorem State.selectSucc_memWf {s : State} (h : memWf s) : memWf s.selectSucc := memWf.ite h (State.readCode_memWf h)
theorem State.endSegment_memWf {s : State} {c : Nat} (h : memWf s) : memWf (s.endSegment c) := by
  unfold State.endSegment
  dsimp only
  split
  · exact State.setCore_memWf (memWf.ite (State.selectSucc_memWf h) h)
  · exact State.setCore_memWf (memWf.ite (State.selectSucc_memWf h) h)
theorem State.onIssue_memWf {s : State} {f : Nat} (h : memWf s) : memWf (s.onIssue f) := by
  unfold State.onIssue
  extract_lets e c t _ go
  have ht : memWf t := memWf.ite (State.selectSucc_memWf h) h
  have hgo : ∀ {v sq d}, memWf v → memWf (go v sq d) := fun hv => memWf.ite (State.endSegment_memWf hv) (State.setCore_memWf hv)
  clear_value t go
  split
  next sq loops adv _ =>
  extract_lets rotc u
  have hu : memWf u := State.setCore_memWf ht
  clear_value u
  split
  · exact memWf.ite (hgo (State.setCore_memWf hu)) (hgo hu)
  · exact hgo hu
theorem State.onSign_memWf {s : State} {loops : List Level} {e : Nat} (h : memWf s) : memWf (s.onSign loops e) := memWf.ite (State.setCore_memWf h) h
theorem State.signOff_memWf {s : State} {b : Option Bool} (h : memWf s) : memWf (s.signOff b) := memWf.foldl (fun _ _ ht => State.readCode_memWf ht) h

/-! ### System registers -/

theorem State.setFwd_memWf {s : State} {d : Nat} {f : FwDie} (h : memWf s) : memWf (s.setFwd d f) := memWf.dite (fun _ => h) (fun _ => h)

/-! ### C-slot instructions -/

theorem branchTo_wf {t : Nat} {s : State} (h : memWf s) : Res.Wf (branchTo t s) := Res.Wf.ite (raise_wf h) h
theorem loopEntry_wf {n : Nat} {e : BitVec 10} {ring : BitVec 8} {s : State} (h : memWf s) : Res.Wf (loopEntry n e ring s) :=
  Res.Wf.ite (raise_wf h) (Res.Wf.ite (memWf.ite h (State.later_memWf h)) (memWf.ite h (State.later_memWf h)))
theorem execBrkLoop_wf {t : BitVec 10} {s : State} (h : memWf s) : Res.Wf (execBrkLoop t s) := by
  unfold execBrkLoop
  split
  · exact raise_wf h
  · exact h
theorem execSign_wf {s : State} (h : memWf s) : Res.Wf (execSign s) := by
  refine Res.Wf.ite h ?_
  split
  · exact raise_wf h
  · exact State.signOff_memWf h
theorem execHalt_wf {s : State} (h : memWf s) : Res.Wf (execHalt s) := by
  unfold execHalt
  split
  · exact memWf.ite (State.setCore_memWf h) h
  · split
    · exact raise_wf h
    · have ht : memWf (s.signOff none) := State.signOff_memWf h
      generalize s.signOff none = t at ht
      exact State.setGang_memWf ht
theorem State.noteShared_memWf {s : State} {va : Nat} (h : memWf s) : memWf (s.noteShared va) := by
  unfold State.noteShared
  split
  · exact State.noteWalk_memWf h
  · exact h
theorem State.logInputAt_memWf {s : State} {ri : W32} {ctx : BitVec 16} {r : InRec} {len : Nat} (h : memWf s) :
    memWf (s.logInputAt ri ctx r len) := by
  refine memWf.ite h ?_
  dsimp only
  split
  · exact h
  · exact memWf.ite (State.pressSeal_memWf (State.setCtx_memWf h)) (State.setCtx_memWf h)
theorem State.logInput_memWf {s : State} {ctx : BitVec 16} {r : InRec} {len : Nat} (h : memWf s) : memWf (s.logInput ctx r len) :=
  State.logInputAt_memWf h
theorem State.waitaDone_memWf {s : State} {p : BitVec 4} {b : Bool} (h : memWf s) : memWf (s.waitaDone p b) := memWf.ite h (State.logInput_memWf h)
theorem execWaita_wf {p r : BitVec 4} {limit : W32} {s : State} (h : memWf s) : Res.Wf (execWaita p r limit s) := by
  refine Res.Wf.ite (overrunWait_wf h) ?_
  split
  · exact State.waitaDone_memWf h
  · exact h
  · split
    · exact raise_wf h
    · dsimp only
      split
      · exact State.waitaDone_memWf (State.noteShared_memWf h)
      · exact Res.Wf.ite (State.waitaDone_memWf (State.noteShared_memWf h)) (Res.Wf.ite (State.waitaDone_memWf (State.noteShared_memWf h))
          (State.snoopAdd_memWf (State.noteShared_memWf h)))
theorem execFence_wf {sc : Scope} {mask : BitVec 16} {fb : Option (BitVec 5)} {s : State} (h : memWf s) : Res.Wf (execFence sc mask fb s) := by
  refine Res.Wf.ite h ?_
  split
  · exact h
  · exact h
theorem State.advanceTime_memWf {s : State} (h : memWf s) : memWf s.advanceTime := h
theorem execSyswr_wf {r : BitVec 10} {c : BitVec 4} {s : State} (h : memWf s) : Res.Wf (execSyswr r c s) := by
  refine Res.Wf.ite (raise_wf h) (Res.Wf.ite h ?_)
  split
  · exact h
  · exact h

/-! ### A-slot instructions -/

theorem compareTo_wf {c : Cond} {d : Option (BitVec 5)} {p : BitVec 4} {b y : W64} {s : State} (h : memWf s) : Res.Wf (compareTo c d p b y s) := by
  unfold compareTo
  dsimp only
  split
  · exact h
  · exact h
theorem execLdt_wf {d : BitVec 5} {t : BitVec 12} {i : BitVec 5} {off : BitVec 14} {s : State} (h : memWf s) : Res.Wf (execLdt d t i off s) := by
  unfold execLdt
  dsimp only
  split
  · exact raise_wf h
  · exact h
theorem execStt_wf {r : BitVec 5} {t : BitVec 12} {i : BitVec 5} {off : BitVec 14} {s : State} (h : memWf s) : Res.Wf (execStt r t i off s) := by
  unfold execStt
  dsimp only
  split
  · exact raise_wf h
  · exact State.flagLater_memWf (State.later_memWf h)
theorem State.farPage_memWf {s : State} {va : Nat} {isWrite : Bool} (h : memWf s) : memWf (s.farPage va isWrite).2 := by
  unfold State.farPage
  split
  · exact h
  · exact (Steady.choose ..).wf h
  · have ht : memWf (s.translate va isWrite).2 := State.translate_memWf h
    split
    · exact memWf.of_snd ht ‹_›
    · exact memWf.of_snd ht ‹_›
theorem execFld_wf {sz : BitVec 2} {st : BitVec 4} {d b : BitVec 5} {off : BitVec 16} {s : State} (h : memWf s) :
    Res.Wf (execFld sz st d b off s) := by
  unfold execFld
  extract_lets va n
  refine Res.Wf.ite (overrunWait_wf h) (Res.Wf.ite (raise_wf h) ?_)
  split
  · exact raise_wf h
  · next pa lg t e =>
    have ht : memWf t := memWf.of_snd (State.farPage_memWf h) e
    exact State.setCore_memWf (State.addRead_memWf ht)
theorem execFst_wf {sz : BitVec 2} {st : BitVec 4} {r b : BitVec 5} {off : BitVec 16} {s : State} (h : memWf s) :
    Res.Wf (execFst sz st r b off s) := by
  unfold execFst
  extract_lets va n
  refine Res.Wf.ite (overrunWait_wf h) (Res.Wf.ite (raise_wf h) ?_)
  split
  · exact raise_wf h
  · next pa lg t e =>
    have ht : memWf t := memWf.of_snd (State.farPage_memWf h) e
    exact Res.Wf.ite (State.holdBundle_memWf h) (State.setCore_memWf (State.addWrite_memWf ht))
theorem execGenArm_wf {port : BitVec 4} {s : State} (h : memWf s) : Res.Wf (execGenArm port s) := by
  unfold execGenArm
  dsimp only
  split
  · exact raise_wf h
  · exact Res.Wf.ite (raise_wf h) (memWf.foldl (fun _ _ ht => State.chargeAll_memWf (State.later_memWf ht)) (State.later_memWf
      (State.setClu_memWf h)))
theorem execTfree_wf {t : BitVec 12} {s : State} (h : memWf s) : Res.Wf (execTfree t s) := by
  unfold execTfree
  split
  · exact raise_wf h
  · exact Res.Wf.ite (raise_wf h) h

/-! ### M-slot instructions -/

theorem State.setMxu_memWf {s : State} {m : Mxu} (h : memWf s) : memWf (s.setMxu m) := h
theorem execMcall_wf {r : BitVec 8} {acc : BitVec 2} {s : State} (h : memWf s) : Res.Wf (execMcall r acc s) := by
  unfold execMcall
  split
  · exact raise_wf h
  · extract_lets m accs m' t u v w x
    have hv : memWf v := memWf.foldl (fun _ _ ht => State.charge_memWf ht) (State.setClu_memWf (State.setMxu_memWf h))
    have hw : memWf w := memWf.foldl (fun _ _ ht => State.later_memWf ht) hv
    exact State.later_memWf (memWf.ite (State.later_memWf hw) hw)
theorem execMdrain_wf {t : BitVec 12} {acc : BitVec 2} {mp : BitVec 3} {rm : XRnd} {sat : Bool} {s : State} (h : memWf s) :
    Res.Wf (execMdrain t acc mp rm sat s) := by
  unfold execMdrain
  dsimp only
  split
  · exact raise_wf h
  · refine Res.Wf.ite (raise_wf h) ?_
    split
    · exact raise_wf h
    · exact Res.Wf.ite (raise_wf h) (State.chargeAll_memWf (memWf.foldl (fun _ _ ht => State.charge_memWf ht) (State.setClu_memWf
        (State.setMxu_memWf h))))
theorem execMgidx_wf {mp : BitVec 3} {n : BitVec 8} {s : State} (h : memWf s) : Res.Wf (execMgidx mp n s) := by
  unfold execMgidx
  dsimp only
  split
  · exact raise_wf h
  · exact Res.Wf.ite (raise_wf h) (Res.Wf.ite (raise_wf h) (Res.Wf.ite (raise_wf h) (memWf.foldl (fun _ _ ht => State.charge_memWf
      (State.later_memWf ht)) (State.setClu_memWf (State.setMxu_memWf h)))))

/-! ### Routines of the MXU -/

theorem State.laterIss_memWf {s : State} {iss dt : Nat} {b : Act} (h : memWf s) : memWf (s.laterIss iss dt b) := h
theorem State.notePoison_memWf {s : State} {c : Cap} {ws : List Nat} (h : memWf s) : memWf (s.notePoison c ws) := by
  unfold State.notePoison
  dsimp only
  split
  · exact memWf.ite (State.soon_memWf (State.countReads_memWf h)) (State.countReads_memWf h)
  · exact State.countReads_memWf h
theorem State.mxFetch_memWf {s : State} {id t : Nat} (h : memWf s) : memWf (s.mxFetch id t) := by
  unfold State.mxFetch
  split
  · exact h
  · exact memWf.foldl (fun _ _ ht => State.notePoison_memWf ht) h
theorem State.mxFlags_memWf {s : State} {r : Routine} {f : Fl} (h : memWf s) : memWf (s.mxFlags r f) := by
  unfold State.mxFlags
  split
  · exact State.setMxu_memWf h
  · exact State.setCore_memWf h
theorem State.mxStep_memWf {s : State} {id k : Nat} (h : memWf s) : memWf (s.mxStep id k) := by
  unfold State.mxStep
  split
  · exact h
  · dsimp only
    split
    · exact h
    · exact memWf.ite (State.laterIss_memWf (State.mxFlags_memWf (State.setMxu_memWf h))) (State.mxFlags_memWf (State.setMxu_memWf h))
theorem State.mxEnd_memWf {s : State} {id : Nat} (h : memWf s) : memWf (s.mxEnd id) := by
  unfold State.mxEnd
  split
  · exact h
  · dsimp only
    split
    · exact memWf.ite (State.setCore_memWf (State.setClu_memWf h)) (State.setMxu_memWf (State.setClu_memWf h))
    · exact State.setMxu_memWf (State.setClu_memWf h)
theorem State.drainSample_memWf {s : State} {id : Nat} (h : memWf s) : memWf (s.drainSample id) := by
  unfold State.drainSample
  split
  · exact h
  · exact memWf.ite (memWf.ite (memWf.foldl (fun _ _ ht => ht) h) (State.laterIss_memWf (memWf.foldl (fun _ _ ht => ht) h))) (State.laterIss_memWf
      (memWf.ite (memWf.foldl (fun _ _ ht => ht) h) (State.laterIss_memWf (memWf.foldl (fun _ _ ht => ht) h))))
theorem State.drainEnd_memWf {s : State} {id : Nat} (h : memWf s) : memWf (s.drainEnd id) := by
  unfold State.drainEnd
  split
  · exact h
  · exact h
theorem State.gatherRead_memWf {s : State} {id i : Nat} (h : memWf s) : memWf (s.gatherRead id i) := by
  unfold State.gatherRead
  split
  · exact h
  · exact State.notePoison_memWf h
theorem State.gatherSet_memWf {s : State} {id : Nat} (h : memWf s) : memWf (s.gatherSet id) := by
  unfold State.gatherSet
  split
  · exact h
  · exact h

/-! ### Block transfers -/

theorem State.accept_memWf {s : State} {b : BxArgs} (h : memWf s) : memWf (s.accept b) := by
  unfold State.accept
  dsimp only
  split
  · exact State.setGang_memWf (memWf.ite (State.setCore_memWf (State.noteLines_memWf h)) (State.noteLines_memWf h))
  · refine State.setGang_memWf ?_
    split
    · refine memWf.ite ?_ ?_
      · refine State.addWrite_memWf ?_
        split
        · exact memWf.foldl (fun _ _ ht => State.addRead_memWf ht) (State.touch_memWf (State.setClu_memWf (memWf.ite (State.setCore_memWf
            (State.noteLines_memWf h)) (State.noteLines_memWf h))))
        · exact State.setClu_memWf (memWf.ite (State.setCore_memWf (State.noteLines_memWf h)) (State.noteLines_memWf h))
      · refine memWf.ite ?_ ?_
        · split
          · exact memWf.foldl (fun _ _ ht => State.addRead_memWf ht) (State.touch_memWf (State.setClu_memWf (memWf.ite (State.setCore_memWf
              (State.noteLines_memWf h)) (State.noteLines_memWf h))))
          · exact State.setClu_memWf (memWf.ite (State.setCore_memWf (State.noteLines_memWf h)) (State.noteLines_memWf h))
        · refine memWf.foldl (fun _ _ ht => State.addWrite_memWf ht) (State.touch_memWf ?_)
          split
          · exact memWf.foldl (fun _ _ ht => State.addRead_memWf ht) (State.touch_memWf (State.setClu_memWf (memWf.ite (State.setCore_memWf
              (State.noteLines_memWf h)) (State.noteLines_memWf h))))
          · exact State.setClu_memWf (memWf.ite (State.setCore_memWf (State.noteLines_memWf h)) (State.noteLines_memWf h))
    · split
      · exact memWf.foldl (fun _ _ ht => State.addRead_memWf ht) (State.touch_memWf (State.setClu_memWf (memWf.ite (State.setCore_memWf
          (State.noteLines_memWf h)) (State.noteLines_memWf h))))
      · exact State.setClu_memWf (memWf.ite (State.setCore_memWf (State.noteLines_memWf h)) (State.noteLines_memWf h))
theorem counted_wf {n : Nat} {s : State} {k : State → Res} (h : memWf s) (hk : ∀ s, memWf s → (k s).Wf) : Res.Wf (counted n s k) :=
  Res.Wf.ite (raise_wf h) (hk _ (State.setCore_memWf h))
theorem blockTransfer_wf {op : BitVec 6} {o : BxOps} {s : State} (h : memWf s) : Res.Wf (blockTransfer op o s) :=
  counted_wf h (fun _ ht => State.accept_memWf ht)
theorem releaseFrom_wf {n : Nat} {sc : Sched} {l : List SchedEnt} {s : State} (h : memWf s) : Res.Wf (releaseFrom n sc l s) :=
  counted_wf h (fun _ ht => memWf.foldl (fun _ _ hu => State.accept_memWf hu) ht)
theorem withSched_wf {n : BitVec 2} {s : State} {k : Sched → Res} (h : memWf s) (hk : ∀ x0, (k x0).Wf) : Res.Wf (withSched n s k) := by
  unfold withSched
  split
  · exact Res.Wf.ite (hk _) (raise_wf h)
  · exact raise_wf h

/-! ### Sconce operations -/

theorem issueSconce_wf {op : BitVec 6} {g np : Bool} {st xa : BitVec 4} {v n : W64} {fb : Option (BitVec 5)} {s : State} (h : memWf s) :
    Res.Wf (issueSconce op g np st xa v n fb s) := by
  refine counted_wf h ?_
  intro t ht
  dsimp only
  split
  · exact memWf.ite (State.noteLines_memWf (State.setCore_memWf ht)) (State.setCore_memWf ht)
  · exact memWf.ite (State.setCore_memWf (memWf.ite (State.noteLines_memWf (State.setCore_memWf ht)) (State.setCore_memWf ht))) (memWf.ite
      (State.noteLines_memWf (State.setCore_memWf ht)) (State.setCore_memWf ht))
theorem at1_wf {op : BitVec 6} {o : At1} {s : State} (h : memWf s) : Res.Wf (at1 op o s) := issueSconce_wf h
theorem at2_wf {op : BitVec 6} {o : At2} {s : State} (h : memWf s) : Res.Wf (at2 op o s) := issueSconce_wf h
theorem State.cmdFault_memWf {s : State} {ctx : BitVec 16} {f : FaultRec} (h : memWf s) : memWf (s.cmdFault ctx f) :=
  (Steady.fwEvent ..).wf ((Steady.notifyFault ..).wf ((Steady.logFault ..).wf h))
theorem execSbWait_wf {st xa : BitVec 4} {gen : Bool} {s : State} (h : memWf s) : Res.Wf (execSbWait st xa gen s) := by
  refine Res.Wf.ite (overrunWait_wf h) ?_
  split
  · exact Res.Wf.ite (counted_wf h (fun _ ht => ht)) h
  · refine counted_wf h ?_
    intro t ht
    split
    · exact State.cmdFault_memWf ht
    · exact h
theorem execCqPop_wf {xa : BitVec 4} {s : State} (h : memWf s) : Res.Wf (execCqPop xa s) := by
  unfold execCqPop
  dsimp only
  split
  · exact h
  · exact h

end Sys2Proof.Machine
end

section
/-! PROOF. What a step keeps of the memory's canonical form: memory events, commands, links, groups and firmware (06; 08; 14-18; O60). -/

namespace Sys2Proof.Machine

/-! ### Events of memory and of commands -/

theorem State.memWf_at {s : State} {who : CoreId} {k : State → State} (h : memWf s) (hk : ∀ s, memWf s → memWf (k s)) : memWf (s.at_ who k) :=
  memWf.ite ((Steady.focusId ..).wf (hk _ ((Steady.focusId ..).wf h))) h
theorem State.chooseWords_memWf {s : State} {all : Bool} {ws : List Nat} (h : memWf s) : memWf (s.chooseWords all ws).2 := by
  unfold State.chooseWords
  split
  · exact h
  · exact memWf.foldl_snd (fun _ _ hx => (Steady.choose ..).wf hx) h
theorem State.cmdTile_memWf {s : State} {id : Nat} {all : Bool} (h : memWf s) : memWf (s.cmdTile id all) := by
  unfold State.cmdTile
  split
  · exact h
  · split
    · exact h
    · refine State.memWf_at (State.chooseWords_memWf h) fun t ht => ?_
      split
      · exact ht
      · exact memWf.ite (State.setClu_memWf ht) ht
theorem State.retirePage_memWf {s : State} {page : Nat} (h : memWf s) : memWf (s.retirePage page) := by
  unfold State.retirePage
  generalize page * 2 ^ 21 = a
  extract_lets _ _ _ _ u eg inl report
  have hu : memWf u := (Steady.fwEvent ..).wf (memWf.pkg h)
  have hreport : ∀ {v} src, memWf v → memWf (report v src) := fun _ hv => (Steady.notifyFault ..).wf ((Steady.logFault ..).wf hv)
  clear_value u eg inl report
  split
  · exact hreport _ hu
  · split
    · exact hreport _ (memWf.pkg hu)
    · exact hu
theorem State.retireWorn_memWf {s : State} (h : memWf s) : memWf s.retireWorn := memWf.foldl (fun _ _ ht => State.retirePage_memWf ht) h
theorem State.readArea_memWf {s : State} {c : Ctx} {va n : Nat} (h : memWf s) : memWf (s.readArea c va n) := by
  refine memWf.foldl (fun t x ht => ?_) h
  split
  · exact State.correctable_memWf ht
  · exact ht
theorem State.hostReadDone_memWf {s : State} {b : Nat} (h : memWf s) : memWf (s.hostReadDone b) := by
  unfold State.hostReadDone
  split
  · exact h
  · exact memWf.ite h ((Steady.emit ..).wf (MemSys.settle_wf h))
theorem execReadEventPerform_wf {id : Nat} {s : State} (h : memWf s) : Res.Wf (execReadEventPerform id s) := by
  unfold execReadEventPerform
  split
  · exact h
  · split
    · exact h
    · dsimp only
      split
      · exact event_wf h (State.noteLines_memWf h)
      · split
        · exact h
        · exact event_wf h (State.cmdTile_memWf (memWf.ite (State.memWf_at (memWf.ite (State.meet_memWf h) (State.logInput_memWf
            (State.snoopAdd_memWf (State.meet_memWf h)))) (fun _ ht => State.setCore_memWf ht)) (State.meet_memWf h)))
      · exact event_wf h (State.hostReadDone_memWf (State.noteLines_memWf h))
theorem execWriteEventApply_wf {id : Nat} {s : State} (h : memWf s) : Res.Wf (execWriteEventApply id s) := by
  unfold execWriteEventApply
  split
  · exact h
  · next e _ =>
    extract_lets ri take
    have htake : ∀ {u : State}, memWf u → memWf (take u) := fun hu => hu
    clear_value take
    split
    · refine event_wf h ?_
      exact memWf.ite (State.soon_memWf (State.applyWrite_memWf (htake h))) (State.applyWrite_memWf (htake h))
    · next line _ =>
      split
      · exact htake h
      · next c _ =>
        refine event_wf h ?_
        extract_lets t need
        have hw := State.chooseWords_memWf (all := false) (ws := need) h
        generalize s.chooseWords false need = p at hw ⊢
        obtain ⟨ws, u⟩ := p
        dsimp -zeta only
        extract_lets k v hurt k' w bad x m m'
        have hv : memWf v := by
          unfold v
          split
          · exact State.countReads_memWf hw
          · exact hw
        have hm : memWf w := State.meet_memWf hv
        clear_value w
        split
        · exact hm
        · have hx : memWf x := State.applyWrite_memWf (htake hm)
          clear_value x
          change m'.bytes.wf = true
          unfold m'
          split
          · exact hx
          · exact hx
theorem execWriteEventDelivery_wf {id die : Nat} {s : State} (h : memWf s) : Res.Wf (execWriteEventDelivery id die s) := by
  unfold execWriteEventDelivery
  split
  · exact h
  · exact event_wf h (MemSys.settle_wf (MemSys.hear_wf h))
theorem execFarAccessReturn_wf {s : State} (h : memWf s) : Res.Wf (execFarAccessReturn s) := by
  unfold execFarAccessReturn
  split
  · split
    · split
      · exact MemSys.settle_wf h
      · exact h
    · exact event_wf h (State.setCore_memWf h)
  · exact h
theorem State.reportLost_memWf {s : State} {f : FaultRec} (h : memWf s) : memWf (s.reportLost f) :=
  (Steady.fwEvent ..).wf ((Steady.notifyFault ..).wf ((Steady.logFault ..).wf h))
theorem execFenceWaitEnd_wf {id : Nat} {s : State} (h : memWf s) : Res.Wf (execFenceWaitEnd id s) := by
  unfold execFenceWaitEnd
  split
  · exact h
  · split
    · refine event_wf h ?_
      dsimp only
      split
      · exact State.signOffCmd_memWf (State.arriveAt_memWf (memWf.ite (State.reportLost_memWf (MemSys.settle_wf h)) (MemSys.settle_wf h)))
      · exact memWf.ite (State.reportLost_memWf (MemSys.settle_wf h)) (MemSys.settle_wf h)
    · exact h
theorem State.regionWrite_memWf {s : State} {c : Cmd} {e : GEnd} {o : Nat} {l : List Byte} {preds : List Nat} (h : memWf s) :
    memWf (s.regionWrite c e o l preds).2 := memWf.foldl (fun _ _ ht => State.addWrite_memWf ht) h
theorem State.own_memWf {s : State} {line : Nat} (h : memWf s) : memWf (s.own line) := memWf.ite h (State.snoopAdd_memWf (MemSys.putNow_wf h))
theorem State.writeBack_memWf {s : State} {acc line : Nat} {l : List Byte} (h : memWf s) : memWf (s.writeBack acc line l) := MemSys.putWindow_wf h
theorem State.updPeer_memWf {s : State} {q : BitVec 16} {f : Peer → Peer} (h : memWf s) : memWf (s.updPeer q f) := h
theorem State.release_memWf {s : State} {acc : Nat} {o : Out} (h : memWf s) : memWf (s.release acc o) := by
  unfold State.release
  split
  · exact State.sendOut_memWf h
  · refine State.sendOut_memWf ?_
    split
    · exact h
    · exact MemSys.putWindow_wf h
  · exact State.sendOut_memWf (State.writeBack_memWf h)
  · split
    · exact h
    · exact State.sendOut_memWf (State.updPeer_memWf h)
theorem State.emitOut_memWf {s : State} {acc : Nat} {o : Out} (h : memWf s) : memWf (s.emitOut acc o) :=
  memWf.ite ((Steady.emit ..).wf h) (State.release_memWf h)
theorem State.cmdEgress_memWf {s : State} {c : Cmd} (h : memWf s) : memWf (s.cmdEgress c) := by
  unfold State.cmdEgress
  split
  · refine memWf.ite ?_ h
    split
    · exact h
    · exact State.takeEgress_memWf (memWf.ite (State.stamp_memWf h) (memWf.foldl (fun _ _ ht => State.emitOut_memWf ht) (State.stamp_memWf h)))
  · exact h
theorem State.dropCmd_memWf {s : State} {c : Cmd} (h : memWf s) : memWf (s.dropCmd c) :=
  MemSys.settle_wf (State.memWf_at h (fun _ ht => State.setClu_memWf ht))
theorem State.poisonDest_memWf {s : State} {c : Cmd} (h : memWf s) : memWf (s.poisonDest c) := by
  refine memWf.ite h ?_
  split
  · exact h
  · exact State.memWf_at h (fun _ ht => State.setClu_memWf ht)
theorem execCompletionRecordWrite_wf {id : Nat} {s : State} (h : memWf s) : Res.Wf (execCompletionRecordWrite id s) := by
  unfold execCompletionRecordWrite
  split
  · exact h
  · next c _ =>
    split
    · next r _ _ =>
      extract_lets at_ prod cons full t c' seen u rec_
      have ht : memWf t := State.poisonDest_memWf (State.cmdTile_memWf (State.cmdEgress_memWf h))
      clear_value full
      split
      · exact (Steady.requestSeal ..).wf h
      · split
        · exact h
        · split
          · exact memWf.ite (State.dropCmd_memWf h) h
          · clear_value t c' seen u rec_ prod
            have hp := State.regionWrite_memWf (c := c') (e := r.end_) (o := 64 + 32 * (prod % 2 ^ r.log2n)) (l := rec_) (preds := [c'.acc]) ht
            generalize t.regionWrite c' r.end_ (64 + 32 * (prod % 2 ^ r.log2n)) rec_ [c'.acc] = p at hp ⊢
            obtain ⟨a, v⟩ := p
            dsimp only at hp ⊢
            have hq := State.regionWrite_memWf (c := c') (e := r.end_) (o := 8) (l := toBytes 8 (prod + 1)) (preds := [a]) hp
            generalize v.regionWrite c' r.end_ 8 (toBytes 8 (prod + 1)) [a] = q at hq ⊢
            obtain ⟨b, w⟩ := q
            dsimp only at hq ⊢
            have hw := State.noteLines_memWf (l := linesOf at_ 24) hq
            generalize w.noteLines (linesOf at_ 24) = x at hw ⊢
            exact memWf.mem (MemSys.updCmd_wf (MemSys.updAcc_wf hw))
    · exact h
theorem execCommandComplete_wf {id : Nat} {s : State} (h : memWf s) : Res.Wf (execCommandComplete id s) := by
  unfold execCommandComplete
  split
  · extract_lets _ t u v
    have hu : memWf u := State.arriveAt_memWf (s := t) (MemSys.settle_wf h)
    clear_value u
    have hv : memWf v := by
      unfold v
      split
      · exact memWf.ite (State.reportLost_memWf hu) (State.cmdFault_memWf hu)
      · exact hu
    exact State.signOffCmd_memWf hv
  · split
    · exact h
    · refine Res.Wf.ite ((Steady.requestSeal ..).wf h) (event_wf h ?_)
      extract_lets t c u _ v site
      have hu : memWf u := State.arriveAt_memWf (State.poisonDest_memWf (State.cmdTile_memWf (State.cmdEgress_memWf h)))
      have hv : memWf v := memWf.ite (State.cmdFault_memWf hu) (memWf.ite (State.reportLost_memWf hu) hu)
      exact State.meet_memWf (State.dropCmd_memWf hv)
theorem State.abandonStuck_memWf {s : State} (h : memWf s) : memWf s.abandonStuck :=
  memWf.foldl (fun _ _ ht => State.signOffCmd_memWf ht) (MemSys.settle_wf (memWf.foldl (fun _ _ ht => State.dropCmd_memWf ht) h))
theorem State.applyNow_memWf {s : State} {acc home : Nat} {cells : List Host.Cell} {line : Nat} {logged : Bool} {ri : W32} (h : memWf s) :
    memWf (s.applyNow acc home cells line logged ri) := State.applyWrite_memWf h
theorem State.noteRegion_memWf {s : State} {c : Ctx} {b : W64} {off n : Nat} (h : memWf s) : memWf (s.noteRegion c b off n) := by
  unfold State.noteRegion
  split
  · exact h
  · exact State.noteLines_memWf h
theorem State.notePayload_memWf {s : State} {p : Peer} {i : Nat} (h : memWf s) : memWf (s.notePayload p i) := by
  unfold State.notePayload
  split
  · exact h
  · split
    · exact h
    · exact State.noteRegion_memWf (State.noteRegion_memWf h)
theorem State.sendOne_memWf {s : State} {acc : Nat} {q : BitVec 16} {i : Nat} (h : memWf s) : memWf (s.sendOne acc q i) := by
  unfold State.sendOne
  split
  · exact h
  · split
    · exact memWf.ite (State.pressSeal_memWf (State.setCtx_memWf h)) (State.takeEgress_memWf (State.emitOut_memWf (State.notePayload_memWf h)))
    · exact State.notePayload_memWf h
theorem State.sendTodo_memWf {s : State} {ctx : BitVec 16} (h : memWf s) : memWf (s.sendTodo ctx) := by
  unfold State.sendTodo
  split
  · exact h
  · exact memWf.foldl (fun _ _ ht => State.sendOne_memWf ht) (State.setCtx_memWf h)
theorem State.doorbell_memWf {s : State} {acc loc : Nat} {old add : W64} (h : memWf s) : memWf (s.doorbell acc loc old add) := by
  unfold State.doorbell
  split
  · exact h
  · exact memWf.foldl (fun _ _ ht => State.sendOne_memWf ht) h
theorem State.ripen_memWf {s : State} (h : memWf s) : memWf s.ripen := h
theorem execSconceOperationExecute_wf {id : Nat} {s : State} (h : memWf s) : Res.Wf (execSconceOperationExecute id s) := by
  unfold execSconceOperationExecute
  split
  · exact h
  · next o _ =>
    split
    · exact h
    · next a _ =>
      extract_lets n gidx line loc out
      have hout : ∀ {u r}, memWf u → memWf (out u r) := fun hu => memWf.ite (MemSys.settle_wf hu) hu
      clear_value out
      refine event_wf h (memWf.ite (hout h) ?_)
      extract_lets held seen t old replay old' u v w x
      have ht : memWf t := memWf.ite (State.own_memWf h) h
      have hu : memWf u := memWf.ite (State.logInput_memWf ht) ht
      have hv : memWf v := memWf.ite hu (State.noteLines_memWf hu)
      have hx : memWf x := hv
      clear_value x
      split
      next new reply _ =>
      extract_lets y z z'
      have hy : memWf y := memWf.ite (State.applyNow_memWf hx) hx
      have hz : memWf z := memWf.ite (State.emitOut_memWf hy) hy
      exact memWf.ite (State.doorbell_memWf (hout hz)) (hout hz)
theorem execReplyWrite_wf {id : Nat} {s : State} (h : memWf s) : Res.Wf (execReplyWrite id s) := by
  unfold execReplyWrite
  split
  · exact h
  · exact event_wf h (memWf.ite h (State.memWf_at h (fun _ ht => State.setCore_memWf ht)))
theorem execWaitbSatisfied_wf {s : State} (h : memWf s) : Res.Wf (execWaitbSatisfied s) := by
  unfold execWaitbSatisfied
  split
  · exact event_wf h (State.setCore_memWf h)
  · exact h
theorem State.sbWaitEnd_memWf {s : State} (h : memWf s) : memWf s.sbWaitEnd := by
  unfold State.sbWaitEnd
  split
  · exact h
  · exact State.noteLines_memWf h
theorem execSbWaitSatisfied_wf {s : State} (h : memWf s) : Res.Wf (execSbWaitSatisfied s) := by
  unfold execSbWaitSatisfied
  split
  · exact h
  · exact State.memWf_at h (fun _ ht => State.sbWaitEnd_memWf ht)
theorem execWaitaRecall_wf {s : State} (h : memWf s) : Res.Wf (execWaitaRecall s) := by
  unfold execWaitaRecall
  split
  · exact event_wf h (State.setCore_memWf h)
  · exact h
theorem execWaitaLimitExpiry_wf {s : State} (h : memWf s) : Res.Wf (execWaitaLimitExpiry s) := by
  unfold execWaitaLimitExpiry
  split
  · exact event_wf h (State.setCore_memWf h)
  · exact h
theorem execTagSweepVisit_wf {line : Nat} {s : State} (h : memWf s) : Res.Wf (execTagSweepVisit line s) := by
  unfold execTagSweepVisit
  dsimp only
  split
  · exact h
  · exact event_wf h h

/-! ### F-slot instructions and links -/

theorem State.chargeFrame_memWf {s : State} {df : Nat} {wr : Bool} {c : Cap} {w : Nat} (h : memWf s) : memWf (s.chargeFrame df wr c w) := h
theorem State.startXfer_memWf {s : State} {k : FKind} {start n word : Nat} {cap : Option Cap} {o : Occ} (h : memWf s) :
    memWf (s.startXfer k start n word cap o) := by
  unfold State.startXfer State.setGang
  dsimp only
  split
  · exact h
  · exact h
theorem raiseF_wf {t : FTrap} {s : State} (h : memWf s) : Res.Wf (raiseF t s) := raise_wf h
theorem transmit_wf {ls : List (BitVec 4)} {t : BitVec 12} {xp : BitVec 4} {start : BitVec 12} {s : State} (h : memWf s) :
    Res.Wf (transmit ls t xp start s) := by
  unfold transmit
  dsimp only
  split
  · exact raiseF_wf h
  · exact Res.Wf.ite (raise_wf h) (Res.Wf.ite (raise_wf h) (Res.Wf.ite (raise_wf h) (memWf.foldl (fun _ _ ht => State.chargeFrame_memWf ht)
      (State.setCore_memWf (State.startXfer_memWf h)))))
theorem execRecv_wf {l : BitVec 4} {t : BitVec 12} {xp : BitVec 4} {start : BitVec 12} {s : State} (h : memWf s) :
    Res.Wf (execRecv l t xp start s) := by
  unfold execRecv
  dsimp only
  split
  · exact raiseF_wf h
  · refine Res.Wf.ite (raise_wf h) (Res.Wf.ite (raise_wf h) ?_)
    split
    · exact raise_wf h
    · exact memWf.foldl (fun _ _ ht => State.chargeFrame_memWf ht) (State.setCore_memWf (State.startXfer_memWf h))
theorem execRelay_wf {l m xp : BitVec 4} {start : BitVec 12} {s : State} (h : memWf s) : Res.Wf (execRelay l m xp start s) := by
  unfold execRelay
  split
  · exact raiseF_wf h
  · exact Res.Wf.ite (raise_wf h) (State.startXfer_memWf h)
theorem execLchk_wf {l : BitVec 4} {start : BitVec 12} {s : State} (h : memWf s) : Res.Wf (execLchk l start s) := by
  unfold execLchk
  split
  · exact raiseF_wf h
  · exact Res.Wf.ite (raise_wf h) (State.startXfer_memWf h)
theorem execLinkMatching_wf {s : State} (h : memWf s) : Res.Wf (execLinkMatching s) := by
  unfold execLinkMatching
  dsimp only
  split
  · exact h
  · exact memWf.foldl (fun _ _ ht => (Steady.fwEvent ..).wf ((Steady.notifyFault ..).wf ((Steady.logFault ..).wf ht))) h
theorem State.fabricSample_memWf {s : State} {f : Nat} (h : memWf s) : memWf (s.fabricSample f) := by
  refine memWf.foldl (fun t x ht => ?_) h
  split
  · exact memWf.ite ((Steady.focus ..).wf (State.setGang_memWf (State.notePoison_memWf ((Steady.focus ..).wf ht)))) ht
  · exact memWf.ite ht ht
  · exact ht
theorem State.storeWord_memWf {s : State} {rank : Nat} {c : Cap} {w : Nat} {b : List Byte} (h : memWf s) : memWf (s.storeWord rank c w b) :=
  (Steady.focus ..).wf (State.setClu_memWf ((Steady.focus ..).wf h))
theorem State.fabricWrite_memWf {s : State} {f : Nat} (h : memWf s) : memWf (s.fabricWrite f) := by
  refine memWf.foldl (fun t x ht => ?_) h
  split
  · refine memWf.ite ?_ ht
    dsimp only
    split
    · exact State.setGang_memWf (State.storeWord_memWf ht)
    · exact State.setGang_memWf ht
  · exact ht
theorem State.heldPoison_memWf {s : State} {z : Nat} {y : FXfer} {x : Nat} (h : memWf s) : memWf (s.heldPoison z y x) := by
  induction z generalizing y with
  | zero => exact h
  | succ n ih =>
    unfold State.heldPoison
    split
    · exact h
    · split
      · exact (Steady.focus ..).wf (State.notePoison_memWf ((Steady.focus ..).wf h))
      · exact ih
theorem execLinkRetry_wf {id vector : Nat} {good : Bool} {s : State} (h : memWf s) : Res.Wf (execLinkRetry id vector good s) := by
  unfold execLinkRetry
  split
  · exact h
  · next x _ =>
    split
    · exact event_wf h (State.setGang_memWf h)
    · extract_lets late clear t w
      have hclear : ∀ {u}, memWf u → memWf (clear u) := State.setGang_memWf
      clear_value clear
      refine Res.Wf.ite h (Res.Wf.ite ?_ (memWf.ite (State.soon_memWf (State.setGang_memWf h)) (State.setGang_memWf h)))
      split
      · exact hclear h
      · split
        · exact h
        · next b _ =>
          have ht : memWf t := State.heldPoison_memWf h
          extract_lets v
          have hv : memWf v := by
            unfold v
            split
            · exact State.storeWord_memWf ht
            · exact ht
          exact hclear (State.setGang_memWf hv)
theorem execLinkInterfaceArrival_wf {id : Nat} {s : State} (h : memWf s) : Res.Wf (execLinkInterfaceArrival id s) := by
  unfold execLinkInterfaceArrival
  split
  · exact h
  · refine event_wf h (memWf.foldl (fun t x ht => ?_) ?_)
    · split
      · exact memWf.ite ((Steady.focus ..).wf (State.setClu_memWf ((Steady.focus ..).wf ht))) ht
      · exact ht
    · refine State.setGang_memWf ?_
      split
      · exact (Steady.focus ..).wf (State.setClu_memWf ((Steady.focus ..).wf h))
      · exact h
theorem State.retireLink_memWf {s : State} {b : Nat × Nat ⊕ Nat × Nat} (h : memWf s) : memWf (s.retireLink b) := h
theorem execLinkFailure_wf {id : Nat} {s : State} (h : memWf s) : Res.Wf (execLinkFailure id s) := by
  unfold execLinkFailure
  split
  · exact h
  · exact h

/-! ### Save areas -/

theorem State.noteVa_memWf {s : State} {c : Ctx} {va n : Nat} (h : memWf s) : memWf (s.noteVa c va n) := State.noteLines_memWf h
theorem State.mapClus_memWf {s : State} {f : Cluster → Cluster} (h : memWf s) : memWf (s.mapClus f) := h

/-! ### Phases, groups and cluster sets -/

theorem State.onBox_memWf {s : State} {g : Nat} {f : GangBox → GangBox} (h : memWf s) : memWf (s.onBox g f) := memWf.ite (State.setBox_memWf h) h
theorem State.onGang_memWf {s : State} {g : Nat} {f : Gang → Gang} (h : memWf s) : memWf (s.onGang g f) := State.onBox_memWf h
theorem State.report_memWf {s : State} {q : BitVec 6} {ctx : BitVec 16} {tag : W32} {status : Nat} (h : memWf s) :
    memWf (s.report q ctx tag status) := memWf.ite ((Steady.emit ..).wf h) h
theorem State.setQueue_memWf {s : State} {q : BitVec 6} {f : Queue → Queue} (h : memWf s) : memWf (s.setQueue q f) := h
theorem State.updSet_memWf {s : State} {cs : CluSet} {f : CluSet → CluSet} (h : memWf s) : memWf (s.updSet cs f) := h
theorem State.pick_memWf {s : State} {cs : CluSet} {now : Nat} (h : memWf s) : memWf (s.pick cs now).2 := by
  unfold State.pick
  extract_lets gs c slice fits f _ f' f''
  split
  · exact h
  · split
    · next p t hp =>
      have ht : memWf t := by
        split at hp
        · cases hp; exact State.updSet_memWf h
        · cases hp; exact h
      split
      · exact ht
      · exact State.onGang_memWf (memWf.foldl (fun _ _ hu => State.onGang_memWf hu) (State.setQueue_memWf (memWf.foldl
          (fun _ _ hu => State.setQueue_memWf hu) ht)))
theorem State.arbitrate_memWf {s : State} {cs : CluSet} {now : Nat} (h : memWf s) : memWf (s.arbitrate cs now) := by
  unfold State.arbitrate
  split
  · split
    · exact State.updSet_memWf (memWf.of_snd (State.pick_memWf h) ‹_›)
    · exact memWf.ite (State.onGang_memWf (memWf.foldl (fun _ _ ht => State.onGang_memWf ht) (State.updSet_memWf (memWf.of_snd
        (State.pick_memWf h) ‹_›)))) (memWf.foldl (fun _ _ ht => State.onGang_memWf ht) (State.updSet_memWf (memWf.of_snd (State.pick_memWf h) ‹_›)))
theorem State.arbitrateIdle_memWf {s : State} {clusters : List Nat} {now : Nat} (h : memWf s) : memWf (s.arbitrateIdle clusters now) := by
  unfold State.arbitrateIdle
  split
  · exact memWf.ite (State.arbitrate_memWf h) h
  · exact h
theorem State.leftPhase_memWf {s : State} {g : Nat} (h : memWf s) : memWf (s.leftPhase g) := h
theorem State.updLaunch_memWf {s : State} {id : Nat} {f : Launch → Launch} (h : memWf s) : memWf (s.updLaunch id f) := h
theorem State.waitEvicted_memWf {s : State} {g : Nat} (h : memWf s) : memWf (s.waitEvicted g) := h
theorem State.resolve_memWf {s : State} (h : memWf s) : memWf s.resolve := by
  unfold State.resolve
  dsimp only
  split
  · exact State.setGang_memWf h
  · exact (Steady.serve ..).wf (State.leftPhase_memWf (State.setGang_memWf h))
theorem execLastArrival_wf {s : State} (h : memWf s) : Res.Wf (execLastArrival s) := event_wf h (State.resolve_memWf h)
theorem State.startCore_memWf {s : State} (h : memWf s) : memWf s.startCore := by
  unfold State.startCore
  dsimp only
  split
  · exact State.setCore_memWf (memWf.ite (State.readCode_memWf h) h)
  · exact State.setCore_memWf (memWf.ite (State.readCode_memWf h) h)
theorem State.postpone_memWf {s : State} (h : memWf s) : memWf s.postpone := h
theorem State.beginPhase_memWf {s : State} (h : memWf s) : memWf s.beginPhase := by
  refine memWf.ite (State.setGang_memWf h) ?_
  split
  · exact h
  · exact State.forRanks_memWf (State.setGang_memWf (State.postpone_memWf h)) (fun _ ht => State.startCore_memWf ht)
theorem execPhaseStart_wf {s : State} (h : memWf s) : Res.Wf (execPhaseStart s) := by
  unfold execPhaseStart
  split
  · exact event_wf h (State.beginPhase_memWf h)
  · exact h
theorem execCoreArrival_wf {s : State} (h : memWf s) : Res.Wf (execCoreArrival s) := event_wf h (State.setCore_memWf h)
theorem execSlackChainStart_wf {s : State} (h : memWf s) : Res.Wf (execSlackChainStart s) := by
  refine event_wf h ?_
  dsimp only
  split
  · exact h
  · exact State.setCore_memWf (memWf.ite (State.readCode_memWf h) h)
theorem State.abstain_memWf {s : State} (h : memWf s) : memWf s.abstain := by
  unfold State.abstain
  split
  · exact State.signOff_memWf h
  · exact State.memWf_at (State.trap_memWf (State.setCore_memWf h)) (fun _ ht => State.setCore_memWf ht)
theorem execImplicitSignOff_wf {s : State} (h : memWf s) : Res.Wf (execImplicitSignOff s) := event_wf h (State.abstain_memWf h)
theorem execPhaseHang_wf {s : State} (h : memWf s) : Res.Wf (execPhaseHang s) := by
  unfold execPhaseHang
  split
  · exact h
  · exact event_wf h ((Steady.fwEvent ..).wf ((Steady.notifyFault ..).wf ((Steady.logFault ..).wf h)))

/-! ### Firmware cores and ports -/

theorem execFwTimer_wf {us : W64} {s : State} (h : memWf s) : Res.Wf (execFwTimer us s) := State.setFwd_memWf h
theorem State.timeFrom_memWf {s : State} {t : W64} (h : memWf s) : memWf (s.timeFrom t) := h
theorem execFwTimerExpiry_wf {s : State} (h : memWf s) : Res.Wf (execFwTimerExpiry s) := by
  unfold execFwTimerExpiry
  exact event_wf h ((Steady.fwEvent ..).wf (State.setFwd_memWf (State.timeFrom_memWf h)))
theorem execFwHaltWake_wf {s : State} (h : memWf s) : Res.Wf (execFwHaltWake s) := event_wf h (State.setCore_memWf h)
theorem execFwRoutine_wf {d : Nat} {image : List Byte} {entry : Nat} {s : State} (h : memWf s) : Res.Wf (execFwRoutine d image entry s) := by
  unfold execFwRoutine
  dsimp only
  split
  · exact h
  · split
    · exact h
    · exact event_wf h ((Steady.focusGang ..).wf (State.readCode_memWf (State.setCore_memWf (State.setGang_memWf ((Steady.focusGang ..).wf h)))))
theorem State.setClk_memWf {s : State} {k : ClkSt} (h : memWf s) : memWf (s.setClk k) := h
theorem State.requestStep_memWf {s : State} {k : BitVec 2} (h : memWf s) : memWf (s.requestStep k) := memWf.ite (State.setClk_memWf h) h
theorem execClkctlReq_wf {s : State} (h : memWf s) : Res.Wf (execClkctlReq s) := memWf.ite (State.requestStep_memWf h) h
theorem State.cancelChange_memWf {s : State} (h : memWf s) : memWf s.cancelChange := by
  unfold State.cancelChange
  split
  · exact h
  · exact (Steady.freeSets ..).wf ((Steady.serveAll ..).wf (State.setClk_memWf h))
theorem execClkctlCancel_wf {s : State} (h : memWf s) : Res.Wf (execClkctlCancel s) := State.cancelChange_memWf h
theorem execFrequencyChange_wf {s : State} (h : memWf s) : Res.Wf (execFrequencyChange s) := by
  unfold execFrequencyChange
  split
  · exact h
  · exact event_wf h ((Steady.freeSets ..).wf ((Steady.serveAll ..).wf (State.setClk_memWf h)))
theorem execSvcFull_wf {s : State} (h : memWf s) : Res.Wf (execSvcFull s) := event_wf h (State.setClk_memWf h)
theorem State.reportStack_memWf {s : State} {k : Nat} (h : memWf s) : memWf (s.reportStack k) :=
  (Steady.fwEvent ..).wf ((Steady.notifyFault ..).wf ((Steady.logFault ..).wf h))
theorem execPowerSample_wf {mw : Nat} {s : State} (h : memWf s) : Res.Wf (execPowerSample mw s) := by
  unfold execPowerSample
  dsimp only
  split
  · exact h
  · refine Res.Wf.ite ?_ ?_
    · split
      · exact State.requestStep_memWf (State.setClk_memWf h)
      · exact h
    · refine Res.Wf.ite ?_ h
      split
      · exact State.requestStep_memWf (State.setClk_memWf h)
      · exact h
theorem State.fwIssue_memWf {s : State} {op : BitVec 6} {st : BitVec 4} (h : memWf s) : memWf (s.fwIssue op st) := by
  refine State.memWf_at h ?_
  intro t ht
  dsimp only
  split
  · exact State.setFwd_memWf ht
  · exact State.setFwd_memWf ht
theorem fws_wf {op : BitVec 6} {st : BitVec 4} {s : State} (h : memWf s) : Res.Wf (fws op st s) := event_wf h (State.fwIssue_memWf h)
theorem State.leaseAsk_memWf {s : State} {d : Nat} {k : LeaseOp} {op : BitVec 6} {v n : W64} (h : memWf s) : memWf (s.leaseAsk d k op v n) :=
  State.memWf_at (State.setFwd_memWf h) (fun _ ht => State.fwIssue_memWf ht)
theorem execLeaseTurn_wf {d : Nat} {s : State} (h : memWf s) : Res.Wf (execLeaseTurn d s) := by
  unfold execLeaseTurn
  exact event_wf h (memWf.ite (memWf.ite (State.leaseAsk_memWf (State.advanceTime_memWf h)) (State.advanceTime_memWf h)) (memWf.ite
    (State.leaseAsk_memWf (State.advanceTime_memWf h)) (State.leaseAsk_memWf (State.advanceTime_memWf h))))
theorem execFwsReply_wf {s : State} (h : memWf s) : Res.Wf (execFwsReply s) := by
  unfold execFwsReply
  dsimp only
  split
  · exact h
  · exact State.setFwd_memWf (MemSys.settle_wf h)
theorem State.phylaneWrite_memWf {s : State} {v : W64} (h : memWf s) : memWf (s.phylaneWrite v) := by
  unfold State.phylaneWrite
  dsimp only
  split
  · exact h
  · exact memWf.ite h (State.setFwd_memWf h)
theorem execPatctlApply_wf {s : State} (h : memWf s) : Res.Wf (execPatctlApply s) := by
  unfold execPatctlApply
  dsimp only
  split
  · exact h
  · exact event_wf h (memWf.ite (State.setFwd_memWf h) (State.setFwd_memWf h))
theorem execPatctlStart_wf {s : State} (h : memWf s) : Res.Wf (execPatctlStart s) := by
  unfold execPatctlStart
  dsimp only
  split
  · exact h
  · exact event_wf h (memWf.ite (State.setFwd_memWf h) (State.setFwd_memWf h))
theorem execPatternTestDone_wf {lerr : BitVec 18} {errcnt : W32} {s : State} (h : memWf s) : Res.Wf (execPatternTestDone lerr errcnt s) := by
  unfold execPatternTestDone
  dsimp only
  split
  · exact h
  · exact event_wf h (State.setFwd_memWf h)
theorem State.patctlWrite_memWf {s : State} {v : W64} (h : memWf s) : memWf (s.patctlWrite v) := by
  refine memWf.ite h (memWf.ite ?_ ?_)
  · split
    · refine memWf.of_bytes (Res.Wf.of_next (execPatctlStart_wf (memWf.ite ?_ (State.setFwd_memWf h))) ‹_›) rfl
      split
      · exact memWf.of_bytes (Res.Wf.of_next (execPatctlApply_wf (State.setFwd_memWf h)) ‹_›) rfl
      · exact State.setFwd_memWf h
    · refine memWf.ite ?_ (State.setFwd_memWf h)
      split
      · exact memWf.of_bytes (Res.Wf.of_next (execPatctlApply_wf (State.setFwd_memWf h)) ‹_›) rfl
      · exact State.setFwd_memWf h
  · refine memWf.ite ?_ (State.setFwd_memWf h)
    split
    · exact memWf.of_bytes (Res.Wf.of_next (execPatctlApply_wf (State.setFwd_memWf h)) ‹_›) rfl
    · exact State.setFwd_memWf h
theorem State.fwsWrite_memWf {s : State} {v : W64} (h : memWf s) : memWf (s.fwsWrite v) :=
  memWf.ite h (memWf.ite (State.setFwd_memWf h) (State.fwIssue_memWf h))
theorem State.fwWrite_memWf {s : State} {r : BitVec 10} {v : W64} (h : memWf s) : memWf (s.fwWrite r v) := by
  unfold State.fwWrite
  extract_lets d f t u
  have ht : memWf t := State.setFwd_memWf h
  have hu : memWf u := memWf.ite (Res.orElse_memWf ht (execClkctlReq_wf ht)) ht
  clear_value u
  split
  · exact State.setFwd_memWf h
  · exact Res.orElse_memWf h (execFwTimer_wf h)
  · exact memWf.ite (Res.orElse_memWf hu (execClkctlCancel_wf hu)) hu
  · exact memWf.ite (Res.orElse_memWf h (execSvcFull_wf h)) h
  · exact State.setFwd_memWf h
  · exact State.setFwd_memWf h
  · exact State.setFwd_memWf h
  · exact State.fwsWrite_memWf h
  · exact memWf.ite h (State.setFwd_memWf h)
  · exact memWf.ite h (State.phylaneWrite_memWf h)
  · exact State.patctlWrite_memWf h
  · exact h

end Sys2Proof.Machine
end

section
/-! PROOF. What a step keeps of the memory's canonical form: the dispatcher, the host, timed actions, seals and recovery (05; 07; 16-18; O60). -/

namespace Sys2Proof.Machine

/-! ### The dispatcher -/

theorem State.pushFifo_memWf {s : State} {q : BitVec 6} {r : LRec} (h : memWf s) : memWf (s.pushFifo q r) := h
theorem State.popFifo_memWf {s : State} {q : BitVec 6} (h : memWf s) : memWf (s.popFifo q) := h
theorem execHostRingTake_wf {q : BitVec 6} {s : State} (h : memWf s) : Res.Wf (execHostRingTake q s) := by
  unfold execHostRingTake
  dsimp only
  split
  · exact h
  · split
    · exact h
    · split
      · exact h
      · exact event_wf h ((Steady.storeVa ..).wf (State.pushFifo_memWf (State.noteVa_memWf (State.noteVa_memWf h))))
theorem execIntakeToFifo_wf {q : BitVec 6} {s : State} (h : memWf s) : Res.Wf (execIntakeToFifo q s) := by
  unfold execIntakeToFifo
  split
  · exact h
  · exact Res.Wf.ite (State.report_memWf h) (event_wf h (State.pushFifo_memWf h))
theorem State.noteRecord_memWf {s : State} {r : LRec} {c : Ctx} (h : memWf s) : memWf (s.noteRecord r c) := by
  unfold State.noteRecord
  dsimp only
  split
  · exact h
  · exact memWf.foldl (fun _ _ ht => memWf.ite ht (State.noteRegion_memWf ht)) (State.noteVa_memWf h)
theorem execLaunchCheck_wf {q : BitVec 6} {s : State} (h : memWf s) : Res.Wf (execLaunchCheck q s) := by
  unfold execLaunchCheck
  split
  · exact h
  · split
    · exact h
    · refine event_wf h ?_
      dsimp only
      split
      · exact State.report_memWf (State.popFifo_memWf (memWf.ite (State.noteRecord_memWf h) h))
      · exact memWf.ite (State.noteRecord_memWf h) h
theorem execWaitvarLoad_wf {launch : Nat} {s : State} (h : memWf s) : Res.Wf (execWaitvarLoad launch s) := by
  unfold execWaitvarLoad
  split
  · exact h
  · exact event_wf h (State.updLaunch_memWf (State.noteLines_memWf h))
theorem State.joinSet_memWf {s : State} {g : Nat} {l : List Nat} {now : Nat} (h : memWf s) : memWf (s.joinSet g l now) := by
  unfold State.joinSet
  split
  · exact State.updSet_memWf h
  · exact h
theorem State.askPreempt_memWf {s : State} {q : Gang → Bool} {hard evict : Bool} (h : memWf s) : memWf (s.askPreempt q hard evict) := h
theorem State.bureau_memWf {s : State} (h : memWf s) : memWf s.bureau :=
  memWf.foldl (fun _ _ ht => memWf.ite ht (memWf.foldl (fun _ _ hu => memWf.ite (State.askPreempt_memWf hu) hu) ht)) h
theorem execGroupPlacement_wf {launch : Nat} {clusters : List Nat} {s : State} (h : memWf s) : Res.Wf (execGroupPlacement launch clusters s) := by
  unfold execGroupPlacement
  split
  · exact h
  · split
    · exact h
    · split
      · exact h
      · exact event_wf h (State.arbitrateIdle_memWf (State.joinSet_memWf h))
theorem State.readHalves_memWf {s : State} {gid : Nat} (h : memWf s) : memWf (s.readHalves gid) :=
  (Steady.focusGang ..).wf (State.forRanks_memWf ((Steady.focusGang ..).wf h) (fun _ ht => memWf.foldl (fun _ _ hu => State.readCode_memWf hu) ht))
theorem execGroupStart_wf {gid : Nat} {s : State} (h : memWf s) : Res.Wf (execGroupStart gid s) := by
  unfold execGroupStart
  split
  · exact h
  · dsimp only
    split
    · exact h
    · exact event_wf h (State.readHalves_memWf (State.onBox_memWf h))
theorem State.beginPick_memWf {s : State} {cs : CluSet} (h : memWf s) : memWf (s.beginPick cs) := by
  unfold State.beginPick
  split
  · exact h
  · exact memWf.ite h (memWf.ite (Res.orElse_memWf h (execGroupStart_wf h)) (State.readHalves_memWf (State.onBox_memWf h)))
theorem State.beginPicks_memWf {s : State} (h : memWf s) : memWf s.beginPicks := memWf.foldl (fun _ _ ht => State.beginPick_memWf ht) h
theorem State.releaseNodes_memWf {s : State} {id : Nat} (h : memWf s) : memWf (s.releaseNodes id) := by
  unfold State.releaseNodes
  split
  · exact h
  · exact h
theorem State.signalVar_memWf {s : State} {ctx : BitVec 16} {b : Nat} {preds : List Nat} (h : memWf s) : memWf (s.signalVar ctx b preds) := h
theorem State.endNode_memWf {s : State} {id i : Nat} {accs : List Nat} (h : memWf s) : memWf (s.endNode id i accs) := by
  unfold State.endNode
  dsimp only
  split
  · exact h
  · exact memWf.ite (State.releaseNodes_memWf h) (State.report_memWf (memWf.ite (State.signalVar_memWf h) h))
theorem State.endNodes_memWf {z : Nat} {s : State} {y x : Nat} {r : List Nat} (h : memWf s) : memWf (State.endNodes z s y x r) := by
  induction z generalizing s y x r with
  | zero => exact h
  | succ n ih =>
    unfold State.endNodes
    extract_lets g t
    have ht : memWf t := State.endNode_memWf h
    split
    · exact ih ht
    · exact ht
theorem execLaunchEnd_wf {launch : Nat} {s : State} (h : memWf s) : Res.Wf (execLaunchEnd launch s) := by
  unfold execLaunchEnd
  split
  · exact h
  · refine event_wf h ?_
    dsimp only
    split
    · exact State.endNodes_memWf (State.report_memWf (memWf.ite (State.signalVar_memWf h) h))
    · exact State.report_memWf (memWf.ite (State.signalVar_memWf h) h)
theorem State.noteGraph_memWf {s : State} {c : Ctx} {va : Nat} (h : memWf s) : memWf (s.noteGraph c va) := by
  unfold State.noteGraph
  split
  · exact h
  · exact State.noteVa_memWf h
theorem execGraphReplayStart_wf {q : BitVec 6} {s : State} (h : memWf s) : Res.Wf (execGraphReplayStart q s) := by
  unfold execGraphReplayStart
  split
  · exact h
  · split
    · exact h
    · refine event_wf h ?_
      dsimp only
      split
      · exact State.releaseNodes_memWf (State.noteGraph_memWf h)
      · exact State.report_memWf (State.popFifo_memWf (State.noteGraph_memWf h))
theorem execHardPreemption_wf {s : State} (h : memWf s) : Res.Wf (execHardPreemption s) :=
  event_wf h ((Steady.serve ..).wf (State.leftPhase_memWf (State.setGang_memWf h)))
theorem execGroupResume_wf {gid : Nat} {clusters : List Nat} {s : State} (h : memWf s) : Res.Wf (execGroupResume gid clusters s) := by
  unfold execGroupResume
  split
  · exact h
  · exact event_wf h (State.arbitrateIdle_memWf (State.joinSet_memWf (State.onBox_memWf h)))
theorem State.respond_memWf {s : State} {seq : W32} {ctx : BitVec 16} {tag : W64} {status : W16} {words : List Nat} (h : memWf s) :
    memWf (s.respond seq ctx tag status words) := (Steady.emit ..).wf h
theorem State.refuse_memWf {s : State} {seq : W32} {ctx : BitVec 16} {tag : W64} {rule : Nat} (h : memWf s) : memWf (s.refuse seq ctx tag rule) :=
  State.respond_memWf h
theorem State.dropJob_memWf {s : State} {id : Nat} (h : memWf s) : memWf (s.dropJob id) := h
theorem State.clearTlb_memWf {s : State} {ctx : BitVec 16} {va len : Nat} (h : memWf s) : memWf (s.clearTlb ctx va len) := h
theorem execInvalidationComplete_wf {id : Nat} {s : State} (h : memWf s) : Res.Wf (execInvalidationComplete id s) := by
  unfold execInvalidationComplete
  split
  · exact h
  · split
    · exact event_wf h (State.respond_memWf (State.dropJob_memWf (State.clearTlb_memWf h)))
    · exact h
theorem State.putRegion_memWf {s : State} {c : Ctx} {idx gen e : Nat} {es : List Nat} (h : memWf s) : memWf (s.putRegion c idx gen e es) :=
  memWf.foldl (fun _ _ ht => (Steady.storePa ..).wf ht) ((Steady.storePa ..).wf h)
theorem execRegionChangeApply_wf {id : Nat} {s : State} (h : memWf s) : Res.Wf (execRegionChangeApply id s) := by
  unfold execRegionChangeApply
  split
  · exact h
  · next j _ =>
    split
    · refine event_wf h ?_
      extract_lets old t
      have ht : memWf t := State.dropJob_memWf h
      clear_value t
      refine memWf.ite (State.refuse_memWf ht) (memWf.ite (State.refuse_memWf ht) (memWf.ite ?_ (memWf.ite ?_ (State.respond_memWf
        (State.putRegion_memWf ht)))))
      · have hu : memWf t.choose.2 := (Steady.choose ..).wf ht
        exact memWf.ite (State.refuse_memWf hu) (State.respond_memWf (State.putRegion_memWf hu))
      · split
        · exact State.refuse_memWf ht
        · exact memWf.ite (State.refuse_memWf ht) (memWf.ite (State.refuse_memWf ht) (State.respond_memWf (State.putRegion_memWf ht)))
    · exact h
theorem execChothesRegion_wf {ctx : BitVec 16} {idx : Nat} {img : List Byte} {s : State} (h : memWf s) :
    Res.Wf (execChothesRegion ctx idx img s) := by
  unfold execChothesRegion
  split
  · exact h
  · dsimp only
    split
    · exact h
    · exact event_wf h (State.putRegion_memWf h)
theorem execTableReplacementApply_wf {id : Nat} {s : State} (h : memWf s) : Res.Wf (execTableReplacementApply id s) := by
  unfold execTableReplacementApply
  split
  · exact h
  · split
    · split
      · exact State.refuse_memWf (State.dropJob_memWf h)
      · exact event_wf h (memWf.ite (State.respond_memWf (State.onGang_memWf (State.dropJob_memWf h))) (State.refuse_memWf (State.dropJob_memWf h)))
    · exact h
theorem execRoutineInstall_wf {id : Nat} {s : State} (h : memWf s) : Res.Wf (execRoutineInstall id s) := by
  unfold execRoutineInstall
  split
  · exact h
  · split
    · exact memWf.ite (State.respond_memWf (State.dropJob_memWf h)) h
    · exact h

/-! ### Frames and commands of the host -/

theorem State.hubAccess_memWf {s : State} {ctx : BitVec 16} {preds : List Nat} {lines : List (Nat × List Host.Cell)} (h : memWf s) :
    memWf (s.hubAccess ctx preds lines).2 := memWf.foldl (fun _ _ ht => State.addWrite_memWf ht) h
theorem State.flushHub_memWf {s : State} (h : memWf s) : memWf s.flushHub.2 := by
  unfold State.flushHub
  extract_lets late ops
  have hlate : ∀ {t}, memWf t → memWf (late t) := fun ht =>
    memWf.foldl (fun _ _ hu => memWf.foldl (fun _ _ hv => Res.orElse_memWf hv (execWriteEventDelivery_wf hv)) hu) ht
  have hops : ∀ {x : Bool × State}, memWf x.2 → memWf (ops x).2 := fun hx =>
    memWf.foldl (fun _ _ hu => hlate (Res.orElse_memWf hu (execSconceOperationExecute_wf hu))) hx
  refine hops (memWf.foldl_snd (fun x i hx => ?_) (hlate h))
  dsimp only
  split
  · exact hx
  · split
    · split
      · exact hlate (Res.orElse_memWf hx (execWriteEventApply_wf hx))
      · exact hx
    · exact Res.orElse_memWf hx (execReadEventPerform_wf hx)
theorem State.answer_memWf {s : State} {opc : Byte} {status : W16} {seq : W32} {ctx : BitVec 16} {tag : W64} (h : memWf s) :
    memWf (s.answer opc status seq ctx tag) := h
theorem State.request_memWf {s : State} {seq : W32} {ctx : BitVec 16} {tag : W64} {bad flow : Bool} {r : InRec} {len : Nat} {run : State → State}
    (h : memWf s) (hrun : ∀ s, memWf s → memWf (run s)) :
    memWf (s.request seq ctx tag bad flow r len run) := by
  refine memWf.ite h (memWf.ite (State.answer_memWf h) (memWf.ite (State.answer_memWf h) (memWf.ite (State.answer_memWf h) (memWf.ite ?_ ?_))))
  · dsimp only
    split
    · exact (Steady.fwEvent ..).wf (State.answer_memWf (State.logInputAt_memWf h))
    · exact State.logInputAt_memWf h
  · refine hrun _ ?_
    split
    · exact (Steady.fwEvent ..).wf (State.answer_memWf (State.logInputAt_memWf h))
    · exact State.answer_memWf (State.logInputAt_memWf h)
theorem State.pend_memWf {s : State} {ctx : BitVec 16} {r : InRec} (h : memWf s) : memWf (s.pend ctx r) := h
theorem State.hostWrite_memWf {s : State} {seq : W32} {ctx : BitVec 16} {tag : W64} {off : Nat} {data : List Byte} {ben : List Bool} (h : memWf s) :
    memWf (s.hostWrite seq ctx tag off data ben) := by
  unfold State.hostWrite
  split
  · exact State.refuse_memWf h
  · exact memWf.ite (State.refuse_memWf h) (memWf.foldl (fun _ _ ht => State.addWrite_memWf ht) h)
theorem State.hostRead_memWf {s : State} {seq : W32} {ctx : BitVec 16} {tag : W64} {off len : Nat} (h : memWf s) :
    memWf (s.hostRead seq ctx tag off len) := by
  unfold State.hostRead
  split
  · exact State.refuse_memWf h
  · refine memWf.ite (State.refuse_memWf h) ?_
    split
    · exact State.refuse_memWf h
    · exact State.hostReadDone_memWf (memWf.foldl (fun _ _ ht => State.addRead_memWf ht) (memWf.foldl (fun _ _ ht => State.addWrite_memWf ht) h))
theorem execWrite_wf {seq : W32} {ctx : BitVec 16} {tag : W64} {offset : BitVec 30} {data : List Byte} {ben : Option (List Bool)} {s : State}
    (h : memWf s) :
    Res.Wf (execWrite seq ctx tag offset data ben s) := Res.Wf.ite h (State.request_memWf h (fun _ ht => State.hostWrite_memWf ht))
theorem execRead_wf {seq : W32} {ctx : BitVec 16} {tag : W64} {offset : BitVec 30} {len : BitVec 14} {s : State} (h : memWf s) :
    Res.Wf (execRead seq ctx tag offset len s) := State.request_memWf h (fun _ ht => State.hostRead_memWf ht)
theorem State.reply_memWf {s : State} {f : CmdFrame} {status : W16} {words : List Nat} (h : memWf s) : memWf (s.reply f status words) :=
  State.respond_memWf h
theorem State.deny_memWf {s : State} {f : CmdFrame} {rule : Nat} (h : memWf s) : memWf (s.deny f rule) := State.refuse_memWf h
theorem State.command_memWf {s : State} {f : CmdFrame} {fields : List (List (Nat × Nat))} {range : Ctx → Bool} {k : Ctx → State → State}
    (h : memWf s) (hk : ∀ x0 s, memWf s → memWf (k x0 s)) :
    memWf (s.command f fields range k) := by
  refine memWf.ite (State.deny_memWf h) ?_
  split
  · exact State.reply_memWf h
  · exact memWf.ite (hk _ _ h) (State.reply_memWf h)
theorem State.addCtx_memWf {s : State} {c : Ctx} (h : memWf s) : memWf (s.addCtx c) := (Steady.writeCaps ..).wf h
theorem State.ctxCreate_memWf {s : State} {f : CmdFrame} (h : memWf s) : memWf (s.ctxCreate f) := by
  refine memWf.ite (State.deny_memWf h) (memWf.ite (State.reply_memWf h) ?_)
  dsimp only
  split
  · exact State.deny_memWf h
  · exact State.reply_memWf (State.addCtx_memWf h)
theorem State.discard_memWf {s : State} {c : BitVec 16} (h : memWf s) : memWf (s.discard c) :=
  memWf.foldl (fun _ _ ht => State.report_memWf ht) (memWf.foldl (fun _ _ ht => State.report_memWf ht) (memWf.foldl
    (fun _ _ ht => State.report_memWf ht) (memWf.foldl (fun _ _ ht => State.report_memWf ht) h)))
theorem State.tearDown_memWf {s : State} {f : CmdFrame} {c : Ctx} {answer : Bool} (h : memWf s) : memWf (s.tearDown f c answer) := by
  unfold State.tearDown
  extract_lets t
  have ht : memWf t := State.setCtx_memWf h
  clear_value t
  have hu : memWf ((t.discard c.id).faultCtx c.id) := State.faultCtx_memWf (State.discard_memWf ht)
  generalize (t.discard c.id).faultCtx c.id = u at hu
  exact hu
theorem State.reapGroups_memWf {s : State} (h : memWf s) : memWf s.reapGroups :=
  memWf.foldl (fun _ _ ht => (Steady.endGroup ..).wf ((Steady.abandonWaits ..).wf ht)) h
theorem State.reapCtx_memWf {s : State} {c : Ctx} (h : memWf s) : memWf (s.reapCtx c) := by
  refine memWf.ite h (memWf.foldl (fun t x ht => ?_) h)
  split
  · exact ht
  · exact State.respond_memWf ht
  · exact State.refuse_memWf ht
theorem State.reap_memWf {s : State} (h : memWf s) : memWf s.reap := memWf.foldl (fun _ _ ht => State.reapCtx_memWf ht) (State.reapGroups_memWf h)
theorem State.ctxDestroy_memWf {s : State} {f : CmdFrame} (h : memWf s) : memWf (s.ctxDestroy f) :=
  State.command_memWf h (fun _ _ ht => State.reap_memWf (State.tearDown_memWf ht))
theorem State.codeLoad_memWf {s : State} {f : CmdFrame} (h : memWf s) : memWf (s.codeLoad f) := by
  refine State.command_memWf h ?_
  intro x t ht
  dsimp only
  split
  · exact State.deny_memWf ht
  · split
    · exact State.reply_memWf (State.noteRegion_memWf ht)
    · exact memWf.ite (State.deny_memWf (State.noteRegion_memWf ht)) (State.reply_memWf (State.noteRegion_memWf ht))
theorem State.codeUnload_memWf {s : State} {f : CmdFrame} (h : memWf s) : memWf (s.codeUnload f) := by
  refine State.command_memWf h ?_
  intro x t ht
  dsimp only
  split
  · exact State.deny_memWf ht
  · exact State.reply_memWf ht
theorem State.tryJob_memWf {s : State} {id : Nat} (h : memWf s) : memWf (s.tryJob id) := by
  unfold State.tryJob
  split
  · exact h
  · split
    · exact Res.orElse_memWf h (execInvalidationComplete_wf h)
    · exact Res.orElse_memWf h (execRegionChangeApply_wf h)
    · exact Res.orElse_memWf h (execTableReplacementApply_wf h)
    · exact Res.orElse_memWf h (execRoutineInstall_wf h)
    · split
      · exact State.refuse_memWf (State.dropJob_memWf h)
      · refine memWf.ite ?_ h
        dsimp only
        split
        · exact State.arbitrateIdle_memWf (State.respond_memWf ((Steady.focusGang ..).wf (State.returnFromStop_memWf ((Steady.focusGang ..).wf
            (State.dropJob_memWf h)))))
        · exact State.waitEvicted_memWf (State.onGang_memWf (State.respond_memWf ((Steady.focusGang ..).wf (State.returnFromStop_memWf
            ((Steady.focusGang ..).wf (State.dropJob_memWf h))))))
    · exact h
theorem State.addAndTry_memWf {s : State} {f : CmdFrame} {j : Job} (h : memWf s) : memWf (s.addAndTry f j) := State.tryJob_memWf h
theorem State.regionSet_memWf {s : State} {f : CmdFrame} (h : memWf s) : memWf (s.regionSet f) := by
  refine State.command_memWf h ?_
  intro x t ht
  split
  · exact State.deny_memWf ht
  · exact State.addAndTry_memWf (State.noteVa_memWf ht)
theorem State.invalidate_memWf {s : State} {f : CmdFrame} (h : memWf s) : memWf (s.invalidate f) :=
  State.command_memWf h (fun _ _ ht => State.addAndTry_memWf ht)
theorem State.routineSet_memWf {s : State} {f : CmdFrame} (h : memWf s) : memWf (s.routineSet f) := by
  refine State.command_memWf h ?_
  intro x t ht
  split
  · exact State.deny_memWf ht
  · exact State.addAndTry_memWf (State.noteRegion_memWf ht)
theorem State.tableSet_memWf {s : State} {f : CmdFrame} (h : memWf s) : memWf (s.tableSet f) := by
  refine State.command_memWf h ?_
  intro x t ht
  dsimp only
  split
  · exact State.deny_memWf ht
  · split
    · exact State.deny_memWf ht
    · exact memWf.ite (State.deny_memWf (State.noteRegion_memWf ht)) (State.addAndTry_memWf (State.noteRegion_memWf ht))
theorem State.queueSet_memWf {s : State} {f : CmdFrame} (h : memWf s) : memWf (s.queueSet f) :=
  State.command_memWf h (fun _ _ ht => memWf.ite (State.deny_memWf ht) (State.reply_memWf (State.setQueue_memWf ht)))
theorem State.preempt_memWf {s : State} {f : CmdFrame} (h : memWf s) : memWf (s.preempt f) :=
  State.command_memWf h (fun _ _ ht => memWf.ite (State.deny_memWf ht) (State.reply_memWf (State.askPreempt_memWf ht)))
theorem State.resume_memWf {s : State} {f : CmdFrame} (h : memWf s) : memWf (s.resume f) := by
  refine State.command_memWf h ?_
  intro x t ht
  dsimp only
  split
  · exact State.deny_memWf ht
  · split
    · exact State.deny_memWf ht
    · exact memWf.ite (State.deny_memWf ht) (State.addAndTry_memWf ht)
theorem State.attest_memWf {s : State} {f : CmdFrame} (h : memWf s) : memWf (s.attest f) := by
  unfold State.attest
  extract_lets t b
  have ht : memWf t := by
    unfold t
    split
    · exact State.noteVa_memWf h
    · exact h
  exact State.sendOut_memWf ht
theorem State.freq_memWf {s : State} {f : CmdFrame} (h : memWf s) : memWf (s.freq f) :=
  State.command_memWf h (fun _ _ ht => memWf.ite (State.deny_memWf ht) (memWf.ite (State.deny_memWf ht) (State.reply_memWf
    (State.requestStep_memWf ht))))
theorem State.configWrite_memWf {s : State} {f : CmdFrame} (h : memWf s) : memWf (s.configWrite f) := by
  unfold State.configWrite
  split
  · exact memWf.ite (State.reply_memWf h) (State.reply_memWf h)
  · refine memWf.ite (State.reply_memWf h) ?_
    split
    · exact State.deny_memWf h
    · exact State.reply_memWf (State.noteRegion_memWf h)
theorem State.peerSet_memWf {s : State} {f : CmdFrame} (h : memWf s) : memWf (s.peerSet f) :=
  State.command_memWf h (fun _ _ ht => memWf.ite (State.deny_memWf ht) (State.reply_memWf (State.noteLines_memWf ht)))
theorem State.runCommand_memWf {s : State} {op : Byte} {f : CmdFrame} (h : memWf s) : memWf (s.runCommand op f) := by
  unfold State.runCommand
  have ht : memWf s.flushHub.2 := State.flushHub_memWf h
  generalize s.flushHub = x at ht
  obtain ⟨ok, t⟩ := x
  refine memWf.ite (State.pend_memWf ht) ?_
  split
  · exact State.ctxCreate_memWf ht
  · exact State.ctxDestroy_memWf ht
  · exact State.codeLoad_memWf ht
  · exact State.codeUnload_memWf ht
  · exact State.regionSet_memWf ht
  · exact State.invalidate_memWf ht
  · exact State.queueSet_memWf ht
  · exact State.preempt_memWf ht
  · exact State.resume_memWf ht
  · exact State.routineSet_memWf ht
  · exact State.tableSet_memWf ht
  · exact State.attest_memWf ht
  · exact State.freq_memWf ht
  · exact State.configWrite_memWf ht
  · exact State.peerSet_memWf ht
  · exact State.reply_memWf ht
theorem hostCommand_wf {op : Byte} {f : CmdFrame} {s : State} (h : memWf s) : Res.Wf (hostCommand op f s) :=
  State.request_memWf h (fun _ ht => State.runCommand_memWf ht)
theorem execHostFrame_wf {l : List Byte} {s : State} (h : memWf s) : Res.Wf (execHostFrame l s) := by
  unfold execHostFrame
  split
  · exact h
  · exact Res.Wf.ite h (Res.Wf.ite h (Res.Wf.ite h (Res.Wf.ite h (Res.Wf.ite h (Res.Wf.ite (execWrite_wf h) (Res.Wf.ite (execRead_wf h)
      (hostCommand_wf h)))))))
theorem execBackInvalidateSnoop_wf {line : Nat} {data : Option (List Byte)} {s : State} (h : memWf s) :
    Res.Wf (execBackInvalidateSnoop line data s) := by
  unfold execBackInvalidateSnoop
  refine event_wf h ?_
  dsimp only
  split
  · split
    · split
      · exact MemSys.putNow_wf h
      · exact MemSys.putNow_wf h
    · split
      · exact MemSys.putNow_wf h
      · exact MemSys.putNow_wf h
  · exact memWf.ite (State.recall_memWf h) h
theorem State.landReceive_memWf {s : State} {q : Nat} {data : List Byte} (h : memWf s) : memWf (s.landReceive q data) := by
  unfold State.landReceive
  split
  · exact h
  · split
    · exact h
    · split
      · exact h
      · exact memWf.foldl (fun _ _ ht => State.addWrite_memWf ht) (State.noteLines_memWf h)
theorem execScaleOutReceive_wf {peer : Nat} {seq : W32} {data : List Byte} {s : State} (h : memWf s) :
    Res.Wf (execScaleOutReceive peer seq data s) := by
  unfold execScaleOutReceive
  split
  · exact h
  · exact Res.Wf.ite h (Res.Wf.ite (State.landReceive_memWf (State.sendOut_memWf (State.updPeer_memWf (State.logInput_memWf h)))) (Res.Wf.ite h h))
theorem execScaleOutRetransmit_wf {peer : Nat} {s : State} (h : memWf s) : Res.Wf (execScaleOutRetransmit peer s) := by
  unfold execScaleOutRetransmit
  split
  · exact h
  · exact memWf.foldl (fun _ _ ht => State.sendOut_memWf ht) h
theorem execScaleOutAcknowledgement_wf {peer : Nat} {seq : W32} {s : State} (h : memWf s) : Res.Wf (execScaleOutAcknowledgement peer seq s) := by
  unfold execScaleOutAcknowledgement
  split
  · exact h
  · exact State.sendTodo_memWf (State.freeEgress_memWf (State.updPeer_memWf h))
theorem execPortFrame_wf {port : Nat} {l : List Byte} {s : State} (h : memWf s) : Res.Wf (execPortFrame port l s) := by
  unfold execPortFrame
  split
  · exact h
  · split
    · exact h
    · exact Res.Wf.ite h (Res.Wf.ite (execScaleOutAcknowledgement_wf h) (execScaleOutReceive_wf h))

/-! ### The LX -/

theorem execLx_wf {xa xb : BitVec 4} {rm : XRnd} {sat : Bool} {s : State} (h : memWf s) : Res.Wf (execLx xa xb rm sat s) := by
  unfold execLx
  extract_lets sd dd e0 e1 w ext n _ u
  have hu : memWf u := State.setGang_memWf h
  clear_value u
  split
  · exact raise_wf h
  · split
    · exact raise_wf h
    · split
      · exact raise_wf h
      · exact raise_wf h
      · next cs cd _ _ =>
        extract_lets o fmtBad
        split
        · exact raise_wf h
        · split
          next se ss _ =>
          split
          next de ds _ =>
          split
          · exact raise_wf h
          · exact raise_wf h
          · extract_lets o' v a b c
            have ha : memWf a := memWf.foldl (fun _ _ ht => State.charge_memWf ht) (State.setClu_memWf hu)
            have hb : memWf b := memWf.foldl (fun _ _ ht => State.charge_memWf ht) ha
            have hc : memWf c := memWf.foldl (fun _ _ ht => State.later_memWf ht) hb
            split
            · exact raise_wf h
            · exact State.later_memWf (State.later_memWf hc)
theorem State.lxSample_memWf {s : State} {id t : Nat} (h : memWf s) : memWf (s.lxSample id t) := by
  unfold State.lxSample
  split
  · exact h
  · exact State.notePoison_memWf (State.setClu_memWf h)
theorem State.lxResult_memWf {s : State} {id : Nat} (h : memWf s) : memWf (s.lxResult id) := by
  unfold State.lxResult
  split
  · exact h
  · exact memWf.foldl (fun _ _ ht => ht) h
theorem State.lxEnd_memWf {s : State} {id : Nat} (h : memWf s) : memWf (s.lxEnd id) := by
  unfold State.lxEnd
  split
  · exact h
  · exact State.setClu_memWf h

/-! ### Timed actions -/

theorem State.samplePort_memWf {s : State} {n arm k : Nat} {c : Cap} {ws : List Nat} (h : memWf s) : memWf (s.samplePort n arm k c ws) :=
  State.notePoison_memWf (memWf.ite h h)
theorem State.sampleLdt_memWf {s : State} {c : Cap} {k : Nat} {d : BitVec 5} {iss : Nat} (h : memWf s) : memWf (s.sampleLdt c k d iss) :=
  State.notePoison_memWf (memWf.ite (State.laterIss_memWf h) (State.laterIss_memWf (State.laterIss_memWf h)))
theorem State.doSample_memWf {s : State} {p : Pend} (h : memWf s) : memWf (s.doSample p) := by
  unfold State.doSample
  split
  · exact State.samplePort_memWf h
  · exact State.sampleLdt_memWf h
  · exact State.mxFetch_memWf h
  · exact State.gatherRead_memWf h
  · exact State.drainSample_memWf h
  · exact State.lxSample_memWf h
  · exact State.laterIss_memWf h
  · exact State.laterIss_memWf h
  · exact h
theorem State.writeTile_memWf {s : State} {c : Cap} {l : List BitUpd} (h : memWf s) : memWf (s.writeTile c l) := by
  unfold State.writeTile
  split
  · exact h
  · exact State.meet_memWf (State.setClu_memWf h)
theorem State.armPort_memWf {s : State} {n : Nat} {ps : Vector W64 5} {c : Cap} (h : memWf s) : memWf (s.armPort n ps c) := by
  unfold State.armPort State.setCore
  dsimp only
  split
  · exact h
  · exact h
theorem State.stageWrite_memWf {s : State} {port : BitVec 4} {i : BitVec 3} {v : W64} (h : memWf s) : memWf (s.stageWrite port i v) :=
  memWf.dite (fun _ => State.setCore_memWf h) (fun _ => h)
theorem State.doWrite_memWf {s : State} {p : Pend} (h : memWf s) : memWf (s.doWrite p) := by
  unfold State.doWrite
  dsimp only
  split
  · exact State.setCore_memWf h
  · exact State.setCore_memWf h
  · exact State.setCore_memWf h
  · exact State.setCore_memWf h
  · exact State.setCore_memWf h
  · exact State.setCore_memWf h
  · exact State.setCore_memWf h
  · exact State.setCore_memWf h
  · exact State.setCore_memWf h
  · exact State.setCore_memWf h
  · exact State.setCore_memWf h
  · exact State.setCore_memWf h
  · exact State.setCore_memWf h
  · exact State.stageWrite_memWf h
  · exact State.stageWrite_memWf h
  · exact State.setCore_memWf h
  · exact State.fwWrite_memWf h
  · exact State.writeTile_memWf h
  · exact State.setClu_memWf h
  · exact State.setClu_memWf h
  · exact State.setClu_memWf h
  · exact State.armPort_memWf h
  · exact State.setMxu_memWf h
  · exact State.setMxu_memWf h
  · exact h
  · exact State.mxStep_memWf h
  · exact State.mxEnd_memWf h
  · exact State.drainEnd_memWf h
  · exact State.gatherSet_memWf h
  · exact memWf.ite (State.lxResult_memWf h) (State.lxEnd_memWf h)
  · exact h
  · exact h
  · exact h
  · exact h
  · exact h
  · exact h
  · exact h
  · exact h
theorem State.samplePhase_memWf {s : State} (h : memWf s) : memWf s.samplePhase := memWf.foldl (fun _ _ ht => State.doSample_memWf ht) h
theorem State.writePhase_memWf {s : State} (h : memWf s) : memWf s.writePhase := memWf.foldl (fun _ _ ht => State.doWrite_memWf ht) h
theorem State.regWrite_memWf {s : State} {r : Nat} {v : W64} (h : memWf s) : memWf (s.regWrite r v) := by
  unfold State.regWrite
  split
  · exact State.doWrite_memWf h
  · exact h

/-! ### Seals -/

theorem State.takeSnapshot_memWf {s : State} (h : memWf s) : memWf s.takeSnapshot := memWf.ite h h
theorem State.freeInputs_memWf {s : State} {n : W32} (h : memWf s) : memWf (s.freeInputs n) := h
theorem State.relabel_memWf {s : State} (h : memWf s) : memWf s.relabel := h
theorem State.releaseHeld_memWf {s : State} {n : W32} (h : memWf s) : memWf (s.releaseHeld n) :=
  memWf.foldl (fun _ _ ht => State.sendTodo_memWf ht) (State.recountEgress_memWf (memWf.foldl (fun _ _ ht => State.release_memWf ht) (memWf.foldl
    (fun _ _ ht => State.readArea_memWf ht) h)))
theorem State.perform_memWf {s : State} {r : InLog} (h : memWf s) : memWf (s.perform r) := by
  unfold State.perform
  split
  · exact State.hostWrite_memWf h
  · exact State.hostRead_memWf h
  · exact State.runCommand_memWf h
  · exact State.landReceive_memWf h
  · exact h
theorem State.performPending_memWf {s : State} (h : memWf s) : memWf s.performPending :=
  memWf.foldl (fun _ _ ht => memWf.ite (State.perform_memWf ht) ht) h
theorem State.resumeSealed_memWf {s : State} (h : memWf s) : memWf s.resumeSealed :=
  memWf.foldl (fun _ _ ht => (Steady.serveGang ..).wf ht) (State.mapGangs_memWf h)
theorem State.rearm_memWf {s : State} (h : memWf s) : memWf s.rearm := memWf.foldl (fun _ _ ht => memWf.ite (State.soon_memWf ht) ht) h
theorem State.commitSeal_memWf {s : State} (h : memWf s) : memWf s.commitSeal :=
  State.performPending_memWf (State.rearm_memWf (State.resumeSealed_memWf (State.releaseHeld_memWf (State.relabel_memWf (State.freeInputs_memWf
    (State.takeSnapshot_memWf h))))))
theorem State.dropStalled_memWf {s : State} {c : BitVec 16} (h : memWf s) : memWf (s.dropStalled c) := MemSys.settle_wf h
theorem State.dropTorn_memWf {s : State} (h : memWf s) : memWf s.dropTorn := memWf.ite (memWf.foldl (fun _ _ ht => State.dropStalled_memWf ht) h) h
theorem State.sealTimeout_memWf {s : State} {gid : Nat} (h : memWf s) : memWf (s.sealTimeout gid) := by
  unfold State.sealTimeout
  dsimp only
  split
  · exact h
  · exact memWf.ite h (State.tearDown_memWf (State.dropStalled_memWf ((Steady.focusGang ..).wf ((Steady.fwEvent ..).wf ((Steady.notifyFault ..).wf
      ((Steady.logFault ..).wf ((Steady.focusGang ..).wf h)))))))
theorem execSealokBoundExpiry_wf {s : State} (h : memWf s) : Res.Wf (execSealokBoundExpiry s) := event_wf h (State.sealTimeout_memWf h)

/-! ### Errors, rollback and reset -/

theorem State.hurtCode_memWf {s : State} {line core : Nat} (h : memWf s) : memWf (s.hurtCode line core) :=
  memWf.foldl (fun _ _ ht => State.onBox_memWf ht) h
theorem execLatentCodeRewrite_wf {line : Nat} {s : State} (h : memWf s) : Res.Wf (execLatentCodeRewrite line s) := by
  unfold execLatentCodeRewrite
  split
  · exact h
  · exact State.memWf_at h (fun _ ht => State.setCore_memWf ht)
theorem State.strike_memWf {s : State} {k i : Nat} (h : memWf s) : memWf (s.strike k i) := memWf.dite (fun _ => h) (fun _ => h)
theorem State.damage_memWf {s : State} {u : UeSite} (h : memWf s) : memWf (s.damage u) := by
  unfold State.damage
  dsimp only
  split
  · split
    · exact State.strike_memWf h
    · exact h
  · split
    · exact State.strike_memWf h
    · exact h
  · split
    · exact State.strike_memWf h
    · exact h
  · exact h
  · exact memWf.ite h h
  · exact State.strike_memWf h
  · split
    · exact memWf.foldl (fun _ _ ht => (Steady.fwEvent ..).wf ht) (State.retireLink_memWf h)
    · exact h
  · exact h
theorem State.recordUe_memWf {s : State} {u : UeSite} {disp : Nat} {ctx : BitVec 16} (h : memWf s) : memWf (s.recordUe u disp ctx) :=
  (Steady.fwEvent ..).wf ((Steady.notifyFault ..).wf ((Steady.logFault ..).wf h))
theorem State.faultByUe_memWf {s : State} {u : UeSite} {c : BitVec 16} (h : memWf s) : memWf (s.faultByUe u c) := State.recordUe_memWf h
theorem State.ue_memWf {s : State} {u : UeSite} (h : memWf s) : memWf (s.ue u) :=
  memWf.ite (memWf.ite (State.soon_memWf h) (State.soon_memWf (State.recordUe_memWf h))) (memWf.foldl (fun _ _ ht => State.faultByUe_memWf ht) h)
theorem State.faultAll_memWf {s : State} {u : UeSite} (h : memWf s) : memWf (s.faultAll u) := memWf.foldl (fun _ _ ht => State.faultByUe_memWf ht) h
theorem execDataUe_wf {u : UeSite} {s : State} (h : memWf s) : Res.Wf (execDataUe u s) := by
  unfold execDataUe
  split
  · exact State.hurtCode_memWf h
  · exact State.damage_memWf h
  · exact State.ue_memWf (State.damage_memWf h)
theorem State.loseFar_memWf {s : State} {pkg : Nat} (h : memWf s) : memWf (s.loseFar pkg) := MemSys.settle_wf h
theorem State.loseAllFar_memWf {s : State} (h : memWf s) : memWf s.loseAllFar := memWf.foldl (fun _ _ ht => State.loseFar_memWf ht) h
theorem execPeerLossDeclared_wf {pkg : Nat} {s : State} (h : memWf s) : Res.Wf (execPeerLossDeclared pkg s) := by
  refine Res.Wf.ite (memWf.ite (State.ue_memWf h) (State.loseFar_memWf h)) ?_
  split
  · exact h
  · refine State.sendTodo_memWf (State.freeEgress_memWf ((Steady.fwEvent ..).wf ((Steady.notifyFault ..).wf ((Steady.logFault ..).wf ?_))))
    split
    · exact State.setCtx_memWf (State.updPeer_memWf h)
    · exact State.updPeer_memWf h
theorem MemSys.movePage_wf {m : MemSys} {old new : Nat} (h : m.bytes.wf = true) : (m.movePage old new).bytes.wf = true :=
  Memory.wf_store _ (Memory.wf_filter (fun a => a / 2 ^ 21 != new / 2 ^ 21) h)
theorem execPageMigrationSwap_wf {ctx vpn frame : Nat} {s : State} (h : memWf s) : Res.Wf (execPageMigrationSwap ctx vpn frame s) := by
  unfold execPageMigrationSwap
  -- The address stays a variable, for a check that looks into the walk would count `vpn * 2 ^ 21` up from 0.
  obtain ⟨va, hva⟩ : ∃ va, va = vpn * 2 ^ 21 := ⟨_, rfl⟩
  rw [← hva]
  split
  · exact h
  · split
    · exact h
    · next c _ e _ =>
      extract_lets old still at_
      clear_value still at_
      refine event_wf h ?_
      extract_lets sites t u
      have ht : memWf t := memWf.mem (MemSys.movePage_wf h)
      clear_value t sites
      have hu : memWf u := memWf.foldl (fun _ _ hv => (Steady.storePa ..).wf hv) ht
      clear_value u
      exact memWf.foldl (fun _ _ hv => State.clearTlb_memWf hv) hu
theorem MemSys.abandon_wf {m : MemSys} (h : m.bytes.wf = true) : m.abandon.bytes.wf = true :=
  List.foldlRecOn (motive := fun b => Memory.wf b = true) m.wlog _ h fun _ hb e _ => Memory.wf_store e.cells.reverse hb
theorem MemSys.undoOne_wf {m : MemSys} {ri : W32} {u : Undo} (h : m.bytes.wf = true) : (m.undoOne ri u).bytes.wf = true := by
  unfold MemSys.undoOne
  have hw : (m.bytes.write u.addr u.old).wf = true := Memory.wf_write _ _ h
  split
  · exact h
  · split
    · exact hw
    · exact MemSys.setTag_wf (m := { m with bytes := m.bytes.write u.addr u.old }) hw
theorem MemSys.undoAll_wf {m : MemSys} {ri : W32} (h : m.bytes.wf = true) : (m.undoAll ri).bytes.wf = true :=
  MemSys.foldl_wf (fun _ _ ht => MemSys.foldl_wf (fun _ _ hu => MemSys.undoOne_wf hu) ht) h
theorem State.markFaults_memWf {s : State} {l : List (BitVec 16)} (h : memWf s) : memWf (s.markFaults l) :=
  memWf.foldl (fun _ _ ht => State.faultCtx_memWf ht) h
theorem State.reload_memWf {s : State} (h : memWf s) : memWf s.reload := by
  unfold State.reload
  dsimp only
  split
  · exact h
  · exact h
theorem State.replaceGang_memWf {s : State} {place : List (Nat × List Nat)} {src : UeSite} {gid : Nat} (h : memWf s) :
    memWf (s.replaceGang place src gid) := by
  unfold State.replaceGang
  split
  · exact h
  · refine memWf.ite h (memWf.ite (State.faultByUe_memWf h) ?_)
    split
    · exact State.joinSet_memWf (State.onBox_memWf ((Steady.leaveSet ..).wf h))
    · refine memWf.ite (memWf.ite ?_ ?_) (State.onGang_memWf h)
      · refine State.onGang_memWf ?_
        split
        · exact (Steady.writeSave ..).wf (State.onGang_memWf ((Steady.leaveSet ..).wf h))
        · exact State.onGang_memWf ((Steady.leaveSet ..).wf h)
      · refine State.waitEvicted_memWf ?_
        split
        · exact (Steady.writeSave ..).wf (State.onGang_memWf ((Steady.leaveSet ..).wf h))
        · exact State.onGang_memWf ((Steady.leaveSet ..).wf h)
theorem State.retireBad_memWf {s : State} (h : memWf s) : memWf s.retireBad := h
theorem State.loseBad_memWf {s : State} {src : UeSite} (h : memWf s) : memWf (s.loseBad src) := memWf.foldl (fun _ _ ht => State.faultByUe_memWf ht) h
theorem State.replayInputs_memWf {s : State} {l todo : List InLog} (h : memWf s) : memWf (s.replayInputs l todo) :=
  memWf.foldl (fun _ _ ht => memWf.ite (State.perform_memWf ht) ht) h
theorem State.rollback_memWf {s : State} {place : List (Nat × List Nat)} (h : memWf s) : memWf (s.rollback place) := by
  unfold State.rollback
  extract_lets src kept lost todo t log _ _ u v w x y z a b c
  have ht : memWf t := State.retireBad_memWf (memWf.foldl (fun _ _ h => (Steady.wornOut ..).wf h) h)
  have hu : memWf u := MemSys.undoAll_wf (MemSys.abandon_wf ht)
  have hv : memWf v := State.recountEgress_memWf (State.reload_memWf (State.retireBad_memWf hu))
  have hw : memWf w := memWf.foldl (fun _ _ h => State.readArea_memWf h) hv
  have hx : memWf x := memWf.foldl (fun _ _ h => State.replaceGang_memWf h) hw
  have hz : memWf z := State.markFaults_memWf (State.flushHub_memWf (State.replayInputs_memWf (State.loseBad_memWf hx)))
  have ha : memWf a := by
    clear_value z lost
    unfold a
    split
    · exact State.faultAll_memWf hz
    · exact hz
  have hc : memWf c := memWf.foldl (fun _ _ h => State.arbitrateIdle_memWf h) (State.resumeSealed_memWf (State.rearm_memWf ha))
  clear_value c
  exact memWf.foldl (fun _ _ h => State.sendTodo_memWf h) hc
theorem execRollback_wf {place : List (Nat × List Nat)} {s : State} (h : memWf s) : Res.Wf (execRollback place s) :=
  event_wf h (State.rollback_memWf h)
theorem execColdReset_wf {sigOk cfgOk : Bool} {s : State} (h : memWf s) : Res.Wf (execColdReset sigOk cfgOk s) := by
  have hs : Memory.wf (s.mem.bytes.filter fun c => isShared c.1) = true := Memory.wf_filter isShared h
  unfold execColdReset
  extract_lets r boot cok cfg shared lease
  change (if boot then Memory.write shared (syncAt 4 0) (toBytes 8 lease) else shared).wf = true
  split
  · exact Memory.wf_write _ _ hs
  · exact hs

end Sys2Proof.Machine
end

section
/-! PROOF. What a step keeps of the memory's canonical form: V-slot forms, bundles, cycles and steps (08; 09; 12; O60). -/

namespace Sys2Proof.Machine

/-! ### The end of a chain -/

theorem State.rewriteEntry_memWf {s : State} (h : memWf s) : memWf s.rewriteEntry := h
theorem State.endChain_memWf {s : State} (h : memWf s) : memWf s.endChain :=
  memWf.ite (State.setCore_memWf (memWf.ite h (State.readCode_memWf h))) (memWf.ite (memWf.ite (State.setCore_memWf h) (State.abstain_memWf h)) h)
theorem State.dropFrame_memWf {s : State} (h : memWf s) : memWf s.dropFrame := by
  unfold State.dropFrame
  extract_lets f t u
  have ht : memWf t := Res.orElse_memWf h (execLinkMatching_wf h)
  have hu : memWf u := memWf.foldl (fun _ _ hv => (Steady.focus ..).wf (State.onIssue_memWf (State.setCore_memWf ((Steady.focus ..).wf hv)))) ht
  clear_value u
  exact State.setGang_memWf hu

/-! ### Floating-point V-slot forms -/

theorem vec1_wf {o : Un} {lat : Nat} {int : Bool} {f : W32 → W32 × Fl} {s : State} (h : memWf s) : Res.Wf (vec1 o lat int f s) :=
  State.withSrcs_wf h (fun _ _ ht => State.vput_wf ht)
theorem vec2_wf {o : Bin} {lat : Nat} {intX intY : Bool} {f : W32 → W32 → W32 × Fl} {s : State} (h : memWf s) : Res.Wf (vec2 o lat intX intY f s) :=
  State.withSrcs_wf h (fun _ _ ht => State.vput_wf ht)
theorem vec3_wf {o : Tri} {lat : Nat} {int : Bool} {f : W32 → W32 → W32 → W32 × Fl} {s : State} (h : memWf s) : Res.Wf (vec3 o lat int f s) :=
  State.withSrcs_wf h (fun _ _ ht => State.vput_wf ht)
theorem execFcvt_wf {o : Un} {isI : Bool} {tgt : BitVec 4} {r : CvtRnd} {sat : Bool} {s : State} (h : memWf s) :
    Res.Wf (execFcvt o isI tgt r sat s) := by
  unfold execFcvt
  extract_lets fmt rows md isF
  refine State.withSrcs_wf h fun vs t ht => ?_
  extract_lets x rw row m old keepE
  have hkeep : ∀ {q new lat}, Res.Wf q → Res.Wf (keepE q new lat) := by
    intro q new lat hq
    unfold keepE
    split
    · exact State.later_memWf hq
    · exact hq
  clear_value keepE
  exact Res.Wf.ite (hkeep (State.vput_wf ht)) (Res.Wf.ite (hkeep (State.vput_wf ht)) (State.vput_wf ht))

/-! ### Integer V-slot forms -/

theorem int2_wf {o : Bin} {lat : Nat} {f : W32 → W32 → W32} {s : State} (h : memWf s) : Res.Wf (int2 o lat f s) := vec2_wf h
theorem int1_wf {o : Un} {f : W32 → W32} {s : State} (h : memWf s) : Res.Wf (int1 o f s) := vec1_wf h
theorem reduce_wf {o : Un} {lat : Nat} {int : Bool} {f : (Nat → Bool) → Lanes → W32 × Fl} {s : State} (h : memWf s) :
    Res.Wf (reduce o lat int f s) := State.withSrcs_wf h (fun _ _ ht => State.vput_wf ht)
theorem scan_wf {o : Un} {lat : Nat} {int excl : Bool} {idt : W32} {f : (Nat → Bool) → Lanes → W32 × Fl} {s : State} (h : memWf s) :
    Res.Wf (scan o lat int excl idt f s) := State.withSrcs_wf h (fun _ _ ht => State.vput_wf ht)

/-! ### Movement and masks -/

theorem moveLanes_wf {o : Un} {f : Nat → Nat} {s : State} (h : memWf s) : Res.Wf (moveLanes o f s) :=
  State.withSrcs_wf h (fun _ _ ht => State.vput_wf ht)
theorem mask2_wf {o : Msk2} {f : W64 → W64 → W64} {s : State} (h : memWf s) : Res.Wf (mask2 o f s) := State.mput_wf h

/-! ### Instructions and events -/

/-- In the order of the opcode table: an instruction of a shared kind by the lemma of its kind. -/
theorem exec_wf {i : Instr} {s : State} (h : memWf s) : Res.Wf (exec i s) := by
  unfold exec
  split
  · exact h
  · exact branchTo_wf h
  · exact h
  · exact h
  · exact branchTo_wf h
  · exact loopEntry_wf h
  · exact loopEntry_wf h
  · exact execBrkLoop_wf h
  · exact h
  · exact h
  · exact h
  · exact h
  · exact h
  · exact execSign_wf h
  · exact execHalt_wf h
  · exact Res.Wf.ite h h
  · exact memWf.ite (State.pressSeal_memWf h) ((Steady.requestSeal ..).wf h)
  · exact memWf.ite h h
  · exact Res.Wf.ite (overrunWait_wf h) (Res.Wf.ite h h)
  · exact h
  · exact execWaita_wf h
  · exact execFence_wf h
  · exact raise_wf h
  · exact raise_wf h
  · exact Res.Wf.ite (raise_wf h) (Res.Wf.ite h (memWf.ite (State.advanceTime_memWf h) h))
  · exact execSyswr_wf h
  · exact h
  · exact h
  · exact h
  · exact h
  · exact h
  · exact h
  · exact h
  · exact h
  · exact h
  · exact h
  · exact State.laterAll_memWf h
  · exact h
  · exact h
  · exact h
  · exact h
  · exact h
  · exact h
  · exact h
  · exact h
  · exact h
  · exact h
  · exact h
  · exact h
  · exact h
  · exact compareTo_wf h
  · exact h
  · exact h
  · exact h
  · exact h
  · exact h
  · exact h
  · exact h
  · exact h
  · exact h
  · exact h
  · exact h
  · exact h
  · exact compareTo_wf h
  · exact h
  · exact h
  · exact execLdt_wf h
  · exact execStt_wf h
  · exact execFld_wf h
  · exact execFst_wf h
  · exact h
  · exact execGenArm_wf h
  · exact Res.Wf.ite (raise_wf h) (Res.Wf.ite (raise_wf h) (Res.Wf.ite h h))
  · exact execTfree_wf h
  · exact h
  · exact h
  · exact h
  · exact h
  · exact h
  · exact vec2_wf h
  · exact vec2_wf h
  · exact vec2_wf h
  · exact vec3_wf h
  · exact vec3_wf h
  · exact vec2_wf h
  · exact vec2_wf h
  · exact vec1_wf h
  · exact vec1_wf h
  · exact State.withSrcs_wf h (fun _ _ ht => State.vput_wf ht)
  · exact vec1_wf h
  · exact State.withSrcs_wf h (fun _ _ ht => State.mput_wf ht)
  · exact vec1_wf h
  · exact vec1_wf h
  · exact vec1_wf h
  · exact vec1_wf h
  · exact vec1_wf h
  · exact vec1_wf h
  · exact execFcvt_wf h
  · exact vec1_wf h
  · exact vec2_wf h
  · exact int2_wf h
  · exact int2_wf h
  · exact int2_wf h
  · exact int2_wf h
  · exact int2_wf h
  · exact int2_wf h
  · exact int2_wf h
  · exact int2_wf h
  · exact int2_wf h
  · exact int2_wf h
  · exact int2_wf h
  · exact int2_wf h
  · exact int2_wf h
  · exact int2_wf h
  · exact int2_wf h
  · exact int2_wf h
  · exact int2_wf h
  · exact int2_wf h
  · exact int1_wf h
  · exact int1_wf h
  · exact int1_wf h
  · exact State.withSrcs_wf h (fun _ _ ht => State.mput_wf ht)
  · exact vec3_wf h
  · exact reduce_wf h
  · exact reduce_wf h
  · exact reduce_wf h
  · exact reduce_wf h
  · exact reduce_wf h
  · exact reduce_wf h
  · exact scan_wf h
  · exact scan_wf h
  · exact scan_wf h
  · exact scan_wf h
  · exact atomic_wf h (State.vput_wf h)
  · exact State.withSrcs_wf h (fun _ _ ht => State.vput_wf ht)
  · exact State.withSrcs_wf h (fun _ _ ht => State.vput_wf ht)
  · exact State.withSrcs_wf h (fun _ _ ht => State.vput_wf ht)
  · exact State.withSrcs_wf h (fun _ _ ht => State.vput_wf ht)
  · exact moveLanes_wf h
  · exact atomic_wf h (State.vput_wf h)
  · exact moveLanes_wf h
  · exact State.withSrcs_wf h (fun _ _ ht => ht)
  · exact moveLanes_wf h
  · exact mask2_wf h
  · exact mask2_wf h
  · exact mask2_wf h
  · exact State.mput_wf h
  · exact mask2_wf h
  · exact State.withSrcs_wf h (fun _ _ ht => State.mput_wf ht)
  · exact atomic_wf h (State.vput_wf h)
  · exact atomic_wf h (State.vput_wf h)
  · exact h
  · exact h
  · exact execMcall_wf h
  · exact Res.Wf.ite (raise_wf h) h
  · exact Res.Wf.ite (raise_wf h) h
  · exact h
  · exact execMdrain_wf h
  · exact execMgidx_wf h
  · exact Res.Wf.ite (raise_wf h) h
  · exact h
  · exact h
  · exact h
  · exact h
  · exact h
  · exact blockTransfer_wf h
  · exact blockTransfer_wf h
  · exact blockTransfer_wf h
  · exact withSched_wf h (fun _ => releaseFrom_wf h)
  · exact withSched_wf h (fun _ => releaseFrom_wf h)
  · exact execLx_wf h
  · exact at1_wf h
  · exact at2_wf h
  · exact at2_wf h
  · exact at2_wf h
  · exact at2_wf h
  · exact at2_wf h
  · exact at2_wf h
  · exact at2_wf h
  · exact at2_wf h
  · exact at2_wf h
  · exact at2_wf h
  · exact at2_wf h
  · exact at2_wf h
  · exact at1_wf h
  · exact at1_wf h
  · exact at1_wf h
  · exact execSbWait_wf h
  · exact execCqPop_wf h
  · exact counted_wf h (fun _ ht => State.accept_memWf ht)
  · exact counted_wf h (fun _ ht => State.accept_memWf ht)
  · exact h
  · exact transmit_wf h
  · exact execRecv_wf h
  · exact execRelay_wf h
  · exact transmit_wf h
  · exact execLchk_wf h
  · exact event_wf h (State.dropFrame_memWf h)
  · exact event_wf h (State.setCore_memWf h)
  · exact execWaitbSatisfied_wf h
  · exact execSbWaitSatisfied_wf h
  · exact execWaitaRecall_wf h
  · exact execWaitaLimitExpiry_wf h
  · exact execFarAccessReturn_wf h
  · exact execFenceWaitEnd_wf h
  · exact execWriteEventApply_wf h
  · exact execWriteEventDelivery_wf h
  · exact execReadEventPerform_wf h
  · exact execSconceOperationExecute_wf h
  · exact execReplyWrite_wf h
  · exact execCommandComplete_wf h
  · exact execCompletionRecordWrite_wf h
  · exact execTagSweepVisit_wf h
  · exact event_wf h (memWf.ite h (memWf.ite h h))
  · exact h
  · exact execLinkMatching_wf h
  · exact execLinkRetry_wf h
  · exact execLinkInterfaceArrival_wf h
  · exact execLinkFailure_wf h
  · exact execCoreArrival_wf h
  · exact execLastArrival_wf h
  · exact execPhaseStart_wf h
  · exact execSlackChainStart_wf h
  · exact execPhaseHang_wf h
  · exact State.pressSeal_memWf h
  · exact event_wf h ((Steady.requestSeal ..).wf h)
  · exact event_wf h ((Steady.requestSeal ..).wf h)
  · exact event_wf h (memWf.foldl (fun _ _ ht => (Steady.fwEvent ..).wf ht) (State.mapGangs_memWf h))
  · exact event_wf h h
  · exact event_wf h (State.commitSeal_memWf h)
  · exact execSealokBoundExpiry_wf h
  · exact event_wf h (memWf.foldl (fun _ _ ht => State.sealTimeout_memWf ht) h)
  · exact execPageMigrationSwap_wf h
  · exact execDataUe_wf h
  · exact execLatentCodeRewrite_wf h
  · exact execRollback_wf h
  · exact execPeerLossDeclared_wf h
  · exact (Steady.fwEvent ..).wf h
  · exact execHostRingTake_wf h
  · exact execIntakeToFifo_wf h
  · exact execLaunchCheck_wf h
  · exact execWaitvarLoad_wf h
  · exact execGroupPlacement_wf h
  · exact execGroupStart_wf h
  · exact execLaunchEnd_wf h
  · exact execGraphReplayStart_wf h
  · exact execHardPreemption_wf h
  · exact execGroupResume_wf h
  · exact execInvalidationComplete_wf h
  · exact execRegionChangeApply_wf h
  · exact execTableReplacementApply_wf h
  · exact execRoutineInstall_wf h
  · exact execWrite_wf h
  · exact execRead_wf h
  · exact hostCommand_wf h
  · exact hostCommand_wf h
  · exact hostCommand_wf h
  · exact hostCommand_wf h
  · exact hostCommand_wf h
  · exact hostCommand_wf h
  · exact hostCommand_wf h
  · exact hostCommand_wf h
  · exact hostCommand_wf h
  · exact hostCommand_wf h
  · exact hostCommand_wf h
  · exact hostCommand_wf h
  · exact hostCommand_wf h
  · exact hostCommand_wf h
  · exact hostCommand_wf h
  · exact execBackInvalidateSnoop_wf h
  · exact event_wf h h
  · exact execScaleOutReceive_wf h
  · exact execScaleOutRetransmit_wf h
  · exact execColdReset_wf h
  · exact execSvcFull_wf h
  · exact event_wf h ((Steady.freeSets ..).wf ((Steady.serveAll ..).wf (memWf.foldl (fun _ _ ht => (Steady.emit ..).wf
      ((Steady.writeCaps ..).wf ht)) (memWf.foldl (fun _ _ ht => State.reportStack_memWf ht) h))))
  · exact execClkctlReq_wf h
  · exact execClkctlCancel_wf h
  · exact execFrequencyChange_wf h
  · exact State.cancelChange_memWf h
  · exact execPowerSample_wf h
  · exact (Steady.fwEvent ..).wf ((Steady.fwEvent ..).wf ((Steady.fwEvent ..).wf ((Steady.fwEvent ..).wf ((Steady.fwEvent ..).wf
      (State.requestStep_memWf h)))))
  · exact h
  · exact execFwTimer_wf h
  · exact execFwTimerExpiry_wf h
  · exact execFwHaltWake_wf h
  · exact fws_wf h
  · exact fws_wf h
  · exact fws_wf h
  · exact fws_wf h
  · exact fws_wf h
  · exact fws_wf h
  · exact fws_wf h
  · exact fws_wf h
  · exact fws_wf h
  · exact fws_wf h
  · exact fws_wf h
  · exact fws_wf h
  · exact fws_wf h
  · exact fws_wf h
  · exact fws_wf h
  · exact fws_wf h
  · exact execFwsReply_wf h
  · exact execPatctlApply_wf h
  · exact execPatctlStart_wf h
  · exact execPatternTestDone_wf h
  · exact event_wf h (State.regWrite_memWf h)
  · exact execImplicitSignOff_wf h
  · exact execScaleOutAcknowledgement_wf h

/-! ### Bundles, cycles and turns -/

theorem issueSlots_wf {z : List Instr} {s : State} (h : memWf s) : (issueSlots z s).Wf := by
  induction z generalizing s with
  | nil => exact h
  | cons i l ih =>
    unfold issueSlots
    split
    · next t e =>
      have ht : memWf t := (exec_wf h).of_next e
      split
      · exact trivial
      · split
        · exact trivial
        · exact ih ht
    · exact ih h
theorem State.issueBundle_wf {s : State} (h : memWf s) : s.issueBundle.Wf := by
  unfold State.issueBundle
  split
  · exact h
  · split
    · exact trivial
    · exact h
    · next b _ _ =>
      split
      · exact trivial
      · have hi : (issueSlots (s.active b.slots) s).Wf := issueSlots_wf h
        split
        · next t e =>
          rw [e] at hi
          exact memWf.ite (State.onSign_memWf (State.setCore_memWf hi)) (State.onIssue_memWf (State.setCore_memWf hi))
        · exact hi
theorem State.takeIssueTraps_memWf {s : State} {l : List TrapRec} (h : memWf s) : memWf (s.takeIssueTraps l) :=
  memWf.foldl (fun _ _ ht => (Steady.focusId ..).wf (State.rewriteEntry_memWf ((Steady.focusId ..).wf ht))) (State.takeTraps_memWf h)
theorem issueAll_memWf {z : List Nat} {s : State} (h : memWf s) : memWf (issueAll z s).1 := by
  induction z generalizing s with
  | nil => exact h
  | cons r l ih =>
    have hb : (s.focus r).issueBundle.Wf := State.issueBundle_wf ((Steady.focus ..).wf h)
    unfold issueAll
    extract_lets t
    split
    · exact ih h
    · split
      · exact ih h
      · split
        · next u e =>
          rw [show (s.focus r).issueBundle = .done u from e] at hb
          exact ih hb
        · exact ih h
        · exact ih h
theorem State.register_memWf {s : State} {hs : List (Nat × Instr)} (h : memWf s) : memWf (s.register hs) :=
  (Steady.focus ..).wf (memWf.foldl (fun _ _ ht => Res.orElse_memWf ht (exec_wf ((Steady.focus ..).wf ht))) h)
theorem State.timedIssue_memWf {s : State} (h : memWf s) : memWf s.timedIssue.1 := by
  unfold State.timedIssue
  extract_lets f rs late
  have ht : memWf (issueAll rs s).1 := issueAll_memWf h
  split
  · exact h
  · split
    next t ts hs e =>
    split
    · exact State.register_memWf h
    · extract_lets u cs
      split
      · exact h
      · split
        · exact (Steady.focus ..).wf (memWf.of_fst ht e)
        · exact h
theorem State.delay_memWf {s : State} {rs : List Nat} (h : memWf s) : memWf (s.delay rs) :=
  memWf.foldl (fun _ _ ht => (Steady.focus ..).wf (State.setCore_memWf ((Steady.focus ..).wf ht))) h
theorem issueSlack_memWf {z : List Nat} {s : State} (h : memWf s) : memWf (issueSlack z s).1 := by
  induction z generalizing s with
  | nil => exact h
  | cons r l ih =>
    have hb : (s.focus r).issueBundle.Wf := State.issueBundle_wf ((Steady.focus ..).wf h)
    unfold issueSlack
    split
    · next u e =>
      rw [e] at hb
      exact ih (memWf.ite (State.delay_memWf h) ((Steady.focus ..).wf hb))
    · split
      · exact ih (State.delay_memWf h)
      · exact ih h
    · exact ih h
theorem State.slackIssue_memWf {s : State} {k : Nat} (h : memWf s) : memWf (s.slackIssue k).1 := by
  unfold State.slackIssue
  extract_lets inClu due isReady t rs
  have ht : memWf (issueSlack rs t).1 := issueSlack_memWf (State.delay_memWf h)
  split
  · exact h
  · split
    · exact State.delay_memWf h
    · split
      next u ts hs e =>
      split
      · exact (Steady.focus ..).wf (memWf.of_fst ht e)
      · exact State.delay_memWf (State.register_memWf (State.delay_memWf h))
theorem State.eachRank_memWf {s : State} {f : State → State} (h : memWf s) (hf : ∀ s, memWf s → memWf (f s)) : memWf (s.eachRank f) :=
  memWf.foldl (fun _ _ ht => (Steady.focus ..).wf (hf _ ((Steady.focus ..).wf ht))) h
theorem State.wake_memWf {s : State} (h : memWf s) : memWf s.wake := by
  refine State.eachRank_memWf h fun s h => ?_
  have h1 := Res.orElse_memWf h (execCoreArrival_wf h)
  have h2 := Res.orElse_memWf h1 (execFarAccessReturn_wf h1)
  have h3 := Res.orElse_memWf h2 (execWaitaRecall_wf h2)
  have h4 := Res.orElse_memWf h3 (execWaitaLimitExpiry_wf h3)
  exact Res.orElse_memWf h4 (execFwHaltWake_wf h4)
theorem State.chains_memWf {s : State} (h : memWf s) : memWf s.chains := by
  unfold State.chains
  extract_lets t u
  have ht : memWf t := State.eachRank_memWf h fun _ h => State.endChain_memWf h
  have hu : memWf u := State.eachRank_memWf ht fun _ h => memWf.ite h (Res.orElse_memWf h (execImplicitSignOff_wf h))
  exact memWf.ite (State.eachRank_memWf hu fun _ h => memWf.ite h (Res.orElse_memWf h (execSlackChainStart_wf h))) ht
theorem State.dropFrames_memWf {z : Nat} {s : State} (h : memWf s) : memWf (State.dropFrames z s) := by
  have ht : ∀ {s}, memWf s → memWf (Res.orElse s (execHardPreemption s)) := fun h => Res.orElse_memWf h (execHardPreemption_wf h)
  induction z generalizing s with
  | zero => exact ht h
  | succ n ih => exact memWf.ite (ih (State.chains_memWf (State.dropFrame_memWf (ht h)))) (ht h)
theorem State.issue_memWf {s : State} (h : memWf s) : memWf s.issue.1 := by
  unfold State.issue
  extract_lets t u
  have ht : memWf t := memWf.ite h (State.dropFrames_memWf h)
  have hu : memWf u := memWf.ite (Res.orElse_memWf ht (execLinkMatching_wf ht)) ht
  clear_value u
  split
  · exact hu
  · have hx : memWf (if u.isFw then (u, [], false) else u.timedIssue).1 := by
      split
      · exact hu
      · exact State.timedIssue_memWf hu
    generalize (if u.isFw then (u, ([] : List TrapRec), false) else u.timedIssue) = x at hx
    obtain ⟨v, ts, held⟩ := x
    have hy : memWf ((v.allClus.map (·.k)).foldl (fun x k => let (v, vs) := x.1.slackIssue k; (v, x.2 ++ vs)) (v, ([] : List TrapRec))).1 :=
      memWf.foldl_fst (fun _ _ hz => State.slackIssue_memWf hz) hx
    dsimp -zeta only
    generalize (v.allClus.map (·.k)).foldl (fun x k => let (v, vs) := x.1.slackIssue k; (v, x.2 ++ vs)) (v, ([] : List TrapRec)) = y at hy ⊢
    obtain ⟨w, us⟩ := y
    dsimp only
    split
    · exact hy
    · exact State.takeIssueTraps_memWf hy
    · exact State.takeIssueTraps_memWf hu
theorem State.perform1_memWf {s : State} {moves : Bool} (h : memWf s) : memWf (s.perform1 moves) := by
  unfold State.perform1
  extract_lets f t u v w
  have hu : memWf u := State.eachRank_memWf (memWf.ite (State.setGang_memWf h) h) fun _ h => State.samplePhase_memWf h
  have hv : memWf v := memWf.ite (State.fabricSample_memWf hu) hu
  have hw : memWf w := State.eachRank_memWf hv fun _ h => State.writePhase_memWf h
  exact memWf.ite (State.fabricWrite_memWf hw) hw
theorem State.arrivals_memWf {s : State} (h : memWf s) : memWf s.arrivals :=
  memWf.ite (Res.orElse_memWf (memWf.foldl (fun _ _ ht => Res.orElse_memWf ht (execLinkInterfaceArrival_wf ht)) h) (execLastArrival_wf (memWf.foldl
    (fun _ _ ht => Res.orElse_memWf ht (execLinkInterfaceArrival_wf ht)) h))) (memWf.ite ((Steady.serve ..).wf h) h)
theorem State.tick_memWf {s : State} {gid : Nat} {held : Bool} (h : memWf s) : memWf (s.tick gid held) :=
  memWf.ite ((Steady.focusGang ..).wf h) ((Steady.focusGang ..).wf h)
theorem State.bounds_memWf {s : State} (h : memWf s) : memWf s.bounds :=
  memWf.ite (Res.orElse_memWf (Res.orElse_memWf h (execPhaseHang_wf h)) (execSealokBoundExpiry_wf (Res.orElse_memWf h (execPhaseHang_wf h))))
    (Res.orElse_memWf h (execPhaseHang_wf h))
theorem State.cycle_memWf {s : State} (h : memWf s) : memWf s.cycle := by
  unfold State.cycle
  extract_lets gid t u v
  have hu : memWf u := Res.orElse_memWf (State.wake_memWf h) (execPhaseStart_wf (State.wake_memWf h))
  have hv : memWf v := memWf.ite (State.chains_memWf hu) hu
  have hx : memWf (if v.running then v.issue else (v, false)).1 := by
    split
    · exact State.issue_memWf hv
    · exact hv
  generalize (if v.running then v.issue else (v, false)) = x at hx
  obtain ⟨w, held⟩ := x
  dsimp -zeta only
  extract_lets moves a b c d
  have ha : memWf a := State.perform1_memWf hx
  have hc : memWf c := memWf.ite (State.arrivals_memWf (memWf.ite (State.mapClus_memWf ha) ha)) hx
  have hd : memWf d := State.tick_memWf hc
  exact memWf.ite (State.bounds_memWf hd) hd
theorem State.saveStopped_memWf {s : State} (h : memWf s) : memWf s.saveStopped := by
  refine memWf.ite h (memWf.foldl (fun t x ht => ?_) h)
  dsimp only
  split
  · exact memWf.ite (State.arbitrateIdle_memWf (State.onGang_memWf ((Steady.writeSave ..).wf ht))) (State.onGang_memWf ((Steady.writeSave ..).wf ht))
  · exact State.onGang_memWf ((Steady.writeSave ..).wf ht)
theorem State.maintainMem_memWf {s : State} (h : memWf s) : memWf s.maintainMem := by
  unfold State.maintainMem
  extract_lets t
  have ht : memWf t := State.ripen_memWf (State.retireWorn_memWf (State.dropTorn_memWf (State.abandonStuck_memWf (State.loseAllFar_memWf h))))
  clear_value t
  exact ht
theorem State.maintain_memWf {s : State} (h : memWf s) : memWf s.maintain := by
  unfold State.maintain
  extract_lets t u v
  have ht : memWf t := State.beginPicks_memWf (State.saveStopped_memWf (State.maintainMem_memWf h))
  have hu : memWf u := memWf.foldl (fun _ _ hv => State.tryJob_memWf hv) ht
  have hv : memWf v := State.bureau_memWf (State.reap_memWf hu)
  clear_value v
  exact memWf.ite hv (State.performPending_memWf hv)
theorem State.farWrite_memWf {s : State} {pkg line : Nat} {cells : List Host.Cell} (h : memWf s) : memWf (s.farWrite pkg line cells) :=
  memWf.ite (State.hubAccess_memWf h) h
theorem State.runAuto_wf {s : State} {z : Auto} (h : memWf s) : Res.Wf (s.runAuto z) := by
  unfold State.runAuto
  split
  · exact execDataUe_wf h
  · exact execLinkFailure_wf h
  · exact execLaunchEnd_wf h
  · exact execRollback_wf h
  · exact State.faultAll_memWf h
  · exact execChothesRegion_wf h
  · exact execFwRoutine_wf h
  · exact execLeaseTurn_wf h
  · exact execHostFrame_wf h
  · exact execPortFrame_wf h
  · exact State.farWrite_memWf h
theorem State.runGang_wf {s : State} {g : Nat} (h : memWf s) : Res.Wf (s.runGang g) := memWf.ite (State.cycle_memWf ((Steady.focusGang ..).wf h)) h
theorem State.turn_wf {s : State} (h : memWf s) : Res.Wf s.turn := by
  unfold State.turn
  split
  · exact Res.Wf.ite h (exec_wf h)
  · exact Res.Wf.ite (State.runAuto_wf h) h
  · exact Res.Wf.ite (State.runGang_wf h) h
  · exact Res.Wf.ite trivial (Res.Wf.ite (State.runGang_wf h) trivial)

/-! ### Steps -/

theorem after_wf {z : Res} (hz : z.Wf) : Res.Wf (after z) := by
  cases z with
  | next t => exact State.maintain_memWf hz
  | fault _ => exact trivial
  | refused _ => exact trivial
theorem step_wf {s : State} (h : memWf s) : Res.Wf (step s) := after_wf (State.turn_wf h)

/-- Settles O60: every function of the model that a step runs keeps the canonical form, from the stores of `settle`, a page's move, a rollback and a reset
up to the turn and what follows it. -/
theorem stepKeepsMemory : Obligations.StepKeepsMemory := by
  unfold Obligations.StepKeepsMemory
  intro s t h e
  exact (step_wf h).of_next e

end Sys2Proof.Machine
end
